-- ==== Sys2Proof/Word.lean ====
section
/-! DEFINITION. The word types of the ZG4: integer registers and addresses are 64 bits (01 R15), vector registers
512 bits (01 R16), memory bytes 8 bits. -/

namespace Sys2Proof

/-- A 64-bit register, address or CSR (01 R15, R21). -/
abbrev Word := BitVec 64

/-- One byte of memory. -/
abbrev Byte := BitVec 8

/-- A vector register of 512 bits (01 R16); lane 0 holds the least significant bits. -/
abbrev VWord := BitVec 512

end Sys2Proof
end

