-- ==== Sys2Proof/Syntax.lean ====
section
/-! DEFINITION. The instructions of Krovrax 2.0 and the other steps of spec/opcode_table.json, one constructor per row.
A constructor of an instruction carries its decoded fields (02 R43 to R49); a constructor of an event carries what
names the event: which context, core, queue or island it concerns, and values that come from outside. -/

namespace Sys2Proof

/-- An x, f or v register number, or the number of an index register (02 R43). -/
abbrev Reg := BitVec 5

/-- A mask register number m0 to m7 (02 R43). -/
abbrev MReg := BitVec 3

/-- A tile register number t0 to t7 (02 R47). -/
abbrev Tile := BitVec 3

/-- A register field that may be relative: `rel` says that `n` numbers an index register (02 R44, 01 R29). -/
structure ROp where
  n   : Reg
  rel : Bool
  deriving DecidableEq, Repr

/-- FRM of formats R and V (02 R44). -/
inductive Frm where
  | dyn | rne | rtz | rdn | rup
  deriving DecidableEq, Repr

/-- Scalar FP format: .s FP32, .d FP64 (04 R103). -/
inductive Fmt where
  | s | d
  deriving DecidableEq, Repr

/-- Element width EW of format V (02 R44, 05 R113). -/
inductive Ew where
  | i8 | i16 | i32 | i64 | s | d | e4m3
  deriving DecidableEq, Repr

/-- Control fields of a scalar FP instruction: format, rounding and the shared relative offset. -/
structure FCtl where
  fmt  : Fmt
  frm  : Frm
  rimm : BitVec 6
  deriving DecidableEq, Repr

/-- Control fields of a vector instruction: rounding, shared relative offset, element width, zeroing and mask. -/
structure VCtl where
  frm  : Frm
  rimm : BitVec 6
  ew   : Ew
  z    : Bool
  msk  : MReg
  deriving DecidableEq, Repr

/-- Control fields of a vector memory instruction, with its byte offset (02 R44, 05 R128). -/
structure VMCtl where
  imm  : BitVec 12
  rimm : BitVec 6
  ew   : Ew
  z    : Bool
  msk  : MReg
  deriving DecidableEq, Repr

/-- Width of a scalar access (02 R46, 04 R98). -/
inductive MemW where
  | b | h | w | d
  deriving DecidableEq, Repr

/-- Sign operation of FSGN (02 R52, 04 R110). -/
inductive SgnMode where
  | copy | inv | xor
  deriving DecidableEq, Repr

/-- Conversion code of FCVT (02 R52, 04 R111). -/
inductive FCvt where
  | sd | ds | sw | sl | dw | dl | ws | ls | wd | ld
  deriving DecidableEq, Repr

/-- Condition of VCMP (05 R118). -/
inductive VCond where
  | eq | ne | lt | le | ltu | leu
  deriving DecidableEq, Repr

/-- TMMA format (02 R47, 07 R172). -/
inductive TFmt where
  | p1 | e4m3 | i8 | p2 | s | d
  deriving DecidableEq, Repr

/-- AMO operation (02 R46, 08 R213). -/
inductive AmoOp where
  | swap | add | and | or | xor | min | max | minu | maxu | cas
  deriving DecidableEq, Repr

/-- Ordering field of an AMO (02 R46). -/
inductive MemOrd where
  | none | acq | rel | ar
  deriving DecidableEq, Repr

/-- The eight access paths (02 R48, 11 R283). -/
inductive Path where
  | core | strm | tile | copy | msg | wdb | gwin | near
  deriving DecidableEq, Repr

/-- What TMOV moves: a half data row, a half of the row scales, or the tile scale (07 R167). -/
inductive TSel where
  | row (r : BitVec 5) (half : Bool)
  | rs (half : Bool)
  | ts
  deriving DecidableEq, Repr

/-- The header words 0 to 7 of a weight block (09 R221), as fetched. -/
structure BlkHdr where
  w0 : BitVec 32
  w1 : BitVec 32
  w2 : BitVec 32
  w3 : BitVec 32
  w4 : BitVec 32
  w5 : BitVec 32
  w6 : BitVec 32
  w7 : BitVec 32
  deriving DecidableEq, Repr

/-- What an object load is asked to do (19 R397): the image, the partition that loads it, the descriptor of the address space that takes
it, the requested base, the physical base of the memory the loader allocates, the 4 KiB pages it may use for page tables, the offsets in
the CLMs at which it places handler state, one for each instance of each entry in turn, and the address of the route table (R404),
and where it writes the load status. -/
structure LoadReq where
  image  : List Byte
  part   : Nat
  asd    : Nat
  base   : Word
  pa     : Nat
  tables : List Nat
  clm    : List Nat
  route  : Nat
  status : Nat
  deriving DecidableEq, Repr

/-- What the boot finds (16 R371): the step whose check fails, if any, with its unit and detail (16 R373), the CLM and gateway
memory banks that memory BIST finds failed, as (unit, bank), what the firmware writes to DEVNUM, DOMSIZE and each island's DRPTH, and
the Sutia Link ports that fail training. -/
structure BootResult where
  fail   : Option (Nat × Nat × Word)
  marked : List (Nat × Nat)
  devnum : Nat
  domsize : Nat
  steps  : List (Nat × BitVec 5)
  down   : List Nat
  deriving DecidableEq, Repr

/-- One constructor per row of spec/opcode_table.json. -/
inductive Instr where
  -- events of fetch, traps and outstanding work
  | fetch
  | takeEvent
  | timer (c : Nat)
  -- integer register operations (04 R87, R88)
  | add (d a b : Reg)
  | sub (d a b : Reg)
  | and (d a b : Reg)
  | or (d a b : Reg)
  | xor (d a b : Reg)
  | sll (d a b : Reg)
  | srl (d a b : Reg)
  | sra (d a b : Reg)
  | slt (d a b : Reg)
  | sltu (d a b : Reg)
  | min (d a b : Reg)
  | max (d a b : Reg)
  | minu (d a b : Reg)
  | maxu (d a b : Reg)
  | sel (d a b c : Reg)
  | clz (d a : Reg)
  | ctz (d a : Reg)
  | popc (d a : Reg)
  | mul (d a b : Reg)
  | mulh (d a b : Reg)
  | mulhu (d a b : Reg)
  | div (d a b : Reg)
  | divu (d a b : Reg)
  | rem (d a b : Reg)
  | remu (d a b : Reg)
  -- immediates (04 R89, R90)
  | addi (d a : Reg) (imm : BitVec 12)
  | andi (d a : Reg) (imm : BitVec 12)
  | ori (d a : Reg) (imm : BitVec 12)
  | xori (d a : Reg) (imm : BitVec 12)
  | slti (d a : Reg) (imm : BitVec 12)
  | slli (d a : Reg) (sh : BitVec 6)
  | srli (d a : Reg) (sh : BitVec 6)
  | srai (d a : Reg) (sh : BitVec 6)
  | bfx (d a : Reg) (lenM1 pos : BitVec 6)
  | bfi (d a : Reg) (lenM1 pos : BitVec 6)
  -- constants and addresses (04 R91 to R93)
  | ldhi (d : Reg) (imm : BitVec 20)
  | addpc (d : Reg) (imm : BitVec 20)
  | li (d : Reg) (imm : BitVec 32)
  | lea (d a : Reg) (imm : BitVec 32)
  | leaPc (d : Reg) (imm : BitVec 32)
  | li64 (d : Reg) (imm : Word)
  -- control flow (04 R94, R95)
  | beq (a b : Reg) (off : BitVec 20)
  | bne (a b : Reg) (off : BitVec 20)
  | blt (a b : Reg) (off : BitVec 20)
  | bge (a b : Reg) (off : BitVec 20)
  | bltu (a b : Reg) (off : BitVec 20)
  | bgeu (a b : Reg) (off : BitVec 20)
  | j (off : BitVec 20)
  | jal (d : Reg) (off : BitVec 20)
  | jalr (d a : Reg) (imm : BitVec 12)
  | jl (d : Reg) (off : BitVec 32)
  -- scalar memory (04 R98)
  | ld (d a : Reg) (imm : BitVec 12) (w : MemW) (u : Bool)
  | st (d a : Reg) (imm : BitVec 12) (w : MemW)
  | loadReturn (c i : Nat)
  | storeAck (c : Option Nat) (i : Nat)
  | fld (d a : Reg) (imm : BitVec 12) (w : Fmt)
  | fst (d a : Reg) (imm : BitVec 12) (w : Fmt)
  -- scalar FP (04 R103 to R111)
  | fadd (d a b : ROp) (k : FCtl)
  | fsub (d a b : ROp) (k : FCtl)
  | fmul (d a b : ROp) (k : FCtl)
  | fdiv (d a b : ROp) (k : FCtl)
  | fsqrt (d a : ROp) (k : FCtl)
  | fmin (d a b : ROp) (fmt : Fmt) (rimm : BitVec 6)
  | fmax (d a b : ROp) (fmt : Fmt) (rimm : BitVec 6)
  | feq (d : Reg) (a b : ROp) (fmt : Fmt) (rimm : BitVec 6)
  | flt (d : Reg) (a b : ROp) (fmt : Fmt) (rimm : BitVec 6)
  | fle (d : Reg) (a b : ROp) (fmt : Fmt) (rimm : BitVec 6)
  | fclass (d : Reg) (a : ROp) (fmt : Fmt) (rimm : BitVec 6)
  | fsgn (d a b : ROp) (mode : SgnMode) (fmt : Fmt) (rimm : BitVec 6)
  | fmvX (d : Reg) (a : ROp) (fmt : Fmt) (rimm : BitVec 6)
  | fmvF (d : ROp) (a : Reg) (fmt : Fmt) (rimm : BitVec 6)
  | fcvt (code : FCvt) (d a : ROp) (frm : Frm) (rimm : BitVec 6)
  | fma (d a b c : ROp) (k : FCtl)
  | fms (d a b c : ROp) (k : FCtl)
  | fnma (d a b c : ROp) (k : FCtl)
  | fnms (d a b c : ROp) (k : FCtl)
  -- vector (05 R117 to R127)
  | vadd (d a b : ROp) (k : VCtl)
  | vsub (d a b : ROp) (k : VCtl)
  | vmul (d a b : ROp) (k : VCtl)
  | vdiv (d a b : ROp) (k : VCtl)
  | vsqrt (d a : ROp) (k : VCtl)
  | vmin (d a b : ROp) (k : VCtl)
  | vmax (d a b : ROp) (k : VCtl)
  | vabs (d a : ROp) (k : VCtl)
  | vneg (d a : ROp) (k : VCtl)
  | vand (d a b : ROp) (k : VCtl)
  | vor (d a b : ROp) (k : VCtl)
  | vxor (d a b : ROp) (k : VCtl)
  | vshl (d a b : ROp) (k : VCtl)
  | vshr (d a b : ROp) (k : VCtl)
  | vsra (d a b : ROp) (k : VCtl)
  | vcmp (d : MReg) (a b : ROp) (cond : VCond) (k : VCtl)
  | vsel (d a b : ROp) (c : MReg) (k : VCtl)
  | vexp2 (d a : ROp) (k : VCtl)
  | vrcp (d a : ROp) (k : VCtl)
  | vrsq (d a : ROp) (k : VCtl)
  | vcvt (code : Reg) (d a b : ROp) (k : VCtl)
  | vfma (d a b c : ROp) (k : VCtl)
  | vfms (d a b c : ROp) (k : VCtl)
  | vbcast (d a : ROp) (k : VCtl)
  | vins (d a : ROp) (b : Reg) (k : VCtl)
  | vext (d a : ROp) (b : Reg) (k : VCtl)
  | vperm (d a b : ROp) (k : VCtl)
  | vslide (d a b : ROp) (c : Reg) (k : VCtl)
  | vredsum (d a b : ROp) (k : VCtl)
  | vredmax (d a b : ROp) (k : VCtl)
  | vredmin (d a b : ROp) (k : VCtl)
  | vtopk (d a : ROp) (b : Reg) (c : ROp) (k : VCtl)
  | vtopkm (d a : ROp) (b : Reg) (c : ROp) (k : VCtl)
  | vsortk (d a c : ROp) (k : VCtl)
  -- vector memory (05 R128)
  | vld (d : ROp) (a : Reg) (k : VMCtl)
  | vst (d : ROp) (a : Reg) (k : VMCtl)
  | vlds (d : ROp) (a b : Reg) (k : VMCtl)
  | vgath (d : ROp) (a : Reg) (b : ROp) (k : VMCtl)
  | vscat (d : ROp) (a : Reg) (b : ROp) (k : VMCtl)
  -- masks (05 R131)
  | mand (d a b : MReg)
  | mor (d a b : MReg)
  | mxor (d a b : MReg)
  | mnot (d a : MReg)
  | mpop (d : Reg) (a : MReg)
  | mfirst (d : Reg) (a : MReg)
  | mset (d : MReg) (a : Reg)
  | msetX (d : Reg) (a : MReg)
  -- streams and repetition (06 R136, R151)
  | scfg (sid : BitVec 2) (reg : BitVec 4) (a : Reg)
  | sstart (sid : BitVec 2) (d : Reg) (bv : Bool)
  | sstop (sid : BitVec 2)
  | sstat (d : Reg) (sid : BitVec 2)
  | streamFetch (c k : Nat)
  | streamWrite (c : Option Nat) (i : Nat)
  | frep (a : Reg) (len : BitVec 4)
  | frepi (count : BitVec 12) (len : BitVec 4)
  | frepBodyIssue
  -- matrix unit (07 R163)
  | tcfg (t : Tile) (wid : BitVec 3) (cols : BitVec 7) (rows : BitVec 5)
  | tacq
  | tacqGrant (k : Nat)
  | trel
  | tzero (t : Tile)
  | tmovFr (d : Reg) (t : Tile) (sel : TSel)
  | tmovTo (d : Reg) (t : Tile) (sel : TSel)
  | tswap (t : Tile)
  | tswapExchange (k : Nat)
  | tld (t : Tile) (a b : Reg) (imm : BitVec 12) (pln : BitVec 3) (prnd : Bool)
  | ttld (t : Tile) (a b : Reg) (imm : BitVec 12) (pln : BitVec 3) (prnd : Bool)
  | tst (t : Tile) (a b : Reg) (imm : BitVec 12)
  | tmma (t ta tb : Tile) (fmt : TFmt)
  | tileOpComplete (k : Nat)
  -- planes (07 R175)
  | ldp (d a : Reg) (imm : BitVec 12) (pln : BitVec 3) (prnd : Bool)
  | stp (d a : Reg) (imm : BitVec 12) (pln : BitVec 3)
  | pscl (d a : Reg) (imm : BitVec 12)
  | prescale (d a : Reg) (imm : BitVec 12) (b : Reg)
  | paxpy (d a : Reg) (imm : BitVec 12) (b : Reg)
  | psgdm (d a : Reg) (imm : BitVec 12) (b c : Reg)
  | baddq (a : Reg) (imm : BitVec 12) (b : Reg)
  | nearAck (c : Option Nat) (i : Nat)
  -- tasks and messages (08)
  | fork (a : Reg)
  | dequeRefill (k : Nat)
  | jrec (a b c : Reg)
  | yield
  | mdone
  | tqput (d a b : Reg)
  | tdone (a : Reg)
  | qrnd (d a b : Reg)
  | collectionRoundPass (part : Nat)
  | gqnext (d : Reg)
  | halt
  | haltJ (a : Reg)
  | haltK (a : Reg)
  | haltM
  | send (a : Reg)
  | sendr (a b : Reg)
  | callat (a b c : Reg)
  | messageAccepted (k : Nat) (vn : Bool) (i : Nat)
  | messageArrival (i : Nat)
  | messageService (k : Nat)
  | callActivation (k : Nat)
  | taskActivation (k : Nat)
  | steal (thief victim : Nat)
  | stealPauseEnd (k : Nat)
  | stealServe (victim : Nat)
  | vregGrant (k : Nat)
  | releasePerform (c : Nat)
  -- atomics and ordering (08 R213 to R219)
  | amo (op : AmoOp) (ord : MemOrd) (near dbl : Bool) (d a b c : Reg) (imm : BitVec 12)
  | lda (d a : Reg) (imm : BitVec 12) (w : MemW) (u : Bool)
  | stl (d a : Reg) (imm : BitVec 12) (w : MemW)
  | fence (ld st : Bool)
  | xfence (p q : Path)
  | wait (tl cp st ld : BitVec 4)
  | arrive (d a : Reg) (imm : BitVec 12)
  | await (a : Reg) (imm : BitVec 12) (b : Reg)
  | arrwait (a : Reg) (imm : BitVec 12) (b : Reg)
  | awaitPoll (c : Nat)
  -- engines (09 R247, R248; 10 R278; 14 R342)
  | dcopy (d a : Reg) (off : BitVec 32) (tag : BitVec 8)
  | sortc (d a : Reg) (off : BitVec 32) (tag : BitVec 8)
  | ddec (d a b c : Reg) (slot : BitVec 2) (tag : BitVec 8)
  | dtbl (d a : Reg) (slot : BitVec 2) (tag : BitVec 8)
  | bindw (d a b c : Reg) (size : BitVec 3) (win : BitVec 4)
  | unbindw (win : BitVec 4)
  | dstat (d : Reg) (sel : BitVec 3)
  | engineComplete (u i : Nat)
  | engineFail (u i : Nat)
  -- weight trains (09)
  | wdrun (d a : Reg)
  | wdret
  | mma (h : BlkHdr)
  | mmas (h : BlkHdr)
  | loada (h : BlkHdr)
  | zeroc (h : BlkHdr)
  | storec (h : BlkHdr)
  | post (h : BlkHdr)
  | act (h : BlkHdr)
  | calli (h : BlkHdr)
  | brc (h : BlkHdr)
  | skipz (h : BlkHdr)
  | table (h : BlkHdr)
  | link (h : BlkHdr)
  | exit (h : BlkHdr)
  | trainEnd
  -- system (13 R331)
  | trap (n : BitVec 12)
  | eret
  | csrr (d : Reg) (csr : BitVec 12)
  | csrw (d : Reg) (csr : BitVec 12) (a : Reg)
  | csrs (d : Reg) (csr : BitVec 12) (a : Reg)
  | csrc (d : Reg) (csr : BitVec 12) (a : Reg)
  | ifence
  | tlbi (a : Reg) (scope : BitVec 2)
  | brk (n : BitVec 12)
  | brk96 (n : BitVec 12)
  | brk128 (n : BitVec 12)
  | wfi
  | nop
  | wfiWake (c : Nat)
  -- CSR writes with a rule of their own
  | hresWrite (v : Word)
  | prioWrite (v : Word)
  | cycleWrite (v : Word)
  | tshapeWrite (t : Tile) (v : Word)
  | sposWrite (k : BitVec 2) (v : Word)
  | frepitWrite (cnt : Bool) (v : Word)
  | wdrpcWrite (v : Word)
  | psatWrite (v : Word)
  | pmcWrite (n : BitVec 3) (v : Word)
  | pmcOverflow (k : Nat) (n : BitVec 3)
  | monWrite (n : BitVec 3) (v : Word)
  | drpstWrite (v : Word)
  | gqjobWrite (v : Word)
  | csrWrite (csr : BitVec 12) (v : Word)
  -- scheduling (12, 13)
  | prioAging (c : Nat)
  | sboxDepRead (quad q : Nat)
  | tileDispatch (quad : Nat)
  | tileActivation (k : Nat)
  | gangSwitch (part base : Nat)
  | drainTimeout (part core : Nat)
  | jobResume (part asid : Nat)
  | timesliceExpiry (part asid : Nat)
  -- host (12 R298 to R303, 15)
  | doorbell (vf q : Nat)
  | nopCommand (vf q : Nat)
  | launch (vf q : Nat)
  | launchComplete (vf q : Nat)
  | write64 (vf q : Nat)
  | waitval (vf q : Nat)
  | barrier (vf q : Nat)
  | eventWrite (vf : Nat)
  | hostBar2Access (vf off n : Nat) (data : Option (List Byte))
  | hostRegWrite (vf off : Nat) (v : Word)
  -- mailbox commands (16 R374)
  | bindvf (base : Nat)
  | unbindvf
  | attest
  | bistrun (r : BootResult)
  | recover (r : BootResult)
  | codeinv
  | dstop
  | dresume
  | reset
  | codeInvalidateDone
  -- device control space (16 R366 to R370, 10 R259)
  | domsizeWrite (v : Word)
  | devnumWrite (v : Word)
  | islcfgWrite (i : Nat) (v : Word)
  | islandReady (i : Nat)
  | ipireqWrite (v : Word)
  | cinvWrite (v : Word)
  | trctlWrite (v : Word)
  | clmstRead (c : Nat)
  | samplePulse
  -- power, monitors, CLM (16, 10)
  | droopAlarm (i : Nat)
  | droopStretchEnd (i : Nat)
  | halvingWindowEnd (i : Nat)
  | monitorFire (k : Nat) (n : BitVec 3)
  | clmCorrClear (i : Nat)
  | clmBankMark (clus bank : Nat)
  | regionWakeDone (clus k : Nat)
  | regionPowerDown (clus k : Nat)
  | linkTimeout (part core : Nat)
  | powerOn (r : BootResult)
  | objectLoad (r : LoadReq)
  | waitvalComplete (vf q : Nat)
  | tlbiRetire (c : Nat)
  deriving DecidableEq, Repr

end Sys2Proof
end

