-- ==== Sys2Proof/WellFormed.lean ====
section
/-! DEFINITION. When an instruction's fields are ones its encoding admits: the value rules of 02 R44 to R49 and R55 and
of each instruction's own table that do not depend on machine state. `Instr.defect` names the first rule broken. -/

namespace Sys2Proof

/-- Why an encoding is refused (02 R41, R55; 04 R90; 07 R165, R167, R172). -/
inductive Reject where
  /-- fewer granules than the length code says -/
  | truncated
  /-- bits 1:0 are 00: a pad granule, or no instruction start (R39) -/
  | noInstruction
  /-- an unallocated or reserved major opcode, or a length it does not allow (R51, R53) -/
  | major
  /-- an unallocated fn3 -/
  | fn3
  /-- an unallocated fn12 or c sub-code, FSGN mode, condition or conversion code -/
  | code
  /-- a reserved bit of the format is non-zero -/
  | reservedBit
  /-- a register or format field the instruction does not use is non-zero -/
  | unusedField
  /-- a REL bit on an x or m field or on an unused field -/
  | relBit
  /-- RIMM non-zero with every REL bit clear -/
  | rimm
  /-- a reserved or unaccepted FRM -/
  | frm
  /-- a reserved or unaccepted EW -/
  | ew
  /-- a reserved or unaccepted WID or U -/
  | wid
  /-- a reserved or unaccepted ORD, AOP or NR -/
  | order
  /-- a reserved or unaccepted PLN -/
  | pln
  /-- a reserved FMT -/
  | fmt
  /-- an operand value with a static rule of its own (field length, shape, selector, tile, scope, window size) -/
  | operand
  /-- a step of the table that has no encoding -/
  | notEncoded
  deriving DecidableEq, Repr

/-- Bytes of one element of a tile WID (01 R26); the reserved codes count as 8. -/
def tileWidBytes (w : BitVec 3) : Nat :=
  match w.toNat with
  | 0 => 1
  | 1 => 1
  | 2 => 2
  | 3 => 4
  | _ => 8

/-- The RIMM rule of R44: a non-zero offset needs a relative operand. -/
def rimmOk (rimm : BitVec 6) (ops : List ROp) : Bool :=
  rimm == 0 || ops.any (·.rel)

/-- FP element widths. -/
def Ew.isFp : Ew → Bool
  | .s => true
  | .d => true
  | _ => false

/-- Integer element widths. -/
def Ew.isInt : Ew → Bool
  | .i8 => true
  | .i16 => true
  | .i32 => true
  | .i64 => true
  | _ => false

/-- First broken rule of a list of (rule holds, reason). -/
def firstDefect : List (Bool × Reject) → Option Reject
  | [] => none
  | (ok, r) :: rest => if ok then firstDefect rest else some r

/-- The element width a VCVT code requires (05 R120). -/
def vcvtEw (code : Reg) : Option Ew :=
  match code.toNat with
  | 0 => some .s
  | 1 => some .d
  | 2 => some .d
  | 3 => some .s
  | 4 => some .i32
  | 5 => some .d
  | 6 => some .i64
  | 7 => some .e4m3
  | 8 => some .e4m3
  | 9 => some .e4m3
  | 10 => some .e4m3
  | 11 => some .s
  | 12 => some .s
  | 13 => some .s
  | 14 => some .s
  | 15 => some .e4m3
  | 16 => some .e4m3
  | 17 => some .e4m3
  | 18 => some .e4m3
  | 19 => some .s
  | 20 => some .s
  | 21 => some .s
  | 22 => some .s
  | 23 => some .i16
  | 24 => some .i16
  | 25 => some .s
  | 26 => some .s
  | 27 => some .i32
  | 28 => some .s
  | _ => none

/-- Whether a VCVT code uses field b (05 R120). -/
def vcvtUsesB (code : Reg) : Bool :=
  code == 0 || 15 ≤ code.toNat

/-- Whether a VCVT code may name a rounding mode (05 R120). -/
def vcvtRounds (code : Reg) : Bool :=
  code == 0 || (3 ≤ code.toNat && code.toNat ≤ 6)

/-- Lane-wise arithmetic of EW 0 to 5 that rounds only on FP lanes (05 R117). -/
def vArithDefect (k : VCtl) (ops : List ROp) : Option Reject :=
  firstDefect [(k.ew != .e4m3, .ew), (k.ew.isFp || k.frm == .dyn, .frm), (rimmOk k.rimm ops, .rimm)]

/-- Lane-wise operation of EW 0 to 5 that never rounds. -/
def vPlainDefect (k : VCtl) (ops : List ROp) : Option Reject :=
  firstDefect [(k.ew != .e4m3, .ew), (k.frm == .dyn, .frm), (rimmOk k.rimm ops, .rimm)]

/-- Lane-wise FP operation that rounds by FRM. -/
def vFpDefect (k : VCtl) (ops : List ROp) : Option Reject :=
  firstDefect [(k.ew.isFp, .ew), (rimmOk k.rimm ops, .rimm)]

/-- Lane-wise FP operation of fixed rounding (05 R119). -/
def vFpFixedDefect (k : VCtl) (ops : List ROp) : Option Reject :=
  firstDefect [(k.ew.isFp, .ew), (k.frm == .dyn, .frm), (rimmOk k.rimm ops, .rimm)]

/-- Lane-wise integer operation (EW 0 to 3). -/
def vIntDefect (k : VCtl) (ops : List ROp) : Option Reject :=
  firstDefect [(k.ew.isInt, .ew), (k.frm == .dyn, .frm), (rimmOk k.rimm ops, .rimm)]

/-- Moves of EW 0 to 6 (05 R123); `sc` is the scalar operand, an f register only for EW 4 and 5. -/
def vMoveDefect (k : VCtl) (ops : List ROp) (sc : ROp) : Option Reject :=
  firstDefect [(k.frm == .dyn, .frm), (k.ew.isFp || !sc.rel, .relBit), (rimmOk k.rimm ops, .rimm)]

/-- Reductions (05 R124). -/
def vRedDefect (k : VCtl) (d a b : ROp) (sum : Bool) : Option Reject :=
  firstDefect [(k.ew != .e4m3, .ew), ((sum && k.ew.isFp) || k.frm == .dyn, .frm),
    (k.ew.isFp || (!d.rel && !b.rel), .relBit), (rimmOk k.rimm [d, a, b], .rimm)]

/-- The field rule an instruction breaks, if any. -/
def Instr.defect : Instr → Option Reject
  | .bfx _ _ l p => firstDefect [(l.toNat + p.toNat < 64, .operand)]
  | .bfi _ _ l p => firstDefect [(l.toNat + p.toNat < 64, .operand)]
  | .ld _ _ _ wid u => firstDefect [(!u || wid != .d, .wid)]
  | .lda _ _ _ wid u => firstDefect [(!u || wid != .d, .wid)]
  | .fadd d a b k => firstDefect [(rimmOk k.rimm [d, a, b], .rimm)]
  | .fsub d a b k => firstDefect [(rimmOk k.rimm [d, a, b], .rimm)]
  | .fmul d a b k => firstDefect [(rimmOk k.rimm [d, a, b], .rimm)]
  | .fdiv d a b k => firstDefect [(rimmOk k.rimm [d, a, b], .rimm)]
  | .fsqrt d a k => firstDefect [(rimmOk k.rimm [d, a], .rimm)]
  | .fmin d a b _ r => firstDefect [(rimmOk r [d, a, b], .rimm)]
  | .fmax d a b _ r => firstDefect [(rimmOk r [d, a, b], .rimm)]
  | .feq _ a b _ r => firstDefect [(rimmOk r [a, b], .rimm)]
  | .flt _ a b _ r => firstDefect [(rimmOk r [a, b], .rimm)]
  | .fle _ a b _ r => firstDefect [(rimmOk r [a, b], .rimm)]
  | .fclass _ a _ r => firstDefect [(rimmOk r [a], .rimm)]
  | .fsgn d a b _ _ r => firstDefect [(rimmOk r [d, a, b], .rimm)]
  | .fmvX _ a _ r => firstDefect [(rimmOk r [a], .rimm)]
  | .fmvF d _ _ r => firstDefect [(rimmOk r [d], .rimm)]
  | .fcvt c d a f r =>
    firstDefect [((c != .ds && c != .dw) || f == .dyn, .frm),
      (!(d.rel && (c == .ws || c == .ls || c == .wd || c == .ld)), .relBit),
      (!(a.rel && (c == .sw || c == .sl || c == .dw || c == .dl)), .relBit),
      (rimmOk r [d, a], .rimm)]
  | .fma d a b c k => firstDefect [(rimmOk k.rimm [d, a, b, c], .rimm)]
  | .fms d a b c k => firstDefect [(rimmOk k.rimm [d, a, b, c], .rimm)]
  | .fnma d a b c k => firstDefect [(rimmOk k.rimm [d, a, b, c], .rimm)]
  | .fnms d a b c k => firstDefect [(rimmOk k.rimm [d, a, b, c], .rimm)]
  | .vadd d a b k => vArithDefect k [d, a, b]
  | .vsub d a b k => vArithDefect k [d, a, b]
  | .vmul d a b k => vArithDefect k [d, a, b]
  | .vdiv d a b k => vFpDefect k [d, a, b]
  | .vsqrt d a k => vFpDefect k [d, a]
  | .vmin d a b k => vPlainDefect k [d, a, b]
  | .vmax d a b k => vPlainDefect k [d, a, b]
  | .vabs d a k => vPlainDefect k [d, a]
  | .vneg d a k => vPlainDefect k [d, a]
  | .vand d a b k => vIntDefect k [d, a, b]
  | .vor d a b k => vIntDefect k [d, a, b]
  | .vxor d a b k => vIntDefect k [d, a, b]
  | .vshl d a b k => vIntDefect k [d, a, b]
  | .vshr d a b k => vIntDefect k [d, a, b]
  | .vsra d a b k => vIntDefect k [d, a, b]
  | .vcmp _ a b cond k =>
    firstDefect [(k.ew != .e4m3, .ew), (k.ew.isInt || (cond != .ltu && cond != .leu), .code),
      (k.frm == .dyn, .frm), (rimmOk k.rimm [a, b], .rimm)]
  | .vsel d a b _ k => firstDefect [(k.frm == .dyn, .frm), (rimmOk k.rimm [d, a, b], .rimm)]
  | .vexp2 d a k => vFpFixedDefect k [d, a]
  | .vrcp d a k => vFpFixedDefect k [d, a]
  | .vrsq d a k => vFpFixedDefect k [d, a]
  | .vcvt code d a b k =>
    firstDefect [(vcvtEw code != none, .code), (vcvtEw code == some k.ew, .ew),
      (vcvtRounds code || k.frm == .dyn, .frm), (vcvtUsesB code || b == ⟨0, false⟩, .unusedField),
      (rimmOk k.rimm [d, a, b], .rimm)]
  | .vfma d a b c k => vFpDefect k [d, a, b, c]
  | .vfms d a b c k => vFpDefect k [d, a, b, c]
  | .vbcast d a k => vMoveDefect k [d, a] a
  | .vins d a _ k => vMoveDefect k [d, a] a
  | .vext d a _ k => vMoveDefect k [d, a] d
  | .vperm d a b k => firstDefect [(k.frm == .dyn, .frm), (rimmOk k.rimm [d, a, b], .rimm)]
  | .vslide d a b _ k => firstDefect [(k.frm == .dyn, .frm), (rimmOk k.rimm [d, a, b], .rimm)]
  | .vredsum d a b k => vRedDefect k d a b true
  | .vredmax d a b k => vRedDefect k d a b false
  | .vredmin d a b k => vRedDefect k d a b false
  | .vtopk d a _ c k => firstDefect [(k.ew == .s, .ew), (k.frm == .dyn, .frm), (rimmOk k.rimm [d, a, c], .rimm)]
  | .vtopkm d a _ c k => firstDefect [(k.ew == .s, .ew), (k.frm == .dyn, .frm), (rimmOk k.rimm [d, a, c], .rimm)]
  | .vsortk d a c k =>
    firstDefect [(k.ew == .s || k.ew == .i32, .ew), (k.frm == .dyn, .frm), (rimmOk k.rimm [d, a, c], .rimm)]
  | .vld d _ k => firstDefect [(rimmOk k.rimm [d], .rimm)]
  | .vst d _ k => firstDefect [(rimmOk k.rimm [d], .rimm)]
  | .vlds d _ _ k => firstDefect [(rimmOk k.rimm [d], .rimm)]
  | .vgath d _ b k => firstDefect [(k.ew != .i8 && k.ew != .i16 && k.ew != .e4m3, .ew), (rimmOk k.rimm [d, b], .rimm)]
  | .vscat d _ b k => firstDefect [(k.ew != .i8 && k.ew != .i16 && k.ew != .e4m3, .ew), (rimmOk k.rimm [d, b], .rimm)]
  | .scfg _ r _ => firstDefect [(r.toNat ≤ 10, .operand)]
  | .tcfg _ w cols _ => firstDefect [(w.toNat ≤ 4, .fmt), ((cols.toNat + 1) * tileWidBytes w ≤ 128, .operand)]
  | .tld _ _ _ _ p _ => firstDefect [(p.toNat ≤ 4, .pln)]
  | .ttld _ _ _ _ p _ => firstDefect [(p.toNat ≤ 4, .pln)]
  | .tmma t ta tb _ => firstDefect [(t != ta && t != tb, .operand)]
  | .ldp _ _ _ p _ => firstDefect [(p.toNat ≤ 4, .pln)]
  | .stp _ _ _ p => firstDefect [(p.toNat ≤ 4, .pln)]
  | .amo op ord near _ d _ _ c _ =>
    firstDefect [(op == .cas || c == 0, .unusedField), (!near || (d == 0 && (ord == .none || ord == .rel)), .order)]
  | .fence l s => firstDefect [(l || s, .operand)]
  | .bindw _ _ _ _ sz _ => firstDefect [(sz.toNat ≤ 4, .operand)]
  | .dstat _ dsel => firstDefect [(dsel.toNat ≤ 4, .operand)]
  | .tlbi a scope => firstDefect [(scope == 1 || a == 0, .unusedField)]
  | .add .. | .sub .. | .and .. | .or .. | .xor .. | .sll .. | .srl .. | .sra .. | .slt .. | .sltu ..
  | .min .. | .max .. | .minu .. | .maxu .. | .sel _ _ _ _ | .clz .. | .ctz .. | .popc .. | .mul .. | .mulh ..
  | .mulhu .. | .div .. | .divu .. | .rem .. | .remu .. | .addi .. | .andi .. | .ori .. | .xori .. | .slti ..
  | .slli .. | .srli .. | .srai .. | .ldhi .. | .addpc .. | .li .. | .lea .. | .leaPc .. | .li64 ..
  | .beq .. | .bne .. | .blt .. | .bge .. | .bltu .. | .bgeu .. | .j .. | .jal .. | .jalr .. | .jl ..
  | .st .. | .fld .. | .fst .. | .mand .. | .mor .. | .mxor .. | .mnot .. | .mpop .. | .mfirst .. | .mset ..
  | .msetX .. | .sstart .. | .sstop .. | .sstat .. | .frep .. | .frepi .. | .tacq | .trel | .tzero ..
  | .tmovFr .. | .tmovTo .. | .tswap .. | .tst .. | .pscl .. | .prescale .. | .paxpy .. | .psgdm .. | .baddq ..
  | .fork .. | .jrec .. | .yield | .mdone | .tqput .. | .tdone .. | .qrnd .. | .gqnext .. | .halt | .haltJ ..
  | .haltK .. | .haltM | .send .. | .sendr .. | .callat .. | .stl .. | .xfence .. | .wait .. | .arrive ..
  | .await .. | .arrwait .. | .dcopy .. | .sortc .. | .ddec .. | .dtbl .. | .unbindw .. | .wdrun .. | .wdret
  | .trap .. | .eret | .csrr .. | .csrw .. | .csrs .. | .csrc .. | .ifence | .brk .. | .brk96 .. | .brk128 ..
  | .wfi | .nop => none
  | .fetch | .takeEvent | .timer .. | .loadReturn .. | .storeAck .. | .streamFetch .. | .streamWrite ..
  | .frepBodyIssue | .tacqGrant .. | .tswapExchange .. | .tileOpComplete .. | .nearAck .. | .dequeRefill ..
  | .collectionRoundPass .. | .messageAccepted .. | .messageArrival .. | .messageService .. | .callActivation ..
  | .taskActivation .. | .steal .. | .stealPauseEnd .. | .stealServe .. | .vregGrant .. | .releasePerform ..
  | .awaitPoll .. | .engineComplete .. | .engineFail .. | .mma .. | .mmas .. | .loada .. | .zeroc .. | .storec ..
  | .post .. | .act .. | .calli .. | .brc .. | .skipz .. | .table .. | .link .. | .exit .. | .trainEnd
  | .wfiWake .. | .hresWrite .. | .prioWrite .. | .cycleWrite .. | .tshapeWrite .. | .sposWrite ..
  | .frepitWrite .. | .wdrpcWrite .. | .psatWrite .. | .pmcWrite .. | .pmcOverflow .. | .monWrite ..
  | .drpstWrite .. | .gqjobWrite .. | .csrWrite .. | .prioAging .. | .sboxDepRead .. | .tileDispatch ..
  | .tileActivation .. | .gangSwitch .. | .drainTimeout .. | .jobResume .. | .timesliceExpiry .. | .doorbell ..
  | .nopCommand .. | .launch .. | .launchComplete .. | .write64 .. | .waitval .. | .barrier .. | .eventWrite ..
  | .hostBar2Access .. | .hostRegWrite .. | .bindvf .. | .unbindvf | .attest | .bistrun .. | .recover ..
  | .codeinv | .dstop | .dresume | .reset | .codeInvalidateDone | .domsizeWrite .. | .devnumWrite ..
  | .islcfgWrite .. | .islandReady .. | .ipireqWrite .. | .cinvWrite .. | .trctlWrite .. | .clmstRead ..
  | .samplePulse | .droopAlarm .. | .droopStretchEnd .. | .halvingWindowEnd .. | .monitorFire ..
  | .clmCorrClear .. | .clmBankMark .. | .regionWakeDone .. | .regionPowerDown .. | .linkTimeout .. | .powerOn ..
  | .objectLoad .. | .waitvalComplete .. | .tlbiRetire .. => some .notEncoded

/-- An instruction whose fields its encoding admits. Events of the table are never well-formed instructions. -/
def Instr.wf (i : Instr) : Bool := i.defect == none

/-- The steps of the table that are no instruction of the opcode map. -/
def Instr.isEvent (i : Instr) : Bool := i.defect == some .notEncoded

end Sys2Proof
end

