-- ==== Sys2Proof/Decode.lean ====
section
/-! DEFINITION. The decoder of 02 R37 to R55: granules (little-endian 32-bit words, R38) to an instruction or a named
refusal, and after it the encoder. Each bit-field layout of R43 to R49 is a structure with `unpack` and `pack`. -/

namespace Sys2Proof

/-- Granule 0 of every format (R43), lowest field last. -/
structure Lo where
  c   : BitVec 5
  b   : BitVec 5
  a   : BitVec 5
  d   : BitVec 5
  fn3 : BitVec 3
  op  : BitVec 7
  len : BitVec 2
  deriving DecidableEq, Repr

def Lo.pack (l : Lo) : BitVec 32 := l.c ++ l.b ++ l.a ++ l.d ++ l.fn3 ++ l.op ++ l.len

def Lo.unpack (w : BitVec 32) : Lo :=
  ⟨w.extractLsb' 27 5, w.extractLsb' 22 5, w.extractLsb' 17 5, w.extractLsb' 12 5, w.extractLsb' 9 3,
    w.extractLsb' 2 7, w.extractLsb' 0 2⟩

/-- Granule 1 of formats R and V (R44); format R has `low7` zero. -/
structure HiR where
  fn12 : BitVec 12
  frm  : BitVec 3
  rimm : BitVec 6
  relD : BitVec 1
  relA : BitVec 1
  relB : BitVec 1
  relC : BitVec 1
  ew   : BitVec 3
  z    : BitVec 1
  msk  : BitVec 3
  deriving DecidableEq, Repr

def HiR.pack (h : HiR) : BitVec 32 :=
  h.fn12 ++ h.frm ++ h.rimm ++ h.relD ++ h.relA ++ h.relB ++ h.relC ++ h.ew ++ h.z ++ h.msk

def HiR.unpack (w : BitVec 32) : HiR :=
  ⟨w.extractLsb' 20 12, w.extractLsb' 17 3, w.extractLsb' 11 6, w.extractLsb' 10 1, w.extractLsb' 9 1,
    w.extractLsb' 8 1, w.extractLsb' 7 1, w.extractLsb' 4 3, w.extractLsb' 3 1, w.extractLsb' 0 3⟩

/-- Granule 1 of format I, and the granule-1 layout of S for opcodes with no field of their own (R45, R48). -/
structure HiI where
  imm : BitVec 12
  rsv : BitVec 20
  deriving DecidableEq, Repr

def HiI.pack (h : HiI) : BitVec 32 := h.imm ++ h.rsv

def HiI.unpack (w : BitVec 32) : HiI := ⟨w.extractLsb' 20 12, w.extractLsb' 0 20⟩

/-- Granule 1 of formats U and B (R45). -/
structure HiU where
  imm : BitVec 20
  rsv : BitVec 12
  deriving DecidableEq, Repr

def HiU.pack (h : HiU) : BitVec 32 := h.imm ++ h.rsv

def HiU.unpack (w : BitVec 32) : HiU := ⟨w.extractLsb' 12 20, w.extractLsb' 0 12⟩

/-- Granule 1 of format M (R46). -/
structure HiM where
  imm  : BitVec 12
  aop  : BitVec 4
  pln  : BitVec 3
  prnd : BitVec 1
  ord  : BitVec 3
  nr   : BitVec 1
  rsv  : BitVec 4
  u    : BitVec 1
  wid  : BitVec 3
  deriving DecidableEq, Repr

def HiM.pack (h : HiM) : BitVec 32 :=
  h.imm ++ h.aop ++ h.pln ++ h.prnd ++ h.ord ++ h.nr ++ h.rsv ++ h.u ++ h.wid

def HiM.unpack (w : BitVec 32) : HiM :=
  ⟨w.extractLsb' 20 12, w.extractLsb' 16 4, w.extractLsb' 13 3, w.extractLsb' 12 1, w.extractLsb' 9 3,
    w.extractLsb' 8 1, w.extractLsb' 4 4, w.extractLsb' 3 1, w.extractLsb' 0 3⟩

/-- Granule 1 of format T (R47). -/
structure HiT where
  imm  : BitVec 12
  tt   : BitVec 3
  ta   : BitVec 3
  tb   : BitVec 3
  fmt  : BitVec 3
  pln  : BitVec 3
  prnd : BitVec 1
  dir  : BitVec 1
  rsv  : BitVec 3
  deriving DecidableEq, Repr

def HiT.pack (h : HiT) : BitVec 32 :=
  h.imm ++ h.tt ++ h.ta ++ h.tb ++ h.fmt ++ h.pln ++ h.prnd ++ h.dir ++ h.rsv

def HiT.unpack (w : BitVec 32) : HiT :=
  ⟨w.extractLsb' 20 12, w.extractLsb' 17 3, w.extractLsb' 14 3, w.extractLsb' 11 3, w.extractLsb' 8 3,
    w.extractLsb' 5 3, w.extractLsb' 4 1, w.extractLsb' 3 1, w.extractLsb' 0 3⟩

/-- Granule 1 of format S (R48), cut at every field any opcode uses: bit 51, BV 50, SID 49:48, then four nibbles. -/
structure HiS where
  imm : BitVec 12
  top : BitVec 1
  bv  : BitVec 1
  sid : BitVec 2
  n3  : BitVec 4
  n2  : BitVec 4
  n1  : BitVec 4
  n0  : BitVec 4
  deriving DecidableEq, Repr

def HiS.pack (h : HiS) : BitVec 32 := h.imm ++ h.top ++ h.bv ++ h.sid ++ h.n3 ++ h.n2 ++ h.n1 ++ h.n0

def HiS.unpack (w : BitVec 32) : HiS :=
  ⟨w.extractLsb' 20 12, w.extractLsb' 19 1, w.extractLsb' 18 1, w.extractLsb' 16 2, w.extractLsb' 12 4,
    w.extractLsb' 8 4, w.extractLsb' 4 4, w.extractLsb' 0 4⟩

/-- Granule 1 of format C (R49). -/
structure HiC where
  tag : BitVec 8
  rsv : BitVec 24
  deriving DecidableEq, Repr

def HiC.pack (h : HiC) : BitVec 32 := h.tag ++ h.rsv

def HiC.unpack (w : BitVec 32) : HiC := ⟨w.extractLsb' 24 8, w.extractLsb' 0 24⟩

/-- Granule 1 of format L (R49). -/
structure HiL where
  rsv : BitVec 31
  pcb : BitVec 1
  deriving DecidableEq, Repr

def HiL.pack (h : HiL) : BitVec 32 := h.rsv ++ h.pcb

def HiL.unpack (w : BitVec 32) : HiL := ⟨w.extractLsb' 1 31, w.extractLsb' 0 1⟩

/-- Continue when a rule of R55 holds. -/
def need (ok : Bool) (r : Reject) (k : Except Reject Instr) : Except Reject Instr :=
  if ok then k else .error r

/-- A one-bit field as a Bool, and back. -/
def bit1 (b : BitVec 1) : Bool := b == 1
def unbit1 (b : Bool) : BitVec 1 := if b then 1 else 0

def Frm.decode (f : BitVec 3) : Option Frm :=
  match f.toNat with
  | 0 => some .dyn
  | 1 => some .rne
  | 2 => some .rtz
  | 3 => some .rdn
  | 4 => some .rup
  | _ => none

def Frm.encode : Frm → BitVec 3
  | .dyn => 0
  | .rne => 1
  | .rtz => 2
  | .rdn => 3
  | .rup => 4

def Ew.decode (f : BitVec 3) : Option Ew :=
  match f.toNat with
  | 0 => some .i8
  | 1 => some .i16
  | 2 => some .i32
  | 3 => some .i64
  | 4 => some .s
  | 5 => some .d
  | 6 => some .e4m3
  | _ => none

def Ew.encode : Ew → BitVec 3
  | .i8 => 0
  | .i16 => 1
  | .i32 => 2
  | .i64 => 3
  | .s => 4
  | .d => 5
  | .e4m3 => 6

/-- WID of a scalar access; `.v` and the reserved codes belong to no scalar access. -/
def MemW.decode (f : BitVec 3) : Option MemW :=
  match f.toNat with
  | 0 => some .b
  | 1 => some .h
  | 2 => some .w
  | 3 => some .d
  | _ => none

def MemW.encode : MemW → BitVec 3
  | .b => 0
  | .h => 1
  | .w => 2
  | .d => 3

def AmoOp.decode (f : BitVec 4) : Option AmoOp :=
  match f.toNat with
  | 0 => some .swap
  | 1 => some .add
  | 2 => some .and
  | 3 => some .or
  | 4 => some .xor
  | 5 => some .min
  | 6 => some .max
  | 7 => some .minu
  | 8 => some .maxu
  | 9 => some .cas
  | _ => none

def AmoOp.encode : AmoOp → BitVec 4
  | .swap => 0
  | .add => 1
  | .and => 2
  | .or => 3
  | .xor => 4
  | .min => 5
  | .max => 6
  | .minu => 7
  | .maxu => 8
  | .cas => 9

def MemOrd.decode (f : BitVec 3) : Option MemOrd :=
  match f.toNat with
  | 0 => some .none
  | 1 => some .acq
  | 2 => some .rel
  | 3 => some .ar
  | _ => Option.none

def MemOrd.encode : MemOrd → BitVec 3
  | .none => 0
  | .acq => 1
  | .rel => 2
  | .ar => 3

def TFmt.decode (f : BitVec 3) : Option TFmt :=
  match f.toNat with
  | 0 => some .p1
  | 1 => some .e4m3
  | 2 => some .i8
  | 3 => some .p2
  | 4 => some .s
  | 5 => some .d
  | _ => none

def TFmt.encode : TFmt → BitVec 3
  | .p1 => 0
  | .e4m3 => 1
  | .i8 => 2
  | .p2 => 3
  | .s => 4
  | .d => 5

def VCond.decode (c : BitVec 5) : Option VCond :=
  match c.toNat with
  | 0 => some .eq
  | 1 => some .ne
  | 2 => some .lt
  | 3 => some .le
  | 4 => some .ltu
  | 5 => some .leu
  | _ => none

def VCond.encode : VCond → BitVec 5
  | .eq => 0
  | .ne => 1
  | .lt => 2
  | .le => 3
  | .ltu => 4
  | .leu => 5

def SgnMode.decode (c : BitVec 5) : Option SgnMode :=
  match c.toNat with
  | 0 => some .copy
  | 1 => some .inv
  | 2 => some .xor
  | _ => none

def SgnMode.encode : SgnMode → BitVec 5
  | .copy => 0
  | .inv => 1
  | .xor => 2

def FCvt.decode (c : BitVec 5) : Option FCvt :=
  match c.toNat with
  | 0 => some .sd
  | 1 => some .ds
  | 2 => some .sw
  | 3 => some .sl
  | 4 => some .dw
  | 5 => some .dl
  | 6 => some .ws
  | 7 => some .ls
  | 8 => some .wd
  | 9 => some .ld
  | _ => none

def FCvt.encode : FCvt → BitVec 5
  | .sd => 0
  | .ds => 1
  | .sw => 2
  | .sl => 3
  | .dw => 4
  | .dl => 5
  | .ws => 6
  | .ls => 7
  | .wd => 8
  | .ld => 9

/-- XFENCE path codes (R48). -/
def Path.decode (c : BitVec 4) : Option Path :=
  match c.toNat with
  | 0 => some .core
  | 1 => some .strm
  | 2 => some .tile
  | 3 => some .copy
  | 4 => some .msg
  | 5 => some .wdb
  | 6 => some .gwin
  | 7 => some .near
  | _ => none

def Path.encode : Path → BitVec 4
  | .core => 0
  | .strm => 1
  | .tile => 2
  | .copy => 3
  | .msg => 4
  | .wdb => 5
  | .gwin => 6
  | .near => 7

/-- TMOV selector (07 R167): SEL in bits 7:6, H in bit 5, ROW in bits 4:0. -/
def TSel.decode (imm : BitVec 12) : Option TSel :=
  let h := bit1 (imm.extractLsb' 5 1)
  let row := imm.extractLsb' 0 5
  match (imm.extractLsb' 6 6).toNat with
  | 0 => some (.row row h)
  | 1 => if row == 0 then some (.rs h) else none
  | 2 => if row == 0 && !h then some .ts else none
  | _ => none

def TSel.encode : TSel → BitVec 12
  | .row r h => (0 : BitVec 6) ++ unbit1 h ++ r
  | .rs h => (1 : BitVec 6) ++ unbit1 h ++ (0 : BitVec 5)
  | .ts => 128

/-- The m register a 5-bit field names; bits 4:3 must be zero (R43). -/
def mField (f : BitVec 5) : MReg := f.extractLsb' 0 3
def mOk (f : BitVec 5) : Bool := f.extractLsb' 3 2 == 0
def mEnc (m : MReg) : BitVec 5 := (0 : BitVec 2) ++ m

/-- The REL bits that are set stand on operands that may be relative (R44). -/
def HiR.relOk (h : HiR) (d a b c : Bool) : Bool :=
  (d || h.relD == 0) && (a || h.relA == 0) && (b || h.relB == 0) && (c || h.relC == 0)

def opD (l : Lo) (h : HiR) : ROp := ⟨l.d, bit1 h.relD⟩
def opA (l : Lo) (h : HiR) : ROp := ⟨l.a, bit1 h.relA⟩
def opB (l : Lo) (h : HiR) : ROp := ⟨l.b, bit1 h.relB⟩
def opC (l : Lo) (h : HiR) : ROp := ⟨l.c, bit1 h.relC⟩

/-- Format R with nothing but registers and fn12: every other field zero. -/
def HiR.plain (h : HiR) : Bool :=
  h.frm == 0 && h.rimm == 0 && h.relOk false false false false && h.ew == 0 && h.z == 0 && h.msk == 0

/-- Major 0x00 (04 R87). -/
def decInt (l : Lo) (h : HiR) : Except Reject Instr :=
  need (l.fn3 == 0) .fn3 <| need h.plain .reservedBit <|
  let abc := fun i => need (l.c == 0) .unusedField (.ok i)
  let a1 := fun i => need (l.b == 0 && l.c == 0) .unusedField (.ok i)
  match h.fn12.toNat with
  | 0 => abc (.add l.d l.a l.b)
  | 1 => abc (.sub l.d l.a l.b)
  | 2 => abc (.and l.d l.a l.b)
  | 3 => abc (.or l.d l.a l.b)
  | 4 => abc (.xor l.d l.a l.b)
  | 5 => abc (.sll l.d l.a l.b)
  | 6 => abc (.srl l.d l.a l.b)
  | 7 => abc (.sra l.d l.a l.b)
  | 8 => abc (.slt l.d l.a l.b)
  | 9 => abc (.sltu l.d l.a l.b)
  | 10 => abc (.min l.d l.a l.b)
  | 11 => abc (.max l.d l.a l.b)
  | 12 => abc (.minu l.d l.a l.b)
  | 13 => abc (.maxu l.d l.a l.b)
  | 14 => .ok (.sel l.d l.a l.b l.c)
  | 15 => a1 (.clz l.d l.a)
  | 16 => a1 (.ctz l.d l.a)
  | 17 => a1 (.popc l.d l.a)
  | _ => .error .code

/-- Major 0x01 (04 R88). -/
def decMul (l : Lo) (h : HiR) : Except Reject Instr :=
  need (l.fn3 == 0) .fn3 <| need h.plain .reservedBit <| need (l.c == 0) .unusedField <|
  match h.fn12.toNat with
  | 0 => .ok (.mul l.d l.a l.b)
  | 1 => .ok (.mulh l.d l.a l.b)
  | 2 => .ok (.mulhu l.d l.a l.b)
  | 3 => .ok (.div l.d l.a l.b)
  | 4 => .ok (.divu l.d l.a l.b)
  | 5 => .ok (.rem l.d l.a l.b)
  | 6 => .ok (.remu l.d l.a l.b)
  | _ => .error .code

/-- Major 0x02 (04 R89). -/
def decImm (l : Lo) (h : HiI) : Except Reject Instr :=
  need (h.rsv == 0) .reservedBit <| need (l.b == 0 && l.c == 0) .unusedField <|
  let sh := fun i => need (h.imm.extractLsb' 6 6 == 0) .reservedBit (.ok i)
  match l.fn3.toNat with
  | 0 => .ok (.addi l.d l.a h.imm)
  | 1 => .ok (.andi l.d l.a h.imm)
  | 2 => .ok (.ori l.d l.a h.imm)
  | 3 => .ok (.xori l.d l.a h.imm)
  | 4 => .ok (.slti l.d l.a h.imm)
  | 5 => sh (.slli l.d l.a (h.imm.extractLsb' 0 6))
  | 6 => sh (.srli l.d l.a (h.imm.extractLsb' 0 6))
  | _ => sh (.srai l.d l.a (h.imm.extractLsb' 0 6))

/-- Major 0x03 (04 R90). -/
def decBf (l : Lo) (h : HiI) : Except Reject Instr :=
  need (h.rsv == 0) .reservedBit <| need (l.b == 0 && l.c == 0) .unusedField <|
  match l.fn3.toNat with
  | 0 => .ok (.bfx l.d l.a (h.imm.extractLsb' 6 6) (h.imm.extractLsb' 0 6))
  | 1 => .ok (.bfi l.d l.a (h.imm.extractLsb' 6 6) (h.imm.extractLsb' 0 6))
  | _ => .error .fn3

/-- Major 0x04 (04 R91, R92). -/
def decUpper (l : Lo) (h : HiU) : Except Reject Instr :=
  need (h.rsv == 0) .reservedBit <| need (l.a == 0 && l.b == 0 && l.c == 0) .unusedField <|
  match l.fn3.toNat with
  | 0 => .ok (.ldhi l.d h.imm)
  | 1 => .ok (.addpc l.d h.imm)
  | _ => .error .fn3

/-- Major 0x10 (04 R94). -/
def decBranch (l : Lo) (h : HiU) : Except Reject Instr :=
  need (h.rsv == 0) .reservedBit <| need (l.d == 0 && l.c == 0) .unusedField <|
  match l.fn3.toNat with
  | 0 => .ok (.beq l.a l.b h.imm)
  | 1 => .ok (.bne l.a l.b h.imm)
  | 2 => .ok (.blt l.a l.b h.imm)
  | 3 => .ok (.bge l.a l.b h.imm)
  | 4 => .ok (.bltu l.a l.b h.imm)
  | 5 => .ok (.bgeu l.a l.b h.imm)
  | _ => .error .fn3

/-- Major 0x11 (04 R95). -/
def decJump (l : Lo) (h : HiU) : Except Reject Instr :=
  need (h.rsv == 0) .reservedBit <| need (l.a == 0 && l.b == 0 && l.c == 0) .unusedField <|
  match l.fn3.toNat with
  | 0 => need (l.d == 0) .unusedField (.ok (.j h.imm))
  | 1 => .ok (.jal l.d h.imm)
  | _ => .error .fn3

/-- Major 0x12 (04 R95). -/
def decJalr (l : Lo) (h : HiI) : Except Reject Instr :=
  need (l.fn3 == 0) .fn3 <| need (h.rsv == 0) .reservedBit <|
  need (l.b == 0 && l.c == 0) .unusedField (.ok (.jalr l.d l.a h.imm))

/-- Format M with nothing but imm12, WID and U. -/
def HiM.mem (h : HiM) : Bool :=
  h.aop == 0 && h.pln == 0 && h.prnd == 0 && h.ord == 0 && h.nr == 0 && h.rsv == 0

/-- Majors 0x18 to 0x1B (04 R98). -/
def decScalarMem (l : Lo) (h : HiM) : Except Reject Instr :=
  need (l.fn3 == 0) .fn3 <| need h.mem .reservedBit <| need (l.b == 0 && l.c == 0) .unusedField <|
  match MemW.decode h.wid with
  | none => .error .wid
  | some wd =>
    match l.op.toNat with
    | 0x18 => .ok (.ld l.d l.a h.imm wd (bit1 h.u))
    | 0x19 => need (h.u == 0) .wid (.ok (.st l.d l.a h.imm wd))
    | op =>
      need (h.u == 0) .wid <|
      match wd with
      | .w => .ok (if op == 0x1A then .fld l.d l.a h.imm .s else .fst l.d l.a h.imm .s)
      | .d => .ok (if op == 0x1A then .fld l.d l.a h.imm .d else .fst l.d l.a h.imm .d)
      | _ => .error .wid

/-- Scalar FP format of fn3 (04 R103). -/
def fmtOf (fn3 : BitVec 3) : Option Fmt :=
  match fn3.toNat with
  | 0 => some .s
  | 1 => some .d
  | _ => none

def Fmt.encode : Fmt → BitVec 3
  | .s => 0
  | .d => 1

/-- Major 0x20 (04 R103 to R111). -/
def decFp (l : Lo) (h : HiR) : Except Reject Instr :=
  need (h.ew == 0 && h.z == 0 && h.msk == 0) .reservedBit <|
  match fmtOf l.fn3, Frm.decode h.frm with
  | none, _ => .error .fn3
  | _, none => .error .frm
  | some fmt, some frm =>
    let k : FCtl := ⟨fmt, frm, h.rimm⟩
    let d := opD l h
    let a := opA l h
    let b := opB l h
    let r3 := fun i => need (l.c == 0) .unusedField <| need (h.relOk true true true false) .relBit (.ok i)
    let r3n := fun i => need (frm == .dyn) .frm (r3 i)
    let cmp := fun i => need (frm == .dyn) .frm <| need (l.c == 0) .unusedField <|
      need (h.relOk false true true false) .relBit (.ok i)
    let one := fun rd ra i => need (l.b == 0 && l.c == 0) .unusedField <|
      need (h.relOk rd ra false false) .relBit (.ok i)
    match h.fn12.toNat with
    | 0 => r3 (.fadd d a b k)
    | 1 => r3 (.fsub d a b k)
    | 2 => r3 (.fmul d a b k)
    | 3 => r3 (.fdiv d a b k)
    | 4 => one true true (.fsqrt d a k)
    | 5 => r3n (.fmin d a b fmt h.rimm)
    | 6 => r3n (.fmax d a b fmt h.rimm)
    | 7 => cmp (.feq l.d a b fmt h.rimm)
    | 8 => cmp (.flt l.d a b fmt h.rimm)
    | 9 => cmp (.fle l.d a b fmt h.rimm)
    | 10 => need (frm == .dyn) .frm (one false true (.fclass l.d a fmt h.rimm))
    | 11 =>
      match SgnMode.decode l.c with
      | none => .error .code
      | some m => need (frm == .dyn) .frm <| need (h.relOk true true true false) .relBit (.ok (.fsgn d a b m fmt h.rimm))
    | 12 => need (frm == .dyn) .frm (one false true (.fmvX l.d a fmt h.rimm))
    | 13 => need (frm == .dyn) .frm (one true false (.fmvF d l.a fmt h.rimm))
    | 14 =>
      match FCvt.decode l.c with
      | none => .error .code
      | some code =>
        need (fmt == .s) .fn3 <| need (l.b == 0) .unusedField <|
          need (h.relOk true true false false) .relBit (.ok (.fcvt code d a frm h.rimm))
    | _ => .error .code

/-- Major 0x21 (04 R106). -/
def decFma (l : Lo) (h : HiR) : Except Reject Instr :=
  need (h.ew == 0 && h.z == 0 && h.msk == 0) .reservedBit <|
  match fmtOf l.fn3, Frm.decode h.frm with
  | none, _ => .error .fn3
  | _, none => .error .frm
  | some fmt, some frm =>
    let k : FCtl := ⟨fmt, frm, h.rimm⟩
    match h.fn12.toNat with
    | 0 => .ok (.fma (opD l h) (opA l h) (opB l h) (opC l h) k)
    | 1 => .ok (.fms (opD l h) (opA l h) (opB l h) (opC l h) k)
    | 2 => .ok (.fnma (opD l h) (opA l h) (opB l h) (opC l h) k)
    | 3 => .ok (.fnms (opD l h) (opA l h) (opB l h) (opC l h) k)
    | _ => .error .code

/-- The control fields of format V, when FRM and EW are no reserved code. -/
def HiR.vctl (h : HiR) : Option VCtl :=
  match Frm.decode h.frm, Ew.decode h.ew with
  | some f, some e => some ⟨f, h.rimm, e, bit1 h.z, h.msk⟩
  | _, _ => none

/-- Major 0x30 (05 R117 to R120). -/
def decVec (l : Lo) (h : HiR) : Except Reject Instr :=
  need (l.fn3 == 0) .fn3 <|
  match h.vctl with
  | none => .error .ew
  | some k =>
    let d := opD l h
    let a := opA l h
    let b := opB l h
    let r3 := fun i => need (l.c == 0) .unusedField <| need (h.relOk true true true false) .relBit (.ok i)
    let r2 := fun i => need (l.b == 0 && l.c == 0) .unusedField <| need (h.relOk true true false false) .relBit (.ok i)
    match h.fn12.toNat with
    | 0 => r3 (.vadd d a b k)
    | 1 => r3 (.vsub d a b k)
    | 2 => r3 (.vmul d a b k)
    | 3 => r3 (.vdiv d a b k)
    | 4 => r2 (.vsqrt d a k)
    | 5 => r3 (.vmin d a b k)
    | 6 => r3 (.vmax d a b k)
    | 7 => r2 (.vabs d a k)
    | 8 => r2 (.vneg d a k)
    | 9 => r3 (.vand d a b k)
    | 10 => r3 (.vor d a b k)
    | 11 => r3 (.vxor d a b k)
    | 12 => r3 (.vshl d a b k)
    | 13 => r3 (.vshr d a b k)
    | 14 => r3 (.vsra d a b k)
    | 15 =>
      match VCond.decode l.c with
      | none => .error .code
      | some cond =>
        need (mOk l.d) .unusedField <| need (h.relOk false true true false) .relBit
          (.ok (.vcmp (mField l.d) a b cond k))
    | 16 =>
      need (mOk l.c) .unusedField <| need (h.relOk true true true false) .relBit (.ok (.vsel d a b (mField l.c) k))
    | 17 => r2 (.vexp2 d a k)
    | 18 => r2 (.vrcp d a k)
    | 19 => r2 (.vrsq d a k)
    | 20 => need (h.relOk true true (vcvtUsesB l.c) false) .relBit (.ok (.vcvt l.c d a b k))
    | _ => .error .code

/-- Majors 0x31 to 0x34 (05 R122 to R125). -/
def decVecMore (l : Lo) (h : HiR) : Except Reject Instr :=
  need (l.fn3 == 0) .fn3 <|
  match h.vctl with
  | none => .error .ew
  | some k =>
    let d := opD l h
    let a := opA l h
    let b := opB l h
    let c := opC l h
    match l.op.toNat, h.fn12.toNat with
    | 0x31, 0 => .ok (.vfma d a b c k)
    | 0x31, 1 => .ok (.vfms d a b c k)
    | 0x32, 0 => need (l.b == 0 && l.c == 0) .unusedField <| need (h.relOk true true false false) .relBit (.ok (.vbcast d a k))
    | 0x32, 1 => need (l.c == 0) .unusedField <| need (h.relOk true true false false) .relBit (.ok (.vins d a l.b k))
    | 0x32, 2 => need (l.c == 0) .unusedField <| need (h.relOk true true false false) .relBit (.ok (.vext d a l.b k))
    | 0x32, 3 => need (l.c == 0) .unusedField <| need (h.relOk true true true false) .relBit (.ok (.vperm d a b k))
    | 0x32, 4 => need (h.relOk true true true false) .relBit (.ok (.vslide d a b l.c k))
    | 0x33, 0 => need (l.c == 0) .unusedField <| need (h.relOk true true true false) .relBit (.ok (.vredsum d a b k))
    | 0x33, 1 => need (l.c == 0) .unusedField <| need (h.relOk true true true false) .relBit (.ok (.vredmax d a b k))
    | 0x33, 2 => need (l.c == 0) .unusedField <| need (h.relOk true true true false) .relBit (.ok (.vredmin d a b k))
    | 0x34, 0 => need (h.relOk true true false true) .relBit (.ok (.vtopk d a l.b c k))
    | 0x34, 1 => need (h.relOk true true false true) .relBit (.ok (.vtopkm d a l.b c k))
    | 0x34, 2 => need (l.b == 0) .unusedField <| need (h.relOk true true false true) .relBit (.ok (.vsortk d a c k))
    | _, _ => .error .code

/-- Major 0x38 (05 R128); fn12 holds the offset. -/
def decVecMem (l : Lo) (h : HiR) : Except Reject Instr :=
  need (h.frm == 0) .frm <|
  match Ew.decode h.ew with
  | none => .error .ew
  | some e =>
    let k : VMCtl := ⟨h.fn12, h.rimm, e, bit1 h.z, h.msk⟩
    let d := opD l h
    let b := opB l h
    match l.fn3.toNat with
    | 0 => need (l.b == 0 && l.c == 0) .unusedField <| need (h.relOk true false false false) .relBit (.ok (.vld d l.a k))
    | 1 => need (l.b == 0 && l.c == 0) .unusedField <| need (h.relOk true false false false) .relBit (.ok (.vst d l.a k))
    | 2 => need (l.c == 0) .unusedField <| need (h.relOk true false false false) .relBit (.ok (.vlds d l.a l.b k))
    | 3 => need (l.c == 0) .unusedField <| need (h.relOk true false true false) .relBit (.ok (.vgath d l.a b k))
    | 4 => need (l.c == 0) .unusedField <| need (h.relOk true false true false) .relBit (.ok (.vscat d l.a b k))
    | _ => .error .fn3

/-- Major 0x3C (05 R131). -/
def decMask (l : Lo) (h : HiR) : Except Reject Instr :=
  need h.plain .reservedBit <|
  let d := mField l.d
  let a := mField l.a
  let b := mField l.b
  match l.fn3.toNat, h.fn12.toNat with
  | 0, 0 => need (l.c == 0 && mOk l.d && mOk l.a && mOk l.b) .unusedField (.ok (.mand d a b))
  | 1, 0 => need (l.c == 0 && mOk l.d && mOk l.a && mOk l.b) .unusedField (.ok (.mor d a b))
  | 2, 0 => need (l.c == 0 && mOk l.d && mOk l.a && mOk l.b) .unusedField (.ok (.mxor d a b))
  | 3, 0 => need (l.b == 0 && l.c == 0 && mOk l.d && mOk l.a) .unusedField (.ok (.mnot d a))
  | 4, 0 => need (l.b == 0 && l.c == 0 && mOk l.a) .unusedField (.ok (.mpop l.d a))
  | 5, 0 => need (l.b == 0 && l.c == 0 && mOk l.a) .unusedField (.ok (.mfirst l.d a))
  | 6, 0 => need (l.b == 0 && l.c == 0 && mOk l.d) .unusedField (.ok (.mset d l.a))
  | 6, 1 => need (l.b == 0 && l.c == 0 && mOk l.a) .unusedField (.ok (.msetX l.d a))
  | 7, _ => .error .fn3
  | _, _ => .error .code

/-- No bit of 51:32 set in a format S instruction. -/
def HiS.bare (h : HiS) : Bool :=
  h.top == 0 && h.bv == 0 && h.sid == 0 && h.n3 == 0 && h.n2 == 0 && h.n1 == 0 && h.n0 == 0

/-- Majors 0x50 and 0x51 (06 R136, R151). -/
def decStream (l : Lo) (h : HiS) : Except Reject Instr :=
  need (h.top == 0 && h.n3 == 0 && h.n2 == 0 && h.n1 == 0) .reservedBit <| need (l.b == 0 && l.c == 0) .unusedField <|
  match l.op.toNat, l.fn3.toNat with
  | 0x50, 0 =>
    need (h.bv == 0 && h.n0 == 0) .reservedBit <| need (l.d == 0) .unusedField <|
      need (h.imm.extractLsb' 4 8 == 0) .operand (.ok (.scfg h.sid (h.imm.extractLsb' 0 4) l.a))
  | 0x50, 1 => need (h.imm == 0 && h.n0 == 0) .reservedBit <| need (l.a == 0) .unusedField (.ok (.sstart h.sid l.d (bit1 h.bv)))
  | 0x50, 2 =>
    need (h.imm == 0 && h.bv == 0 && h.n0 == 0) .reservedBit <|
      need (l.d == 0 && l.a == 0) .unusedField (.ok (.sstop h.sid))
  | 0x50, 3 => need (h.imm == 0 && h.bv == 0 && h.n0 == 0) .reservedBit <| need (l.a == 0) .unusedField (.ok (.sstat l.d h.sid))
  | 0x51, 0 =>
    need (h.imm == 0 && h.bv == 0 && h.sid == 0) .reservedBit <| need (l.d == 0) .unusedField (.ok (.frep l.a h.n0))
  | 0x51, 1 =>
    need (h.bv == 0 && h.sid == 0) .reservedBit <| need (l.d == 0 && l.a == 0) .unusedField (.ok (.frepi h.imm h.n0))
  | _, _ => .error .fn3

/-- Majors 0x58 to 0x5A (07 R163). -/
def decTile (l : Lo) (h : HiT) : Except Reject Instr :=
  need (h.rsv == 0 && l.c == 0) .reservedBit <|
  let no : Bool := l.d == 0 && l.a == 0 && l.b == 0
  let bare : Bool := h.ta == 0 && h.tb == 0 && h.pln == 0 && h.prnd == 0
  match l.op.toNat, l.fn3.toNat with
  | 0x58, 0 => need (no && bare && h.dir == 0) .unusedField (.ok (.tcfg h.tt h.fmt (h.imm.extractLsb' 5 7) (h.imm.extractLsb' 0 5)))
  | 0x58, 1 => need (no && bare && h.dir == 0 && h.tt == 0 && h.fmt == 0 && h.imm == 0) .unusedField (.ok .tacq)
  | 0x58, 2 => need (no && bare && h.dir == 0 && h.tt == 0 && h.fmt == 0 && h.imm == 0) .unusedField (.ok .trel)
  | 0x58, 3 => need (no && bare && h.dir == 0 && h.fmt == 0 && h.imm == 0) .unusedField (.ok (.tzero h.tt))
  | 0x58, 4 =>
    match TSel.decode h.imm with
    | none => .error .operand
    | some s =>
      need (l.a == 0 && l.b == 0 && bare && h.fmt == 0) .unusedField <|
        .ok (if h.dir == 0 then .tmovFr l.d h.tt s else .tmovTo l.d h.tt s)
  | 0x58, 5 => need (no && bare && h.dir == 0 && h.fmt == 0 && h.imm == 0) .unusedField (.ok (.tswap h.tt))
  | 0x59, 0 =>
    need (l.d == 0 && h.ta == 0 && h.tb == 0 && h.fmt == 0 && h.dir == 0) .unusedField
      (.ok (.tld h.tt l.a l.b h.imm h.pln (bit1 h.prnd)))
  | 0x59, 1 =>
    need (l.d == 0 && h.ta == 0 && h.tb == 0 && h.fmt == 0 && h.dir == 0) .unusedField
      (.ok (.ttld h.tt l.a l.b h.imm h.pln (bit1 h.prnd)))
  | 0x59, 2 => need (l.d == 0 && bare && h.fmt == 0 && h.dir == 0) .unusedField (.ok (.tst h.tt l.a l.b h.imm))
  | 0x5A, 0 =>
    match TFmt.decode h.fmt with
    | none => .error .fmt
    | some f =>
      need (no && h.pln == 0 && h.prnd == 0 && h.dir == 0 && h.imm == 0) .unusedField (.ok (.tmma h.tt h.ta h.tb f))
  | _, _ => .error .fn3

/-- Majors 0x5C and 0x5D (07 R175). -/
def decPlane (l : Lo) (h : HiM) : Except Reject Instr :=
  need (h.aop == 0 && h.ord == 0 && h.nr == 0 && h.rsv == 0 && h.u == 0 && h.wid == 0) .reservedBit <|
  let noPln : Bool := h.pln == 0 && h.prnd == 0
  match l.op.toNat, l.fn3.toNat with
  | 0x5C, 0 => need (l.b == 0 && l.c == 0) .unusedField (.ok (.ldp l.d l.a h.imm h.pln (bit1 h.prnd)))
  | 0x5C, 1 => need (h.prnd == 0) .pln <| need (l.b == 0 && l.c == 0) .unusedField (.ok (.stp l.d l.a h.imm h.pln))
  | 0x5C, 2 => need noPln .pln <| need (l.b == 0 && l.c == 0) .unusedField (.ok (.pscl l.d l.a h.imm))
  | 0x5C, 3 => need noPln .pln <| need (l.c == 0) .unusedField (.ok (.prescale l.d l.a h.imm l.b))
  | 0x5D, 0 => need noPln .pln <| need (l.c == 0) .unusedField (.ok (.paxpy l.d l.a h.imm l.b))
  | 0x5D, 1 => need noPln .pln (.ok (.psgdm l.d l.a h.imm l.b l.c))
  | 0x5D, 2 => need noPln .pln <| need (l.d == 0 && l.c == 0) .unusedField (.ok (.baddq l.a h.imm l.b))
  | _, _ => .error .fn3

/-- Majors 0x68, 0x69, 0x6A and 0x7C (08 R187, 09 R232). -/
def decTask (l : Lo) (h : HiR) : Except Reject Instr :=
  need (h.plain && h.fn12 == 0) .reservedBit <|
  let no := fun (ok : Bool) i => need ok .unusedField (.ok i)
  match l.op.toNat, l.fn3.toNat with
  | 0x68, 0 => no (l.d == 0 && l.b == 0 && l.c == 0) (.fork l.a)
  | 0x68, 1 => no (l.d == 0) (.jrec l.a l.b l.c)
  | 0x68, 2 => no (l.d == 0 && l.a == 0 && l.b == 0 && l.c == 0) .yield
  | 0x68, 3 => no (l.d == 0 && l.a == 0 && l.b == 0 && l.c == 0) .mdone
  | 0x68, 4 => no (l.c == 0) (.tqput l.d l.a l.b)
  | 0x68, 5 => no (l.d == 0 && l.b == 0 && l.c == 0) (.tdone l.a)
  | 0x68, 6 => no (l.c == 0) (.qrnd l.d l.a l.b)
  | 0x68, 7 => no (l.a == 0 && l.b == 0 && l.c == 0) (.gqnext l.d)
  | 0x69, 0 => no (l.d == 0 && l.a == 0 && l.b == 0 && l.c == 0) .halt
  | 0x69, 1 => no (l.d == 0 && l.b == 0 && l.c == 0) (.haltJ l.a)
  | 0x69, 2 => no (l.d == 0 && l.b == 0 && l.c == 0) (.haltK l.a)
  | 0x69, 3 => no (l.d == 0 && l.a == 0 && l.b == 0 && l.c == 0) .haltM
  | 0x6A, 0 => no (l.d == 0 && l.b == 0 && l.c == 0) (.send l.a)
  | 0x6A, 1 => no (l.d == 0 && l.c == 0) (.sendr l.a l.b)
  | 0x6A, 2 => no (l.d == 0) (.callat l.a l.b l.c)
  | 0x7C, 0 => no (l.b == 0 && l.c == 0) (.wdrun l.d l.a)
  | 0x7C, 1 => no (l.d == 0 && l.a == 0 && l.b == 0 && l.c == 0) .wdret
  | _, _ => .error .fn3

/-- Majors 0x70, 0x71 and 0x74 (08 R213, R214, R218). -/
def decAtomic (l : Lo) (h : HiM) : Except Reject Instr :=
  need (h.pln == 0 && h.prnd == 0 && h.rsv == 0) .reservedBit <|
  match l.op.toNat, l.fn3.toNat with
  | 0x70, 0 =>
    need (h.u == 0 && (h.wid == 2 || h.wid == 3)) .wid <|
    match AmoOp.decode h.aop, MemOrd.decode h.ord with
    | some op, some o => .ok (.amo op o (bit1 h.nr) (h.wid == 3) l.d l.a l.b l.c h.imm)
    | _, _ => .error .order
  | 0x71, 0 =>
    need (h.ord == 1 && h.aop == 0 && h.nr == 0) .order <| need (l.b == 0 && l.c == 0) .unusedField <|
    match MemW.decode h.wid with
    | some wd => .ok (.lda l.d l.a h.imm wd (bit1 h.u))
    | none => .error .wid
  | 0x71, 1 =>
    need (h.ord == 2 && h.aop == 0 && h.nr == 0) .order <| need (l.b == 0 && l.c == 0 && h.u == 0) .unusedField <|
    match MemW.decode h.wid with
    | some wd => .ok (.stl l.d l.a h.imm wd)
    | none => .error .wid
  | 0x74, f =>
    need (h.ord == 0 && h.aop == 0 && h.nr == 0) .order <| need (h.u == 0 && h.wid == 3) .wid <|
    match f with
    | 0 => need (l.b == 0 && l.c == 0) .unusedField (.ok (.arrive l.d l.a h.imm))
    | 1 => need (l.d == 0 && l.c == 0) .unusedField (.ok (.await l.a h.imm l.b))
    | 2 => need (l.d == 0 && l.c == 0) .unusedField (.ok (.arrwait l.a h.imm l.b))
    | _ => .error .fn3
  | _, _ => .error .fn3

/-- Majors 0x72 and 0x73 (08 R215 to R217). -/
def decFence (l : Lo) (h : HiS) : Except Reject Instr :=
  need (l.d == 0 && l.a == 0 && l.b == 0 && l.c == 0) .unusedField <|
  match l.op.toNat, l.fn3.toNat with
  | 0x72, 0 =>
    need (h.bare && h.imm.extractLsb' 2 10 == 0) .reservedBit
      (.ok (.fence (bit1 (h.imm.extractLsb' 0 1)) (bit1 (h.imm.extractLsb' 1 1))))
  | 0x72, 1 =>
    need (h.bare && h.imm.extractLsb' 8 4 == 0) .reservedBit <|
    match Path.decode (h.imm.extractLsb' 0 4), Path.decode (h.imm.extractLsb' 4 4) with
    | some p, some q => .ok (.xfence p q)
    | _, _ => .error .operand
  | 0x73, 0 => need (h.imm == 0 && h.top == 0 && h.bv == 0 && h.sid == 0) .reservedBit (.ok (.wait h.n3 h.n2 h.n1 h.n0))
  | _, _ => .error .fn3

/-- Major 0x7E with a 64-bit length (13 R331). -/
def decSystem (l : Lo) (h : HiS) : Except Reject Instr :=
  need h.bare .reservedBit <| need (l.b == 0) .unusedField <|
  let no := fun (ok : Bool) i => need ok .unusedField (.ok i)
  match l.fn3.toNat with
  | 0 => no (l.d == 0 && l.a == 0 && l.c == 0) (.trap h.imm)
  | 1 => no (l.d == 0 && l.a == 0 && l.c == 0 && h.imm == 0) .eret
  | 2 => no (l.a == 0 && l.c == 0) (.csrr l.d h.imm)
  | 3 => no (l.c == 0) (.csrw l.d h.imm l.a)
  | 4 => no (l.c == 0) (.csrs l.d h.imm l.a)
  | 5 => no (l.c == 0) (.csrc l.d h.imm l.a)
  | 6 => no (l.d == 0 && l.a == 0 && l.c == 0 && h.imm == 0) .ifence
  | _ =>
    need (l.d == 0) .unusedField <|
    match l.c.toNat with
    | 0 => need (h.imm.extractLsb' 2 10 == 0) .operand (.ok (.tlbi l.a (h.imm.extractLsb' 0 2)))
    | 1 => no (l.a == 0) (.brk h.imm)
    | 2 => no (l.a == 0 && h.imm == 0) .wfi
    | 3 => no (l.a == 0 && h.imm == 0) .nop
    | _ => .error .code

/-- A 64-bit instruction: granule 0's fields and granule 1 (R51). -/
def decode64 (l : Lo) (g1 : BitVec 32) : Except Reject Instr :=
  match l.op.toNat with
  | 0x00 => decInt l (HiR.unpack g1)
  | 0x01 => decMul l (HiR.unpack g1)
  | 0x02 => decImm l (HiI.unpack g1)
  | 0x03 => decBf l (HiI.unpack g1)
  | 0x04 => decUpper l (HiU.unpack g1)
  | 0x10 => decBranch l (HiU.unpack g1)
  | 0x11 => decJump l (HiU.unpack g1)
  | 0x12 => decJalr l (HiI.unpack g1)
  | 0x18 => decScalarMem l (HiM.unpack g1)
  | 0x19 => decScalarMem l (HiM.unpack g1)
  | 0x1A => decScalarMem l (HiM.unpack g1)
  | 0x1B => decScalarMem l (HiM.unpack g1)
  | 0x20 => decFp l (HiR.unpack g1)
  | 0x21 => decFma l (HiR.unpack g1)
  | 0x30 => decVec l (HiR.unpack g1)
  | 0x31 => decVecMore l (HiR.unpack g1)
  | 0x32 => decVecMore l (HiR.unpack g1)
  | 0x33 => decVecMore l (HiR.unpack g1)
  | 0x34 => decVecMore l (HiR.unpack g1)
  | 0x38 => decVecMem l (HiR.unpack g1)
  | 0x3C => decMask l (HiR.unpack g1)
  | 0x50 => decStream l (HiS.unpack g1)
  | 0x51 => decStream l (HiS.unpack g1)
  | 0x58 => decTile l (HiT.unpack g1)
  | 0x59 => decTile l (HiT.unpack g1)
  | 0x5A => decTile l (HiT.unpack g1)
  | 0x5C => decPlane l (HiM.unpack g1)
  | 0x5D => decPlane l (HiM.unpack g1)
  | 0x68 => decTask l (HiR.unpack g1)
  | 0x69 => decTask l (HiR.unpack g1)
  | 0x6A => decTask l (HiR.unpack g1)
  | 0x70 => decAtomic l (HiM.unpack g1)
  | 0x71 => decAtomic l (HiM.unpack g1)
  | 0x72 => decFence l (HiS.unpack g1)
  | 0x73 => decFence l (HiS.unpack g1)
  | 0x74 => decAtomic l (HiM.unpack g1)
  | 0x7C => decTask l (HiR.unpack g1)
  | 0x7E => decSystem l (HiS.unpack g1)
  | _ => .error .major

/-- Major 0x78 (09 R247, R248; 10 R278; 14 R342). -/
def decEngine (l : Lo) (h : HiC) (imm : BitVec 32) : Except Reject Instr :=
  need (h.rsv == 0) .reservedBit <|
  match l.fn3.toNat with
  | 0 => need (l.b == 0 && l.c == 0) .unusedField (.ok (.dcopy l.d l.a imm h.tag))
  | 1 => need (l.b == 0 && l.c == 0) .unusedField (.ok (.sortc l.d l.a imm h.tag))
  | 2 => need (imm.extractLsb' 2 30 == 0) .reservedBit (.ok (.ddec l.d l.a l.b l.c (imm.extractLsb' 0 2) h.tag))
  | 3 =>
    need (imm.extractLsb' 2 30 == 0) .reservedBit <|
      need (l.b == 0 && l.c == 0) .unusedField (.ok (.dtbl l.d l.a (imm.extractLsb' 0 2) h.tag))
  | 4 =>
    need (h.tag == 0 && imm.extractLsb' 7 25 == 0) .reservedBit
      (.ok (.bindw l.d l.a l.b l.c (imm.extractLsb' 4 3) (imm.extractLsb' 0 4)))
  | 5 =>
    need (h.tag == 0 && imm.extractLsb' 4 28 == 0) .reservedBit <|
      need (l.d == 0 && l.a == 0 && l.b == 0 && l.c == 0) .unusedField (.ok (.unbindw (imm.extractLsb' 0 4)))
  | 6 =>
    need (h.tag == 0 && imm.extractLsb' 3 29 == 0) .operand <|
      need (l.a == 0 && l.b == 0 && l.c == 0) .unusedField (.ok (.dstat l.d (imm.extractLsb' 0 3)))
  | _ => .error .fn3

/-- BRK of 96 or 128 bits: its first two granules follow the 64-bit BRK, and its later granules are ignored (R51). -/
def decLongBrk (l : Lo) (h : HiS) (i : BitVec 12 → Instr) : Except Reject Instr :=
  need (l.fn3 == 7 && l.c == 1) .major <| need h.bare .reservedBit <|
  need (l.d == 0 && l.a == 0 && l.b == 0) .unusedField (.ok (i h.imm))

/-- A 96-bit instruction. -/
def decode96 (l : Lo) (g1 g2 : BitVec 32) : Except Reject Instr :=
  match l.op.toNat with
  | 0x05 =>
    let h := HiL.unpack g1
    need (h.rsv == 0) .reservedBit <| need (l.b == 0 && l.c == 0) .unusedField <|
    match l.fn3.toNat with
    | 0 => need (l.a == 0 && h.pcb == 0) .unusedField (.ok (.li l.d g2))
    | 1 =>
      if h.pcb == 1 then need (l.a == 0) .unusedField (.ok (.leaPc l.d g2)) else .ok (.lea l.d l.a g2)
    | _ => .error .fn3
  | 0x13 =>
    need (l.fn3 == 0) .fn3 <| need (g1 == 0) .reservedBit <|
      need (l.a == 0 && l.b == 0 && l.c == 0) .unusedField (.ok (.jl l.d g2))
  | 0x78 => decEngine l (HiC.unpack g1) g2
  | 0x7E => decLongBrk l (HiS.unpack g1) .brk96
  | _ => .error .major

/-- A 128-bit instruction. -/
def decode128 (l : Lo) (g1 g2 g3 : BitVec 32) : Except Reject Instr :=
  match l.op.toNat with
  | 0x06 =>
    need (l.fn3 == 0) .fn3 <| need (g1 == 0) .reservedBit <|
      need (l.a == 0 && l.b == 0 && l.c == 0) .unusedField (.ok (.li64 l.d (g3 ++ g2)))
  | 0x7E => decLongBrk l (HiS.unpack g1) .brk128
  | _ => .error .major

/-- The last check: the value rules of `Instr.defect`. -/
def finish (r : Except Reject Instr) (rest : List (BitVec 32)) : Except Reject (Instr × List (BitVec 32)) :=
  match r with
  | .error e => .error e
  | .ok i =>
    match i.defect with
    | some e => .error e
    | none => .ok (i, rest)

/-- Decode the instruction that starts at the first granule, with the granules after it (R37, R55). -/
def decode (gs : List (BitVec 32)) : Except Reject (Instr × List (BitVec 32)) :=
  match gs with
  | [] => .error .truncated
  | g0 :: rest =>
    let l := Lo.unpack g0
    match l.len.toNat, rest with
    | 0, _ => .error .noInstruction
    | 1, g1 :: r => finish (decode64 l g1) r
    | 2, g1 :: g2 :: r => finish (decode96 l g1 g2) r
    | 3, g1 :: g2 :: g3 :: r => finish (decode128 l g1 g2 g3) r
    | _, _ => .error .truncated

/-- Length in granules of the instruction whose first granule is `g0` (R37); a pad granule is one long. -/
def lenGranules (g0 : BitVec 32) : Nat := (Lo.unpack g0).len.toNat + 1

/-! ## The encoder -/

/-- Granule 0 of a 64-bit instruction. -/
def lo64 (op : BitVec 7) (fn3 : BitVec 3) (d a b c : BitVec 5) : BitVec 32 := Lo.pack ⟨c, b, a, d, fn3, op, 1⟩

/-- Format R with registers and fn12 only. -/
def encR (op : BitVec 7) (fn3 : BitVec 3) (fn12 : BitVec 12) (d a b c : BitVec 5) : List (BitVec 32) :=
  [lo64 op fn3 d a b c, HiR.pack ⟨fn12, 0, 0, 0, 0, 0, 0, 0, 0, 0⟩]

/-- Format I. -/
def encI (op : BitVec 7) (fn3 : BitVec 3) (d a : BitVec 5) (imm : BitVec 12) : List (BitVec 32) :=
  [lo64 op fn3 d a 0 0, HiI.pack ⟨imm, 0⟩]

/-- Formats U and B. -/
def encU (op : BitVec 7) (fn3 : BitVec 3) (d a b : BitVec 5) (imm : BitVec 20) : List (BitVec 32) :=
  [lo64 op fn3 d a b 0, HiU.pack ⟨imm, 0⟩]

/-- Format M. -/
def encM (op : BitVec 7) (fn3 : BitVec 3) (d a b c : BitVec 5) (h : HiM) : List (BitVec 32) :=
  [lo64 op fn3 d a b c, h.pack]

/-- Format R of scalar FP: operands, format, rounding. -/
def encF (op : BitVec 7) (fn12 : BitVec 12) (d a b c : ROp) (k : FCtl) : List (BitVec 32) :=
  [lo64 op k.fmt.encode d.n a.n b.n c.n,
    HiR.pack ⟨fn12, k.frm.encode, k.rimm, unbit1 d.rel, unbit1 a.rel, unbit1 b.rel, unbit1 c.rel, 0, 0, 0⟩]

/-- A register field that is never relative. -/
def ROp.x (r : Reg) : ROp := ⟨r, false⟩

/-- A field left zero. -/
def ROp.zero : ROp := ⟨0, false⟩

/-- Format V. -/
def encV (op : BitVec 7) (fn12 : BitVec 12) (d a b c : ROp) (k : VCtl) : List (BitVec 32) :=
  [lo64 op 0 d.n a.n b.n c.n,
    HiR.pack ⟨fn12, k.frm.encode, k.rimm, unbit1 d.rel, unbit1 a.rel, unbit1 b.rel, unbit1 c.rel, k.ew.encode,
      unbit1 k.z, k.msk⟩]

/-- Format V of the vector memory opcode. -/
def encVM (fn3 : BitVec 3) (d : ROp) (a : Reg) (b : ROp) (k : VMCtl) : List (BitVec 32) :=
  [lo64 0x38 fn3 d.n a b.n 0,
    HiR.pack ⟨k.imm, 0, k.rimm, unbit1 d.rel, 0, unbit1 b.rel, 0, k.ew.encode, unbit1 k.z, k.msk⟩]

/-- Format S. -/
def encS (op : BitVec 7) (fn3 : BitVec 3) (d a c : BitVec 5) (h : HiS) : List (BitVec 32) :=
  [lo64 op fn3 d a 0 c, h.pack]

/-- Format T. -/
def encT (op : BitVec 7) (fn3 : BitVec 3) (d a b : BitVec 5) (h : HiT) : List (BitVec 32) :=
  [lo64 op fn3 d a b 0, h.pack]

/-- Format C. -/
def encC (fn3 : BitVec 3) (d a b c : BitVec 5) (tag : BitVec 8) (imm : BitVec 32) : List (BitVec 32) :=
  [Lo.pack ⟨c, b, a, d, fn3, 0x78, 2⟩, HiC.pack ⟨tag, 0⟩, imm]

/-- The granules of an instruction (02 R43 to R52), lowest first; an event of the table has none. The ignored tail of a
long BRK is written as zero. -/
def encode : Instr → List (BitVec 32)
  | .add d a b => encR 0x00 0 0 d a b 0
  | .sub d a b => encR 0x00 0 1 d a b 0
  | .and d a b => encR 0x00 0 2 d a b 0
  | .or d a b => encR 0x00 0 3 d a b 0
  | .xor d a b => encR 0x00 0 4 d a b 0
  | .sll d a b => encR 0x00 0 5 d a b 0
  | .srl d a b => encR 0x00 0 6 d a b 0
  | .sra d a b => encR 0x00 0 7 d a b 0
  | .slt d a b => encR 0x00 0 8 d a b 0
  | .sltu d a b => encR 0x00 0 9 d a b 0
  | .min d a b => encR 0x00 0 10 d a b 0
  | .max d a b => encR 0x00 0 11 d a b 0
  | .minu d a b => encR 0x00 0 12 d a b 0
  | .maxu d a b => encR 0x00 0 13 d a b 0
  | .sel d a b c => encR 0x00 0 14 d a b c
  | .clz d a => encR 0x00 0 15 d a 0 0
  | .ctz d a => encR 0x00 0 16 d a 0 0
  | .popc d a => encR 0x00 0 17 d a 0 0
  | .mul d a b => encR 0x01 0 0 d a b 0
  | .mulh d a b => encR 0x01 0 1 d a b 0
  | .mulhu d a b => encR 0x01 0 2 d a b 0
  | .div d a b => encR 0x01 0 3 d a b 0
  | .divu d a b => encR 0x01 0 4 d a b 0
  | .rem d a b => encR 0x01 0 5 d a b 0
  | .remu d a b => encR 0x01 0 6 d a b 0
  | .addi d a i => encI 0x02 0 d a i
  | .andi d a i => encI 0x02 1 d a i
  | .ori d a i => encI 0x02 2 d a i
  | .xori d a i => encI 0x02 3 d a i
  | .slti d a i => encI 0x02 4 d a i
  | .slli d a s => encI 0x02 5 d a ((0 : BitVec 6) ++ s)
  | .srli d a s => encI 0x02 6 d a ((0 : BitVec 6) ++ s)
  | .srai d a s => encI 0x02 7 d a ((0 : BitVec 6) ++ s)
  | .bfx d a n p => encI 0x03 0 d a (n ++ p)
  | .bfi d a n p => encI 0x03 1 d a (n ++ p)
  | .ldhi d i => encU 0x04 0 d 0 0 i
  | .addpc d i => encU 0x04 1 d 0 0 i
  | .li d i => [Lo.pack ⟨0, 0, 0, d, 0, 0x05, 2⟩, HiL.pack ⟨0, 0⟩, i]
  | .lea d a i => [Lo.pack ⟨0, 0, a, d, 1, 0x05, 2⟩, HiL.pack ⟨0, 0⟩, i]
  | .leaPc d i => [Lo.pack ⟨0, 0, 0, d, 1, 0x05, 2⟩, HiL.pack ⟨0, 1⟩, i]
  | .li64 d i => [Lo.pack ⟨0, 0, 0, d, 0, 0x06, 3⟩, 0, i.extractLsb' 0 32, i.extractLsb' 32 32]
  | .beq a b o => encU 0x10 0 0 a b o
  | .bne a b o => encU 0x10 1 0 a b o
  | .blt a b o => encU 0x10 2 0 a b o
  | .bge a b o => encU 0x10 3 0 a b o
  | .bltu a b o => encU 0x10 4 0 a b o
  | .bgeu a b o => encU 0x10 5 0 a b o
  | .j o => encU 0x11 0 0 0 0 o
  | .jal d o => encU 0x11 1 d 0 0 o
  | .jalr d a i => encI 0x12 0 d a i
  | .jl d o => [Lo.pack ⟨0, 0, 0, d, 0, 0x13, 2⟩, 0, o]
  | .ld d a i wd u => encM 0x18 0 d a 0 0 ⟨i, 0, 0, 0, 0, 0, 0, unbit1 u, wd.encode⟩
  | .st d a i wd => encM 0x19 0 d a 0 0 ⟨i, 0, 0, 0, 0, 0, 0, 0, wd.encode⟩
  | .fld d a i wd => encM 0x1A 0 d a 0 0 ⟨i, 0, 0, 0, 0, 0, 0, 0, if wd = .s then 2 else 3⟩
  | .fst d a i wd => encM 0x1B 0 d a 0 0 ⟨i, 0, 0, 0, 0, 0, 0, 0, if wd = .s then 2 else 3⟩
  | .fadd d a b k => encF 0x20 0 d a b .zero k
  | .fsub d a b k => encF 0x20 1 d a b .zero k
  | .fmul d a b k => encF 0x20 2 d a b .zero k
  | .fdiv d a b k => encF 0x20 3 d a b .zero k
  | .fsqrt d a k => encF 0x20 4 d a .zero .zero k
  | .fmin d a b f r => encF 0x20 5 d a b .zero ⟨f, .dyn, r⟩
  | .fmax d a b f r => encF 0x20 6 d a b .zero ⟨f, .dyn, r⟩
  | .feq d a b f r => encF 0x20 7 (.x d) a b .zero ⟨f, .dyn, r⟩
  | .flt d a b f r => encF 0x20 8 (.x d) a b .zero ⟨f, .dyn, r⟩
  | .fle d a b f r => encF 0x20 9 (.x d) a b .zero ⟨f, .dyn, r⟩
  | .fclass d a f r => encF 0x20 10 (.x d) a .zero .zero ⟨f, .dyn, r⟩
  | .fsgn d a b m f r => encF 0x20 11 d a b (.x m.encode) ⟨f, .dyn, r⟩
  | .fmvX d a f r => encF 0x20 12 (.x d) a .zero .zero ⟨f, .dyn, r⟩
  | .fmvF d a f r => encF 0x20 13 d (.x a) .zero .zero ⟨f, .dyn, r⟩
  | .fcvt c d a f r => encF 0x20 14 d a .zero (.x c.encode) ⟨.s, f, r⟩
  | .fma d a b c k => encF 0x21 0 d a b c k
  | .fms d a b c k => encF 0x21 1 d a b c k
  | .fnma d a b c k => encF 0x21 2 d a b c k
  | .fnms d a b c k => encF 0x21 3 d a b c k
  | .vadd d a b k => encV 0x30 0 d a b .zero k
  | .vsub d a b k => encV 0x30 1 d a b .zero k
  | .vmul d a b k => encV 0x30 2 d a b .zero k
  | .vdiv d a b k => encV 0x30 3 d a b .zero k
  | .vsqrt d a k => encV 0x30 4 d a .zero .zero k
  | .vmin d a b k => encV 0x30 5 d a b .zero k
  | .vmax d a b k => encV 0x30 6 d a b .zero k
  | .vabs d a k => encV 0x30 7 d a .zero .zero k
  | .vneg d a k => encV 0x30 8 d a .zero .zero k
  | .vand d a b k => encV 0x30 9 d a b .zero k
  | .vor d a b k => encV 0x30 10 d a b .zero k
  | .vxor d a b k => encV 0x30 11 d a b .zero k
  | .vshl d a b k => encV 0x30 12 d a b .zero k
  | .vshr d a b k => encV 0x30 13 d a b .zero k
  | .vsra d a b k => encV 0x30 14 d a b .zero k
  | .vcmp d a b c k => encV 0x30 15 (.x (mEnc d)) a b (.x c.encode) k
  | .vsel d a b c k => encV 0x30 16 d a b (.x (mEnc c)) k
  | .vexp2 d a k => encV 0x30 17 d a .zero .zero k
  | .vrcp d a k => encV 0x30 18 d a .zero .zero k
  | .vrsq d a k => encV 0x30 19 d a .zero .zero k
  | .vcvt c d a b k => encV 0x30 20 d a b (.x c) k
  | .vfma d a b c k => encV 0x31 0 d a b c k
  | .vfms d a b c k => encV 0x31 1 d a b c k
  | .vbcast d a k => encV 0x32 0 d a .zero .zero k
  | .vins d a b k => encV 0x32 1 d a (.x b) .zero k
  | .vext d a b k => encV 0x32 2 d a (.x b) .zero k
  | .vperm d a b k => encV 0x32 3 d a b .zero k
  | .vslide d a b c k => encV 0x32 4 d a b (.x c) k
  | .vredsum d a b k => encV 0x33 0 d a b .zero k
  | .vredmax d a b k => encV 0x33 1 d a b .zero k
  | .vredmin d a b k => encV 0x33 2 d a b .zero k
  | .vtopk d a b c k => encV 0x34 0 d a (.x b) c k
  | .vtopkm d a b c k => encV 0x34 1 d a (.x b) c k
  | .vsortk d a c k => encV 0x34 2 d a .zero c k
  | .vld d a k => encVM 0 d a .zero k
  | .vst d a k => encVM 1 d a .zero k
  | .vlds d a b k => encVM 2 d a (.x b) k
  | .vgath d a b k => encVM 3 d a b k
  | .vscat d a b k => encVM 4 d a b k
  | .mand d a b => encR 0x3C 0 0 (mEnc d) (mEnc a) (mEnc b) 0
  | .mor d a b => encR 0x3C 1 0 (mEnc d) (mEnc a) (mEnc b) 0
  | .mxor d a b => encR 0x3C 2 0 (mEnc d) (mEnc a) (mEnc b) 0
  | .mnot d a => encR 0x3C 3 0 (mEnc d) (mEnc a) 0 0
  | .mpop d a => encR 0x3C 4 0 d (mEnc a) 0 0
  | .mfirst d a => encR 0x3C 5 0 d (mEnc a) 0 0
  | .mset d a => encR 0x3C 6 0 (mEnc d) a 0 0
  | .msetX d a => encR 0x3C 6 1 d (mEnc a) 0 0
  | .scfg s r a => encS 0x50 0 0 a 0 ⟨(0 : BitVec 8) ++ r, 0, 0, s, 0, 0, 0, 0⟩
  | .sstart s d bv => encS 0x50 1 d 0 0 ⟨0, 0, unbit1 bv, s, 0, 0, 0, 0⟩
  | .sstop s => encS 0x50 2 0 0 0 ⟨0, 0, 0, s, 0, 0, 0, 0⟩
  | .sstat d s => encS 0x50 3 d 0 0 ⟨0, 0, 0, s, 0, 0, 0, 0⟩
  | .frep a n => encS 0x51 0 0 a 0 ⟨0, 0, 0, 0, 0, 0, 0, n⟩
  | .frepi c n => encS 0x51 1 0 0 0 ⟨c, 0, 0, 0, 0, 0, 0, n⟩
  | .tcfg t wd co ro => encT 0x58 0 0 0 0 ⟨co ++ ro, t, 0, 0, wd, 0, 0, 0, 0⟩
  | .tacq => encT 0x58 1 0 0 0 ⟨0, 0, 0, 0, 0, 0, 0, 0, 0⟩
  | .trel => encT 0x58 2 0 0 0 ⟨0, 0, 0, 0, 0, 0, 0, 0, 0⟩
  | .tzero t => encT 0x58 3 0 0 0 ⟨0, t, 0, 0, 0, 0, 0, 0, 0⟩
  | .tmovFr d t s => encT 0x58 4 d 0 0 ⟨s.encode, t, 0, 0, 0, 0, 0, 0, 0⟩
  | .tmovTo d t s => encT 0x58 4 d 0 0 ⟨s.encode, t, 0, 0, 0, 0, 0, 1, 0⟩
  | .tswap t => encT 0x58 5 0 0 0 ⟨0, t, 0, 0, 0, 0, 0, 0, 0⟩
  | .tld t a b i p r => encT 0x59 0 0 a b ⟨i, t, 0, 0, 0, p, unbit1 r, 0, 0⟩
  | .ttld t a b i p r => encT 0x59 1 0 a b ⟨i, t, 0, 0, 0, p, unbit1 r, 0, 0⟩
  | .tst t a b i => encT 0x59 2 0 a b ⟨i, t, 0, 0, 0, 0, 0, 0, 0⟩
  | .tmma t ta tb f => encT 0x5A 0 0 0 0 ⟨0, t, ta, tb, f.encode, 0, 0, 0, 0⟩
  | .ldp d a i p r => encM 0x5C 0 d a 0 0 ⟨i, 0, p, unbit1 r, 0, 0, 0, 0, 0⟩
  | .stp d a i p => encM 0x5C 1 d a 0 0 ⟨i, 0, p, 0, 0, 0, 0, 0, 0⟩
  | .pscl d a i => encM 0x5C 2 d a 0 0 ⟨i, 0, 0, 0, 0, 0, 0, 0, 0⟩
  | .prescale d a i b => encM 0x5C 3 d a b 0 ⟨i, 0, 0, 0, 0, 0, 0, 0, 0⟩
  | .paxpy d a i b => encM 0x5D 0 d a b 0 ⟨i, 0, 0, 0, 0, 0, 0, 0, 0⟩
  | .psgdm d a i b c => encM 0x5D 1 d a b c ⟨i, 0, 0, 0, 0, 0, 0, 0, 0⟩
  | .baddq a i b => encM 0x5D 2 0 a b 0 ⟨i, 0, 0, 0, 0, 0, 0, 0, 0⟩
  | .fork a => encR 0x68 0 0 0 a 0 0
  | .jrec a b c => encR 0x68 1 0 0 a b c
  | .yield => encR 0x68 2 0 0 0 0 0
  | .mdone => encR 0x68 3 0 0 0 0 0
  | .tqput d a b => encR 0x68 4 0 d a b 0
  | .tdone a => encR 0x68 5 0 0 a 0 0
  | .qrnd d a b => encR 0x68 6 0 d a b 0
  | .gqnext d => encR 0x68 7 0 d 0 0 0
  | .halt => encR 0x69 0 0 0 0 0 0
  | .haltJ a => encR 0x69 1 0 0 a 0 0
  | .haltK a => encR 0x69 2 0 0 a 0 0
  | .haltM => encR 0x69 3 0 0 0 0 0
  | .send a => encR 0x6A 0 0 0 a 0 0
  | .sendr a b => encR 0x6A 1 0 0 a b 0
  | .callat a b c => encR 0x6A 2 0 0 a b c
  | .amo op o nr dbl d a b c i =>
    encM 0x70 0 d a b c ⟨i, op.encode, 0, 0, o.encode, unbit1 nr, 0, 0, if dbl then 3 else 2⟩
  | .lda d a i wd u => encM 0x71 0 d a 0 0 ⟨i, 0, 0, 0, 1, 0, 0, unbit1 u, wd.encode⟩
  | .stl d a i wd => encM 0x71 1 d a 0 0 ⟨i, 0, 0, 0, 2, 0, 0, 0, wd.encode⟩
  | .fence l s => encS 0x72 0 0 0 0 ⟨(0 : BitVec 10) ++ unbit1 s ++ unbit1 l, 0, 0, 0, 0, 0, 0, 0⟩
  | .xfence p q => encS 0x72 1 0 0 0 ⟨(0 : BitVec 4) ++ q.encode ++ p.encode, 0, 0, 0, 0, 0, 0, 0⟩
  | .wait tl cp st ld => encS 0x73 0 0 0 0 ⟨0, 0, 0, 0, tl, cp, st, ld⟩
  | .arrive d a i => encM 0x74 0 d a 0 0 ⟨i, 0, 0, 0, 0, 0, 0, 0, 3⟩
  | .await a i b => encM 0x74 1 0 a b 0 ⟨i, 0, 0, 0, 0, 0, 0, 0, 3⟩
  | .arrwait a i b => encM 0x74 2 0 a b 0 ⟨i, 0, 0, 0, 0, 0, 0, 0, 3⟩
  | .dcopy d a o t => encC 0 d a 0 0 t o
  | .sortc d a o t => encC 1 d a 0 0 t o
  | .ddec d a b c s t => encC 2 d a b c t ((0 : BitVec 30) ++ s)
  | .dtbl d a s t => encC 3 d a 0 0 t ((0 : BitVec 30) ++ s)
  | .bindw d a b c z w => encC 4 d a b c 0 ((0 : BitVec 25) ++ z ++ w)
  | .unbindw w => encC 5 0 0 0 0 0 ((0 : BitVec 28) ++ w)
  | .dstat d s => encC 6 d 0 0 0 0 ((0 : BitVec 29) ++ s)
  | .wdrun d a => encR 0x7C 0 0 d a 0 0
  | .wdret => encR 0x7C 1 0 0 0 0 0
  | .trap n => encS 0x7E 0 0 0 0 ⟨n, 0, 0, 0, 0, 0, 0, 0⟩
  | .eret => encS 0x7E 1 0 0 0 ⟨0, 0, 0, 0, 0, 0, 0, 0⟩
  | .csrr d n => encS 0x7E 2 d 0 0 ⟨n, 0, 0, 0, 0, 0, 0, 0⟩
  | .csrw d n a => encS 0x7E 3 d a 0 ⟨n, 0, 0, 0, 0, 0, 0, 0⟩
  | .csrs d n a => encS 0x7E 4 d a 0 ⟨n, 0, 0, 0, 0, 0, 0, 0⟩
  | .csrc d n a => encS 0x7E 5 d a 0 ⟨n, 0, 0, 0, 0, 0, 0, 0⟩
  | .ifence => encS 0x7E 6 0 0 0 ⟨0, 0, 0, 0, 0, 0, 0, 0⟩
  | .tlbi a s => encS 0x7E 7 0 a 0 ⟨(0 : BitVec 10) ++ s, 0, 0, 0, 0, 0, 0, 0⟩
  | .brk n => encS 0x7E 7 0 0 1 ⟨n, 0, 0, 0, 0, 0, 0, 0⟩
  | .brk96 n => [Lo.pack ⟨1, 0, 0, 0, 7, 0x7E, 2⟩, HiS.pack ⟨n, 0, 0, 0, 0, 0, 0, 0⟩, 0]
  | .brk128 n => [Lo.pack ⟨1, 0, 0, 0, 7, 0x7E, 3⟩, HiS.pack ⟨n, 0, 0, 0, 0, 0, 0, 0⟩, 0, 0]
  | .wfi => encS 0x7E 7 0 0 2 ⟨0, 0, 0, 0, 0, 0, 0, 0⟩
  | .nop => encS 0x7E 7 0 0 3 ⟨0, 0, 0, 0, 0, 0, 0, 0⟩
  | .fetch | .takeEvent | .timer .. | .loadReturn .. | .storeAck .. | .streamFetch .. | .streamWrite ..
  | .frepBodyIssue | .tacqGrant .. | .tswapExchange .. | .tileOpComplete .. | .nearAck .. | .dequeRefill ..
  | .collectionRoundPass .. | .messageAccepted .. | .messageArrival .. | .messageService .. | .callActivation ..
  | .taskActivation .. | .steal .. | .stealPauseEnd .. | .stealServe .. | .vregGrant .. | .releasePerform ..
  | .awaitPoll .. | .engineComplete .. | .engineFail .. | .mma .. | .mmas .. | .loada .. | .zeroc .. | .storec ..
  | .post .. | .act .. | .calli .. | .brc .. | .skipz .. | .table .. | .link .. | .exit .. | .trainEnd
  | .wfiWake .. | .hresWrite .. | .prioWrite .. | .cycleWrite .. | .tshapeWrite .. | .sposWrite ..
  | .frepitWrite .. | .wdrpcWrite .. | .psatWrite .. | .pmcWrite .. | .pmcOverflow .. | .monWrite ..
  | .drpstWrite .. | .gqjobWrite .. | .csrWrite .. | .prioAging .. | .sboxDepRead .. | .tileDispatch ..
  | .tileActivation .. | .gangSwitch .. | .drainTimeout .. | .jobResume .. | .timesliceExpiry .. | .doorbell ..
  | .nopCommand .. | .launch .. | .launchComplete .. | .write64 .. | .waitval .. | .barrier .. | .eventWrite ..
  | .hostBar2Access .. | .hostRegWrite .. | .bindvf .. | .unbindvf | .attest | .bistrun .. | .recover ..
  | .codeinv | .dstop | .dresume | .reset | .codeInvalidateDone | .domsizeWrite .. | .devnumWrite ..
  | .islcfgWrite .. | .islandReady .. | .ipireqWrite .. | .cinvWrite .. | .trctlWrite .. | .clmstRead ..
  | .samplePulse | .droopAlarm .. | .droopStretchEnd .. | .halvingWindowEnd .. | .monitorFire ..
  | .clmCorrClear .. | .clmBankMark .. | .regionWakeDone .. | .regionPowerDown .. | .linkTimeout .. | .powerOn ..
  | .objectLoad .. | .waitvalComplete .. | .tlbiRetire .. => []

/-- The 64 bits at PC of a fetched instruction (R38, R41): its first two granules. -/
def low64 (i : Instr) : Word :=
  match encode i with
  | g0 :: g1 :: _ => g1 ++ g0
  | _ => 0

/-- Length of an instruction in bytes. -/
def byteLen (i : Instr) : Nat := 4 * (encode i).length

/-- The granules of a little-endian bit string of an instruction, four of them, zero above `nbits`. -/
def granulesOf (w : Nat) : List (BitVec 32) :=
  [BitVec.ofNat 32 w, BitVec.ofNat 32 (w / 2 ^ 32), BitVec.ofNat 32 (w / 2 ^ 64), BitVec.ofNat 32 (w / 2 ^ 96)]

/-- The instruction whose bits are `w`, numbered from bit 0 of granule 0 (R38), cut to `nbits` bits. -/
def decodeTableWord (nbits w : Nat) : Option Instr :=
  match decode (granulesOf (w % 2 ^ nbits)) with
  | .ok (i, _) => some i
  | .error _ => none

end Sys2Proof
end

