-- ==== Sys2Proof/Config.lean ====
section
/-! DEFINITION. What the implementation fixes and what the spec leaves open. A constant without a body is a free value:
nothing can be proved about it beyond its type. -/

namespace Sys2Proof.Config

/-- A value the spec leaves open, one for each number the state's counter takes (log 21). -/
opaque freeWord : Nat → Word

/-- SHA3-256 (16 R371, R372, R375): the spec names the function and does not define it (log 12). -/
opaque sha3 : List Byte → BitVec 256

/-- ML-DSA-44 verification of a signature over bytes under a public key (16 R371; log 12). -/
opaque mlDsaVerify : List Byte → List Byte → List Byte → Bool

/-- ML-DSA-44 key generation from a seed: the public and the private key (16 R375; log 12). -/
opaque mlDsaKeyGen : BitVec 256 → List Byte × List Byte

/-- ML-DSA-44 signature, 2,420 bytes, of bytes under a private key (16 R375; log 12). -/
opaque mlDsaSign : List Byte → List Byte → Vector Byte 2420

/-- Fuses and boot ROM of this part (16 R371, R375; log 12): KEYHASH, rollback counter, serial number, device secret,
measurements of the boot ROM and of the fuse configuration, and the boot flash. -/
opaque fuseKeyHash : BitVec 256
opaque fuseRollback : BitVec 32
opaque fuseSerial : BitVec 128
opaque deviceSecret : BitVec 256
opaque measureRom : BitVec 256
opaque measureFuses : BitVec 256
opaque flash : List Byte

/-- Slots of a job's message siding: at least 4,096 entries (12 R306; log 22). -/
def msgSidingSize : Nat := 4096

/-- Records of a deque siding (12 R308). -/
def dequeSidingSize : Nat := 1048576

/-- Contexts of a core (00 R2). -/
def ctxPerCore : Nat := 8

/-- Compute and data cores, gateway cores (00 R2, R4) and the number of the station master in the model's numbering. -/
def meshCores : Nat := 2880
def gateways : Nat := 18
def masterCore : Nat := 2898

/-- Entries of an input queue and send slots of a core per virtual network (08 R203, R200). -/
def inQueueSize : Nat := 32
def sendSlots : Nat := 16

/-- Lines of the L1 data cache and 32-byte blocks of the L1 instruction cache, 16 KiB each (10 R263). -/
def l1Lines : Nat := 256
def l1iBlocks : Nat := 512

/-- Entries of a core's L1 data TLB and of a cluster's TLB, and of a die's for pages and for range entries (10 R273). -/
def coreTlb : Nat := 32
def clusterTlb : Nat := 1024
def dieTlbPages : Nat := 4096
def dieTlbRanges : Nat := 256

/-- Copy tags of an engine (14 R341). -/
def copyTags : Nat := 256

end Sys2Proof.Config
end

