-- ==== Sys2Proof/Machine/State.lean ====
section
/-! DEFINITION. The machine state: everything the spec gives the package (01 R13 to R36 and the chapters named at each
field), as plain data. The context and the core that act next are direct fields; all others lie in lists keyed by number,
where an absent entry is a unit at its reset value. INVENTORY.md lists every field with its rule and reset value. -/

namespace Sys2Proof.Machine

open Sys2Proof

/-- Faults of the model itself. The machine's own traps and partition faults are next states. -/
inductive Fault where
  /-- Raised by `step` when the agenda selects a context number the package does not have. Safe: no step follows. -/
  | noContext
  deriving DecidableEq, Repr

/-- Refusals of the model. -/
inductive Refusal where
  /-- Raised by an arm of `exec` that has no meaning yet. Safe: no step follows. -/
  | notModelled (mnemonic : String)
  deriving DecidableEq, Repr

/-! ## A context -/

/-- Whether a context is on the free list, waits for its vector allocation, or is active (01 R13, R16). -/
inductive Phase where
  | dormant | waiting | active
  deriving DecidableEq, Repr

/-- What started an activation (01 R13, 16 R380). -/
inductive Kind where
  | task | join | msg (vn : Bool) | call | tile
  deriving DecidableEq, Repr

/-- The pattern registers of a stream (01 R27, R28). -/
structure Pattern where
  dims   : BitVec 2
  ind    : Bool
  wid    : BitVec 3
  dir    : Bool
  base   : Word
  bnd    : Vector (BitVec 32) 4
  stride : Vector (BitVec 32) 4
  idx    : Word
  deriving DecidableEq, Repr

def Pattern.reset : Pattern :=
  ⟨0, false, 0, false, 0, Vector.replicate 4 0, Vector.replicate 4 0, 0⟩

/-- A fault held for one element of a read stream (06 R145). -/
structure StreamFault where
  n    : Nat
  addr : Word
  sub  : BitVec 6
  deriving DecidableEq, Repr

/-- An element pushed and not yet written: its place in the context's program order, the bytes it writes, its homes. -/
structure Push where
  id    : Nat
  cells : List Host.Cell
  homes : List Nat
  deriving DecidableEq, Repr

/-- What the next element of a stream has read ahead of its other reads: bytes of gather windows, by address, and index words, by
address, with their values (10 R281, R282). -/
structure StreamPart where
  bytes : List (Word × Byte)
  words : List (Word × Nat)
  deriving DecidableEq, Repr

def StreamPart.none : StreamPart := ⟨[], []⟩

/-- A stream unit (06 R132 to R149). `got` holds the fetched, unpopped elements from SPOS on. -/
structure Stream where
  act    : Pattern
  pending : Pattern
  active : Bool
  ended  : Bool
  flt    : Option StreamFault
  bv     : Bool
  breg   : Reg
  spos   : Word
  sflt   : Word
  got    : List VWord
  pushes : List Push
  part   : StreamPart
  deriving DecidableEq, Repr

def Stream.reset : Stream :=
  ⟨.reset, .reset, false, false, none, false, 0, 0, 0, [], [], .none⟩

/-- The repetition buffer (06 R151 to R160). `issuing` is set only inside the step that issues a body instruction. -/
structure Replay where
  act     : Bool
  len     : BitVec 5
  cnt     : BitVec 32
  bt      : Bool
  slot    : BitVec 4
  iter    : BitVec 32
  pc      : Word
  body    : List Instr
  held    : Bool
  issuing : Bool
  /-- loads that body instructions issued, by identifier -/
  loads   : List Nat
  /-- iterations whose body instructions have issued and not all completed: the next identifier and the cycle at their end -/
  ends    : List (Nat × Word)
  deriving DecidableEq, Repr

def Replay.reset : Replay := ⟨false, 0, 0, false, 0, 0, 0, [], false, false, [], []⟩

/-- Weight-driven state (09 R230, R231). -/
structure Train where
  wdm   : Bool
  base  : Word
  out   : Word
  cond  : Word
  blk   : Word
  rpc   : Word
  nblk  : BitVec 16
  opc   : BitVec 8
  /-- the subcode of the last WDBLK trap (21 R407) -/
  sub   : BitVec 8
  /-- an event holds the train: WDSTAT.SUB reads 0 (R238; log 47) -/
  held  : Bool
  state : BitVec 3
  /-- the last block has committed and its work drains (R232): the state to report, 4 or 5 -/
  ending : Option (BitVec 3)
  /-- the train has been resumed or has run a callout, so its end reads the instruction at WDRPC (R239) -/
  reread : Bool
  /-- VN0 send slots a POST block has reserved (R227) -/
  posts : Nat
  /-- the d field of the WDRUN that entered the train, which its uninterrupted end writes (R232) -/
  dst : Reg
  /-- the block in progress, with the payload it was read with when it started (R242) -/
  block : Option (Instr × List Byte)
  deriving DecidableEq, Repr

def Train.reset : Train := ⟨false, 0, 0, 0, 0, 0, 0, 0, 0, false, 0, none, false, 0, 0, none⟩

/-- A message (08 R197, R198), with what travels outside its header (R204, 12 R306). -/
structure Msg where
  w0      : Word
  hpc     : Word
  a0      : Word
  a1      : Word
  a2      : Word
  a3      : Word
  padr    : Word
  mid     : Word
  call    : Bool
  payload : List Byte
  prio    : BitVec 7
  asid    : Nat
  src     : Nat
  /-- re-injected from a job's siding and not yet accepted (12 R307) -/
  again   : Bool
  deriving DecidableEq, Repr

/-- A task record (08 R190); `cont` when a join pushed it. -/
structure TaskRec where
  pc   : Word
  a0   : Word
  a1   : Word
  a2   : Word
  a3   : Word
  join : Word
  ctl  : Word
  cont : Bool
  deriving DecidableEq, Repr

/-- What a handler holds until MDONE (08 R201). -/
inductive Held where
  | send (m : Msg)
  | fork (r : TaskRec)
  deriving DecidableEq, Repr

/-- An ENGINE event or the latched engine record (01 R35, 14 R350). -/
structure EngRec where
  tag   : BitVec 8
  bytes : BitVec 56
  addr  : Word
  sub   : BitVec 8
  cmd   : BitVec 4
  ea    : Word
  deriving DecidableEq, Repr

def EngRec.reset : EngRec := ⟨0, 0, 0, 0, 0, 0⟩

/-- Where the bytes of a load lane come from: memory, with its home; a value read when the instruction issued; or a gather window,
whose index words, at the keys `idx`, were read at issue and whose source bytes stand at `src`, with the homes of both in that
order; `unit` of the source bytes are read together (10 R281, R282). -/
inductive LaneSrc where
  | mem (pa home : Nat)
  | val (v : Word)
  | gather (idx src homes : List Nat) (unit : Nat)
  deriving DecidableEq, Repr

/-- One lane of an outstanding load: its first bit in the destination, its bytes. -/
structure LoadLane where
  bit : Nat
  n   : Nat
  src : LaneSrc
  deriving DecidableEq, Repr

/-- Destination of an outstanding load. -/
inductive Dst where
  | x (r : Reg) (n : Nat) (unsigned : Bool)
  | f (r : Reg)
  | v (r : Reg)
  deriving DecidableEq, Repr

/-- A 16-element slice, or a block, of a plane tensor: for each element the addresses of its planes, and the address of
the scale word. -/
structure Slice where
  elems : List (List Nat)
  scale : Nat
  deriving DecidableEq, Repr

/-- An outstanding access (04 R101, 08 R213, 07 R176, 11 R283). The batches of a store are written one by one, in order:
the lanes of a vector store, the plane bytes of STP. -/
inductive PendOp where
  | load (path : Path) (acq : Bool) (dst : Dst) (lanes : List LoadLane)
  | store (path : Path) (batches : List (List Host.Cell))
  | amo (op : AmoOp) (n pa : Nat) (o c : Word) (dst : Reg) (acq : Bool)
  | nearAmo (op : AmoOp) (n pa : Nat) (o c : Word)
  | prescale (dst : Reg) (s : Word) (blk : Slice)
  | paxpy (a : BitVec 32) (x : VWord) (sl : Slice)
  | psgdm (lr mu : BitVec 32) (g : VWord) (m w : Slice) (mr : Option (List (Option (BitVec 64))))
  | baddq (dst src : Slice)
  | arrival (pa : Nat)
  deriving DecidableEq, Repr

/-- An outstanding access, with its place in its context's program order and the homes it reaches, each on its path (10 R264,
11 R286); `seen` when a load has returned a store's bytes before it is performed (R293). -/
structure Pend where
  id    : Nat
  op    : PendOp
  sites : List (Path × Nat)
  seen  : Bool
  deriving DecidableEq, Repr

/-- What a context waits for in the middle of an instruction, which is at PC (13 R326, 08 R188, R193). -/
inductive Wait where
  | none
  /-- a releasing instruction has passed its checks and waits for LDC = STC = 0 (08 R188) -/
  | release (i : Instr)
  /-- a HALT form past its own step waits for LDC = 0, and TLC = 0 when it holds the claim (08 R193); `again` when an
  aborted activation ends by ERET, which puts its message back (13 R323, R333) -/
  | ending (again : Bool)
  /-- MDONE waits for LDC = 0 (08 R201) -/
  | mdone
  /-- TACQ, in the waiting order of its core (07 R161) -/
  | tacq
  /-- TSWAP, its tile offered (07 R174) -/
  | tswap
  /-- a send waits for a slot (08 R200) -/
  | slot
  /-- FENCE, XFENCE, WAIT, TREL, TMOV, TSWAP before its offer, WDRUN and WDRET wait for counters -/
  | counters
  /-- AWAIT, or with `arr` ARRWAIT after its arrival, polls the word at a key, at its home, for a target (08 R218, R219) -/
  | await (key home : Nat) (target : Word) (arr : Bool)
  /-- ARRWAIT's add is on its way: events are held (08 R219) -/
  | arrival (key home : Nat) (target : Word)
  /-- WFI (13 R339) -/
  | wfi
  /-- TLBI of a scope and address waits for every TLB (13 R337) -/
  | tlbi (asid : Nat) (scope : BitVec 2) (va : Word)
  deriving DecidableEq, Repr

/-- A VFMA.D or VFMS.D that has issued: its destination, the cycle of its island it issued in, and whether the body of a
replay issued it (17 R385). -/
structure Fma where
  reg   : Reg
  cycle : Word
  body  : Bool
  deriving DecidableEq, Repr

/-- A context (01 R13, R14). -/
structure Ctx where
  phase    : Phase
  kind     : Kind
  pc       : Word
  x        : Vector Word 32
  f        : Vector Word 32
  v        : Vector VWord 32
  m        : Vector Word 8
  valloc   : BitVec 6
  te       : BitVec 5
  rm       : BitVec 3
  flags    : BitVec 5
  lvl      : BitVec 7
  eff      : BitVec 7
  aging    : Nat
  ie       : Bool
  pie      : Bool
  prv      : BitVec 2
  pprv     : BitVec 2
  arrv     : Bool
  hnd      : Bool
  hvn      : Bool
  abt      : Bool
  epc      : Word
  cause    : Word
  tval     : Word
  scratch  : Word
  tcmp     : Word
  instret  : Word
  psat     : BitVec 32
  cpc      : Nat
  pend     : List Pend
  streams  : Vector Stream 4
  rep      : Replay
  wd       : Train
  trigger  : Option Word
  heldq    : List Held
  eng      : List EngRec
  latched  : EngRec
  timer    : Bool
  ipi      : Option (BitVec 32)
  debug    : BitVec 8
  region   : Option Nat
  rtag     : BitVec 16
  wait     : Wait
  drain    : Bool
  /-- units of gather windows, by key, that the instruction being issued has read ahead of its other reads (10 R282) -/
  early    : List (Nat × List Byte)
  /-- the VFMA.D and VFMS.D that issued last -/
  fma      : List Fma
  /-- the instruction at PC while it waits: it has been fetched, and is not fetched again (04 R102) -/
  fetched  : Option Instr
  deriving DecidableEq, Repr

/-- A dormant context at device reset: the activation values of R14 (log 4). -/
def Ctx.reset : Ctx where
  phase := .dormant
  kind := .task
  pc := 0
  x := Vector.replicate 32 0
  f := Vector.replicate 32 0
  v := Vector.replicate 32 0
  m := Vector.replicate 8 0
  valloc := 0
  te := 0
  rm := 0
  flags := 0
  lvl := 0
  eff := 0
  aging := 0
  ie := true
  pie := false
  prv := 0
  pprv := 0
  arrv := false
  hnd := false
  hvn := false
  abt := false
  epc := 0
  cause := 0
  tval := 0
  scratch := 0
  tcmp := BitVec.allOnes 64
  instret := 0
  psat := 0
  cpc := 0
  pend := []
  streams := Vector.replicate 4 .reset
  rep := .reset
  wd := .reset
  trigger := none
  heldq := []
  eng := []
  latched := .reset
  timer := false
  ipi := none
  debug := 0
  region := none
  rtag := 0
  wait := .none
  drain := false
  early := []
  fma := []
  fetched := none

/-! ## A core -/

/-- A tile register (01 R17, 07 R162). -/
structure TileReg where
  rows : Vector (BitVec 1024) 32
  sr   : Vector (BitVec 32) 32
  st   : BitVec 32
  deriving DecidableEq, Repr

def TileReg.reset : TileReg := ⟨Vector.replicate 32 0, Vector.replicate 32 0, 0⟩

/-- A TSHAPE register (01 R26). -/
structure TShape where
  cols : BitVec 7
  rows : BitVec 5
  wid  : BitVec 3
  deriving DecidableEq, Repr

def TShape.reset : TShape := ⟨31, 31, 3⟩

/-- One element of a tile load or store: where it lies in the tile and the addresses of its planes (07 R168). -/
structure TileElem where
  row   : Nat
  col   : Nat
  addrs : List Nat
  deriving DecidableEq, Repr

/-- A counted tile operation with all it captured at issue (07 R164). -/
inductive TileOp where
  | zero (t : Tile)
  /-- `k` planes of `n` stored are delivered, the mode by `rne`; `w` bytes an element; scale addresses by row -/
  | load (t : Tile) (w n k : Nat) (rne plane : Bool) (elems : List TileElem) (scales : List (Nat × Nat))
  | store (t : Tile) (w : Nat) (elems : List TileElem)
  | mma (t a b : Tile) (fmt : TFmt)
  /-- the writes of a committed STOREC (09 R235) -/
  | bytes (cells : List Host.Cell)
  deriving DecidableEq, Repr

/-- A queued tile operation with its place in the program order of the context that holds the claim, and the homes it reaches. -/
structure Counted where
  id    : Nat
  op    : TileOp
  homes : List Nat
  deriving DecidableEq, Repr

/-- An entry of an input queue (08 R203): waiting, or in service by a context; `held` by an aborted handler (13 R323). -/
structure InEntry where
  msg     : Msg
  service : Option Nat
  held    : Bool
  deriving DecidableEq, Repr

/-- A tile activation delivered to a core and not started (12 R311). -/
structure TileAct where
  ctx  : Nat
  pc   : Word
  g    : Word
  m    : Word
  n    : Word
  addr : Word
  vreq : BitVec 2
  prio : BitVec 7
  tag  : Nat
  deriving DecidableEq, Repr

/-- The thief of a core (12 R309): level cluster 0 to package 3, failures at it, and whether it pauses. -/
structure Thief where
  level : Nat
  fails : Nat
  pause : Bool
  deriving DecidableEq, Repr

/-- A core: compute, data or gateway core, or the station master (00 R2, R4; 01 R17 to R26). -/
structure Core where
  tvec     : Word
  hres     : BitVec 3
  cycOff   : Word
  tiles    : Vector TileReg 8
  tshape   : Vector TShape 8
  claim    : Option Nat
  release  : Bool
  tacqs    : List Nat
  offer    : Option (Nat × Tile)
  tileq    : List Counted
  l1       : List (Nat × Word)
  l1i      : List (Nat × BitVec 32)
  deque    : List TaskRec
  siding   : List TaskRec
  /-- the region of memory that the station master has set aside for the siding, and the records that have entered it (12 R308) -/
  dqAt     : Option Nat
  dqIn     : Nat
  thief    : Thief
  stealing : Option Nat
  inq0     : List InEntry
  inq1     : List InEntry
  out0     : List Msg
  out1     : List Msg
  resv0    : List Nat
  resv1    : List Nat
  seq0     : BitVec 16
  seq1     : BitVec 16
  regReqs  : List Nat
  tileActs : List TileAct
  last     : Nat
  /-- the model's own count of the cycles with an issue since outstanding work last went on beside them (log 3) -/
  aside    : Nat
  pmc      : Vector (BitVec 48) 8
  pmcsel   : Vector Word 8
  pmcovf   : BitVec 8
  /-- events of the cycle in progress that its end counts: the event and, when it has one, its context (16 R377) -/
  due      : List (Nat × Option Nat)
  mon      : Vector Word 8
  gqNext   : BitVec 32
  gqCount  : BitVec 32
  /-- ECC events held for a context that can take them, the oldest first (13 R325) -/
  ecc      : List Word
  injected : Bool
  mtvec    : Word
  mepc     : Word
  mcause   : Word
  mtval    : Word
  mscratch : Word
  lastJob  : Option Nat
  deriving DecidableEq, Repr

def Core.reset : Core where
  tvec := 0
  hres := 2
  cycOff := 0
  tiles := Vector.replicate 8 .reset
  tshape := Vector.replicate 8 .reset
  claim := none
  release := false
  tacqs := []
  offer := none
  tileq := []
  l1 := []
  l1i := []
  deque := []
  siding := []
  dqAt := none
  dqIn := 0
  thief := ⟨0, 0, false⟩
  stealing := none
  inq0 := []
  inq1 := []
  out0 := []
  out1 := []
  resv0 := []
  resv1 := []
  seq0 := 0
  seq1 := 0
  regReqs := []
  tileActs := []
  last := 7
  aside := 0
  pmc := Vector.replicate 8 0
  pmcsel := Vector.replicate 8 0
  pmcovf := 0
  due := []
  mon := Vector.replicate 8 0
  gqNext := 0
  gqCount := 0
  ecc := []
  injected := false
  mtvec := 0
  mepc := 0
  mcause := 0
  mtval := 0
  mscratch := 0
  lastJob := none

/-! ## Clusters, quadrants, islands -/

/-- A failed access of an engine: the subcode of 09 R237 and the address. -/
structure EngFault where
  sub  : BitVec 8
  addr : Word
  deriving DecidableEq, Repr

/-- A failed decode: the first output byte that depends on the failure, and what failed (09 R249). -/
structure DecFault where
  byte  : Nat
  fault : Option EngFault
  deriving DecidableEq, Repr

/-- How far a command has come (14 R341, R346): the next element of its output and how many of its bytes granules have taken, the
bytes written, and the bytes of the granule in progress that are read and not written, with the homes it reaches. SORTC keeps the keys it has sorted, DDEC
its decoded bytes and their failure. -/
structure EngAt where
  elem : Nat
  skip : Nat
  pos  : Nat
  left : List Host.Cell
  homes : List Nat
  nums : List Nat
  out  : List Byte
  bad  : Option DecFault
  deriving DecidableEq, Repr

/-- A command of a copy or decode engine (14 R341, 09 R246), with its issuing context and what it captured. -/
structure EngCmd where
  /-- its place in the context's program order -/
  id   : Nat
  ctx  : Nat
  /-- 0 DCOPY, 1 SORTC, 2 DDEC, 3 DTBL (R350) -/
  cmd  : BitVec 4
  tag  : BitVec 8
  ea   : Word
  /-- the captured descriptor's words, or DDEC's x[a], x[b], N and slot, or DTBL's x[a] and slot -/
  desc : List Word
  priv : BitVec 2
  asd  : Nat
  asid : Nat
  /-- a failed command that waits because its context holds 16 events (R328) -/
  failed : Option EngRec
  /-- the issuing context has ended (R328) -/
  ended : Bool
  /-- counted in its context's CPC: a kept failure is not once its context has been saved (01 R35) -/
  counted : Bool
  /-- none until it starts -/
  at' : Option EngAt
  deriving DecidableEq, Repr

/-- A request slot of a decode engine that a weight train's block holds: its context, its place in the order of arrival, the
table slot it decodes with (09 R246). -/
structure TrainReq where
  ctx  : Nat
  id   : Nat
  slot : Nat
  deriving DecidableEq, Repr

/-- A holder of a CLM region: a context, or one that a gang switch has saved, by the ASID of its job and its number (10 R261, 12 R307). -/
inductive Holder where
  | ctx (r : Nat)
  | saved (asid r : Nat)
  deriving DecidableEq, Repr

/-- A CLM region (10 R260, R261). -/
structure Region where
  on      : Bool
  waking  : Bool
  tag     : BitVec 16
  holders : List Holder
  managed : Bool
  deriving DecidableEq, Repr

def Region.reset : Region := ⟨true, false, 0, [], false⟩

/-- A cluster, or the copy engine of a gateway core (unit 320 + gateway). -/
structure Cluster where
  tables  : Vector (List (BitVec 32)) 4
  copies  : List EngCmd
  decodes : List EngCmd
  reqs    : List TrainReq
  regions : Vector Region 16
  counts  : List (Nat × Nat)
  fb0     : BitVec 7
  fb1     : BitVec 7
  corr    : BitVec 32
  deriving DecidableEq, Repr

def Cluster.reset : Cluster :=
  ⟨Vector.replicate 4 [], [], [], [], Vector.replicate 16 .reset, [], 0x7F, 0x7F, 0⟩

/-- A tile record in a tile queue (08 R207, R209): its 16 words, its address, the issuer's privilege, and once its
dependence is met the shapes (M, N) and the position of the next tile (g, m, n). -/
structure TileRec where
  words : List Word
  addr  : Word
  prv   : BitVec 2
  ready : Option (List (BitVec 32 × BitVec 32))
  g     : Nat
  m     : Nat
  n     : Nat
  deriving DecidableEq, Repr

/-- A power island (16 R366 to R368): its cycle count, the time its cycles have taken in parts of a tick (`tickParts` a tick), the
cores that have had their turn in the cycle in progress, its droop registers, CNT and MRG without what the detector did in this
cycle, the highest core that has written DRPTH and DRPST in it (01 R25), what the detector did in this cycle (0 nothing, 1 an
alarm, 2 a merged condition), 1 plus the stretched cycles left of a stretch in progress, the next cycle of a halving window, and
its operating point; `prev` is the frequency before the last write, which still bounds the clock while RDY = 0. -/
structure Island where
  cycle   : Word
  now     : Nat
  acted   : List Nat
  step    : BitVec 5
  cnt     : BitVec 16
  mrg     : BitVec 8
  cnt0    : BitVec 16
  mrg0    : BitVec 8
  stepBy  : Option Nat
  stBy    : Option Nat
  ltime   : BitVec 32
  fell    : Nat
  stretch : Nat
  window  : Option Nat
  vcode   : BitVec 6
  freq    : BitVec 8
  prev    : BitVec 8
  rdy     : Bool
  err     : Bool
  deriving DecidableEq, Repr

def Island.reset : Island := ⟨0, 0, [], 6, 0, 0, 0, 0, none, none, 0, 0, 0, none, 20, 60, 60, true, false⟩

/-! ## Translation caches -/

/-- A translation's result (10 R269): permissions U, RD, W, X, WX and the format descriptor index. -/
structure Perm where
  u   : Bool
  rd  : Bool
  w   : Bool
  x   : Bool
  wx  : Bool
  fdi : BitVec 6
  deriving DecidableEq, Repr

/-- A format descriptor (10 R275), as its four words. -/
structure FdWords where
  w0 : Word
  w1 : Word
  w2 : Word
  w3 : Word
  deriving DecidableEq, Repr

/-- A TLB of the device (10 R273): the L1 data TLB of a core, the TLB of a cluster, the last-level TLB of a die. -/
inductive TlbAt where
  | core (k : Nat)
  | cluster (u : Nat)
  | die (d : Nat)
  deriving DecidableEq, Repr

/-- A cached entry of a TLB (10 R273). -/
inductive TlbEnt where
  | page (asid : Nat) (va : Nat) (sh : Nat) (pa : Nat) (perm : Perm)
  | range (asid : Nat) (idx : Nat) (ent : FdWords)
  | fd (asid : Nat) (idx : Nat) (ent : FdWords)
  | window (asid : Nat) (idx : Nat) (ent : FdWords)
  deriving DecidableEq, Repr

/-! ## Partitions, jobs, the host -/

/-- A collection round (08 R211): the completion word, the value, the position of the token and its mark. -/
structure Round where
  pa    : Nat
  value : Word
  pos   : Nat
  mark  : Bool
  deriving DecidableEq, Repr

/-- A partition (12 R304): its quadrants and gateway cores, its job's descriptor and ASID, whether it is idle, its
collection round, the switch announced to it (its time and the next job), whether it has stopped issue for
that switch, the time its slice ends, and the ticks of a slice. -/
structure Part where
  quads  : List Nat
  gws    : List Nat
  asd    : Nat
  asid   : Nat
  idle   : Bool
  round  : Option Round
  switch : Option (Word × Nat)
  stopping : Bool
  slice  : Nat
  length : Nat
  deriving DecidableEq, Repr

/-- A command record taken and not completed (12 R299). -/
structure HostCmd where
  seq   : BitVec 32
  opc   : BitVec 8
  evt   : Bool
  async : Bool
  words : List Word
  deriving DecidableEq, Repr

/-- The device side of a host command queue (12 R298, R301). -/
structure HostQueue where
  vf    : Nat
  q     : Nat
  prod  : BitVec 32
  cons  : BitVec 32
  comp  : BitVec 32
  state : BitVec 8
  prio  : BitVec 7
  cmds  : List HostCmd
  /-- sequence numbers completed beyond COMP -/
  done  : List (BitVec 32)
  deriving DecidableEq, Repr

/-- An event record waiting for room in the ring (12 R302). -/
structure HostEvent where
  vf     : Nat
  type   : BitVec 8
  qid    : BitVec 6
  seq    : BitVec 32
  status : Word
  deriving DecidableEq, Repr

/-- A tile queue by its quadrant and its number. -/
structure SavedTiles where
  quad  : Nat
  queue : Nat
  recs  : List TileRec
  deriving DecidableEq, Repr

/-- A saved context (01 R31 to R34): its number, the PA of its save record, the PA of its tile record when it held the
claim, and of what the records do not hold the context as it stood (log 23). -/
structure SavedCtx where
  ref  : Nat
  pa   : Nat
  tile : Option Nat
  ctx  : Ctx
  deriving DecidableEq, Repr

/-- A saved core (01 R36, 15 R363): the PA of its core record, GQJOB, and the region of its deque siding (12 R308). -/
structure SavedCore where
  core    : Nat
  pa      : Nat
  gqNext  : BitVec 32
  gqCount : BitVec 32
  dqAt    : Option Nat
  dqIn    : Nat
  deriving DecidableEq, Repr

/-- A job (12 R298): its message siding, and what is kept of it while it is switched out (R305 to R307): deques oldest
record first, tile queues, contexts, cores, the contexts that wait for registers in order, the messages that aborted handlers
hold (core, network, entry), and its collection round; and the queue served last (VF × 64 + queue, R301). -/
structure Job where
  asid    : Nat
  asd     : Nat
  siding  : List Msg
  deques  : List (Nat × List TaskRec)
  tiles   : List SavedTiles
  saved   : List SavedCtx
  cores   : List SavedCore
  waiting : List Nat
  held    : List (Nat × Bool × InEntry)
  round   : Option Round
  served  : Nat
  /-- the siding's ring in HBM: the key of its first entry, when the station master has set one, its entries, and the number of
  messages that have entered it (R306) -/
  ring    : Option Nat
  entries : Nat
  entered : Nat
  deriving DecidableEq, Repr

/-- The registers of a virtual function (15 R353, R355). -/
structure Vf where
  bound   : Bool
  asid    : BitVec 16
  qhaddr  : List (Nat × Word)
  evbase  : Word
  ien     : Bool
  log2n   : BitVec 5
  evcons  : BitVec 32
  evprod  : BitVec 32
  window  : Nat
  deriving DecidableEq, Repr

def Vf.reset : Vf := ⟨false, 0, [], 0, false, 4, 0, 0, 0⟩

/-- An exported global of an address space (19 R393, R397). -/
structure Symbol where
  asid  : Nat
  name  : List Byte
  value : Word
  deriving DecidableEq, Repr

/-- A load that is done: its address space's descriptor, and the bytes of CLM that the states of its instances have, as key and length
(19 R397, R404). -/
structure Loaded where
  asd : Nat
  clm : List (Nat × Nat)
  deriving DecidableEq, Repr

/-- Device control space and the mailbox (16 R369, R370, R374). -/
structure Device where
  domsize  : BitVec 9
  devnum   : BitVec 9
  cinvGo   : Bool
  pulse    : Word
  pulsePer : BitVec 32
  trbase   : Word
  trLog    : BitVec 8
  trOvf    : Bool
  trFrz    : Bool
  trWrap   : Bool
  trAct    : Bool
  trEn     : Bool
  trpos    : Word
  mode     : BitVec 8
  mbErr    : Bool
  mbBusy   : Bool
  mbResult : BitVec 32
  mbdata   : Vector Byte 256
  failrec  : Vector Word 8
  stage    : List Host.Cell
  /-- the command in progress -/
  mbCmd    : BitVec 8
  /-- the ASID of the DSTOP in progress (R374) -/
  mbAsid   : BitVec 16
  /-- how far the station master firmware has advanced the rollback counter beyond the fused value (R372) -/
  svnUp    : Nat
  /-- the Sutia Link ports that failed training and were left down, as the ready record reports them (R371) -/
  down     : List Nat
  /-- digests of the manifest and of each image as loaded (R375) -/
  measures : List (BitVec 256)
  /-- the jobs that are debug-stopped (R382) -/
  dstops   : List Nat
  deriving DecidableEq, Repr

def Device.reset : Device :=
  ⟨1, 0, false, BitVec.allOnes 64, 0, 0, 16, false, false, false, false, false, 0, 0, false, false, 0,
    Vector.replicate 256 0, Vector.replicate 8 0, [], 0, 0, 0, [], [], []⟩

/-! ## The package -/

/-- What moves next, and what the outside does (log 3). -/
inductive Input where
  /-- a step of the table happens -/
  | run (i : Instr)
  /-- this context (core × 8 + context) acts next -/
  | select (r : Nat)
  /-- in the next cycle the body of a replay cannot issue, and the integer side may (06 R155) -/
  | side
  /-- a cycle beside which nothing of the outstanding work goes on -/
  | quiet
  /-- this many ticks pass -/
  | tick (n : Nat)
  /-- this many cycles of an island pass -/
  | cycle (island n : Nat)
  /-- the supply of an island falls below its threshold at a cycle boundary (16 R368) -/
  | low (island : Nat)
  /-- an entry enters a TLB as the tables stand now, or leaves it (10 R273) -/
  | tlbPage (tlb : TlbAt) (asd : Nat) (va : Word)
  | tlbRange (tlb : TlbAt) (asd idx : Nat)
  | tlbFd (tlb : TlbAt) (asd idx : Nat)
  | tlbWindow (tlb : TlbAt) (asd idx : Nat)
  | tlbEvict (idx : Nat)
  /-- lane `j` of outstanding load `i` of a context, or the `n` bytes of a gather window at a key that the instruction it issues
  reads, are read now, apart from the rest of the access (05 R130, 10 R282) -/
  | lane (r i j : Nat)
  | early (r key n : Nat)
  /-- the part of a gather window that byte `j` of the next element of stream `i` lies in is read now (10 R282) -/
  | part (r i j : Nat)
  /-- the command at a place of an engine reads its next granule, or writes a byte of the one it has read (14 R341, R346) -/
  | engine (u i : Nat)
  /-- a word, or a fetched granule, leaves a core's cache (10 R263) -/
  | l1Evict (core word : Nat)
  | l1iEvict (core gran : Nat)
  /-- the stored symbols of a row and byte lane of a CLM change, those of banks by the differences listed (10 R257) -/
  | symbols (cluster row lane : Nat) (errs : List (Nat × Byte))
  /-- a read of a core meets uncorrectable HBM data (13 R330) -/
  | hbmError (core : Nat)
  /-- a context misses in a TLB, or stalls on a stream for a cycle: events 7, 8 and 9 (16 R376) -/
  | counted (r evt : Nat)
  /-- the station master writes a register of device control space (16 R369) -/
  | control (off : Nat) (v : Word)
  /-- the station master forms a partition of idle quadrants and gateway cores, or with none of either dissolves an idle one (12 R304,
  15 R363) -/
  | partition (i : Nat) (quads gws : List Nat)
  /-- the station master sets the slices of a partition to this many ticks (12 R304) -/
  | slice (i n : Nat)
  /-- the station master sets the ring of a job's message siding (12 R306), and the region of a core's deque siding (R308) -/
  | ring (job key entries : Nat)
  | deque (core key : Nat)
  /-- the station master firmware advances the rollback counter (16 R372) -/
  | rollback
  /-- another device has accepted the message that left at place `i`, and written its payload (15 R356) -/
  | accepted (i : Nat)
  /-- a message, and bytes, that other devices, the host and its mailbox write -/
  | message (m : Msg)
  | remoteWrite (cells : List Host.Cell)
  | hostWrite (cells : List Host.Cell)
  | mailbox (off : Nat) (bytes : List Byte)
  deriving DecidableEq, Repr

/-- The package (00 R2). -/
structure State where
  /-- the number (core × 8 + context) of the current context -/
  cur      : Nat
  ctx      : Ctx
  core     : Core
  ctxs     : List (Nat × Ctx)
  cores    : List (Nat × Core)
  clusters : List (Nat × Cluster)
  /-- tile queues: quadrant × 64 + queue -/
  tileqs   : List (Nat × List TileRec)
  islands  : List (Nat × Island)
  time     : Word
  /-- the time since device reset that TIME is part of, in parts of a tick (log 5) -/
  clock    : Nat
  /-- cores whose contexts the coming sampling pulse has latched: their bytes of the bitmap and their entries (16 R381) -/
  latched  : List (Nat × Byte × List Word)
  mem      : List Host.Cell
  hostMem  : List Host.Cell
  /-- the ownership registry: word number and owning core (11 R287) -/
  owners   : List (Nat × Nat)
  /-- the entries of every TLB, the newest first -/
  tlb      : List (TlbAt × TlbEnt)
  /-- messages accepted by the network and not arrived (08 R203) -/
  net      : List Msg
  /-- messages that left for other devices and are not accepted there (15 R356) -/
  sent     : List Msg
  /-- writes of contexts that have ended, with the context that made them (08 R193) -/
  orphans  : List (Nat × Pend)
  /-- writes of other devices, the host and the package's own units that wait for a CLM region to wake (10 R262) -/
  late     : List (List Host.Cell)
  /-- check symbols of CLM lanes that are not what a write computes: unit, row and lane, and s_64 and s_65 as stored (10 R257) -/
  checks   : List ((Nat × Nat × Nat) × Byte × Byte)
  /-- bytes that the reads of the step in progress receive wrong: their keys, the bytes delivered, and the bytes stored (R257) -/
  upset    : List (Nat × Byte × Byte)
  /-- the lanes that the step in progress has read, and whether a stream read them, noted while `checks` lists any (R257) -/
  read     : List (Bool × Nat × Nat × Nat)
  parts    : List (Nat × Part)
  jobs     : List Job
  exports  : List Symbol
  loads    : List Loaded
  vfs      : List (Nat × Vf)
  hqueues  : List HostQueue
  events   : List HostEvent
  msix     : List Nat
  dev      : Device
  /-- identifier of the next outstanding access -/
  nextId   : Nat
  /-- the model's own counter of free values (log 21) -/
  free     : Nat
  /-- the model's own agenda: what happens in the coming steps (log 3) -/
  agenda   : List Input
  deriving DecidableEq, Repr

/-- The machine right after device reset: nothing active, nothing in memory, context 0 of core 0 current. -/
def State.reset : State where
  cur := 0
  ctx := .reset
  core := .reset
  ctxs := []
  cores := []
  clusters := []
  tileqs := []
  islands := []
  time := 0
  clock := 0
  latched := []
  mem := []
  hostMem := []
  owners := []
  tlb := []
  net := []
  sent := []
  orphans := []
  late := []
  checks := []
  upset := []
  read := []
  parts := []
  jobs := []
  exports := []
  loads := []
  vfs := []
  hqueues := []
  events := []
  msix := []
  dev := .reset
  nextId := 0
  free := 0
  agenda := []

/-- The answer of a step. -/
abbrev Out := Host.Outcome State Fault Refusal

end Sys2Proof.Machine
end

