-- ==== Sys2Proof/Machine/Memory.lean ====
section
/-! DEFINITION. Sparse memory in one canonical form: addresses strictly rising, no entry equal to 0, which is what an
unlisted address reads as (log 1). Words are built from bytes here and nowhere else, little-endian (00 R12). Keyed lists
of the state's units are here too. -/

namespace Sys2Proof.Machine

open Sys2Proof

/-- The byte at an address. -/
def Mem.get : List Host.Cell → Nat → Byte
  | [], _ => 0
  | (k, b) :: r, a => if a = k then b else Mem.get r a

/-- Write one byte, keeping the canonical form. -/
def Mem.set : List Host.Cell → Nat → Byte → List Host.Cell
  | [], a, v => if v = 0 then [] else [(a, v)]
  | (k, b) :: r, a, v =>
    if a < k then (if v = 0 then (k, b) :: r else (a, v) :: (k, b) :: r)
    else if a = k then (if v = 0 then r else (a, v) :: r)
    else (k, b) :: Mem.set r a v

/-- Every listed address lies above `lo`, the addresses rise strictly, and no byte is 0. -/
def Mem.wfFrom : Nat → List Host.Cell → Bool
  | _, [] => true
  | lo, (k, b) :: r => decide (lo ≤ k) && b != 0 && Mem.wfFrom (k + 1) r

/-- The canonical form. -/
def Memory.wf (m : List Host.Cell) : Bool := Mem.wfFrom 0 m

/-- Write a list of bytes, the first first. -/
def Mem.setAll (m : List Host.Cell) : List Host.Cell → List Host.Cell
  | [] => m
  | (a, v) :: r => Mem.setAll (Mem.set m a v) r

/-- Forget the bytes of a range: they read as 0. -/
def Mem.clear (m : List Host.Cell) (a n : Nat) : List Host.Cell := m.filter fun e => !(decide (a ≤ e.1) && decide (e.1 < a + n))

/-- `n` bytes from `a` on. -/
def Mem.bytes (m : List Host.Cell) (a n : Nat) : List Byte :=
  (List.range n).map fun i => Mem.get m (a + i)

/-- The number little-endian bytes spell. -/
def leNat : List Byte → Nat
  | [] => 0
  | b :: r => b.toNat + 256 * leNat r

/-- The `n` little-endian bytes of a number. -/
def leBytes : Nat → Nat → List Byte
  | 0, _ => []
  | n + 1, v => BitVec.ofNat 8 v :: leBytes n (v / 256)

def Mem.word (m : List Host.Cell) (a : Nat) : Word := BitVec.ofNat 64 (leNat (Mem.bytes m a 8))

/-- The cells that put the bytes of a list from `a` on. -/
def cellsAt : Nat → List Byte → List Host.Cell
  | _, [] => []
  | a, b :: r => (a, b) :: cellsAt (a + 1) r

/-- The cells of an `n`-byte little-endian value at `a`. -/
def cellsOf (a n v : Nat) : List Host.Cell := cellsAt a (leBytes n v)

/-- The last byte a list of cells writes at an address, if it writes it. -/
def cellsGet : List Host.Cell → Nat → Option Byte
  | [], _ => none
  | (k, b) :: r, a =>
    match cellsGet r a with
    | some v => some v
    | none => if a = k then some b else none

/-- Cut a list of bytes into 8-byte words. -/
def wordsOf : List Byte → List Word
  | a :: b :: c :: d :: e :: f :: g :: h :: r => BitVec.ofNat 64 (leNat [a, b, c, d, e, f, g, h]) :: wordsOf r
  | [] => []
  | l => [BitVec.ofNat 64 (leNat l)]

/-! ## Keyed lists -/

/-- The entry of a key, or a default. -/
def look {α : Type} (d : α) : List (Nat × α) → Nat → α
  | [], _ => d
  | (k, v) :: r, a => if a = k then v else look d r a

/-- Set the entry of a key. -/
def put {α : Type} : List (Nat × α) → Nat → α → List (Nat × α)
  | [], a, v => [(a, v)]
  | (k, w) :: r, a, v =>
    if a < k then (a, v) :: (k, w) :: r else if a = k then (a, v) :: r else (k, w) :: put r a v

/-- Remove the entry of a key. -/
def drop {α : Type} : List (Nat × α) → Nat → List (Nat × α)
  | [], _ => []
  | (k, w) :: r, a => if a = k then r else (k, w) :: drop r a

/-- The entry of a key, if there is one. -/
def find {α : Type} : List (Nat × α) → Nat → Option α
  | [], _ => none
  | (k, v) :: r, a => if a = k then some v else find r a

/-- Remove the element at a position. -/
def removeAt {α : Type} : List α → Nat → List α
  | [], _ => []
  | _ :: r, 0 => r
  | x :: r, n + 1 => x :: removeAt r n

/-- Replace the element at a position. -/
def replaceAt {α : Type} : List α → Nat → α → List α
  | [], _, _ => []
  | _ :: r, 0, v => v :: r
  | x :: r, n + 1, v => x :: replaceAt r n v

/-- Insert before the first element that does not precede. -/
def insertBy {α : Type} (lt : α → α → Bool) (x : α) : List α → List α
  | [] => [x]
  | y :: r => if lt x y then x :: y :: r else y :: insertBy lt x r

/-- Stable insertion sort by a strict order. -/
def sortBy {α : Type} (lt : α → α → Bool) : List α → List α
  | [] => []
  | x :: r => insertBy (fun a b => !lt b a) x (sortBy lt r)

end Sys2Proof.Machine
end

