-- ==== Sys2Proof/Machine/Units.lean ====
section
/-! DEFINITION. The units of the package by number (00 R2 to R5, 01 R20, 16 R365), and reading and writing each unit's
record in the state. Core numbers: cluster × 9 + core for 0 to 2,879, then the gateway cores in die and port order, then
the station master. A context's number is core × 8 + context. -/

namespace Sys2Proof.Machine

open Sys2Proof

/-! ## Numbers -/

def isMesh (k : Nat) : Bool := k < Config.meshCores
def isData (k : Nat) : Bool := isMesh k && k % 9 == 8
def isCompute (k : Nat) : Bool := isMesh k && k % 9 != 8
def isGateway (k : Nat) : Bool := Config.meshCores ≤ k && k < Config.masterCore
def isMaster (k : Nat) : Bool := k == Config.masterCore

/-- The contexts of a core: the station master has one. -/
def ctxsOf (k : Nat) : List Nat := if isMaster k then [k * 8] else (List.range 8).map (k * 8 + ·)

/-- Gateway number of a gateway core. -/
def gwOf (k : Nat) : Nat := k - Config.meshCores

/-- Die of a gateway (R4: dies 0 and 1 carry 5 ports, dies 2 and 3 carry 4). -/
def gwDie (g : Nat) : Nat := if g < 5 then 0 else if g < 10 then 1 else if g < 14 then 2 else 3

/-- Port of a gateway within its die. -/
def gwPort (g : Nat) : Nat := if g < 5 then g else if g < 10 then g - 5 else if g < 14 then g - 10 else g - 14

/-- Cluster index of a mesh core (R3). -/
def clusterOf (k : Nat) : Nat := k / 9

/-- Quadrant 0 to 15 of a mesh core. -/
def quadOf (k : Nat) : Nat := clusterOf k / 20

def dieOf (k : Nat) : Nat := if isMesh k then clusterOf k / 80 else if isGateway k then gwDie (gwOf k) else 0

/-- The engine unit of a core: its cluster, or a gateway core's own engine (14 R341). -/
def engineOf (k : Nat) : Nat := if isMesh k then clusterOf k else 320 + gwOf k

/-- Bits 15:0 of CID (01 R20). -/
def cidOf (r : Nat) : BitVec 16 :=
  let k := r / 8
  if isMesh k then
    let c := clusterOf k
    BitVec.ofNat 16 ((c / 80) * 2 ^ 14 + (c / 20 % 4) * 2 ^ 12 + (c % 20) * 2 ^ 7 + (k % 9) * 8 + r % 8)
  else if isGateway k then
    BitVec.ofNat 16 (gwDie (gwOf k) * 2 ^ 14 + 31 * 2 ^ 7 + gwPort (gwOf k) * 8 + r % 8)
  else 0xFFFF

/-- The context number a CID names, if a core holds it (01 R20). -/
def ctxOfCid (cid : BitVec 16) : Option Nat :=
  let n := cid.toNat
  let die := n / 2 ^ 14
  let quad := n / 2 ^ 12 % 4
  let clus := n / 2 ^ 7 % 32
  let core := n / 8 % 16
  if clus < 20 then
    if core < 9 then some (((die * 80 + quad * 20 + clus) * 9 + core) * 8 + n % 8) else none
  else if clus = 31 ∧ quad = 0 ∧ core < (if die < 2 then 5 else 4) then
    some ((Config.meshCores + (if die < 3 then die * 5 else 14) + core) * 8 + n % 8)
  else none

/-- Island of a core (16 R365). -/
def islandOf (k : Nat) : Nat :=
  if isMesh k then
    let c := clusterOf k
    (c / 80) * 32 + (c / 20 % 4) * 6 + c % 20 / 4
  else if isGateway k then gwDie (gwOf k) * 32 + 28
  else 31

/-- The mirror of a compute core (00 R5). -/
def mirrorOf (k : Nat) : Nat := clusterOf k * 9 + (7 - k % 9)

/-! ## The current core and context -/

def State.k (s : State) : Nat := s.cur / 8
def State.c (s : State) : Nat := s.cur % 8

/-- Make another context the current one. -/
def State.select (r : Nat) (s : State) : State :=
  if r = s.cur then s
  else
    let ctxs := put s.ctxs s.cur s.ctx
    let cores := put s.cores s.k s.core
    { s with
      cur := r
      ctx := look .reset ctxs r
      core := look .reset cores (r / 8)
      ctxs := ctxs
      cores := cores }

def State.getCtx (s : State) (r : Nat) : Ctx := if r = s.cur then s.ctx else look .reset s.ctxs r

def State.setCtx (s : State) (r : Nat) (c : Ctx) : State :=
  if r = s.cur then { s with ctx := c } else { s with ctxs := put s.ctxs r c }

def State.getCore (s : State) (k : Nat) : Core := if k = s.k then s.core else look .reset s.cores k

def State.setCore (s : State) (k : Nat) (c : Core) : State :=
  if k = s.k then { s with core := c } else { s with cores := put s.cores k c }

def State.modCtx (s : State) (r : Nat) (f : Ctx → Ctx) : State := s.setCtx r (f (s.getCtx r))
def State.modCore (s : State) (k : Nat) (f : Core → Core) : State := s.setCore k (f (s.getCore k))

/-- An event of the cycle in progress, which its end counts (16 R377). -/
def State.pmc (s : State) (k evt : Nat) (c : Option Nat) : State := s.modCore k fun co => { co with due := co.due ++ [(evt, c)] }

/-- Run a step as another context and come back. -/
def State.as (s : State) (r : Nat) (f : State → State) : State := (f (s.select r)).select s.cur

/-! ## Other units -/

def State.cluster (s : State) (i : Nat) : Cluster := look .reset s.clusters i
def State.setCluster (s : State) (i : Nat) (c : Cluster) : State := { s with clusters := put s.clusters i c }
def State.island (s : State) (i : Nat) : Island := look .reset s.islands i
def State.setIsland (s : State) (i : Nat) (x : Island) : State := { s with islands := put s.islands i x }
def State.tileq (s : State) (q : Nat) : List TileRec := look [] s.tileqs q
def State.setTileq (s : State) (q : Nat) (l : List TileRec) : State := { s with tileqs := put s.tileqs q l }
def State.vf (s : State) (i : Nat) : Vf := look .reset s.vfs i
def State.setVf (s : State) (i : Nat) (v : Vf) : State := { s with vfs := put s.vfs i v }

/-- A partition holds a core when it holds its quadrant, or the gateway core itself (12 R304, 15 R363). -/
def Part.holds (p : Part) (k : Nat) : Bool :=
  if isMesh k then p.quads.contains (quadOf k) else isGateway k && p.gws.contains (gwOf k)

def findPart : List (Nat × Part) → Nat → Option (Nat × Part)
  | [], _ => none
  | (i, p) :: r, k => if p.holds k then some (i, p) else findPart r k

/-- The partition of a core. -/
def State.partOf (s : State) (k : Nat) : Option (Nat × Part) := findPart s.parts k

def State.part (s : State) (i : Nat) : Option Part := find s.parts i
def State.setPart (s : State) (i : Nat) (p : Part) : State := { s with parts := put s.parts i p }

/-- ASID of the job a core runs; 0 when its partition runs none. -/
def State.asidOf (s : State) (k : Nat) : Nat :=
  match s.partOf k with
  | some (_, p) => p.asid
  | none => 0

def State.job (s : State) (asid : Nat) : Option Job := s.jobs.find? (·.asid == asid)

def State.setJob (s : State) (j : Job) : State :=
  { s with jobs := j :: s.jobs.filter (·.asid != j.asid) }

/-- Cores of a partition: compute and data cores by cluster index and core, then gateway cores (08 R211). -/
def Part.cores (p : Part) : List Nat :=
  (p.quads.flatMap fun q => (List.range 180).map (q * 180 + ·)) ++ p.gws.map (Config.meshCores + ·)

/-! ## x registers (01 R15) -/

def State.x (s : State) (r : Reg) : Word := if r = 0 then 0 else s.ctx.x[r.toNat]'(r.isLt)

/-- Write an x register; a write to x0 is discarded. -/
def State.setX (s : State) (r : Reg) (v : Word) : State :=
  if r = 0 then s else { s with ctx := { s.ctx with x := s.ctx.x.set r.toNat v r.isLt } }

def Ctx.setX (c : Ctx) (r : Reg) (v : Word) : Ctx :=
  if r = 0 then c else { c with x := c.x.set r.toNat v r.isLt }

/-! ## f, v and m registers -/

def State.f (s : State) (r : Reg) : Word := s.ctx.f[r.toNat]'(r.isLt)
def State.setF (s : State) (r : Reg) (v : Word) : State :=
  { s with ctx := { s.ctx with f := s.ctx.f.set r.toNat v r.isLt } }
def State.v (s : State) (r : Reg) : VWord := s.ctx.v[r.toNat]'(r.isLt)
def State.setV (s : State) (r : Reg) (v : VWord) : State :=
  { s with ctx := { s.ctx with v := s.ctx.v.set r.toNat v r.isLt } }
def State.m (s : State) (r : MReg) : Word := s.ctx.m[r.toNat]'(r.isLt)
def State.setM (s : State) (r : MReg) (v : Word) : State :=
  { s with ctx := { s.ctx with m := s.ctx.m.set r.toNat v r.isLt } }

/-- Stream unit `i` (06 R132). -/
def State.stream (s : State) (i : BitVec 2) : Stream := s.ctx.streams[i.toNat]'(i.isLt)
def State.setStream (s : State) (i : BitVec 2) (t : Stream) : State :=
  { s with ctx := { s.ctx with streams := s.ctx.streams.set i.toNat t i.isLt } }

def State.tile (s : State) (t : Tile) : TileReg := s.core.tiles[t.toNat]'(t.isLt)
def State.setTile (s : State) (t : Tile) (r : TileReg) : State :=
  { s with core := { s.core with tiles := s.core.tiles.set t.toNat r t.isLt } }
def State.tshape (s : State) (t : Tile) : TShape := s.core.tshape[t.toNat]'(t.isLt)
def State.setTshape (s : State) (t : Tile) (r : TShape) : State :=
  { s with core := { s.core with tshape := s.core.tshape.set t.toNat r t.isLt } }

end Sys2Proof.Machine
end

