-- ==== Sys2Proof/Machine/Ops.lean ====
section
/-! DEFINITION. The named operations every meaning uses: counters, retiring, stopping streams, taking an exception
(13 R320, one operation), the partition-fatal fault (13 R329), the host queues' side of a fault, and ending a context. -/

namespace Sys2Proof.Machine

open Sys2Proof

/-- A synchronous trap: cause, subcode, TVAL (13 R317). -/
structure Trap where
  code : BitVec 8
  sub  : BitVec 8
  tval : Word
  deriving DecidableEq, Repr

/-- ILLEGAL by a decode rule, and with the other subcodes of 13 R318. -/
def illegal (i : Instr) : Trap := ⟨1, 0, low64 i⟩
def illegalVal (v : Word) : Trap := ⟨1, 1, v⟩
def illegalMode (i : Instr) : Trap := ⟨1, 2, low64 i⟩
def illegalPriv (i : Instr) : Trap := ⟨1, 3, low64 i⟩
def alignTrap (a : Word) : Trap := ⟨6, 0, a⟩
def regidxTrap (i : Word) : Trap := ⟨7, 0, i⟩
def tilebusy (i : Instr) : Trap := ⟨12, 0, low64 i⟩

/-! ## Counters (01 R25, 04 R101) -/

/-- The outstanding accesses counted in LDC. -/
def PendOp.isLoad : PendOp → Bool
  | .load .. => true
  | .amo .. => true
  | .arrival _ => true
  | .prescale .. => true
  | _ => false

def Ctx.ldc (c : Ctx) : Nat := (c.pend.filter (·.op.isLoad)).length

/-- Pushes not yet written, over the four streams. -/
def Ctx.pushes (c : Ctx) : Nat := (c.streams.toList.map (·.pushes.length)).sum

def Ctx.stc (c : Ctx) : Nat := (c.pend.filter (!·.op.isLoad)).length + c.pushes

/-- Whether the current context holds the matrix unit claim, STATUS.TCLM (01 R17). A claim that an aborted handler gives
up is not held while its counted operations run out (07 R161, 13 R323). -/
def State.tclm (s : State) : Bool := s.core.claim == some s.c && !s.core.release

/-- OPCNT.TLC: the counted operations of the context whose claim it is. -/
def State.tlc (s : State) : Nat := if s.core.claim = some s.c then s.core.tileq.length else 0

/-! ## Retiring and stalling -/

/-- Add to INSTRET and clear the wait. -/
def State.count (s : State) : State :=
  { s with ctx := { s.ctx with instret := s.ctx.instret + 1, wait := .none } }

/-- Complete an instruction of `len` bytes (04 R85). A body instruction of a replay leaves PC, which belongs to the
integer side (06 R155). -/
def State.retire (len : Nat) (s : State) : State :=
  if s.ctx.rep.issuing then s.count
  else { s.count with ctx := { s.count.ctx with pc := s.ctx.pc + BitVec.ofNat 64 len } }

/-- Complete an instruction that sets the next PC. -/
def State.jump (t : Word) (s : State) : State :=
  { s.count with ctx := { s.count.ctx with pc := t } }

/-- The instruction stays at PC and waits. -/
def State.stall (w : Wait) (s : State) : State := { s with ctx := { s.ctx with wait := w } }

/-- A new free value (log 21). -/
def State.fresh (s : State) : Word × State := (Config.freeWord s.free, { s with free := s.free + 1 })

/-! ## Streams stop (06 R139, R150) -/

def Stream.stop (t : Stream) : Stream :=
  if t.active then { t with active := false, bv := false, breg := 0, flt := none, got := [], part := .none } else t

def Ctx.stopStreams (c : Ctx) : Ctx := { c with streams := c.streams.map Stream.stop }

/-! ## The claim (07 R161) -/

/-- Release the claim of the current context: at once when no counted operation is left, else when the last ends. -/
def State.releaseClaim (s : State) : State :=
  if s.tclm then
    if s.core.tileq.isEmpty then { s with core := { s.core with claim := none, release := false, offer := none } }
    else { s with core := { s.core with release := true, offer := none } }
  else s

/-! ## Input queues and send slots -/

def Core.inq (c : Core) (vn : Bool) : List InEntry := if vn then c.inq1 else c.inq0
def Core.setInq (c : Core) (vn : Bool) (l : List InEntry) : Core := if vn then { c with inq1 := l } else { c with inq0 := l }
def Core.out (c : Core) (vn : Bool) : List Msg := if vn then c.out1 else c.out0
def Core.setOut (c : Core) (vn : Bool) (l : List Msg) : Core := if vn then { c with out1 := l } else { c with out0 := l }
def Core.resv (c : Core) (vn : Bool) : List Nat := if vn then c.resv1 else c.resv0
def Core.setResv (c : Core) (vn : Bool) (l : List Nat) : Core := if vn then { c with resv1 := l } else { c with resv0 := l }

/-- Free send slots of a virtual network (08 R200). -/
def Core.freeSlots (c : Core) (vn : Bool) : Nat := Config.sendSlots - ((c.out vn).length + (c.resv vn).length)

/-- Mark the message that context `c` has in service as held (13 R323). -/
def holdMsgs (c : Nat) (l : List InEntry) : List InEntry :=
  l.map fun e => if e.service = some c then { e with held := true } else e

/-- Remove the message that context `c` has in service (08 R201, 13 R323). -/
def dropMsgs (c : Nat) (l : List InEntry) : List InEntry := l.filter fun e => e.service != some c

/-- Put the message that context `c` has in service back to waiting (13 R323, R333). -/
def returnMsgs (c : Nat) (l : List InEntry) : List InEntry :=
  l.map fun e => if e.service = some c then { e with service := none, held := false } else e

/-- Free the send slots context `c` has reserved. -/
def Core.freeResv (c : Core) (n : Nat) : Core :=
  { c with resv0 := c.resv0.filter (· != n), resv1 := c.resv1.filter (· != n) }

/-- A replay ends with its handler, at once (06 R150). -/
def Replay.cut (r : Replay) : Replay :=
  if r.act then { r with act := false, len := 0, held := false, issuing := false, loads := [], ends := [], body := [] } else r

/-- Abort a message handler (08 R202, 13 R323): held sends and forks are discarded, its message is held, its streams,
replay and claim end. -/
def State.abortHandler (s : State) : State :=
  let s := s.releaseClaim
  { s with
    ctx := { s.ctx.stopStreams with heldq := [], rep := s.ctx.rep.cut, hnd := false, hvn := false, abt := true }
    core := { s.core.freeResv s.c with inq0 := holdMsgs s.c s.core.inq0, inq1 := holdMsgs s.c s.core.inq1 } }

/-! ## The host's view of a fault (12 R298, R302, R303) -/

/-- Write a field of a queue's header in host memory, when the queue has one. -/
def State.writeHeader (s : State) (vf q off n v : Nat) : State :=
  let a := (look 0 (s.vf vf).qhaddr q).toNat
  if a = 0 then s else { s with hostMem := Mem.setAll s.hostMem (cellsOf (a + off) n v) }

/-- Replace the record of a host queue. -/
def State.setQueue (s : State) (h : HostQueue) : State :=
  { s with hqueues := h :: s.hqueues.filter fun x => !(x.vf == h.vf && x.q == h.q) }

/-- The host address of a queue's header; 0 means no queue. -/
def State.header (s : State) (vf q : Nat) : Nat := (look 0 (s.vf vf).qhaddr q).toNat

/-- The word at an offset of a queue's header. -/
def State.headerWord (s : State) (vf q off : Nat) : Word := Mem.word s.hostMem (s.header vf q + off)

def State.queue (s : State) (vf q : Nat) : Option HostQueue := s.hqueues.find? fun h => h.vf == vf && h.q == q

/-- A queue as the device holds it, or, when it has not been rung, as its header has it. -/
def State.queueOr (s : State) (vf q : Nat) : HostQueue :=
  (s.queue vf q).getD
    ⟨vf, q, (s.headerWord vf q 0x10).extractLsb' 0 32, (s.headerWord vf q 0x18).extractLsb' 0 32,
      (s.headerWord vf q 0x20).extractLsb' 0 32, 0, (s.headerWord vf q 0x08).extractLsb' 8 7, [], []⟩

/-- The queues of a virtual function: those whose header address is set. -/
def State.queuesOf (s : State) (vf : Nat) : List HostQueue :=
  ((List.range 64).filter fun q => s.header vf q != 0).map (s.queueOr vf)

/-- Mark one queue stopped by a partition fault: STATE 3, CONS := COMP (12 R303). -/
def State.stopQueue (s : State) (h : HostQueue) : State :=
  let s := s.setQueue { h with state := 3, cons := h.comp, cmds := [], done := [] }
  (s.writeHeader h.vf h.q 0x28 1 3).writeHeader h.vf h.q 0x18 4 h.comp.toNat

/-- The bound virtual functions of a job. -/
def State.vfsOf (s : State) (asid : Nat) : List Nat :=
  ((List.range 17).filter fun v => (s.vf v).bound && (s.vf v).asid.toNat == asid)

/-- What a discarded context leaves: its writes may still be performed (13 R329). -/
def orphansOf (r : Nat) (c : Ctx) : List (Nat × Pend) :=
  (c.pend.filter (!·.op.isLoad)).map (r, ·)

/-- A core with the work of its job discarded (13 R329). -/
def Core.discard (c : Core) : Core :=
  { c with
    claim := none, release := false, tacqs := [], offer := none, tileq := [], deque := [], siding := [],
    dqAt := none, dqIn := 0, thief := ⟨0, 0, false⟩, stealing := none, inq0 := [], inq1 := [], out0 := [], out1 := [], resv0 := [], resv1 := [],
    regReqs := [], tileActs := [], injected := false }

/-- Whether a holder is a context of a partition, or one saved of its job. -/
def Holder.within (p : Part) : Holder → Bool
  | .ctx r => p.holds (r / 8)
  | .saved a _ => a == p.asid

/-- A cluster with the commands and decode requests of a partition's job discarded; its contexts hold no region any more (13 R329,
10 R261). -/
def Cluster.discard (c : Cluster) (p : Part) : Cluster :=
  { c with
    copies := c.copies.filter (·.asid != p.asid)
    decodes := c.decodes.filter (·.asid != p.asid)
    reqs := c.reqs.filter fun e => !p.holds (e.ctx / 8)
    regions := c.regions.map fun x => { x with holders := x.holders.filter (!·.within p) } }

/-- Discard every context, record, message and command of a partition's job (13 R329). -/
def State.discardJob (s : State) (p : Part) : State :=
  let here := p.holds s.k
  let gone := s.ctxs.filter fun e => p.holds (e.1 / 8) && e.1 != s.cur
  { s with
    orphans := s.orphans ++ (gone.flatMap fun e => orphansOf e.1 e.2) ++ (if here then orphansOf s.cur s.ctx else [])
    ctx := if here then .reset else s.ctx
    core := if here then s.core.discard else s.core
    ctxs := s.ctxs.filter fun e => !(p.holds (e.1 / 8))
    cores := s.cores.map fun e => if p.holds e.1 then (e.1, e.2.discard) else e
    tileqs := s.tileqs.filter fun e => !(p.quads.contains (e.1 / 64))
    clusters := s.clusters.map fun e => (e.1, e.2.discard p)
    net := s.net.filter (·.asid != p.asid)
    sent := s.sent.filter (·.asid != p.asid)
    jobs := s.jobs.map fun j => if j.asid = p.asid then { j with siding := [], deques := [], tiles := [], saved := [], waiting := [], held := [], round := none } else j }

/-- A partition-fatal fault (13 R329, R330), `cid` being what bits 63:8 of the status hold. The spec gives the event no queue
number and no command: those two are free values (log 21). -/
def State.partFault (s : State) (i : Nat) (p : Part) (code : BitVec 8) (cid : BitVec 16) : State :=
  let s := s.discardJob p
  let s := s.setPart i { p with idle := true, round := none, switch := none, stopping := false }
  let vfs := s.vfsOf p.asid
  let s := (vfs.flatMap s.queuesOf).foldl State.stopQueue s
  { s with
    events := s.events ++ vfs.zipIdx.map fun e =>
      ⟨e.1, 3, (Config.freeWord (s.free + 2 * e.2)).extractLsb' 0 6, (Config.freeWord (s.free + 2 * e.2 + 1)).extractLsb' 0 32,
        (0 : BitVec 40) ++ cid ++ code⟩
    free := s.free + 2 * vfs.length }

/-- The same, from the partition of a core; a core of no partition has no job to stop. -/
def State.fatal (s : State) (k : Nat) (code : BitVec 8) : State :=
  match s.partOf k with
  | some (i, p) => s.partFault i p code (cidOf (k * 8))
  | none => s

/-! ## Taking an exception (13 R320) -/

/-- CAUSE as a trap writes it (01 R24). -/
def causeWord (int : Bool) (t : Trap) : Word := (unbit1 int) ++ (0 : BitVec 47) ++ t.sub ++ t.code

/-- End a replay whose iterations are done (R155). -/
def Replay.settle (r : Replay) : Replay :=
  if r.act && decide (r.cnt.toNat ≤ r.iter.toNat) then { r with act := false, len := 0, held := false } else r

/-- Hold a replay in progress (06 R158): BT tells whether a body instruction raised the trap. A replay whose last iteration has issued
ends, since every body instruction issued before the trap has then written its destinations. -/
def Replay.hold (r : Replay) : Replay :=
  if r.act then (if r.issuing then { r with held := true, bt := true, issuing := false } else { r with held := true, bt := false }.settle)
  else r

/-- The saved registers, STATUS and PC of the entry into S mode. -/
def State.enter (s : State) (int : Bool) (t : Trap) (epc : Word) : State :=
  { s with
    ctx := { s.ctx with
      epc := epc
      cause := causeWord int t
      tval := t.tval
      pprv := s.ctx.prv
      pie := s.ctx.ie
      ie := false
      prv := 1
      rep := s.ctx.rep.hold
      wait := .none
      drain := true
      pc := s.core.tvec &&& 0xFFFFFFFFFFFFFFE0 } }

/-- The entry on the station master (01 R19, R23; log 13). -/
def State.enterM (s : State) (int : Bool) (t : Trap) (epc : Word) : State :=
  { s with
    core := { s.core with mepc := epc, mcause := causeWord int t, mtval := t.tval }
    ctx := { s.ctx with
      pprv := s.ctx.prv
      pie := s.ctx.ie
      ie := false
      prv := 3
      rep := s.ctx.rep.hold
      wait := .none
      drain := true
      pc := s.core.mtvec &&& 0xFFFFFFFFFFFFFFE0 } }

/-- A wait that a trap or an event abandons leaves its order or offer (07 R161, R174). -/
def State.leaveWaits (s : State) : State :=
  { s with core := { s.core with
      tacqs := s.core.tacqs.filter (· != s.c)
      offer := if s.core.offer.map (·.1) = some s.c then none else s.core.offer } }

/-- Take a trap or an event with EPC = `epc` unless a handler is aborted (13 R320). -/
def State.exception (s : State) (int : Bool) (t : Trap) (epc : Word) : State :=
  let s := s.leaveWaits
  if isMaster s.k then s.enterM int t epc
  else if s.ctx.hnd then
    let s := s.abortHandler
    let s := s.enter int { t with tval := s.ctx.trigger.getD 0 } 0
    if s.core.tvec.extractLsb' 5 59 = 0 then s.fatal s.k 5 else s
  else
    let s := s.enter int t epc
    if s.core.tvec.extractLsb' 5 59 = 0 then s.fatal s.k 5 else s

/-- A synchronous trap of the instruction at PC (13 R321). -/
def State.trap (s : State) (t : Trap) : State := s.exception false t s.ctx.pc

/-- Do the checks of an instruction, then its effect, or take the first failing check's trap. -/
def checked {α : Type} (s : State) (r : Except Trap α) (k : α → State) : Out :=
  match r with
  | .error t => .next (s.trap t)
  | .ok a => .next (k a)

/-- A check that raises `t` unless `ok`. -/
def require (ok : Bool) (t : Trap) : Except Trap Unit := if ok then .ok () else .error t

/-! ## Ending a context (08 R193 steps 1 to 3) -/

/-- A holder leaves its CLM region; an unheld, untagged managed region then powers down by its own event (10 R261). -/
def State.leaveRegion (s : State) : State :=
  match s.ctx.region with
  | none => s
  | some n =>
    let cl := s.cluster (clusterOf s.k)
    let regs := cl.regions.toList
    let regs' := (List.range 16).zip regs |>.map fun e =>
      if e.1 = n then { e.2 with holders := e.2.holders.filter (· != .ctx s.cur) } else e.2
    let cl' := { cl with regions := Vector.ofFn fun i : Fin 16 => regs'.getD i.val .reset }
    { s.setCluster (clusterOf s.k) cl' with ctx := { s.ctx with region := none } }

/-- Commands of a context that ends go on without it (13 R328). -/
def disown (r asid : Nat) (l : List EngCmd) : List EngCmd :=
  l.map fun e => if e.ctx = r ∧ e.asid = asid then { e with ended := true } else e

/-- What the writes of an ending context leave in the network, its pushes included, in program order (08 R193). -/
def State.leftWrites (s : State) : List (Nat × Pend) :=
  sortBy (fun a b => decide (a.2.id < b.2.id)) (orphansOf s.cur s.ctx ++
    (s.ctx.streams.toList.flatMap fun t =>
      t.pushes.map fun e => (s.cur, (⟨e.id, .store .strm [e.cells], e.homes.map (.strm, ·), false⟩ : Pend))))

/-- A context that has ended: dormant, with the events that wait for whoever uses its number next (13 R325). -/
def Ctx.ended (c : Ctx) : Ctx := if c.hnd then { Ctx.reset with ipi := c.ipi, debug := c.debug } else .reset

/-- The context becomes dormant: streams stop, the claim is released, its allocation returns, its outstanding writes stay
in the network, its pending events are discarded, except that an ENGINE event is partition-fatal and that the IPI and the DEBUG
events that came to a message handler stay pending for its context (08 R193, 13 R325). -/
def State.endContext (s : State) : State :=
  let fatal := !s.ctx.eng.isEmpty
  let s := (s.leaveWaits.releaseClaim).leaveRegion
  let u := engineOf s.k
  let cl := s.cluster u
  let s := if cl.copies.isEmpty && cl.decodes.isEmpty then s
    else s.setCluster u { cl with
      copies := disown s.cur (s.asidOf s.k) cl.copies, decodes := disown s.cur (s.asidOf s.k) cl.decodes }
  let s := { s with orphans := s.orphans ++ s.leftWrites, core := s.core.freeResv s.c, ctx := s.ctx.ended }
  if fatal then s.fatal s.k 6 else s

/-- Whether a context that ends may become dormant now (08 R193 step 1). -/
def State.mayEnd (s : State) : Bool := s.ctx.ldc == 0 && (!s.tclm || s.core.tileq.isEmpty)

/-- Steps 2 and 3 of R193, and what becomes of the message an aborted handler holds: it leaves its queue, or with `again`
it is served again (13 R323). -/
def State.conclude (s : State) (again : Bool) : State :=
  let f := if again then returnMsgs s.c else dropMsgs s.c
  { s with core := { s.core with inq0 := f s.core.inq0, inq1 := f s.core.inq1 } }.endContext

/-- End the context when step 1 of R193 allows, else wait for it. -/
def State.finish (s : State) (again : Bool) : State :=
  if s.mayEnd then s.conclude again else s.stall (.ending again)

end Sys2Proof.Machine
end

