-- ==== Sys2Proof/Machine/Xlate.lean ====
section
/-! DEFINITION. From a virtual address to a byte of memory: the virtual map (10 R252), the physical map (R254, R255),
gather windows (R278 to R282), range entries and page walks (R267 to R274), format descriptors (R275, R276), homes (R264),
and the check rows of 04 R99. -/

namespace Sys2Proof.Machine

open Sys2Proof

/-! ## Physical memory

Memory is keyed by a number: a device-local address of this device below 2^43; byte `o` of gateway memory `g` at
2^52 + g × 2^18 + o; an address of another device at 2^53 + its PA. -/

def gwKey (g o : Nat) : Nat := 2 ^ 52 + g * 2 ^ 18 + o

/-- The key of a byte of device control space, which only the station master reaches (R254, R255). -/
def ctlKey (off : Nat) : Nat := 2 ^ 51 + off

/-- The offset in device control space of a key, if it lies there. -/
def ctlOf (key : Nat) : Option Nat := if 2 ^ 51 ≤ key ∧ key < 2 ^ 52 then some (key - 2 ^ 51) else none

/-- What a key is: HBM, CLM, gateway memory, or another device's memory. -/
def isClmKey (key : Nat) : Bool := 0x40000000000 ≤ key && key < 0x40028000000
def isHbmKey (key : Nat) : Bool := key < 0x8000000000
def isRemoteKey (key : Nat) : Bool := 2 ^ 53 ≤ key

/-- A key's offset in the device-local map of its device. -/
def localOf (key : Nat) : Nat := if isRemoteKey key then (key - 2 ^ 53) % 2 ^ 43 else key

/-- Words the L1 data cache may hold: HBM words of any device (R263). -/
def cachedKey (key : Nat) : Bool := isHbmKey (localOf key) && (key < 2 ^ 43 || isRemoteKey key)

/-- Where a physical address leads, or the fault subcode of R255. -/
inductive Phys where
  | key (n : Nat)
  | control (off : Nat)
  | bad (sub : BitVec 8)
  deriving DecidableEq, Repr

def State.phys (s : State) (pa : Nat) : Phys :=
  let dev := pa / 2 ^ 43
  let l := pa % 2 ^ 43
  if s.dev.domsize.toNat ≤ dev then .bad 1
  else if l < 0x8000000000 || (0x40000000000 ≤ l && l < 0x40028000000) then
    .key (if dev = s.dev.devnum.toNat then l else 2 ^ 53 + pa)
  else if 0x60000000000 ≤ l && l < 0x60100000000 then
    -- control space is its own device's: no other device's master reaches it
    (if dev = s.dev.devnum.toNat then .control (l - 0x60000000000) else .bad 2)
  else .bad 1

/-- The CLM byte `o` of cluster `c`. -/
def clmKey (c o : Nat) : Nat := 0x40000000000 + c * 0x200000 + o

/-- The home of a word of a device by its home key, a device-local address (R256, R264): the bank of the CLM, or die,
quadrant and bank of the QSC. -/
def localHome (a : Nat) : Nat :=
  if isClmKey a then 0x100000 + (a - 0x40000000000) / 0x200000 * 64 + a / 16 % 64
  else (a / 2 ^ 11 % 4) * 256 + (a / 2 ^ 9 % 4) * 64 + (a / 64 % 8) + 8 * (a / 2 ^ 13 % 8)

/-- The home of a byte whose home key (R264) is `key`: a home of this device, a bank of gateway memory, or a home of another
device. -/
def homeOf (key : Nat) : Nat :=
  if isRemoteKey key then 0x1000000 + (key - 2 ^ 53) / 2 ^ 43 * 0x1000000 + localHome (localOf key)
  else if 2 ^ 52 ≤ key then 0x80000 + (key - 2 ^ 52) / 2 ^ 18 * 64 + key / 16 % 64
  else localHome key

/-- Whether a home is another device's. -/
def remoteHome (h : Nat) : Bool := decide (0x1000000 ≤ h)

/-- The HBM stack, 0 to 7, that holds the bytes of a physical address (R264). -/
def stackOf (pa : Nat) : Nat := 2 * (pa / 2 ^ 11 % 4) + pa / 2 ^ 13 % 2

/-! ## Table entries -/

/-- The permission bits of an entry (R268). -/
def permOf (w : Word) (fdi : BitVec 6) : Perm :=
  ⟨w.getLsbD 7, w.getLsbD 3, w.getLsbD 4, w.getLsbD 5, w.getLsbD 6, fdi⟩

/-- A table word of the device's own HBM; none outside it (R269). -/
def State.tableWord (s : State) (pa : Nat) : Option Word :=
  match s.phys pa with
  | .key n => if isHbmKey n then some (Mem.word s.mem n) else none
  | _ => none

/-- Whether `n` bytes at a device-local address lie in HBM, as every table the ASD names must (R266, R269). -/
def inHbm (a n : Nat) : Bool := decide (a + n ≤ 0x8000000000)

/-- Four words at a device-local address of HBM (R266); zeros, which are no valid entry, outside it. -/
def State.words4 (s : State) (a : Nat) : FdWords :=
  if inHbm a 32 then ⟨Mem.word s.mem a, Mem.word s.mem (a + 8), Mem.word s.mem (a + 16), Mem.word s.mem (a + 24)⟩ else ⟨0, 0, 0, 0⟩

/-- Reserved bits of a page-table entry (R268). -/
def pteReserved (e : Word) : Bool := e &&& 0x03F0000000000D06 != 0

/-- The L0 entry that translates an address (R270): its own; but in a group of 16 not written alike, where its own has C64 = 0,
one of the entries that have C64 = 1, a free value picking it (log 21). `t` is the address of the L0 table. -/
def State.groupEntry (s : State) (t idx : Nat) (own : Word) : Word :=
  if own.getLsbD 9 then own
  else
    let l := ((List.range 16).filterMap fun i => s.tableWord (t + 8 * (idx / 16 * 16 + i))).filter fun e => e.getLsbD 9
    l.getD ((Config.freeWord s.free).toNat % l.length) own

/-- A page walk from level `lvl` down (R269). `shift lvl` is the first VA bit of that level's index. -/
def State.walk (s : State) (va : Word) : Nat → Word → Except (BitVec 8) (Nat × Nat × Perm)
  | lvl, e =>
    if !e.getLsbD 0 || pteReserved e then .error 1
    else if e.getLsbD 3 || e.getLsbD 4 || e.getLsbD 5 || e.getLsbD 6 then
      if lvl = 3 || (e.getLsbD 9 && lvl != 0) then .error 1
      else
        let sh := if e.getLsbD 9 then 16 else 12 + 9 * lvl
        let base := (e.extractLsb' 12 40).toNat * 4096
        if base % 2 ^ sh != 0 then .error 1
        else .ok (sh, base, permOf e (e.extractLsb' 58 6))
    else
      match lvl with
      | 0 => .error 1
      | l + 1 =>
        if e.extractLsb' 58 6 != 0 || e.getLsbD 7 || e.getLsbD 9 then .error 1
        else
          let idx := (va.toNat / 2 ^ (12 + 9 * l)) % 512
          let t := (e.extractLsb' 12 40).toNat * 4096
          match s.tableWord (t + 8 * idx) with
          | none => .error 1
          | some e' => s.walk va l (if l = 0 then s.groupEntry t idx e' else e')

/-- The walk from the root, which PTROOT names by a device-local address (R266). -/
def State.pageWalk (s : State) (asd : Nat) (va : Word) : Except (BitVec 8) (Nat × Nat × Perm) :=
  let a := (Mem.word s.mem asd).toNat + 8 * (va.extractLsb' 39 13).toNat
  if inHbm a 8 then s.walk va 3 (Mem.word s.mem a) else .error 1

/-- A cached page that covers an address. -/
def tlbPage (asid va : Nat) : List TlbEnt → Option (Nat × Nat × Perm)
  | [] => none
  | .page a v sh pa p :: r => if a = asid ∧ va / 2 ^ sh = v / 2 ^ sh then some (sh, pa, p) else tlbPage asid va r
  | _ :: r => tlbPage asid va r

def tlbRange (asid i : Nat) : List TlbEnt → Option FdWords
  | [] => none
  | .range a j e :: r => if a = asid ∧ j = i then some e else tlbRange asid i r
  | _ :: r => tlbRange asid i r

def tlbFd (asid i : Nat) : List TlbEnt → Option FdWords
  | [] => none
  | .fd a j e :: r => if a = asid ∧ j = i then some e else tlbFd asid i r
  | _ :: r => tlbFd asid i r

def tlbWindow (asid i : Nat) : List TlbEnt → Option FdWords
  | [] => none
  | .window a j e :: r => if a = asid ∧ j = i then some e else tlbWindow asid i r
  | _ :: r => tlbWindow asid i r

/-- The TLBs that serve an access (R273): those of a core and above it; of its cluster and above, for fetch, trains and
engines; of its die, for units of no cluster. -/
inductive TlbLevel where
  | core | cluster | die
  deriving DecidableEq, Repr

/-- An address space: its descriptor and its ASID (R266), and from where it is looked up. -/
structure Space where
  asd  : Nat
  asid : Nat
  core : Nat
  lvl  : TlbLevel
  deriving DecidableEq, Repr

/-- Whether a TLB serves a lookup. -/
def Space.sees (sp : Space) (t : TlbAt) : Bool :=
  match t with
  | .core k => sp.lvl == .core && k == sp.core
  | .cluster u => sp.lvl != .die && isMesh sp.core && u == clusterOf sp.core
  | .die d => d == dieOf sp.core

/-- The cached entries a lookup may use. -/
def State.tlbOf (s : State) (sp : Space) : List TlbEnt := (s.tlb.filter fun e => sp.sees e.1).map (·.2)

/-- The entries of an address space's Range Table as it stands, none when the table is malformed or lies outside HBM (R266, R272). -/
def State.rangeCount (s : State) (sp : Space) : Option Nat :=
  let cnt := ((Mem.word s.mem (sp.asd + 16)).extractLsb' 0 9).toNat
  if 256 < cnt ∨ !inHbm (Mem.word s.mem (sp.asd + 8)).toNat (32 * cnt) then none else some cnt

/-- The range entries of an address space that are cached. -/
def cachedRanges (asid : Nat) (l : List TlbEnt) : List Nat :=
  l.filterMap fun e => match e with | .range a i _ => if a = asid then some i else none | _ => none

/-- Range entry `i`: the cached one, which stays in use until a TLBI, or the table's; past the table's end an entry that matches nothing
(R271, R274). -/
def State.rangeEnt (s : State) (sp : Space) (i : Nat) : FdWords :=
  match tlbRange sp.asid i (s.tlbOf sp) with
  | some e => e
  | none =>
    if i < (s.rangeCount sp).getD 0 then s.words4 ((Mem.word s.mem (sp.asd + 8)).toNat + 32 * i) else ⟨0, 0, 0, 0⟩

/-- Whether a range entry matches (R271). -/
def rangeMatches (e : FdWords) (va : Word) : Bool :=
  let m : Word := 0xFFFFFFFFFFFFF000
  e.w3.getLsbD 0 && e.w3 &&& 0xFFFFFFFFFFFF0306 == 0 && (e.w0 &&& m).toNat ≤ va.toNat && va.toNat < (e.w1 &&& m).toNat

/-- The lowest-numbered matching entry of the first `n`, from `i` on. -/
def State.rangeFind (s : State) (sp : Space) (va : Word) : Nat → Nat → Option FdWords
  | 0, _ => none
  | n + 1, i => let e := s.rangeEnt sp i; if rangeMatches e va then some e else s.rangeFind sp va n (i + 1)

/-- A window record (R279): bound, base, index list, source, counts and element size. -/
structure Window where
  wva   : Word
  idx   : Word
  src   : Word
  n     : Nat
  bound : Nat
  sz    : Nat
  deriving DecidableEq, Repr

def sizeCode (c : BitVec 3) : Nat :=
  match c.toNat with
  | 0 => 1
  | 1 => 2
  | 2 => 4
  | 3 => 8
  | _ => 64

def windowOf (e : FdWords) : Option Window :=
  if e.w3.getLsbD 63 then
    some ⟨e.w0, e.w1, e.w2, (e.w3.extractLsb' 0 28).toNat, (e.w3.extractLsb' 28 28).toNat,
      sizeCode (e.w3.extractLsb' 56 3)⟩
  else none

/-- Window record `i` of an address space, cached or as its descriptor stands. -/
def State.windowRec (s : State) (sp : Space) (i : Nat) : Option Window :=
  windowOf (match tlbWindow sp.asid i (s.tlbOf sp) with
    | some e => e
    | none => s.words4 (sp.asd + 0x200 + 32 * i))

/-- Whether a bound window covers an address (R280). -/
def Window.covers (w : Window) (va : Word) : Bool := (va - w.wva).toNat < w.n * w.sz

/-- The bound window that covers an address. -/
def State.windowAt (s : State) (sp : Space) (va : Word) : Option Window :=
  ((List.range 16).filterMap (s.windowRec sp)).find? (·.covers va)

/-- What an address resolves to (R252, R272). -/
inductive Place where
  /-- an untranslated aliased range -/
  | aliased (key : Nat)
  | window (w : Window)
  | page (pa : Nat) (perm : Perm)
  | none (sub : BitVec 8)
  deriving DecidableEq, Repr

/-- Bits 63:52 equal bit 51 (R252). -/
def canonical (va : Word) : Bool := va.extractLsb' 52 12 == (if va.getLsbD 51 then 0xFFF else 0)

/-- The aliased range a core's address names, if it lies in one (R252, R362). -/
def aliasOf (k : Nat) (va : Word) : Option Place :=
  let a := va.toNat
  if 0x1000000000 ≤ a ∧ a < 0x1000200000 then
    if isMesh k then some (.aliased (clmKey (clusterOf k) (a - 0x1000000000)))
    else if isGateway k then
      some (if a - 0x1000000000 < 0x40000 then .aliased (gwKey (gwOf k) (a - 0x1000000000)) else .none 1)
    else none
  else if 0x2000000000 ≤ a ∧ a < 0x2028000000 then
    some (.aliased (0x40000000000 + (a - 0x2000000000)))
  else none

/-- How far the search for a range entry goes: to the end of the table, and past it to the last entry that is cached. -/
def State.rangeEnd (s : State) (sp : Space) : Nat :=
  (cachedRanges sp.asid (s.tlbOf sp)).foldl (fun n i => max n (i + 1)) ((s.rangeCount sp).getD 0)

/-- Windows, then the Range Table, then the page walk (R272). What is cached stays in use whatever the tables say (R274); a lookup that
reaches a malformed Range Table fails. -/
def State.translate (s : State) (sp : Space) (va : Word) : Place :=
  match s.windowAt sp va with
  | some w => .window w
  | none =>
    match s.rangeFind sp va (s.rangeEnd sp) 0 with
    | some e =>
      let pa := va + (e.w2 &&& 0xFFFFFFFFFFFFF000)
      if pa.extractLsb' 52 12 != 0 then .none 1 else .page pa.toNat (permOf e.w3 (e.w3.extractLsb' 10 6))
    | none =>
      match tlbPage sp.asid va.toNat (s.tlbOf sp) with
      | some (sh, base, p) => .page (base + va.toNat % 2 ^ sh) p
      | none =>
        if (s.rangeCount sp).isNone then .none 1
        else
          match s.pageWalk sp.asd va with
          | .error e => .none e
          | .ok (sh, base, p) => .page (base + va.toNat % 2 ^ sh) p

/-- The ASID that an address space's descriptor gives (R266). -/
def State.asidAt (s : State) (asd : Nat) : Nat := ((Mem.word s.mem (asd + 0x20)).extractLsb' 0 16).toNat

/-- The address space of a core, if its partition runs a job. -/
def State.space (s : State) (k : Nat) : Option Space :=
  match s.partOf k with
  | some (_, p) => if p.idle then none else some ⟨p.asd, s.asidAt p.asd, k, .core⟩
  | none => none

/-- Resolve a canonical address for a core of an address space. The station master, which runs no job, addresses physical memory
(log 13). -/
def State.resolveIn (s : State) (k : Nat) (sp : Option Space) (va : Word) : Place :=
  match aliasOf k va with
  | some p => p
  | none =>
    match sp with
    | some sp => s.translate sp va
    | none => if isMaster k then .page (va.toNat % 2 ^ 52) ⟨true, true, true, true, true, 0⟩ else .none 1

def State.resolve (s : State) (va : Word) : Place := s.resolveIn s.k (s.space s.k) va

/-! ## Access checks (04 R99) -/

/-- The kinds of access permission is asked for. -/
inductive Acc where
  | r | w | rw | x | wx
  deriving DecidableEq, Repr

def Perm.allows (p : Perm) (a : Acc) (prv : BitVec 2) : Bool :=
  (p.u || prv != 0) &&
  match a with
  | .r => p.rd
  | .w => p.w
  | .rw => p.rd && p.w
  | .x => p.x
  | .wx => p.wx

/-- A checked byte address: its memory key, its format descriptor index (0 on an aliased range), whether it is an aliased range, or the
window it is read through. -/
inductive Site where
  | key (n : Nat) (fdi : BitVec 6) (isAlias : Bool)
  | window (w : Window)
  | control (off : Nat)
  deriving DecidableEq, Repr

/-- Rows 2 to 4 of R99 for the first byte of an access: the fault subcode, or where it leads. -/
def State.siteIn (s : State) (k : Nat) (sp : Option Space) (prv : BitVec 2) (a : Acc) (va : Word) :
    Except (BitVec 8) Site :=
  if !canonical va then .error 3
  else
    let code := a == .x || a == .wx
    match s.resolveIn k (sp.map fun sp => if code && sp.lvl == .core then { sp with lvl := .cluster } else sp) va with
    | .none sub => .error sub
    | .aliased n => if code then .error 2 else .ok (.key n 0 true)
    | .window w => if code then .error 6 else .ok (.window w)
    | .page pa p =>
      match s.phys pa with
      | .bad sub => .error sub
      | .control off => if isMaster k then (if p.allows a prv then .ok (.control off) else .error 2) else .error 2
      | .key n =>
        if !p.allows a prv then .error 2
        else if code && isRemoteKey n then .error 2
        else .ok (.key n p.fdi false)

def State.site (s : State) (a : Acc) (va : Word) : Except (BitVec 8) Site :=
  s.siteIn s.k (s.space s.k) s.ctx.prv a va

/-- LFAULT and SFAULT (13 R317). -/
def lfault (sub : BitVec 8) (a : Word) : Trap := ⟨4, sub, a⟩
def sfault (sub : BitVec 8) (a : Word) : Trap := ⟨5, sub, a⟩

/-- A source byte or index word of a gather window; it must lie in no window itself (R281). -/
def State.plainKey (s : State) (va : Word) : Except (BitVec 8) Nat :=
  match s.site .r va with
  | .error e => .error e
  | .ok (.key n _ _) => .ok n
  | .ok (.window _) => .error 6
  | .ok (.control _) => .error 2

/-- Virtual addresses with their keys, each resolved on its own, or the subcode and the place of the first that fails. -/
def State.plainKeys (s : State) : List Word → Except (BitVec 8 × Nat) (List (Word × Nat))
  | [] => .ok []
  | a :: r =>
    match s.plainKey a with
    | .error e => .error (e, 0)
    | .ok n =>
      match s.plainKeys r with
      | .error e => .error (e.1, e.2 + 1)
      | .ok ks => .ok ((a, n) :: ks)

/-- The bytes of a unit of a gather window that the current instruction reads: as it read them ahead, else as they stand (R282). -/
def State.unitAt (s : State) (key n : Nat) : List Byte :=
  match s.ctx.early.find? fun e => e.1 == key && e.2.length == n with
  | some e => e.2
  | none => Mem.bytes s.mem key n

/-- What reading some bytes of a window comes to: the addresses and keys of the index words and of the source bytes, with the values of
the index words; or its fault, with the byte it is at: the subcode, none where the bound fails (R281). -/
structure WinRead where
  idx   : List (Word × Nat)
  src   : List (Word × Nat)
  words : List (Word × Nat)
  fault : Option (Nat × Option (BitVec 8))
  deriving DecidableEq, Repr

/-- One read after another that does not fail, whose bytes begin `m` bytes on. -/
def WinRead.andThen (a : WinRead) (m : Nat) (b : WinRead) : WinRead :=
  if a.fault.isSome then a
  else ⟨a.idx ++ b.idx, a.src ++ b.src, a.words ++ b.words, b.fault.map fun e => (m + e.1, e.2)⟩

/-- Read the index word of one window element, if it is not known, and find its `n` bytes from byte `o`. -/
def State.windowElem (s : State) (w : Window) (known : List (Word × Nat)) (j o n : Nat) : WinRead :=
  let ia := w.idx + BitVec.ofNat 64 (4 * j)
  let src (ik : List (Word × Nat)) (v : Nat) : WinRead :=
    if w.bound ≤ v then ⟨ik, [], [(ia, v)], some (0, none)⟩
    else
      match s.plainKeys ((List.range n).map fun i => w.src + BitVec.ofNat 64 (v * w.sz + o + i)) with
      | .error e => ⟨ik, [], [(ia, v)], some (e.2, some e.1)⟩
      | .ok sk => ⟨ik, sk, [(ia, v)], none⟩
  match known.find? (·.1 == ia), s.plainKeys ((List.range 4).map fun i => ia + BitVec.ofNat 64 i) with
  | some e, _ => src [] e.2
  | none, .error e => ⟨[], [], [], some (0, some e.1)⟩
  | none, .ok ik => src ik (leNat (s.unitAt ((ik.map (·.2)).headD 0) 4))

/-- The `n` bytes of a window from byte offset `off`, element by element (R281); `fuel` bounds the elements. -/
def State.windowRead (s : State) (w : Window) (known : List (Word × Nat)) : Nat → Nat → Nat → WinRead
  | 0, _, _ => ⟨[], [], [], none⟩
  | fuel + 1, off, n =>
    if n = 0 then ⟨[], [], [], none⟩
    else
      let m := min n (w.sz - off % w.sz)
      (s.windowElem w known (off / w.sz) (off % w.sz) m).andThen m (s.windowRead w known fuel (off + m) (n - m))

/-! ## Format descriptors (R275, R276) -/

/-- A valid FP8 or P descriptor. -/
structure Fd where
  npl   : Nat
  block : Bool
  fp8   : Bool
  rows  : Nat
  cols  : Nat
  plsz  : Nat
  tbase : Word
  sbase : Word
  deriving DecidableEq, Repr

/-- Whether four words are a valid descriptor of plain memory (R275). -/
def fdPlain (e : FdWords) : Bool :=
  let rows := (e.w0.extractLsb' 32 32).toNat
  let cols := (e.w1.extractLsb' 0 32).toNat
  e.w0.extractLsb' 0 32 == 0 && rows != 0 && cols != 0 && decide (rows * cols ≤ (e.w1.extractLsb' 32 32).toNat * 4096) &&
    e.w2.extractLsb' 0 12 == 0 && e.w3.extractLsb' 0 2 == 0

/-- The descriptor of four words, none when it is plain or invalid (R275). -/
def fdOf (e : FdWords) : Option Fd :=
  let fcode := (e.w0.extractLsb' 0 4).toNat
  let npl := (e.w0.extractLsb' 4 3).toNat
  let rows := (e.w0.extractLsb' 32 32).toNat
  let cols := (e.w1.extractLsb' 0 32).toNat
  let plsz := (e.w1.extractLsb' 32 32).toNat * 4096
  let fp8 := fcode == 1 || fcode == 2
  let p := fcode == 3 || fcode == 4
  if e.w0.extractLsb' 7 25 != 0 then none
  else if !(fp8 && npl == 1 || p && (1 ≤ npl && npl ≤ 4)) then none
  else if rows == 0 || cols == 0 || plsz < rows * cols then none
  else if e.w2.extractLsb' 0 12 != 0 || e.w3.extractLsb' 0 2 != 0 then none
  else some ⟨npl, fcode == 2 || fcode == 4, fp8, rows, cols, plsz, e.w2, e.w3⟩

/-- The table entry an FDI selects in an address space, cached or as the table stands. -/
def State.fdEntry (s : State) (sp : Space) (fdi : BitVec 6) : FdWords :=
  match tlbFd sp.asid fdi.toNat (s.tlbOf sp) with
  | some e => e
  | none => s.words4 ((Mem.word s.mem (sp.asd + 24)).toNat + 32 * fdi.toNat)

/-- Whether the descriptor an FDI selects lies outside HBM: no valid translation then (R269). -/
def State.fdMissing (s : State) (sp : Space) (fdi : BitVec 6) : Bool :=
  (tlbFd sp.asid fdi.toNat (s.tlbOf sp)).isNone && !inHbm ((Mem.word s.mem (sp.asd + 24)).toNat + 32 * fdi.toNat) 32

/-- The subcode of an index that selects no descriptor to use (R269, R275). -/
def State.fdSub (s : State) (sp : Option Space) (fdi : BitVec 6) : BitVec 8 :=
  match sp with
  | some sp => if s.fdMissing sp fdi then 1 else 7
  | none => 7

/-- The valid FP8 or P descriptor an FDI selects. -/
def State.fd (s : State) (sp : Space) (fdi : BitVec 6) : Option Fd :=
  if fdi = 0 then none else fdOf (s.fdEntry sp fdi)

/-- Plane and element of an address under a descriptor (R276); none outside the tensor. -/
def Fd.elem (d : Fd) (va : Word) : Option (Nat × Nat) :=
  let off := (va - d.tbase).toNat
  let p := off / d.plsz
  let i := off % d.plsz
  if d.tbase.toNat ≤ va.toNat ∧ p < d.npl ∧ i < d.rows * d.cols then some (p, i) else none

/-- Index of the scale word of element `i` (03 R71). -/
def Fd.scaleIdx (d : Fd) (i : Nat) : Nat :=
  let row := i / d.cols
  let col := i % d.cols
  let b := (d.cols + 127) / 128
  if d.block then row / 128 * b + col / 128 else row * b + col / 128

/-- Address of plane `p` of element `i`, and of its scale word. -/
def Fd.planeAddr (d : Fd) (i p : Nat) : Word := d.tbase + BitVec.ofNat 64 (p * d.plsz + i)
def Fd.scaleAddr (d : Fd) (i : Nat) : Word := d.sbase + BitVec.ofNat 64 (4 * d.scaleIdx i)

/-- The home of a byte at an address of an address space (R264): on a plane page the home of its element's plane-0 byte. -/
def State.homeIn (s : State) (k : Nat) (sp : Option Space) (va : Word) (key : Nat) : Nat :=
  match sp with
  | none => homeOf key
  | some sp =>
    match s.resolveIn k (some sp) va with
    | .page _ p =>
      match s.fd sp p.fdi with
      | none => homeOf key
      | some d =>
        match d.elem va with
        | none => homeOf key
        | some (_, i) =>
          match s.resolveIn k (some sp) (d.planeAddr i 0) with
          | .page pa _ =>
            match s.phys pa with
            | .key a => homeOf a
            | _ => homeOf key
          | _ => homeOf key
    | _ => homeOf key

/-- The same for the current core. -/
def State.homeAt (s : State) (va : Word) (key : Nat) : Nat := s.homeIn s.k (s.space s.k) va key

/-! ## Data accesses of a context -/

/-- The key of `n` aligned bytes an instruction reads, or the keys a window leads to (04 R99 rows 1 to 5). Row 4 looks at the first byte
only: an access that starts in a window and ends beyond it is read through the window throughout, from the words that follow its
index list (R100, R281; log 47). -/
def State.loadCheck (s : State) (va : Word) (n : Nat) : Except Trap LaneSrc :=
  if va.toNat % n ≠ 0 then .error (alignTrap va)
  else
    match s.site .r va with
    | .error e => .error (lfault e va)
    | .ok (.key k _ _) => .ok (.mem k (s.homeAt va k))
    | .ok (.control off) => .ok (.mem (ctlKey off) (s.homeAt va (ctlKey off)))
    | .ok (.window w) =>
      let r := s.windowRead w [] n (va - w.wva).toNat n
      match r.fault with
      | some (o, some e) => .error (lfault e (va + BitVec.ofNat 64 o))
      | some (o, none) => .error ⟨16, 0, va + BitVec.ofNat 64 o⟩
      | none =>
        .ok (.gather (r.idx.map (·.2)) (r.src.map (·.2)) ((r.idx ++ r.src).map fun e => s.homeAt e.1 e.2)
          (if w.sz = 64 then 1 else min n w.sz))

/-- The index words that `loadCheck` reads, whatever it comes to: no source bytes. -/
def State.indexWords (s : State) (va : Word) (n : Nat) : LaneSrc :=
  match s.site .r va with
  | .ok (.window w) =>
    let ks := if va.toNat % n ≠ 0 then [] else (s.windowRead w [] n (va - w.wva).toNat n).idx
    .gather (ks.map (·.2)) [] (ks.map fun e => s.homeAt e.1 e.2) 1
  | _ => .val 0

/-- The key of `n` aligned bytes an instruction writes, or reads and writes. R255 refuses device control space to every core but the
station master, and no rule says what an AMO of the master does there: DESIGN CHOICE, it raises SFAULT with subcode 2 too (log 13). -/
def State.storeCheck (s : State) (va : Word) (n : Nat) (acc : Acc) : Except Trap Nat :=
  if va.toNat % n ≠ 0 then .error (alignTrap va)
  else
    match s.site acc va with
    | .error e => .error (sfault e va)
    | .ok (.key k _ _) => .ok k
    | .ok (.control off) => if acc = .rw then .error (sfault 2 va) else .ok (ctlKey off)
    | .ok (.window _) => .error (sfault 6 va)

/-- The index words that reads of `n` bytes at addresses come to, up to the first that fails. -/
def State.indexesOf (s : State) (n : Nat) : List Word → List LaneSrc
  | [] => []
  | va :: r => s.indexWords va n :: (match s.loadCheck va n with | .ok _ => s.indexesOf n r | .error _ => [])

/-- `count` addresses from one on, `n` bytes apart. -/
def addrsFrom (va : Word) (n count : Nat) : List Word := (List.range count).map fun i => va + BitVec.ofNat 64 (n * i)

/-- The keys of `n` bytes from `va` on that an instruction reads as a block; 8-byte words are checked in order. -/
def State.loadBlock (s : State) (va : Word) : Nat → Except Trap (List LaneSrc)
  | 0 => .ok []
  | n + 1 =>
    match s.loadCheck va 8 with
    | .error t => .error t
    | .ok a =>
      match s.loadBlock (va + 8) n with
      | .error t => .error t
      | .ok r => .ok (a :: r)

def State.storeBlock (s : State) (va : Word) : Nat → Except Trap (List Nat)
  | 0 => .ok []
  | n + 1 =>
    match s.storeCheck va 8 .w with
    | .error t => .error t
    | .ok a =>
      match s.storeBlock (va + 8) n with
      | .error t => .error t
      | .ok r => .ok (a :: r)

end Sys2Proof.Machine
end

