-- ==== Sys2Proof/Machine/EngKeys.lean ====
section
/-! DEFINITION. Where the commands of the copy and decode engines read and write (14 R344 to R348, 09 R244 to R247): translation
and its failures, the addresses of elements, and the memory that a command has still to read. -/

namespace Sys2Proof.Machine

open Sys2Proof

/-! ## Accesses of a command -/

/-- DXLATE or DPERM for a subcode of 13 R319 (R347). -/
def engSub (e : BitVec 8) : BitVec 8 := if e = 1 ∨ e = 3 then 7 else 8

/-- The space and core of a command's accesses. -/
def State.engSpace (s : State) (e : EngCmd) : Space := ⟨e.asd, s.asidAt e.asd, e.ctx / 8, .cluster⟩

/-- A checked byte of a command: key, descriptor index, whether it lies on an aliased range. -/
def State.engSite (s : State) (e : EngCmd) (acc : Acc) (va : Word) : Except EngFault (Nat × BitVec 6 × Bool) :=
  match s.siteIn (e.ctx / 8) (some (s.engSpace e)) e.priv acc va with
  | .error c => .error ⟨engSub c, va⟩
  | .ok (.key k f al) => .ok (k, f, al)
  | .ok (.window _) => .error ⟨8, va⟩
  | .ok (.control _) => .error ⟨8, va⟩

def State.engKey (s : State) (e : EngCmd) (acc : Acc) (va : Word) : Except EngFault Nat :=
  match s.engSite e acc va with
  | .error f => .error f
  | .ok r => .ok r.1

/-- The key of an aligned 4-byte value. -/
def State.engKey4 (s : State) (e : EngCmd) (acc : Acc) (va : Word) : Except EngFault Nat :=
  if va.toNat % 4 ≠ 0 then .error ⟨9, va⟩ else s.engKey e acc va

/-- A plane-aware element (R345): its descriptor and index. -/
def State.engElem (s : State) (e : EngCmd) (acc : Acc) (va : Word) : Except EngFault (Fd × Nat) :=
  match s.engSite e acc va with
  | .error f => .error f
  | .ok (_, fdi, al) =>
    if al then .error ⟨8, va⟩
    else
      match s.fd (s.engSpace e) fdi with
      | none => .error ⟨if s.fdMissing (s.engSpace e) fdi then 7 else 8, va⟩
      | some d =>
        match d.elem va with
        | some (0, i) => .ok (d, i)
        | _ => .error ⟨8, va⟩

/-- The keys of planes of an element. -/
def State.engPlanes (s : State) (e : EngCmd) (acc : Acc) (d : Fd) (i : Nat) : List Nat → Except EngFault (List Nat)
  | [] => .ok []
  | p :: r =>
    match s.engKey e acc (d.planeAddr i p) with
    | .error f => .error f
    | .ok k =>
      match s.engPlanes e acc d i r with
      | .error f => .error f
      | .ok l => .ok (k :: l)

/-! ## DCOPY (14 R344 to R347) -/

/-- A descriptor word. -/
def EngCmd.w (e : EngCmd) (n : Nat) : Word := e.desc.getD n 0

def dcopyConv (l : List Word) : Nat := ((l.getD 5 0).extractLsb' 0 4).toNat

/-- Element sizes of a conversion. -/
def convSizes (c : Nat) : Nat × Nat :=
  match c with
  | 1 => (4, 1)
  | 2 => (1, 4)
  | 3 => (4, 1)
  | 4 => (1, 4)
  | _ => (1, 1)

/-- The addresses of element `j` (R346). -/
def dcopyAddr (e : EngCmd) (j : Nat) : Word × Word :=
  let n0 := ((e.w 2).extractLsb' 0 32).toNat
  let n1 := ((e.w 2).extractLsb' 32 16).toNat
  let z := convSizes (dcopyConv e.desc)
  let i0 := j % n0
  let i1 := j / n0 % n1
  let i2 := j / n0 / n1
  let at' (base st : Word) (sz : Nat) : Word :=
    base + BitVec.ofNat 64 (i0 * sz) + BitVec.ofNat 64 i1 * (st.extractLsb' 0 32).signExtend 64 +
      BitVec.ofNat 64 i2 * (st.extractLsb' 32 32).signExtend 64
  (at' (e.w 0) (e.w 3) z.1, at' (e.w 1) (e.w 4) z.2)

/-! ## SORTC (14 R348) -/

def sortcT (l : List Word) : Nat := ((l.getD 6 0).extractLsb' 0 24).toNat
def sortcK (l : List Word) : Nat := ((l.getD 6 0).extractLsb' 24 4).toNat
def sortcE (l : List Word) : Nat := ((l.getD 6 0).extractLsb' 32 11).toNat
def sortcRb (l : List Word) : Nat := ((l.getD 7 0).extractLsb' 0 24).toNat

/-! ## Payloads and images (09 R244, R245) -/

/-- A lane record: its first state, its length in bits, where its substream starts. -/
structure LaneRec where
  s0    : Nat
  len   : Nat
  start : Nat
  deriving DecidableEq, Repr

/-- `n` little-endian bytes from an offset. -/
def readNat (rd : Nat → Except EngFault Byte) (o : Nat) : Nat → Except EngFault Nat
  | 0 => .ok 0
  | n + 1 =>
    match rd o with
    | .error f => .error f
    | .ok b =>
      match readNat rd (o + 1) n with
      | .error f => .error f
      | .ok v => .ok (b.toNat + 256 * v)

/-- The lane records from record `l` on, the next substream starting at `off`; and the payload's end. -/
def laneRecs (rd : Nat → Except EngFault Byte) : Nat → Nat → Nat → Except EngFault (List LaneRec × Nat)
  | 0, _, off => .ok ([], off)
  | n + 1, l, off =>
    match readNat rd (2 + 6 * l) 2 with
    | .error f => .error f
    | .ok s0 =>
      match readNat rd (4 + 6 * l) 4 with
      | .error f => .error f
      | .ok len =>
        match laneRecs rd n (l + 1) (off + (len + 7) / 8) with
        | .error f => .error f
        | .ok r => .ok (⟨s0, len, off⟩ :: r.1, r.2)

/-- The bytes of an image or payload of a command, by offset. -/
def State.engByte (s : State) (e : EngCmd) (base : Word) (o : Nat) : Except EngFault Byte :=
  match s.engKey e .r (base + BitVec.ofNat 64 o) with
  | .error f => .error f
  | .ok k => .ok (Mem.get s.mem k)

/-- The bytes of a payload (R245): its head and records, and its substreams when the records say where they end. -/
def payloadLen (rd : Nat → Except EngFault Byte) : Nat :=
  match readNat rd 0 2 with
  | .error _ => 2
  | .ok L => if L = 0 ∨ 256 < L then 2 else match laneRecs rd L 0 (2 + 6 * L) with | .ok r => r.2 | .error _ => 2 + 6 * L

/-- The keys of `n` bytes a command reads from an address on, those that translate. -/
def State.engReads (s : State) (e : EngCmd) (base : Word) (n : Nat) : List Nat :=
  (List.range n).filterMap fun o => match s.engKey e .r (base + BitVec.ofNat 64 o) with | .ok k => some k | .error _ => none

/-! ## What a command has still to read -/

/-- The element a command stands at. -/
def EngCmd.elem (e : EngCmd) : Nat := (e.at'.map (·.elem)).getD 0

/-- The keys of the planes of the element at an address, of its scale word, and of the byte itself. -/
def State.elemReads (s : State) (e : EngCmd) (acc : Acc) (va : Word) : List Nat :=
  match s.engElem e acc va with
  | .ok (d, i) => ((List.range d.npl).flatMap fun p => s.engReads e (d.planeAddr i p) 1) ++ s.engReads e (d.scaleAddr i) 4
  | .error _ => s.engReads e va 1

/-- What element `j` of a DCOPY reads. -/
def State.dcopyReads (s : State) (e : EngCmd) (j : Nat) : List Nat :=
  let a := dcopyAddr e j
  match dcopyConv e.desc with
  | 0 => s.engReads e a.1 1
  | 1 => s.engReads e a.1 4
  | 2 => s.engReads e a.1 1
  | 3 => s.engReads e a.1 4 ++ s.elemReads e .w a.2
  | _ => s.elemReads e .r a.1

/-- The elements of a DCOPY. -/
def dcopyCount (e : EngCmd) : Nat :=
  ((e.w 2).extractLsb' 0 32).toNat * ((e.w 2).extractLsb' 32 16).toNat * ((e.w 2).extractLsb' 48 16).toNat

/-- Whether an earlier command of a command's context has still something to do. -/
def State.cmdBehind (s : State) (e : EngCmd) : Bool :=
  let cl := s.cluster (engineOf (e.ctx / 8))
  (cl.copies ++ cl.decodes).any fun x => x.ctx == e.ctx && x.asid == e.asid && x.failed.isNone && decide (x.id < e.id)

/-- Whether it cannot be told yet what a command reads: a DDEC that has not started, behind a command that may change its payload. -/
def State.cmdOpen (s : State) (e : EngCmd) : Bool := e.cmd == 2 && e.at'.isNone && s.cmdBehind e

/-- The bytes of the image of a DTBL, the most there can be behind a command that may change it. -/
def State.imageLen (s : State) (e : EngCmd) : Nat :=
  4 + 4 * if s.cmdBehind e then 512 else match readNat (s.engByte e (e.w 0)) 0 2 with | .ok n => n | .error _ => 0

/-- The byte keys that a command has still to read, as far as it can be told (11 R293). -/
def State.cmdReads (s : State) (e : EngCmd) : List Nat :=
  match e.cmd.toNat with
  | 0 => (List.range (dcopyCount e - e.elem)).flatMap fun j => s.dcopyReads e (e.elem + j)
  | 1 =>
    (if e.at'.isNone then s.engReads e (e.w 0) (2 * sortcT e.desc * sortcK e.desc) else []) ++
      s.engReads e (e.w 1) (sortcT e.desc * sortcRb e.desc)
  | 2 => if e.at'.isNone then s.engReads e (e.w 0) (payloadLen (s.engByte e (e.w 0))) else []
  | _ => s.engReads e (e.w 0) (s.imageLen e)

end Sys2Proof.Machine
end

