-- ==== Sys2Proof/Machine/Station.lean ====
section
/-! DEFINITION. Islands and droop (16 R365 to R368) and device control space (10 R259, 16 R369, R370), which the station master
reads and writes. -/

namespace Sys2Proof.Machine

open Sys2Proof

/-! ## Words from fields -/

def n64 (b : BitVec n) : Word := b.zeroExtend 64

/-- A Bool at bit `i`. -/
def bitAt (b : Bool) (i : Nat) : Word := if b then (1 : Word) <<< i else 0

/-! ## CLM protection registers (10 R258, R259) -/

/-- The banks marked failed. -/
def Cluster.failed (c : Cluster) : List Nat :=
  (if c.fb0 = 0x7F then [] else [c.fb0.toNat]) ++ (if c.fb1 = 0x7F then [] else [c.fb1.toNat])

/-- The island of a cluster, or of the gateway memory of unit 320 + gateway (15 R362). -/
def unitIsland (u : Nat) : Nat := islandOf (if u < 320 then u * 9 else Config.meshCores + (u - 320))

/-- Clear the correction counts of the CLMs and gateway memories of an island. -/
def State.clearCorr (s : State) (i : Nat) : State :=
  { s with clusters := s.clusters.map fun e => if unitIsland e.1 = i then (e.1, { e.2 with counts := [] }) else e }

/-- CLMSTc (R259). -/
def Cluster.clmst (c : Cluster) : Word :=
  n64 c.fb1 <<< 50 ||| n64 c.fb0 <<< 43 ||| bitAt (c.failed.length == 2) 42 ||| n64 c.corr

/-! ## Droop and clocks (16 R366 to R368) -/

/-- The six stretched cycles have passed: a halving window starts. -/
def Island.endStretch (x : Island) : Island := if x.stretch = 1 then { x with stretch := 0, window := some 0 } else x

/-- The 64 cycles of a halving window have passed. -/
def Island.endWindow (x : Island) : Island := if x.window = some 64 then { x with window := none } else x

/-- An island at the start of its next cycle: a stretch or a window that is over has ended. -/
def Island.settled (x : Island) : Island := x.endStretch.endWindow

/-- Count what the detector did in this cycle: an alarm in CNT, a merged condition in MRG, after every write of the cycle. -/
def Island.detect (x : Island) : Island :=
  { x with
    cnt := if x.fell = 1 && x.cnt0 != 0xFFFF then x.cnt0 + 1 else x.cnt0
    mrg := if x.fell = 2 && x.mrg0 != 0xFF then x.mrg0 + 1 else x.mrg0 }

/-- Whether a write of core `k` to an island-owned CSR stands beside one of core `by'` in the same cycle: writes are applied in
ascending CID order, which is that of the cores of an island (01 R25). -/
def stands (k : Nat) (by' : Option Nat) : Bool := (by'.all fun j => decide (j ≤ k))

/-- Core `k` writes CNT and MRG: what the detector did in the same cycle is counted after it (16 R368). -/
def Island.writeSt (x : Island) (k : Nat) (cnt : BitVec 16) (mrg : BitVec 8) : Island :=
  if stands k x.stBy then Island.detect { x with cnt0 := cnt, mrg0 := mrg, stBy := some k } else x

/-- Core `k` writes STEP. -/
def Island.writeStep (x : Island) (k : Nat) (v : BitVec 5) : Island :=
  if stands k x.stepBy then { x with step := v, stepBy := some k } else x

/-- Parts of a tick: every frequency of an island divides it, so that a period is a whole number of parts (log 5). -/
def tickParts : Nat := 97301577764381948734868316916891200

/-- TIME at the start of an island's cycle in progress, which began no later than now (17 R386; log 5). -/
def State.timeAt (s : State) (i : Nat) : Word := s.time - BitVec.ofNat 64 (s.clock / tickParts - (s.island i).now / tickParts)

/-- TIME as core `k` reads it. -/
def State.timeOf (s : State) (k : Nat) : Word := s.timeAt (islandOf k)

/-- DROOP_STRETCH_END. -/
def execDroopStretchEnd (i : Nat) (s : State) : Out := .next (s.setIsland i (s.island i).endStretch)

/-- HALVING_WINDOW_END. -/
def execHalvingWindowEnd (i : Nat) (s : State) : Out := .next (s.setIsland i (s.island i).endWindow)

/-- The frequency an island runs at, in 10 MHz. -/
def Island.clock (x : Island) : Nat := if x.rdy then x.freq.toNat else min x.freq.toNat x.prev.toNat

/-- How long the cycle of an island in progress takes, in parts of a tick: two periods when stretched. -/
def Island.period (x : Island) : Nat := (if x.settled.stretch = 0 then 100 else 200) * (tickParts / max 1 x.clock)

/-- Whether an island lets its cores issue in its next cycle. -/
def Island.mayIssue (x : Island) : Bool :=
  match x.settled.window with
  | some n => n % 2 == 0
  | none => true

/-- ISLCFGi (R366): refused writes set ERR. -/
def State.setIslcfg (s : State) (i : Nat) (v : Word) : State :=
  let x := s.island i
  let vc := v.extractLsb' 16 6
  let fr := v.extractLsb' 0 8
  let bad := !x.rdy || decide (61 ≤ vc.toNat) || decide (fr.toNat < 10) ||
    decide (600 * (450 + 5 * vc.toNat) / 5500 < fr.toNat)
  if 128 ≤ i then s
  else if bad then s.setIsland i { x with err := true }
  else s.setIsland i { x with vcode := vc, freq := fr, prev := x.freq, rdy := false, err := x.err && !v.getLsbD 30 }

def execIslcfgWrite (i : Nat) (v : Word) (s : State) : Out := .next (s.setIslcfg i v)

/-- ISLAND_READY. -/
def execIslandReady (i : Nat) (s : State) : Out := .next (s.setIsland i { s.island i with rdy := true })

/-! ## Device control space (R369, R370) -/

def State.setDomsize (s : State) (v : Word) : State :=
  let n := v.extractLsb' 0 9
  if 1 ≤ n.toNat ∧ n.toNat ≤ 320 ∧ s.dev.devnum.toNat < n.toNat then { s with dev := { s.dev with domsize := n } } else s

def execDomsizeWrite (v : Word) (s : State) : Out := .next (s.setDomsize v)

def State.setDevnum (s : State) (v : Word) : State :=
  let n := v.extractLsb' 0 9
  if n.toNat < s.dev.domsize.toNat then { s with dev := { s.dev with devnum := n } } else s

def execDevnumWrite (v : Word) (s : State) : Out := .next (s.setDevnum v)

/-- The context an IPI names: the station master's one, which reads 0xFFFF (01 R20), or a core's. -/
def ipiCtx (cid : BitVec 16) : Option Nat := if cid = 0xFFFF then some (Config.masterCore * 8) else ctxOfCid cid

/-- IPIREQ: the word becomes the pending IPI of the context named; one delivered to a context that is not active is gone with
it (13 R325). -/
def State.raiseIpi (s : State) (v : Word) : State :=
  match ipiCtx (v.extractLsb' 0 16) with
  | some r => s.modCtx r fun c => if c.phase = .dormant then c else { c with ipi := some (v.extractLsb' 32 32) }
  | none => s

def execIpireqWrite (v : Word) (s : State) : Out := .next (s.raiseIpi v)

/-- CINV: writing 1 to GO starts the all-core code invalidate (R383). -/
def State.startCinv (s : State) (v : Word) : State :=
  if v.getLsbD 0 then { s with dev := { s.dev with cinvGo := true } } else s

def execCinvWrite (v : Word) (s : State) : Out := .next (s.startCinv v)

def State.setTrctl (s : State) (v : Word) : State :=
  let d := s.dev
  let lg := v.extractLsb' 32 8
  { s with dev := { d with
    trLog := if 16 ≤ lg.toNat ∧ lg.toNat ≤ 34 then lg else d.trLog
    trOvf := d.trOvf && !v.getLsbD 4
    trFrz := v.getLsbD 3
    trWrap := v.getLsbD 2
    trAct := v.getLsbD 1
    trEn := v.getLsbD 0
    trpos := if v.getLsbD 0 then 0 else d.trpos } }

def execTrctlWrite (v : Word) (s : State) : Out := .next (s.setTrctl v)

/-- The registers of device control space without a step of their own. -/
def State.controlPlain (s : State) (off : Nat) (v : Word) : State :=
  if off = 0x2010 then { s with dev := { s.dev with pulse := v }, latched := [] }
  else if off = 0x2018 then { s with dev := { s.dev with pulsePer := v.extractLsb' 0 32 } }
  else if off = 0x2020 then { s with dev := { s.dev with trbase := v &&& 0xFFFFFFFFFFFFF000 } }
  else s

/-- The value of a register of device control space; CORR of CLMST is cleared by CLMST_READ. -/
def State.controlReg (s : State) (off : Nat) : Word :=
  let d := s.dev
  if off = 0 then n64 d.domsize
  else if off = 8 then n64 d.devnum
  else if 0x1000 ≤ off ∧ off < 0x1400 ∧ off % 8 = 0 then
    let x := s.island ((off - 0x1000) / 8)
    bitAt x.rdy 31 ||| bitAt x.err 30 ||| n64 x.vcode <<< 16 ||| n64 x.freq
  else if off = 0x2008 then bitAt d.cinvGo 0
  else if off = 0x2010 then d.pulse
  else if off = 0x2018 then n64 d.pulsePer
  else if off = 0x2020 then d.trbase
  else if off = 0x2028 then
    n64 d.trLog <<< 32 ||| bitAt d.trOvf 4 ||| bitAt d.trFrz 3 ||| bitAt d.trWrap 2 ||| bitAt d.trAct 1 ||| bitAt d.trEn 0
  else if off = 0x2030 then d.trpos
  else if 0x10000 ≤ off ∧ off < 0x10A00 ∧ off % 8 = 0 then (s.cluster ((off - 0x10000) / 8)).clmst
  else 0

/-- What the station master reads of device control space: reading CLMSTc clears its CORR (10 R259). -/
def State.controlRead (s : State) (off : Nat) : Word × State :=
  let o := off / 8 * 8
  (s.controlReg o,
    if 0x10000 ≤ o ∧ o < 0x10A00 then
      let c := (o - 0x10000) / 8
      s.setCluster c { s.cluster c with corr := 0 }
    else s)

/-- The station master writes a register of device control space. -/
def State.control (s : State) (off : Nat) (v : Word) : State :=
  if off = 0 then s.setDomsize v
  else if off = 8 then s.setDevnum v
  else if 0x1000 ≤ off ∧ off < 0x1400 ∧ off % 8 = 0 then s.setIslcfg ((off - 0x1000) / 8) v
  else if off = 0x2000 then s.raiseIpi v
  else if off = 0x2008 then s.startCinv v
  else if off = 0x2028 then s.setTrctl v
  else s.controlPlain off v

end Sys2Proof.Machine
end

