-- ==== Sys2Proof/Machine/Access.lean ====
section
/-! DEFINITION. Performing reads and writes: the L1 data cache and the ownership registry (10 R263, 11 R285 to R289). -/

namespace Sys2Proof.Machine

open Sys2Proof

/-- Replace byte `i` of a word. -/
def setByte (w : Word) (i : Nat) (b : Byte) : Word :=
  (w &&& ~~~((0xFF : Word) <<< (8 * i))) ||| (b.zeroExtend 64 <<< (8 * i))

/-- Byte `i` of a word. -/
def getByte (w : Word) (i : Nat) : Byte := w.extractLsb' (8 * i) 8

/-- A word just written enters a valid L1 copy, which its core then owns: the copy is the word as it stands at the home, the bytes
that others wrote included, since an acquire keeps it (R287, R291, R292). -/
def Core.l1Write (c : Core) (w : Nat) (v : Word) : Core :=
  if (find c.l1 w).isSome then { c with l1 := put c.l1 w v } else c

def Core.l1Drop (c : Core) (w : Nat) : Core := { c with l1 := drop c.l1 w }

/-- Where a key lies in the banks of a CLM or a gateway memory (10 R256, 15 R362): its unit, row and byte lane. -/
def laneOf (key : Nat) : Option (Nat × Nat × Nat) :=
  if key < 2 ^ 43 && isClmKey key then
    let o := key - 0x40000000000
    some (o / 0x200000, o % 0x200000 / 1024, o % 16)
  else if 2 ^ 52 ≤ key && key < 2 ^ 53 then
    let o := key - 2 ^ 52
    some (320 + o / 2 ^ 18, o % 2 ^ 18 / 1024, o % 16)
  else none

/-- Write one byte of memory. The write computes its lane's check symbols (10 R257), so that none is listed, and a byte that this
step's reads receive wrong is a new one then. -/
def State.setMem (s : State) (a : Nat) (b : Byte) : State :=
  { s with
    mem := Mem.set s.mem a b
    checks := if s.checks.isEmpty then [] else s.checks.filter fun e => some e.1 != laneOf a
    upset := s.upset.filter (·.1 != a) }

/-- Perform the write of one byte by core `k`: registered ownership for a CORE store, every copy unowned and the core's
own dropped for any other path (R287). -/
def State.performByte (k : Nat) (corePath : Bool) (s : State) (a : Nat) (b : Byte) : State :=
  let s := s.setMem a b
  if cachedKey a then
    if corePath then
      ({ s with owners := put s.owners (a / 8) k }).modCore k (·.l1Write (a / 8) (Mem.word s.mem (a / 8 * 8)))
    else
      ({ s with owners := drop s.owners (a / 8) }).modCore k (·.l1Drop (a / 8))
  else s

/-- Perform a store of core `k`. -/
def State.performStore (k : Nat) (corePath : Bool) : State → List Host.Cell → State
  | s, [] => s
  | s, (a, b) :: r => State.performStore k corePath (s.performByte k corePath a b) r

/-- A store to device control space: the bytes it writes, with the others as the register reads, are the value written (16 R369;
log 13). -/
def State.controlStore (s : State) (off : Nat) (cells : List Host.Cell) : State :=
  let o := off / 8 * 8
  s.control o (cells.foldl (fun w e => setByte w (e.1 % 8) e.2) (s.controlReg o))

/-- Perform the bytes of one store of core `k`, to memory or to device control space. -/
def State.performCells (k : Nat) (corePath : Bool) (s : State) (cells : List Host.Cell) : State :=
  match cells.head?.bind fun e => ctlOf e.1 with
  | some off => s.controlStore off cells
  | none => State.performStore k corePath s cells

/-- Writes made at the home by no core: the signal box, the collection round, messages, the station master. -/
def State.homeStore : State → List Host.Cell → State
  | s, [] => s
  | s, (a, b) :: r =>
    State.homeStore { s.setMem a b with owners := if cachedKey a then drop s.owners (a / 8) else s.owners } r

/-- Whether the registry names core `k` for a word. -/
def State.owns (s : State) (k w : Nat) : Bool := find s.owners w == some k

/-- The step in progress reads the lanes of keys, for a stream or otherwise (10 R257, 13 R330). -/
def State.noteAs (strm : Bool) (s : State) (keys : List Nat) : State :=
  match keys with
  | [] => s
  | _ => if s.checks.isEmpty then s else { s with read := (keys.filterMap laneOf).map (strm, ·) ++ s.read }

def State.note (s : State) (keys : List Nat) : State := s.noteAs false keys

/-- Core `k` drops its unowned copies of the words of keys. -/
def State.dropCopies (k : Nat) : State → List Nat → State
  | s, [] => s
  | s, a :: r =>
    State.dropCopies k
      (if (find (s.getCore k).l1 (a / 8)).isSome && !s.owns k (a / 8) then s.modCore k (·.l1Drop (a / 8)) else s) r

/-- A read on a path other than CORE drops the core's unowned copies of the words it reads (R287). -/
def State.touch (k : Nat) (s : State) (keys : List Nat) : State := State.dropCopies k (s.note keys) keys

/-- The same for a read of a stream. -/
def State.touchStream (k : Nat) (s : State) (keys : List Nat) : State := State.dropCopies k (s.noteAs true keys) keys

/-- The keys of `n` bytes from a key on. -/
def byteKeys (a n : Nat) : List Nat := (List.range n).map (a + ·)

/-- An acquire: every word of the core's L1 that the core does not own is invalidated (R289). -/
def State.acquire (k : Nat) (s : State) : State :=
  s.modCore k fun c => { c with l1 := c.l1.filter fun e => s.owns k e.1 }

/-- The lines of a core's L1 data cache. -/
def Core.l1Lines (c : Core) : List Nat := (c.l1.map (·.1 / 8)).eraseDups

/-- A word enters the L1 data cache of core `k`, which holds 16 KiB in 64-byte lines (10 R263). A new line that finds no room
takes the place of one that the spec leaves open (log 21). -/
def State.l1Fill (s : State) (k w : Nat) : State :=
  let v := Mem.word s.mem (w * 8)
  let ls := (s.getCore k).l1Lines
  if ls.contains (w / 8) || decide (ls.length < Config.l1Lines) then s.modCore k fun c => { c with l1 := put c.l1 w v }
  else
    let out := ls.getD (s.fresh.1.toNat % ls.length) 0
    s.fresh.2.modCore k fun c => { c with l1 := put (c.l1.filter fun e => e.1 / 8 != out) w v }

/-- A CORE read of `n` aligned bytes at a key: from a valid L1 copy, else at the home, filling a copy (R287). `fresh` asks
for the home unless the core owns the word (LDA, R289). A read that finds no copy is a miss of the L1 (16 R376 event 5). The station
master reads registers of device control space so. -/
def State.coreRead (k : Nat) (fresh : Bool) (s : State) (a n : Nat) : Nat × State :=
  if let some off := ctlOf a then ((s.controlRead off).1.toNat / 2 ^ (8 * (off % 8)) % 2 ^ (8 * n), (s.controlRead off).2)
  else if cachedKey a then
    match find (s.getCore k).l1 (a / 8) with
    | some w =>
      if fresh && !s.owns k (a / 8) then
        (leNat (Mem.bytes s.mem a n), s.l1Fill k (a / 8))
      else (w.toNat / 2 ^ (8 * (a % 8)) % 2 ^ (8 * n), s)
    | none =>
      (leNat (Mem.bytes s.mem a n), (s.l1Fill k (a / 8)).pmc k 5 (some s.c))
  else (leNat (Mem.bytes s.mem a n), s.note (byteKeys a n))

/-! ## Power-managed CLM regions (10 R260 to R262)

A region that powers down loses its bytes at once: they read as zero after the wake, and no access completes before it. -/

/-- The cluster and region a key lies in, when it is CLM of this device. -/
def regionOf (key : Nat) : Option (Nat × Nat) :=
  if key < 2 ^ 43 && isClmKey key then
    some ((key - 0x40000000000) / 0x200000, (key - 0x40000000000) % 0x200000 / 0x20000)
  else none

def Cluster.region (c : Cluster) (n : Nat) : Region := c.regions.toList.getD n .reset

def Cluster.setRegion (c : Cluster) (n : Nat) (r : Region) : Cluster :=
  { c with regions := c.regions.map id |>.setIfInBounds n r }

/-- Whether a Sutia Link port is up: with none, nothing reaches another device. Which port carries a route is the station master's, and
no rule names it (15 R358, 16 R371; log 5). -/
def State.linked (s : State) : Bool := (List.range 18).any fun p => !s.dev.down.contains p

/-- Whether accesses at keys can be made now: the regions are powered and awake, and other devices are reached. -/
def State.powered (s : State) (keys : List Nat) : Bool :=
  keys.all fun a =>
    match regionOf a with
    | none => !isRemoteKey a || s.linked
    | some (c, n) => ((s.cluster c).region n).on

/-- The first access to a powered-down region starts its wake (R262). -/
def State.wakeFor : State → List Nat → State
  | s, [] => s
  | s, a :: r =>
    match regionOf a with
    | none => State.wakeFor s r
    | some (c, n) =>
      let reg := (s.cluster c).region n
      State.wakeFor (if reg.on then s else s.setCluster c ((s.cluster c).setRegion n { reg with waking := true })) r

/-- A write at the home by another device, the host or a unit of the package: at once, or after the wake of the regions it
reaches (R262). -/
def State.homeWrite (s : State) (cells : List Host.Cell) : State :=
  let keys := cells.map (·.1)
  if s.powered keys then s.homeStore cells else { s.wakeFor keys with late := s.late ++ [cells] }

/-- The waiting writes whose regions are awake are performed, in their order. -/
def State.lateWrites (s : State) : State :=
  (s.late.filter fun c => s.powered (c.map (·.1))).foldl State.homeStore
    { s with late := s.late.filter fun c => !s.powered (c.map (·.1)) }

/-! ## Outstanding accesses of a context -/

/-- The path of an outstanding access (11 R283). -/
def PendOp.path : PendOp → Path
  | .load p .. => p
  | .store p _ => p
  | .amo .. => .core
  | .arrival _ => .core
  | .nearAmo .. => .near
  | .prescale .. => .near
  | .paxpy .. => .near
  | .psgdm .. => .near
  | .baddq .. => .near

/-- Add an outstanding access at the end of the context's program order, its homes each on its path. -/
def State.issueSites (s : State) (op : PendOp) (sites : List (Path × Nat)) : State :=
  { s with
    ctx := { s.ctx with pend := s.ctx.pend ++ [⟨s.nextId, op, sites, false⟩] }
    nextId := s.nextId + 1 }

/-- Add an outstanding access of one path. -/
def State.issue (s : State) (op : PendOp) (homes : List Nat) : State := s.issueSites op (homes.map (op.path, ·))

/-- Remove an outstanding access. -/
def Ctx.unpend (c : Ctx) (id : Nat) : Ctx := { c with pend := c.pend.filter (·.id != id) }

/-- The homes of memory keys. -/
def homesOf (keys : List Nat) : List Nat := keys.map homeOf

/-- The keys of a lane: its own byte and bytes that follow it, or those of a window's index words and source bytes. -/
def LaneSrc.keys : LaneSrc → List Nat
  | .mem k _ => [k]
  | .val _ => []
  | .gather i k _ _ => i ++ k

/-- The keys of the index words that a lane read at issue. -/
def LaneSrc.indexKeys : LaneSrc → List Nat
  | .gather i _ _ _ => i
  | _ => []

/-- The path of a lane of an access on path `p`: a window's element travels on GWIN (04 R101, 05 R130). -/
def LaneSrc.pathOn (p : Path) : LaneSrc → Path
  | .gather .. => .gwin
  | _ => p

/-- Every home that a read reaches, its index words' included, each on its path. -/
def LaneSrc.allSites (p : Path) : LaneSrc → List (Path × Nat)
  | .mem _ h => [(p, h)]
  | .val _ => []
  | .gather _ _ h _ => h.map (.gwin, ·)

/-- The homes that a lane has yet to read at, each on its path. -/
def LaneSrc.sitesOn (p : Path) : LaneSrc → List (Path × Nat)
  | .mem _ h => [(p, h)]
  | .val _ => []
  | .gather i _ h _ => (h.drop i.length).map (.gwin, ·)

/-- The byte keys that a lane of `n` bytes has yet to read. -/
def LoadLane.reads (l : LoadLane) : List Nat :=
  match l.src with
  | .mem pa _ => (List.range l.n).map (pa + ·)
  | .val _ => []
  | .gather _ k _ _ => k

/-- The homes of a list of cells. -/
def cellHomes (cells : List Host.Cell) : List Nat := cells.map fun e => homeOf e.1

/-- The homes an outstanding access has yet to reach, on their paths. -/
def Pend.sitesOf (p : Pend) : List (Path × Nat) :=
  match p.op with
  | .load q _ _ lanes => lanes.flatMap (·.src.sitesOn q)
  | .store q bs => if p.sites.isEmpty then (cellHomes bs.flatten).map (q, ·) else p.sites
  | _ => p.sites

/-- Whether two outstanding accesses are ordered by Rule 1: same path and a shared home (11 R286). -/
def Pend.ordered (p q : Pend) : Bool := p.sitesOf.any fun h => q.sitesOf.contains h

/-- Whether an outstanding access reaches a home on a path. -/
def Pend.at (p : Pend) (q : Path) (homes : List Nat) : Bool := homes.any fun h => p.sitesOf.contains (q, h)

/-- Whether an outstanding access, or a part of it, travels on a path. -/
def Pend.on (p : Pend) (q : Path) : Bool := p.op.path == q || p.sitesOf.any fun h => h.1 == q

/-! ## Reads that later accesses must not overtake (11 R293) -/

def Slice.keys (l : Slice) : List Nat := byteKeys l.scale 4 ++ l.elems.flatten

/-- The byte keys that an outstanding access reads. -/
def PendOp.reads : PendOp → List Nat
  | .load _ _ _ lanes => lanes.flatMap (·.reads)
  | .store .. => []
  | .amo _ n pa .. => (List.range n).map (pa + ·)
  | .nearAmo _ n pa _ _ => (List.range n).map (pa + ·)
  | .prescale _ _ b => b.keys
  | .paxpy _ _ l => l.keys
  | .psgdm _ _ _ m w _ => m.keys ++ w.keys
  | .baddq d r => d.keys ++ r.keys
  | .arrival pa => (List.range 8).map (pa + ·)

/-- The byte keys that an outstanding access writes, at most. -/
def PendOp.writes : PendOp → List Nat
  | .store _ bs => bs.flatten.map (·.1)
  | o => o.reads

/-- The byte keys that a counted tile operation reads. -/
def TileOp.reads : TileOp → List Nat
  | .load _ _ _ _ _ _ elems scales =>
    (elems.flatMap (·.addrs)) ++ scales.flatMap fun e => byteKeys e.2 4
  | _ => []

/-- Whether keys meet the 8-byte words of others. -/
def meetsWords (a b : List Nat) : Bool := a.any fun k => b.any fun q => q / 8 == k / 8

/-- Whether a command that context `r` gave before place `id` of its program order has still to read a word of keys. -/
def State.cmdBefore (s : State) (r id : Nat) (keys : List Nat) : Bool :=
  let cl := s.cluster (engineOf (r / 8))
  !keys.isEmpty && (cl.copies ++ cl.decodes).any fun x =>
    x.ctx == r && x.failed.isNone && decide (x.id < id) && (s.cmdOpen x || meetsWords (s.cmdReads x) keys)

/-- Whether an access of the current context before place `id` of its program order has still to read a word of keys: an outstanding
access, a counted tile operation, a command of an engine. A later access to the word waits for it, on whatever path (R293). -/
def State.readBefore (s : State) (id : Nat) (keys : List Nat) : Bool :=
  (s.ctx.pend.any fun p => decide (p.id < id) && meetsWords p.op.reads keys) ||
    (s.core.claim == some s.c && s.core.tileq.any fun o => decide (o.id < id) && meetsWords o.op.reads keys) ||
    s.cmdBefore s.cur id keys

/-- Whether a load of the current context has returned, before place `id`, a store to a word of keys that is not performed: a later
read of the word on another path waits for the store, so that it returns nothing older (R293). -/
def State.seenBefore (s : State) (id : Nat) (keys : List Nat) : Bool :=
  s.ctx.pend.any fun p => decide (p.id < id) && p.seen &&
    match p.op with
    | .store _ bs => meetsWords (bs.flatten.map (·.1)) keys
    | _ => false

/-- Whether a read of keys, at place `id` of the current context's program order, waits for an earlier access (R293). -/
def State.readsAfter (s : State) (id : Nat) (keys : List Nat) : Bool := s.readBefore id keys || s.seenBefore id keys

/-- Whether keys can be read now, in the middle of an instruction or a train: their regions are powered, and no earlier access of the
current context comes first at one of their words (11 R293). -/
def State.mayReadNow (s : State) (keys : List Nat) : Bool := s.powered keys && !s.readsAfter s.nextId keys

/-- Whether the index words a checked load reads at issue may be read now: no earlier read of them, and no earlier access on
GWIN at one of their homes, is left, and their regions are awake (11 R286, R293). -/
def State.indexFree (s : State) (src : LaneSrc) : Bool :=
  match src with
  | .gather i _ h _ => s.mayReadNow i && !(s.ctx.pend.any fun p => p.at .gwin (h.take i.length))
  | _ => true

/-- How an instruction waits to read: a release that has issued stays one (12 R305). -/
def Wait.reading : Wait → Wait
  | .release i => .release i
  | _ => .counters

/-- Go on once index words may be read; they are read then, whatever they lead to (11 R287). -/
def State.whenIndexed (s : State) (l : List LaneSrc) (f : State → Out) : Out :=
  if l.all s.indexFree then f (State.touch s.k s (l.flatMap (·.indexKeys)))
  else .next ((s.wakeFor (l.flatMap (·.indexKeys))).stall s.ctx.wait.reading)

/-- Check the reads of `n` words from an address on, once the index words they read may be read. -/
def State.checkedBlock (s : State) (va : Word) (n : Nat) (f : List LaneSrc → State → Out) : Out :=
  s.whenIndexed (s.indexesOf 8 (addrsFrom va 8 n)) fun s =>
    match s.loadBlock va n with
    | .error t => .next (s.trap t)
    | .ok l => f l s

/-- Whether the orphan at a place may be performed: no earlier access of the context that made it comes first at a home or has still to
read a word that it writes (11 R286, R293). -/
def State.orphanFree (s : State) (i : Nat) : Bool :=
  match s.orphans[i]? with
  | none => false
  | some (r, p) =>
    !((s.orphans.take i).any fun e => e.1 == r && (e.2.ordered p || meetsWords e.2.op.reads p.op.writes)) &&
      !s.cmdBefore r p.id p.op.writes

end Sys2Proof.Machine
end

