-- ==== Sys2Proof/Machine/Num.lean ====
section
/-! DEFINITION. Number formats and arithmetic (03): integers (R61), FP32 and FP64 (R62 to R66), E4M3 (R67, R68), the
significance planes (R69 to R75), the conversions (R76, R77), the reduced-precision functions (05 R119) and the matrix
unit's accumulation (R78 to R82). Floating point converts to exact integers, computes exactly, and rounds once. -/

namespace Sys2Proof.Machine

open Sys2Proof

/-! ## Flags and modes (01 R24, 03 R63, R65) -/

/-- The flags of FCSR bits 4:0: NV, DZ, OF, UF, NX. -/
abbrev Flags := BitVec 5

def flagNV : Flags := 16
def flagDZ : Flags := 8
def flagOF : Flags := 4
def flagUF : Flags := 2
def flagNX : Flags := 1

/-- IEEE 754 rounding modes (R63). -/
inductive RMode where
  | rne | rtz | rdn | rup
  deriving DecidableEq, Repr

/-- A result and the flags it raises. -/
structure FRes where
  bits : Word
  fl   : Flags
  deriving DecidableEq, Repr

/-! ## Binary formats -/

/-- A sign-magnitude format: fraction bits, bias, encoding of the largest finite magnitude, position of the sign. -/
structure FpFmt where
  mb   : Nat
  bias : Nat
  maxW : Nat
  sign : Nat
  deriving DecidableEq, Repr

def fp32 : FpFmt := ⟨23, 127, 0x7F7FFFFF, 31⟩
def fp64 : FpFmt := ⟨52, 1023, 0x7FEFFFFFFFFFFFFF, 63⟩

/-- The reduced-precision sets of R119, with the dropped fraction bits removed. -/
def red32 : FpFmt := ⟨12, 127, 0xFEFFF, 20⟩
def red64 : FpFmt := ⟨24, 1023, 0x7FEFFFFFF, 35⟩

/-- A Pk element (R69, R70); E4M3 is P1 (R67). -/
def pkFmt (k : Nat) : FpFmt := ⟨8 * k - 5, 7, 0x7F * 2 ^ (8 * (k - 1)) - 1, 8 * k - 1⟩

def fpOf : Fmt → FpFmt
  | .s => fp32
  | .d => fp64

/-- The canonical quiet NaN (R64). -/
def canonNaN : Fmt → Word
  | .s => 0x7FC00000
  | .d => 0x7FF8000000000000

/-- A number: NaN, infinity, or ±m × 2^e. -/
inductive Fp where
  | nan (signalling : Bool)
  | inf (s : Bool)
  | fin (s : Bool) (m : Nat) (e : Int)
  deriving DecidableEq, Repr

/-- The value of a finite magnitude encoding. -/
def FpFmt.value (F : FpFmt) (s : Bool) (mag : Nat) : Fp :=
  let ex := mag / 2 ^ F.mb
  let fr := mag % 2 ^ F.mb
  if ex = 0 then .fin s fr (1 - (F.bias : Int) - F.mb)
  else .fin s (2 ^ F.mb + fr) ((ex : Int) - F.bias - F.mb)

/-- The value of an FP32 (bits 31:0) or FP64 operand (R62). -/
def Fp.ofIeee (f : Fmt) (w : Word) : Fp :=
  let F := (fpOf f)
  let mag := w.toNat % 2 ^ F.sign
  let s := w.getLsbD F.sign
  if F.maxW + 1 < mag then .nan (!w.getLsbD (F.mb - 1))
  else if mag = F.maxW + 1 then .inf s
  else F.value s mag

def Fp.isZero : Fp → Bool
  | .fin _ m _ => m == 0
  | _ => false

/-- NV when the operand is a signalling NaN. -/
def Fp.sig : Fp → Flags
  | .nan true => flagNV
  | _ => 0

/-! ## Rounding -/

/-- Whether a magnitude whose dropped part compares to one half as `c`, with an odd or even kept part, rounds up. -/
def roundsUp (mode : RMode) (s odd inexact : Bool) (c : Ordering) : Bool :=
  match mode with
  | .rne => c == .gt || (c == .eq && odd)
  | .rtz => false
  | .rdn => inexact && s
  | .rup => inexact && !s

/-- Round m × 2^e, and a little more when `st`, to a multiple of 2^l: the multiple and whether it is inexact. -/
def roundAt (mode : RMode) (s : Bool) (m : Nat) (e : Int) (st : Bool) (l : Int) : Nat × Bool :=
  if l ≤ e then (m <<< (e - l).toNat, st)
  else
    let k := (l - e).toNat
    let q := m >>> k
    let r := m - (q <<< k)
    let half := 1 <<< (k - 1)
    let c : Ordering := if r < half then .lt else if r = half then (if st then .gt else .eq) else .gt
    let inexact := st || r != 0
    (if roundsUp mode s (q % 2 == 1) inexact c then q + 1 else q, inexact)

/-- The magnitude encoding of m × 2^e, exact in the format but for an exponent that may be too large. -/
def FpFmt.encodeMag (F : FpFmt) (m : Nat) (e : Int) : Nat :=
  if m = 0 then 0
  else
    let top : Int := e + Nat.log2 m
    let emin : Int := 1 - F.bias
    let l : Int := (if top < emin then emin else top) - F.mb
    let frac := if l ≤ e then m <<< (e - l).toNat else m >>> (l - e).toNat
    if top < emin then frac else (top - emin).toNat * 2 ^ F.mb + frac

/-- A rounded magnitude: its encoding, whether it exceeds the largest finite one, is tiny, is inexact (R65). -/
structure Rounded where
  mag     : Nat
  ovf    : Bool
  tiny    : Bool
  inexact : Bool
  deriving DecidableEq, Repr

/-- Round m × 2^e (and a little more when `st`, m then having ample bits) into a format. -/
def FpFmt.round (F : FpFmt) (mode : RMode) (s : Bool) (m : Nat) (e : Int) (st : Bool) : Rounded :=
  if m = 0 then ⟨0, false, false, st⟩
  else
    let top : Int := e + Nat.log2 m
    let emin : Int := 1 - F.bias
    let free := roundAt mode s m e st (top - F.mb)
    let tiny := decide (top - F.mb + Nat.log2 free.1 < emin)
    let l : Int := (if top < emin then emin else top) - F.mb
    let r := roundAt mode s m e st l
    let mag := F.encodeMag r.1 l
    ⟨mag, decide (F.maxW < mag), tiny, r.2⟩

/-- The flags of a rounded result (R65). -/
def Rounded.flags (r : Rounded) : Flags :=
  if r.ovf then flagOF ||| flagNX
  else if r.inexact then (if r.tiny then flagUF ||| flagNX else flagNX)
  else 0

/-- Sign and magnitude as a word. -/
def FpFmt.word (F : FpFmt) (s : Bool) (mag : Nat) : Word := BitVec.ofNat 64 (mag + (if s then 2 ^ F.sign else 0))

/-- Whether an overflow delivers ∞ (R65). -/
def overflowsToInf (mode : RMode) (s : Bool) : Bool :=
  match mode with
  | .rne => true
  | .rtz => false
  | .rdn => s
  | .rup => !s

/-- Round into an IEEE format. -/
def roundIeee (f : Fmt) (mode : RMode) (s : Bool) (m : Nat) (e : Int) (st : Bool) : FRes :=
  let F := (fpOf f)
  let r := F.round mode s m e st
  if r.ovf then ⟨F.word s (if overflowsToInf mode s then F.maxW + 1 else F.maxW), r.flags⟩
  else ⟨F.word s r.mag, r.flags⟩

def infRes (f : Fmt) (s : Bool) (fl : Flags) : FRes := ⟨(fpOf f).word s ((fpOf f).maxW + 1), fl⟩
def zeroRes (f : Fmt) (s : Bool) : FRes := ⟨(fpOf f).word s 0, 0⟩
def nanRes (f : Fmt) (fl : Flags) : FRes := ⟨canonNaN f, fl⟩

/-! ## Arithmetic -/

/-- The signed integer ±m at exponent e, over a common exponent l ≤ e. -/
def signedAt (s : Bool) (m : Nat) (e l : Int) : Int :=
  let n : Int := (m <<< (e - l).toNat : Nat)
  if s then -n else n

/-- The exact sum of two finite numbers, rounded once; an exact zero has its sign by R63. R63 writes out no exception for two zeros of
one sign, where IEEE 754, which R115 names, keeps that sign: DESIGN CHOICE, it is kept in every mode (log 48). -/
def addFin (f : Fmt) (mode : RMode) (sa : Bool) (ma : Nat) (ea : Int) (sb : Bool) (mb : Nat) (eb : Int) : FRes :=
  let l := if ea ≤ eb then ea else eb
  let z := signedAt sa ma ea l + signedAt sb mb eb l
  if z = 0 then
    zeroRes f (if sa = sb && ma = 0 && mb = 0 then sa else mode = .rdn)
  else roundIeee f mode (decide (z < 0)) z.natAbs l false

/-- Add two numbers. -/
def Fp.add (f : Fmt) (mode : RMode) (a b : Fp) : FRes :=
  match a, b with
  | .nan _, _ => nanRes f (a.sig ||| b.sig)
  | _, .nan _ => nanRes f (a.sig ||| b.sig)
  | .inf s, .inf t => if s = t then infRes f s 0 else nanRes f flagNV
  | .inf s, .fin .. => infRes f s 0
  | .fin .., .inf t => infRes f t 0
  | .fin s m e, .fin t n g => addFin f mode s m e t n g

def Fp.neg : Fp → Fp
  | .nan q => .nan q
  | .inf s => .inf (!s)
  | .fin s m e => .fin (!s) m e

/-- Multiply two numbers. -/
def Fp.mul (f : Fmt) (mode : RMode) (a b : Fp) : FRes :=
  match a, b with
  | .nan _, _ => nanRes f (a.sig ||| b.sig)
  | _, .nan _ => nanRes f (a.sig ||| b.sig)
  | .inf s, .inf t => infRes f (s != t) 0
  | .inf s, .fin t m _ => if m = 0 then nanRes f flagNV else infRes f (s != t) 0
  | .fin s m _, .inf t => if m = 0 then nanRes f flagNV else infRes f (s != t) 0
  | .fin s m e, .fin t n g => if m * n = 0 then zeroRes f (s != t) else roundIeee f mode (s != t) (m * n) (e + g) false

/-- The quotient of two non-zero magnitudes as m × 2^e and a sticky bit. -/
def divMag (m : Nat) (e : Int) (n : Nat) (g : Int) : Nat × Int × Bool :=
  let k := 64 + Nat.log2 n
  let q := (m <<< k) / n
  (q, e - g - k, q * n != m <<< k)

/-- Divide two numbers (04 R105). -/
def Fp.div (f : Fmt) (mode : RMode) (a b : Fp) : FRes :=
  match a, b with
  | .nan _, _ => nanRes f (a.sig ||| b.sig)
  | _, .nan _ => nanRes f (a.sig ||| b.sig)
  | .inf _, .inf _ => nanRes f flagNV
  | .inf s, .fin t _ _ => infRes f (s != t) 0
  | .fin s _ _, .inf t => zeroRes f (s != t)
  | .fin s m e, .fin t n g =>
    if n = 0 then (if m = 0 then nanRes f flagNV else infRes f (s != t) flagDZ)
    else if m = 0 then zeroRes f (s != t)
    else
      let q := divMag m e n g
      roundIeee f mode (s != t) q.1 q.2.1 q.2.2

/-- Integer square root by bits: the largest r ≥ r0 with r² ≤ n, bits below `i` being open. -/
def isqrtFrom : Nat → Nat → Nat → Nat
  | 0, _, r => r
  | i + 1, n, r => let t := r + (1 <<< i); isqrtFrom i n (if t * t ≤ n then t else r)

def isqrt (n : Nat) : Nat := isqrtFrom (Nat.log2 n / 2 + 1) n 0

/-- Square root (04 R105). -/
def Fp.sqrt (f : Fmt) (mode : RMode) (a : Fp) : FRes :=
  match a with
  | .nan _ => nanRes f a.sig
  | .inf true => nanRes f flagNV
  | .inf false => infRes f false 0
  | .fin s m e =>
    if m = 0 then zeroRes f s
    else if s then nanRes f flagNV
    else
      let k := if e % 2 = 0 then 128 else 129
      let r := isqrt (m <<< k)
      roundIeee f mode false r ((e - k) / 2) (r * r != m <<< k)

/-- a × b + c, exact and rounded once (04 R106); 0 × ∞ raises NV even when c is a quiet NaN. -/
def Fp.fma (f : Fmt) (mode : RMode) (a b c : Fp) : FRes :=
  let bad := match a, b with
    | .inf _, .fin _ m _ => m == 0
    | .fin _ m _, .inf _ => m == 0
    | _, _ => false
  let sg := a.sig ||| b.sig ||| c.sig
  if bad then nanRes f (flagNV ||| sg)
  else
    match a, b, c with
    | .nan _, _, _ => nanRes f sg
    | _, .nan _, _ => nanRes f sg
    | _, _, .nan _ => nanRes f sg
    | .fin s m e, .fin t n g, .fin u p h => addFin f mode (s != t) (m * n) (e + g) u p h
    | .fin .., .fin .., .inf u => infRes f u 0
    | .inf s, .inf t, c => Fp.add f mode (.inf (s != t)) c
    | .inf s, .fin t _ _, c => Fp.add f mode (.inf (s != t)) c
    | .fin s _ _, .inf t, c => Fp.add f mode (.inf (s != t)) c

/-! ## Operations on register bits -/

def ieeeAdd (f : Fmt) (mode : RMode) (a b : Word) : FRes := Fp.add f mode (.ofIeee f a) (.ofIeee f b)
def ieeeSub (f : Fmt) (mode : RMode) (a b : Word) : FRes := Fp.add f mode (.ofIeee f a) (Fp.ofIeee f b).neg
def ieeeMul (f : Fmt) (mode : RMode) (a b : Word) : FRes := Fp.mul f mode (.ofIeee f a) (.ofIeee f b)
def ieeeDiv (f : Fmt) (mode : RMode) (a b : Word) : FRes := Fp.div f mode (.ofIeee f a) (.ofIeee f b)
def ieeeSqrt (f : Fmt) (mode : RMode) (a : Word) : FRes := Fp.sqrt f mode (.ofIeee f a)

/-- The fused operations of R106: negate the product, negate c. -/
def ieeeFma (f : Fmt) (mode : RMode) (negP negC : Bool) (a b c : Word) : FRes :=
  let x := Fp.ofIeee f a
  let z := Fp.ofIeee f c
  Fp.fma f mode (if negP then x.neg else x) (.ofIeee f b) (if negC then z.neg else z)

def isNaN (f : Fmt) (w : Word) : Bool := (fpOf f).maxW + 1 < w.toNat % 2 ^ (fpOf f).sign

/-- The bits of the element format: bits 31:0 of an FP32 value. -/
def fmtBits (f : Fmt) (w : Word) : Word :=
  match f with
  | .s => w &&& 0xFFFFFFFF
  | .d => w

/-- An integer that orders the non-NaN values of a format, −0 and +0 alike. -/
def fpKey (f : Fmt) (w : Word) : Int :=
  let m : Int := (w.toNat % 2 ^ (fpOf f).sign : Nat)
  if w.getLsbD (fpOf f).sign then -m else m

/-- Flags of a signalling NaN among two operands. -/
def sigFlags (f : Fmt) (a b : Word) : Flags := (Fp.ofIeee f a).sig ||| (Fp.ofIeee f b).sig

/-- FMIN and FMAX (04 R107). -/
def ieeeMinMax (f : Fmt) (mx : Bool) (a b : Word) : FRes :=
  let fl := sigFlags f a b
  let a := fmtBits f a
  let b := fmtBits f b
  if isNaN f a then (if isNaN f b then ⟨canonNaN f, fl⟩ else ⟨b, fl⟩)
  else if isNaN f b then ⟨a, fl⟩
  else
    let ka := fpKey f a
    let kb := fpKey f b
    let aLess := decide (ka < kb) || (ka == kb && a.getLsbD (fpOf f).sign)
    ⟨if aLess = mx then b else a, fl⟩

/-- The relations of R108 and R118. -/
inductive FRel where
  | eq | ne | lt | le
  deriving DecidableEq, Repr

/-- Whether a relation holds, and NV as R108 and R118 raise it. -/
def ieeeRel (f : Fmt) (r : FRel) (a b : Word) : Bool × Flags :=
  let un := isNaN f a || isNaN f b
  let ka := fpKey f a
  let kb := fpKey f b
  match r with
  | .eq => (!un && ka == kb, sigFlags f a b)
  | .ne => (un || ka != kb, sigFlags f a b)
  | .lt => (!un && decide (ka < kb), if un then flagNV else 0)
  | .le => (!un && decide (ka ≤ kb), if un then flagNV else 0)

/-- FCLASS (04 R109). -/
def ieeeClass (f : Fmt) (w : Word) : Word :=
  let F := (fpOf f)
  let mag := w.toNat % 2 ^ F.sign
  let s := w.getLsbD F.sign
  if F.maxW + 1 < mag then (if w.getLsbD (F.mb - 1) then 512 else 256)
  else if mag = F.maxW + 1 then (if s then 1 else 128)
  else if mag = 0 then (if s then 8 else 16)
  else if mag < 2 ^ F.mb then (if s then 4 else 32)
  else (if s then 2 else 64)

/-- Replace the sign of a value of the format. -/
def withSign (f : Fmt) (w : Word) (s : Bool) : Word := (fpOf f).word s (w.toNat % 2 ^ (fpOf f).sign)

/-! ## Conversions (R76, R77) -/

/-- FP32 to FP64 and back. -/
def ieeeConv (dst src : Fmt) (mode : RMode) (w : Word) : FRes :=
  match Fp.ofIeee src w with
  | .nan q => nanRes dst (if q then flagNV else 0)
  | .inf s => infRes dst s 0
  | .fin s m e => if m = 0 then zeroRes dst s else roundIeee dst mode s m e false

/-- A signed integer to a floating-point format; 0 gives +0. -/
def ofIntFp (dst : Fmt) (mode : RMode) (v : Int) : FRes :=
  if v = 0 then zeroRes dst false else roundIeee dst mode (decide (v < 0)) v.natAbs 0 false

/-- To a signed integer of `w` bits, as its two's complement sign-extended to 64 (R77). -/
def toIntFp (src : Fmt) (mode : RMode) (w : Nat) (x : Word) : FRes :=
  let hi : Int := 2 ^ (w - 1) - 1
  let lo : Int := -(2 ^ (w - 1))
  match Fp.ofIeee src x with
  | .nan _ => ⟨BitVec.ofInt 64 hi, flagNV⟩
  | .inf s => ⟨BitVec.ofInt 64 (if s then lo else hi), flagNV⟩
  | .fin s m e =>
    let r := roundAt mode s m e false 0
    let v : Int := if s then -(r.1 : Int) else r.1
    if hi < v then ⟨BitVec.ofInt 64 hi, flagNV⟩
    else if v < lo then ⟨BitVec.ofInt 64 lo, flagNV⟩
    else ⟨BitVec.ofInt 64 v, if r.2 then flagNX else 0⟩

/-! ## E4M3 and the planes (R67 to R75) -/

/-- Whether a Pk word is NaN: its plane 0 is 0x7F or 0xFF (R70). -/
def pkNaN (k W : Nat) : Bool := W / 2 ^ (8 * (k - 1)) % 128 == 127

/-- The unscaled value of a Pk word. -/
def pkValue (k W : Nat) : Fp :=
  let F := pkFmt k
  if pkNaN k W then .nan false else F.value (W / 2 ^ F.sign % 2 == 1) (W % 2 ^ F.sign)

/-- Plane 0 = 0x7F and lower planes 0. -/
def pkNaNWord (k : Nat) : Nat := 0x7F * 2 ^ (8 * (k - 1))

/-- A result in a Pk format and the flags of R68. -/
structure PRes where
  w  : Nat
  fl : Flags
  deriving DecidableEq, Repr

/-- Round a non-zero magnitude RNE into Pk, saturating (R68, R74). -/
def pkRound (k : Nat) (s : Bool) (m : Nat) (e : Int) (st : Bool) : PRes :=
  let F := pkFmt k
  let r := F.round .rne s m e st
  ⟨(if r.ovf then F.maxW else r.mag) + (if s then 2 ^ F.sign else 0), r.flags⟩

/-- The unscaled Pk word of a number (R68 for k = 1; R74 with the scale already divided out). -/
def pkOf (k : Nat) (x : Fp) : PRes :=
  let F := pkFmt k
  match x with
  | .nan q => ⟨pkNaNWord k, if q then flagNV else 0⟩
  | .inf s => ⟨F.maxW + (if s then 2 ^ F.sign else 0), flagNV⟩
  | .fin s m e => if m = 0 then ⟨if s then 2 ^ F.sign else 0, 0⟩ else pkRound k s m e false

/-- E4M3 to FP32 or FP64, exact (R68). -/
def ofE4m3 (dst : Fmt) (b : Nat) : Word :=
  match pkValue 1 b with
  | .fin s m e => if m = 0 then (fpOf dst).word s 0 else (roundIeee dst .rne s m e false).bits
  | _ => canonNaN dst

/-- Whether an FP32 word is a valid block scale (R72). -/
def scaleOk (g : BitVec 32) : Bool := 0x00800000 ≤ g.toNat && g.toNat ≤ 0x7F7FFFFF

/-- An FP32 value into Pk under a block scale (R74). An invalid scale gives NaN and no flag here: its NV is raised once
by the instruction. -/
def toPk (k : Nat) (x g : BitVec 32) : PRes :=
  let F := pkFmt k
  if !scaleOk g then ⟨pkNaNWord k, (Fp.ofIeee .s (x.zeroExtend 64)).sig⟩
  else
    match Fp.ofIeee .s (x.zeroExtend 64), Fp.ofIeee .s (g.zeroExtend 64) with
    | .fin s m e, .fin _ n h =>
      if m = 0 then ⟨if s then 2 ^ F.sign else 0, 0⟩
      else let q := divMag m e n h; pkRound k s q.1 q.2.1 q.2.2
    | x, _ => pkOf k x

/-- A Pk element under a block scale to FP32 (R75). It raises no NV for the scale here. -/
def fromPk (k W : Nat) (g : BitVec 32) : FRes :=
  if !scaleOk g then nanRes .s 0
  else Fp.mul .s .rne (pkValue k W) (.ofIeee .s (g.zeroExtend 64))

/-- A read of k planes of a word of n stored planes (R73). -/
def readPlanes (n k : Nat) (rne : Bool) (W : Nat) : Nat :=
  if n ≤ k then W * 2 ^ (8 * (k - n))
  else
    let d := 8 * (n - k)
    if W / 2 ^ (8 * n - 8) % 128 = 127 || !rne then W / 2 ^ d
    else
      let s := W / 2 ^ (8 * n - 1)
      let mag := W / 2 ^ d % 2 ^ (8 * k - 1)
      let rb := W / 2 ^ (d - 1) % 2
      let st := W % 2 ^ (d - 1) != 0
      let mag := if rb = 1 && (st || mag % 2 == 1) then mag + 1 else mag
      let mag := if mag / 2 ^ (8 * k - 8) = 127 then 127 * 2 ^ (8 * k - 8) - 1 else mag
      s * 2 ^ (8 * k - 1) + mag

/-- The word of stored plane bytes, plane 0 most significant. -/
def planeWord : List Byte → Nat
  | [] => 0
  | b :: r => b.toNat * 2 ^ (8 * r.length) + planeWord r

/-- The plane bytes of a word, plane 0 first. -/
def planeBytes : Nat → Nat → List Byte
  | 0, _ => []
  | n + 1, W => BitVec.ofNat 8 (W / 2 ^ (8 * n)) :: planeBytes n W

/-! ## Reduced precision (05 R119) -/

/-- The fraction bits dropped from the element format. -/
def redDrop : Fmt → Nat
  | .s => 11
  | .d => 28

def redOf : Fmt → FpFmt
  | .s => red32
  | .d => red64

/-- Round into the set of R119. -/
def roundRed (f : Fmt) (s : Bool) (m : Nat) (e : Int) (st : Bool) : FRes :=
  let r := (redOf f).round .rne s m e st
  if r.ovf then infRes f s r.flags else ⟨(fpOf f).word s (r.mag <<< redDrop f), r.flags⟩

/-- 1/a (R119). -/
def redRcp (f : Fmt) (w : Word) : FRes :=
  match Fp.ofIeee f w with
  | .nan q => nanRes f (if q then flagNV else 0)
  | .inf s => zeroRes f s
  | .fin s m e =>
    if m = 0 then infRes f s flagDZ
    else let q := divMag 1 0 m e; roundRed f s q.1 q.2.1 q.2.2

/-- 1/√a (R119). -/
def redRsq (f : Fmt) (w : Word) : FRes :=
  match Fp.ofIeee f w with
  | .nan q => nanRes f (if q then flagNV else 0)
  | .inf true => nanRes f flagNV
  | .inf false => zeroRes f false
  | .fin s m e =>
    if m = 0 then infRes f s flagDZ
    else if s then nanRes f flagNV
    else
      -- m × 2^e = n × 2^(2h); 1/√ = (2^160 / √n) × 2^(−160 − h)
      let n := if e % 2 = 0 then m else 2 * m
      let h := if e % 2 = 0 then e / 2 else (e - 1) / 2
      let r := isqrt ((1 <<< 320) / n)
      roundRed f false r (-160 - h) (r * r * n != 1 <<< 320)

/-- ⌊ln 2 × 2^200⌋. -/
def ln2Fixed : Nat := 1113844574712631719546256151097547306333272293549090750737802

/-- The series of e^x for x = xf × 2^−200, scaled by 2^200. -/
def expSeries (xf : Nat) : Nat → Nat → Nat → Nat
  | 0, _, _ => 0
  | fuel + 1, k, t => t + expSeries xf fuel (k + 1) ((t * xf) >>> 200 / (k + 1))

/-- 2^a (R119); the irrational results are computed to about 190 bits (log 11). -/
def redExp2 (f : Fmt) (w : Word) : FRes :=
  match Fp.ofIeee f w with
  | .nan q => nanRes f (if q then flagNV else 0)
  | .inf true => zeroRes f false
  | .inf false => infRes f false 0
  | .fin s m e =>
    if m = 0 then ⟨(roundIeee f .rne false 1 0 false).bits, 0⟩
    else if 16 < e + Nat.log2 m then
      roundRed f false 1 (if s then -100000 else 100000) false
    else
      -- ⌊a × 2^200⌋, its part below one, and whether a is an integer
      let a : Int := signedAt s m 0 0
      let t : Int := if 0 ≤ e + 200 then a * 2 ^ (e + 200).toNat else a / 2 ^ (-(e + 200)).toNat
      let n := t / 2 ^ 200
      let fr := (t % 2 ^ 200).toNat
      let whole := if 0 ≤ e then true else m % 2 ^ (-e).toNat == 0
      if whole then roundRed f false 1 n false
      else roundRed f false (expSeries ((fr * ln2Fixed) >>> 200) 80 0 (1 <<< 200)) (n - 200) true

/-! ## Integer lanes and scalars (R61) -/

/-- Signed division of `w`-bit values, quotient and remainder. -/
def divS (w : Nat) (a b : BitVec w) : BitVec w :=
  if b = 0 then BitVec.allOnes w else BitVec.ofInt w (Int.tdiv a.toInt b.toInt)

def remS (w : Nat) (a b : BitVec w) : BitVec w :=
  if b = 0 then a else BitVec.ofInt w (Int.tmod a.toInt b.toInt)

def divU (w : Nat) (a b : BitVec w) : BitVec w :=
  if b = 0 then BitVec.allOnes w else BitVec.ofNat w (a.toNat / b.toNat)

def remU (w : Nat) (a b : BitVec w) : BitVec w :=
  if b = 0 then a else BitVec.ofNat w (a.toNat % b.toNat)

/-- Leading zeros, trailing zeros and ones of a word; 64 for zero in the first two (04 R88). -/
def clz64 (a : Word) : Word := BitVec.ofNat 64 (if a = 0 then 64 else 63 - Nat.log2 a.toNat)

def ctzFrom (a : Word) : Nat → Nat → Nat
  | 0, i => i
  | fuel + 1, i => if a.getLsbD i then i else ctzFrom a fuel (i + 1)

def ctz64 (a : Word) : Word := BitVec.ofNat 64 (ctzFrom a 64 0)

def popc64 (a : Word) : Word := BitVec.ofNat 64 ((List.range 64).filter (a.getLsbD ·)).length

/-! ## The matrix unit (R78 to R82) -/

/-- The signed integer of a finite E4M3 or P2 element in units of its smallest subnormal: value × 2^9 (P1), 2^17 (P2). -/
def pkInt (k W : Nat) : Int :=
  match pkValue k W with
  | .fin s m e =>
    let n : Int := (m <<< (e + 6 + (pkFmt k).mb).toNat : Nat)
    if s then -n else n
  | _ => 0

/-- Sum of products of two lists. -/
def dotInt : List Int → List Int → Int
  | a :: r, b :: t => a * b + dotInt r t
  | _, _ => 0

/-- One element's update by an exact block (R79, R81): the exact sum in units of 2^−lsb, the scales and C. -/
def blockUpdate (lsb : Nat) (nan : Bool) (acc : Int) (sA sB c : BitVec 32) : BitVec 32 :=
  if nan || !scaleOk sA || !scaleOk sB then 0x7FC00000
  else
    let x (w : Word) := Fp.ofIeee .s w
    let d := if acc = 0 then (0 : Word) else (roundIeee .s .rne (decide (acc < 0)) acc.natAbs (-(lsb : Int)) false).bits
    let sc := (Fp.mul .s .rne (x (sA.zeroExtend 64)) (x (sB.zeroExtend 64))).bits
    let p := (Fp.mul .s .rne (x d) (x sc)).bits
    ((Fp.add .s .rne (x (c.zeroExtend 64)) (x p)).bits).extractLsb' 0 32

/-- One element's update by sequential fused multiply-adds (R82). -/
def fmaChain (f : Fmt) : List Word → List Word → Word → Word
  | a :: r, b :: t, c => fmaChain f r t (Fp.fma f .rne (.ofIeee f a) (.ofIeee f b) (.ofIeee f c)).bits
  | _, _, c => c

end Sys2Proof.Machine
end

