-- ==== Sys2Proof/Machine/Flags.lean ====
section
/-! DEFINITION. Rounding mode selection (03 R63), the sticky flags and FPX (03 R65, R66). -/

namespace Sys2Proof.Machine

open Sys2Proof

/-- The mode FCSR.RM names (01 R24). -/
def rmOf (rm : BitVec 3) : RMode :=
  match rm.toNat % 4 with
  | 0 => .rne
  | 1 => .rtz
  | 2 => .rdn
  | _ => .rup

/-- The rounding mode of an instruction. -/
def State.mode (s : State) (f : Frm) : RMode :=
  match f with
  | .dyn => rmOf s.ctx.rm
  | .rne => .rne
  | .rtz => .rtz
  | .rdn => .rdn
  | .rup => .rup

/-- Set sticky flags. -/
def State.orFlags (s : State) (fl : Flags) : State := { s with ctx := { s.ctx with flags := s.ctx.flags ||| fl } }

/-- FPX with the raised flags (R66). -/
def fpx (fl : Flags) : Trap := ⟨13, fl.zeroExtend 8, fl.zeroExtend 64⟩

/-- Whether a raised flag is enabled to trap. -/
def State.fpTraps (s : State) (fl : Flags) : Bool := fl &&& s.ctx.te != 0

/-- Set the flags and go on, or set them and take FPX (R66). -/
def State.raising (s : State) (fl : Flags) (k : State → State) : State :=
  if s.fpTraps fl then (s.orFlags fl).trap (fpx fl) else k (s.orFlags fl)

end Sys2Proof.Machine
end

