-- ==== Sys2Proof/Machine/Operands.lean ====
section
/-! DEFINITION. Operand forms of f and v registers: relative addressing (01 R29, R30), registers bound to streams
(06 R133 to R147), the order of their checks (R142), and the common shape of every instruction that uses them. -/

namespace Sys2Proof.Machine

open Sys2Proof

/-! ## Operands -/

/-- How an instruction uses a register: it writes it at completion, reads it, reads its destination, or writes it when
data returns from memory (06 R141). -/
inductive Role where
  | dst | src | both | load
  deriving DecidableEq, Repr

/-- An f or v register operand as decoded. -/
structure Opnd where
  isV  : Bool
  op   : ROp
  role : Role
  deriving DecidableEq, Repr

def fD (o : ROp) : Opnd := ⟨false, o, .dst⟩
def fS (o : ROp) : Opnd := ⟨false, o, .src⟩
def vD (o : ROp) : Opnd := ⟨true, o, .dst⟩
def vS (o : ROp) : Opnd := ⟨true, o, .src⟩

/-- A register named directly. -/
def direct (r : Reg) : ROp := ⟨r, false⟩

/-- An operand with its register number. -/
structure Use where
  isV  : Bool
  reg  : Reg
  role : Role
  deriving DecidableEq, Repr

/-! ## Streams -/

/-- The active stream bound to a register. -/
def Ctx.bound (c : Ctx) (isV : Bool) (r : Reg) : Option (BitVec 2) :=
  ([0, 1, 2, 3] : List (BitVec 2)).find? fun k =>
    let t := c.streams[k.toNat]'(k.isLt)
    t.active && t.bv == isV && t.breg == r

/-- Element size in bytes (06 R135). -/
def Pattern.bytes (p : Pattern) : Nat :=
  match p.wid.toNat with
  | 0 => 1
  | 1 => 2
  | 2 => 4
  | 3 => 8
  | _ => 64

/-- Number of elements (06 R133). -/
def Pattern.total (p : Pattern) : Nat :=
  ((p.bnd.toList.take (p.dims.toNat + 1)).map (·.toNat)).foldl (· * ·) 1

/-- Offset of element `n` over dimensions with their bounds and strides, innermost first. -/
def patternOffset : List (BitVec 32 × BitVec 32) → Nat → Word
  | [], _ => 0
  | (b, st) :: r, n =>
    if b = 0 then patternOffset r n
    else BitVec.ofNat 64 (n % b.toNat) * st.signExtend 64 + patternOffset r (n / b.toNat)

/-- The address the pattern gives for element `n` from a base (06 R133). -/
def Pattern.addr (p : Pattern) (base : Word) (n : Nat) : Word :=
  base + patternOffset ((p.bnd.toList.zip p.stride.toList).take (p.dims.toNat + 1)) n

/-- A byte that a stream reads, or a byte of an index word: its path, key and home. -/
structure Reach where
  path : Path
  key  : Nat
  home : Nat
  deriving DecidableEq, Repr

/-- What a stream reads for an element: the bytes, what its index words and its source bytes reach, and the index words with their
values. -/
structure StreamGot where
  bytes : List Byte
  idx   : List Reach
  src   : List Reach
  words : List (Word × Nat)
  deriving DecidableEq, Repr

def StreamGot.none : StreamGot := ⟨[], [], [], []⟩

def StreamGot.add (a b : StreamGot) : StreamGot := ⟨a.bytes ++ b.bytes, a.idx ++ b.idx, a.src ++ b.src, a.words ++ b.words⟩

/-- Every key read, and every home reached on its path. -/
def StreamGot.keys (g : StreamGot) : List Nat := (g.idx ++ g.src).map (·.key)
def StreamGot.sites (g : StreamGot) : List (Path × Nat) := (g.idx ++ g.src).map fun e => (e.path, e.home)

/-- The failing address of an element, its subcode in bits 5:0 of R145, and the index words that were read before. -/
structure ElemFault where
  addr : Word
  sub  : BitVec 6
  got  : StreamGot
  deriving DecidableEq, Repr

/-- An element that fails after reads: of those only index words have been read, as the checks of its bytes come first. -/
def ElemFault.after (e : ElemFault) (g : StreamGot) : ElemFault := { e with got := ({ g with bytes := [], src := [] } : StreamGot).add e.got }

/-- A fault subcode of R319 as R145 numbers it; an access that may not use a window counts as permission (log 15). -/
def streamSub (e : BitVec 8) : BitVec 6 := if e = 6 then 2 else e.extractLsb' 0 6

/-- What bytes at addresses with their keys reach on a path. -/
def State.reached (s : State) (p : Path) (l : List (Word × Nat)) : List Reach := l.map fun e => ⟨p, e.2, s.homeAt e.1 e.2⟩

/-- One byte a stream reads at an address: one inside a gather window travels on GWIN (06 R143), and its element's index word is read
once (10 R282). -/
def State.streamByte (s : State) (part : StreamPart) (va : Word) : Except ElemFault StreamGot :=
  match part.bytes.find? (·.1 == va), s.site .r va with
  | some e, _ => .ok ⟨[e.2], [], [], []⟩
  | _, .error e => .error ⟨va, streamSub e, .none⟩
  | _, .ok (.key a _ _) => .ok ⟨[Mem.get s.mem a], [], s.reached .strm [(va, a)], []⟩
  | _, .ok (.control _) => .error ⟨va, 2, .none⟩
  | _, .ok (.window w) =>
    let r := s.windowRead w part.words 1 (va - w.wva).toNat 1
    match r.fault with
    | some (_, f) => .error ⟨va, (match f with | some e => streamSub e | none => 5), ⟨[], s.reached .gwin r.idx, [], r.words⟩⟩
    | none => .ok ⟨r.src.map fun e => Mem.get s.mem e.2, s.reached .gwin r.idx, s.reached .gwin r.src, r.words⟩

/-- The bytes a stream reads at an address one by one. The failing address is that of the first byte that fails (log 48). `part` is what
was read before. -/
def State.streamBytes (s : State) (part : StreamPart) (va : Word) : Nat → Except ElemFault StreamGot
  | 0 => .ok .none
  | n + 1 =>
    match s.streamByte part va with
    | .error e => .error e
    | .ok a =>
      match s.streamBytes part (va + 1) n with
      | .error e => .error (e.after a)
      | .ok r => .ok (a.add r)

/-- Read an element or an index word, which must be aligned unless it is a vector element. -/
def State.streamRead (s : State) (part : StreamPart) (va : Word) (n : Nat) : Except ElemFault StreamGot :=
  if n != 64 && va.toNat % n != 0 then .error ⟨va, 4, .none⟩
  else s.streamBytes part va n

/-- Address of element `n`, through its index word when IND = 1 (06 R134), and what the index read, unless it was read before. -/
def State.elemAddr (s : State) (p : Pattern) (part : StreamPart) (n : Nat) : Except ElemFault (Word × StreamGot) :=
  if p.ind then
    let ia := p.addr p.idx n
    let at' (v : Nat) : Word := p.base + (BitVec.ofNat 32 v).signExtend 64 * BitVec.ofNat 64 p.bytes
    match part.words.find? (·.1 == ia), s.streamRead ⟨[], part.words⟩ ia 4 with
    | some e, _ => .ok (at' e.2, .none)
    | none, .error e => .error { e with sub := e.sub ||| 0x20 }
    | none, .ok g => .ok (at' (leNat g.bytes), ⟨[], g.idx ++ g.src, [], (ia, leNat g.bytes) :: g.words⟩)
  else .ok (p.addr p.base n, .none)

/-- The queued pushes of a context's four streams in program order (11 R286). -/
def Ctx.allPushes (c : Ctx) : List Push :=
  sortBy (fun a b => decide (a.id < b.id)) (c.streams.toList.flatMap (·.pushes))

/-- Whether a push of the context before place `id` shares a home with homes reached on the STRM path (11 R286). -/
def Ctx.pushBefore (c : Ctx) (id : Nat) (sites : List (Path × Nat)) : Bool :=
  c.allPushes.any fun e => decide (e.id < id) && e.homes.any fun h => sites.contains (.strm, h)

/-- Whether a queued push may be performed: its regions are awake, no earlier push of the context goes to one of its homes,
and no earlier read of its words is left (11 R286, R293). -/
def State.pushFree (s : State) (e : Push) : Bool :=
  let keys := e.cells.map (·.1)
  s.powered keys && !s.ctx.pushBefore e.id (e.homes.map (.strm, ·)) && !s.readBefore e.id keys

/-- Perform a queued push that may be performed, or start the wakes it waits for. -/
def State.performPush (s : State) (e : Push) : State :=
  if s.pushFree e then
    State.performStore s.k false
      { s with ctx := { s.ctx with streams := s.ctx.streams.map fun t => { t with pushes := t.pushes.filter (·.id != e.id) } } }
      e.cells
  else s.wakeFor (e.cells.map (·.1))

/-- Perform the queued pushes of the context, in program order, as far as they may be performed (06 R144). -/
def State.drainAll (s : State) : State := s.ctx.allPushes.foldl State.performPush s

/-- The element `n` of a pattern: its value and what is read for it beside what was read before. -/
def State.elemRead (s : State) (p : Pattern) (part : StreamPart) (n : Nat) : Except ElemFault (VWord × StreamGot) :=
  match s.elemAddr p part n with
  | .error e => .error e
  | .ok (va, g) =>
    match s.streamRead part va p.bytes with
    | .error e => .error (e.after g)
    | .ok h => .ok (BitVec.ofNat 512 (leNat h.bytes), g.add h)

/-- What is read for an element or its address, whether it fails or not. -/
def gotOf {α : Type} (r : Except ElemFault (α × StreamGot)) : StreamGot :=
  match r with
  | .ok (_, g) => g
  | .error e => e.got

/-- Whether a stream's read must wait: a queued push of the context, or an outstanding access through a window, shares a home with it
on its path (11 R286), or an earlier access has still to read one of its words (R293). -/
def State.streamHeld (s : State) (g : StreamGot) : Bool :=
  s.ctx.pushBefore s.nextId g.sites || (s.ctx.pend.any fun p => g.sites.any fun h => h.1 == .gwin && p.sitesOf.contains h) ||
    s.readsAfter s.nextId g.keys

/-- Whether a fault slot keeps element `n` from being fetched (06 R145). -/
def Stream.faultAt (t : Stream) (n : Nat) : Bool :=
  match t.flt with
  | some f => decide (f.n ≤ n)
  | none => false

/-- Fetch the next element of read stream `k` (06 R143, R145). Pushes of the context at its homes come first, and a region
that sleeps is woken first; the element then is not fetched yet. -/
def State.fetchElem (s : State) (k : BitVec 2) : State :=
  let t := s.stream k
  let n := t.spos.toNat + t.got.length
  if !t.active || t.act.dir || t.faultAt n || t.act.total ≤ n then s
  else
    let s := if s.streamHeld (gotOf (s.elemRead t.act t.part n)) then s.drainAll else s
    let t := s.stream k
    let r := s.elemRead t.act t.part n
    let g := gotOf r
    if s.streamHeld g then s
    else if !s.powered g.keys then s.wakeFor g.keys
    else State.touchStream s.k (s.setStream k (match r with
      | .error e => { t with flt := some ⟨n, e.addr, e.sub⟩, sflt := e.addr, part := .none }
      | .ok (v, _) => { t with got := t.got ++ [v], part := .none })) g.keys

/-- What of an `n`-byte element at an address is read together with byte `j`, when a gather window holds it: the rest of the source
element of 1 to 8 bytes, or one byte of a 64-byte one (10 R282). -/
def State.partAt (s : State) (va : Word) (n j : Nat) : Option (Word × Nat) :=
  match s.site .r (va + BitVec.ofNat 64 j) with
  | .ok (.window w) =>
    if w.sz = 64 then some (va + BitVec.ofNat 64 j, 1)
    else
      let o := (va + BitVec.ofNat 64 j - w.wva).toNat % w.sz
      let back := min j o
      some (va + BitVec.ofNat 64 (j - back), back + min (n - j) (w.sz - o))
  | _ => none

/-- The part of the next element of read stream `k` that byte `j` lies in is read now, apart from its other bytes (10 R282). -/
def State.readPart (s : State) (k : BitVec 2) (j : Nat) : State :=
  let t := s.stream k
  let n := t.spos.toNat + t.got.length
  if !t.active || t.act.dir || t.faultAt n || t.act.total ≤ n || t.act.bytes ≤ j || 16 ≤ t.got.length then s
  else
    match s.elemAddr t.act t.part n with
    | .error _ => s
    | .ok (va, ig) =>
      match s.partAt va t.act.bytes j with
      | none => s
      | some (at', m) =>
        match s.streamBytes ⟨[], t.part.words ++ ig.words⟩ at' m with
        | .error _ => s
        | .ok g =>
          let g := ig.add g
          if (t.part.bytes.any fun e => e.1 == at') || s.streamHeld g then s
          else if s.powered g.keys then
            State.touchStream s.k (s.setStream k { t with
              part := ⟨t.part.bytes ++ g.bytes.zipIdx.map fun e => (at' + BitVec.ofNat 64 e.2, e.1),
                t.part.words ++ g.words.filter fun e => !(t.part.words.any (·.1 == e.1))⟩ }) g.keys
          else s.wakeFor g.keys

/-- Fetch until `n` elements wait. -/
def State.fetchUpTo (k : BitVec 2) : Nat → State → State
  | 0, s => s
  | n + 1, s =>
    let s := State.fetchUpTo k n s
    if (s.stream k).got.length ≤ n then s.fetchElem k else s

/-- Whether the elements that `n` pops of stream `k` need have arrived: fetched, or at a fault or the end (06 R141). -/
def State.arrived (s : State) (k : BitVec 2) (n : Nat) : Bool :=
  let t := s.stream k
  decide (n ≤ t.got.length) || t.faultAt (t.spos.toNat + t.got.length) || decide (t.act.total ≤ t.spos.toNat + t.got.length)

/-! ## The checks of R142 -/

/-- Binding uses (06 R141). -/
def checkUse (i : Instr) (c : Ctx) (u : Use) : Except Trap Unit :=
  match c.bound u.isV u.reg with
  | none => .ok ()
  | some k =>
    let dir := (c.streams[k.toNat]'(k.isLt)).act.dir
    match u.role with
    | .dst => require dir (illegal i)
    | .src => require (!dir) (illegal i)
    | .both => .error (illegal i)
    | .load => .error (illegal i)

/-- Row 1: registers named directly. -/
def checkDirect (i : Instr) (c : Ctx) : List Opnd → Except Trap Unit
  | [] => .ok ()
  | o :: r =>
    if o.op.rel then checkDirect i c r
    else if o.isV && c.valloc.toNat ≤ o.op.n.toNat then .error (illegal i)
    else
      match checkUse i c ⟨o.isV, o.op.n, o.role⟩ with
      | .error t => .error t
      | .ok _ => checkDirect i c r

/-- The register a relative operand selects (01 R29). -/
def relIndex (c : Ctx) (rimm : BitVec 6) (o : Opnd) : Except Trap Reg :=
  let x : Word := if o.op.n = 0 then 0 else c.x[o.op.n.toNat]'(o.op.n.isLt)
  let idx := x + rimm.signExtend 64
  let lim : Int := if o.isV then c.valloc.toNat else 32
  if idx.toInt < 0 || lim ≤ idx.toInt then .error (regidxTrap idx) else .ok (idx.extractLsb' 0 5)

/-- Row 2: every relative operand, in order. -/
def resolveOps (c : Ctx) (rimm : BitVec 6) : List Opnd → Except Trap (List Use)
  | [] => .ok []
  | o :: r =>
    match (if o.op.rel then relIndex c rimm o else .ok o.op.n) with
    | .error t => .error t
    | .ok n =>
      match resolveOps c rimm r with
      | .error t => .error t
      | .ok us => .ok (⟨o.isV, n, o.role⟩ :: us)

def checkUses (i : Instr) (c : Ctx) : List Use → Except Trap Unit
  | [] => .ok ()
  | u :: r =>
    match checkUse i c u with
    | .error t => .error t
    | .ok _ => checkUses i c r

/-- Rows 1 and 2 of R142. -/
def openUses (i : Instr) (c : Ctx) (rimm : BitVec 6) (ops : List Opnd) : Except Trap (List Use) :=
  match checkDirect i c ops with
  | .error t => .error t
  | .ok _ =>
    match resolveOps c rimm ops with
    | .error t => .error t
    | .ok us =>
      match checkUses i c us with
      | .error t => .error t
      | .ok _ => .ok us

/-- STREND and STRFAULT of stream `k`. -/
def strend (k : BitVec 2) (spos : Word) : Trap := ⟨9, k ++ (0 : BitVec 6), spos⟩
def strfault (k : BitVec 2) (sub : BitVec 6) (a : Word) : Trap := ⟨8, k ++ sub, a⟩

/-- How often uses name a stream's register as a source. -/
def popsOf (c : Ctx) (k : BitVec 2) (us : List Use) : Nat :=
  (us.filter fun u => u.role == .src && c.bound u.isV u.reg == some k).length

/-- How often uses name it as a destination. -/
def pushesOf (c : Ctx) (k : BitVec 2) (us : List Use) : Nat :=
  (us.filter fun u => u.role == .dst && c.bound u.isV u.reg == some k).length

/-- Fetch every element the instruction pops (06 R143: no later than its own pop). -/
def State.fetchUses (s : State) (us : List Use) : State :=
  ([0, 1, 2, 3] : List (BitVec 2)).foldl (fun s k => State.fetchUpTo k (popsOf s.ctx k us) s) s

/-- Whether every element the instruction pops has arrived. -/
def State.usesArrived (s : State) (us : List Use) : Bool :=
  ([0, 1, 2, 3] : List (BitVec 2)).all fun k => s.arrived k (popsOf s.ctx k us)

/-- Row 3: the values of the source operands in order; `seen` are the uses before. R142 has two checks of order 3: DESIGN CHOICE, both
are made of one pop before either is made of the next (log 48). -/
def State.readUses (s : State) (seen : List Use) : List Use → Except Trap (List VWord)
  | [] => .ok []
  | u :: r =>
    if u.role != .src then s.readUses seen r
    else
      match s.ctx.bound u.isV u.reg with
      | none =>
        match s.readUses (seen ++ [u]) r with
        | .error t => .error t
        | .ok vs => .ok ((if u.isV then s.v u.reg else (s.f u.reg).zeroExtend 512) :: vs)
      | some k =>
        let t := s.stream k
        let p := popsOf s.ctx k seen
        if t.act.total ≤ t.spos.toNat + p then .error (strend k t.spos)
        else
          match t.got[p]? with
          -- the element is the one in the fault slot; TVAL is what SFLT reads (R145, log 48)
          | none => .error (strfault k ((t.flt.map (·.sub)).getD 0) t.sflt)
          | some v =>
            match s.readUses (seen ++ [u]) r with
            | .error e => .error e
            | .ok vs => .ok (v :: vs)

/-- The keys of a write element of `n` bytes, byte by byte. -/
def State.pushKeys (s : State) (va : Word) : Nat → Except ElemFault (List Nat)
  | 0 => .ok []
  | n + 1 =>
    match s.site .w va with
    | .error e => .error ⟨va, streamSub e, .none⟩
    | .ok (.control _) => .error ⟨va, 2, .none⟩
    | .ok (.window _) => .error ⟨va, 2, .none⟩
    | .ok (.key a _ _) =>
      match s.pushKeys (va + 1) n with
      | .error e => .error e
      | .ok r => .ok (a :: r)

/-- Where element `n` of a write stream goes (06 R146): its address, its keys, what its index word read. -/
def State.pushPlace (s : State) (p : Pattern) (n : Nat) : Except ElemFault (Word × List Nat × StreamGot) :=
  match s.elemAddr p .none n with
  | .error e => .error e
  | .ok (va, g) =>
    if p.bytes != 64 && va.toNat % p.bytes != 0 then .error ⟨va, 4, .none⟩
    else
      match s.pushKeys va p.bytes with
      | .error e => .error e
      | .ok ks => .ok (va, ks, g)

/-- What the index words of the next `n` elements of a write stream read, if they have any. -/
def State.indexRead (s : State) (k : BitVec 2) (n : Nat) : StreamGot :=
  let t := s.stream k
  ((List.range n).map fun i => gotOf (s.elemAddr t.act .none (t.spos.toNat + i))).foldl .add .none

/-- The streams that uses push an element to that they still have. -/
def pushed (c : Ctx) (us : List Use) : List (BitVec 2) :=
  ([0, 1, 2, 3] : List (BitVec 2)).filter fun k =>
    let t := c.streams[k.toNat]'(k.isLt)
    pushesOf c k us != 0 && decide (t.spos.toNat < t.act.total)

/-- Before an instruction reads the index word of a push, earlier pushes at its home are performed and its region is woken
(11 R286, 10 R262). -/
def State.readyPushes (s : State) (us : List Use) : State :=
  (pushed s.ctx us).foldl (fun s k =>
    let s := if s.streamHeld (s.indexRead k (pushesOf s.ctx k us)) then s.drainAll else s
    s.wakeFor (s.indexRead k (pushesOf s.ctx k us)).keys) s

/-- Whether the index words of the pushes can be read. -/
def State.pushesReady (s : State) (us : List Use) : Bool :=
  (pushed s.ctx us).all fun k => let g := s.indexRead k (pushesOf s.ctx k us); !s.streamHeld g && s.powered g.keys

/-- The index words of the pushes have been read (11 R287). -/
def State.touchPushes (s : State) (us : List Use) : State :=
  (pushed s.ctx us).foldl (fun s k => State.touchStream s.k s (s.indexRead k (pushesOf s.ctx k us)).keys) s

/-- Row 4: the pushes; `seen` are the uses before. -/
def State.checkPushes (s : State) (seen : List Use) : List Use → Except Trap Unit
  | [] => .ok ()
  | u :: r =>
    if u.role != .dst then s.checkPushes seen r
    else
      match s.ctx.bound u.isV u.reg with
      | none => s.checkPushes (seen ++ [u]) r
      | some k =>
        let t := s.stream k
        let n := t.spos.toNat + pushesOf s.ctx k seen
        if t.act.total ≤ n then .error (strend k t.spos)
        else
          match s.pushPlace t.act n with
          | .error e => .error (strfault k e.sub e.addr)
          | .ok _ => s.checkPushes (seen ++ [u]) r

/-! ## Completing -/

/-- Advance SPOS by `n`, dropping popped elements and setting ENDED (06 R141, R147). -/
def Stream.advance (t : Stream) (n : Nat) : Stream :=
  { t with
    spos := t.spos + BitVec.ofNat 64 n
    got := t.got.drop n
    part := .none
    ended := decide (t.act.total ≤ t.spos.toNat + n) }

/-- Commit the pops of an instruction. -/
def State.commitPops (s : State) (us : List Use) : State :=
  ([0, 1, 2, 3] : List (BitVec 2)).foldl
    (fun s k => let n := popsOf s.ctx k us; if n = 0 then s else s.setStream k ((s.stream k).advance n)) s

/-- Push a result on write stream `k`; its place has been checked. -/
def State.push (s : State) (k : BitVec 2) (v : VWord) : State :=
  let t := s.stream k
  match s.pushPlace t.act t.spos.toNat with
  | .error _ => s
  | .ok (va, keys, g) =>
    let cells := keys.zip (leBytes t.act.bytes v.toNat)
    let homes := keys.zipIdx.map fun e => s.homeAt (va + BitVec.ofNat 64 e.2) e.1
    State.touchStream s.k
      { s.setStream k { t.advance 1 with pushes := t.pushes ++ [⟨s.nextId, cells, homes⟩] } with nextId := s.nextId + 1 } g.keys

/-- Write a result to an f or v register, or push it when the register is bound. -/
def State.writeF (s : State) (r : Reg) (w : Word) : State :=
  match s.ctx.bound false r with
  | none => s.setF r w
  | some k => s.push k (w.zeroExtend 512)

def State.writeV (s : State) (r : Reg) (w : VWord) : State :=
  match s.ctx.bound true r with
  | none => s.setV r w
  | some k => s.push k w

/-- Whether a v register is bound, so that it has no current value (05 R114). -/
def State.vBound (s : State) (r : Reg) : Bool := (s.ctx.bound true r).isSome

/-- What an instruction's operation gives: the flags it raises and its effect beyond the pops and the flags. -/
abbrev Effect := Except Trap (Flags × (State → State))

/-- The rows of R142 in order, once every popped element has arrived and every index word of a push can be read, then the
operation, on the registers in the order d, a, b, c and the source values in the order a, b, c; FPX if an enabled flag is
raised, else the pops, the flags, the effect, and the retirement (04 R104, 05 R115). `idx` are the index words of gather windows that
the operation reads, after those checks. -/
def State.operateWhen (s : State) (i : Instr) (rimm : BitVec 6) (ops : List Opnd) (idx : List VWord → List LaneSrc)
    (op : List Reg → List VWord → Effect) : Out :=
  match openUses i s.ctx rimm ops with
  | .error t => .next (s.trap t)
  | .ok us =>
    let s := (s.fetchUses us).readyPushes us
    if !s.usesArrived us || !s.pushesReady us then .next (s.stall .counters)
    else
      match s.readUses [] us with
      | .error t => .next (s.trap t)
      | .ok vals =>
        match s.checkPushes [] us with
        | .error t => .next ((s.touchPushes us).trap t)
        | .ok _ =>
          s.whenIndexed (idx vals) fun s =>
            match op (us.map (·.reg)) vals with
            | .error t => .next ((s.touchPushes us).trap t)
            | .ok (fl, eff) =>
              .next ((if s.fpTraps fl then s.touchPushes us else s).raising fl fun s => (eff (s.commitPops us)).retire 8)

/-- The same for an operation that nothing holds back. -/
def State.operate (s : State) (i : Instr) (rimm : BitVec 6) (ops : List Opnd) (op : List Reg → List VWord → Effect) : Out :=
  s.operateWhen i rimm ops (fun _ => []) op

/-- Register `n` of an instruction's operands. -/
def rg (l : List Reg) (n : Nat) : Reg := l.getD n 0

/-- Source value `n`. -/
def sv (l : List VWord) (n : Nat) : VWord := l.getD n 0

/-- Source value `n` of an f register. -/
def sf (l : List VWord) (n : Nat) : Word := (l.getD n 0).extractLsb' 0 64

end Sys2Proof.Machine
end

