-- ==== Sys2Proof/Machine/Regs.lean ====
section
/-! DEFINITION. The x, f and v registers an instruction names, in the order d, a, b, c: what issue compares with outstanding
loads (04 R101), with a replay's body (06 R156) and with unwritten VFMA.D results (17 R385). Mask and tile registers wait for
nothing there. -/

namespace Sys2Proof.Machine

open Sys2Proof

inductive RFile where
  | x | f | v
  deriving DecidableEq, Repr

/-- A register an instruction names, and whether it writes it. -/
structure Named where
  file : RFile
  op   : ROp
  w    : Bool
  deriving DecidableEq, Repr

def xR (r : Reg) : Named := ⟨.x, direct r, false⟩
def xW (r : Reg) : Named := ⟨.x, direct r, true⟩
def fR (o : ROp) : Named := ⟨.f, o, false⟩
def fW (o : ROp) : Named := ⟨.f, o, true⟩
def vR (o : ROp) : Named := ⟨.v, o, false⟩
def vW (o : ROp) : Named := ⟨.v, o, true⟩

/-- The scalar register of a vector instruction: f at FP widths, else x. -/
def scR (e : Ew) (o : ROp) : Named := if ewFp e then fR o else ⟨.x, ⟨o.n, false⟩, false⟩
  where ewFp : Ew → Bool
    | .s => true
    | .d => true
    | _ => false

def scW (e : Ew) (o : ROp) : Named := { scR e o with w := true }

/-- The registers of an FCVT: a W or L side is an x register. -/
def fcvtRegs (c : FCvt) (d a : ROp) : List Named :=
  let x (o : ROp) (w : Bool) : Named := ⟨.x, ⟨o.n, false⟩, w⟩
  match c with
  | .sd => [fW d, fR a]
  | .ds => [fW d, fR a]
  | .sw => [fW d, x a false]
  | .sl => [fW d, x a false]
  | .dw => [fW d, x a false]
  | .dl => [fW d, x a false]
  | .ws => [x d true, fR a]
  | .ls => [x d true, fR a]
  | .wd => [x d true, fR a]
  | .ld => [x d true, fR a]

/-- x10 to x13, which a message takes as arguments (08 R205). -/
def argRegs : List Named := [xR 10, xR 11, xR 12, xR 13]

/-- The registers of instructions with x operands only. -/
def xNamed (i : Instr) : List Named :=
  match i with
  | .add d a b | .sub d a b | .and d a b | .or d a b | .xor d a b | .sll d a b | .srl d a b | .sra d a b
  | .slt d a b | .sltu d a b | .min d a b | .max d a b | .minu d a b | .maxu d a b | .mul d a b | .mulh d a b
  | .mulhu d a b | .div d a b | .divu d a b | .rem d a b | .remu d a b => [xW d, xR a, xR b]
  | .sel d a b c => [xW d, xR a, xR b, xR c]
  | .clz d a | .ctz d a | .popc d a => [xW d, xR a]
  | .addi d a _ | .andi d a _ | .ori d a _ | .xori d a _ | .slti d a _ => [xW d, xR a]
  | .slli d a _ | .srli d a _ | .srai d a _ => [xW d, xR a]
  | .bfx d a _ _ => [xW d, xR a]
  | .bfi d a _ _ => [xW d, xR d, xR a]
  | .ldhi d _ | .addpc d _ => [xW d]
  | .li d _ | .leaPc d _ => [xW d]
  | .lea d a _ => [xW d, xR a]
  | .li64 d _ => [xW d]
  | .beq a b _ | .bne a b _ | .blt a b _ | .bge a b _ | .bltu a b _ | .bgeu a b _ => [xR a, xR b]
  | .jal d _ => [xW d]
  | .jalr d a _ => [xW d, xR a]
  | .jl d _ => [xW d]
  | .ld d a _ _ _ => [xW d, xR a]
  | .st d a _ _ => [xR d, xR a]
  | .mpop d _ | .mfirst d _ | .msetX d _ => [xW d]
  | .mset _ a => [xR a]
  | .scfg _ _ a => [xR a]
  | .sstat d _ => [xW d]
  | .frep a _ => [xR a]
  | .tld _ a b _ _ _ | .ttld _ a b _ _ _ => [xR a, xR b]
  | .tst _ a b _ => [xR a, xR b]
  | .fork a | .haltJ a | .haltK a | .tdone a | .send a => [xR a]
  | .jrec a b c => [xR a, xR b, xR c]
  | .tqput d a b | .qrnd d a b => [xW d, xR a, xR b]
  | .gqnext d => [xW d]
  | .haltM => [xR 10, xR 11]
  | .sendr a b => [xR a, xR b] ++ argRegs
  | .callat a b c => [xR a, xR b, xR c] ++ argRegs
  | .amo _ _ _ _ d a b c _ => [xW d, xR a, xR b, xR c]
  | .lda d a _ _ _ => [xW d, xR a]
  | .stl d a _ _ => [xR d, xR a]
  | .arrive d a _ => [xW d, xR a]
  | .await a _ b | .arrwait a _ b => [xR a, xR b]
  | .dcopy d a _ _ | .sortc d a _ _ => [xW d, xR a]
  | .ddec d a b c _ _ => [xW d, xR a, xR b, xR c]
  | .dtbl d a _ _ => [xW d, xR a]
  | .bindw d a b c _ _ => [xR d, xR a, xR b, xR c]
  | .dstat d _ => [xW d]
  | .wdrun d a => [xW d, xR a]
  | .csrr d _ => [xW d]
  | .csrw d _ a | .csrs d _ a | .csrc d _ a => [xW d, xR a]
  | .tlbi a _ => [xR a]
  | _ => []

/-- The destination is read when inactive lanes keep their values. -/
def keepR (msk : MReg) (z : Bool) (d : ROp) : List Named := if msk == 0 || z then [] else [vR d]

/-- The scalar operand of a VCVT between plane and FP formats, or the second half of code 0. -/
def vcvtB (code : Reg) (b : ROp) : List Named :=
  if code = 0 then [vR b] else if 15 ≤ code.toNat then [fR b] else []

/-- The registers of instructions that use f or v registers, and their RIMM. -/
def fvNamed (i : Instr) : List Named × BitVec 6 :=
  match i with
  | .fld d a _ _ => ([fW (direct d), xR a], 0)
  | .fst d a _ _ => ([fR (direct d), xR a], 0)
  | .fadd d a b k | .fsub d a b k | .fmul d a b k | .fdiv d a b k => ([fW d, fR a, fR b], k.rimm)
  | .fsqrt d a k => ([fW d, fR a], k.rimm)
  | .fmin d a b _ r | .fmax d a b _ r => ([fW d, fR a, fR b], r)
  | .feq d a b _ r | .flt d a b _ r | .fle d a b _ r => ([xW d, fR a, fR b], r)
  | .fclass d a _ r | .fmvX d a _ r => ([xW d, fR a], r)
  | .fsgn d a b _ _ r => ([fW d, fR a, fR b], r)
  | .fmvF d a _ r => ([fW d, xR a], r)
  | .fcvt c d a _ r => (fcvtRegs c d a, r)
  | .fma d a b c k | .fms d a b c k | .fnma d a b c k | .fnms d a b c k => ([fW d, fR a, fR b, fR c], k.rimm)
  | .vadd d a b k | .vsub d a b k | .vmul d a b k | .vdiv d a b k | .vmin d a b k | .vmax d a b k | .vand d a b k
  | .vor d a b k | .vxor d a b k | .vshl d a b k | .vshr d a b k | .vsra d a b k | .vperm d a b k =>
    (keepR k.msk k.z d ++ [vW d, vR a, vR b], k.rimm)
  | .vsqrt d a k | .vabs d a k | .vneg d a k | .vexp2 d a k | .vrcp d a k | .vrsq d a k =>
    (keepR k.msk k.z d ++ [vW d, vR a], k.rimm)
  | .vcmp _ a b _ k => ([vR a, vR b], k.rimm)
  | .vsel d a b _ k => (keepR k.msk k.z d ++ [vW d, vR a, vR b], k.rimm)
  | .vcvt code d a b k => ([vW d, vR d, vR a] ++ vcvtB code b, k.rimm)
  | .vfma d a b c k | .vfms d a b c k => (keepR k.msk k.z d ++ [vW d, vR a, vR b, vR c], k.rimm)
  | .vbcast d a k => (keepR k.msk k.z d ++ [vW d, scR k.ew a], k.rimm)
  | .vins d a b k => ([vW d, vR d, scR k.ew a, xR b], k.rimm)
  | .vext d a b k => ([scW k.ew d, vR a, xR b], k.rimm)
  | .vslide d a b c k => (keepR k.msk k.z d ++ [vW d, vR a, vR b, xR c], k.rimm)
  | .vredsum d a b k | .vredmax d a b k | .vredmin d a b k => ([scW k.ew d, vR a, scR k.ew b], k.rimm)
  | .vtopk d a b c k | .vtopkm d a b c k => ([vW d, vR d, vR a, xR b, vW c, vR c], k.rimm)
  | .vsortk d a c k => ([vW d, vR a, vW c], k.rimm)
  | .vld d a k => (keepR k.msk k.z d ++ [vW d, xR a], k.rimm)
  | .vst d a k => ([vR d, xR a], k.rimm)
  | .vlds d a b k => (keepR k.msk k.z d ++ [vW d, xR a, xR b], k.rimm)
  | .vgath d a b k => (keepR k.msk k.z d ++ [vW d, xR a, vR b], k.rimm)
  | .vscat d a b k => ([vR d, xR a, vR b], k.rimm)
  | .tmovFr d _ _ => ([vW (direct d)], 0)
  | .tmovTo d _ _ => ([vR (direct d)], 0)
  | .ldp d a _ _ _ => ([vW (direct d), xR a], 0)
  | .stp d a _ _ => ([vR (direct d), xR a], 0)
  | .pscl d a _ => ([fW (direct d), xR a], 0)
  | .prescale d a _ b => ([xW d, xR a, xR b], 0)
  | .paxpy d a _ b => ([fR (direct d), xR a, vR (direct b)], 0)
  | .psgdm d a _ b c => ([fR (direct d), xR a, vR (direct b), xR c], 0)
  | .baddq a _ b => ([xR a, xR b], 0)
  | _ => ([], 0)

/-- A register that is read or written. -/
structure RegUse where
  file : RFile
  n    : Reg
  w    : Bool
  deriving DecidableEq, Repr

/-- The registers a named operand stands for: a relative one reads its index and names the register it selects. -/
def Named.uses (c : Ctx) (rimm : BitVec 6) (o : Named) : List RegUse :=
  if o.op.rel then
    ⟨.x, o.op.n, false⟩ :: (match relIndex c rimm ⟨o.file == .v, o.op, .src⟩ with | .ok r => [⟨o.file, r, o.w⟩] | .error _ => [])
  else [⟨o.file, o.op.n, o.w⟩]

/-- Every register an instruction reads or writes; x0 is none. -/
def regUses (c : Ctx) (i : Instr) : List RegUse :=
  ((xNamed i).flatMap (·.uses c 0) ++ (fvNamed i).1.flatMap (·.uses c (fvNamed i).2)).filter fun u => !(u.file == .x && u.n == 0)

/-- The decode rule on v registers (02 R55, 01 R30): every one named directly is allocated. -/
def vallocOk (c : Ctx) (i : Instr) : Bool :=
  ((fvNamed i).1.all fun o => o.file != .v || o.op.rel || decide (o.op.n.toNat < c.valloc.toNat)) &&
    match i with
    | .sstart d _ bv => !bv || decide (d.toNat < c.valloc.toNat)
    | _ => true

end Sys2Proof.Machine
end

