-- ==== Sys2Proof/Machine/Csr.lean ====
section
/-! DEFINITION. The CSR map (01 R20 to R28, 03 R84, 06 R152, 09 R230, R231, 15 R364, 16 R367, R376 to R379): who may access
each register, its value, and the effect of a write. -/

namespace Sys2Proof.Machine

open Sys2Proof

/-! ## Access (R21 to R23) -/

/-- Lowest privileges that may read and write the CSR at an address of core `k`: 0 U, 1 S, 3 M; `none` as the second
component where nothing may write; `none` as a whole where the address is unallocated. -/
def csrAccess (k : Nat) (a : Nat) : Option (BitVec 2 × Option (BitVec 2)) :=
  if a = 0x000 then some (0, some 0)
  else if a = 0x001 || a = 0x002 then some (0, none)
  else if a = 0x003 then some (0, some 1)
  else if a = 0x004 || a = 0x008 then some (0, none)
  else if a = 0x009 || a = 0x00A then some (0, some 1)
  else if 0x010 ≤ a && a ≤ 0x017 then some (0, some 0)
  else if a = 0x020 || a = 0x023 then some (0, none)
  else if a = 0x021 || a = 0x022 then some (0, some 1)
  else if 0x040 ≤ a && a ≤ 0x042 then some (0, some 0)
  else if 0x043 ≤ a && a ≤ 0x045 then some (0, some 1)
  else if a = 0x048 then (if isGateway k then some (0, some 0) else none)
  else if 0x100 ≤ a && a < 0x140 then
    (if a % 16 ≤ 10 then some (0, some 0) else if a % 16 ≤ 12 then some (0, some 1) else none)
  else if 0x180 ≤ a && a ≤ 0x187 then some (0, some 1)
  else if 0x188 ≤ a && a ≤ 0x190 then some (1, some 1)
  else if 0x1C0 ≤ a && a ≤ 0x1CF then some (0, none)
  else if 0x400 ≤ a && a ≤ 0x40A then some (1, some 1)
  else if 0x410 ≤ a && a ≤ 0x417 then some (1, some 1)
  else if 0x800 ≤ a && a ≤ 0x804 then (if isMaster k then some (3, some 3) else none)
  else none

/-- Whether a CSR belongs to the matrix unit (R17). -/
def isTshape (a : Nat) : Bool := 0x010 ≤ a && a ≤ 0x017

/-- Whether a CSR names a stream pattern register (R28, 06 R156). -/
def isPattern (a : Nat) : Bool := 0x100 ≤ a && a < 0x140 && a % 16 ≤ 10

/-! ## Values -/

/-- STATUS (R24). -/
def State.status (s : State) : Word :=
  let c := s.ctx
  bitAt c.abt 11 ||| bitAt c.hvn 10 ||| bitAt c.hnd 9 ||| bitAt s.tclm 8 ||| bitAt c.wd.wdm 7 ||| bitAt c.arrv 6 |||
    n64 c.pprv <<< 4 ||| n64 c.prv <<< 2 ||| bitAt c.pie 1 ||| bitAt c.ie 0

/-- FCSR (R24). -/
def Ctx.fcsr (c : Ctx) : Word := n64 c.te <<< 8 ||| n64 c.rm <<< 5 ||| n64 c.flags

/-- OPCNT (R25). -/
def State.opcnt (s : State) : Word :=
  BitVec.ofNat 64 (s.tlc % 256 * 2 ^ 24 + s.ctx.cpc % 256 * 2 ^ 16 + s.ctx.stc % 256 * 2 ^ 8 + s.ctx.ldc % 256)

/-- WDSTAT.SUB: 0 while an event holds the train (R238), else the subcode of the last WDBLK trap (21 R407; log 47). -/
def Train.subNow (t : Train) : BitVec 8 := if t.held then 0 else t.sub

/-- WDSTAT (09 R230). -/
def Train.stat (t : Train) : Word := n64 t.nblk <<< 24 ||| n64 t.opc <<< 16 ||| n64 t.subNow <<< 8 ||| n64 t.state

def TShape.word (t : TShape) : Word := n64 t.cols <<< 16 ||| n64 t.rows <<< 8 ||| n64 t.wid

/-- FREPCTL and FREPIT (R25, 06 R152). -/
def Replay.ctl (r : Replay) : Word := bitAt r.act 5 ||| n64 r.len
def Replay.it (r : Replay) : Word := bitAt r.bt 63 ||| n64 r.slot <<< 32 ||| n64 r.iter

/-- The RW fields of SCTL (R27). -/
def Pattern.ctl (p : Pattern) : Word := n64 p.dims <<< 7 ||| bitAt p.ind 6 ||| n64 p.wid <<< 3 ||| bitAt p.dir 2

/-- The RO fields of SCTL. -/
def Stream.roCtl (t : Stream) : Word :=
  n64 t.breg <<< 11 ||| bitAt t.bv 10 ||| bitAt t.flt.isSome 9 ||| bitAt t.ended 1 ||| bitAt t.active 0

/-- Stream register at an offset (R27, R28). -/
def Stream.reg (t : Stream) (off : Nat) : Word :=
  match off with
  | 0 => t.roCtl ||| t.pending.ctl
  | 1 => t.pending.base
  | 2 => n64 (t.pending.bnd[0])
  | 3 => n64 (t.pending.bnd[1])
  | 4 => n64 (t.pending.bnd[2])
  | 5 => n64 (t.pending.bnd[3])
  | 6 => (t.pending.stride[0]).signExtend 64
  | 7 => (t.pending.stride[1]).signExtend 64
  | 8 => (t.pending.stride[2]).signExtend 64
  | 9 => (t.pending.stride[3]).signExtend 64
  | 10 => t.pending.idx
  | 11 => t.spos
  | _ => t.sflt

/-- NUMREC0 to NUMREC5 (03 R84). -/
def numrec (n : Nat) : Word :=
  match n with
  | 0 => 0x00012030080F0310
  | 1 => 0x00012030080F0311
  | 2 => 0x0001202008000012
  | 3 => 0x00012040040F0313
  | 4 => 0x0001200000180314
  | 5 => 0x0001400000180315
  | _ => 0

/-- CID (R20). -/
def State.cid (s : State) : Word := n64 s.dev.devnum <<< 16 ||| n64 (cidOf s.cur)

/-- CYCLE of the current core (R22, R25, 17 R386). -/
def State.cycle (s : State) : Word := (s.island (islandOf s.k)).cycle + s.core.cycOff

/-- DRPST as it reads in the cycle that begins (16 R367). -/
def Island.drpst (i : Island) : Word :=
  let x := i.settled
  n64 x.ltime <<< 32 ||| n64 x.cnt <<< 16 ||| n64 x.mrg <<< 8 ||| bitAt x.window.isSome 1 ||| bitAt (x.stretch != 0) 0

/-- The value of the CSR at an allocated address. -/
def State.csr (s : State) (a : Nat) : Word :=
  let c := s.ctx
  let k := s.core
  if a = 0x000 then c.fcsr
  else if a = 0x001 then s.cid
  else if a = 0x002 then n64 c.valloc
  else if a = 0x003 then n64 c.eff <<< 8 ||| n64 c.lvl
  else if a = 0x004 then s.opcnt
  else if a = 0x008 then s.timeOf s.k
  else if a = 0x009 then s.cycle
  else if a = 0x00A then c.instret
  else if isTshape a then (s.tshape (BitVec.ofNat 3 a)).word
  else if a = 0x020 then c.rep.ctl
  else if a = 0x021 then n64 c.rep.cnt
  else if a = 0x022 then c.rep.it
  else if a = 0x023 then c.rep.pc
  else if a = 0x040 then c.wd.base
  else if a = 0x041 then c.wd.out
  else if a = 0x042 then c.wd.cond
  else if a = 0x043 then c.wd.blk
  else if a = 0x044 then c.wd.stat
  else if a = 0x045 then c.wd.rpc
  else if a = 0x048 then n64 k.gqNext <<< 32 ||| n64 k.gqCount
  else if a < 0x140 then (s.stream (BitVec.ofNat 2 (a / 16))).reg (a % 16)
  else if a < 0x188 then n64 (k.pmc.toList.getD (a % 8) 0)
  else if a < 0x190 then k.pmcsel.toList.getD (a % 8) 0
  else if a = 0x190 then n64 k.pmcovf
  else if a < 0x1D0 then numrec (a % 16)
  else if a = 0x400 then s.status
  else if a = 0x401 then k.tvec
  else if a = 0x402 then c.epc
  else if a = 0x403 then c.cause
  else if a = 0x404 then c.tval
  else if a = 0x405 then c.scratch
  else if a = 0x406 then c.tcmp
  else if a = 0x407 then n64 k.hres
  else if a = 0x408 then n64 c.psat
  else if a = 0x409 then n64 (s.island (islandOf s.k)).step
  else if a = 0x40A then (s.island (islandOf s.k)).drpst
  else if a < 0x418 then k.mon.toList.getD (a % 8) 0
  else if a = 0x800 then k.mtvec
  else if a = 0x801 then k.mepc
  else if a = 0x802 then k.mcause
  else if a = 0x803 then k.mtval
  else k.mscratch

/-- The RW fields of the CSR at an address; W1C fields are not among them (R21, R334). -/
def csrRw (a : Nat) : Word :=
  if a = 0x000 then 0x1FFF
  else if a = 0x003 then 0x7F
  else if isTshape a then 0x7F1F07
  else if a = 0x021 then 0xFFFFFFFF
  else if a = 0x022 then 0x8000000FFFFFFFFF
  else if a = 0x043 then 0xFFFFFFFFFFFFFFE0
  else if a = 0x044 then 0xFFFFFFFF00
  else if a = 0x045 then 0xFFFFFFFFFFFFFFFC
  else if a = 0x048 then 0xFFFFFFFF
  else if 0x100 ≤ a && a < 0x140 then
    (if a % 16 = 0 then 0x1FC else if 2 ≤ a % 16 && a % 16 ≤ 9 then 0xFFFFFFFF else 0xFFFFFFFFFFFFFFFF)
  else if 0x180 ≤ a && a ≤ 0x187 then 0xFFFFFFFFFFFF
  else if 0x188 ≤ a && a ≤ 0x18F then 0xFF80FF
  else if a = 0x190 then 0
  else if a = 0x400 then 0x73
  else if a = 0x401 || a = 0x800 then 0xFFFFFFFFFFFFFFE0
  else if a = 0x403 || a = 0x802 then 0x800000000000FFFF
  else if a = 0x407 then 7
  else if a = 0x408 then 0xFFFFFFFF
  else if a = 0x409 then 0x1F
  else if a = 0x40A then 0xFFFFFF00
  else if 0x410 ≤ a && a ≤ 0x417 then 0xFFFFFFFFFFFFFF81
  else 0xFFFFFFFFFFFFFFFF

/-! ## Writes with a rule of their own

Each takes the written value and the trap a refused value raises: ILLEGAL with SUB 3 for a CSR access refused by R21, with
SUB 0 for a rule that names no subcode (13 R318; log 15). -/

/-- What a refused write raises: a reserved encoding (R21), or a rule of the CSR's own. -/
structure Refuse where
  enc : Trap
  own : Trap
  deriving DecidableEq, Repr

def writeHres (v : Word) (r : Refuse) (s : State) : Except Trap State :=
  if v.extractLsb' 0 3 = 0 then .error r.enc
  else .ok { s with core := { s.core with hres := v.extractLsb' 0 3 } }

/-- PRIO: EFF and the aging count are reset (R25). -/
def writePrio (v : Word) (s : State) : State :=
  { s with ctx := { s.ctx with lvl := v.extractLsb' 0 7, eff := v.extractLsb' 0 7, aging := 0 } }

/-- CYCLE: `v` is the count of cycles before the next one (R25). -/
def writeCycle (v : Word) (s : State) : State :=
  { s with core := { s.core with cycOff := v - ((s.island (islandOf s.k)).cycle + 1) } }

/-- Bytes of an element of a TSHAPE width code (R26). -/
def tileBytes (wid : BitVec 3) : Nat :=
  match wid.toNat with
  | 0 => 1
  | 1 => 1
  | 2 => 2
  | 3 => 4
  | _ => 8

/-- Whether a shape fits a 128-byte row (R26). -/
def TShape.fits (t : TShape) : Bool := (t.cols.toNat + 1) * tileBytes t.wid ≤ 128

def writeTshape (t : Tile) (v : Word) (r : Refuse) (s : State) : Except Trap State :=
  let sh : TShape := ⟨v.extractLsb' 16 7, v.extractLsb' 8 5, v.extractLsb' 0 3⟩
  if 4 < sh.wid.toNat then .error r.enc
  else if !sh.fits then .error r.own
  else .ok (s.setTshape t sh)

/-- SPOS (06 R148). -/
def writeSpos (k : BitVec 2) (v : Word) (s : State) : State :=
  let t := s.stream k
  let p : Word := v &&& 0xFFFFFFFFFFFF
  if t.active then
    s.setStream k { t with spos := p, got := [], part := .none, flt := none, ended := decide (t.act.total ≤ p.toNat) }
  else s.setStream k { t with spos := p }

/-- FREPCNT and FREPIT (06 R152, R159). -/
def writeFrepit (cnt : Bool) (v : Word) (r : Refuse) (s : State) : Except Trap State :=
  let p := s.ctx.rep
  if cnt then .ok { s with ctx := { s.ctx with rep := { p with cnt := v.extractLsb' 0 32 } } }
  else if p.act && p.len.toNat ≤ (v.extractLsb' 32 4).toNat then .error r.own
  else
    .ok { s with ctx := { s.ctx with
      rep := { p with bt := v.getLsbD 63, slot := v.extractLsb' 32 4, iter := v.extractLsb' 0 32 } } }

def writeWdrpc (v : Word) (s : State) : State :=
  { s with ctx := { s.ctx with wd := { s.ctx.wd with rpc := v &&& 0xFFFFFFFFFFFFFFFC } } }

def writePsat (v : Word) (s : State) : State := { s with ctx := { s.ctx with psat := v.extractLsb' 0 32 } }

def writePmc (n : BitVec 3) (v : Word) (s : State) : State :=
  { s with core := { s.core with pmc := s.core.pmc.set n.toNat (v.extractLsb' 0 48) n.isLt } }

/-- MONn (16 R378): FIRED is cleared where `w1c` and the value hold 1. -/
def writeMon (n : BitVec 3) (v : Word) (w1c : Bool) (r : Refuse) (s : State) : Except Trap State :=
  if 8 < (v.extractLsb' 28 4).toNat || 5 < (v.extractLsb' 9 3).toNat then .error r.enc
  else
    let old := s.core.mon[n.toNat]'(n.isLt)
    let fired := old.getLsbD 1 && !(w1c && v.getLsbD 1)
    .ok { s with core := { s.core with mon := s.core.mon.set n.toNat (v &&& csrRw 0x410 ||| bitAt fired 1) n.isLt } }

/-- DRPST: the write comes first, and what the detector did in the same cycle is counted after it (16 R368). -/
def writeDrpst (v : Word) (s : State) : State :=
  s.setIsland (islandOf s.k) ((s.island (islandOf s.k)).writeSt s.k (v.extractLsb' 16 16) (v.extractLsb' 8 8))

/-- DRPTH: STEP. -/
def writeDrpth (v : Word) (s : State) : State :=
  s.setIsland (islandOf s.k) ((s.island (islandOf s.k)).writeStep s.k (v.extractLsb' 0 5))

/-- GQJOB: a new job from index 0 (15 R364). -/
def writeGqjob (v : Word) (s : State) : State :=
  { s with core := { s.core with gqCount := v.extractLsb' 0 32, gqNext := 0 } }

/-- A pattern register of stream `k` (06 R137): the pending copy. -/
def writePattern (k : BitVec 2) (off : Nat) (v : Word) (s : State) : State :=
  let t := s.stream k
  let p := t.pending
  let p := match off with
    | 0 => { p with dims := v.extractLsb' 7 2, ind := v.getLsbD 6, wid := v.extractLsb' 3 3, dir := v.getLsbD 2 }
    | 1 => { p with base := v }
    | 2 => { p with bnd := p.bnd.set 0 (v.extractLsb' 0 32) }
    | 3 => { p with bnd := p.bnd.set 1 (v.extractLsb' 0 32) }
    | 4 => { p with bnd := p.bnd.set 2 (v.extractLsb' 0 32) }
    | 5 => { p with bnd := p.bnd.set 3 (v.extractLsb' 0 32) }
    | 6 => { p with stride := p.stride.set 0 (v.extractLsb' 0 32) }
    | 7 => { p with stride := p.stride.set 1 (v.extractLsb' 0 32) }
    | 8 => { p with stride := p.stride.set 2 (v.extractLsb' 0 32) }
    | 9 => { p with stride := p.stride.set 3 (v.extractLsb' 0 32) }
    | _ => { p with idx := v }
  s.setStream k { t with pending := p }

/-- SCTL with WID 5 to 7 is refused (06 R137). -/
def badSctl (off : Nat) (v : Word) : Bool := off == 0 && decide (4 < (v.extractLsb' 3 3).toNat)

/-- STATUS: PPRV 0b10 is reserved, and 0b11 on every core but the station master (R19, R24). -/
def writeStatus (v : Word) (r : Refuse) (s : State) : Except Trap State :=
  let p : BitVec 2 := v.extractLsb' 4 2
  if p = 2 || (p = 3 && !isMaster s.k) then .error r.enc
  else .ok { s with ctx := { s.ctx with arrv := v.getLsbD 6, pprv := p, pie := v.getLsbD 1, ie := v.getLsbD 0 } }

/-- The effect of placing `v` into the CSR at an address whose access has been allowed; `w1c` when ones clear W1C fields
(R334). -/
def csrPut (a : Nat) (v : Word) (w1c : Bool) (r : Refuse) (s : State) : Except Trap State :=
  let c := s.ctx
  let k := s.core
  if a = 0x000 then
    (if 3 < (v.extractLsb' 5 3).toNat then .error r.enc
     else .ok { s with ctx := { c with te := v.extractLsb' 8 5, rm := v.extractLsb' 5 3, flags := v.extractLsb' 0 5 } })
  else if a = 0x003 then .ok (writePrio v s)
  else if a = 0x009 then .ok (writeCycle v s)
  else if a = 0x00A then .ok { s with ctx := { c with instret := v } }
  else if isTshape a then writeTshape (BitVec.ofNat 3 a) v r s
  else if a = 0x021 then writeFrepit true v r s
  else if a = 0x022 then writeFrepit false v r s
  else if a = 0x040 then .ok { s with ctx := { c with wd := { c.wd with base := v } } }
  else if a = 0x041 then .ok { s with ctx := { c with wd := { c.wd with out := v } } }
  else if a = 0x042 then .ok { s with ctx := { c with wd := { c.wd with cond := v } } }
  else if a = 0x043 then .ok { s with ctx := { c with wd := { c.wd with blk := v &&& 0xFFFFFFFFFFFFFFE0, ending := none, block := none } } }
  else if a = 0x044 then
    .ok { s with ctx := { c with
      wd := { c.wd with nblk := v.extractLsb' 24 16, opc := v.extractLsb' 16 8, sub := v.extractLsb' 8 8, held := false } } }
  else if a = 0x045 then .ok (writeWdrpc v s)
  else if a = 0x048 then .ok (writeGqjob v s)
  else if 0x100 ≤ a && a < 0x140 then
    let i : BitVec 2 := BitVec.ofNat 2 (a / 16)
    if a % 16 = 11 then .ok (writeSpos i v s)
    else if a % 16 = 12 then .ok (s.setStream i { s.stream i with sflt := v })
    else if badSctl (a % 16) v then .error r.enc
    else .ok (writePattern i (a % 16) v s)
  else if a < 0x188 then .ok (writePmc (BitVec.ofNat 3 a) v s)
  else if a < 0x190 then
    (if 16 < (v.extractLsb' 0 8).toNat then .error r.enc
     else .ok { s with core := { k with
       pmcsel := k.pmcsel.set (BitVec.ofNat 3 a).toNat (v &&& 0xFF80FF) (BitVec.ofNat 3 a).isLt } })
  else if a = 0x190 then
    .ok { s with core := { k with pmcovf := if w1c then k.pmcovf &&& ~~~(v.extractLsb' 0 8) else k.pmcovf } }
  else if a = 0x400 then writeStatus v r s
  else if a = 0x401 then .ok { s with core := { k with tvec := v &&& 0xFFFFFFFFFFFFFFE0 } }
  else if a = 0x402 then .ok { s with ctx := { c with epc := v } }
  else if a = 0x403 then .ok { s with ctx := { c with cause := v &&& 0x800000000000FFFF } }
  else if a = 0x404 then .ok { s with ctx := { c with tval := v } }
  else if a = 0x405 then .ok { s with ctx := { c with scratch := v } }
  else if a = 0x406 then .ok { s with ctx := { c with tcmp := v, timer := c.timer && decide (v.toNat ≤ (s.timeOf s.k).toNat) } }
  else if a = 0x407 then writeHres v r s
  else if a = 0x408 then .ok (writePsat v s)
  else if a = 0x409 then
    (if v.extractLsb' 0 5 = 0 then .error r.enc
     else .ok (writeDrpth v s))
  else if a = 0x40A then .ok (writeDrpst v s)
  else if a < 0x418 then writeMon (BitVec.ofNat 3 a) v w1c r s
  else if a = 0x800 then .ok { s with core := { k with mtvec := v &&& 0xFFFFFFFFFFFFFFE0 } }
  else if a = 0x801 then .ok { s with core := { k with mepc := v } }
  else if a = 0x802 then .ok { s with core := { k with mcause := v &&& 0x800000000000FFFF } }
  else if a = 0x803 then .ok { s with core := { k with mtval := v } }
  else .ok { s with core := { k with mscratch := v } }

/-- The traps of refused values written by instruction `i`. -/
def refuseOf (i : Instr) : Refuse := ⟨illegalPriv i, illegal i⟩

/-- The checks of R334 before a CSR is read or written. -/
def csrCheck (i : Instr) (a : Nat) (rd wr : Bool) (s : State) : Except Trap Unit :=
  match csrAccess s.k a with
  | none => .error (illegalPriv i)
  | some (r, w) =>
    if rd && s.ctx.prv.toNat < r.toNat then .error (illegalPriv i)
    else if wr && (match w with | none => true | some p => decide (s.ctx.prv.toNat < p.toNat)) then .error (illegalPriv i)
    else if isTshape a && !isCompute s.k then .error (illegalMode i)
    else if isTshape a && !s.tclm then .error (tilebusy i)
    else .ok ()

end Sys2Proof.Machine
end

