-- ==== Sys2Proof/Machine/Integer.lean ====
section
/-! DEFINITION. Integer instructions (04 R87 to R93): operands are read before the destination is written, a write to x0 is
discarded, and the instruction retires (R85). -/

namespace Sys2Proof.Machine

open Sys2Proof

/-- Write an integer result and retire an instruction of `len` bytes. -/
def State.alu (s : State) (len : Nat) (d : Reg) (v : Word) : Out := .next ((s.setX d v).retire len)

/-- A truth value as 1 or 0. -/
def truth (b : Bool) : Word := if b then 1 else 0

/-- The low six bits of a shift operand. -/
def shamt (b : Word) : Nat := (b.extractLsb' 0 6).toNat

/-- A sign-extended 12-bit immediate. -/
def sx12 (i : BitVec 12) : Word := i.signExtend 64

/-! ## Register operations (R87, R88) -/

def execAdd (d a b : Reg) (s : State) : Out := s.alu 8 d (s.x a + s.x b)
def execSub (d a b : Reg) (s : State) : Out := s.alu 8 d (s.x a - s.x b)
def execAnd (d a b : Reg) (s : State) : Out := s.alu 8 d (s.x a &&& s.x b)
def execOr (d a b : Reg) (s : State) : Out := s.alu 8 d (s.x a ||| s.x b)
def execXor (d a b : Reg) (s : State) : Out := s.alu 8 d (s.x a ^^^ s.x b)
def execSll (d a b : Reg) (s : State) : Out := s.alu 8 d (s.x a <<< shamt (s.x b))
def execSrl (d a b : Reg) (s : State) : Out := s.alu 8 d (s.x a >>> shamt (s.x b))
def execSra (d a b : Reg) (s : State) : Out := s.alu 8 d ((s.x a).sshiftRight (shamt (s.x b)))
def execSlt (d a b : Reg) (s : State) : Out := s.alu 8 d (truth ((s.x a).slt (s.x b)))
def execSltu (d a b : Reg) (s : State) : Out := s.alu 8 d (truth ((s.x a).ult (s.x b)))
def execMin (d a b : Reg) (s : State) : Out := s.alu 8 d (if (s.x b).slt (s.x a) then s.x b else s.x a)
def execMax (d a b : Reg) (s : State) : Out := s.alu 8 d (if (s.x a).slt (s.x b) then s.x b else s.x a)
def execMinu (d a b : Reg) (s : State) : Out := s.alu 8 d (if (s.x b).ult (s.x a) then s.x b else s.x a)
def execMaxu (d a b : Reg) (s : State) : Out := s.alu 8 d (if (s.x a).ult (s.x b) then s.x b else s.x a)
def execSel (d a b c : Reg) (s : State) : Out := s.alu 8 d (if s.x c != 0 then s.x a else s.x b)
def execClz (d a : Reg) (s : State) : Out := s.alu 8 d (clz64 (s.x a))
def execCtz (d a : Reg) (s : State) : Out := s.alu 8 d (ctz64 (s.x a))
def execPopc (d a : Reg) (s : State) : Out := s.alu 8 d (popc64 (s.x a))
def execMul (d a b : Reg) (s : State) : Out := s.alu 8 d (s.x a * s.x b)
def execMulh (d a b : Reg) (s : State) : Out := s.alu 8 d ((((s.x a).signExtend 128) * ((s.x b).signExtend 128)).extractLsb' 64 64)
def execMulhu (d a b : Reg) (s : State) : Out := s.alu 8 d ((((s.x a).zeroExtend 128) * ((s.x b).zeroExtend 128)).extractLsb' 64 64)
def execDiv (d a b : Reg) (s : State) : Out := s.alu 8 d (divS 64 (s.x a) (s.x b))
def execDivu (d a b : Reg) (s : State) : Out := s.alu 8 d (divU 64 (s.x a) (s.x b))
def execRem (d a b : Reg) (s : State) : Out := s.alu 8 d (remS 64 (s.x a) (s.x b))
def execRemu (d a b : Reg) (s : State) : Out := s.alu 8 d (remU 64 (s.x a) (s.x b))

/-! ## Immediates (R89, R90) -/

def execAddi (d a : Reg) (imm : BitVec 12) (s : State) : Out := s.alu 8 d (s.x a + sx12 imm)
def execAndi (d a : Reg) (imm : BitVec 12) (s : State) : Out := s.alu 8 d (s.x a &&& sx12 imm)
def execOri (d a : Reg) (imm : BitVec 12) (s : State) : Out := s.alu 8 d (s.x a ||| sx12 imm)
def execXori (d a : Reg) (imm : BitVec 12) (s : State) : Out := s.alu 8 d (s.x a ^^^ sx12 imm)
def execSlti (d a : Reg) (imm : BitVec 12) (s : State) : Out := s.alu 8 d (truth ((s.x a).slt (sx12 imm)))
def execSlli (d a : Reg) (sh : BitVec 6) (s : State) : Out := s.alu 8 d (s.x a <<< sh.toNat)
def execSrli (d a : Reg) (sh : BitVec 6) (s : State) : Out := s.alu 8 d (s.x a >>> sh.toNat)
def execSrai (d a : Reg) (sh : BitVec 6) (s : State) : Out := s.alu 8 d ((s.x a).sshiftRight sh.toNat)

/-- The ones of a field of `lenM1` + 1 bits. -/
def fieldOnes (lenM1 : BitVec 6) : Word := BitVec.allOnes 64 >>> (63 - lenM1.toNat)

def execBfx (d a : Reg) (lenM1 pos : BitVec 6) (s : State) : Out := s.alu 8 d ((s.x a >>> pos.toNat) &&& fieldOnes lenM1)

/-- Insert the low bits of x[a] into x[d], the other bits of which stay. -/
def execBfi (d a : Reg) (lenM1 pos : BitVec 6) (s : State) : Out :=
  let m := fieldOnes lenM1 <<< pos.toNat
  s.alu 8 d ((s.x d &&& ~~~m) ||| ((s.x a <<< pos.toNat) &&& m))

/-! ## Constants and addresses (R91 to R93) -/

def execLdhi (d : Reg) (imm : BitVec 20) (s : State) : Out := s.alu 8 d (imm.signExtend 64 <<< 12)
def execAddpc (d : Reg) (imm : BitVec 20) (s : State) : Out := s.alu 8 d (s.ctx.pc + (imm.signExtend 64 <<< 12))
def execLi (d : Reg) (imm : BitVec 32) (s : State) : Out := s.alu 12 d (imm.signExtend 64)
def execLea (d a : Reg) (imm : BitVec 32) (s : State) : Out := s.alu 12 d (s.x a + imm.signExtend 64)
def execLeaPc (d : Reg) (imm : BitVec 32) (s : State) : Out := s.alu 12 d (s.ctx.pc + imm.signExtend 64)
def execLi64 (d : Reg) (imm : Word) (s : State) : Out := s.alu 16 d imm

end Sys2Proof.Machine
end

