-- ==== Sys2Proof/Machine/Control.lean ====
section
/-! DEFINITION. Branches, jumps and calls (04 R94 to R96). The target is not checked but by JALR. -/

namespace Sys2Proof.Machine

open Sys2Proof

/-- A branch target: PC + off20 × 4. -/
def State.target (s : State) (off : BitVec 20) : Word := s.ctx.pc + (off.signExtend 64 <<< 2)

/-- A conditional branch (R94). -/
def State.branch (s : State) (taken : Bool) (off : BitVec 20) : Out :=
  .next (if taken then s.jump (s.target off) else s.jump (s.ctx.pc + 8))

def execBeq (a b : Reg) (off : BitVec 20) (s : State) : Out := s.branch (s.x a == s.x b) off
def execBne (a b : Reg) (off : BitVec 20) (s : State) : Out := s.branch (s.x a != s.x b) off
def execBlt (a b : Reg) (off : BitVec 20) (s : State) : Out := s.branch ((s.x a).slt (s.x b)) off
def execBge (a b : Reg) (off : BitVec 20) (s : State) : Out := s.branch (!(s.x a).slt (s.x b)) off
def execBltu (a b : Reg) (off : BitVec 20) (s : State) : Out := s.branch ((s.x a).ult (s.x b)) off
def execBgeu (a b : Reg) (off : BitVec 20) (s : State) : Out := s.branch (!(s.x a).ult (s.x b)) off

def execJ (off : BitVec 20) (s : State) : Out := .next (s.jump (s.target off))

def execJal (d : Reg) (off : BitVec 20) (s : State) : Out :=
  .next ((s.setX d (s.ctx.pc + 8)).jump (s.target off))

/-- JALR checks its target's alignment before it links (02 R42). -/
def execJalr (d a : Reg) (imm : BitVec 12) (s : State) : Out :=
  let t := s.x a + sx12 imm
  checked s (require (t.extractLsb' 0 2 == 0) (alignTrap t)) fun _ => (s.setX d (s.ctx.pc + 8)).jump t

def execJl (d : Reg) (off : BitVec 32) (s : State) : Out :=
  .next ((s.setX d (s.ctx.pc + 12)).jump (s.ctx.pc + (off.signExtend 64 <<< 2)))

end Sys2Proof.Machine
end

