-- ==== Sys2Proof/Machine/ScalarMem.lean ====
section
/-! DEFINITION. Scalar loads and stores (04 R98 to R102). They check at issue and are outstanding until LOAD_RETURN or
STORE_ACK. -/

namespace Sys2Proof.Machine

open Sys2Proof

/-- Bytes of a scalar access. -/
def memBytes : MemW → Nat
  | .b => 1
  | .h => 2
  | .w => 4
  | .d => 8

def fmtBytes : Fmt → Nat
  | .s => 4
  | .d => 8

/-- The effective address (R99). -/
def State.ea (s : State) (a : Reg) (imm : BitVec 12) : Word := s.x a + sx12 imm

/-- The path of a checked load: a window's element travels on GWIN (R101). -/
def LaneSrc.path (src : LaneSrc) : Path := src.pathOn .core

/-- Issue a scalar load of `n` bytes (R100, R101). The index words of a window have been read (log 7). -/
def State.issueLoad (s : State) (n : Nat) (src : LaneSrc) (acq : Bool) (dst : Dst) : State :=
  (s.wakeFor src.keys).issueSites (.load src.path acq dst [⟨0, n, src⟩]) (src.sitesOn .core)

/-- Do the checks of a load of `n` bytes, then issue it, once its index words may be read. -/
def State.loading (s : State) (va : Word) (n : Nat) (k : LaneSrc → State → State) : Out :=
  s.whenIndexed [s.indexWords va n] fun s => checked s (s.loadCheck va n) fun src => k src s

/-- Issue a scalar store of the low `n` bytes of a value at a checked key. -/
def State.issueStore (s : State) (va : Word) (n key : Nat) (v : Word) : State :=
  (s.wakeFor [key]).issue (.store .core [cellsOf key n v.toNat]) [s.homeAt va key]

def execLd (d a : Reg) (imm : BitVec 12) (wid : MemW) (u : Bool) (s : State) : Out :=
  let va := s.ea a imm
  let n := memBytes wid
  s.loading va n fun src s => (s.issueLoad n src false (.x d n u)).retire 8

def execSt (d a : Reg) (imm : BitVec 12) (wid : MemW) (s : State) : Out :=
  let va := s.ea a imm
  let n := memBytes wid
  checked s (s.storeCheck va n .w) fun key => (s.issueStore va n key (s.x d)).retire 8

/-- FLD: the destination may not be bound to a stream (06 R141). -/
def execFld (d a : Reg) (imm : BitVec 12) (wid : Fmt) (s : State) : Out :=
  let va := s.ea a imm
  let n := fmtBytes wid
  s.operateWhen (.fld d a imm wid) 0 [⟨false, direct d, .load⟩]
    (fun _ => [s.indexWords va n]) fun _ _ =>
    match s.loadCheck va n with
    | .error t => .error t
    | .ok src => .ok (0, fun s => s.issueLoad n src false (.f d))

/-- FST: a data register bound to a read stream is popped (06 R141). -/
def execFst (d a : Reg) (imm : BitVec 12) (wid : Fmt) (s : State) : Out :=
  let va := s.ea a imm
  let n := fmtBytes wid
  s.operate (.fst d a imm wid) 0 [fS (direct d)] fun _ vs =>
    match s.storeCheck va n .w with
    | .error t => .error t
    | .ok key => .ok (0, fun s => s.issueStore va n key (sf vs 0))

end Sys2Proof.Machine
end

