-- ==== Sys2Proof/Machine/ScalarFp.lean ====
section
/-! DEFINITION. Scalar floating point (04 R103 to R111): operands in the order a, b, c, a bound register popping once for
each naming, then the operation, FPX or the flags, then the destination. -/

namespace Sys2Proof.Machine

open Sys2Proof

/-- An operation with an f destination and two f sources. -/
def State.fBin (s : State) (i : Instr) (rimm : BitVec 6) (d a b : ROp) (op : Word → Word → FRes) : Out :=
  s.operate i rimm [fD d, fS a, fS b] fun rs vs =>
    let r := op (sf vs 0) (sf vs 1)
    .ok (r.fl, fun s => s.writeF (rg rs 0) r.bits)

/-- An operation with an f destination and one f source. -/
def State.fUn (s : State) (i : Instr) (rimm : BitVec 6) (d a : ROp) (op : Word → FRes) : Out :=
  s.operate i rimm [fD d, fS a] fun rs vs =>
    let r := op (sf vs 0)
    .ok (r.fl, fun s => s.writeF (rg rs 0) r.bits)

/-- An operation with an f destination and three f sources. -/
def State.fTer (s : State) (i : Instr) (rimm : BitVec 6) (d a b c : ROp) (op : Word → Word → Word → FRes) : Out :=
  s.operate i rimm [fD d, fS a, fS b, fS c] fun rs vs =>
    let r := op (sf vs 0) (sf vs 1) (sf vs 2)
    .ok (r.fl, fun s => s.writeF (rg rs 0) r.bits)

/-- A comparison into an x register (R108). -/
def State.fCmp (s : State) (i : Instr) (rimm : BitVec 6) (d : Reg) (a b : ROp) (op : Word → Word → Bool × Flags) : Out :=
  s.operate i rimm [fS a, fS b] fun _ vs =>
    let r := op (sf vs 0) (sf vs 1)
    .ok (r.2, fun s => s.setX d (truth r.1))

/-- An operation from one f source to an x register. -/
def State.fToX (s : State) (i : Instr) (rimm : BitVec 6) (d : Reg) (a : ROp) (op : Word → FRes) : Out :=
  s.operate i rimm [fS a] fun _ vs =>
    let r := op (sf vs 0)
    .ok (r.fl, fun s => s.setX d r.bits)

/-- An operation from an x register to an f destination. -/
def State.xToF (s : State) (i : Instr) (rimm : BitVec 6) (d : ROp) (r : FRes) : Out :=
  s.operate i rimm [fD d] fun rs _ => .ok (r.fl, fun s => s.writeF (rg rs 0) r.bits)

/-! ## Arithmetic (R105 to R107) -/

def execFadd (d a b : ROp) (k : FCtl) (s : State) : Out :=
  s.fBin (.fadd d a b k) k.rimm d a b (ieeeAdd k.fmt (s.mode k.frm))

def execFsub (d a b : ROp) (k : FCtl) (s : State) : Out :=
  s.fBin (.fsub d a b k) k.rimm d a b (ieeeSub k.fmt (s.mode k.frm))

def execFmul (d a b : ROp) (k : FCtl) (s : State) : Out :=
  s.fBin (.fmul d a b k) k.rimm d a b (ieeeMul k.fmt (s.mode k.frm))

def execFdiv (d a b : ROp) (k : FCtl) (s : State) : Out :=
  s.fBin (.fdiv d a b k) k.rimm d a b (ieeeDiv k.fmt (s.mode k.frm))

def execFsqrt (d a : ROp) (k : FCtl) (s : State) : Out :=
  s.fUn (.fsqrt d a k) k.rimm d a (ieeeSqrt k.fmt (s.mode k.frm))

def execFma (d a b c : ROp) (k : FCtl) (s : State) : Out :=
  s.fTer (.fma d a b c k) k.rimm d a b c (ieeeFma k.fmt (s.mode k.frm) false false)

def execFms (d a b c : ROp) (k : FCtl) (s : State) : Out :=
  s.fTer (.fms d a b c k) k.rimm d a b c (ieeeFma k.fmt (s.mode k.frm) false true)

def execFnma (d a b c : ROp) (k : FCtl) (s : State) : Out :=
  s.fTer (.fnma d a b c k) k.rimm d a b c (ieeeFma k.fmt (s.mode k.frm) true false)

def execFnms (d a b c : ROp) (k : FCtl) (s : State) : Out :=
  s.fTer (.fnms d a b c k) k.rimm d a b c (ieeeFma k.fmt (s.mode k.frm) true true)

def execFmin (d a b : ROp) (fmt : Fmt) (rimm : BitVec 6) (s : State) : Out :=
  s.fBin (.fmin d a b fmt rimm) rimm d a b (ieeeMinMax fmt false)

def execFmax (d a b : ROp) (fmt : Fmt) (rimm : BitVec 6) (s : State) : Out :=
  s.fBin (.fmax d a b fmt rimm) rimm d a b (ieeeMinMax fmt true)

/-! ## Comparisons and classes (R108, R109) -/

def execFeq (d : Reg) (a b : ROp) (fmt : Fmt) (rimm : BitVec 6) (s : State) : Out :=
  s.fCmp (.feq d a b fmt rimm) rimm d a b (ieeeRel fmt .eq)

def execFlt (d : Reg) (a b : ROp) (fmt : Fmt) (rimm : BitVec 6) (s : State) : Out :=
  s.fCmp (.flt d a b fmt rimm) rimm d a b (ieeeRel fmt .lt)

def execFle (d : Reg) (a b : ROp) (fmt : Fmt) (rimm : BitVec 6) (s : State) : Out :=
  s.fCmp (.fle d a b fmt rimm) rimm d a b (ieeeRel fmt .le)

def execFclass (d : Reg) (a : ROp) (fmt : Fmt) (rimm : BitVec 6) (s : State) : Out :=
  s.fToX (.fclass d a fmt rimm) rimm d a fun w => ⟨ieeeClass fmt w, 0⟩

/-! ## Moves and sign operations (R110) -/

/-- The sign FSGN gives. -/
def fsgnSign (m : SgnMode) (sa sb : Bool) : Bool :=
  match m with
  | .copy => sb
  | .inv => !sb
  | .xor => sa != sb

def execFsgn (d a b : ROp) (mode : SgnMode) (fmt : Fmt) (rimm : BitVec 6) (s : State) : Out :=
  s.fBin (.fsgn d a b mode fmt rimm) rimm d a b fun x y =>
    ⟨withSign fmt x (fsgnSign mode (x.getLsbD (fpOf fmt).sign) (y.getLsbD (fpOf fmt).sign)), 0⟩

def execFmvX (d : Reg) (a : ROp) (fmt : Fmt) (rimm : BitVec 6) (s : State) : Out :=
  s.fToX (.fmvX d a fmt rimm) rimm d a fun w => ⟨fmtBits fmt w, 0⟩

def execFmvF (d : ROp) (a : Reg) (fmt : Fmt) (rimm : BitVec 6) (s : State) : Out :=
  s.xToF (.fmvF d a fmt rimm) rimm d ⟨fmtBits fmt (s.x a), 0⟩

/-! ## Conversions (R111) -/

/-- The signed low 32 bits of a word. -/
def low32s (w : Word) : Int := (w.extractLsb' 0 32).toInt

def execFcvt (code : FCvt) (d a : ROp) (frm : Frm) (rimm : BitVec 6) (s : State) : Out :=
  let i : Instr := .fcvt code d a frm rimm
  let m := s.mode frm
  match code with
  | .sd => s.fUn i rimm d a (ieeeConv .s .d m)
  | .ds => s.fUn i rimm d a (ieeeConv .d .s m)
  | .sw => s.xToF i rimm d (ofIntFp .s m (low32s (s.x a.n)))
  | .sl => s.xToF i rimm d (ofIntFp .s m (s.x a.n).toInt)
  | .dw => s.xToF i rimm d (ofIntFp .d m (low32s (s.x a.n)))
  | .dl => s.xToF i rimm d (ofIntFp .d m (s.x a.n).toInt)
  | .ws => s.fToX i rimm d.n a (toIntFp .s m 32)
  | .ls => s.fToX i rimm d.n a (toIntFp .s m 64)
  | .wd => s.fToX i rimm d.n a (toIntFp .d m 32)
  | .ld => s.fToX i rimm d.n a (toIntFp .d m 64)

end Sys2Proof.Machine
end

