-- ==== Sys2Proof/Machine/Vector.lean ====
section
/-! DEFINITION. The vector unit (05 R112 to R127): lanes and masks, lane-wise operations, conversions, moves of lanes,
reductions, selection and sorting. -/

namespace Sys2Proof.Machine

open Sys2Proof

/-! ## Lanes and masks (R113, R114) -/

/-- Element width in bytes. -/
def ewBytes : Ew → Nat
  | .i8 => 1
  | .i16 => 2
  | .i32 => 4
  | .i64 => 8
  | .s => 4
  | .d => 8
  | .e4m3 => 1

/-- The floating-point format of an element width. -/
def ewFmt : Ew → Option Fmt
  | .s => some .s
  | .d => some .d
  | _ => none

/-- Lane `j` of width `n` bytes, zero-extended. -/
def lane (v : VWord) (n j : Nat) : Word := BitVec.ofNat 64 (v.toNat / 2 ^ (8 * n * j) % 2 ^ (8 * n))

/-- The signed value of a lane. -/
def laneInt (n : Nat) (x : Word) : Int := (BitVec.ofNat (8 * n) x.toNat).toInt

/-- The number lanes of `n` bytes spell, lane 0 lowest. -/
def lanesNat (n : Nat) : List Word → Nat
  | [] => 0
  | x :: r => x.toNat % 2 ^ (8 * n) + 2 ^ (8 * n) * lanesNat n r

def ofLanes (n : Nat) (l : List Word) : VWord := BitVec.ofNat 512 (lanesNat n l)

/-- Whether lane `j` of width `n` is active under a governing mask. -/
def State.active (s : State) (msk : MReg) (n j : Nat) : Bool := msk == 0 || (s.m msk).getLsbD (j * n)

/-- The lanes of a result: those from `lo` to `lo + cnt − 1` by R114, the others kept, or zero when the destination is
bound (R121). -/
def State.laneRes (s : State) (d : Reg) (k : VCtl) (n lo cnt : Nat) (f : Nat → FRes) : List FRes :=
  let b := s.vBound d
  (List.range (64 / n)).map fun j =>
    if lo ≤ j && j < lo + cnt then
      (if s.active k.msk n j then f (j - lo) else if k.z || b then ⟨0, 0⟩ else ⟨lane (s.v d) n j, 0⟩)
    else if b then ⟨0, 0⟩ else ⟨lane (s.v d) n j, 0⟩

/-- The OR of the flags of lanes. -/
def laneFlags (l : List FRes) : Flags := (l.map (·.fl)).foldl (· ||| ·) 0

/-- Write lanes from `lo` to `lo + cnt − 1` of width `n`; `fl` are flags the instruction raises besides its lanes'. -/
def State.vPart (s : State) (i : Instr) (k : VCtl) (d : ROp) (srcs : List Opnd) (n lo cnt : Nat) (extra : List VWord → Flags)
    (f : List VWord → Nat → FRes) : Out :=
  s.operate i k.rimm (vD d :: srcs) fun rs vs =>
    let l := s.laneRes (rg rs 0) k n lo cnt (f vs)
    .ok (laneFlags l ||| extra vs, fun s => s.writeV (rg rs 0) (ofLanes n (l.map (·.bits))))

/-- Write every lane of the element width. -/
def State.vMap (s : State) (i : Instr) (k : VCtl) (d : ROp) (srcs : List Opnd) (f : List VWord → Nat → FRes) : Out :=
  s.vPart i k d srcs (ewBytes k.ew) 0 64 (fun _ => 0) f

/-- Lane `j` of source `q`. -/
def State.src (vs : List VWord) (q : Nat) (k : VCtl) (j : Nat) : Word := lane (sv vs q) (ewBytes k.ew) j

/-! ## Lane-wise operations (R117) -/

/-- An operation on two lanes: on FP widths `fp`, on integer widths `int`. -/
def State.vBin (s : State) (i : Instr) (k : VCtl) (d a b : ROp) (fp : Fmt → Word → Word → FRes)
    (int : Nat → Word → Word → Word) : Out :=
  s.vMap i k d [vS a, vS b] fun vs j =>
    match ewFmt k.ew with
    | some f => fp f (State.src vs 0 k j) (State.src vs 1 k j)
    | none => ⟨int (ewBytes k.ew) (State.src vs 0 k j) (State.src vs 1 k j), 0⟩

/-- An operation on one lane. -/
def State.vUn (s : State) (i : Instr) (k : VCtl) (d a : ROp) (fp : Fmt → Word → FRes) (int : Nat → Word → Word) : Out :=
  s.vMap i k d [vS a] fun vs j =>
    match ewFmt k.ew with
    | some f => fp f (State.src vs 0 k j)
    | none => ⟨int (ewBytes k.ew) (State.src vs 0 k j), 0⟩

/-- Shift count: the lane of b modulo the element's bits. -/
def laneShift (n : Nat) (b : Word) : Nat := b.toNat % (8 * n)

/-- A result for FP lanes of an operation that has none. -/
def noFp (_ : Fmt) (_ _ : Word) : FRes := ⟨0, 0⟩

def execVadd (d a b : ROp) (k : VCtl) (s : State) : Out :=
  s.vBin (.vadd d a b k) k d a b (fun f => ieeeAdd f (s.mode k.frm)) (fun _ x y => x + y)

def execVsub (d a b : ROp) (k : VCtl) (s : State) : Out :=
  s.vBin (.vsub d a b k) k d a b (fun f => ieeeSub f (s.mode k.frm)) (fun _ x y => x - y)

def execVmul (d a b : ROp) (k : VCtl) (s : State) : Out :=
  s.vBin (.vmul d a b k) k d a b (fun f => ieeeMul f (s.mode k.frm)) (fun _ x y => x * y)

def execVdiv (d a b : ROp) (k : VCtl) (s : State) : Out :=
  s.vBin (.vdiv d a b k) k d a b (fun f => ieeeDiv f (s.mode k.frm)) (fun _ _ _ => 0)

def execVsqrt (d a : ROp) (k : VCtl) (s : State) : Out :=
  s.vUn (.vsqrt d a k) k d a (fun f => ieeeSqrt f (s.mode k.frm)) (fun _ _ => 0)

def execVmin (d a b : ROp) (k : VCtl) (s : State) : Out :=
  s.vBin (.vmin d a b k) k d a b (fun f => ieeeMinMax f false) (fun n x y => if laneInt n y < laneInt n x then y else x)

def execVmax (d a b : ROp) (k : VCtl) (s : State) : Out :=
  s.vBin (.vmax d a b k) k d a b (fun f => ieeeMinMax f true) (fun n x y => if laneInt n x < laneInt n y then y else x)

/-- VABS and VNEG copy the other bits of an FP lane and raise no flag. -/
def execVabs (d a : ROp) (k : VCtl) (s : State) : Out :=
  s.vUn (.vabs d a k) k d a (fun f x => ⟨withSign f x false, 0⟩) (fun n x => if laneInt n x < 0 then 0 - x else x)

def execVneg (d a : ROp) (k : VCtl) (s : State) : Out :=
  s.vUn (.vneg d a k) k d a (fun f x => ⟨withSign f x (!x.getLsbD (fpOf f).sign), 0⟩) (fun _ x => 0 - x)

def execVand (d a b : ROp) (k : VCtl) (s : State) : Out :=
  s.vBin (.vand d a b k) k d a b (noFp) (fun _ x y => x &&& y)

def execVor (d a b : ROp) (k : VCtl) (s : State) : Out :=
  s.vBin (.vor d a b k) k d a b (noFp) (fun _ x y => x ||| y)

def execVxor (d a b : ROp) (k : VCtl) (s : State) : Out :=
  s.vBin (.vxor d a b k) k d a b (noFp) (fun _ x y => x ^^^ y)

def execVshl (d a b : ROp) (k : VCtl) (s : State) : Out :=
  s.vBin (.vshl d a b k) k d a b (noFp) (fun n x y => x <<< laneShift n y)

def execVshr (d a b : ROp) (k : VCtl) (s : State) : Out :=
  s.vBin (.vshr d a b k) k d a b (noFp) (fun n x y => x >>> laneShift n y)

def execVsra (d a b : ROp) (k : VCtl) (s : State) : Out :=
  s.vBin (.vsra d a b k) k d a b (noFp) (fun n x y => BitVec.ofInt 64 (laneInt n x / 2 ^ laneShift n y))

/-- The relation of VCMP on integer lanes (R118). -/
def intRel (c : VCond) (n : Nat) (x y : Word) : Bool :=
  match c with
  | .eq => x == y
  | .ne => x != y
  | .lt => decide (laneInt n x < laneInt n y)
  | .le => decide (laneInt n x ≤ laneInt n y)
  | .ltu => x.ult y
  | .leu => x.ule y

/-- The relation of VCMP on FP lanes; the unsigned relations have no FP form (decode refuses them). -/
def fpRel (c : VCond) (f : Fmt) (x y : Word) : Bool × Flags :=
  match c with
  | .eq => ieeeRel f .eq x y
  | .ne => ieeeRel f .ne x y
  | .lt => ieeeRel f .lt x y
  | .le => ieeeRel f .le x y
  | .ltu => (false, 0)
  | .leu => (false, 0)

/-- The mask word whose lanes of `n` bits hold truth values. -/
def maskWord (n : Nat) (l : List Bool) : Word :=
  BitVec.ofNat 64 (l.foldr (fun b r => (if b then 2 ^ n - 1 else 0) + 2 ^ n * r) 0)

/-- VCMP: the bits of active lanes become the result, those of inactive lanes are kept or cleared (R118). -/
def execVcmp (d : MReg) (a b : ROp) (cond : VCond) (k : VCtl) (s : State) : Out :=
  let n := ewBytes k.ew
  s.operate (.vcmp d a b cond k) k.rimm [vS a, vS b] fun _ vs =>
    let l : List (Bool × Flags) := (List.range (64 / n)).map fun j =>
      if s.active k.msk n j then
        match ewFmt k.ew with
        | some f => fpRel cond f (State.src vs 0 k j) (State.src vs 1 k j)
        | none => (intRel cond n (State.src vs 0 k j) (State.src vs 1 k j), 0)
      else (false, 0)
    let act := maskWord n ((List.range (64 / n)).map (s.active k.msk n))
    let kept := if k.z then 0 else s.m d &&& ~~~act
    .ok ((l.map (·.2)).foldl (· ||| ·) 0, fun s => s.setM d (maskWord n (l.map (·.1)) ||| kept))

def execVsel (d a b : ROp) (c : MReg) (k : VCtl) (s : State) : Out :=
  s.vMap (.vsel d a b c k) k d [vS a, vS b] fun vs j =>
    ⟨if (s.m c).getLsbD (j * ewBytes k.ew) then State.src vs 0 k j else State.src vs 1 k j, 0⟩

/-! ## Reduced precision (R119) -/

def execVexp2 (d a : ROp) (k : VCtl) (s : State) : Out := s.vUn (.vexp2 d a k) k d a redExp2 (fun _ _ => 0)
def execVrcp (d a : ROp) (k : VCtl) (s : State) : Out := s.vUn (.vrcp d a k) k d a redRcp (fun _ _ => 0)
def execVrsq (d a : ROp) (k : VCtl) (s : State) : Out := s.vUn (.vrsq d a k) k d a redRsq (fun _ _ => 0)

/-! ## Conversions (R120, R121) -/

/-- The block scale a conversion reads: bits 31:0 of its f operand. -/
def scaleOf (vs : List VWord) : BitVec 32 := (sv vs 1).extractLsb' 0 32

/-- The FP32 lane as 32 bits. -/
def low32 (w : Word) : BitVec 32 := w.extractLsb' 0 32

/-- NV of an invalid scale, once, when any lane of the destination is active, inside the part or outside it (R121). -/
def State.scaleFlag (s : State) (k : VCtl) (n : Nat) (vs : List VWord) : Flags :=
  if !scaleOk (scaleOf vs) && (List.range (64 / n)).any (fun j => s.active k.msk n j) then flagNV else 0

/-- 16 FP32 lanes to Pk lanes of `n` bytes from `lo` on. -/
def State.vToPk (s : State) (i : Instr) (k : VCtl) (d a b : ROp) (p n lo : Nat) : Out :=
  s.vPart i k d [vS a, fS b] n lo 16 (s.scaleFlag k n) fun vs j =>
    let r := toPk p (low32 (lane (sv vs 0) 4 j)) (scaleOf vs)
    ⟨BitVec.ofNat 64 r.w, r.fl⟩

/-- Pk lanes of `n` bytes from `lo` on to 16 FP32 lanes. -/
def State.vFromPk (s : State) (i : Instr) (k : VCtl) (d a b : ROp) (p n lo : Nat) : Out :=
  s.vPart i k d [vS a, fS b] 4 0 16 (s.scaleFlag k 4) fun vs j =>
    fromPk p (lane (sv vs 0) n (lo + j)).toNat (scaleOf vs)

/-- VCVT by its code (R120). -/
def execVcvt (code : Reg) (d a b : ROp) (k : VCtl) (s : State) : Out :=
  let i : Instr := .vcvt code d a b k
  let c := code.toNat
  let m := s.mode k.frm
  if c = 0 then
    s.vPart i k d [vS a, vS b] 4 0 16 (fun _ => 0) fun vs j =>
      ieeeConv .s .d m (if j < 8 then lane (sv vs 0) 8 j else lane (sv vs 1) 8 (j - 8))
  else if c ≤ 2 then
    s.vPart i k d [vS a] 8 0 8 (fun _ => 0) fun vs j => ieeeConv .d .s m (lane (sv vs 0) 4 (8 * (c - 1) + j))
  else if c = 3 then
    s.vPart i k d [vS a] 4 0 16 (fun _ => 0) fun vs j => ofIntFp .s m (laneInt 4 (lane (sv vs 0) 4 j))
  else if c = 4 then s.vPart i k d [vS a] 4 0 16 (fun _ => 0) fun vs j => toIntFp .s m 32 (lane (sv vs 0) 4 j)
  else if c = 5 then
    s.vPart i k d [vS a] 8 0 8 (fun _ => 0) fun vs j => ofIntFp .d m (laneInt 8 (lane (sv vs 0) 8 j))
  else if c = 6 then s.vPart i k d [vS a] 8 0 8 (fun _ => 0) fun vs j => toIntFp .d m 64 (lane (sv vs 0) 8 j)
  else if c ≤ 10 then
    s.vPart i k d [vS a] 1 (16 * (c - 7)) 16 (fun _ => 0) fun vs j =>
      let r := pkOf 1 (.ofIeee .s (lane (sv vs 0) 4 j))
      ⟨BitVec.ofNat 64 r.w, r.fl⟩
  else if c ≤ 14 then
    s.vPart i k d [vS a] 4 0 16 (fun _ => 0) fun vs j => ⟨ofE4m3 .s (lane (sv vs 0) 1 (16 * (c - 11) + j)).toNat, 0⟩
  else if c ≤ 18 then s.vToPk i k d a b 1 1 (16 * (c - 15))
  else if c ≤ 22 then s.vFromPk i k d a b 1 1 (16 * (c - 19))
  else if c ≤ 24 then s.vToPk i k d a b 2 2 (16 * (c - 23))
  else if c ≤ 26 then s.vFromPk i k d a b 2 2 (16 * (c - 25))
  else if c = 27 then s.vToPk i k d a b 4 4 0
  else s.vFromPk i k d a b 4 4 0

/-! ## Fused multiply-add (R122) -/

/-- a × b ± c on FP lanes. -/
def State.vTer (s : State) (i : Instr) (k : VCtl) (d a b c : ROp) (negC : Bool) : Out :=
  s.vMap i k d [vS a, vS b, vS c] fun vs j =>
    match ewFmt k.ew with
    | some f => ieeeFma f (s.mode k.frm) false negC (State.src vs 0 k j) (State.src vs 1 k j) (State.src vs 2 k j)
    | none => ⟨0, 0⟩

def execVfma (d a b c : ROp) (k : VCtl) (s : State) : Out := s.vTer (.vfma d a b c k) k d a b c false
def execVfms (d a b c : ROp) (k : VCtl) (s : State) : Out := s.vTer (.vfms d a b c k) k d a b c true

/-! ## Moving lanes (R123) -/

/-- The scalar operand of VBCAST and VINS: an f source for FP widths; an x register needs no operand check. -/
def scalarOps (e : Ew) (a : ROp) : List Opnd :=
  match ewFmt e with
  | some _ => [fS a]
  | none => []

/-- Its value. -/
def State.scalar (s : State) (e : Ew) (a : ROp) (vs : List VWord) : Word :=
  match ewFmt e with
  | some _ => sf vs 0
  | none => s.x a.n

def execVbcast (d a : ROp) (k : VCtl) (s : State) : Out :=
  s.vMap (.vbcast d a k) k d (scalarOps k.ew a) fun vs _ => ⟨s.scalar k.ew a vs, 0⟩

/-- VINS reads d and writes only lane x[b] mod L, when it is active. -/
def execVins (d a : ROp) (b : Reg) (k : VCtl) (s : State) : Out :=
  let n := ewBytes k.ew
  s.operate (.vins d a b k) k.rimm (⟨true, d, .both⟩ :: scalarOps k.ew a) fun rs vs =>
    let i := (s.x b).toNat % (64 / n)
    let old := s.v (rg rs 0)
    .ok (0, fun s => s.writeV (rg rs 0) (ofLanes n ((List.range (64 / n)).map fun j =>
      if j = i && s.active k.msk n j then s.scalar k.ew a vs else lane old n j)))

/-- VEXT ignores the mask (R114). -/
def execVext (d a : ROp) (b : Reg) (k : VCtl) (s : State) : Out :=
  let n := ewBytes k.ew
  let i := (s.x b).toNat % (64 / n)
  match ewFmt k.ew with
  | some _ => s.operate (.vext d a b k) k.rimm [fD d, vS a] fun rs vs => .ok (0, fun s => s.writeF (rg rs 0) (lane (sv vs 0) n i))
  | none =>
    s.operate (.vext d a b k) k.rimm [vS a] fun _ vs =>
      let x := lane (sv vs 0) n i
      .ok (0, fun s => s.setX d.n (if k.ew = .e4m3 then x else BitVec.ofInt 64 (laneInt n x)))

def execVperm (d a b : ROp) (k : VCtl) (s : State) : Out :=
  let n := ewBytes k.ew
  s.vMap (.vperm d a b k) k d [vS a, vS b] fun vs j => ⟨lane (sv vs 0) n ((State.src vs 1 k j).toNat % (64 / n)), 0⟩

def execVslide (d a b : ROp) (c : Reg) (k : VCtl) (s : State) : Out :=
  let n := ewBytes k.ew
  let l := 64 / n
  let o := (s.x c).toNat
  s.vMap (.vslide d a b c k) k d [vS a, vS b] fun vs j =>
    ⟨if j + o < l then lane (sv vs 0) n (j + o) else if j + o < 2 * l then lane (sv vs 1) n (j + o - l) else 0, 0⟩

/-! ## Reductions (R124) -/

/-- Fold the active lanes into a scalar in lane order. -/
def foldLanes (step : Word → Word → FRes) : List Word → FRes → FRes
  | [], acc => acc
  | x :: r, acc => let t := step acc.bits x; foldLanes step r ⟨t.bits, acc.fl ||| t.fl⟩

/-- The active lanes of a source. -/
def State.activeLanes (s : State) (k : VCtl) (v : VWord) : List Word :=
  let n := ewBytes k.ew
  ((List.range (64 / n)).filter (s.active k.msk n)).map (lane v n)

/-- A reduction: FP widths over f registers, integer widths over x registers, mod 2^(8w) and sign-extended. -/
def State.vRed (s : State) (i : Instr) (k : VCtl) (d a b : ROp) (fp : Fmt → Word → Word → FRes) (int : Nat → Int → Int → Int) : Out :=
  let n := ewBytes k.ew
  match ewFmt k.ew with
  | some f =>
    s.operate i k.rimm [fD d, vS a, fS b] fun rs vs =>
      let r := foldLanes (fp f) (s.activeLanes k (sv vs 0)) ⟨fmtBits f (sf vs 1), 0⟩
      .ok (r.fl, fun s => s.writeF (rg rs 0) r.bits)
  | none =>
    s.operate i k.rimm [vS a] fun _ vs =>
      let r := (s.activeLanes k (sv vs 0)).foldl (fun acc x => laneInt n (BitVec.ofInt 64 (int n acc (laneInt n x))))
        (laneInt n (s.x b.n))
      .ok (0, fun s => s.setX d.n (BitVec.ofInt 64 r))

def execVredsum (d a b : ROp) (k : VCtl) (s : State) : Out :=
  s.vRed (.vredsum d a b k) k d a b (fun f => ieeeAdd f (s.mode k.frm)) (fun _ x y => x + y)
def execVredmax (d a b : ROp) (k : VCtl) (s : State) : Out :=
  s.vRed (.vredmax d a b k) k d a b (fun f => ieeeMinMax f true) (fun _ x y => if x < y then y else x)
def execVredmin (d a b : ROp) (k : VCtl) (s : State) : Out :=
  s.vRed (.vredmin d a b k) k d a b (fun f => ieeeMinMax f false) (fun _ x y => if y < x then y else x)

/-! ## Selection and sorting (R125 to R127) -/

/-- A candidate: FP32 value, int32 index, and whether it is new. -/
structure Cand where
  val : Word
  idx : BitVec 32
  new : Bool
  deriving DecidableEq, Repr

/-- Whether x precedes y (R126). -/
def Cand.precedes (x y : Cand) : Bool :=
  let xn := isNaN .s x.val
  let yn := isNaN .s y.val
  if xn != yn then yn
  else if !xn && fpKey .s x.val != fpKey .s y.val then decide (fpKey .s y.val < fpKey .s x.val)
  else if x.idx != y.idx then x.idx.slt y.idx
  else !x.new && y.new

/-- The value and index lanes of the ranked candidates (R126). -/
def topLanes (k : Nat) (l : List Cand) : List (Word × Word) :=
  (List.range 16).map fun i =>
    if i < k then
      match l[i]? with
      | some c => (c.val, c.idx.zeroExtend 64)
      | none => (0xFF800000, 0xFFFFFFFF)
    else (0, 0)

/-- The new candidates: the active lanes of a with their indices. -/
def State.newCands (s : State) (k : VCtl) (v : VWord) (base : BitVec 32) : List Cand :=
  ((List.range 16).filter (s.active k.msk 4)).map fun j => ⟨lane v 4 j, base + BitVec.ofNat 32 j, true⟩

/-- k of the control word (R125). -/
def topK (ctl : Word) : Nat := (ctl.extractLsb' 0 8).toNat

/-- Write ranked candidates: d holds the values, c the indices, c last (R126). R127 does not say which of VSORTK's results is written
last when c = d: c is, as for VTOPK (log 48). -/
def State.writeTop (s : State) (d c : Reg) (l : List (Word × Word)) : State :=
  (s.writeV d (ofLanes 4 (l.map (·.1)))).writeV c (ofLanes 4 (l.map (·.2)))

def execVtopk (d a : ROp) (b : Reg) (c : ROp) (k : VCtl) (s : State) : Out :=
  let i : Instr := .vtopk d a b c k
  let n := topK (s.x b)
  s.operate i k.rimm [vD d, vS a, vD c] fun rs vs =>
    if n = 0 || 16 < n then .error (illegal i)
    else
      let l := sortBy Cand.precedes (s.newCands k (sv vs 0) ((s.x b).extractLsb' 32 32))
      .ok (0, fun s => s.writeTop (rg rs 0) (rg rs 2) (topLanes n l))

/-- VTOPKM. R126 gives no order to two running entries that its four tests leave equal, of one index and equal values: DESIGN CHOICE, the
one in the lower lane comes first (log 48). -/
def execVtopkm (d a : ROp) (b : Reg) (c : ROp) (k : VCtl) (s : State) : Out :=
  let i : Instr := .vtopkm d a b c k
  let n := topK (s.x b)
  s.operate i k.rimm [⟨true, d, .both⟩, vS a, ⟨true, c, .both⟩] fun rs vs =>
    if n = 0 || 16 < n then .error (illegal i)
    else
      let old : List Cand := ((List.range n).map fun j =>
        (⟨lane (s.v (rg rs 0)) 4 j, low32 (lane (s.v (rg rs 2)) 4 j), false⟩ : Cand)).filter (·.idx != 0xFFFFFFFF)
      let l := sortBy Cand.precedes (old ++ s.newCands k (sv vs 0) ((s.x b).extractLsb' 32 32))
      .ok (0, fun s => s.writeTop (rg rs 0) (rg rs 2) (topLanes n l))

/-- The order of VSORTK's keys (R127): NaN after every number. -/
def sortKeyLt (e : Ew) (x y : Word) : Bool :=
  match e with
  | .s =>
    if isNaN .s x then false else if isNaN .s y then true else decide (fpKey .s x < fpKey .s y)
  | _ => decide (laneInt 4 x < laneInt 4 y)

def execVsortk (d a c : ROp) (k : VCtl) (s : State) : Out :=
  s.operate (.vsortk d a c k) k.rimm [vD d, vS a, vD c] fun rs vs =>
    let ls := ((List.range 16).filter (s.active k.msk 4)).map fun j => (lane (sv vs 0) 4 j, BitVec.ofNat 64 j)
    let l := sortBy (fun x y => sortKeyLt k.ew x.1 y.1) ls
    let fill : Word := if k.ew = .s then 0x7F800000 else 0x7FFFFFFF
    .ok (0, fun s => s.writeTop (rg rs 0) (rg rs 2) ((List.range 16).map fun i => l.getD i (fill, 0xFFFFFFFF)))

end Sys2Proof.Machine
end

