-- ==== Sys2Proof/Machine/VectorMem.lean ====
section
/-! DEFINITION. Vector memory accesses (05 R128 to R130): every active lane is checked before memory is accessed. The data
register of VSCAT is read before its index register (log 16). -/

namespace Sys2Proof.Machine

open Sys2Proof

/-- The active lanes of an access. -/
def State.memLanes (s : State) (k : VMCtl) : List Nat :=
  let n := ewBytes k.ew
  (List.range (64 / n)).filter (s.active k.msk n)

/-- Check the loads of lanes in order. -/
def State.checkLoads (s : State) (n : Nat) (addr : Nat → Word) : List Nat → Except Trap (List (Nat × LaneSrc))
  | [] => .ok []
  | j :: r =>
    match s.loadCheck (addr j) n with
    | .error t => .error t
    | .ok src =>
      match s.checkLoads n addr r with
      | .error t => .error t
      | .ok l => .ok ((j, src) :: l)

/-- Check the stores of lanes in order. -/
def State.checkStores (s : State) (n : Nat) (addr : Nat → Word) : List Nat → Except Trap (List (Nat × Nat))
  | [] => .ok []
  | j :: r =>
    match s.storeCheck (addr j) n .w with
    | .error t => .error t
    | .ok key =>
      match s.checkStores n addr r with
      | .error t => .error t
      | .ok l => .ok ((j, key) :: l)

/-- Issue a vector load into v[d]: active lanes from their sources, inactive ones zero under Z (R114, R130). -/
def State.issueVLoad (s : State) (k : VMCtl) (d : Reg) (l : List (Nat × LaneSrc)) : State :=
  let n := ewBytes k.ew
  let zero := if k.z then (List.range (64 / n)).filter (fun j => !s.active k.msk n j) else []
  if l.isEmpty then
    s.setV d (ofLanes n ((List.range (64 / n)).map fun j => if k.z then 0 else lane (s.v d) n j))
  else
    let lanes : List LoadLane := (l.map fun e => (⟨8 * n * e.1, n, e.2⟩ : LoadLane)) ++ zero.map fun j => ⟨8 * n * j, n, .val 0⟩
    let keys := l.flatMap fun e => e.2.keys
    let path : Path := if l.all fun e => e.2.path == .gwin then .gwin else .core
    (s.wakeFor keys).issueSites (.load path false (.v d) lanes)
      (l.flatMap fun e => e.2.sitesOn .core)

/-- The lanes that are stored: of the lanes with one address only the highest (R130). -/
def storedLanes (addr : Nat → Word) (l : List (Nat × Nat)) : List (Nat × Nat) :=
  l.filter fun e => !(l.any fun x => decide (e.1 < x.1) && addr x.1 == addr e.1)

/-- Issue a vector store of the active lanes of a value, lane by lane (R130). -/
def State.issueVStore (s : State) (k : VMCtl) (v : VWord) (addr : Nat → Word) (l : List (Nat × Nat)) : State :=
  let n := ewBytes k.ew
  let l := storedLanes addr l
  if l.isEmpty then s
  else
    (s.wakeFor (l.map (·.2))).issue (.store .core (l.map fun e => cellsOf e.2 n (lane v n e.1).toNat))
      (l.map fun e => s.homeAt (addr e.1) e.2)

/-- A vector load whose lanes' addresses come from the source values. -/
def State.vLoad (s : State) (i : Instr) (k : VMCtl) (d : ROp) (srcs : List Opnd) (addr : List VWord → Nat → Word) : Out :=
  s.operateWhen i k.rimm (⟨true, d, .load⟩ :: srcs)
    (fun vs => s.indexesOf (ewBytes k.ew) ((s.memLanes k).map (addr vs)))
    fun rs vs =>
      match s.checkLoads (ewBytes k.ew) (addr vs) (s.memLanes k) with
      | .error t => .error t
      | .ok l => .ok (0, fun s => s.issueVLoad k (rg rs 0) l)

/-- A vector store; the data are source value 0. -/
def State.vStore (s : State) (i : Instr) (k : VMCtl) (d : ROp) (srcs : List Opnd) (addr : List VWord → Nat → Word) : Out :=
  s.operate i k.rimm (vS d :: srcs) fun _ vs =>
    match s.checkStores (ewBytes k.ew) (addr vs) (s.memLanes k) with
    | .error t => .error t
    | .ok l => .ok (0, fun s => s.issueVStore k (sv vs 0) (addr vs) l)

/-- x[a] + sext(imm12) + j × step. -/
def State.strided (s : State) (a : Reg) (imm : BitVec 12) (step : Word) (j : Nat) : Word :=
  s.ea a imm + BitVec.ofNat 64 j * step

/-- x[a] + sext(imm12) + sext(index lane) × w. -/
def State.indexed (s : State) (a : Reg) (k : VMCtl) (ix : VWord) (j : Nat) : Word :=
  let n := ewBytes k.ew
  s.ea a k.imm + BitVec.ofInt 64 (laneInt n (lane ix n j)) * BitVec.ofNat 64 n

def execVld (d : ROp) (a : Reg) (k : VMCtl) (s : State) : Out :=
  s.vLoad (.vld d a k) k d [] fun _ => s.strided a k.imm (BitVec.ofNat 64 (ewBytes k.ew))

def execVst (d : ROp) (a : Reg) (k : VMCtl) (s : State) : Out :=
  s.vStore (.vst d a k) k d [] fun _ => s.strided a k.imm (BitVec.ofNat 64 (ewBytes k.ew))

def execVlds (d : ROp) (a b : Reg) (k : VMCtl) (s : State) : Out :=
  s.vLoad (.vlds d a b k) k d [] fun _ => s.strided a k.imm (s.x b)

def execVgath (d : ROp) (a : Reg) (b : ROp) (k : VMCtl) (s : State) : Out :=
  s.vLoad (.vgath d a b k) k d [vS b] fun vs => s.indexed a k (sv vs 0)

def execVscat (d : ROp) (a : Reg) (b : ROp) (k : VMCtl) (s : State) : Out :=
  s.vStore (.vscat d a b k) k d [vS b] fun vs => s.indexed a k (sv vs 1)

end Sys2Proof.Machine
end

