-- ==== Sys2Proof/Machine/Masks.lean ====
section
/-! DEFINITION. Mask instructions (05 R131), on the stored values of m0 to m7. -/

namespace Sys2Proof.Machine

open Sys2Proof

def execMand (d a b : MReg) (s : State) : Out := .next ((s.setM d (s.m a &&& s.m b)).retire 8)
def execMor (d a b : MReg) (s : State) : Out := .next ((s.setM d (s.m a ||| s.m b)).retire 8)
def execMxor (d a b : MReg) (s : State) : Out := .next ((s.setM d (s.m a ^^^ s.m b)).retire 8)
def execMnot (d a : MReg) (s : State) : Out := .next ((s.setM d (~~~s.m a)).retire 8)
def execMpop (d : Reg) (a : MReg) (s : State) : Out := .next ((s.setX d (popc64 (s.m a))).retire 8)
def execMfirst (d : Reg) (a : MReg) (s : State) : Out := .next ((s.setX d (ctz64 (s.m a))).retire 8)
def execMset (d : MReg) (a : Reg) (s : State) : Out := .next ((s.setM d (s.x a)).retire 8)
def execMsetX (d : Reg) (a : MReg) (s : State) : Out := .next ((s.setX d (s.m a)).retire 8)

end Sys2Proof.Machine
end

