-- ==== Sys2Proof/Machine/Streams.lean ====
section
/-! DEFINITION. Stream instructions (06 R136 to R140) and the steps of fetching and writing elements (R143, R144). -/

namespace Sys2Proof.Machine

open Sys2Proof

/-- SCFG writes the pending copy of a pattern register (R137). -/
def execScfg (sid : BitVec 2) (reg : BitVec 4) (a : Reg) (s : State) : Out :=
  checked s (require (!badSctl reg.toNat (s.x a)) (illegal (.scfg sid reg a))) fun _ =>
    (writePattern sid reg.toNat (s.x a) s).retire 8

/-- Whether WID matches the register file (R135). -/
def Pattern.matchesFile (p : Pattern) (bv : Bool) : Bool := if bv then p.wid == 4 else decide (p.wid.toNat ≤ 3)

/-- SSTART (R138); a v register at or beyond VALLOC.N is refused at decode (R136). -/
def execSstart (sid : BitVec 2) (d : Reg) (bv : Bool) (s : State) : Out :=
  let t := s.stream sid
  let ok := !(bv && decide (s.ctx.valloc.toNat ≤ d.toNat)) && t.pending.matchesFile bv &&
    (match s.ctx.bound bv d with | none => true | some k => k == sid) && decide (t.pending.total < 2 ^ 48)
  checked s (require ok (illegal (.sstart sid d bv))) fun _ =>
    (s.setStream sid { t.stop with
      act := t.pending, active := true, ended := decide (t.pending.total = 0), flt := none, bv := bv, breg := d, spos := 0,
      sflt := 0, got := [], part := .none }).retire 8

/-- SSTOP (R139). -/
def execSstop (sid : BitVec 2) (s : State) : Out := .next ((s.setStream sid (s.stream sid).stop).retire 8)

/-- The status word of SSTAT (R140). -/
def Stream.stat (t : Stream) : Word :=
  bitAt t.act.dir 59 ||| bitAt t.flt.isSome 58 ||| bitAt t.ended 57 ||| bitAt t.active 56 |||
    (match t.flt with | some f => BitVec.ofNat 64 f.n | none => t.spos &&& 0xFFFFFFFFFFFF)

def execSstat (d : Reg) (sid : BitVec 2) (s : State) : Out := .next ((s.setX d (s.stream sid).stat).retire 8)

/-- STREAM_FETCH of stream `k` of context `c`: the next element, while fewer than 16 wait (R143). -/
def execStreamFetch (c k : Nat) (s : State) : Out :=
  .next (s.as c fun s =>
    let i := BitVec.ofNat 2 k
    if (s.stream i).got.length < 16 then s.fetchElem i else s)

/-- The oldest push of a stream is performed, when it may be (R144). R144 orders pushes to one bank only and 11 R286 leaves those to
different homes open: DESIGN CHOICE, the pushes of one stream are performed in push order at every bank (log 48). -/
def State.writePush (s : State) (k : BitVec 2) : State :=
  match (s.stream k).pushes with
  | [] => s
  | e :: _ => s.performPush e

/-- STREAM_WRITE: the oldest push of stream `i` of a context, or a push left by a context that has ended, named by its
place among the orphans. -/
def execStreamWrite (c : Option Nat) (i : Nat) (s : State) : Out :=
  match c with
  | some r => .next (s.as r fun s => s.writePush (BitVec.ofNat 2 i))
  | none =>
    match s.orphans[i]? with
    | some (r, ⟨_, .store .strm [cells], _, _⟩) =>
      let keys := cells.map (·.1)
      .next (if !s.orphanFree i then s
        else if s.powered keys then State.performStore (r / 8) false { s with orphans := removeAt s.orphans i } cells
        else s.wakeFor keys)
    | _ => .next s

end Sys2Proof.Machine
end

