-- ==== Sys2Proof/Machine/Trace.lean ====
section
/-! DEFINITION. Performance counters (16 R376, R377) and the trace ring (16 R370, R380). -/

namespace Sys2Proof.Machine

open Sys2Proof

/-! ## Performance counters -/

/-- Whether a selector counts an event of context `c`; a core-wide event has no context. -/
def pmcCounts (selr : Word) (evt : Nat) (c : Option Nat) : Bool :=
  selr.getLsbD 15 && (selr.extractLsb' 0 8).toNat == evt &&
    (match c with
     | some c => selr.getLsbD (16 + c)
     | none => selr.extractLsb' 16 8 != 0)

/-- Add 1 to counter `n`; a wrap sets its bit of PMCOVF (R377). -/
def Core.pmcBump (co : Core) (n : Fin 8) : Core :=
  let v := co.pmc[n]
  if v = BitVec.allOnes 48 then
    { co with pmc := co.pmc.set n.val 0 n.isLt, pmcovf := co.pmcovf ||| ((1 : BitVec 8) <<< n.val) }
  else { co with pmc := co.pmc.set n.val (v + 1) n.isLt }

/-- Count one occurrence of an event on a core, but not in the counters of `skip`. -/
def Core.pmcCount (evt : Nat) (c : Option Nat) (skip : List Nat) (co : Core) : Core :=
  (List.finRange 8).foldl
    (fun co n => if pmcCounts (co.pmcsel[n]) evt c && !skip.contains n.val then co.pmcBump n else co) co

/-- The end of a cycle counts its events, but not in the counters of `skip`, which it has written (R377). -/
def Core.flush (co : Core) (skip : List Nat) : Core :=
  co.due.foldl (fun co e => co.pmcCount e.1 e.2 skip) { co with due := [] }

/-! ## The trace ring -/

/-- Whether records are captured. -/
def State.tracing (s : State) : Bool := s.dev.trEn && !s.dev.trFrz

/-- The cells that put bytes into the ring from position `pos` on. -/
def ringCells (base pos size : Nat) (l : List Byte) : List Host.Cell :=
  (List.range l.length).zip l |>.map fun e => (base + (pos + e.1) % size, e.2)

/-- Append a record of a type and further words (R380); its address is device-local and lies in HBM. -/
def State.record (s : State) (type : Nat) (ws : List Word) : State :=
  if !s.tracing then s
  else
    let n := 8 * (ws.length + 2)
    let bytes := (BitVec.ofNat 64 (n * 256 + type) :: s.time :: ws).flatMap fun w => leBytes 8 w.toNat
    let size := 2 ^ s.dev.trLog.toNat
    if !s.dev.trWrap && decide (size < s.dev.trpos.toNat + n) then { s with dev := { s.dev with trOvf := true } }
    else
      let cells := ringCells s.dev.trbase.toNat s.dev.trpos.toNat size bytes
      { s.homeStore (cells.filter fun e => isHbmKey e.1) with
        dev := { s.dev with trpos := s.dev.trpos + BitVec.ofNat 64 n } }

/-- KIND of R380. -/
def Kind.code (k : Kind) : Nat :=
  match k with
  | .task => 0
  | .join => 1
  | .msg false => 2
  | .msg true => 3
  | .call => 4
  | .tile => 5

/-- The activation record of R380. 09 R223 says that the trace records carry ROW and COL of a block, and no record of R380 has a place
for them: DESIGN CHOICE, none carries them (log 48). -/
def State.recordActivation (s : State) (r : Nat) (kind : Kind) (tag : BitVec 16) (pc : Word) : State :=
  if s.dev.trAct then
    s.record 1 [BitVec.ofNat 64 (tag.toNat * 2 ^ 32 + kind.code * 2 ^ 16 + (cidOf r).toNat), pc]
  else s

end Sys2Proof.Machine
end

