-- ==== Sys2Proof/Machine/Fetch.lean ====
section
/-! DEFINITION. Fetching an instruction (02 R37 to R42): the 32-byte block, the pad granule, the checks of R41 in order, and
the L1 instruction cache (10 R263). -/

namespace Sys2Proof.Machine

open Sys2Proof

/-- What fetch finds at an address. -/
inductive Fetched where
  | trap (t : Trap)
  | pad
  | instr (i : Instr) (len : Nat)
  /-- the block lies in a CLM region that sleeps (10 R262) -/
  | asleep (key : Nat)
  deriving DecidableEq, Repr

/-- The granule at a memory key: the copy the L1 instruction cache holds, else memory's. -/
def State.granule (s : State) (key : Nat) : BitVec 32 :=
  match find s.core.l1i (key / 4) with
  | some g => g
  | none => BitVec.ofNat 32 (leNat (Mem.bytes s.mem key 4))

/-- `n` granules from a key on. -/
def State.granules (s : State) (key : Nat) : Nat → List (BitVec 32)
  | 0 => []
  | n + 1 => s.granule key :: s.granules (key + 4) n

/-- XFAULT at an address (R41 check 1). -/
def xfault (sub : BitVec 8) (pc : Word) : Trap := ⟨3, sub, pc⟩

/-- Decode what lies at a key whose address is `pc` (R41 checks 2 to 6). -/
def State.fetchKey (s : State) (pc : Word) (key : Nat) : Fetched :=
  let o := pc.toNat % 32
  let g0 := s.granule key
  let two : Word := s.granule (key + 4) ++ g0
  if g0 = 0 then (if o = 0 then .trap ⟨1, 0, two⟩ else .pad)
  else if g0.extractLsb' 0 2 = 0 then .trap ⟨1, 0, g0.zeroExtend 64⟩
  else
    let n := lenGranules g0
    if 32 < o + 4 * n then .trap ⟨2, 0, pc⟩
    else if g0 = 0xFFFFFFFF then .trap ⟨1, 0, two⟩
    else
      match decode (s.granules key n) with
      | .error _ => .trap ⟨1, 0, two⟩
      | .ok (i, _) => if vallocOk s.ctx i then .instr i (4 * n) else .trap ⟨1, 0, two⟩

/-- Fetch at an address. -/
def State.fetchAt (s : State) (pc : Word) : Fetched :=
  match s.site .x pc with
  | .error e => .trap (xfault e pc)
  | .ok (.key key _ _) => if s.powered [key] then s.fetchKey pc key else .asleep key
  | .ok (.window _) => .trap (xfault 6 pc)
  | .ok (.control _) => .trap (xfault 2 pc)

/-- The granules of the block at a key enter the L1 instruction cache, where it does not hold them. It holds 16 KiB of blocks; a
new block that finds no room takes the place of one that the spec leaves open (10 R263, log 21). -/
def State.fillBlock (s : State) (key : Nat) : State :=
  let b := key / 32 * 8
  let add (l : List (Nat × BitVec 32)) := (List.range 8).foldl (fun l n => if (find l (b + n)).isSome then l
    else put l (b + n) (BitVec.ofNat 32 (leNat (Mem.bytes s.mem (4 * (b + n)) 4)))) l
  let bs := (s.core.l1i.map (·.1 / 8)).eraseDups
  if bs.contains (b / 8) || decide (bs.length < Config.l1iBlocks) then { s with core := { s.core with l1i := add s.core.l1i } }
  else
    let out := bs.getD (s.fresh.1.toNat % bs.length) 0
    { s.fresh.2 with core := { s.core with l1i := add (s.core.l1i.filter fun e => e.1 / 8 != out) } }

/-- PC moves to the next block (R40). -/
def State.skipPad (s : State) : State :=
  { s with ctx := { s.ctx with pc := s.ctx.pc - BitVec.ofNat 64 (s.ctx.pc.toNat % 32) + 32 } }

/-- The block at PC is fetched: it enters the L1 instruction cache, and a miss may be counted (16 R376 event 6). -/
def State.fetchIn (s : State) : State :=
  match s.site .x s.ctx.pc with
  | .ok (.key key _ _) =>
    if !s.powered [key] then s
    else if (find s.core.l1i (key / 4)).isSome then s
    else (s.fillBlock key).pmc s.k 6 (some s.c)
  | _ => s

/-- Whether the current context fetches: an instruction that waits has been fetched (04 R102), and a train runs without fetching. -/
def Ctx.fetches (c : Ctx) : Bool := c.phase == .active && c.wait == .none && !(c.wd.wdm && c.wd.state == 1)

/-- FETCH: the block at PC enters the L1 instruction cache, and a pad granule moves PC to the next block without retiring
anything (R40); a failing check of R41 is taken when the instruction would issue. -/
def execFetch (s : State) : Out :=
  .next (if !s.ctx.fetches then s else match s.site .x s.ctx.pc with
    | .ok (.key key _ _) =>
      if s.powered [key] then
        (match s.fetchIn.fetchKey s.ctx.pc key with
         | .pad => s.fetchIn.skipPad
         | _ => s.fetchIn)
      else s.wakeFor [key]
    | _ => s)

end Sys2Proof.Machine
end

