-- ==== Sys2Proof/Machine/Matrix.lean ====
section
/-! DEFINITION. The matrix unit (07 R161 to R174, 03 R78 to R82): the claim, tile moves, tile loads and stores, TMMA, the
mirror exchange. Counted operations are captured at issue and performed in program order (R164). -/

namespace Sys2Proof.Machine

open Sys2Proof

/-! ## Checks -/

/-- Checks 2 and 3 of R164. -/
def State.tileGate (s : State) (i : Instr) : Except Trap Unit :=
  if !isCompute s.k then .error (illegalMode i)
  else if !s.tclm then .error (tilebusy i)
  else .ok ()

/-- Queue a counted operation, at its place in the context's program order. -/
def State.addTile (s : State) (o : TileOp) (homes : List Nat) : State :=
  { s with core := { s.core with tileq := s.core.tileq ++ [⟨s.nextId, o, homes⟩] }, nextId := s.nextId + 1 }

/-- Queue a counted operation and retire. -/
def State.queueTile (s : State) (o : TileOp) (homes : List Nat) : State := (s.addTile o homes).retire 8

/-! ## The claim (R161) -/

/-- TACQ: granted at once when the claim is free and nobody waits, else at the back of the waiting order. -/
def execTacq (s : State) : Out :=
  checked s (require (isCompute s.k) (illegalMode .tacq)) fun _ =>
    if s.tclm then s.retire 8
    else if s.core.claim = none ∧ s.core.tacqs = [] then State.retire 8 { s with core := { s.core with claim := some s.c } }
    else if s.core.tacqs.contains s.c then s.stall .tacq
    else State.stall .tacq { s with core := { s.core with tacqs := s.core.tacqs ++ [s.c] } }

/-- TACQ_GRANT on core `k`: the first waiting context takes a free claim and its TACQ retires. -/
def execTacqGrant (k : Nat) (s : State) : Out :=
  let co := s.getCore k
  match co.claim, co.tacqs with
  | none, c :: r =>
    .next ((s.setCore k { co with claim := some c, tacqs := r }).as (k * 8 + c) (State.retire 8))
  | _, _ => .next s

/-- TREL waits for TLC = 0. -/
def execTrel (s : State) : Out :=
  checked s (s.tileGate .trel) fun _ =>
    if s.core.tileq.isEmpty then State.retire 8 { s with core := { s.core with claim := none, release := false } }
    else s.stall .counters

/-! ## Shapes, zeroing and moves (R165 to R167) -/

def execTcfg (t : Tile) (wid : BitVec 3) (cols : BitVec 7) (rows : BitVec 5) (s : State) : Out :=
  checked s (s.tileGate (.tcfg t wid cols rows)) fun _ => (s.setTshape t ⟨cols, rows, wid⟩).retire 8

def execTzero (t : Tile) (s : State) : Out := checked s (s.tileGate (.tzero t)) fun _ => s.queueTile (.zero t) []

/-- Bytes 64H to 64H + 63 of a row. -/
def halfOf (row : BitVec 1024) (h : Bool) : VWord := if h then row.extractLsb' 512 512 else row.extractLsb' 0 512

def setHalf (row : BitVec 1024) (h : Bool) (v : VWord) : BitVec 1024 :=
  if h then v ++ row.extractLsb' 0 512 else row.extractLsb' 512 512 ++ v

/-- What TMOV reads of a tile (R167). -/
def TileReg.read (t : TileReg) (sel : TSel) : VWord :=
  match sel with
  | .row r h => halfOf (t.rows[r.toNat]'(r.isLt)) h
  | .rs h => ofLanes 4 ((List.range 16).map fun i => (t.sr.toList.getD ((if h then 16 else 0) + i) 0).zeroExtend 64)
  | .ts => t.st.zeroExtend 512

/-- What TMOV writes into a tile. -/
def TileReg.write (t : TileReg) (sel : TSel) (v : VWord) : TileReg :=
  match sel with
  | .row r h => { t with rows := t.rows.set r.toNat (setHalf (t.rows[r.toNat]'(r.isLt)) h v) r.isLt }
  | .rs h =>
    let b := if h then 16 else 0
    { t with sr := Vector.ofFn fun i : Fin 32 =>
      if b ≤ i.val ∧ i.val < b + 16 then low32 (lane v 4 (i.val - b)) else t.sr[i] }
  | .ts => { t with st := low32 (lane v 4 0) }

/-- Decode and binding uses, then core and claim, then the wait for TLC = 0 (R164, 13 R322). -/
def State.tmovGate (s : State) (i : Instr) (o : Opnd) (k : Out) : Out :=
  match openUses i s.ctx 0 [o] with
  | .error t => .next (s.trap t)
  | .ok _ =>
    match s.tileGate i with
    | .error t => .next (s.trap t)
    | .ok _ => if s.core.tileq.isEmpty then k else .next (s.stall .counters)

def execTmovFr (d : Reg) (t : Tile) (sel : TSel) (s : State) : Out :=
  s.tmovGate (.tmovFr d t sel) ⟨true, direct d, .load⟩ (.next ((s.setV d ((s.tile t).read sel)).retire 8))

def execTmovTo (d : Reg) (t : Tile) (sel : TSel) (s : State) : Out :=
  s.tmovGate (.tmovTo d t sel) (vS (direct d))
    (s.operate (.tmovTo d t sel) 0 [vS (direct d)] fun _ vs =>
      .ok (0, fun s => s.setTile t ((s.tile t).write sel (sv vs 0))))

/-! ## Tile loads and stores (R168 to R171) -/

/-- The page format a tile access finds at its base: none on a plain page or an aliased range. -/
structure TileBase where
  fdi : BitVec 6
  fd  : Option Fd
  deriving DecidableEq, Repr

/-- A fault of a tile load or store. -/
def tfault (ld : Bool) (sub : BitVec 8) (a : Word) : Trap := if ld then lfault sub a else sfault sub a

/-- Rows 2 to 5 of R99 for one address of a tile access: its key and page. -/
def State.tileSite (s : State) (ld : Bool) (va : Word) : Except Trap (Nat × BitVec 6) :=
  match s.site (if ld then .r else .w) va with
  | .error e => .error (tfault ld e va)
  | .ok (.key k f _) => .ok (k, f)
  | .ok (.window _) => .error (tfault ld 6 va)
  | .ok (.control _) => .error (tfault ld 2 va)

/-- Whether an index selects plain memory in the core's address space. -/
def State.plainHere (s : State) (fdi : BitVec 6) : Bool :=
  fdi == 0 || (match s.space s.k with
    | some sp => fdPlain (s.fdEntry sp fdi)
    | none => false)

/-- The format descriptor an index selects in the core's address space. -/
def State.fdHere (s : State) (fdi : BitVec 6) : Option Fd :=
  match s.space s.k with
  | some sp => s.fd sp fdi
  | none => none

/-- The format at the base; an invalid descriptor faults with subcode 7, one outside HBM with subcode 1 (10 R269). -/
def State.tileBase (s : State) (ld : Bool) (va : Word) : Except Trap TileBase :=
  match s.tileSite ld va with
  | .error t => .error t
  | .ok (_, fdi) =>
    if s.plainHere fdi then .ok ⟨fdi, none⟩
    else
      match s.fdHere fdi with
      | some d => .ok ⟨fdi, some d⟩
      | none => .error (tfault ld (s.fdSub (s.space s.k) fdi) va)

/-- Check the further planes of an element. -/
def State.planeKeys (s : State) (ld : Bool) (d : Fd) (i : Nat) : List Nat → Except Trap (List Nat)
  | [] => .ok []
  | p :: r =>
    match s.tileSite ld (d.planeAddr i p) with
    | .error t => .error t
    | .ok (k, _) =>
      match s.planeKeys ld d i r with
      | .error t => .error t
      | .ok l => .ok (k :: l)

/-- Check one element at `va`: its plane keys, its scale word's address and key when it has one. -/
def State.tileElem (s : State) (ld : Bool) (b : TileBase) (e np : Nat) (va : Word) : Except Trap (List Nat × Option (Nat × Nat)) :=
  if va.toNat % e ≠ 0 then .error (alignTrap va)
  else
    match s.tileSite ld va with
    | .error t => .error t
    | .ok (k, f) =>
      if f ≠ b.fdi then .error (tfault ld 7 va)
      else
        match b.fd with
        | none => .ok ((List.range e).map (k + ·), none)
        | some d =>
          match d.elem va with
          | some (0, i) =>
            match s.planeKeys ld d i ((List.range (np - 1)).map (· + 1)) with
            | .error t => .error t
            | .ok ks =>
              if !ld then .ok (k :: ks, none)
              else if (d.scaleAddr i).toNat % 4 ≠ 0 then .error (alignTrap (d.scaleAddr i))
              else
                match s.tileSite ld (d.scaleAddr i) with
                | .error t => .error t
                | .ok (g, _) => .ok (k :: ks, some (d.scaleIdx i, g))
          | _ => .error (tfault ld 7 va)

/-- An element of a tile access, checked: its place, address, plane keys and scale. -/
structure TileHit where
  row   : Nat
  col   : Nat
  va    : Word
  keys  : List Nat
  scale : Option (Nat × Nat)
  deriving DecidableEq, Repr

/-- Check elements in order. -/
def State.tileElems (s : State) (ld : Bool) (b : TileBase) (e np : Nat) (addr : Nat → Nat → Word) :
    List (Nat × Nat) → Except Trap (List TileHit)
  | [] => .ok []
  | (i, c) :: r =>
    match s.tileElem ld b e np (addr i c) with
    | .error t => .error t
    | .ok (ks, g) =>
      match s.tileElems ld b e np addr r with
      | .error t => .error t
      | .ok l => .ok (⟨i, c, addr i c, ks, g⟩ :: l)

/-- The tile elements in check order: rows, then elements. -/
def TShape.elems (t : TShape) : List (Nat × Nat) :=
  (List.range (t.rows.toNat + 1)).flatMap fun i => (List.range (t.cols.toNat + 1)).map fun c => (i, c)

/-- Planes of a page format that a tile of WID 0 or 2 reads: k. -/
def tilePlanes (wid : BitVec 3) : Nat := if wid = 2 then 2 else 1

/-- The PLN values a width accepts on some page (check 4), and on a plane page (R169). -/
def plnSome (wid pln : BitVec 3) : Bool := pln == 0 || (wid == 0 && pln == 1) || (wid == 2 && pln == 2)

/-- Whether a width may be loaded from a plane page. -/
def planeWid (wid : BitVec 3) : Bool := wid == 0 || wid == 2

/-- The one-block rules of R170; `tr` for TTLD. -/
def blockRule (tr block : Bool) (l : List TileHit) : Except Trap Unit :=
  match l with
  | [] => .ok ()
  | h :: _ =>
    let off (x y : TileHit) : Bool := (x.scale.map (·.1)) != (y.scale.map (·.1))
    if tr then
      match l.find? (off h) with
      | some x => .error (alignTrap x.va)
      | none => .ok ()
    else if block then .ok ()
    else
      match l.find? fun x => match l.find? fun y => y.row == x.row && y.col == 0 with
          | some y => off y x
          | none => false with
      | some x =>
        match l.find? fun y => y.row == x.row && y.col == 0 with
        | some y => .error (alignTrap y.va)
        | none => .ok ()
      | none => .ok ()

/-- The checks of TLD and TTLD from check 4 on, and the captured operation. A width that the page's format does not accept is LFAULT
at the base, with subcode 7, since R319 names none (log 48). -/
def State.tileLoad (s : State) (i : Instr) (t : Tile) (a b : Reg) (imm : BitVec 12) (pln : BitVec 3) (prnd tr : Bool) :
    Except Trap TileOp :=
  let sh := s.tshape t
  let base := s.ea a imm
  if !plnSome sh.wid pln then .error (illegal i)
  else
    match s.tileBase true base with
    | .error e => .error e
    | .ok tb =>
      let w := tileBytes sh.wid
      let k := tilePlanes sh.wid
      match tb.fd with
      | none =>
        if pln != 0 then .error (illegal i)
        else
          let addr (r c : Nat) : Word :=
            if tr then base + BitVec.ofNat 64 c * s.x b + BitVec.ofNat 64 (r * w)
            else base + BitVec.ofNat 64 r * s.x b + BitVec.ofNat 64 (c * w)
          match s.tileElems true tb w 1 addr sh.elems with
          | .error e => .error e
          | .ok l => .ok (.load t w 1 1 false false (l.map fun h => ⟨h.row, h.col, h.keys⟩) [])
      | some d =>
        if !planeWid sh.wid then .error (lfault 7 base)
        else
          let np := if prnd && decide (k < d.npl) then d.npl else min k d.npl
          let addr (r c : Nat) : Word :=
            if tr then base + BitVec.ofNat 64 c * s.x b + BitVec.ofNat 64 r
            else base + BitVec.ofNat 64 r * s.x b + BitVec.ofNat 64 c
          match s.tileElems true tb 1 np addr sh.elems with
          | .error e => .error e
          | .ok l =>
            match blockRule tr d.block l with
            | .error e => .error e
            | .ok _ =>
              let scales := (l.filter (·.col == 0)).filterMap fun h => h.scale.map fun g => (h.row, g.2)
              .ok (.load t w np k prnd true (l.map fun h => ⟨h.row, h.col, h.keys⟩) scales)

/-- The homes of a tile load's or store's elements: an element of a plane page lives at the home of its plane-0 byte (10 R277). -/
def TileOp.homes : TileOp → List Nat
  | .load _ _ _ _ _ _ elems _ => elems.filterMap fun e => e.addrs.head?.map homeOf
  | .store _ _ elems => elems.filterMap fun e => e.addrs.head?.map homeOf
  | _ => []

/-- The homes that a captured tile load or store reaches: those of its elements, and of the scale words of its rows, which lie where
their own addresses lead (10 R264). -/
def State.tileHomes (s : State) (a b : Reg) (imm : BitVec 12) (tr : Bool) (o : TileOp) : List Nat :=
  let base := s.ea a imm
  match o, s.tileBase true base with
  | .load _ _ _ _ _ _ _ scales, .ok ⟨_, some d⟩ =>
    o.homes ++ scales.map fun e =>
      match d.elem (base + (if tr then BitVec.ofNat 64 e.1 else BitVec.ofNat 64 e.1 * s.x b)) with
      | some (_, i) => s.homeAt (d.scaleAddr i) e.2
      | none => homeOf e.2
  | _, _ => o.homes

def execTld (t : Tile) (a b : Reg) (imm : BitVec 12) (pln : BitVec 3) (prnd : Bool) (s : State) : Out :=
  let i : Instr := .tld t a b imm pln prnd
  match s.tileGate i with
  | .error e => .next (s.trap e)
  | .ok _ => checked s (s.tileLoad i t a b imm pln prnd false) fun o => s.queueTile o (s.tileHomes a b imm false o)

def execTtld (t : Tile) (a b : Reg) (imm : BitVec 12) (pln : BitVec 3) (prnd : Bool) (s : State) : Out :=
  let i : Instr := .ttld t a b imm pln prnd
  match s.tileGate i with
  | .error e => .next (s.trap e)
  | .ok _ => checked s (s.tileLoad i t a b imm pln prnd true) fun o => s.queueTile o (s.tileHomes a b imm true o)

/-- The checks of TST from check 5 on (R171). A width other than 0 on a plane page is SFAULT at the base, with subcode 7, since R319
names none (log 48). -/
def State.tileStore (s : State) (t : Tile) (a b : Reg) (imm : BitVec 12) : Except Trap TileOp :=
  let sh := s.tshape t
  let base := s.ea a imm
  match s.tileBase false base with
  | .error e => .error e
  | .ok tb =>
    if tb.fd.isSome && sh.wid != 0 then .error (sfault 7 base)
    else
      let w := tileBytes sh.wid
      let addr (r c : Nat) : Word := base + BitVec.ofNat 64 r * s.x b + BitVec.ofNat 64 (c * w)
      match s.tileElems false tb w 1 addr sh.elems with
      | .error e => .error e
      | .ok l => .ok (.store t w (l.map fun h => ⟨h.row, h.col, h.keys⟩))

def execTst (t : Tile) (a b : Reg) (imm : BitVec 12) (s : State) : Out :=
  match s.tileGate (.tst t a b imm) with
  | .error e => .next (s.trap e)
  | .ok _ => checked s (s.tileStore t a b imm) fun o => s.queueTile o (s.tileHomes a b imm false o)

/-! ## Multiply-accumulate (R172, R173) -/

/-- The widths TMMA requires of A and B, and of C. -/
def mmaWids (f : TFmt) : BitVec 3 × BitVec 3 :=
  match f with
  | .p1 => (0, 3)
  | .e4m3 => (0, 3)
  | .i8 => (1, 3)
  | .p2 => (2, 3)
  | .s => (3, 3)
  | .d => (4, 4)

def execTmma (t ta tb : Tile) (fmt : TFmt) (s : State) : Out :=
  let i : Instr := .tmma t ta tb fmt
  match s.tileGate i with
  | .error e => .next (s.trap e)
  | .ok _ =>
    let w := mmaWids fmt
    checked s
      (require ((s.tshape ta).wid == w.1 && (s.tshape tb).wid == w.1 && (s.tshape t).wid == w.2) (illegal i))
      fun _ => s.queueTile (.mma t ta tb fmt) []

/-- `n` elements of `w` bytes of a row. -/
def rowElems (row : BitVec 1024) (w n : Nat) : List Nat :=
  (List.range n).map fun c => row.toNat / 2 ^ (8 * w * c) % 2 ^ (8 * w)

/-- The row elements of `w` bytes spell. -/
def elemsNat (w : Nat) : List Nat → Nat
  | [] => 0
  | x :: r => x % 2 ^ (8 * w) + 2 ^ (8 * w) * elemsNat w r

def rowOf (w : Nat) (l : List Nat) : BitVec 1024 := BitVec.ofNat 1024 (elemsNat w l)

/-- A row of exact operands: the integers and whether one is NaN. -/
def pkRow (k n : Nat) (row : BitVec 1024) : List Int × Bool :=
  let l := rowElems row k n
  (l.map (pkInt k), l.any (pkNaN k))

/-- One row of C after an exact-block TMMA (R79, R81). -/
def mmaBlockRow (k lsb n : Nat) (a : BitVec 1024) (sa : BitVec 32) (bs : List (List Int × Bool)) (sb : BitVec 32)
    (c : BitVec 1024) : BitVec 1024 :=
  let ra := pkRow k n a
  rowOf 4 ((bs.zip (rowElems c 4 32)).map fun e =>
    (blockUpdate lsb (ra.2 || e.1.2) (dotInt ra.1 e.1.1) sa sb (BitVec.ofNat 32 e.2)).toNat)

/-- One row of C after TMMA.I8 (R80). -/
def mmaI8Row (a : BitVec 1024) (bs : List (List Int)) (c : BitVec 1024) : BitVec 1024 :=
  let ra := (rowElems a 1 128).map fun x => (BitVec.ofNat 8 x).toInt
  rowOf 4 ((bs.zip (rowElems c 4 32)).map fun e => (BitVec.ofInt 32 (dotInt ra e.1 + e.2)).toNat)

/-- One row of C after TMMA.S or TMMA.D (R82). -/
def mmaFpRow (f : Fmt) (w n : Nat) (a : BitVec 1024) (bs : List (List Word)) (c : BitVec 1024) : BitVec 1024 :=
  let ra := (rowElems a w n).map (BitVec.ofNat 64)
  rowOf w ((bs.zip (rowElems c w n)).map fun e => (fmaChain f ra e.1 (BitVec.ofNat 64 e.2)).toNat)

/-- C + A·Bᵀ on the data of three tiles. -/
def mmaTile (fmt : TFmt) (c a b : TileReg) : TileReg :=
  let rowsB := b.rows.toList
  let upd (f : Nat → BitVec 1024 → BitVec 1024) : TileReg :=
    { c with rows := Vector.ofFn fun i : Fin 32 => f i.val c.rows[i] }
  match fmt with
  | .p1 =>
    let bs := rowsB.map (pkRow 1 128)
    upd fun i r => mmaBlockRow 1 18 128 (a.rows.toList.getD i 0) (a.sr.toList.getD i 0) bs b.st r
  | .e4m3 =>
    let bs := rowsB.map (pkRow 1 128)
    upd fun i r => mmaBlockRow 1 18 128 (a.rows.toList.getD i 0) (a.sr.toList.getD i 0) bs b.st r
  | .p2 =>
    let bs := rowsB.map (pkRow 2 64)
    upd fun i r => mmaBlockRow 2 34 64 (a.rows.toList.getD i 0) (a.sr.toList.getD i 0) bs b.st r
  | .i8 =>
    let bs := rowsB.map fun x => (rowElems x 1 128).map fun v => (BitVec.ofNat 8 v).toInt
    upd fun i r => mmaI8Row (a.rows.toList.getD i 0) bs r
  | .s =>
    let bs := rowsB.map fun x => (rowElems x 4 32).map (BitVec.ofNat 64)
    upd fun i r => mmaFpRow .s 4 32 (a.rows.toList.getD i 0) bs r
  | .d =>
    let bs := (rowsB.take 16).map fun x => (rowElems x 8 16).map (BitVec.ofNat 64)
    upd fun i r => mmaFpRow .d 8 16 (a.rows.toList.getD i 0) bs r

/-! ## Performing a counted operation (R164) -/

/-- 1.0 in FP32. -/
def one32 : BitVec 32 := 0x3F800000

/-- A zeroed tile (R166). -/
def TileReg.zeroed : TileReg := ⟨Vector.replicate 32 0, Vector.replicate 32 one32, one32⟩

/-- The value of a tile element as its planes or bytes stand in memory. -/
def TileElem.value (m : List Host.Cell) (k : Nat) (rne plane : Bool) (e : TileElem) : Nat :=
  let bs := e.addrs.map (Mem.get m)
  if plane then readPlanes bs.length k rne (planeWord bs) else leNat bs

/-- The tile a load fills (R169, R170). -/
def loadTile (m : List Host.Cell) (w k : Nat) (rne plane : Bool) (elems : List TileElem) (scales : List (Nat × Nat)) : TileReg :=
  let rows : Vector (BitVec 1024) 32 := Vector.ofFn fun i : Fin 32 =>
    BitVec.ofNat 1024 (((elems.filter (·.row == i.val)).map fun e => e.value m k rne plane * 2 ^ (8 * w * e.col)).sum)
  let sr : Vector (BitVec 32) 32 := Vector.ofFn fun i : Fin 32 =>
    match find scales i.val with
    | some g => BitVec.ofNat 32 (leNat (Mem.bytes m g 4))
    | none => one32
  ⟨rows, sr, sr[0]⟩

/-- The bytes a tile store writes. -/
def storeCells (t : TileReg) (w : Nat) (elems : List TileElem) : List Host.Cell :=
  elems.flatMap fun e =>
    e.addrs.zip (leBytes w ((t.rows.toList.getD e.row 0).toNat / 2 ^ (8 * w * e.col) % 2 ^ (8 * w)))

/-- The memory keys of a counted operation. -/
def TileOp.keys : TileOp → List Nat
  | .zero _ => []
  | .load _ _ _ _ _ _ elems scales => (elems.flatMap (·.addrs)) ++ scales.flatMap fun e => byteKeys e.2 4
  | .store _ _ elems => elems.flatMap (·.addrs)
  | .mma .. => []
  | .bytes cells => cells.map (·.1)

/-- Perform a counted operation on the current core. -/
def State.runTile (s : State) (o : TileOp) : State :=
  match o with
  | .zero t => s.setTile t .zeroed
  | .load t w _ k rne plane elems scales => (s.setTile t (loadTile s.mem w k rne plane elems scales)).touch s.k o.keys
  | .store t w elems => State.performStore s.k false s (storeCells (s.tile t) w elems)
  | .mma t a b fmt => s.setTile t (mmaTile fmt (s.tile t) (s.tile a) (s.tile b))
  | .bytes cells => State.performStore s.k false s cells

/-- Whether an earlier access of the current context goes before its queued tile operation (11 R286, R293). -/
def State.tileBlocked (s : State) (o : Counted) : Bool :=
  (s.ctx.pend.any fun p => decide (p.id < o.id) && p.at .tile o.homes) || s.readsAfter o.id o.op.keys

/-- Whether a queued tile operation of the current core shares a home with addresses of a TILE access. -/
def State.tileConflict (s : State) (homes : List Nat) : Bool :=
  s.core.tileq.any fun o => o.homes.any fun h => homes.contains h

/-! ## Mirror exchange (R174) -/

/-- TSWAP waits for TLC = 0, offers its tile, and waits for the mirrored core. -/
def execTswap (t : Tile) (s : State) : Out :=
  checked s (s.tileGate (.tswap t)) fun _ =>
    if s.core.tileq.isEmpty then State.stall .tswap { s with core := { s.core with offer := some (s.c, t) } }
    else s.stall .counters

/-- TSWAP_EXCHANGE of core `k` and its mirror: data, scales and shapes change places and both TSWAPs retire. -/
def execTswapExchange (k : Nat) (s : State) : Out :=
  let m := mirrorOf k
  let a := s.getCore k
  let b := s.getCore m
  match isCompute k, a.offer, b.offer with
  | true, some (ca, ta), some (cb, tb) =>
    let da := a.tiles[ta.toNat]'(ta.isLt)
    let db := b.tiles[tb.toNat]'(tb.isLt)
    let ha := a.tshape[ta.toNat]'(ta.isLt)
    let hb := b.tshape[tb.toNat]'(tb.isLt)
    let a' := { a with tiles := a.tiles.set ta.toNat db ta.isLt, tshape := a.tshape.set ta.toNat hb ta.isLt, offer := none }
    let b' := { b with tiles := b.tiles.set tb.toNat da tb.isLt, tshape := b.tshape.set tb.toNat ha tb.isLt, offer := none }
    .next ((((s.setCore k a').setCore m b').as (k * 8 + ca) (State.retire 8)).as (m * 8 + cb) (State.retire 8))
  | _, _, _ => .next s

end Sys2Proof.Machine
end

