-- ==== Sys2Proof/Machine/Plane.lean ====
section
/-! DEFINITION. The plane instructions (07 R175 to R186) and the arithmetic of the NEAR operations at the home QSC. -/

namespace Sys2Proof.Machine

open Sys2Proof

/-! ## Checks (R175) -/

/-- The operand of a plane instruction: its descriptor and element. -/
structure PlaneAt where
  fd : Fd
  i  : Nat
  deriving DecidableEq, Repr

/-- Steps 1 and 2: the operand at an address, read as a load or as a store. -/
def State.planeAt (s : State) (ld : Bool) (va : Word) : Except Trap PlaneAt :=
  match s.site (if ld then .r else .w) va with
  | .error e => .error (tfault ld e va)
  | .ok (.window _) => .error (tfault ld 6 va)
  | .ok (.control _) => .error (tfault ld 2 va)
  | .ok (.key _ fdi isAlias) =>
    if isAlias || fdi = 0 then .error (tfault ld 7 va)
    else
      match s.fdHere fdi with
      | none => .error (tfault ld (s.fdSub (s.space s.k) fdi) va)
      | some d =>
        match d.elem va with
        | some (0, i) => .ok ⟨d, i⟩
        | _ => .error (tfault ld 7 va)

/-- Step 4 for one address: R99, then a bound window. `ld` chooses the fault, `acc` the permission. -/
def State.planeKey (s : State) (ld : Bool) (acc : Acc) (va : Word) : Except Trap Nat :=
  match s.site acc va with
  | .error e => .error (tfault ld e va)
  | .ok (.key k _ _) => .ok k
  | .ok (.window _) => .error (tfault ld 6 va)
  | .ok (.control _) => .error (tfault ld 2 va)

/-- The planes of an element in order: of the element's address rows 2 to 4 of R99, then the tensor bound, then a bound
window, the order in which step 4 lists them (log 48). -/
def State.elemKeys (s : State) (ld : Bool) (acc : Acc) (d : Fd) (i : Nat) : List Nat → Except Trap (List Nat)
  | [] => .ok []
  | p :: r =>
    let va := d.planeAddr i p
    match s.site acc va with
    | .error e => .error (tfault ld e va)
    | .ok _ =>
      if p = 0 ∧ d.rows * d.cols ≤ i then .error (tfault ld 7 va)
      else
        match s.planeKey ld acc va with
        | .error t => .error t
        | .ok k =>
          match s.elemKeys ld acc d i r with
          | .error t => .error t
          | .ok l => .ok (k :: l)

/-- Elements in order, each with its planes and then its scale word: plane keys and scale key. -/
def State.sliceKeys (s : State) (ld : Bool) (acc sacc : Acc) (d : Fd) (np : Nat) : List Nat → Except Trap (List (List Nat × Nat))
  | [] => .ok []
  | i :: r =>
    match s.elemKeys ld acc d i (List.range np) with
    | .error t => .error t
    | .ok ks =>
      match s.planeKey ld sacc (d.scaleAddr i) with
      | .error t => .error t
      | .ok g =>
        match s.sliceKeys ld acc sacc d np r with
        | .error t => .error t
        | .ok l => .ok ((ks, g) :: l)

/-- The 16 elements from an element on. -/
def sixteen (i : Nat) : List Nat := (List.range 16).map (i + ·)

/-- A slice or block under the scale of its first element. A slice that crosses rows, which only a tensor whose COLS is not a
multiple of 16 has, also takes that one scale, as R181 says that a slice lies in one block (log 48). -/
def mkSlice (l : List (List Nat × Nat)) : Slice := ⟨l.map (·.1), (l.head?.map (·.2)).getD 0⟩

/-- The 32-bit word at a memory key. -/
def State.word32 (s : State) (key : Nat) : BitVec 32 := BitVec.ofNat 32 (leNat (Mem.bytes s.mem key 4))

/-- The homes of elements of a tensor, each that of its plane-0 byte, and of their scale words, which lie where their own addresses lead
(10 R264, R277). -/
def State.sliceHomes (s : State) (d : Fd) (els : List Nat) (l : List (List Nat × Nat)) : List Nat :=
  (els.zip l).flatMap fun e =>
    (e.2.1.head?.map (s.homeAt (d.planeAddr e.1 0))).toList ++ [s.homeAt (d.scaleAddr e.1) e.2.2]

/-- The bytes of elements and of their scale words; and of the scale words alone. -/
def allKeys (l : List (List Nat × Nat)) : List Nat := l.flatMap fun e => byteKeys e.2 4 ++ e.1
def scaleKeys (l : List (List Nat × Nat)) : List Nat := l.flatMap fun e => byteKeys e.2 4

/-- Whether the context has an earlier TILE access at one of the homes: outstanding, or a queued tile operation. The
instruction then waits before it makes its own (11 R286). -/
def State.tileOrder (s : State) (homes : List Nat) : Bool :=
  s.tileConflict homes || s.ctx.pend.any fun p => p.at .tile homes

/-- Whether an instruction may make its own TILE reads of keys now: nothing earlier of its context goes first, and the
regions are awake. -/
def State.tileReady (s : State) (homes keys : List Nat) : Bool :=
  !s.tileOrder homes && !s.readsAfter s.nextId keys && s.powered keys

/-- Keys that an instruction reads at issue, whatever it then comes to. -/
def readNow (keys : List Nat) : LaneSrc := .gather keys [] [] 1

/-! ## LDP, STP, PSCL (R177 to R179) -/

/-- The FP32 lane and flags of an element read as k planes. -/
def State.ldpLane (s : State) (k : Nat) (rne : Bool) (e : List Nat × Nat) : FRes :=
  let bs := e.1.map (Mem.get s.mem)
  fromPk k (readPlanes bs.length k rne (planeWord bs)) (s.word32 e.2)

/-- NV once when a scale read is invalid (05 R121). -/
def State.scalesFlag (s : State) (l : List (List Nat × Nat)) : Flags :=
  if l.any fun e => !scaleOk (s.word32 e.2) then flagNV else 0

/-- Planes k of a PLN field. -/
def planesOf (pln : BitVec 3) (n : Nat) : Nat := if pln = 0 then n else pln.toNat

/-- The slice of LDP: its operand, the planes k, and the checked elements with the planes that are read. -/
def State.ldpSlice (s : State) (a : Reg) (imm : BitVec 12) (pln : BitVec 3) (prnd : Bool) :
    Except Trap (PlaneAt × Nat × List (List Nat × Nat)) :=
  match s.planeAt true (s.ea a imm) with
  | .error t => .error t
  | .ok p =>
    let k := planesOf pln p.fd.npl
    let np := if prnd && decide (k < p.fd.npl) then p.fd.npl else min k p.fd.npl
    match s.sliceKeys true .r .r p.fd np (sixteen p.i) with
    | .error t => .error t
    | .ok l => .ok (p, k, l)

/-- LDP reads memory at issue, because its flags may trap (log 7). -/
def execLdp (d a : Reg) (imm : BitVec 12) (pln : BitVec 3) (prnd : Bool) (s : State) : Out :=
  let i : Instr := .ldp d a imm pln prnd
  match openUses i s.ctx 0 [⟨true, direct d, .load⟩], s.ldpSlice a imm pln prnd with
  | .ok _, .ok (p, k, l) =>
    let homes := s.sliceHomes p.fd (sixteen p.i) l
    if !s.tileReady homes (allKeys l) then .next ((s.wakeFor (allKeys l)).stall .counters)
    else
      s.operateWhen i 0 [⟨true, direct d, .load⟩] (fun _ => [readNow (allKeys l)]) fun _ _ =>
        let rs := l.map (s.ldpLane k prnd)
        .ok (laneFlags rs ||| s.scalesFlag l, fun s =>
          s.issue
            (.load .tile false (.v d) ((List.range 16).map fun j => ⟨32 * j, 4, .val (rs.getD j ⟨0, 0⟩).bits⟩)) homes)
  | _, chk =>
    s.operate i 0 [⟨true, direct d, .load⟩] fun _ _ =>
      match chk with
      | .error t => .error t
      | .ok _ => .ok (0, id)

/-- The plane bytes STP stores for an element, plane by plane: k rounded planes, then zeros. -/
def stpBatches (k : Nat) (x : BitVec 32) (g : BitVec 32) (ks : List Nat) : List (List Host.Cell) :=
  let w := (toPk k x g).w
  (ks.zip (planeBytes k w ++ List.replicate (ks.length - k) 0)).map fun e => [e]

/-- The slice of STP: its operand, the planes k, and the checked elements with all their planes. -/
def State.stpSlice (s : State) (a : Reg) (imm : BitVec 12) (pln : BitVec 3) : Except Trap (PlaneAt × Nat × List (List Nat × Nat)) :=
  match s.planeAt false (s.ea a imm) with
  | .error t => .error t
  | .ok p =>
    match s.sliceKeys false .w .r p.fd p.fd.npl (sixteen p.i) with
    | .error t => .error t
    | .ok l => .ok (p, min (planesOf pln p.fd.npl) p.fd.npl, l)

def execStp (d a : Reg) (imm : BitVec 12) (pln : BitVec 3) (s : State) : Out :=
  let i : Instr := .stp d a imm pln
  match openUses i s.ctx 0 [vS (direct d)], s.stpSlice a imm pln with
  | .ok _, .ok (p, k, l) =>
    let homes := s.sliceHomes p.fd (sixteen p.i) l
    if !s.tileReady homes (scaleKeys l) then .next ((s.wakeFor (scaleKeys l)).stall .counters)
    else
      s.operateWhen i 0 [vS (direct d)] (fun _ => [readNow (scaleKeys l)]) fun _ vs =>
        let x (j : Nat) : BitVec 32 := low32 (lane (sv vs 0) 4 j)
        let js := (List.range 16).zip l
        let fl := (js.map fun e => (toPk k (x e.1) (s.word32 e.2.2)).fl).foldl (· ||| ·) (s.scalesFlag l)
        .ok (fl, fun t =>
          (t.wakeFor (allKeys l)).issue
            (.store .tile (js.flatMap fun e => stpBatches k (x e.1) (s.word32 e.2.2) e.2.1)) homes)
  | _, chk =>
    s.operate i 0 [vS (direct d)] fun _ _ =>
      match chk with
      | .error t => .error t
      | .ok _ => .ok (0, id)

/-- The scale word of PSCL: its key and its home. -/
def State.psclScale (s : State) (a : Reg) (imm : BitVec 12) : Except Trap (Nat × Nat) :=
  match s.planeAt true (s.ea a imm) with
  | .error t => .error t
  | .ok p =>
    match s.planeKey true .r (p.fd.scaleAddr p.i) with
    | .error t => .error t
    | .ok g => .ok (g, s.homeAt (p.fd.scaleAddr p.i) g)

def execPscl (d a : Reg) (imm : BitVec 12) (s : State) : Out :=
  match openUses (.pscl d a imm) s.ctx 0 [⟨false, direct d, .load⟩], s.psclScale a imm with
  | .error t, _ => .next (s.trap t)
  | _, .error t => .next (s.trap t)
  | .ok _, .ok (g, home) =>
    if s.tileConflict [home] then .next (s.stall .counters)
    else .next (((s.wakeFor [g]).issue (.load .tile false (.f d) [⟨0, 4, .mem g home⟩]) [home]).retire 8)

/-! ## NEAR operations (R180 to R183): checks and issue -/

/-- Elements of the scale block that holds element `i`, in increasing order (03 R71). -/
def Fd.blockElems (d : Fd) (i : Nat) : List Nat :=
  let row := i / d.cols
  let col := i % d.cols / 128 * 128
  let cs := (List.range (min 128 (d.cols - col))).map (col + ·)
  let rows := if d.block then (let r0 := row / 128 * 128; (List.range (min 128 (d.rows - r0))).map (r0 + ·)) else [row]
  rows.flatMap fun r => cs.map fun c => r * d.cols + c

/-- The homes of a block's elements and scale. R265 performs PRESCALE and BADDQ at the home of the scale word: DESIGN CHOICE, in program
order they stand at the homes of all the block's elements too (log 18). -/
def State.blockHomesOf (s : State) (e : PlaneAt × List (List Nat × Nat)) : List Nat :=
  s.sliceHomes e.1.fd (e.1.fd.blockElems e.1.i) e.2

/-- PRESCALE: the block and its scale are written, so all its addresses are checked as a store. -/
def execPrescale (d a : Reg) (imm : BitVec 12) (b : Reg) (s : State) : Out :=
  let r : Except Trap (PlaneAt × List (List Nat × Nat)) :=
    match s.planeAt false (s.ea a imm) with
    | .error t => .error t
    | .ok p =>
      match s.sliceKeys false .w .w p.fd p.fd.npl (p.fd.blockElems p.i) with
      | .error t => .error t
      | .ok l => .ok (p, l)
  checked s r fun e =>
    ((s.wakeFor (allKeys e.2)).issue (.prescale d (s.x b) (mkSlice e.2)) (s.blockHomesOf e)).retire 8

/-- The slice of PAXPY and of each side of PSGDM: aligned to 16 elements (R181, R182). -/
def State.slice16 (s : State) (va : Word) : Except Trap (PlaneAt × List (List Nat × Nat)) :=
  match s.planeAt false va with
  | .error t => .error t
  | .ok p =>
    if p.i % 16 ≠ 0 then .error (alignTrap va)
    else
      match s.sliceKeys false .w .r p.fd p.fd.npl (sixteen p.i) with
      | .error t => .error t
      | .ok l => .ok (p, l)

/-- The homes of such a slice. -/
def State.homes16 (s : State) (e : PlaneAt × List (List Nat × Nat)) : List Nat := s.sliceHomes e.1.fd (sixteen e.1.i) e.2

def execPaxpy (d a : Reg) (imm : BitVec 12) (b : Reg) (s : State) : Out :=
  s.operate (.paxpy d a imm b) 0 [fS (direct d), vS (direct b)] fun _ vs =>
    match s.slice16 (s.ea a imm) with
    | .error t => .error t
    | .ok e =>
      .ok (0, fun t => (t.wakeFor (allKeys e.2)).issue (.paxpy (low32 (sf vs 0)) (sv vs 1) (mkSlice e.2)) (s.homes16 e))

def execPsgdm (d a : Reg) (imm : BitVec 12) (b c : Reg) (s : State) : Out :=
  s.operate (.psgdm d a imm b c) 0 [fS (direct d), vS (direct b)] fun _ vs =>
    match s.slice16 (s.ea a imm) with
    | .error t => .error t
    | .ok w =>
      match s.slice16 (s.x c) with
      | .error t => .error t
      | .ok m =>
        .ok (0, fun t => (t.wakeFor (allKeys m.2 ++ allKeys w.2)).issue
          (.psgdm ((sf vs 0).extractLsb' 0 32) ((sf vs 0).extractLsb' 32 32) (sv vs 1) (mkSlice m.2) (mkSlice w.2) none)
          (s.homes16 m ++ s.homes16 w))

/-- A BADDQ operand: in the 1×128 geometry, the first element of its block (R183). -/
def State.baddqAt (s : State) (ld : Bool) (va : Word) : Except Trap PlaneAt :=
  match s.planeAt ld va with
  | .error t => .error t
  | .ok p =>
    if p.fd.block then .error (tfault ld 7 va)
    else if p.i % p.fd.cols % 128 ≠ 0 then .error (alignTrap va)
    else .ok p

/-- The two blocks of BADDQ: the destination is checked as a store, then the source as a load (log 18). -/
def State.baddqBlocks (s : State) (a : Reg) (imm : BitVec 12) (b : Reg) :
    Except Trap ((PlaneAt × List (List Nat × Nat)) × PlaneAt × List (List Nat × Nat)) :=
  match s.baddqAt false (s.ea a imm) with
  | .error t => .error t
  | .ok p =>
    match s.sliceKeys false .w .w p.fd p.fd.npl (p.fd.blockElems p.i) with
    | .error t => .error t
    | .ok dl =>
      match s.baddqAt true (s.x b) with
      | .error t => .error t
      | .ok q =>
        if (q.fd.blockElems q.i).length ≠ (p.fd.blockElems p.i).length then .error (alignTrap (s.x b))
        else
          match s.sliceKeys true .r .r q.fd 1 (q.fd.blockElems q.i) with
          | .error t => .error t
          | .ok sl => .ok ((p, dl), q, sl)

def execBaddq (a : Reg) (imm : BitVec 12) (b : Reg) (s : State) : Out :=
  checked s (s.baddqBlocks a imm b) fun e =>
    ((s.wakeFor (allKeys e.1.2 ++ allKeys e.2.2)).issue (.baddq (mkSlice e.1.2) (mkSlice e.2.2))
      (s.blockHomesOf e.1 ++ s.blockHomesOf e.2)).retire 8

/-! ## Arithmetic at the home -/

/-- The word of an element as it stands. -/
def elemWord (m : List Host.Cell) (ks : List Nat) : Nat := planeWord (ks.map (Mem.get m))

/-- The cells that write an element's planes. -/
def elemCells (ks : List Nat) (w : Nat) : List Host.Cell := ks.zip (planeBytes ks.length w)

/-- The exact product, with the special cases of IEEE 754. -/
def Fp.mulExact (a b : Fp) : Fp :=
  match a, b with
  | .nan _, _ => .nan false
  | _, .nan _ => .nan false
  | .inf s, .inf t => .inf (s != t)
  | .inf s, .fin t m _ => if m = 0 then .nan false else .inf (s != t)
  | .fin s m _, .inf t => if m = 0 then .nan false else .inf (s != t)
  | .fin s m e, .fin t n g => .fin (s != t) (m * n) (e + g)

/-- The exact sum; an exact zero is +0 unless both terms are −0 (R181, R182). -/
def Fp.addExact (a b : Fp) : Fp :=
  match a, b with
  | .nan _, _ => .nan false
  | _, .nan _ => .nan false
  | .inf s, .inf t => if s = t then .inf s else .nan false
  | .inf s, .fin .. => .inf s
  | .fin .., .inf t => .inf t
  | .fin s m e, .fin t n g =>
    let l := if e ≤ g then e else g
    let z := signedAt s m e l + signedAt t n g l
    if z = 0 then .fin (s && t && m = 0 && n = 0) 0 0 else .fin (decide (z < 0)) z.natAbs l

/-- FP32 bits as a number. -/
def fpOf32 (b : BitVec 32) : Fp := Fp.ofIeee .s (b.zeroExtend 64)

/-- A value stored under a valid scale g into n planes, and whether it saturates: NaN, infinite, finite (R181, R182). -/
def storeValue (n : Nat) (v : Fp) (g : BitVec 32) : Nat × Bool :=
  let F := pkFmt n
  match v, fpOf32 g with
  | .nan _, _ => (pkNaNWord n, false)
  | .inf s, _ => (F.maxW + (if s then 2 ^ F.sign else 0), true)
  | .fin s m e, .fin _ q h =>
    if m = 0 then (if s then 2 ^ F.sign else 0, false)
    else
      let d := divMag m e q h
      let r := pkRound n s d.1 d.2.1 d.2.2
      (r.w, r.fl &&& flagOF != 0)
  | .fin .., _ => (pkNaNWord n, false)

/-- The new words of a slice and the number of saturations; NaN elements are kept. -/
def sliceUpdate (m : List Host.Cell) (g : BitVec 32) (f : Nat → Fp → Fp) : Nat → List (List Nat) → List (List Nat × Nat) × Nat
  | _, [] => ([], 0)
  | j, ks :: r =>
    let W := elemWord m ks
    let n := ks.length
    let rest := sliceUpdate m g f (j + 1) r
    if pkNaN n W then rest
    else
      let v := storeValue n (f j ((pkValue n W).mulExact (fpOf32 g))) g
      ((ks, v.1) :: rest.1, rest.2 + (if v.2 then 1 else 0))

/-- PAXPY (R181): cells written and saturations. -/
def paxpyCells (m : List Host.Cell) (a : BitVec 32) (x : VWord) (sl : Slice) : List Host.Cell × Nat :=
  let g := BitVec.ofNat 32 (leNat (Mem.bytes m sl.scale 4))
  if !scaleOk g then ([], 0)
  else
    let r := sliceUpdate m g (fun j w => w.addExact ((fpOf32 a).mulExact (fpOf32 (low32 (lane x 4 j))))) 0 sl.elems
    (r.1.flatMap fun e => elemCells e.1 e.2, r.2)

/-- Step 1 of PSGDM (R182): cells, saturations, and the momentum values step 2 uses, each as scale and word. -/
def psgdmStep1 (m : List Host.Cell) (mu : BitVec 32) (g : VWord) (sl : Slice) :
    Option (List Host.Cell × Nat × List (Option (BitVec 64))) :=
  let gm := BitVec.ofNat 32 (leNat (Mem.bytes m sl.scale 4))
  if !scaleOk gm then none
  else
    let r := sliceUpdate m gm (fun j w => ((fpOf32 mu).mulExact w).addExact (fpOf32 (low32 (lane g 4 j)))) 0 sl.elems
    let cells := r.1.flatMap fun e => elemCells e.1 e.2
    let m' := Mem.setAll m cells
    let mr := sl.elems.map fun ks =>
      let W := elemWord m' ks
      if pkNaN ks.length W then none else some (gm ++ BitVec.ofNat 32 W)
    some (cells, r.2, mr)

/-- The value of a momentum element kept from step 1, of `n` planes. -/
def mrValue (n : Nat) (o : Option (BitVec 64)) : Fp :=
  match o with
  | none => .nan false
  | some b => (pkValue n (b.extractLsb' 0 32).toNat).mulExact (fpOf32 (b.extractLsb' 32 32))

/-- Step 2 of PSGDM. -/
def psgdmStep2 (m : List Host.Cell) (lr : BitVec 32) (nm : Nat) (mr : List (Option (BitVec 64))) (sl : Slice) : List Host.Cell × Nat :=
  let gw := BitVec.ofNat 32 (leNat (Mem.bytes m sl.scale 4))
  if !scaleOk gw then ([], 0)
  else
    let r := sliceUpdate m gw (fun j w => w.addExact (((fpOf32 lr).mulExact (mrValue nm (mr.getD j none))).neg)) 0 sl.elems
    (r.1.flatMap fun e => elemCells e.1 e.2, r.2)

/-- A power of two as an FP32 number. -/
def pow2Fp (e : Int) : Fp := .fin false 1 e

/-- PRESCALE (R180): the status and the cells written. -/
def prescaleCells (m : List Host.Cell) (s : Word) (sl : Slice) : Word × List Host.Cell :=
  let g := BitVec.ofNat 32 (leNat (Mem.bytes m sl.scale 4))
  let ex : Int := (g.toNat / 2 ^ 23 : Nat) + s.toInt
  if !scaleOk g || ex < 1 || 254 < ex then (0x8000000000000000, [])
  else
    let one (ks : List Nat) : Word × List Host.Cell :=
      let W := elemWord m ks
      let n := ks.length
      if pkNaN n W then (0, [])
      else
        match pkValue n W with
        | .fin sg mg e =>
          if mg = 0 then (0, [])
          else
            let r := pkRound n sg mg (e - s.toInt) false
            (if r.fl &&& flagOF != 0 then 2 else if r.fl &&& flagNX != 0 then 1 else 0, elemCells ks r.w)
        | _ => (0, [])
    let rs := sl.elems.map one
    let g' := BitVec.ofNat 32 (ex.toNat * 2 ^ 23 + g.toNat % 2 ^ 23)
    ((rs.map (·.1)).foldl (· ||| ·) 0, (rs.flatMap (·.2)) ++ cellsOf sl.scale 4 g'.toNat)

/-- 2^⌈log2(mx / 448)⌉ within 2^−126 to 2^127, as an exponent (R183, 15 R360). -/
def quantExp (mx : Fp) : Int :=
  match mx with
  | .fin _ m e =>
    let t : Int := e + Nat.log2 m
    -- mx ≤ 1.75 × 2^t ?
    let c : Int := if 4 * m ≤ 7 * 2 ^ Nat.log2 m then t - 8 else t - 7
    if c < -126 then -126 else if 127 < c then 127 else c
  | _ => 0

/-- The larger of two finite magnitudes; a value that is not finite counts as none. -/
def maxMag (a b : Fp) : Fp :=
  match a, b with
  | .fin _ m e, .fin _ n g =>
    let l := if e ≤ g then e else g
    if m <<< (e - l).toNat < n <<< (g - l).toNat then b else a
  | _, .fin .. => b
  | _, _ => a

/-- The scale and the E4M3 bytes of a block of FP32 values (R183, 15 R360). -/
def requant (ts : List (BitVec 32)) : BitVec 32 × List Nat :=
  let mx := (ts.map fpOf32).foldl maxMag (.fin false 0 0)
  let e : Int := match mx with | .fin _ m _ => if m = 0 then 0 else quantExp mx | _ => 0
  (BitVec.ofNat 32 ((e + 127).toNat * 2 ^ 23), ts.map fun t =>
    match fpOf32 t with
    | .fin s m x => (pkOf 1 (.fin s m (x - e))).w
    | v => (pkOf 1 v).w)

/-- BADDQ (R183): the cells written. -/
def baddqCells (m : List Host.Cell) (dst src : Slice) : List Host.Cell :=
  let gd := BitVec.ofNat 32 (leNat (Mem.bytes m dst.scale 4))
  let gs := BitVec.ofNat 32 (leNat (Mem.bytes m src.scale 4))
  let p0 (ks : List Nat) : Nat := match ks with | k :: _ => (Mem.get m k).toNat | [] => 0
  let ts := (dst.elems.zip src.elems).map fun e =>
    low32 (ieeeAdd .s .rne (fromPk 1 (p0 e.1) gd).bits (fromPk 1 (p0 e.2) gs).bits).bits
  let q := requant ts
  ((dst.elems.zip q.2).flatMap fun e => elemCells e.1 (e.2 * 2 ^ (8 * (e.1.length - 1)))) ++ cellsOf dst.scale 4 q.1.toNat

/-- PSAT counts saturations and holds at its maximum (R184). -/
def Ctx.addPsat (c : Ctx) (n : Nat) : Ctx := { c with psat := BitVec.ofNat 32 (min (c.psat.toNat + n) 0xFFFFFFFF) }

end Sys2Proof.Machine
end

