-- ==== Sys2Proof/Machine/Replay.lean ====
section
/-! DEFINITION. The repetition buffer (06 R151 to R160): capture, the issue of body instructions, the end of a replay. -/

namespace Sys2Proof.Machine

open Sys2Proof

/-- The meaning of an instruction that may stand in a body (R153); none for any other. -/
def bodyMeaning (i : Instr) : Option (State → Out) :=
  match i with
  | .fld d a imm wd => some (execFld d a imm wd)
  | .fst d a imm wd => some (execFst d a imm wd)
  | .fadd d a b k => some (execFadd d a b k)
  | .fsub d a b k => some (execFsub d a b k)
  | .fmul d a b k => some (execFmul d a b k)
  | .fdiv d a b k => some (execFdiv d a b k)
  | .fsqrt d a k => some (execFsqrt d a k)
  | .fmin d a b fmt rimm => some (execFmin d a b fmt rimm)
  | .fmax d a b fmt rimm => some (execFmax d a b fmt rimm)
  | .feq d a b fmt rimm => some (execFeq d a b fmt rimm)
  | .flt d a b fmt rimm => some (execFlt d a b fmt rimm)
  | .fle d a b fmt rimm => some (execFle d a b fmt rimm)
  | .fclass d a fmt rimm => some (execFclass d a fmt rimm)
  | .fsgn d a b mode fmt rimm => some (execFsgn d a b mode fmt rimm)
  | .fmvX d a fmt rimm => some (execFmvX d a fmt rimm)
  | .fmvF d a fmt rimm => some (execFmvF d a fmt rimm)
  | .fcvt code d a frm rimm => some (execFcvt code d a frm rimm)
  | .fma d a b c k => some (execFma d a b c k)
  | .fms d a b c k => some (execFms d a b c k)
  | .fnma d a b c k => some (execFnma d a b c k)
  | .fnms d a b c k => some (execFnms d a b c k)
  | .vadd d a b k => some (execVadd d a b k)
  | .vsub d a b k => some (execVsub d a b k)
  | .vmul d a b k => some (execVmul d a b k)
  | .vdiv d a b k => some (execVdiv d a b k)
  | .vsqrt d a k => some (execVsqrt d a k)
  | .vmin d a b k => some (execVmin d a b k)
  | .vmax d a b k => some (execVmax d a b k)
  | .vabs d a k => some (execVabs d a k)
  | .vneg d a k => some (execVneg d a k)
  | .vand d a b k => some (execVand d a b k)
  | .vor d a b k => some (execVor d a b k)
  | .vxor d a b k => some (execVxor d a b k)
  | .vshl d a b k => some (execVshl d a b k)
  | .vshr d a b k => some (execVshr d a b k)
  | .vsra d a b k => some (execVsra d a b k)
  | .vcmp d a b cond k => some (execVcmp d a b cond k)
  | .vsel d a b c k => some (execVsel d a b c k)
  | .vexp2 d a k => some (execVexp2 d a k)
  | .vrcp d a k => some (execVrcp d a k)
  | .vrsq d a k => some (execVrsq d a k)
  | .vcvt code d a b k => some (execVcvt code d a b k)
  | .vfma d a b c k => some (execVfma d a b c k)
  | .vfms d a b c k => some (execVfms d a b c k)
  | .vbcast d a k => some (execVbcast d a k)
  | .vins d a b k => some (execVins d a b k)
  | .vext d a b k => some (execVext d a b k)
  | .vperm d a b k => some (execVperm d a b k)
  | .vslide d a b c k => some (execVslide d a b c k)
  | .vredsum d a b k => some (execVredsum d a b k)
  | .vredmax d a b k => some (execVredmax d a b k)
  | .vredmin d a b k => some (execVredmin d a b k)
  | .vtopk d a b c k => some (execVtopk d a b c k)
  | .vtopkm d a b c k => some (execVtopkm d a b c k)
  | .vsortk d a c k => some (execVsortk d a c k)
  | .vld d a k => some (execVld d a k)
  | .vst d a k => some (execVst d a k)
  | .vlds d a b k => some (execVlds d a b k)
  | .vgath d a b k => some (execVgath d a b k)
  | .vscat d a b k => some (execVscat d a b k)
  | .mand d a b => some (execMand d a b)
  | .mor d a b => some (execMor d a b)
  | .mxor d a b => some (execMxor d a b)
  | .mnot d a => some (execMnot d a)
  | .mpop d a => some (execMpop d a)
  | .mfirst d a => some (execMfirst d a)
  | .mset d a => some (execMset d a)
  | .msetX d a => some (execMsetX d a)
  | .tcfg t wid cols rows => some (execTcfg t wid cols rows)
  | .tzero t => some (execTzero t)
  | .tmovFr d t sel => some (execTmovFr d t sel)
  | .tmovTo d t sel => some (execTmovTo d t sel)
  | .tld t a b imm pln prnd => some (execTld t a b imm pln prnd)
  | .ttld t a b imm pln prnd => some (execTtld t a b imm pln prnd)
  | .tst t a b imm => some (execTst t a b imm)
  | .tmma t ta tb fmt => some (execTmma t ta tb fmt)
  | .ldp d a imm pln prnd => some (execLdp d a imm pln prnd)
  | .stp d a imm pln => some (execStp d a imm pln)
  | .pscl d a imm => some (execPscl d a imm)
  | .prescale d a imm b => some (execPrescale d a imm b)
  | .paxpy d a imm b => some (execPaxpy d a imm b)
  | .psgdm d a imm b c => some (execPsgdm d a imm b c)
  | .baddq a imm b => some (execBaddq a imm b)
  | _ => none

/-- Whether an instruction belongs to a class of R153. -/
def inBody (i : Instr) : Bool := (bodyMeaning i).isSome

/-- Why a capture stops: a trap, or a block in a CLM region that sleeps. -/
inductive CaptureStop where
  | trap (t : Trap)
  | asleep (key : Nat)
  deriving DecidableEq, Repr

/-- Capture `n` instructions from `p` on: the body, the address of its first instruction and the address after it; `fuel`
bounds the pad granules passed. -/
def State.capture (s : State) : Nat → Nat → Word → List Instr → Word → Except CaptureStop (List Instr × Word × Word)
  | _, 0, p, body, first => .ok (body, first, p)
  | 0, _ + 1, p, _, _ => .error (.trap ⟨2, 0, p⟩)
  | fuel + 1, n + 1, p, body, first =>
    match s.fetchAt p with
    | .trap t => .error (.trap t)
    | .asleep key => .error (.asleep key)
    | .pad => s.capture fuel (n + 1) (p - BitVec.ofNat 64 (p.toNat % 32) + 32) body first
    | .instr i len =>
      if inBody i then s.capture fuel n (p + BitVec.ofNat 64 len) (body ++ [i]) (if body.isEmpty then p else first)
      else .error (.trap ⟨1, 0, low64 i⟩)

/-- Start a replay of `len` + 1 instructions (R154). -/
def State.frep (s : State) (i : Instr) (cnt : Nat) (len : BitVec 4) : Out :=
  if s.ctx.rep.act then .next (s.trap (illegal i))
  else if 0xFFFFFFFF < cnt then .next (s.trap (illegal i))
  else
    match s.capture 64 (len.toNat + 1) (s.ctx.pc + 8) [] 0 with
    | .error (.trap t) => .next (s.trap t)
    | .error (.asleep key) => .next ((s.wakeFor [key]).stall .counters)
    | .ok (body, first, p) =>
      .next (if cnt = 0 then s.jump p
      else
        State.jump p { s with ctx := { s.ctx with rep :=
          { s.ctx.rep with act := true, len := BitVec.ofNat 5 (len.toNat + 1), cnt := BitVec.ofNat 32 cnt, bt := false,
                           slot := 0, iter := 0, pc := first, body := body, held := false, issuing := false, loads := [], ends := [] } } })

def execFrep (a : Reg) (len : BitVec 4) (s : State) : Out := s.frep (.frep a len) (s.x a).toNat len
def execFrepi (count : BitVec 12) (len : BitVec 4) (s : State) : Out := s.frep (.frepi count len) count.toNat len

/-! ## Results of VFMA.D and VFMS.D (17 R385) -/

/-- The v register a VFMA or VFMS with EW 5 writes. -/
def fmaDest (c : Ctx) (i : Instr) : Option Reg :=
  let dest (d : ROp) (k : VCtl) : Option Reg :=
    if k.ew == .d then
      (if d.rel then (match relIndex c k.rimm (vD d) with | .ok r => some r | .error _ => none) else some d.n)
    else none
  match i with
  | .vfma d _ _ _ k => dest d k
  | .vfms d _ _ _ k => dest d k
  | _ => none

/-- The cycle of the current core's island. -/
def State.cycleNow (s : State) : Word := (s.island (islandOf s.k)).cycle

/-- Whether an issued VFMA.D has not written its destination before this cycle (`n` = 4), or by the end of it (`n` = 3). -/
def State.unwrittenBy (s : State) (n : Nat) (e : Fma) : Bool := decide ((s.cycleNow - e.cycle).toNat < n)

def State.unwritten (s : State) (e : Fma) : Bool := s.unwrittenBy 4 e

/-- Note a VFMA.D that has issued; those that have written are forgotten. -/
def Ctx.addFma (c : Ctx) (s : State) (e : Fma) : Ctx := { c with fma := c.fma.filter s.unwritten ++ [e] }

/-! ## The course of a replay (R155) -/

/-- Whether a body instruction that has issued has not written its destination: the replay has not ended; `n` as in `unwrittenBy`. -/
def State.replayWrites (s : State) (n : Nat) : Bool :=
  (s.ctx.fma.any fun e => e.body && s.unwrittenBy n e) || s.ctx.rep.loads.any fun i => s.ctx.pend.any (·.id == i)

/-- Whether every body instruction of an iteration that has issued has completed. -/
def State.iterDone (s : State) (n : Nat) (e : Nat × Word) : Bool :=
  !(s.ctx.fma.any fun f => f.body && s.unwrittenBy n f && decide ((e.2 - f.cycle).toNat < 4)) &&
    !(s.ctx.rep.loads.any fun i => decide (i < e.1) && s.ctx.pend.any (·.id == i))

/-- Move past a body instruction that has issued: SLOT and ITER name the next one. -/
def Replay.advance (r : Replay) (id : Nat) (cycle : Word) : Replay :=
  let r := { r with issuing := false }
  if r.slot.toNat + 1 = r.len.toNat then { r with slot := 0, iter := r.iter + 1, ends := r.ends ++ [(id, cycle)] }
  else { r with slot := r.slot + 1 }

/-- The iterations of the current context's replay whose body instructions have written their destinations are counted (16 R376 event
16), and the replay ends when its last one has (R155, 17 R385). -/
def State.settleReplay (n : Nat) (s : State) : State :=
  let done := s.ctx.rep.ends.filter (s.iterDone n)
  let s := done.foldl (fun s _ => s.pmc s.k 16 (some s.c)) s
  let r := { s.ctx.rep with ends := s.ctx.rep.ends.filter fun e => !s.iterDone n e }
  { s with ctx := { s.ctx with rep := if s.replayWrites n || r.held then r else r.settle } }

/-- The replays of core `k`'s contexts whose last writes are done end (06 R155). -/
def State.settleOn (n k : Nat) (s : State) : State :=
  (ctxsOf k).foldl (fun s r => if (s.getCtx r).rep.act then s.as r (State.settleReplay n) else s) s

/-- The accesses of a context that will write a register, from identifier `n` on. -/
def Ctx.loadsFrom (c : Ctx) (n : Nat) : List Nat :=
  (c.pend.filter fun p => decide (n ≤ p.id) && match p.op with | .load .. => true | .prescale .. => true | _ => false).map (·.id)

/-- Leave the step of a body instruction that began with `n` as the next identifier: it has trapped (the replay is held, or
gone with its handler), waits, or has completed. What the integer side waits for and has fetched stays; `d` is what a VFMA.D is to
write. -/
def State.afterBody (n : Nat) (w : Wait) (d : Option Reg) (s : State) : State :=
  if !s.ctx.rep.issuing then s
  else if s.ctx.wait != .none then { s with ctx := { s.ctx with wait := w, rep := { s.ctx.rep with issuing := false } } }
  else
    let c := match d with | some r => s.ctx.addFma s ⟨r, s.cycleNow, true⟩ | none => s.ctx
    State.settleReplay 4 { s with ctx := { c with
      wait := w
      rep := { c.rep.advance s.nextId s.cycleNow with
        loads := (c.rep.loads.filter fun i => c.pend.any (·.id == i)) ++ c.loadsFrom n } } }

/-- FREP_BODY_ISSUE: the current context issues its next body instruction from the captured copy. -/
def execFrepBodyIssue (s : State) : Out :=
  let r := s.ctx.rep
  if !r.act || r.held || decide (r.cnt.toNat ≤ r.iter.toNat) then .next s
  else
    match r.body[r.slot.toNat]? with
    | none => .next s
    | some i =>
      match bodyMeaning i with
      | none => .next s
      | some f =>
        match f { s with ctx := { s.ctx with wait := .none, rep := { r with issuing := true } } } with
        | .next t => .next (t.afterBody s.nextId s.ctx.wait (fmaDest s.ctx i))
        | .fault e => .fault e
        | .refused e => .refused e

end Sys2Proof.Machine
end

