-- ==== Sys2Proof/Machine/Hold.lean ====
section
/-! DEFINITION. What holds a context's next instruction back at issue, apart from what its own rule makes it wait for (04 R101, 06 R144,
R155, R156, 07 R164, 11 R289, 17 R385). -/

namespace Sys2Proof.Machine

open Sys2Proof

/-- The major opcode. -/
def opOf (i : Instr) : Nat :=
  match encode i with
  | [] => 0x7F
  | g :: _ => (Lo.unpack g).op.toNat

/-- The register an outstanding access writes. -/
def PendOp.dest : PendOp → Option (RFile × Reg)
  | .load _ _ (.x r _ _) _ => some (.x, r)
  | .load _ _ (.f r) _ => some (.f, r)
  | .load _ _ (.v r) _ => some (.v, r)
  | .amo _ _ _ _ _ d _ => some (.x, d)
  | .prescale d _ _ => some (.x, d)
  | _ => none

/-- An instruction waits for a register that an outstanding access of its context writes: it reads it, or it writes it and
the writes stay in program order (04 R101). -/
def Ctx.conflicts (c : Ctx) (i : Instr) : Bool :=
  !c.pend.isEmpty && c.pend.any fun p =>
    match p.op.dest with
    | some (file, r) => (regUses c i).any fun u => u.file == file && u.n == r
    | none => false

/-- Whether an acquiring read of the context is not performed (11 R289). -/
def Ctx.acquiring (c : Ctx) : Bool :=
  c.pend.any fun p => match p.op with | .load _ acq _ _ => acq | .amo _ _ _ _ _ _ acq => acq | _ => false

/-- Whether the counters and push queues leave room for any instruction (04 R101, 06 R144, 07 R164). -/
def State.roomy (s : State) : Bool :=
  decide (s.ctx.ldc < 32) && decide (s.ctx.stc < 240) && decide (s.tlc < 255) &&
    s.ctx.streams.toList.all fun t => decide (t.pushes.length < 16)

/-- Whether an instruction reads the destination of an unwritten VFMA.D or VFMS.D (17 R385). -/
def State.fmaBusy (s : State) (i : Instr) : Bool :=
  s.ctx.fma.any fun e => s.unwritten e && (regUses s.ctx i).any fun u => u.file == .v && u.n == e.reg && !u.w

/-- Whether a replay is not over, so that the integer side may issue what R156 lists only. -/
def State.replaying (s : State) : Bool := s.ctx.rep.act && !s.ctx.rep.held

/-- Whether something holds an instruction back: an acquiring read, a register, a VFMA.D; the first instruction of a trap handler waits
for every earlier load (04 R101). -/
def State.heldFor (s : State) (i : Instr) : Bool :=
  s.ctx.acquiring || (s.ctx.drain && s.ctx.ldc != 0) || s.ctx.conflicts i || s.fmaBusy i

/-- What the integer side may issue during a replay (06 R156). R156 has system instructions wait, and 13 R338 has a BRK reached by fetch
during a replay trap on the integer side: DESIGN CHOICE, a BRK waits for the replay's end like the others and traps then (log 48). -/
def sideIssues (c : Ctx) (i : Instr) : Bool :=
  let op := opOf i
  let classOk := op ≤ 0x06 || (0x10 ≤ op && op ≤ 0x13) || op == 0x18 || op == 0x19 ||
    (match i with
     | .scfg .. => true
     | .csrr _ n => isPattern n.toNat
     | .csrw _ n _ => isPattern n.toNat
     | .csrs _ n _ => isPattern n.toNat
     | .csrc _ n _ => isPattern n.toNat
     | _ => false)
  let mine := (regUses c i).filter (·.file == .x)
  classOk && c.rep.body.all fun j =>
    (regUses c j).all fun u => u.file != .x || mine.all fun v => v.n != u.n || !(v.w || u.w)

/-- Whether each of the two sequences of a replay, or the one sequence there is otherwise, is held back (12 R313): its body's next
instruction, and the instruction at PC. -/
def State.stalled (s : State) : Bool :=
  let side := match (if s.ctx.wait == .none then none else s.ctx.fetched), s.fetchAt s.ctx.pc with
    | some i, _ => s.heldFor i
    | none, .instr i _ => s.heldFor i || (s.replaying && !sideIssues s.ctx i)
    | none, .asleep _ => true
    | none, _ => false
  side && !(s.replaying && (match s.ctx.rep.body[s.ctx.rep.slot.toNat]? with
    | some i => decide (s.ctx.rep.iter.toNat < s.ctx.rep.cnt.toNat) && !s.heldFor i
    | none => false))

end Sys2Proof.Machine
end

