-- ==== Sys2Proof/Machine/Activate.lean ====
section
/-! DEFINITION. What tasks, messages and tiles share: releasing instructions (08 R188), reading a record, the task record
(R190), the deque (12 R308), starting a context (01 R13, R14, R16, 10 R261, 12 R309, R311). -/

namespace Sys2Proof.Machine

open Sys2Proof

/-! ## Releasing instructions -/

/-- Whether LDC = 0 and STC = 0. -/
def Ctx.drained (c : Ctx) : Bool := c.ldc == 0 && c.stc == 0

/-- A releasing instruction, its checks done, performs its effect once LDC and STC are 0 (R188). -/
def State.releasing (s : State) (i : Instr) (k : State → Out) : Out :=
  if s.ctx.drained then k s else .next (s.stall (.release i))

/-- ILLEGAL with SUB 2 in a message handler (R189). -/
def State.notHandler (s : State) (i : Instr) : Except Trap Unit := require (!s.ctx.hnd) (illegalMode i)

/-- SQFULL (R189). -/
def sqfull (sub : BitVec 8) (v : Word) : Trap := ⟨10, sub, v⟩

/-- Take SQFULL, which a counter may count (16 R376). -/
def State.trapFull (s : State) (sub : BitVec 8) (v : Word) : State := (s.pmc s.k 15 (some s.c)).trap (sqfull sub v)

/-! ## Reading records -/

/-- The bytes at keys of a gather window, unit by unit (10 R282); `fuel` bounds the units. -/
def State.unitsAt (s : State) (u : Nat) : Nat → List Nat → List Byte
  | 0, _ => []
  | _ + 1, [] => []
  | fuel + 1, k :: r => s.unitAt k (min u (r.length + 1)) ++ s.unitsAt u fuel ((k :: r).drop (max 1 u))

/-- The words at checked addresses, read on the CORE path, or through a gather window on its own, whose index words have been read. -/
def State.readWords : State → List LaneSrc → List Word × State
  | s, [] => ([], s)
  | s, .mem k _ :: r =>
    let a := State.coreRead s.k false s k 8
    let b := State.readWords a.2 r
    (BitVec.ofNat 64 a.1 :: b.1, b.2)
  | s, .val v :: r =>
    let b := State.readWords s r
    (v :: b.1, b.2)
  | s, .gather _ k _ u :: r =>
    let b := State.readWords (State.touch s.k s k) r
    (BitVec.ofNat 64 (leNat (s.unitsAt u k.length k)) :: b.1, b.2)

/-- The keys of checked addresses. -/
def srcKeys (l : List LaneSrc) : List Nat := l.flatMap LaneSrc.keys

/-- Run `k` on the words of a record once its banks are awake and no earlier access has still to read them (11 R293). -/
def State.withRecord (s : State) (l : List LaneSrc) (w : Wait) (k : List Word → State → Out) : Out :=
  if s.powered (srcKeys l) && !s.readsAfter s.nextId (srcKeys l) then
    let r := s.readWords l
    k r.1 r.2
  else .next ((s.wakeFor (srcKeys l)).stall w)

/-! ## Task records (R190) -/

def TaskRec.ofWords (l : List Word) : TaskRec :=
  ⟨l.getD 0 0, l.getD 1 0, l.getD 2 0, l.getD 3 0, l.getD 4 0, l.getD 5 0, l.getD 6 0, false⟩

def TaskRec.words (r : TaskRec) : List Word := [r.pc, r.a0, r.a1, r.a2, r.a3, r.join, r.ctl, 0]

/-- A program address: bits 1:0 zero, canonical. -/
def pcOk (w : Word) : Bool := w.extractLsb' 0 2 == 0 && canonical w

/-- The checks of R191 on the eight words of a task record. -/
def taskOk (l : List Word) : Bool :=
  pcOk (l.getD 0 0) && (l.getD 6 0) &&& 0xFFFFFFFF0000F080 == 0 && l.getD 7 0 == 0

def TaskRec.prio (r : TaskRec) : BitVec 7 := r.ctl.extractLsb' 0 7
def TaskRec.dom (r : TaskRec) : BitVec 2 := r.ctl.extractLsb' 8 2
def TaskRec.rtag (r : TaskRec) : BitVec 16 := r.ctl.extractLsb' 16 16

/-- Registers a VREQ asks for. -/
def vreqRegs (v : BitVec 2) : Nat := 8 * (v.toNat + 1)

def TaskRec.regs (r : TaskRec) : Nat := vreqRegs (r.ctl.extractLsb' 10 2)

/-! ## Deques (12 R308): oldest first, the siding's records older than the hardware's -/

/-- A record enters the siding of core `k`. The station master has set aside a region of the job's memory for it: the records are
written there one after another, 64 bytes each, 2^20 places round; without a region they lie in no memory (R308; log 6). -/
def State.sideTask (k : Nat) (s : State) (r : TaskRec) : State :=
  let c := s.getCore k
  let s := s.setCore k { c with siding := c.siding ++ [r], dqIn := c.dqIn + 1 }
  match c.dqAt with
  | some a => s.homeWrite (cellsAt (a + 64 * (c.dqIn % Config.dequeSidingSize)) (r.words.flatMap fun w => leBytes 8 w.toNat))
  | none => s

/-- A record that reaches a core's deque ends its search for work (12 R309). -/
def Core.endThief (c : Core) : Core := { c with thief := ⟨0, 0, false⟩, stealing := none }

/-- Push a record on the bottom of core `k`'s deque; DQOVF when both parts are full (R308). -/
def State.pushTask (k : Nat) (s : State) (r : TaskRec) : State :=
  let c := (s.getCore k).endThief
  if c.deque.length < 64 then s.setCore k { c with deque := c.deque ++ [r] }
  else if Config.dequeSidingSize ≤ c.siding.length then s.fatal k 4
  else (c.deque.take 1).foldl (State.sideTask k) (s.setCore k { c with deque := c.deque.drop 1 ++ [r] })

/-- The newest record of a deque and the deque without it. -/
def Core.popTask (c : Core) : Option (TaskRec × Core) :=
  match c.deque.getLast? with
  | some r => some (r, { c with deque := c.deque.dropLast })
  | none =>
    match c.siding.getLast? with
    | some r => some (r, { c with siding := c.siding.dropLast })
    | none => none

/-! ## Starting a context -/

/-- Whether a context is a non-reply activation (01 R16). -/
def Ctx.nonReply (c : Ctx) : Bool := c.phase != .dormant && c.kind != .msg true

/-- Registers a context holds. -/
def Ctx.regs (c : Ctx) : Nat := if c.phase = .active then c.valloc.toNat else 0

def State.coreCtxs (s : State) (k : Nat) : List (Nat × Ctx) := (ctxsOf k).map fun r => (r, s.getCtx r)

/-- The dormant context with the lowest number (12 R311). -/
def State.dormant (s : State) (k : Nat) : Option Nat :=
  ((s.coreCtxs k).find? fun e => e.2.phase == .dormant).map (·.1)

def State.nonReplies (s : State) (k : Nat) : Nat := ((s.coreCtxs k).filter fun e => e.2.nonReply).length
def State.regsUsed (s : State) (k : Nat) : Nat := ((s.coreCtxs k).map fun e => e.2.regs).sum
def State.nonReplyRegs (s : State) (k : Nat) : Nat :=
  ((s.coreCtxs k).map fun e => if e.2.nonReply then e.2.regs else 0).sum

/-- Whether `n` registers can be granted to a non-reply activation of core `k` (01 R16). -/
def State.regsFit (s : State) (k n : Nat) : Bool :=
  decide (s.nonReplyRegs k + n + 8 * (s.getCore k).hres.toNat ≤ 128) && decide (s.regsUsed k + n ≤ 128)

/-- Whether what the non-reply activations of a core hold, delivered tiles and waiting ones included, fits the limits of HRES: after
HRES is raised, none is granted registers and no delivered tile starts until it does (01 R25). -/
def State.withinLimits (s : State) (k : Nat) : Bool :=
  decide (s.nonReplies k + (s.getCore k).hres.toNat ≤ 8) && decide (s.nonReplyRegs k + 8 * (s.getCore k).hres.toNat ≤ 128)

/-- Whether a message re-injected for a partition is not yet accepted (12 R307). -/
def State.reinjecting (s : State) (p : Part) : Bool := s.net.any fun m => m.again && m.asid == p.asid

/-- Whether the partition of a core runs a job and may start activations: not debug-stopped (16 R382), not stopped for a
switch, every sided message accepted (12 R305, R307). R307 withholds issue until then and does not speak of activations: DESIGN CHOICE,
no message is taken into service and no activation starts until then either (log 48). -/
def State.running (s : State) (k : Nat) : Bool :=
  match s.partOf k with
  | some (_, p) => !p.idle && !s.dev.dstops.contains p.asid && !p.stopping && !s.reinjecting p
  | none => false

/-- The condition of R309 for a non-reply activation, but for the running of a job; holdings beyond the limits of a raised
HRES start nothing (01 R25). -/
def State.hasRoom (s : State) (k : Nat) : Bool :=
  (s.dormant k).isSome && decide (s.nonReplies k + (s.getCore k).hres.toNat < 8) && (s.getCore k).regReqs.isEmpty &&
    decide (s.nonReplyRegs k + 8 * (s.getCore k).hres.toNat ≤ 128)

/-- The context block of a context (01 R18, 15 R362): its aliased address and its memory key. -/
def blockAddr (r : Nat) : Nat :=
  if isGateway (r / 8) then 0x100003F800 + r % 8 * 256 else 0x10001FB800 + (r / 8 % 9 * 8 + r % 8) * 256

def aliasKey (k a : Nat) : Nat :=
  if isGateway k then gwKey (gwOf k) (a - 0x1000000000) else clmKey (clusterOf k) (a - 0x1000000000)

/-- The receive slot of a context (08 R199, 15 R362). -/
def slotAddr (r : Nat) : Nat :=
  if isGateway (r / 8) then 0x100003E800 + r % 8 * 512 else 0x10001F2800 + (r / 8 % 9 * 8 + r % 8) * 512

/-- What starts an activation. -/
structure Activation where
  kind : Kind
  pc   : Word
  a0   : Word
  a1   : Word
  a2   : Word
  a3   : Word
  prio : BitVec 7
  regs : Nat
  rtag : BitVec 16
  /-- what the trace record calls TAG -/
  tag  : BitVec 16
  /-- a handler's message identifier -/
  mid  : Option Word
  deriving DecidableEq, Repr

/-- The x registers at activation (R14). -/
def startX (cx sp gp : Word) (a : Activation) : Vector Word 32 :=
  Vector.ofFn fun i : Fin 32 =>
    if i.val = 2 then sp else if i.val = 3 then gp else if i.val = 4 then cx
    else if i.val = 10 then a.a0 else if i.val = 11 then a.a1 else if i.val = 12 then a.a2
    else if i.val = 13 then a.a3 else 0

/-- A context as R14 sets it; an IPI or DEBUG event that waits for its number stays pending (13 R325). -/
def startCtx (s : State) (r : Nat) (a : Activation) : Ctx :=
  let cx := blockAddr r
  let key := aliasKey (r / 8) cx
  { Ctx.reset with
    ipi := (s.getCtx r).ipi
    debug := (s.getCtx r).debug
    phase := .active
    kind := a.kind
    pc := a.pc
    x := startX (BitVec.ofNat 64 cx) (Mem.word s.mem key) (Mem.word s.mem (key + 8)) a
    valloc := BitVec.ofNat 6 a.regs
    lvl := a.prio
    eff := a.prio
    hnd := a.mid.isSome
    hvn := a.kind == .msg true
    rtag := a.rtag
    trigger := a.mid }

/-- A task or join activation joins the region its RTAG names (10 R261). -/
def State.joinRegion (s : State) (r : Nat) (t : BitVec 16) : State :=
  let n := (t.extractLsb' 0 4).toNat
  if t = 0 ∨ n = 15 ∨ !isMesh (r / 8) then s
  else
    let u := clusterOf (r / 8)
    let reg := (s.cluster u).region n
    let reg := { reg with
      tag := if reg.tag = t then 0 else reg.tag, holders := reg.holders ++ [.ctx r], managed := true,
      waking := reg.waking || !reg.on }
    (s.setCluster u ((s.cluster u).setRegion n reg)).modCtx r fun c => { c with region := some n }

/-- Start context `r` of core `k`: at once when its registers can be granted, else it waits for them in arrival order. The
activation acquires (08 R188, 11 R289). R14 has sp and gp read before the first instruction issues and says no more of when: DESIGN
CHOICE, they are read here, when the registers are asked for, and not when they are granted (log 48). A tile that a gang
switch finds delivered is saved as a context that waits where the limits of a raised HRES grant it nothing (01 R25). -/
def State.activate (s : State) (r : Nat) (a : Activation) : State :=
  let k := r / 8
  let c := startCtx s r a
  let now := a.kind == .msg true || ((s.getCore k).regReqs.isEmpty && s.withinLimits k && s.regsFit k a.regs)
  let s := s.setCtx r { c with phase := if now then .active else .waiting }
  let s := if now then s else s.modCore k fun co => { co with regReqs := co.regReqs ++ [r] }
  (State.acquire k ((s.joinRegion r a.rtag).modCore k Core.endThief)).recordActivation r a.kind a.tag a.pc

/-- The activation a task record asks for (R190, R204). -/
def TaskRec.activation (t : TaskRec) : Activation :=
  ⟨if t.cont then .join else .task, t.pc, t.a0, t.a1, t.a2, t.a3, t.prio, t.regs, t.rtag, t.rtag, none⟩

end Sys2Proof.Machine
end

