-- ==== Sys2Proof/Machine/Task.lean ====
section
/-! DEFINITION. Tasks, joins, tile tasks, collection rounds and the ends of a context (08 R187 to R196, R207 to R212). -/

namespace Sys2Proof.Machine

open Sys2Proof

/-- Check several things in order. -/
def andThen {α β : Type} (a : Except Trap α) (k : α → Except Trap β) : Except Trap β :=
  match a with
  | .error t => .error t
  | .ok x => k x

/-- An address with its low `n` bits zero. -/
def aligned (a : Word) (n : Nat) : Except Trap Unit := require (a.toNat % 2 ^ n == 0) (alignTrap a)

/-! ## FORK and JREC (R191, R192) -/

/-- FORKs a handler holds. -/
def heldForks (l : List Held) : Nat :=
  (l.filter fun h => match h with | .fork _ => true | .send _ => false).length

/-- FORK's effect with the record it has read. -/
def forkRecord (a : Reg) (ws : List Word) (s : State) : Out :=
  checked s (require (taskOk ws) (illegalVal (s.x a))) fun _ =>
    if !s.ctx.hnd then (State.pushTask s.k s (.ofWords ws)).retire 8
    else if 4 ≤ heldForks s.ctx.heldq then s.trapFull 4 0
    else State.retire 8 { s with ctx := { s.ctx with heldq := s.ctx.heldq ++ [.fork (.ofWords ws)] } }

def execFork (a : Reg) (s : State) : Out :=
  match aligned (s.x a) 6 with
  | .error t => .next (s.trap t)
  | .ok _ => s.checkedBlock (s.x a) 8 fun l s =>
    s.releasing (.fork a) fun s => s.withRecord l (.release (.fork a)) (forkRecord a)

/-- The latest byte earlier stores of a list write at a key on a path. -/
def storedByte (p : Path) (a : Nat) : List Pend → Option Byte
  | [] => none
  | e :: r =>
    match storedByte p a r with
    | some b => some b
    | none =>
      match e.op with
      | .store q bs => if q = p then cellsGet bs.flatten a else none
      | _ => none

/-- The homes of 8-byte words from an address on, whose keys are listed. -/
def State.blockHomes (s : State) (va : Word) (ks : List Nat) : List Nat :=
  ks.zipIdx.map fun e => s.homeAt (va + BitVec.ofNat 64 (8 * e.2)) e.1

/-- Whether an earlier access of the context must come before reads that are made now, in the middle of an instruction: one at one of
their homes on the path (11 R286), or one on any path that still reads one of their words or whose store was returned (R293). -/
def State.readsFirst (s : State) (l : List LaneSrc) : Bool :=
  (s.ctx.pend.any fun p => l.any fun e => (e.allSites .core).any p.sitesOf.contains) || s.readsAfter s.nextId (srcKeys l)

/-- The bytes JREC writes: the count, zeros, the template. -/
def joinCells (keys : List Nat) (n : Word) (t : List Word) : List Host.Cell :=
  (keys.zip (n :: List.replicate 7 0 ++ t)).flatMap fun e => cellsOf e.1 8 e.2.toNat

def execJrec (a b c : Reg) (s : State) : Out :=
  match andThen (aligned (s.x a) 7) fun _ => andThen (aligned (s.x c) 6) fun _ => s.storeBlock (s.x a) 16 with
  | .error t => .next (s.trap t)
  | .ok ks => s.checkedBlock (s.x c) 8 fun l s =>
    if (s.x b).toInt < 1 ∨ 0xFFFFFFFF < (s.x b).toInt then .next (s.trap (illegalVal (s.x b)))
    else if s.readsFirst l then .next (s.stall .counters)
    else s.withRecord l .counters fun t s =>
      checked s (require (taskOk t) (illegalVal (s.x c))) fun _ =>
        ((s.wakeFor ks).issue (.store .core [joinCells ks (s.x b) t]) (s.blockHomes (s.x a) ks)).retire 8

/-! ## YIELD (R196) -/

def execYield (s : State) : Out :=
  .next (State.retire 8 { s with
    ctx := { s.ctx with eff := s.ctx.lvl, aging := 0 }
    core := { s.core with last := s.c } })

/-! ## Ends (R193 to R195) -/

/-- What every HALT form checks first: it runs in no handler and in no callout of a train (R193, 09 R229). -/
def State.mayHalt (s : State) (i : Instr) : Except Trap Unit :=
  require (!s.ctx.hnd && !(s.ctx.wd.wdm && s.ctx.wd.state == 3)) (illegalMode i)

def execHalt (s : State) : Out := checked s (s.mayHalt .halt) fun _ => s.finish false

/-- Add to the word at a key at its home, as a releasing AMO of the CORE path; the old value. -/
def State.homeAdd (s : State) (key : Nat) (d : Word) : Word × State :=
  let old := Mem.word s.mem key
  (old, State.performStore s.k true (s.note (byteKeys key 8)) (cellsOf key 8 (old + d).toNat))

/-- The join decrement at a key (R194). The record's PC is pushed as memory holds it: R194 names no check of it, and a context then
starts at whatever it holds (log 48). -/
def State.joinDown (s : State) (key : Nat) : State :=
  let r := s.homeAdd key (-1)
  if r.1 = 1 then
    State.pushTask s.k (r.2.note (byteKeys (key + 64) 64))
      { TaskRec.ofWords ((List.range 8).map fun i => Mem.word r.2.mem (key + 64 + 8 * i)) with cont := true }
  else r.2

def execHaltJ (a : Reg) (s : State) : Out :=
  let i : Instr := .haltJ a
  match andThen (s.mayHalt i) fun _ => andThen (aligned (s.x a) 7) fun _ => s.storeCheck (s.x a) 8 .w with
  | .error t => .next (s.trap t)
  | .ok key =>
    s.releasing i fun s =>
      .next (if s.mayReadNow (byteKeys key 8 ++ byteKeys (key + 64) 64) then (s.joinDown key).finish false
        else (s.wakeFor (byteKeys key 8 ++ byteKeys (key + 64) 64)).stall (.release i))

/-- HALT.K's own step: the held region is retained under a tag when the conditions of R195 hold. -/
def State.retain (s : State) (t : BitVec 16) : State :=
  match s.ctx.region with
  | none => s
  | some n =>
    let cl := s.cluster (clusterOf s.k)
    let reg := cl.region n
    if t != 0 && (t.extractLsb' 0 4).toNat == n && reg.tag == 0 && !(cl.regions.toList.any fun r => r.tag == t) then
      s.setCluster (clusterOf s.k) (cl.setRegion n { reg with tag := t })
    else s

def execHaltK (a : Reg) (s : State) : Out :=
  checked s (s.mayHalt (.haltK a)) fun _ => (s.retain ((s.x a).extractLsb' 0 16)).finish false

/-! ## Tile tasks (R207 to R210) -/

/-- The words of a tile-task record. -/
def tileWord (l : List Word) (off : Nat) : Word := l.getD (off / 8) 0

/-- The limits of R207. -/
def tileOk (l : List Word) : Bool :=
  let shp := tileWord l 0x08
  pcOk (tileWord l 0) && shp.extractLsb' 48 16 == 0 && shp.extractLsb' 0 16 != 0 && shp.extractLsb' 16 16 != 0 &&
    (tileWord l 0x10).extractLsb' 0 4 == 0 && decide ((tileWord l 0x18).toNat ≤ 65535) &&
    (tileWord l 0x50).extractLsb' 0 3 == 0 && (tileWord l 0x60).extractLsb' 0 3 == 0 && tileWord l 0x60 != 0 &&
    (tileWord l 0x68) &&& 0xFFFFFFFFFFFFF380 == 0 && tileWord l 0x70 != 0 &&
    (tileWord l 0x70).extractLsb' 20 44 == 0 && tileWord l 0x78 == 0

/-- The quadrant whose signal box serves a core; a gateway core's CID names quadrant 0 of its die (15 R361; log 19). -/
def boxOf (k : Nat) : Nat := if isMesh k then quadOf k else dieOf k * 4

def tqputRecord (d a b : Reg) (ws : List Word) (s : State) : Out :=
  checked s (require (tileOk ws) (illegalVal (s.x a))) fun _ =>
    let q := boxOf s.k * 64 + (s.x b).toNat
    if 16 ≤ (s.tileq q).length then (s.setX d 0xFFFFFFFFFFFFFFFF).retire 8
    else
      (State.setX (s.setTileq q (s.tileq q ++ [⟨ws, s.x a, s.ctx.prv, none, 0, 0, 0⟩])) d 0).retire 8

def execTqput (d a b : Reg) (s : State) : Out :=
  let i : Instr := .tqput d a b
  match andThen (s.notHandler i) fun _ => aligned (s.x a) 7 with
  | .error t => .next (s.trap t)
  | .ok _ => s.checkedBlock (s.x a) 16 fun l s =>
    if 63 < (s.x b).toNat then .next (s.trap (illegalVal (s.x b)))
    else s.releasing i fun s => s.withRecord l (.release i) (tqputRecord d a b)

def execTdone (a : Reg) (s : State) : Out :=
  let i : Instr := .tdone a
  match andThen (s.notHandler i) fun _ => andThen (aligned (s.x a) 3) fun _ => s.storeCheck (s.x a) 8 .w with
  | .error t => .next (s.trap t)
  | .ok key =>
    s.releasing i fun s =>
      .next (if s.mayReadNow (byteKeys key 8) then (s.homeAdd key (-1)).2.finish false else (s.wakeFor [key]).stall (.release i))

/-! ## Collection rounds (R211) -/

/-- QRND: a core of no partition starts no round. -/
def execQrnd (d a b : Reg) (s : State) : Out :=
  let i : Instr := .qrnd d a b
  let chk := andThen (s.notHandler i) fun _ => andThen (aligned (s.x a) 3) fun _ => s.storeCheck (s.x a) 8 .w
  checked s chk fun key =>
    match s.partOf s.k with
    | some (n, p) =>
      match p.round with
      | some _ => (s.setX d 0xFFFFFFFFFFFFFFFF).retire 8
      | none => (State.setX (s.setPart n { p with round := some ⟨key, s.x b, 0, true⟩ }) d 0).retire 8
    | none => (s.setX d 0xFFFFFFFFFFFFFFFF).retire 8

/-- The destination core a message header names. -/
def destCore (w0 : Word) : Option Nat := (ctxOfCid (w0.extractLsb' 0 16)).map (· / 8)

/-- The core a message identifier names as the source. -/
def sourceCore (mid : Word) : Option Nat := (ctxOfCid (mid.extractLsb' 0 16)).map (· / 8)

/-- Whether a message was sent by core `k` of this device. -/
def State.sentBy (s : State) (k : Nat) (m : Msg) : Bool :=
  m.mid.extractLsb' 16 9 == s.dev.devnum && sourceCore m.mid == some k

/-- Whether a context has a store, AMO or NEAR operation that is not performed. -/
def Ctx.writesLeft (c : Ctx) : Bool :=
  c.pushes != 0 || c.pend.any fun p => match p.op with | .load .. => false | _ => true

/-- Whether a wait is that of a store or an AMO that has issued and releases first (12 R305). -/
def Wait.writes : Wait → Bool
  | .release (.stl ..) => true
  | .release (.amo ..) => true
  | .release (.arrive ..) => true
  | .release (.arrwait ..) => true
  | .release (.haltJ _) => true
  | .release (.tdone _) => true
  | _ => false

/-- Whether a counted tile operation stores (07 R168, 09 R235). -/
def TileOp.stores : TileOp → Bool
  | .store .. => true
  | .bytes .. => true
  | _ => false

/-- Whether the token may leave a core (R211): its messages are accepted at their destinations, those for other devices too, and its
writes performed, those of tile operations and of releases that have issued included. -/
def State.tokenFree (s : State) (k : Nat) : Bool :=
  let c := s.getCore k
  c.out0.isEmpty && c.out1.isEmpty && !(s.net.any (s.sentBy k)) && !(s.sent.any (s.sentBy k)) &&
    !((s.coreCtxs k).any fun e => e.2.writesLeft || e.2.wait.writes) && !(c.tileq.any (·.op.stores)) &&
    !(s.orphans.any fun e => e.1 / 8 == k)

/-- Whether a core marks the token; the siding is its job's (R387). -/
def State.tokenMark (s : State) (k : Nat) : Bool :=
  let c := s.getCore k
  c.injected || !c.inq0.isEmpty || !c.inq1.isEmpty ||
    (s.coreCtxs k).any (fun e => e.2.phase == .active && (e.2.hnd || e.2.kind == .call)) ||
    (match s.job (s.asidOf k) with
     | some j => !j.siding.isEmpty
     | none => false)

/-- COLLECTION_ROUND_PASS of a partition: the token visits the next core; after the last one an unmarked round stores its
value at the home, and a marked one circulates again. -/
def execCollectionRoundPass (part : Nat) (s : State) : Out :=
  .next (match s.part part with
    | none => s
    | some p =>
      match p.round with
      | none => s
      | some r =>
        let cs := p.cores
        match cs[r.pos]? with
        | none => s
        | some k =>
          if !s.tokenFree k then s
          else
            let mark := r.mark || s.tokenMark k
            let s := s.modCore k fun c => { c with injected := false }
            if r.pos + 1 < cs.length then s.setPart part { p with round := some { r with pos := r.pos + 1, mark := mark } }
            else if mark then s.setPart part { p with round := some { r with pos := 0, mark := false } }
            else if s.powered [r.pa] then
              State.homeStore (s.setPart part { p with round := none }) (cellsOf r.pa 8 r.value.toNat)
            else s.wakeFor [r.pa])

/-! ## Block assignment (R212, 15 R364) -/

def execGqnext (d : Reg) (s : State) : Out :=
  checked s (require (isGateway s.k) (illegalMode (.gqnext d))) fun _ =>
    if s.core.gqNext.toNat < s.core.gqCount.toNat then
      State.retire 8 (State.setX { s with core := { s.core with gqNext := s.core.gqNext + 1 } } d (s.core.gqNext.zeroExtend 64))
    else (s.setX d 0xFFFFFFFFFFFFFFFF).retire 8

end Sys2Proof.Machine
end

