-- ==== Sys2Proof/Machine/Messages.lean ====
section
/-! DEFINITION. Messages and calls (08 R197 to R206, 12 R306, 15 R358 to R360). -/

namespace Sys2Proof.Machine

open Sys2Proof

/-! ## Headers (R197) -/

/-- The reserved bits of word 0. -/
def hdrReserved : Word := 0xFFFE000EFE000000

def msgPlen (w0 : Word) : Nat := (w0.extractLsb' 40 9).toNat
def msgFmt (w0 : Word) : Nat := (w0.extractLsb' 36 4).toNat
def msgVn (w0 : Word) : Bool := w0.getLsbD 32

/-- DEV and CID without the context bits. -/
def msgDest (w0 : Word) : Word := w0 &&& 0x1FFFFF8

/-- The rules of R200 on word 0 and the handler PC. -/
def hdrOk (w0 hpc : Word) : Bool :=
  w0 &&& hdrReserved == 0 && decide (msgFmt w0 < 5) && decide (msgPlen w0 ≤ 256) && hpc.extractLsb' 0 2 == 0

/-- Whether word 0 names a core that can receive (R200). -/
def State.canReceive (s : State) (w0 : Word) : Bool :=
  (destCore w0).isSome && decide ((w0.extractLsb' 16 9).toNat < s.dev.domsize.toNat)

/-! ## Injecting -/

/-- A message identifier (R198). -/
def midOf (s : State) (r : Nat) (vn : Bool) (seq : BitVec 16) : Word :=
  bitAt vn 48 ||| n64 seq <<< 32 ||| n64 s.dev.devnum <<< 16 ||| n64 (cidOf r)

/-- Put a message into a send slot of the current core, with the next sequence number of its virtual network. -/
def State.inject (s : State) (m : Msg) : State :=
  let vn := msgVn m.w0
  let c := s.core
  let m := { m with mid := midOf s s.cur vn (if vn then c.seq1 else c.seq0) }
  let c := { c.setOut vn (c.out vn ++ [m]) with
    injected := true
    seq0 := if vn then c.seq0 else c.seq0 + 1
    seq1 := if vn then c.seq1 + 1 else c.seq1 }
  State.pmc { s with core := c } s.k 12 (some s.c)

/-- A message of the current context; its identifier is set when it is injected. -/
def State.mkMsg (s : State) (w0 hpc padr : Word) (args : List Word) (payload : List Byte) (call : Bool) : Msg :=
  { w0 := w0, hpc := hpc, a0 := args.getD 0 0, a1 := args.getD 1 0, a2 := args.getD 2 0, a3 := args.getD 3 0,
    padr := padr, mid := 0, call := call, payload := payload, prio := s.ctx.lvl, asid := s.asidOf s.k, src := s.cur, again := false }

/-- The last steps of R200: destination, virtual network, slot; then `k` on the state that has sent. -/
def State.sendOff (s : State) (m : Msg) (k : State → State) : State :=
  let vn := msgVn m.w0
  if !s.canReceive m.w0 then s.trapFull 3 m.w0
  else if s.ctx.hvn && !vn then s.trapFull 2 0
  else if s.ctx.hnd then
    if s.core.freeSlots vn = 0 then s.trapFull 1 0
    else
      k { s with
        ctx := { s.ctx with heldq := s.ctx.heldq ++ [.send m] }
        core := s.core.setResv vn (s.core.resv vn ++ [s.c]) }
  else if s.core.freeSlots vn = 0 then s.stall .slot
  else k (s.inject m)

/-- The bytes at `n` addresses from one on, read as loads one by one. -/
def State.payloadAt (s : State) (va : Word) : Nat → Except Trap (List LaneSrc)
  | 0 => .ok []
  | n + 1 =>
    match s.loadCheck va 1 with
    | .error t => .error t
    | .ok a =>
      match s.payloadAt (va + 1) n with
      | .error t => .error t
      | .ok r => .ok (a :: r)

/-- The byte at a checked address, read at its home, or through a gather window. -/
def State.byteAt (s : State) (l : LaneSrc) : Byte :=
  match l with
  | .mem k _ => Mem.get s.mem k
  | .val v => v.extractLsb' 0 8
  | .gather _ k _ _ => (s.unitAt (k.headD 0) 1).headD 0

/-- SEND's effect with the descriptor it has read. -/
def sendRecord (a : Reg) (ws : List Word) (s : State) : Out :=
  let w0 := ws.getD 0 0
  if !hdrOk w0 (ws.getD 1 0) then .next (s.trap (illegalVal (s.x a)))
  else s.whenIndexed (s.indexesOf 1 (addrsFrom (ws.getD 6 0) 1 (msgPlen w0))) fun s =>
  match s.payloadAt (ws.getD 6 0) (msgPlen w0) with
  | .error t => .next (s.trap t)
  | .ok l =>
    if s.powered (srcKeys l) && !s.readsAfter s.nextId (srcKeys l) then
      let m := s.mkMsg w0 (ws.getD 1 0) 0 ((ws.drop 2).take 4) (l.map s.byteAt) false
      .next ((State.touch s.k s (srcKeys l)).sendOff m (State.retire 8))
    else .next ((s.wakeFor (srcKeys l)).stall .slot)

def execSend (a : Reg) (s : State) : Out :=
  match aligned (s.x a) 6 with
  | .error t => .next (s.trap t)
  | .ok _ => s.checkedBlock (s.x a) 8 fun l s => s.releasing (.send a) fun s => s.withRecord l .slot (sendRecord a)

/-- The arguments x10 to x13. -/
def State.args (s : State) : List Word := [s.x 10, s.x 11, s.x 12, s.x 13]

def execSendr (a b : Reg) (s : State) : Out :=
  s.releasing (.sendr a b) fun s =>
    let w0 := s.x a
    checked s (require (hdrOk w0 (s.x b) && msgPlen w0 == 0 && msgFmt w0 == 0) (illegalVal w0)) fun _ =>
      s.sendOff (s.mkMsg w0 (s.x b) 0 s.args [] false) (State.retire 8)

def execCallat (a b c : Reg) (s : State) : Out :=
  let i : Instr := .callat a b c
  match s.notHandler i with
  | .error t => .next (s.trap t)
  | .ok _ =>
    s.releasing i fun s =>
      let w0 := s.x a
      let ok := hdrOk w0 (s.x b) && msgPlen w0 == 0 && msgFmt w0 == 0 && !msgVn w0 && (s.x c).extractLsb' 0 2 == 0
      checked s (require ok (illegalVal w0)) fun _ =>
        s.sendOff (s.mkMsg w0 (s.x b) (s.x c) s.args [] true) (State.retire 8)

/-! ## HALT.M and MDONE (R206, R201) -/

/-- The reply of a call, from the header in the context's receive slot. Its HPC is the slot's word as it stands: R206 has the reply go
as a SEND does and does not say whether SEND's check of HPC applies, so none is made (log 48). -/
def State.reply (s : State) : Msg :=
  let key := aliasKey s.k (slotAddr s.cur)
  let mid := Mem.word s.mem (key + 0x38)
  s.mkMsg (bitAt true 32 ||| (mid &&& 0x1FFFFFF)) (Mem.word s.mem (key + 0x30)) 0 [s.x 10, s.x 11, mid, 0] [] false

def execHaltM (s : State) : Out :=
  match s.mayHalt .haltM with
  | .error t => .next (s.trap t)
  | .ok _ => s.releasing .haltM fun s => .next (s.sendOff s.reply fun s => s.finish false)

/-- Release what a handler holds, in program order. -/
def State.releaseHeld : State → List Held → State
  | s, [] => s
  | s, .send m :: r =>
    let vn := msgVn m.w0
    State.releaseHeld (State.inject { s with core := s.core.setResv vn ((s.core.resv vn).erase s.c) } m) r
  | s, .fork t :: r => State.releaseHeld (State.pushTask s.k s t) r

/-- The end of a handler once LDC = 0: held sends and forks go, its message leaves its queue, the context ends. A deque
that overflows has stopped the partition. -/
def State.mdoneEnd (s : State) : State :=
  let t := s.releaseHeld s.ctx.heldq
  if t.ctx.phase = .dormant then t
  else
    State.finish { t with
      ctx := { t.ctx with heldq := [] }
      core := { t.core with inq0 := dropMsgs t.c t.core.inq0, inq1 := dropMsgs t.c t.core.inq1 } } false

def execMdone (s : State) : Out :=
  checked s (require s.ctx.hnd (illegalMode .mdone)) fun _ =>
    if s.ctx.ldc = 0 then s.mdoneEnd else s.stall .mdone

/-! ## The network (R203, 12 R306, R307) -/

/-- Conversion of a payload for another device (R359, R360). -/
def toWire (fmt : Nat) (b : List Byte) : List Byte :=
  let n := b.length / 4
  let tail := b.drop (4 * n)
  let word (i : Nat) : List Byte := (b.drop (4 * i)).take 4
  if fmt = 0 then b
  else if fmt ≤ 3 then ((List.range n).flatMap fun i => (word i).reverse.take fmt) ++ tail
  else
    let q := requant ((List.range n).map fun i => BitVec.ofNat 32 (leNat (word i)))
    leBytes 4 q.1.toNat ++ q.2.map (BitVec.ofNat 8) ++ tail

/-- The payload of `plen` bytes a receiver rebuilds. -/
def fromWire (fmt plen : Nat) (b : List Byte) : List Byte :=
  let n := plen / 4
  if fmt = 0 then b
  else if fmt ≤ 3 then
    ((List.range n).flatMap fun i => List.replicate (4 - fmt) 0 ++ ((b.drop (fmt * i)).take fmt).reverse) ++ b.drop (fmt * n)
  else
    let g := BitVec.ofNat 32 (leNat (b.take 4))
    (((b.drop 4).take n).flatMap fun x => leBytes 4 (fromPk 1 x.toNat g).bits.toNat) ++ b.drop (4 + n)

/-- Whether two messages come from one source core on one network to one destination core (R203). -/
def sameRoute (a b : Msg) : Bool :=
  (a.mid &&& 0x1FFFFF8) == (b.mid &&& 0x1FFFFF8) && msgVn a.w0 == msgVn b.w0 && msgDest a.w0 == msgDest b.w0

/-- The 64-byte header and the payload of a message from a key on, as a receive slot and a siding entry hold them (R199, 12 R306). -/
def msgCells (key : Nat) (padr : Word) (m : Msg) : List Host.Cell :=
  (([m.w0, m.hpc, m.a0, m.a1, m.a2, m.a3, padr, m.mid].zipIdx).flatMap fun e => cellsOf (key + 8 * e.2) 8 e.1.toNat) ++
    cellsAt (key + 64) m.payload

/-- Whether a job's message siding is full (12 R306). -/
def Job.full (j : Job) : Bool := decide (j.entries ≤ j.siding.length)

/-- A message enters a job's siding: the next 320-byte entry of its ring, when the station master has set one (12 R306). -/
def State.sideMsg (s : State) (j : Job) (m : Msg) : State :=
  let s := s.setJob { j with siding := j.siding ++ [m], entered := j.entered + 1 }
  match j.ring with
  | some key => s.homeStore (msgCells (key + 320 * (j.entered % max 1 j.entries)) m.padr m)
  | none => s

/-- The job that a message of another ASID than its destination runs is sided with. -/
def State.sidedWith (s : State) (m : Msg) : Option Job :=
  match destCore m.w0 with
  | some k => if s.asidOf k = m.asid && (match s.partOf k with | some (_, p) => !p.idle | none => false) then none
              else s.job m.asid
  | none => none

/-- MESSAGE_ACCEPTED: the network takes the message in send slot `i` of core `k` and frees the slot. -/
def execMessageAccepted (k : Nat) (vn : Bool) (i : Nat) (s : State) : Out :=
  let c := s.getCore k
  .next (match (c.out vn)[i]? with
    | none => s
    | some m =>
      let full := match s.sidedWith m with | some j => j.full | none => false
      if ((c.out vn).take i).any (sameRoute m) then s
      else if m.w0.extractLsb' 16 9 = s.dev.devnum then
        if full then s
        else { s.setCore k (c.setOut vn (removeAt (c.out vn) i)) with net := s.net ++ [m] }
      else if !s.linked then s
      else
        { s.setCore k (c.setOut vn (removeAt (c.out vn) i)) with
          sent := s.sent ++ [{ m with payload := toWire (msgFmt m.w0) m.payload }] })

/-- A message enters a core's input queue. -/
def State.enqueue (s : State) (k : Nat) (m : Msg) : State :=
  s.modCore k fun c => c.setInq (msgVn m.w0) (c.inq (msgVn m.w0) ++ [⟨m, none, false⟩])

/-- MESSAGE_ARRIVAL: message `i` of the network enters its destination's input queue, or its job's siding when the core
runs another job; a full queue or siding holds it back. -/
def execMessageArrival (i : Nat) (s : State) : Out :=
  .next (match s.net[i]? with
    | none => s
    | some m =>
      match destCore m.w0 with
      | none => s
      | some k =>
        if (s.net.take i).any (sameRoute m) then s
        else
          let t := { s with net := removeAt s.net i }
          match s.partOf k with
          | some (_, p) =>
            if p.asid = m.asid && !p.idle then
              if ((s.getCore k).inq (msgVn m.w0)).length < Config.inQueueSize then t.enqueue k m else s
            else match s.job m.asid with
              | some j => if j.full then s else t.sideMsg j m
              | none => s
          | none => match s.job m.asid with
            | some j => if j.full then s else t.sideMsg j m
            | none => s)

/-! ## Taking into service (R203, R206, 12 R311) -/

/-- The message a queue offers: its oldest one not in service, unless an aborted handler's message is held there (13 R323). -/
def offered (l : List InEntry) : Option Msg :=
  if l.any (·.held) then none else (l.find? fun e => e.service.isNone).map (·.msg)

/-- Mark the first waiting entry as in service by a context. -/
def serve (c : Nat) : List InEntry → List InEntry
  | [] => []
  | e :: r => if e.service.isNone then { e with service := some c } :: r else e :: serve c r

/-- Remove the first waiting entry. -/
def unqueue : List InEntry → List InEntry
  | [] => []
  | e :: r => if e.service.isNone then r else e :: unqueue r

/-- The header and payload as they stand in a receive slot (R199, R203). -/
def slotCells (r : Nat) (m : Msg) : List Host.Cell :=
  msgCells (aliasKey (r / 8) (slotAddr r))
    (if m.call then m.padr else if m.payload.isEmpty then 0 else BitVec.ofNat 64 (slotAddr r + 64)) m

/-- The activation a message starts (R204). -/
def Msg.activation (m : Msg) : Activation :=
  let vn := msgVn m.w0
  ⟨if m.call then .call else .msg vn, m.hpc, m.a0, m.a1, m.a2, m.a3, if vn then 127 else m.prio, 8, 0,
    m.a0.extractLsb' 0 16, if m.call then none else some m.mid⟩

/-- Start a message in the dormant context `r`. -/
def State.startMsg (s : State) (r : Nat) (m : Msg) : State :=
  let k := r / 8
  let vn := msgVn m.w0
  let s := s.modCore k fun c => c.setInq vn ((if m.call then unqueue else serve (r % 8)) (c.inq vn))
  ((s.homeStore (slotCells r m)).activate r m.activation).pmc k 11 (some (r % 8))

/-- Whether a VN1 message can start on a core. -/
def State.vn1Ready (s : State) (k : Nat) : Option (Nat × Msg) :=
  match offered (s.getCore k).inq1, s.dormant k with
  | some m, some r => if s.regsUsed k + 8 ≤ 128 then some (r, m) else none
  | _, _ => none

/-- Whether a VN0 message or call can start on a core. -/
def State.vn0Ready (s : State) (k : Nat) : Option (Nat × Msg) :=
  match offered (s.getCore k).inq0, s.dormant k with
  | some m, some r => if s.hasRoom k && s.regsFit k 8 then some (r, m) else none
  | _, _ => none

/-- MESSAGE_SERVICE: a core takes the VN1 message it is offered into service, else a VN0 message that is no call. -/
def execMessageService (k : Nat) (s : State) : Out :=
  .next (if !s.running k then s
    else match s.vn1Ready k with
      | some (r, m) => s.startMsg r m
      | none =>
        match s.vn0Ready k with
        | some (r, m) => if m.call then s else s.startMsg r m
        | none => s)

/-- CALL_ACTIVATION: a core starts the call it is offered. -/
def execCallActivation (k : Nat) (s : State) : Out :=
  .next (if !s.running k || (s.vn1Ready k).isSome then s
    else match s.vn0Ready k with
      | some (r, m) => if m.call then s.startMsg r m else s
      | none => s)

/-- Whether a payload that context `r` sent has not been written at its receiver, on this device or another (R216). What a handler
holds until MDONE is not sent yet and does not count. R216 names payloads, while 11 R283 puts the write of a message's header on MSG too:
DESIGN CHOICE, a message without a payload is not waited for (log 48). -/
def State.payloadsLeft (s : State) (r : Nat) : Bool :=
  let mine (m : Msg) : Bool := m.src == r && !m.payload.isEmpty
  let inCore (c : Core) : Bool :=
    c.out0.any mine || c.out1.any mine || c.inq0.any (fun e => e.service.isNone && mine e.msg) ||
      c.inq1.any (fun e => e.service.isNone && mine e.msg)
  s.net.any mine || s.sent.any mine || inCore s.core || s.cores.any (fun e => e.1 != s.k && inCore e.2) || s.jobs.any fun j => j.siding.any mine

end Sys2Proof.Machine
end

