-- ==== Sys2Proof/Machine/Sync.lean ====
section
/-! DEFINITION. Atomics, ordering and barriers (08 R213 to R219). -/

namespace Sys2Proof.Machine

open Sys2Proof

/-! ## Atomics (R213) -/

/-- The new value of an AMO on `n` bytes. -/
def amoNew (op : AmoOp) (n : Nat) (old o c : Nat) : Nat :=
  let m := 2 ^ (8 * n)
  let sg (x : Nat) : Int := if x < m / 2 then x else (x : Int) - m
  match op with
  | .swap => o
  | .add => (old + o) % m
  | .and => old &&& o
  | .or => old ||| o
  | .xor => old ^^^ o
  | .min => if sg o < sg old then o else old
  | .max => if sg old < sg o then o else old
  | .minu => if o < old then o else old
  | .maxu => if old < o then o else old
  | .cas => if old = c then o else old

/-- The low `n` bytes of a value. -/
def lowBytes (n : Nat) (v : Word) : Word := BitVec.ofNat 64 (v.toNat % 2 ^ (8 * n))

def ordAcq : MemOrd → Bool
  | .acq => true
  | .ar => true
  | _ => false

def ordRel : MemOrd → Bool
  | .rel => true
  | .ar => true
  | _ => false

/-- The checks of an AMO: R99 with the store traps and both permissions; a NEAR AMO on an aliased range is refused. -/
def State.amoCheck (s : State) (va : Word) (n : Nat) (near : Bool) : Except Trap Nat :=
  andThen (s.storeCheck va n .rw) fun key =>
  andThen (require (!(near && (aliasOf s.k va).isSome)) (sfault 7 va)) fun _ => .ok key

/-- Issue an outstanding access of one place and retire. -/
def State.issueAt (s : State) (va : Word) (key : Nat) (op : PendOp) : State :=
  ((s.wakeFor [key]).issue op [s.homeAt va key]).retire 8

def execAmo (op : AmoOp) (ord : MemOrd) (near dbl : Bool) (d a b c : Reg) (imm : BitVec 12) (s : State) : Out :=
  let va := s.ea a imm
  let n := if dbl then 8 else 4
  match s.amoCheck va n near with
  | .error t => .next (s.trap t)
  | .ok key =>
    let o := lowBytes n (s.x b)
    let e := lowBytes n (s.x c)
    let go (s : State) : Out :=
      .next (s.issueAt va key (if near then .nearAmo op n key o e else .amo op n key o e d (ordAcq ord)))
    if ordRel ord then s.releasing (.amo op ord near dbl d a b c imm) go else go s

/-! ## LDA and STL (R214) -/

def execLda (d a : Reg) (imm : BitVec 12) (wid : MemW) (u : Bool) (s : State) : Out :=
  let va := s.ea a imm
  let n := memBytes wid
  s.loading va n fun src s => (s.issueLoad n src true (.x d n u)).retire 8

def execStl (d a : Reg) (imm : BitVec 12) (wid : MemW) (s : State) : Out :=
  let va := s.ea a imm
  let n := memBytes wid
  match s.storeCheck va n .w with
  | .error t => .next (s.trap t)
  | .ok key => s.releasing (.stl d a imm wid) fun s => .next ((s.issueStore va n key (s.x d)).retire 8)

/-! ## FENCE, XFENCE, WAIT (R215 to R217) -/

/-- Retire when a condition on the counters holds, else wait. -/
def State.retireWhen (s : State) (ok : Bool) : Out := .next (if ok then s.retire 8 else s.stall .counters)

def execFence (ld st : Bool) (s : State) : Out :=
  s.retireWhen ((!ld || s.ctx.ldc == 0) && (!st || s.ctx.stc == 0))

/-- Whether every earlier access of the context on a path is complete (R216). -/
def State.pathDone (s : State) (p : Path) : Bool :=
  match p with
  | .core => s.ctx.drained
  | .strm => s.ctx.pushes == 0
  | .tile => s.tlc == 0 && !(s.ctx.pend.any (·.on .tile))
  | .copy => s.ctx.cpc == 0
  | .msg => !(s.payloadsLeft s.cur)
  | .wdb => true
  | .gwin => !(s.ctx.pend.any (·.on .gwin))
  | .near => !(s.ctx.pend.any (·.on .near))

/-- An active read stream drops its prefetched elements and refetches from SPOS (R216, 06 R149). R216 does not name the element in the
fault slot: DESIGN CHOICE, it is dropped with the others, and FLT is clear until it fails again (log 48). -/
def Stream.refetch (t : Stream) : Stream := if t.active && !t.act.dir then { t with got := [], part := .none, flt := none } else t

def Ctx.refetchStreams (c : Ctx) : Ctx := { c with streams := c.streams.map Stream.refetch }

/-- What a path applies to everything later. -/
def State.pathBegin (s : State) (q : Path) : State :=
  match q with
  | .core => State.acquire s.k s
  | .strm => { s with ctx := s.ctx.refetchStreams }
  | _ => s

def execXfence (p q : Path) (s : State) : Out :=
  .next (if s.pathDone p then (s.pathBegin q).retire 8 else s.stall .counters)

def execWait (tl cp st ld : BitVec 4) (s : State) : Out :=
  s.retireWhen (decide (s.ctx.ldc ≤ ld.toNat) && decide (s.ctx.stc ≤ st.toNat) && decide (s.ctx.cpc ≤ cp.toNat) &&
    decide (s.tlc ≤ tl.toNat))

/-! ## Barriers and arrival (R218, R219) -/

def execArrive (d a : Reg) (imm : BitVec 12) (s : State) : Out :=
  let va := s.ea a imm
  match s.storeCheck va 8 .rw with
  | .error t => .next (s.trap t)
  | .ok key => s.releasing (.arrive d a imm) fun s => .next (s.issueAt va key (.amo .add 8 key 1 0 d false))

/-- Whether an earlier CORE access of the context to the home of the word at a key is not performed (11 R286), or another one comes
before the read of its word (R293). -/
def State.coreBusy (s : State) (key home : Nat) : Bool :=
  (s.ctx.pend.any fun p => p.at .core [home]) || s.readsAfter s.nextId ((List.range 8).map (key + ·))

/-- Read the barrier word at its home: complete with an acquire when it has reached the target, else wait. -/
def State.poll (s : State) (key home : Nat) (target : Word) (arr : Bool) : State :=
  if !s.powered [key] then (s.wakeFor [key]).stall (.await key home target arr)
  else if s.coreBusy key home then s.stall (.await key home target arr)
  else
    let s := s.note (byteKeys key 8)
    if target.toInt ≤ (Mem.word s.mem key).toInt then
      let s := State.acquire s.k s
      State.retire 8 (if arr then { s with ctx := { s.ctx with arrv := false } } else s)
    else s.stall (.await key home target arr)

def execAwait (a : Reg) (imm : BitVec 12) (b : Reg) (s : State) : Out :=
  checked s (andThen (s.notHandler (.await a imm b)) fun _ => s.storeCheck (s.ea a imm) 8 .rw) fun key =>
    s.poll key (s.homeAt (s.ea a imm) key) (s.x b) false

def execArrwait (a : Reg) (imm : BitVec 12) (b : Reg) (s : State) : Out :=
  let i : Instr := .arrwait a imm b
  let va := s.ea a imm
  match andThen (s.notHandler i) fun _ => s.storeCheck va 8 .rw with
  | .error t => .next (s.trap t)
  | .ok key =>
    if s.ctx.arrv then .next (s.poll key (s.homeAt va key) (s.x b) true)
    else
      s.releasing i fun s =>
        .next (((s.wakeFor [key]).issue (.arrival key) [s.homeAt va key]).stall (.arrival key (s.homeAt va key) (s.x b)))

/-- AWAIT_POLL: the wait of context `c` reads its word again. -/
def execAwaitPoll (c : Nat) (s : State) : Out :=
  match (s.getCtx c).wait with
  | .await key home target arr => .next (s.as c fun s => s.poll key home target arr)
  | _ => .next s

end Sys2Proof.Machine
end

