-- ==== Sys2Proof/Machine/Engines.lean ====
section
/-! DEFINITION. The copy engine (14 R341 to R349), the decode engine (09 R243 to R249), gather windows (10 R278, R279) and
DSTAT (14 R350). A command starts, reads its output granule by granule and writes it byte by byte, and what it has left when it ends
is done in that step (R341, R346). -/

namespace Sys2Proof.Machine

open Sys2Proof

/-! ## What an engine reads and writes -/

/-- One byte of an output stream: its value or why it has none, where it goes, the memory keys it read, and the addresses it reads and
writes. -/
structure Item where
  src  : Except EngFault Byte
  dst  : Except EngFault Nat
  keys : List Nat
  vas  : List Word

/-- The items of an element with a failed source: enough to end a granule, which fails there. -/
def badSrc (f : EngFault) : List Item := List.replicate 64 ⟨.error f, .error f, [], []⟩

/-- Items of bytes going to `n` consecutive keys that one check covers. -/
def itemsTo (src : List Byte) (keys : List Nat) (vas : List Word) (dst : Except EngFault Nat) : List Item :=
  src.zipIdx.map fun e => ⟨.ok e.1, match dst with | .ok k => .ok (k + e.2) | .error f => .error f, keys, vas⟩

/-! ## The output stream, granule by granule (R346, R328) -/

/-- The first failed source of a granule, else its first failed destination. -/
def granuleFault (l : List Item) : Option EngFault :=
  match l.findSome? fun i => match i.src with | .error f => some f | .ok _ => none with
  | some f => some f
  | none => l.findSome? fun i => match i.dst with | .error f => some f | .ok _ => none

/-- The cells a granule writes. -/
def granuleCells (l : List Item) : List Host.Cell :=
  l.filterMap fun i => match i.src, i.dst with | .ok b, .ok k => some (k, b) | _, _ => none

/-- Every key a granule reads or writes. -/
def granuleKeys (l : List Item) : List Nat :=
  l.flatMap fun i => i.keys ++ match i.dst with | .ok k => [k] | .error _ => []

/-- A command at its start (R341). -/
def EngAt.start : EngAt := ⟨0, 0, 0, [], [], [], [], none⟩

/-- A command's work so far: the state, how far it has come, its fault, the keys and homes it has reached, the keys it has read. -/
structure EngRun where
  s     : State
  now   : EngAt
  fault : Option EngFault
  keys  : List Nat
  reads : List Nat
  homes : List Nat

/-- The home of the byte at an address of a command's space (10 R264). -/
def State.engHome (s : State) (e : EngCmd) (va : Word) : Option Nat :=
  match s.engKey e .r va, s.engKey e .w va with
  | .ok k, _ => some (s.homeIn (e.ctx / 8) (some (s.engSpace e)) va k)
  | _, .ok k => some (s.homeIn (e.ctx / 8) (some (s.engSpace e)) va k)
  | _, _ => none

/-- The next granule of an output of `n` elements, whose items `f` gives, from byte `o` of element `j` on, and where it ends; `buf` is
what it holds so far, `fuel` bounds its elements. -/
def granule (f : Nat → List Item) (n : Nat) : Nat → List Item → Nat → Nat → List Item × Nat × Nat
  | 0, buf, j, o => (buf, j, o)
  | fuel + 1, buf, j, o =>
    if n ≤ j ∨ 64 ≤ buf.length then (buf, j, o)
    else
      let its := (f j).drop o
      let room := 64 - buf.length
      if its.length ≤ room then granule f n fuel (buf ++ its) (j + 1) 0 else (buf ++ its.take room, j, o + room)

/-- Read the next granule, or meet its fault (R346, R328). -/
def readGranule (e : EngCmd) (f : State → Nat → List Item) (n : Nat) (r : EngRun) : EngRun :=
  let g := granule (f r.s) n 65 [] r.now.elem r.now.skip
  let read := g.1.flatMap (·.keys)
  let homes := (g.1.flatMap fun i => i.vas).filterMap (r.s.engHome e)
  let r := { r with
    s := State.touch (e.ctx / 8) r.s read
    keys := r.keys ++ granuleKeys g.1
    reads := r.reads ++ read
    homes := r.homes ++ homes }
  match granuleFault g.1 with
  | some x => { r with fault := some x }
  | none => { r with now := { r.now with elem := g.2.1, skip := g.2.2, left := granuleCells g.1, homes := homes } }

/-- Write the first `m` bytes that are left of the granule in progress, one by one. -/
def writeGranule (e : EngCmd) (m : Nat) (r : EngRun) : EngRun :=
  let cells := r.now.left.take m
  { r with
    s := State.performStore (e.ctx / 8) false r.s cells
    now := { r.now with pos := r.now.pos + cells.length, left := r.now.left.drop m }
    keys := r.keys ++ cells.map (·.1) }

/-- Run to the end of an output of `n` elements, or to its first fault; `fuel` bounds the granules. -/
def runGranules (e : EngCmd) (f : State → Nat → List Item) (n : Nat) : Nat → EngRun → EngRun
  | 0, r => r
  | fuel + 1, r =>
    let r := writeGranule e 64 r
    if r.fault.isSome || decide (n ≤ r.now.elem) then r else runGranules e f n fuel (readGranule e f n r)

/-! ## DCOPY (R344 to R347) -/

/-- The limits of R344. -/
def dcopyOk (l : List Word) : Bool :=
  let cnt := l.getD 2 0
  let w5 := l.getD 5 0
  let conv := dcopyConv l
  let pln := (w5.extractLsb' 9 3).toNat
  let pmask := w5.extractLsb' 4 4
  let n := (cnt.extractLsb' 0 32).toNat * (cnt.extractLsb' 32 16).toNat * (cnt.extractLsb' 48 16).toNat
  let z := convSizes conv
  n != 0 && w5.extractLsb' 12 52 == 0 && l.getD 6 0 == 0 && l.getD 7 0 == 0 && decide (conv ≤ 5) && decide (pln ≤ 4) &&
    (conv == 3 || conv == 4 || pln == 0) && (conv == 4 || !w5.getLsbD 8) && ((conv == 5) == (pmask != 0)) &&
    decide (n * max z.1 z.2 < 2 ^ 48)

/-- The bytes of a plane-aware element at an address that fails: the planes of the tensor whose descriptor the page names; where none is
valid the number is open, and the element ends its granule (log 48). -/
def State.engWidth (s : State) (e : EngCmd) (acc : Acc) (va : Word) : Nat :=
  match s.engSite e acc va with
  | .ok (_, fdi, false) => match s.fd (s.engSpace e) fdi with | some d => d.npl | none => 64
  | _ => 64

/-- The items of one element of a DCOPY. -/
def dcopyItems (e : EngCmd) (s : State) (j : Nat) : List Item :=
  let a := dcopyAddr e j
  let conv := dcopyConv e.desc
  let pln := ((e.w 5).extractLsb' 9 3).toNat
  let byte (k : Nat) : Byte := Mem.get s.mem k
  match conv with
  | 0 =>
    match s.engKey e .r a.1 with
    | .error f => badSrc f
    | .ok k => [⟨.ok (byte k), s.engKey e .w a.2, [k], [a.1, a.2]⟩]
  | 1 =>
    match s.engKey4 e .r a.1 with
    | .error f => badSrc f
    | .ok k => itemsTo (leBytes 1 (pkOf 1 (fpOf32 (s.word32 k))).w) [k] [a.1, a.2] (s.engKey e .w a.2)
  | 2 =>
    match s.engKey e .r a.1 with
    | .error f => badSrc f
    | .ok k => itemsTo (leBytes 4 (ofE4m3 .s (byte k).toNat).toNat) [k] [a.1, a.2] (s.engKey4 e .w a.2)
  | 3 =>
    match s.engKey4 e .r a.1 with
    | .error f => badSrc f
    | .ok k =>
      match s.engElem e .w a.2 with
      | .error f => List.replicate (s.engWidth e .w a.2) ⟨.ok 0, .error f, [k], [a.1]⟩
      | .ok (d, i) =>
        match s.engKey e .r (d.scaleAddr i) with
        | .error f => badSrc f
        | .ok g =>
          let np := min (planesOf (BitVec.ofNat 3 pln) d.npl) d.npl
          let bs := planeBytes np (toPk np (s.word32 k) (s.word32 g)).w ++ List.replicate (d.npl - np) 0
          bs.zipIdx.map fun b => ⟨.ok b.1, s.engKey e .w (d.planeAddr i b.2), [k, g],
            [a.1, d.scaleAddr i, d.planeAddr i b.2]⟩
  | 4 =>
    match s.engElem e .r a.1 with
    | .error f => badSrc f
    | .ok (d, i) =>
      let k := planesOf (BitVec.ofNat 3 pln) d.npl
      let rne := (e.w 5).getLsbD 8
      let np := if rne && decide (k < d.npl) then d.npl else min k d.npl
      match s.engPlanes e .r d i (List.range np), s.engKey e .r (d.scaleAddr i) with
      | .error f, _ => badSrc f
      | _, .error f => badSrc f
      | .ok ks, .ok g =>
        let W := readPlanes np k rne (planeWord (ks.map byte))
        itemsTo (leBytes 4 (fromPk k W (s.word32 g)).bits.toNat) (g :: ks)
          (a.2 :: d.scaleAddr i :: (List.range np).map (d.planeAddr i)) (s.engKey4 e .w a.2)
  | _ =>
    let ps := (List.range 4).filter fun p => (e.w 5).getLsbD (4 + p)
    match s.engElem e .r a.1 with
    | .error f => badSrc f
    | .ok (d, i) =>
      ps.map fun p =>
        let src : Except EngFault Nat := if p < d.npl then s.engKey e .r (d.planeAddr i p) else .error ⟨8, d.planeAddr i p⟩
        let dst : Except EngFault Nat :=
          match s.engElem e .w a.2 with
          | .error f => .error f
          | .ok (d', i') => if p < d'.npl then s.engKey e .w (d'.planeAddr i' p) else .error ⟨8, d'.planeAddr i' p⟩
        match src with
        | .error f => ⟨.error f, dst, [], [a.2]⟩
        | .ok k => ⟨.ok (byte k), dst, [k], [d.planeAddr i p, a.2]⟩

/-! ## SORTC (R348, R349) -/

/-- The limits of R348. -/
def sortcOk (l : List Word) : Bool :=
  (l.getD 6 0).extractLsb' 43 21 == 0 && (l.getD 6 0).extractLsb' 28 4 == 0 && (l.getD 7 0).extractLsb' 24 40 == 0 &&
    decide (1 ≤ sortcE l ∧ sortcE l ≤ 1024) && decide (1 ≤ sortcK l ∧ sortcK l ≤ 8) && decide (1 ≤ sortcT l) &&
    decide (1 ≤ sortcRb l)

/-- The first misaligned address of a SORTC descriptor. -/
def sortcAlign (l : List Word) : Except Trap Unit :=
  andThen (aligned (l.getD 0 0) 1) fun _ =>
  andThen (aligned (l.getD 3 0) 2) fun _ =>
  andThen (aligned (l.getD 4 0) 2) fun _ => aligned (l.getD 5 0) 2

/-- What phase 1 of a SORTC reads: the keys, where they lie and at which addresses, and the fault of the first that cannot be read or
names no bucket. -/
structure SortKeys where
  nums  : List Nat
  read  : List Nat
  vas   : List Word
  fault : Option EngFault

/-- Phase 1: `n` keys from key `q` on. -/
def sortcKeys (e : EngCmd) (s : State) : Nat → Nat → SortKeys
  | 0, _ => ⟨[], [], [], none⟩
  | n + 1, q =>
    let va := e.w 0 + BitVec.ofNat 64 (2 * q)
    match s.engKey e .r va with
    | .error f => ⟨[], [], [], some f⟩
    | .ok k =>
      let v := leNat (Mem.bytes s.mem k 2)
      if v ≠ 0xFFFF ∧ sortcE e.desc ≤ v then ⟨[], [k], [va], some ⟨12, va⟩⟩
      else
        let r := sortcKeys e s n (q + 1)
        ⟨v :: r.nums, k :: r.read, va :: r.vas, r.fault⟩

/-- Bucket sizes, and the number of entries before each bucket. -/
def sortcCounts (E : Nat) (keys : List Nat) : List Nat := (List.range E).map fun b => (keys.filter (· == b)).length

def prefixSums : Nat → List Nat → List Nat
  | _, [] => []
  | a, x :: r => a :: prefixSums (a + x) r

/-- The destination index of each key, from the next free place of each bucket. -/
def sortcDest (next : List Nat) : List Nat → List Nat
  | [] => []
  | k :: r =>
    if k = 0xFFFF then 0xFFFFFFFF :: sortcDest next r
    else next.getD k 0 :: sortcDest (replaceAt next k (next.getD k 0 + 1)) r

/-- Byte `j` of the output stream of a SORTC. -/
def sortcItem (e : EngCmd) (counts offs dest order : List Nat) (s : State) (j : Nat) : List Item :=
  let nb := sortcE e.desc
  let rb := sortcRb e.desc
  let nd := dest.length
  let word (base : Word) (l : List Nat) (o : Nat) : List Item :=
    [⟨.ok (BitVec.ofNat 8 (l.getD (o / 4) 0 / 256 ^ (o % 4))), s.engKey e .w (base + BitVec.ofNat 64 o), [],
      [base + BitVec.ofNat 64 o]⟩]
  if j < 4 * nb then word (e.w 3) counts j
  else if j < 8 * nb then word (e.w 4) offs (j - 4 * nb)
  else if j < 8 * nb + 4 * nd then word (e.w 5) dest (j - 8 * nb)
  else
    let o := j - (8 * nb + 4 * nd)
    let q := order.getD (o / rb) 0
    let va := e.w 1 + BitVec.ofNat 64 (q / sortcK e.desc * rb + o % rb)
    match s.engKey e .r va with
    | .error f => badSrc f
    | .ok k => [⟨.ok (Mem.get s.mem k), s.engKey e .w (e.w 2 + BitVec.ofNat 64 o), [k], [va, e.w 2 + BitVec.ofNat 64 o]⟩]

/-- The output of a SORTC whose keys are read: its items and their number. -/
def sortcOutput (e : EngCmd) (keys : List Nat) : (State → Nat → List Item) × Nat :=
  let counts := sortcCounts (sortcE e.desc) keys
  let offs := prefixSums 0 counts
  let dest := sortcDest offs keys
  let order := (List.range (sortcE e.desc)).flatMap fun b => (keys.zipIdx.filter fun x => x.1 == b).map (·.2)
  (sortcItem e counts offs dest order, 8 * sortcE e.desc + 4 * dest.length + order.length * sortcRb e.desc)

/-! ## The decode engine (09 R243 to R249) -/

def entBase (t : BitVec 32) : Nat := (t.extractLsb' 12 9).toNat
def entBits (t : BitVec 32) : Nat := (t.extractLsb' 8 4).toNat
def entSym (t : BitVec 32) : Byte := t.extractLsb' 0 8

/-- The table of an image, when it is valid (R244). -/
def tableOf (img : List Byte) : Option (List (BitVec 32)) :=
  let n := leNat (img.take 2)
  let ents := (List.range n).map fun i => BitVec.ofNat 32 (leNat ((img.drop (4 + 4 * i)).take 4))
  if 1 ≤ n ∧ n ≤ 512 ∧ leNat ((img.drop 2).take 2) = 0 ∧ img.length = 4 + 4 * n ∧
      ents.all (fun t => t.extractLsb' 21 11 == 0 && decide (entBits t ≤ 11)) then some ents
  else none

/-- The number `nb` bits of a substream spell from bit `pos` on, its first byte being at offset `start`. -/
def bitsAt (rd : Nat → Except EngFault Byte) (start : Nat) : Nat → Nat → Except EngFault Nat
  | 0, _ => .ok 0
  | nb + 1, pos =>
    match rd (start + pos / 8) with
    | .error f => .error f
    | .ok b =>
      match bitsAt rd start nb (pos + 1) with
      | .error f => .error f
      | .ok v => .ok ((if b.getLsbD (pos % 8) then 1 else 0) + 2 * v)

/-- Lane `l` of `L` from step `t` in state `q` at bit `pos`, with `c` bytes left to emit: its bytes, or its failure (R245, R249). A lane
that emits no byte and whose length is not 0 fails at byte 0: R249's number is negative there (log 48). -/
def laneRun (tab : List (BitVec 32)) (rd : Nat → Except EngFault Byte) (L l start len : Nat) :
    Nat → Nat → Nat → Nat → List Byte × Option DecFault
  | 0, t, _, pos => ([], if pos = len then none else some ⟨l + t * L - L, none⟩)
  | c + 1, t, q, pos =>
    let e := tab.getD q 0
    if c = 0 then ([entSym e], if pos = len then none else some ⟨l + t * L, none⟩)
    else if len < pos + entBits e then ([entSym e], some ⟨l + (t + 1) * L, none⟩)
    else
      match bitsAt rd start (entBits e) pos with
      | .error f => ([entSym e], some ⟨l + (t + 1) * L, some f⟩)
      | .ok v =>
        if tab.length ≤ entBase e + v then ([entSym e], some ⟨l + (t + 1) * L, none⟩)
        else
          let r := laneRun tab rd L l start len c (t + 1) (entBase e + v) (pos + entBits e)
          (entSym e :: r.1, r.2)

/-- The earlier of two failures; the first of equals. -/
def DecFault.first (a b : Option DecFault) : Option DecFault :=
  match a, b with
  | none, b => b
  | a, none => a
  | some x, some y => if y.byte < x.byte then some y else some x

/-- Decode a payload to `N` bytes (R245): the bytes, as far as the lanes emitted them, and the earliest failure. -/
def decodePayload (tab : List (BitVec 32)) (rd : Nat → Except EngFault Byte) (plen : Option Nat) (N : Nat) :
    List Byte × Option DecFault :=
  match readNat rd 0 2 with
  | .error f => ([], some ⟨0, some f⟩)
  | .ok L =>
    if L = 0 ∨ 256 < L then ([], some ⟨0, none⟩)
    else
      match laneRecs rd L 0 (2 + 6 * L) with
      | .error f => ([], some ⟨0, some f⟩)
      | .ok (recs, fin) =>
        if (match plen with | some p => p != fin | none => false) then ([], some ⟨0, none⟩)
        else
          let lanes := recs.zipIdx.map fun r =>
            let c := if r.2 < N then (N - r.2 + L - 1) / L else 0
            if c ≠ 0 ∧ tab.length ≤ r.1.s0 then ([], some ⟨r.2, none⟩)
            else laneRun tab rd L r.2 r.1.start r.1.len c 0 r.1.s0 0
          ((List.range N).map fun i => (lanes.getD (i % L) ([], none)).1.getD (i / L) 0,
            (lanes.map (·.2)).foldl DecFault.first none)

def Cluster.table (c : Cluster) (n : Nat) : List (BitVec 32) := c.tables.toList.getD n []
def Cluster.setTable (c : Cluster) (n : Nat) (t : List (BitVec 32)) : Cluster :=
  { c with tables := c.tables.setIfInBounds n t }

/-- Byte `i` of the output of a DDEC that has decoded. -/
def ddecItem (e : EngCmd) (out : List Byte) (s : State) (i : Nat) : List Item :=
  let va := e.w 1 + BitVec.ofNat 64 i
  [⟨.ok (out.getD i 0), s.engKey e .w va, [], [va]⟩]

/-- How a DDEC ends whose decode failed at `f`: its granules before the failing one are written. A failed destination in the same
granule is earlier only at a lower byte, and then has the granule's first byte. -/
def ddecFault (e : EngCmd) (f : DecFault) (r : EngRun) : EngRun :=
  let g := f.byte / 64 * 64
  let own := f.fault.getD ⟨5, e.w 1 + BitVec.ofNat 64 f.byte⟩
  match granuleFault ((List.range (min 64 ((e.w 2).toNat - g))).flatMap fun i => ddecItem e r.now.out r.s (g + i)) with
  | some x => { r with fault := some (if g < f.byte then x else own) }
  | none => { r with fault := some own }

/-- Read `n` bytes of a command in order, with the keys. -/
def State.engBytes (s : State) (e : EngCmd) (base : Word) : Nat → Nat → Except EngFault (List Byte × List Nat)
  | 0, _ => .ok ([], [])
  | n + 1, o =>
    match s.engKey e .r (base + BitVec.ofNat 64 o) with
    | .error f => .error f
    | .ok k =>
      match s.engBytes e base n (o + 1) with
      | .error f => .error f
      | .ok r => .ok (Mem.get s.mem k :: r.1, k :: r.2)

/-- What a command reads of `n` bytes from an address on, with nothing done yet. -/
def State.engRead (s : State) (e : EngCmd) (base : Word) (n : Nat) (now : EngAt) (fault : Option EngFault) : EngRun :=
  let ks := s.engReads e base n
  ⟨State.touch (e.ctx / 8) s ks, now, fault, ks, ks, ((List.range n).map fun o => base + BitVec.ofNat 64 o).filterMap (s.engHome e)⟩

/-- DTBL's work. -/
def runDtbl (e : EngCmd) (s : State) : EngRun :=
  match s.engBytes e (e.w 0) 4 0 with
  | .error f => s.engRead e (e.w 0) 4 .start (some f)
  | .ok (h, _) =>
    let n := leNat (h.take 2)
    if n = 0 ∨ 512 < n then s.engRead e (e.w 0) 4 .start (some ⟨5, e.w 0⟩)
    else
      match s.engBytes e (e.w 0) (4 + 4 * n) 0 with
      | .error f => s.engRead e (e.w 0) (4 + 4 * n) .start (some f)
      | .ok (img, _) =>
        match tableOf img with
        | none => s.engRead e (e.w 0) (4 + 4 * n) .start (some ⟨5, e.w 0⟩)
        | some t =>
          let r := s.engRead e (e.w 0) (4 + 4 * n) .start none
          let u := engineOf (e.ctx / 8)
          { r with s := r.s.setCluster u ((r.s.cluster u).setTable (e.w 1).toNat t) }

/-! ## The work of a command -/

/-- A command that has not started starts: SORTC reads its keys, DDEC decodes its payload, DTBL does all its work. -/
def startCmd (e : EngCmd) (s : State) : EngRun :=
  match e.at' with
  | some a => ⟨s, a, none, a.left.map (·.1), [], if a.left.isEmpty then [] else a.homes⟩
  | none =>
    match e.cmd.toNat with
    | 0 => ⟨s, .start, none, [], [], []⟩
    | 1 =>
      let r := sortcKeys e s (sortcT e.desc * sortcK e.desc) 0
      ⟨State.touch (e.ctx / 8) s r.read, { EngAt.start with nums := r.nums }, r.fault, r.read, r.read, r.vas.filterMap (s.engHome e)⟩
    | 2 =>
      let d := decodePayload ((s.cluster (engineOf (e.ctx / 8))).table (e.w 3).toNat) (s.engByte e (e.w 0)) none (e.w 2).toNat
      s.engRead e (e.w 0) (payloadLen (s.engByte e (e.w 0))) { EngAt.start with out := d.1, bad := d.2 } none
    | _ => runDtbl e s

/-- The output of a command that has started: its items, and how many elements of it are written before a failed decode. -/
def cmdOutput (e : EngCmd) (a : EngAt) : (State → Nat → List Item) × Nat :=
  match e.cmd.toNat with
  | 0 => (dcopyItems e, dcopyCount e)
  | 1 => sortcOutput e a.nums
  | 2 => (ddecItem e a.out, match a.bad with | some f => f.byte / 64 * 64 | none => (e.w 2).toNat)
  | _ => (fun _ _ => [], 0)

/-- All the work that a command has left. -/
def runCmd (e : EngCmd) (s : State) : EngRun :=
  let r := startCmd e s
  if r.fault.isSome then r
  else
    let out := cmdOutput e r.now
    let r := runGranules e out.1 out.2 (out.2 + 2) r
    match r.fault, r.now.bad with
    | none, some f => ddecFault e f r
    | _, _ => r

/-- The next thing a command does: it starts, writes one byte of the granule it has read, or reads the next granule. -/
def stepCmd (e : EngCmd) (s : State) : EngRun :=
  let r := startCmd e s
  if e.at'.isNone || r.fault.isSome then r
  else if !r.now.left.isEmpty then writeGranule e 1 r
  else
    let out := cmdOutput e r.now
    if out.2 ≤ r.now.elem then r else readGranule e out.1 out.2 r

/-! ## Issuing commands (R343, 09 R247, R248) -/

/-- A command of the current context. -/
def State.engCmd (s : State) (cmd : BitVec 4) (tag : BitVec 8) (ea : Word) (desc : List Word) : EngCmd :=
  let sp := (s.space s.k).getD ⟨0, 0, s.k, .die⟩
  ⟨s.nextId, s.cur, cmd, tag, ea, desc, s.ctx.prv, sp.asd, s.asidOf s.k, none, false, true, none⟩

def State.engine (s : State) : Cluster := s.cluster (engineOf s.k)

/-- Accept a copy command, or answer that the engine is busy. -/
def State.startCopy (s : State) (d : Reg) (e : EngCmd) : State :=
  let cl := s.engine
  if s.ctx.cpc = 255 ∨ Config.copyTags ≤ cl.copies.length then (s.setX d 0xFFFFFFFFFFFFFFFF).retire 12
  else
    let s := s.setCluster (engineOf s.k) { cl with copies := cl.copies ++ [e] }
    (State.setX { s with ctx := { s.ctx with cpc := s.ctx.cpc + 1 }, nextId := s.nextId + 1 } d 0).retire 12

/-- Whether a request slot is free for a DDEC or DTBL: together they hold at most 3 of the 4, and weight trains hold some (R246). -/
def Cluster.slotFree (c : Cluster) : Bool := decide (c.decodes.length < 3) && decide (c.decodes.length + c.reqs.length < 4)

/-- Accept a DDEC or DTBL, or answer that no request slot is free. R247 and R248 turn none away for CPC: past 255 the count goes on
(log 48). -/
def State.startDecode (s : State) (d : Reg) (e : EngCmd) : State :=
  let cl := s.engine
  if !cl.slotFree then (s.setX d 0xFFFFFFFFFFFFFFFF).retire 12
  else
    let s := s.setCluster (engineOf s.k) { cl with decodes := cl.decodes ++ [e] }
    (State.setX { s with ctx := { s.ctx with cpc := s.ctx.cpc + 1 }, nextId := s.nextId + 1 } d 0).retire 12

/-- DCOPY and SORTC up to the descriptor: a core without a copy engine lacks the unit (13 R318). -/
def State.copyIssue (s : State) (i : Instr) (d a : Reg) (off : BitVec 32) (tag : BitVec 8) (cmd : BitVec 4)
    (ok : Word → List Word → Except Trap Unit) : Out :=
  let ea := s.x a + off.signExtend 64
  match andThen (require (!isMaster s.k) (illegalMode i)) fun _ => aligned ea 6 with
  | .error t => .next (s.trap t)
  | .ok _ => s.checkedBlock ea 8 fun l s =>
    if s.readsFirst l then .next (s.stall .counters)
    else s.withRecord l .counters fun ds s =>
      checked s (ok ea ds) fun _ => s.startCopy d (s.engCmd cmd tag ea ds)

def execDcopy (d a : Reg) (off : BitVec 32) (tag : BitVec 8) (s : State) : Out :=
  s.copyIssue (.dcopy d a off tag) d a off tag 0 fun ea ds => require (dcopyOk ds) (illegalVal ea)

def execSortc (d a : Reg) (off : BitVec 32) (tag : BitVec 8) (s : State) : Out :=
  s.copyIssue (.sortc d a off tag) d a off tag 1 fun ea ds =>
    andThen (require (sortcOk ds) (illegalVal ea)) fun _ => sortcAlign ds

def execDdec (d a b c : Reg) (slot : BitVec 2) (tag : BitVec 8) (s : State) : Out :=
  let i : Instr := .ddec d a b c slot tag
  let n := s.x c
  checked s
    (andThen (require (isMesh s.k) (illegalMode i)) fun _ =>
      require (n.extractLsb' 24 40 == 0 && n != 0) (illegalVal n))
    fun _ => s.startDecode d (s.engCmd 2 tag (s.x a) [s.x a, s.x b, n, slot.zeroExtend 64])

def execDtbl (d a : Reg) (slot : BitVec 2) (tag : BitVec 8) (s : State) : Out :=
  let i : Instr := .dtbl d a slot tag
  checked s (andThen (require (isMesh s.k) (illegalMode i)) fun _ => aligned (s.x a) 2) fun _ =>
    s.startDecode d (s.engCmd 3 tag (s.x a) [s.x a, slot.zeroExtend 64])

/-! ## The ends of commands -/

/-- Command `i` of a unit: its copies first, then its decodes. -/
def Cluster.cmd (c : Cluster) (i : Nat) : Option EngCmd := (c.copies ++ c.decodes)[i]?

/-- Whether a request of the decode engine is served next: it serves them one at a time in arrival order, weight trains' too
(R246). -/
def Cluster.firstDecode (c : Cluster) (id : Nat) : Bool :=
  !(c.decodes.any fun x => decide (x.id < id) && x.failed.isNone) && !(c.reqs.any fun x => decide (x.id < id))

/-- Whether a command may run by the order of its engine: copies start in the order they were accepted in and progress together,
decodes go one by one. -/
def Cluster.cmdReady (c : Cluster) (i : Nat) : Bool :=
  match c.cmd i with
  | none => false
  | some e =>
    if i < c.copies.length then e.at'.isSome || (c.copies.take i).all fun x => x.at'.isSome || x.failed.isSome
    else c.firstDecode e.id

/-- The addresses that a command which has not started may reach, whatever its data come to: all keys, rows and outputs of a SORTC,
all output bytes of a DDEC, and what they read as memory stands. -/
def State.cmdVas (s : State) (e : EngCmd) : List Word :=
  let run (base : Word) (n : Nat) : List Word := addrsFrom base 1 n
  let nd := sortcT e.desc * sortcK e.desc
  match e.cmd.toNat with
  | 1 => run (e.w 0) (2 * nd) ++ run (e.w 1) (sortcT e.desc * sortcRb e.desc) ++ run (e.w 2) (nd * sortcRb e.desc) ++
      run (e.w 3) (4 * sortcE e.desc) ++ run (e.w 4) (4 * sortcE e.desc) ++ run (e.w 5) (4 * nd)
  | 2 => run (e.w 0) (payloadLen (s.engByte e (e.w 0))) ++ run (e.w 1) (e.w 2).toNat
  | _ => run (e.w 0) (s.imageLen e)

/-- The homes that a command has still to reach: a DCOPY's, and those of a command that has started, do not depend on data any more. -/
def State.cmdHomes (s : State) (e : EngCmd) : List Nat :=
  if e.cmd = 0 ∨ e.at'.isSome then (runCmd e s).homes else (s.cmdVas e).filterMap (s.engHome e)

/-- Whether an earlier command of one's context has, or may have, a home of one's accesses still to reach (R343, 11 R286). A DDEC whose
payload an earlier command may change reaches homes that cannot be told: DESIGN CHOICE, later commands of its context wait for it to
start (log 48). -/
def State.cmdFollows (s : State) (e x : EngCmd) (homes : List Nat) : Bool :=
  x.ctx == e.ctx && x.asid == e.asid && decide (x.id < e.id) && x.failed.isNone &&
    (s.cmdOpen x || (s.cmdHomes x).any homes.contains)

/-- Whether a command may make the accesses of a run now: earlier commands of its context at their homes are done, and no earlier
access of the context has still to read their words (11 R293). -/
def State.cmdFree (s : State) (u : Nat) (e : EngCmd) (r : EngRun) : Bool :=
  let cl := s.cluster u
  let t := s.select e.ctx
  !((cl.copies ++ cl.decodes).any fun x => s.cmdFollows e x r.homes) &&
    (e.ended || !(t.readBefore e.id r.keys || t.seenBefore e.id r.reads))

def Cluster.dropCmd (c : Cluster) (i : Nat) : Cluster :=
  if i < c.copies.length then { c with copies := removeAt c.copies i }
  else { c with decodes := removeAt c.decodes (i - c.copies.length) }

def Cluster.setCmd (c : Cluster) (i : Nat) (e : EngCmd) : Cluster :=
  if i < c.copies.length then { c with copies := replaceAt c.copies i e }
  else { c with decodes := replaceAt c.decodes (i - c.copies.length) e }

/-- A command leaves its engine and its context's CPC. -/
def State.cmdDone (s : State) (u i : Nat) (e : EngCmd) : State :=
  let s := s.setCluster u ((s.cluster u).dropCmd i)
  if e.ended || !e.counted then s else s.modCtx e.ctx fun c => { c with cpc := c.cpc - 1 }

/-- ENGINE_COMPLETE: command `i` of unit `u` does its work, if nothing fails. -/
def execEngineComplete (u i : Nat) (s : State) : Out :=
  .next (match (s.cluster u).cmd i with
    | none => s
    | some e =>
      if !(s.cluster u).cmdReady i || e.failed.isSome then s
      else
        let r := runCmd e s
        if !s.cmdFree u e r then s
        else if !s.powered r.keys then s.wakeFor r.keys
        else
          match r.fault with
          | some _ => s
          | none => r.s.cmdDone u i e)

/-- The command at a place of an engine goes on by one granule read or one byte written, or starts (R341, R346). -/
def State.engineStep (s : State) (u i : Nat) : State :=
  match (s.cluster u).cmd i with
  | none => s
  | some e =>
    if !(s.cluster u).cmdReady i || e.failed.isSome || decide (2 < e.cmd.toNat) then s
    else
      let r := stepCmd e s
      if r.fault.isSome || !s.cmdFree u e r then s
      else if !s.powered r.keys then s.wakeFor r.keys
      else r.s.setCluster u ((r.s.cluster u).setCmd i { e with at' := some r.now })

/-- Raise the event of an abandoned command, or keep it until its context has room (13 R328). -/
def State.engRaise (s : State) (u i : Nat) (e : EngCmd) (r : EngRec) : State :=
  if e.ended then (s.cmdDone u i e).fatal (e.ctx / 8) 6
  else if (s.getCtx e.ctx).eng.length < 16 then
    (s.cmdDone u i e).modCtx e.ctx fun c => { c with eng := c.eng ++ [r] }
  else s.setCluster u ((s.cluster u).setCmd i { e with failed := some r })

/-- Whether the context that issued a command stands on its core: its job runs there, and the context is not saved (01 R35). -/
def State.present (s : State) (e : EngCmd) : Bool :=
  s.asidOf (e.ctx / 8) == e.asid && (s.getCtx e.ctx).phase == .active

/-- ENGINE_FAIL: command `i` of unit `u` meets its failure and is abandoned, or its kept event finds room. -/
def execEngineFail (u i : Nat) (s : State) : Out :=
  .next (match (s.cluster u).cmd i with
    | none => s
    | some e =>
      match e.failed with
      | some r => if e.ended || s.present e then s.engRaise u i e r else s
      | none =>
        if !(s.cluster u).cmdReady i then s
        else
          let r := runCmd e s
          if !s.cmdFree u e r then s
          else if !s.powered r.keys then s.wakeFor r.keys
          else
            match r.fault with
            | none => s
            | some f => r.s.engRaise u i e ⟨e.tag, BitVec.ofNat 56 r.now.pos, f.addr, f.sub, e.cmd, e.ea⟩)

/-! ## Gather windows (10 R278, R279) -/

/-- Whether two ranges of addresses meet. -/
def meets (a n b m : Nat) : Bool := decide (a < b + m) && decide (b < a + n)

/-- Whether a window's range is refused: misaligned, not canonical throughout, on an aliased range, or on another window. -/
def State.badWindow (s : State) (sp : Space) (va : Word) (len win : Nat) : Bool :=
  let a := va.toNat
  a % 64 != 0 || !canonical va || (decide (a < 2 ^ 51) && decide (2 ^ 51 < a + len)) || decide (2 ^ 64 < a + len) ||
    meets a len 0x1000000000 0x200000 || meets a len 0x2000000000 0x28000000 ||
    (List.range 16).any fun j =>
      match s.windowRec sp j with
      | none => false
      | some w => j == win || meets a len w.wva.toNat (w.n * w.sz)

/-- Write a window record and give it to every TLB of the address space: no core or cluster keeps an old one, and every die has the new
one (R279). -/
def State.setWindow (s : State) (sp : Space) (win : Nat) (e : Option FdWords) : State :=
  let w := e.getD ⟨0, 0, 0, 0⟩
  let a := sp.asd + 0x200 + 32 * win
  let s := s.homeStore (cellsOf a 8 w.w0.toNat ++ cellsOf (a + 8) 8 w.w1.toNat ++ cellsOf (a + 16) 8 w.w2.toNat ++
    cellsOf (a + 24) 8 w.w3.toNat)
  let rest := s.tlb.filter fun t => match t.2 with | .window as j _ => !(as == sp.asid && j == win) | _ => true
  { s with tlb := match e with
    | some w => (List.range 4).map (fun d => (TlbAt.die d, TlbEnt.window sp.asid win w)) ++ rest
    | none => rest }

def execBindw (d a b c : Reg) (size : BitVec 3) (win : BitVec 4) (s : State) : Out :=
  let i : Instr := .bindw d a b c size win
  let sz := sizeCode size
  let n := ((s.x c).extractLsb' 0 28).toNat
  let bound := ((s.x c).extractLsb' 28 28).toNat
  match s.space s.k with
  | none => .next (s.trap (illegalMode i))
  | some sp =>
    let chk : Except Trap Unit :=
      andThen (require ((s.x c).extractLsb' 56 8 == 0 && n != 0 && bound != 0) (illegalVal (s.x c))) fun _ =>
      andThen (aligned (s.x a) 2) fun _ =>
      andThen (require ((s.x b).toNat % min sz 8 == 0) (alignTrap (s.x b))) fun _ =>
      require (!s.badWindow sp (s.x d) (n * sz) win.toNat) (illegalVal (s.x d))
    checked s chk fun _ =>
      (s.setWindow sp win.toNat (some ⟨s.x d, s.x a, s.x b, bitAt true 63 ||| n64 size <<< 56 ||| s.x c⟩)).retire 12

def execUnbindw (win : BitVec 4) (s : State) : Out :=
  match s.space s.k with
  | none => .next (s.trap (illegalMode (.unbindw win)))
  | some sp =>
    match s.windowRec sp win.toNat with
    | none => .next (s.retire 12)
    | some _ => .next ((s.setWindow sp win.toNat none).retire 12)

/-! ## DSTAT (R350) -/

def execDstat (d : Reg) (sel : BitVec 3) (s : State) : Out :=
  let r := s.ctx.latched
  let v : Word :=
    match sel.toNat with
    | 0 => BitVec.ofNat 64 (s.ctx.cpc % 256 + (Config.copyTags - s.engine.copies.length) * 256)
    | 1 => r.addr
    | 2 => n64 r.tag <<< 56 ||| n64 r.cmd <<< 8 ||| n64 r.sub
    | 3 => r.ea
    | _ => n64 r.bytes
  .next ((s.setX d v).retire 12)

end Sys2Proof.Machine
end

