-- ==== Sys2Proof/Machine/Train.lean ====
section
/-! DEFINITION. Weight trains (09 R220 to R242): the checks of a block in the order of R234, its commit (R235), the
instructions WDRUN and WDRET, and the end of a train. One step runs one block whole; it starts when every STOREC write of
earlier blocks has been performed (R241). -/

namespace Sys2Proof

/-! ## The fields of a block header (R221) -/

def BlkHdr.opc (h : BlkHdr) : BitVec 8 := h.w0.extractLsb' 8 8
def BlkHdr.flags (h : BlkHdr) : BitVec 8 := h.w0.extractLsb' 16 8
def BlkHdr.slot (h : BlkHdr) : BitVec 8 := h.w0.extractLsb' 24 8
def BlkHdr.ct (h : BlkHdr) : Tile := h.w1.extractLsb' 0 3
def BlkHdr.at' (h : BlkHdr) : Tile := h.w1.extractLsb' 3 3
def BlkHdr.wt (h : BlkHdr) : Tile := h.w1.extractLsb' 6 3
def BlkHdr.tcore (h : BlkHdr) : BitVec 4 := h.w1.extractLsb' 9 4
def BlkHdr.rtag (h : BlkHdr) : BitVec 16 := h.w1.extractLsb' 16 16
def BlkHdr.plen (h : BlkHdr) : Nat := (h.w4.extractLsb' 0 24).toNat
def BlkHdr.planes (h : BlkHdr) : BitVec 8 := h.w4.extractLsb' 24 8
def BlkHdr.row (h : BlkHdr) : Nat := (h.w6.extractLsb' 0 16).toNat
def BlkHdr.col (h : BlkHdr) : Nat := (h.w6.extractLsb' 16 16).toNat

/-- The fields an opcode leaves unmarked are zero, and SLOT is 0xFF. -/
def BlkHdr.only (h : BlkHdr) (flags : BitVec 8) (slot ct at_ wt route cpl alt plen planes scale : Bool) : Bool :=
  h.flags &&& ~~~flags == 0 && (slot || h.slot == 0xFF) && (ct || h.ct == 0) && (at_ || h.at' == 0) && (wt || h.wt == 0) &&
    (route || (h.tcore == 0 && h.rtag == 0)) && h.w1.extractLsb' 13 3 == 0 && (cpl || h.w2 == 0) && (alt || h.w3 == 0) &&
    (plen || h.plen == 0) && (planes || h.planes == 0) && (scale || h.w5 == 0)

/-- The 28 bytes of words 0 to 6. -/
def BlkHdr.bytes (h : BlkHdr) : List Byte :=
  [h.w0, h.w1, h.w2, h.w3, h.w4, h.w5, h.w6].flatMap fun w => Machine.leBytes 4 w.toNat

end Sys2Proof

namespace Sys2Proof.Machine

open Sys2Proof

/-! ## Blocks -/

/-- A failed check of R234: subcode and TVAL. -/
structure BlkFault where
  sub  : BitVec 8
  tval : Word
  deriving DecidableEq, Repr

abbrev BChk (α : Type) := Except BlkFault α

def bThen {α β : Type} (a : BChk α) (k : α → BChk β) : BChk β :=
  match a with
  | .error f => .error f
  | .ok x => k x

def bReq (ok : Bool) (sub : BitVec 8) (tval : Word) : BChk Unit := if ok then .ok () else .error ⟨sub, tval⟩

/-- A block gives up the request it holds in the decode engine (21 R408). -/
def State.giveUp (s : State) : State :=
  let cl := s.engine
  if cl.reqs.any (·.ctx == s.cur) then
    s.setCluster (engineOf s.k) { cl with reqs := cl.reqs.filter (·.ctx != s.cur) }
  else s

/-- A block faults: its slots and its decode request are given up, the train is held, and WDBLK traps at the WDRUN (R238). -/
def State.blockFault (s : State) (f : BlkFault) : State :=
  let s := s.giveUp
  let s := { s with
    ctx := { s.ctx with wd := { s.ctx.wd with state := 2, sub := f.sub, held := false, posts := 0, block := none } }
    core := s.core.freeResv s.c }
  s.trap ⟨11, f.sub, f.tval⟩

/-- XLATE or NOWX for a subcode of 13 R319. -/
def wxSub (e : BitVec 8) : BitVec 8 := if e = 1 ∨ e = 3 then 1 else 2

/-- The keys of `n` train bytes from an address, in order (checks 1 and 5). -/
def State.trainKeys (s : State) (va : Word) : Nat → BChk (List Nat)
  | 0 => .ok []
  | n + 1 =>
    match s.site .wx va with
    | .error e => .error ⟨wxSub e, va⟩
    | .ok (.key k _ _) =>
      match s.trainKeys (va + 1) n with
      | .error f => .error f
      | .ok l => .ok (k :: l)
    | .ok _ => .error ⟨2, va⟩

def bytesOf (s : State) (ks : List Nat) : List Byte := ks.map (Mem.get s.mem)

/-- The header of eight words from its 32 bytes. -/
def hdrOf (b : List Byte) : BlkHdr :=
  let w (i : Nat) : BitVec 32 := BitVec.ofNat 32 (leNat ((b.drop (4 * i)).take 4))
  ⟨w 0, w 1, w 2, w 3, w 4, w 5, w 6, w 7⟩


/-- The instruction of the model a block is (R224). -/
def blockInstr (h : BlkHdr) : Option Instr :=
  match h.opc.toNat with
  | 1 => some (.mma h)
  | 2 => some (.mmas h)
  | 3 => some (.loada h)
  | 4 => some (.zeroc h)
  | 5 => some (.storec h)
  | 6 => some (.post h)
  | 7 => some (.act h)
  | 8 => some (.calli h)
  | 9 => some (.brc h)
  | 10 => some (.skipz h)
  | 11 => some (.table h)
  | 12 => some (.link h)
  | 13 => some (.exit h)
  | _ => none

/-- Checks 1 to 3: the block at WDBLK. -/
def State.blockAt (s : State) : BChk (Instr × List Nat) :=
  let b := s.ctx.wd.blk
  bThen (s.trainKeys b 32) fun ks =>
    let h := hdrOf (bytesOf s ks)
    bThen (bReq (h.w0.extractLsb' 0 8 == 0xB7) 3 b) fun _ =>
      match blockInstr h with
      | some i => .ok (i, ks)
      | none => .error ⟨6, b⟩

/-! ## Check 4 (R222, R223, R225, R226, R244) -/


def slotOk (h : BlkHdr) : Bool := decide (h.slot.toNat ≤ 3) || h.slot == 0xFF

/-- Bytes of the output of an MMA payload; 0 for a PLANES that FMT does not allow (R225). -/
def mmaBytes (h : BlkHdr) : Nat :=
  let fmt := (h.flags.extractLsb' 0 3).toNat
  match h.planes.toNat with
  | 0 => 4096
  | 1 => if fmt = 0 ∨ fmt = 1 then 4096 else if fmt = 3 then 2048 else 0
  | 2 => if fmt = 3 then 4096 else 0
  | _ => 0

def mmaFields (h : BlkHdr) (scale : Bool) : Bool :=
  let n := mmaBytes h
  h.only 7 true true true true false true false true true scale && decide ((h.flags.extractLsb' 0 3).toNat ≤ 5) && slotOk h &&
    h.ct != h.at' && h.ct != h.wt && h.at' != h.wt && n != 0 &&
    (if h.slot = 0xFF then h.plen == n else decide (1 ≤ h.plen ∧ h.plen ≤ 8192))

def fieldsOk (i : Instr) : Bool :=
  match i with
  | .mma h => mmaFields h false
  | .mmas h => mmaFields h true
  | .loada h => h.only 0 false false true false false true false false false false
  | .zeroc h => h.only 0 false true false false false true false false false false
  | .storec h => h.only 0 false true false false false true false false false false
  | .post h =>
    h.only 0 false true false false true true true false false false && h.w3.extractLsb' 0 3 == 0 &&
      (decide (h.tcore.toNat ≤ 8) || h.tcore == 15)
  | .act h =>
    h.only 0x30 false true false false false true false false false (h.flags.getLsbD 5) &&
      decide ((h.w5.extractLsb' 0 31).toNat ≤ 0x7F800000)
  | .calli h => h.only 0 false false false false false true true false false false && h.w3.extractLsb' 0 3 == 0
  | .brc h => h.only 0 false false false false false true true false false false
  | .skipz h => h.only 0 false false false false false true false false false false
  | .table h =>
    h.only 0 true false false false false true false true false false && decide (h.slot.toNat ≤ 3) &&
      h.plen % 4 == 0 && decide (8 ≤ h.plen ∧ h.plen ≤ 2052)
  | .link h => h.only 0 false false false false false false true false false false && h.w3 != 0
  | .exit h => h.only 0 false false false false false false false false false false
  | _ => false

/-! ## Check 6: CRC-32C (R221) -/

def crcByte (c : BitVec 32) (b : Byte) : BitVec 32 :=
  (List.range 8).foldl (fun c _ => if c.getLsbD 0 then (c >>> 1) ^^^ 0x82F63B78 else c >>> 1) (c ^^^ b.zeroExtend 32)

def crc32c (l : List Byte) : BitVec 32 := ~~~(l.foldl crcByte 0xFFFFFFFF)


/-! ## Check 8: data words -/

/-- Subcode of a data word whose access fails (R237). -/
def dataSub (e : BitVec 8) : BitVec 8 := if e = 1 ∨ e = 3 then 7 else 8

/-- The key of an aligned data access. -/
def State.dataKey (s : State) (acc : Acc) (va : Word) (al : Nat) : BChk Nat :=
  if va.toNat % al ≠ 0 then .error ⟨9, va⟩
  else
    match s.site acc va with
    | .error e => .error ⟨dataSub e, va⟩
    | .ok (.key k _ _) => .ok k
    | .ok _ => .error ⟨8, va⟩

/-- The keys of `n` 8-byte words of a data range. -/
def State.dataKeys (s : State) (acc : Acc) (va : Word) : Nat → BChk (List Nat)
  | 0 => .ok []
  | n + 1 =>
    match s.dataKey acc va 8 with
    | .error f => .error f
    | .ok k =>
      match s.dataKeys acc (va + 8) n with
      | .error f => .error f
      | .ok l => .ok (k :: l)

/-- The key of a word the sequencer itself reads; one of another device is refused (15 R357). -/
def State.wordKey (s : State) (va : Word) (al : Nat) : BChk Nat :=
  bThen (s.dataKey .r va al) fun k => bThen (bReq (!isRemoteKey k) 8 va) fun _ => .ok k

/-- A range whose base must be a multiple of `al`. -/
def State.dataRange (s : State) (acc : Acc) (va : Word) (al n : Nat) : BChk (List Nat) :=
  bThen (s.dataKey acc va al) fun _ => s.dataKeys acc va n

/-- What a block does with a word at a key that it has read: when the word's region sleeps, the block wakes it first. -/
def State.withWord (s : State) (k : Nat) (f : BChk (List Nat × (State → State))) : BChk (List Nat × (State → State)) :=
  if s.powered [k] then f else .ok ([k], id)

/-- What a block does with the PC a GOT word holds (checks 8 and 9); a word that has been read counts as read when the check of the PC
fails (11 R287). -/
def State.gotPc (s : State) (alt : BitVec 32) (f : Nat → Word → BChk (List Nat × (State → State))) :
    BChk (List Nat × (State → State)) :=
  bThen (s.wordKey (s.x 3 + alt.zeroExtend 64) 8) fun k =>
    let pc := Mem.word s.mem k
    s.withWord k (if pcOk pc then f k pc else .ok ([k], fun s => s.blockFault ⟨10, pc⟩))

/-! ## Committing (R235) -/

/-- Where a train goes after a block: to a successor, or to its end with the state to report. -/
inductive Next where
  | block (a : Word)
  | done (state : BitVec 3)
  deriving DecidableEq, Repr

/-- The block a signed coupling reaches from a block; 0 ends the train. -/
def coupled (b : Word) (cpl : BitVec 32) : Next := if cpl = 0 then .done 5 else .block (b + (cpl.signExtend 64 <<< 5))

/-- Count the block and go on; its decode request ends. -/
def State.commitBlock (s : State) (opc : BitVec 8) (n : Next) : State :=
  let s := s.giveUp
  let t := s.ctx.wd
  let t := { t with nblk := if t.nblk = 0xFFFF then t.nblk else t.nblk + 1, opc := opc, posts := 0, block := none }
  { s with ctx := { s.ctx with
    wait := .none
    wd := match n with
    | .block a => { t with blk := a &&& 0xFFFFFFFFFFFFFFE0 }
    | .done st => { t with ending := some st } } }

/-- Whether a train block may run: the train runs, is not ending, and its earlier STOREC writes are performed. -/
def State.trainRuns (s : State) : Bool :=
  s.ctx.wd.wdm && s.ctx.wd.state == 1 && s.ctx.wd.ending.isNone && s.core.tileq.isEmpty && s.tclm

/-- Run a block: its checks give the keys it reads and its effect; powered-down banks wake first, and earlier accesses of the context to
those words come first (11 R293). -/
def State.runBlock (s : State) (chk : BChk (List Nat × (State → State))) : Out :=
  if !s.trainRuns then .next s
  else
    match chk with
    | .error f => .next (s.blockFault f)
    | .ok (ks, eff) => .next (if s.mayReadNow ks then eff (State.touch s.k s ks) else (s.wakeFor ks).stall .counters)

/-- The payload that a block in progress was read with when it started (R242). -/
def State.captured (s : State) (i : Instr) : Option (List Byte) :=
  match s.ctx.wd.block with
  | some (j, p) => if j = i then some p else none
  | none => none

/-- A block starts: checks 4 to 6, then the rest of its checks and its effect on the payload read now; one that waits goes on with
the payload it started with. A payload that fails its CRC has been read (11 R287). -/
def State.block (s : State) (i : Instr) (h : BlkHdr) (k : List Byte → BChk (List Nat × (State → State))) : Out :=
  let b := s.ctx.wd.blk
  if !s.trainRuns then .next s
  else
    match s.captured i with
    | some p => s.runBlock (k p)
    | none =>
      match bThen (bReq (fieldsOk i) 3 b) fun _ => s.trainKeys (b + 32) h.plen with
      | .error f => .next (s.blockFault f)
      | .ok ks =>
        if !s.mayReadNow ks then .next ((s.wakeFor ks).stall .counters)
        else
          let p := bytesOf s ks
          let t := State.touch s.k s ks
          if crc32c (h.bytes ++ p) = h.w7 then
            State.runBlock { t with ctx := { t.ctx with wd := { t.ctx.wd with block := some (i, p) } } } (k p)
          else .next (t.blockFault ⟨4, b⟩)

/-! ## MMA and MMAS (R225) -/

def blkFmt (h : BlkHdr) : TFmt :=
  match (h.flags.extractLsb' 0 3).toNat with
  | 0 => .p1
  | 1 => .e4m3
  | 2 => .i8
  | 3 => .p2
  | 4 => .s
  | _ => .d

/-- A tile from its 4,096-byte image (R162). -/
def imageRows (b : List Byte) : Vector (BitVec 1024) 32 :=
  Vector.ofFn fun i : Fin 32 => BitVec.ofNat 1024 (leNat ((b.drop (128 * i.val)).take 128))

/-- The tile bytes of a plane-major output; a plane the payload lacks is zero. -/
def planeMajor (fmt : TFmt) (b : List Byte) : List Byte :=
  match fmt with
  | .p2 => (List.range 2048).flatMap fun i => [b.getD (2048 + i) 0, b.getD i 0]
  | _ => b

/-- Whether a coded block's request is the one the decode engine serves: the one it holds, or one made now (09 R246). -/
def State.decodes (s : State) : Bool :=
  let cl := s.engine
  match cl.reqs.find? (·.ctx == s.cur) with
  | some q => cl.firstDecode q.id
  | none => decide (cl.decodes.length + cl.reqs.length < 4) && cl.firstDecode s.nextId

/-- A coded block waits: it takes a request slot for table slot `n` if it holds none and one is free. -/
def State.awaitDecode (s : State) (n : Nat) : State :=
  let cl := s.engine
  let s := if cl.reqs.any (·.ctx == s.cur) || decide (4 ≤ cl.decodes.length + cl.reqs.length) then s
    else { s.setCluster (engineOf s.k) { cl with reqs := cl.reqs ++ [⟨s.cur, s.nextId, n⟩] } with nextId := s.nextId + 1 }
  s.stall .counters

/-- The decoded payload, or none when the decode fails (check 10). -/
def State.mmaPayload (s : State) (h : BlkHdr) (p : List Byte) : Option (List Byte) :=
  if h.slot = 0xFF then some p
  else
    let tab := (s.cluster (clusterOf s.k)).table h.slot.toNat
    match decodePayload tab (fun o => .ok (p.getD o 0)) (some p.length) (mmaBytes h) with
    | (b, none) => some b
    | _ => none

/-- A full shape of a width. -/
def fullShape (wid : BitVec 3) : TShape := ⟨BitVec.ofNat 7 (128 / tileBytes wid - 1), 31, wid⟩

/-- An MMA block with the scale its tile takes. -/
def State.mmaBlock (s : State) (i : Instr) (h : BlkHdr) (scale : BitVec 32) : Out :=
  let b := s.ctx.wd.blk
  let fmt := blkFmt h
  let w := mmaWids fmt
  s.block i h fun p =>
    bThen (bReq ((s.tshape h.at').wid == w.1 && (s.tshape h.ct).wid == w.2) 11 b) fun _ =>
      if h.slot != 0xFF && !s.decodes then .ok ([], fun s => s.awaitDecode h.slot.toNat)
      else match s.mmaPayload h p with
      | none => .error ⟨5, b⟩
      | some out =>
        let rows := imageRows (if h.planes = 0 then out else planeMajor fmt out)
        let wt : TileReg := ⟨rows, Vector.replicate 32 scale, scale⟩
        .ok ([], fun s =>
          State.commitBlock
            (((s.setTile h.wt wt).setTshape h.wt (fullShape w.1)).setTile h.ct (mmaTile fmt (s.tile h.ct) (s.tile h.at') wt))
            h.opc (coupled b h.w2))

def execMma (h : BlkHdr) (s : State) : Out := s.mmaBlock (.mma h) h one32
def execMmas (h : BlkHdr) (s : State) : Out := s.mmaBlock (.mmas h) h h.w5

/-! ## LOADA, ZEROC, STOREC, ACT (R226) -/

def execLoada (h : BlkHdr) (s : State) : Out :=
  let b := s.ctx.wd.blk
  let va := s.ctx.wd.base + BitVec.ofNat 64 (h.col * 0x1080)
  s.block (.loada h) h fun _ =>
    bThen (s.dataRange .r va 128 528) fun ks =>
      let img := ks.flatMap fun k => Mem.bytes s.mem k 8
      let sr : Vector (BitVec 32) 32 := Vector.ofFn fun i : Fin 32 => BitVec.ofNat 32 (leNat ((img.drop (4096 + 4 * i.val)).take 4))
      .ok (ks, fun s => State.commitBlock (s.setTile h.at' ⟨imageRows img, sr, one32⟩) h.opc (coupled b h.w2))

def execZeroc (h : BlkHdr) (s : State) : Out :=
  let b := s.ctx.wd.blk
  s.block (.zeroc h) h fun _ =>
    .ok ([], fun s => State.commitBlock (s.setTile h.ct .zeroed) h.opc (coupled b h.w2))

/-- The data bytes of a tile. -/
def TileReg.bytes (t : TileReg) : List Byte := t.rows.toList.flatMap fun r => leBytes 128 r.toNat

def execStorec (h : BlkHdr) (s : State) : Out :=
  let b := s.ctx.wd.blk
  let va := s.ctx.wd.out + BitVec.ofNat 64 (h.row * 4096)
  s.block (.storec h) h fun _ =>
    bThen (s.dataRange .w va 64 512) fun ks =>
      .ok ([], fun s =>
        let addrs := ks.flatMap fun k => (List.range 8).map (k + ·)
        let cells := addrs.zip (s.tile h.ct).bytes
        let homes := ks.zipIdx.map fun e => s.homeAt (va + BitVec.ofNat 64 (8 * e.2)) e.1
        State.commitBlock ((s.wakeFor ks).addTile (.bytes cells) homes) h.opc (coupled b h.w2))

/-- One FP32 element under ACT. -/
def actElem (relu clamp : Bool) (c x : BitVec 32) : BitVec 32 :=
  let mag (v : BitVec 32) : Nat := (v.extractLsb' 0 31).toNat
  if 0x7F800000 < mag x then 0x7FC00000
  else
    let x := if relu && x.getLsbD 31 then 0 else x
    if clamp && decide (mag c < mag x) then (if x.getLsbD 31 then 0x80000000 else 0) ||| (c &&& 0x7FFFFFFF) else x

def execAct (h : BlkHdr) (s : State) : Out :=
  let b := s.ctx.wd.blk
  s.block (.act h) h fun _ =>
    bThen (bReq ((s.tshape h.ct).wid == 3) 11 b) fun _ =>
      .ok ([], fun s =>
        let t := s.tile h.ct
        let row (r : BitVec 1024) : BitVec 1024 := rowOf 4 ((rowElems r 4 32).map fun x =>
          (actElem (h.flags.getLsbD 4) (h.flags.getLsbD 5) h.w5 (BitVec.ofNat 32 x)).toNat)
        State.commitBlock (s.setTile h.ct { t with rows := t.rows.map row }) h.opc (coupled b h.w2))

/-! ## POST (R227) -/

/-- The 16 messages of a POST. -/
def State.postMsgs (s : State) (h : BlkHdr) (pc : Word) : List Msg :=
  let dst := if h.tcore = 15 then s.k else clusterOf s.k * 9 + h.tcore.toNat
  let w0 : Word := BitVec.ofNat 64 (256 * 2 ^ 40) ||| n64 s.dev.devnum <<< 16 ||| n64 (cidOf (dst * 8))
  let data := (s.tile h.ct).bytes
  (List.range 16).map fun q =>
    s.mkMsg w0 pc 0 [n64 h.rtag, BitVec.ofNat 64 q, n64 h.w6, s.ctx.wd.blk] ((data.drop (256 * q)).take 256) false

/-- POST reserves VN0 slots as they become free, and commits with 16. -/
def execPost (h : BlkHdr) (s : State) : Out :=
  let b := s.ctx.wd.blk
  s.block (.post h) h fun _ =>
    s.gotPc h.w3 fun k pc =>
      .ok ([k], fun s =>
        let n := min (16 - s.ctx.wd.posts) (s.core.freeSlots false)
        if s.ctx.wd.posts + n < 16 then
          { s with
            ctx := { s.ctx with
              wait := if n = 0 then .slot else .none, wd := { s.ctx.wd with posts := s.ctx.wd.posts + n } }
            core := s.core.setResv false (s.core.resv false ++ List.replicate n s.c) }
        else
          (s.postMsgs h pc).foldl State.inject
            (State.commitBlock { s with core := s.core.freeResv s.c } h.opc (coupled b h.w2)))

/-! ## CALLI, BRC, SKIPZ, TABLE, LINK, EXIT (R228, R229, R244) -/

/-- CALLI commits when its callout returns; until then ordinary fetch runs at the callout. -/
def execCalli (h : BlkHdr) (s : State) : Out :=
  s.block (.calli h) h fun _ =>
    s.gotPc h.w3 fun k pc =>
      .ok ([k], fun s => { s with ctx := { s.ctx with wait := .none, pc := pc, wd := { s.ctx.wd with state := 3 } } })

def execBrc (h : BlkHdr) (s : State) : Out :=
  let b := s.ctx.wd.blk
  s.block (.brc h) h fun _ =>
    bThen (s.wordKey s.ctx.wd.cond 4) fun k =>
      .ok (byteKeys k 4, fun s => s.commitBlock h.opc (coupled b (if s.word32 k = 0 then h.w2 else h.w3)))

def execSkipz (h : BlkHdr) (s : State) : Out :=
  let b := s.ctx.wd.blk
  s.block (.skipz h) h fun _ =>
    bThen (s.wordKey (s.ctx.wd.cond + BitVec.ofNat 64 (4 * h.row)) 4) fun k =>
      s.withWord k (
        if s.word32 k ≠ 0 ∨ h.w2 = 0 then .ok (byteKeys k 4, fun s => s.commitBlock h.opc (coupled b h.w2))
        else
          let nb : Word := b + (h.w2.signExtend 64 <<< 5)
          match s.trainKeys nb 32 with
          | .error f => .ok (byteKeys k 4, fun s => s.blockFault f)
          | .ok ks =>
            let cpl := (hdrOf (bytesOf s ks)).w2
            .ok (byteKeys k 4 ++ ks, fun s => s.commitBlock h.opc (coupled nb cpl)))

/-- Whether a decode or a table load that came before uses a table slot of the current core's decode engine (R246). -/
def State.tableBusy (s : State) (n : Nat) : Bool :=
  let cl := s.engine
  (cl.decodes.any fun e => e.failed.isNone && (e.w (if e.cmd = 2 then 3 else 1)).toNat == n) ||
    cl.reqs.any fun q => q.slot == n

/-- TABLE loads its slot at its commit, which waits for every earlier use of the slot. -/
def execTable (h : BlkHdr) (s : State) : Out :=
  let b := s.ctx.wd.blk
  s.block (.table h) h fun p =>
    match tableOf p with
    | none => .error ⟨5, b⟩
    | some t =>
      if s.tableBusy h.slot.toNat then .ok ([], fun s => s.stall .counters)
      else .ok ([], fun s =>
        let u := clusterOf s.k
        (s.setCluster u ((s.cluster u).setTable h.slot.toNat t)).commitBlock h.opc (coupled b h.w2))

def execLink (h : BlkHdr) (s : State) : Out :=
  s.block (.link h) h fun _ => .ok ([], fun s => s.commitBlock h.opc (.block (h.w3.zeroExtend 64 <<< 5)))

def execExit (h : BlkHdr) (s : State) : Out :=
  s.block (.exit h) h fun _ => .ok ([], fun s => s.commitBlock h.opc (.done 4))

/-! ## WDRUN, WDRET, the end of a train (R232, R233, R239) -/

def execWdrun (d a : Reg) (s : State) : Out :=
  let i : Instr := .wdrun d a
  let chk : Except Trap Unit :=
    andThen (require (isCompute s.k && !s.ctx.hnd && !s.ctx.wd.wdm) (illegalMode i)) fun _ =>
    andThen (require s.tclm (tilebusy i)) fun _ => aligned (s.x a) 5
  checked s chk fun _ =>
    if s.ctx.drained && s.core.tileq.isEmpty then
      { s with ctx := { s.ctx with
        wait := .none
        wd := { s.ctx.wd with
          wdm := true, blk := s.x a, rpc := s.ctx.pc &&& 0xFFFFFFFFFFFFFFFC, nblk := 0, opc := 0, sub := 0, held := false, state := 1,
          ending := none, reread := false, posts := 0, dst := d, block := none } } }
    else s.stall .counters

/-- The coupling word of the CALLI block at WDBLK, read again, and the keys of its header (log 20). -/
def State.calloutCpl (s : State) : BChk (List Nat × BitVec 32) :=
  bThen (s.trainKeys s.ctx.wd.blk 32) fun ks => .ok (ks, (hdrOf (bytesOf s ks)).w2)

def execWdret (s : State) : Out :=
  let chk : Except Trap Unit :=
    andThen (require (s.ctx.wd.wdm && s.ctx.wd.state == 3) (illegalMode .wdret)) fun _ => require s.tclm (tilebusy .wdret)
  checked s chk fun _ =>
    if s.ctx.drained && s.core.tileq.isEmpty then
      match s.calloutCpl with
      | .error f => State.blockFault { s with ctx := { s.ctx with pc := s.ctx.wd.rpc } } f
      | .ok (ks, cpl) =>
        if !s.mayReadNow ks then (s.wakeFor ks).stall .counters
        else
          let s := State.commitBlock (State.touch s.k s.count ks) 8 (coupled s.ctx.wd.blk cpl)
          { s with ctx := { s.ctx with pc := s.ctx.wd.rpc, wd := { s.ctx.wd with state := 1, held := false, reread := true } } }
    else s.stall .counters

/-- The 64 bits at an address, as far as they can be fetched. -/
def State.bitsAtPc (s : State) (pc : Word) : Word :=
  match s.site .x pc with
  | .ok (.key k _ _) => s.granule (k + 4) ++ s.granule k
  | _ => 0

/-- Where the end of a train writes the status; or the CLM region of the instruction at WDRPC sleeps. -/
inductive TrainDst where
  | reg (d : Reg)
  | asleep (key : Nat)
  deriving DecidableEq, Repr

/-- The d field the end of a train writes: WDRUN's, or that of the instruction at WDRPC when the run was interrupted. The spec does not
say what happens when the fetch of that instruction faults: DESIGN CHOICE, the train ends, no x register is written, and the fault is
taken with EPC = WDRPC (log 20). -/
def State.trainDst (s : State) : Except Trap TrainDst :=
  if !s.ctx.wd.reread then .ok (.reg s.ctx.wd.dst)
  else
    match s.fetchAt s.ctx.wd.rpc with
    | .instr (.wdrun d _) _ => .ok (.reg d)
    | .asleep key => .ok (.asleep key)
    | .trap t => if t.code = 3 then .error t else .error ⟨1, 0, s.bitsAtPc s.ctx.wd.rpc⟩
    | _ => .error ⟨1, 0, s.bitsAtPc s.ctx.wd.rpc⟩

/-- What the end of a train waits for: TLC = 0 and every POST message accepted (R232), and, as XFENCE MSG, CORE does, every payload
written at its receiver (R241, 08 R216). -/
def State.trainDrained (s : State) : Bool :=
  s.core.tileq.isEmpty && !(s.core.out0.any (·.src == s.cur)) && !s.payloadsLeft s.cur

/-- TRAIN_END: the last block has committed, TLC is 0 and the POST messages are accepted: the status is written and the
context goes on after the WDRUN. -/
def execTrainEnd (s : State) : Out :=
  .next (match s.ctx.wd.ending with
    | none => s
    | some st =>
      if !(s.ctx.wd.wdm && s.ctx.wd.state == 1 && s.trainDrained) then s
      else
        let wd := { s.ctx.wd with state := st, held := false, ending := none }
        let t := { s with ctx := { s.ctx with wd := { wd with wdm := false } } }
        match s.trainDst with
        | .ok (.reg d) => (t.setX d wd.stat).jump (wd.rpc + 8)
        | .ok (.asleep key) => s.wakeFor [key]
        | .error e => State.trap { t with ctx := { t.ctx with pc := wd.rpc } } e)

end Sys2Proof.Machine
end

