-- ==== Sys2Proof/Machine/System.lean ====
section
/-! DEFINITION. Asynchronous events (13 R322, R325, R326), the system instructions (13 R331 to R340), and the CSR writes
with a rule of their own as steps (01 R25, R26, 06 R148, R152, 09 R231, 16 R367, R376 to R378). -/

namespace Sys2Proof.Machine

open Sys2Proof

/-! ## Pending events (R325) -/

/-- The lowest-numbered active context of a data core with IE = 1, which receives the core's ECC event. -/
def State.eccTarget (s : State) (k : Nat) : Option Nat :=
  ((s.coreCtxs k).find? fun e => e.2.phase == .active && e.2.ie).map (·.1)

/-- The ECC event pending for a context: the oldest that its core holds. -/
def State.eccOf (s : State) (r : Nat) : Option Word :=
  if s.eccTarget (r / 8) = some r then (s.getCore (r / 8)).ecc.head? else none

/-- Whether TIME has reached TCMP. -/
def State.timeUp (s : State) (r : Nat) : Bool := decide ((s.getCtx r).tcmp.toNat ≤ (s.timeOf (r / 8)).toNat)

/-- Whether a context has a pending event. -/
def State.hasEvent (s : State) (r : Nat) : Bool :=
  let c := s.getCtx r
  c.debug != 0 || !c.eng.isEmpty || c.ipi.isSome || c.timer || (s.eccOf r).isSome

/-- Whether a wait gives way to an event: an end, a TLBI, an arrival on its way and a release do not, but for the release of ARRWAIT,
which has sent nothing yet (R219, R326). -/
def Wait.yields (w : Wait) : Bool :=
  match w with
  | .release (.arrwait ..) => true
  | .release _ => false
  | .ending _ => false
  | .mdone => false
  | .arrival .. => false
  | .tlbi .. => false
  | _ => true

/-- Whether the current context takes events now: not in a message handler, with IE = 1. -/
def State.takesEvents (s : State) : Bool := s.ctx.phase == .active && !s.ctx.hnd && s.ctx.ie && s.ctx.wait.yields

/-- The TVAL of an ENGINE event (R328). -/
def EngRec.tval (r : EngRec) : Word := r.tag ++ r.bytes

/-- Remove the first pending event of the current context in the order of R322: its cause, and the state without it. -/
def State.popEvent (s : State) : Option (Trap × State) :=
  let c := s.ctx
  match (List.range 8).find? ((c.debug).getLsbD ·) with
  | some n => some (⟨34, 0, BitVec.ofNat 64 n⟩, { s with ctx := { c with debug := c.debug &&& ~~~((1 : BitVec 8) <<< n) } })
  | none =>
    match c.eng with
    | r :: rest => some (⟨35, r.sub, r.tval⟩, { s with ctx := { c with eng := rest, latched := r } })
    | [] =>
      match c.ipi with
      | some w => some (⟨33, 0, w.zeroExtend 64⟩, { s with ctx := { c with ipi := none } })
      | none =>
        if c.timer then some (⟨32, 0, s.timeOf s.k⟩, s)
        else
          match s.eccOf s.cur with
          | some w => some (⟨36, 0, w⟩, { s with core := { s.core with ecc := s.core.ecc.drop 1 } })
          | none => none

/-- An event holds a running train: the block in progress is discarded, and gives up its send slots and its decode request (09 R238,
21 R408). A last block that has committed is not run again: the train's end goes on when the train is resumed (log 32). SUB reads 0 while the
event holds the train (log 47). -/
def State.holdTrain (s : State) : State :=
  if s.ctx.wd.wdm && s.ctx.wd.state == 1 then
    let s := s.giveUp
    { s with
      ctx := { s.ctx with wd := { s.ctx.wd with
        state := 2, held := true, posts := 0, block := none } }
      core := s.core.freeResv s.c }
  else s

/-- TAKE_EVENT: the current context takes its first pending event. A WFI retires first (R339). -/
def execTakeEvent (s : State) : Out :=
  .next (if !s.takesEvents then s
    else
      match s.popEvent with
      | none => s
      | some (t, s) =>
        let s := s.holdTrain
        let s := if s.ctx.wait = .wfi then s.retire 8 else s
        s.exception true t s.ctx.pc)

/-- TIMER: TIME has reached TCMP of context `c`. -/
def execTimer (c : Nat) (s : State) : Out :=
  .next (if (s.getCtx c).phase = .active ∧ s.timeUp c then s.modCtx c fun c => { c with timer := true } else s)

/-- WFI_WAKE: a pending event, or TIME ≥ TCMP, ends the WFI of context `c`. -/
def execWfiWake (c : Nat) (s : State) : Out :=
  .next (if (s.getCtx c).wait = .wfi && (s.hasEvent c || s.timeUp c) then s.as c (State.retire 8) else s)

/-! ## TRAP, BRK, ERET, WFI, NOP (R332, R333, R338 to R340) -/

/-- TRAP retires before SYSCALL is taken. -/
def execTrap (n : BitVec 12) (s : State) : Out := .next ((s.retire 8).trap ⟨15, 0, n64 n⟩)

def execBrk (n : BitVec 12) (s : State) : Out := .next (s.trap ⟨14, 0, n64 n⟩)
def execBrk96 (n : BitVec 12) (s : State) : Out := .next (s.trap ⟨14, 0, n64 n⟩)
def execBrk128 (n : BitVec 12) (s : State) : Out := .next (s.trap ⟨14, 0, n64 n⟩)

/-- A held train goes on, or is abandoned when WDBLK = 0 (09 R239). -/
def State.resumeTrain (s : State) (t : Word) : State :=
  let w := s.ctx.wd
  if w.wdm && w.state == 2 then
    if w.blk = 0 then State.jump (t + 8) { s with ctx := { s.ctx with wd := { w with state := 6, held := false, wdm := false, ending := none } } }
    else State.jump t { s with ctx := { s.ctx with wd := { w with state := 1, held := false, reread := true } } }
  else s.jump t

/-- The STATUS fields and the streams and replay as ERET leaves them. -/
def Ctx.eret (c : Ctx) : Ctx :=
  { c.refetchStreams with
    prv := c.pprv
    ie := c.pie
    pie := true
    pprv := 0
    rep := if c.rep.act then { c.rep with held := false }.settle else c.rep }

def execEret (s : State) : Out :=
  let c := s.ctx
  if c.prv ≠ 1 then .next (s.trap (illegalPriv .eret))
  else if c.abt && c.pprv == 0 then .next (s.finish true)
  else
    checked s (require (c.epc.extractLsb' 0 2 == 0) (alignTrap c.epc)) fun _ =>
      State.resumeTrain { s with ctx := c.eret } c.epc

def execWfi (s : State) : Out :=
  checked s (s.notHandler .wfi) fun _ =>
    if s.hasEvent s.cur || s.timeUp s.cur then s.retire 8 else s.stall .wfi

def execNop (s : State) : Out := .next (s.retire 8)

/-! ## CSR instructions (R334) -/

/-- A write of `v` by instruction `i`, then the read value into x[d]. -/
def State.csrWrite (s : State) (i : Instr) (a : Nat) (v : Word) (w1c : Bool) (d : Reg) : Out :=
  let old := s.csr a
  checked s (csrPut a v w1c (refuseOf i) s) fun t => (t.setX d old).retire 8

def execCsrr (d : Reg) (csr : BitVec 12) (s : State) : Out :=
  checked s (csrCheck (.csrr d csr) csr.toNat true false s) fun _ => (s.setX d (s.csr csr.toNat)).retire 8

def execCsrw (d : Reg) (csr : BitVec 12) (a : Reg) (s : State) : Out :=
  let i : Instr := .csrw d csr a
  match csrCheck i csr.toNat (d != 0) true s with
  | .error t => .next (s.trap t)
  | .ok _ => s.csrWrite i csr.toNat (s.x a) true d

/-- What CSRS and CSRC change: the CSR as it reads, but DRPST without what the detector has counted in the cycle, which is counted
after the write (16 R368). -/
def State.csrHeld (s : State) (a : Nat) : Word :=
  let x := s.island (islandOf s.k)
  if a = 0x40A then Island.drpst { x with cnt := x.cnt0, mrg := x.mrg0 } else s.csr a

/-- The RW fields of a CSR after CSRS or CSRC. -/
def State.csrBits (s : State) (a : Nat) (set : Bool) (v : Word) : Word :=
  let rw := csrRw a
  let old := s.csrHeld a &&& rw
  if set then old ||| (v &&& rw) else old &&& ~~~v

def execCsrs (d : Reg) (csr : BitVec 12) (a : Reg) (s : State) : Out :=
  let i : Instr := .csrs d csr a
  match csrCheck i csr.toNat (d != 0) true s with
  | .error t => .next (s.trap t)
  | .ok _ => s.csrWrite i csr.toNat (s.csrBits csr.toNat true (s.x a)) false d

def execCsrc (d : Reg) (csr : BitVec 12) (a : Reg) (s : State) : Out :=
  let i : Instr := .csrc d csr a
  match csrCheck i csr.toNat (d != 0) true s with
  | .error t => .next (s.trap t)
  | .ok _ => s.csrWrite i csr.toNat (s.csrBits csr.toNat false (s.x a)) false d

/-! ## IFENCE and TLBI (R335, R337) -/

/-- A context forgets the instruction it has fetched. -/
def State.modFetched (s : State) (r : Nat) : State :=
  if (s.getCtx r).fetched.isSome then s.modCtx r fun c => { c with fetched := none } else s

/-- IFENCE empties the instruction cache and the fetch buffers of every context of the core (R335, 04 R102). -/
def execIfence (s : State) : Out :=
  .next (if s.ctx.rep.act && !s.ctx.rep.held then s.stall .counters
    else State.retire 8 ((ctxsOf s.k).foldl (fun s r => s.modFetched r) { s with core := { s.core with l1i := [] } }))

/-- Whether TLBI names a cached entry. -/
def tlbiHits (asid : Nat) (scope : BitVec 2) (va : Word) (e : TlbEnt) : Bool :=
  match e with
  | .page a v sh _ _ =>
    a == asid && (scope == 0 || (scope == 1 && va.toNat % 2 ^ 52 / 2 ^ sh == v % 2 ^ 52 / 2 ^ sh))
  | .range a _ _ => a == asid && (scope == 0 || scope == 2)
  | .fd a _ _ => a == asid && (scope == 0 || scope == 2)
  | .window a _ _ => a == asid && (scope == 0 || scope == 3)

def State.tlbDrop (s : State) (asid : Nat) (scope : BitVec 2) (va : Word) : State :=
  { s with tlb := s.tlb.filter fun e => !tlbiHits asid scope va e.2 }

/-- TLBI drops the entries it names and waits until every TLB has. -/
def execTlbi (a : Reg) (scope : BitVec 2) (s : State) : Out :=
  checked s (require (s.ctx.prv != 0) (illegalPriv (.tlbi a scope))) fun _ =>
    let asid := ((s.space s.k).map (·.asid)).getD 0
    (s.tlbDrop asid scope (s.x a)).stall (.tlbi asid scope (s.x a))

/-- TLBI_RETIRE: the entries are gone everywhere and TLBI of context `c` retires. -/
def execTlbiRetire (c : Nat) (s : State) : Out :=
  match (s.getCtx c).wait with
  | .tlbi asid scope va => .next ((s.tlbDrop asid scope va).as c (State.retire 8))
  | _ => .next s

/-! ## CSR writes as steps -/

/-- The traps of refused values written at PC. -/
def State.refuse (s : State) : Refuse := ⟨⟨1, 3, s.bitsAtPc s.ctx.pc⟩, ⟨1, 0, s.bitsAtPc s.ctx.pc⟩⟩

/-- A write whose access is allowed: its effect, or the trap of a refused value. -/
def State.put (s : State) (r : Except Trap State) : Out := checked s r fun t => t

def execHresWrite (v : Word) (s : State) : Out := s.put (writeHres v s.refuse s)
def execPrioWrite (v : Word) (s : State) : Out := .next (writePrio v s)
def execCycleWrite (v : Word) (s : State) : Out := .next (writeCycle v s)
def execTshapeWrite (t : Tile) (v : Word) (s : State) : Out := s.put (writeTshape t v s.refuse s)
def execSposWrite (k : BitVec 2) (v : Word) (s : State) : Out := .next (writeSpos k v s)
def execFrepitWrite (cnt : Bool) (v : Word) (s : State) : Out := s.put (writeFrepit cnt v s.refuse s)
def execWdrpcWrite (v : Word) (s : State) : Out := .next (writeWdrpc v s)
def execPsatWrite (v : Word) (s : State) : Out := .next (writePsat v s)
def execPmcWrite (n : BitVec 3) (v : Word) (s : State) : Out := .next (writePmc n v s)
def execMonWrite (n : BitVec 3) (v : Word) (s : State) : Out := s.put (writeMon n v true s.refuse s)
def execDrpstWrite (v : Word) (s : State) : Out := .next (writeDrpst v s)
def execGqjobWrite (v : Word) (s : State) : Out := .next (writeGqjob v s)

/-- CSR_WRITE: a write to an allocated CSR of the current core. -/
def execCsrWrite (csr : BitVec 12) (v : Word) (s : State) : Out :=
  match csrAccess s.k csr.toNat with
  | some (_, some _) => s.put (csrPut csr.toNat v true s.refuse s)
  | _ => .next (s.trap s.refuse.enc)

/-- PMC_OVERFLOW: counter `n` of core `k` counts past its maximum. -/
def execPmcOverflow (k : Nat) (n : BitVec 3) (s : State) : Out :=
  .next (if (s.getCore k).pmc[n.toNat]'(n.isLt) = BitVec.allOnes 48 then s.modCore k (·.pmcBump ⟨n.toNat, n.isLt⟩) else s)

end Sys2Proof.Machine
end

