-- ==== Sys2Proof/Machine/Completion.lean ====
section
/-! DEFINITION. The completion of outstanding work (04 R100, R101, 07 R164, R180 to R185, 08 R188, R213, 11 R284 to R287):
loads return, stores are acknowledged, NEAR operations and counted tile operations are performed, releases go. An outstanding
access is named by its place in its context's program order, or among the writes ended contexts left. -/

namespace Sys2Proof.Machine

open Sys2Proof

/-- Run an answer as another context and come back. -/
def State.asOut (s : State) (r : Nat) (f : State → Out) : Out :=
  match f (s.select r) with
  | .next t => .next (t.select s.cur)
  | .fault e => .fault e
  | .refused e => .refused e

/-- The current context ends, or its handler does, when what it waited for is done (08 R193, R201). -/
def State.settleHere (s : State) : State :=
  match s.ctx.wait with
  | .ending again => if s.mayEnd then s.conclude again else s
  | .mdone => if s.ctx.ldc = 0 then s.mdoneEnd else s
  | _ => s

/-- Whether an access at place `i` of the current context's list may reach homes now: no earlier one comes first at one of them on the
path (11 R286). The rules do not say whether what an activation that has ended left outstanding comes before the accesses of the next
activation of its hardware context: DESIGN CHOICE, it does not, and gives them no bytes either (log 48). -/
def State.mayReach (s : State) (i : Nat) (sites : List (Path × Nat)) : Bool :=
  !(s.ctx.pend.take i).any fun q => sites.any q.sitesOf.contains

/-- Whether it may read keys now: its homes are free, and no earlier access comes first at one of their words (R293). -/
def State.mayRead (s : State) (i : Nat) (p : Pend) (sites : List (Path × Nat)) (keys : List Nat) : Bool :=
  s.mayReach i sites && !s.readsAfter p.id keys

/-- Whether it may write keys now: its homes are free, and no earlier access has still to read one of their words. -/
def State.mayWrite (s : State) (i : Nat) (p : Pend) (keys : List Nat) : Bool :=
  s.mayReach i p.sitesOf && !s.readBefore p.id keys

/-! ## Loads (04 R100, R101) -/

/-- Bytes of a lane as the context's own earlier stores on the path give them, none unless they give all: an LDA whose bytes they give
reads nothing at the home (R286, R289; log 47). Registers of device control space are read themselves (16 R369). -/
def laneForward (p : Path) (earlier : List Pend) (l : LoadLane) : Option Nat :=
  match l.src with
  | .val v => some (v.toNat % 2 ^ (8 * l.n))
  | .mem pa _ =>
    let bs := (List.range l.n).map fun i => storedByte p (pa + i) earlier
    if (ctlOf pa).isNone && bs.all (·.isSome) then some (leNat (bs.map (·.getD 0))) else none
  | .gather .. => none

/-- Read one lane of a load: from the L1 or its home, on its path; through a window at the homes of its source bytes (10 R282). -/
def State.readLane (s : State) (k : Nat) (p : Path) (acq : Bool) (l : LoadLane) : Nat × State :=
  match l.src with
  | .val v => (v.toNat % 2 ^ (8 * l.n), s)
  | .gather _ ks _ _ => (leNat (ks.map (Mem.get s.mem)), State.touch k s ks)
  | .mem pa _ =>
    if p = .core then State.coreRead k acq s pa l.n
    else (leNat (Mem.bytes s.mem pa l.n), State.touch k s l.reads)

/-- Read the lanes of a load. -/
def State.readLanes (k : Nat) (p : Path) (acq : Bool) : State → List LoadLane → List Nat × State
  | s, [] => ([], s)
  | s, l :: r =>
    let one := s.readLane k p acq l
    let rest := State.readLanes k p acq one.2 r
    (one.1 :: rest.1, rest.2)

/-- Put the low `n` bytes of a value at a bit of a vector. -/
def putLane (v : VWord) (bit n x : Nat) : VWord :=
  let m : VWord := BitVec.ofNat 512 ((2 ^ (8 * n) - 1) * 2 ^ bit)
  (v &&& ~~~m) ||| (BitVec.ofNat 512 (x * 2 ^ bit) &&& m)

/-- The number the values of lanes spell, each from its bit on. -/
def laneSum : List LoadLane → List Nat → Nat
  | l :: r, x :: y => x * 2 ^ l.bit + laneSum r y
  | _, _ => 0

/-- The bytes a load of an x register returns, extended. -/
def extended (n : Nat) (u : Bool) (x : Nat) : Word :=
  if u then BitVec.ofNat 64 x else BitVec.ofInt 64 (if x < 2 ^ (8 * n - 1) then (x : Int) else (x : Int) - 2 ^ (8 * n))

/-- Write what a load returns. -/
def State.writeDst (s : State) (d : Dst) (lanes : List LoadLane) (vals : List Nat) : State :=
  match d with
  | .x r n u => s.setX r (extended n u (laneSum lanes vals))
  | .f r => s.setF r (BitVec.ofNat 64 (laneSum lanes vals))
  | .v r => s.setV r ((lanes.zip vals).foldl (fun v e => putLane v e.1.bit e.1.n e.2) (s.v r))

/-- A load has returned bytes of lanes from the context's earlier stores on the path: they are seen (R293). -/
def markSeen (p : Path) (i : Nat) (lanes : List LoadLane) (l : List Pend) : List Pend :=
  let keys := lanes.flatMap (·.reads)
  (l.take i).map (fun q => match q.op with
    | .store r bs => if r = p && bs.flatten.any (fun e => keys.contains e.1) then { q with seen := true } else q
    | _ => q) ++ l.drop i

/-- What a load that has all its values does: its register, and an acquire. -/
def State.loadFin (s : State) (id : Nat) (acq : Bool) (dst : Dst) (lanes : List LoadLane) (vals : List Nat) : State :=
  let s := State.writeDst { s with ctx := s.ctx.unpend id } dst lanes vals
  State.settleHere (if acq then State.acquire s.k s else s)

/-- The outstanding access `i` of the current context returns its data. -/
def State.loadDone (s : State) (i : Nat) : State :=
  match s.ctx.pend[i]? with
  | none => s
  | some p =>
    match p.op with
    | .load path acq dst lanes =>
      let fwd := lanes.map (laneForward path (s.ctx.pend.take i))
      let keys := lanes.flatMap (·.reads)
      if fwd.all (·.isSome) then
        State.loadFin { s with ctx := { s.ctx with pend := markSeen path i lanes s.ctx.pend } } p.id acq dst lanes (fwd.map (·.getD 0))
      else if !s.mayRead i p p.sitesOf keys then s
      else if s.powered keys then
        let r := State.readLanes s.k path acq s lanes
        r.2.loadFin p.id acq dst lanes r.1
      else s.wakeFor keys
    | .amo op n pa o c dst acq =>
      if !s.mayRead i p p.sitesOf p.op.reads then s
      else if s.powered [pa] then
        let old := leNat (Mem.bytes s.mem pa n)
        let s := State.performStore s.k true (s.note p.op.reads) (cellsOf pa n (amoNew op n old o.toNat c.toNat))
        s.loadFin p.id acq (.x dst n false) [⟨0, n, .val 0⟩] [old]
      else s.wakeFor [pa]
    | .arrival pa =>
      if !s.mayRead i p p.sitesOf p.op.reads then s
      else if s.powered [pa] then
        let s := (s.homeAdd pa 1).2
        let s := { s with ctx := { s.ctx.unpend p.id with arrv := true } }
        match s.ctx.wait with
        | .arrival key home target => s.poll key home target true
        | _ => s
      else s.wakeFor [pa]
    | _ => s

/-- Cut a lane to what one atomic read gives, and what is left of it: an element of a gather window, or a byte of a 64-byte one (10
R282); any other lane whole. -/
def LoadLane.cut (l : LoadLane) : LoadLane × List LoadLane :=
  match l.src with
  | .gather i k h u =>
    let hi := h.take i.length
    let hs := h.drop i.length
    if u < l.n then
      ({ l with n := u, src := .gather i (k.take u) (hi ++ hs.take u) u },
        [⟨l.bit + 8 * u, l.n - u, .gather i (k.drop u) (hi ++ hs.drop u) u⟩])
    else (l, [])
  | _ => (l, [])

/-- Whether a lane of an access shares a home with a later one on its path: it is read first (11 R286). -/
def LoadLane.before (a b : LoadLane) (p : Path) : Bool := (a.src.sitesOn p).any (b.src.sitesOn p).contains

/-- Lane `j` of outstanding load `i` of the current context is read now, apart from the others (05 R130, 10 R282): earlier lanes and
accesses at its own home come first. -/
def State.laneDone (s : State) (i j : Nat) : State :=
  match s.ctx.pend[i]? with
  | some ⟨id, .load path acq dst lanes, sites, seen⟩ =>
    match lanes[j]? with
    | none => s
    | some l =>
      let c := l.cut
      let fwd := laneForward path (s.ctx.pend.take i) c.1
      if fwd.isNone && (!s.mayRead i ⟨id, .load path acq dst lanes, sites, seen⟩ (c.1.src.sitesOn path) c.1.reads ||
          (lanes.take j).any (·.before c.1 path)) then s
      else if fwd.isNone && !s.powered c.1.reads then s.wakeFor c.1.reads
      else
        let r : Nat × State := match fwd with
          | some v => (v, { s with ctx := { s.ctx with pend := markSeen path i [c.1] s.ctx.pend } })
          | none => s.readLane s.k path acq c.1
        let lanes := lanes.take j ++ { c.1 with src := .val (BitVec.ofNat 64 r.1) } :: c.2 ++ lanes.drop (j + 1)
        { r.2 with ctx := { r.2.ctx with pend := replaceAt r.2.ctx.pend i ⟨id, .load path acq dst lanes, sites, seen⟩ } }
  | _ => s

/-- LOAD_RETURN: outstanding load or AMO `i` of context `c`. -/
def execLoadReturn (c i : Nat) (s : State) : Out := .next (s.as c fun s => s.loadDone i)

/-! ## Stores (11 R284, R287) -/

/-- Perform the first batch of a store of core `k`; what is left of it. -/
def State.storeBatch (s : State) (k : Nat) (path : Path) (b : List Host.Cell) : State :=
  State.performCells k (path == .core) s b

/-- Replace the operation of an outstanding access. -/
def Ctx.setOp (c : Ctx) (id : Nat) (op : PendOp) : Ctx :=
  { c with pend := c.pend.map fun p => if p.id = id then { p with op := op } else p }

/-- Store `i` of the current context is performed, batch by batch in lane order, and acknowledged after the last; every lane waits for
what comes first at a home of any of them (log 6). -/
def State.storeDone (s : State) (i : Nat) : State :=
  match s.ctx.pend[i]? with
  | some ⟨id, .store path bs, hs, sn⟩ =>
    if !s.mayWrite i ⟨id, .store path bs, hs, sn⟩ (bs.flatten.map (·.1)) then s
    else
      match bs with
      | [] => { s with ctx := s.ctx.unpend id }
      | b :: rest =>
        let keys := b.map (·.1)
        if s.powered keys then
          let s := s.storeBatch s.k path b
          { s with ctx := if rest.isEmpty then s.ctx.unpend id else s.ctx.setOp id (.store path rest) }
        else s.wakeFor keys
  | _ => s

/-- A store left by an ended context. -/
def State.orphanStore (s : State) (i : Nat) : State :=
  match s.orphans[i]? with
  | some (r, ⟨id, .store path bs, hs, sn⟩) =>
    if !s.orphanFree i then s
    else
      match bs with
      | [] => { s with orphans := removeAt s.orphans i }
      | b :: rest =>
        let keys := b.map (·.1)
        if s.powered keys then
          let s := s.storeBatch (r / 8) path b
          { s with orphans := if rest.isEmpty then removeAt s.orphans i
                              else replaceAt s.orphans i (r, ⟨id, .store path rest, hs, sn⟩) }
        else s.wakeFor keys
  | _ => s

/-- STORE_ACK: store `i` of context `c`, or of the writes ended contexts left. -/
def execStoreAck (c : Option Nat) (i : Nat) (s : State) : Out :=
  .next (match c with
    | some r => s.as r fun s => s.storeDone i
    | none => s.orphanStore i)

/-! ## NEAR operations (07 R180 to R184) -/

/-- What a NEAR operation reaches. -/
def nearKeys : PendOp → List Nat
  | .nearAmo _ n pa _ _ => byteKeys pa n
  | .prescale _ _ b => b.keys
  | .paxpy _ _ l => l.keys
  | .psgdm _ _ _ m w _ => m.keys ++ w.keys
  | .baddq d r => d.keys ++ r.keys
  | _ => []

/-- What a NEAR operation does at the home: the cells it writes, its saturations, a status for a register, and the
operation that is left of it. -/
structure NearEffect where
  cells : List Host.Cell
  sat   : Nat
  reg   : Option (Reg × Word)
  rest  : Option PendOp

def nearEffect (m : List Host.Cell) : PendOp → NearEffect
  | .nearAmo op n pa o c =>
    ⟨cellsOf pa n (amoNew op n (leNat (Mem.bytes m pa n)) o.toNat c.toNat), 0, none, none⟩
  | .prescale d f b => let r := prescaleCells m f b; ⟨r.2, 0, some (d, r.1), none⟩
  | .paxpy a x l => let r := paxpyCells m a x l; ⟨r.1, r.2, none, none⟩
  | .psgdm lr mu g mo w none =>
    match psgdmStep1 m mu g mo with
    | none => ⟨[], 0, none, none⟩
    | some (cells, sat, mr) => ⟨cells, sat, none, some (.psgdm lr mu g mo w (some mr))⟩
  | .psgdm lr _ _ mo w (some mr) =>
    let r := psgdmStep2 m lr ((mo.elems.head?.map (·.length)).getD 1) mr w
    ⟨r.1, r.2, none, none⟩
  | .baddq d r => ⟨baddqCells m d r, 0, none, none⟩
  | _ => ⟨[], 0, none, none⟩

/-- NEAR operation `i` of the current context is performed at its home; PSAT counts before STC decrements. -/
def State.nearDone (s : State) (i : Nat) : State :=
  match s.ctx.pend[i]? with
  | none => s
  | some p =>
    let keys := nearKeys p.op
    if keys.isEmpty || !s.mayRead i p p.sitesOf keys then s
    else if !s.powered keys then s.wakeFor keys
    else
      let e := nearEffect s.mem p.op
      let s := State.performStore s.k false (State.touch s.k s keys) e.cells
      let s := { s with ctx := s.ctx.addPsat e.sat }
      match e.rest with
      | some op => { s with ctx := s.ctx.setOp p.id op }
      | none =>
        let s := { s with ctx := s.ctx.unpend p.id }
        State.settleHere (match e.reg with | some (d, v) => s.setX d v | none => s)

/-- A NEAR operation an ended context left; no PSAT is there to count. -/
def State.orphanNear (s : State) (i : Nat) : State :=
  match s.orphans[i]? with
  | none => s
  | some (r, p) =>
    let keys := nearKeys p.op
    if keys.isEmpty || !s.orphanFree i then s
    else if !s.powered keys then s.wakeFor keys
    else
      let e := nearEffect s.mem p.op
      let s := State.performStore (r / 8) false (State.touch (r / 8) s keys) e.cells
      { s with orphans := match e.rest with
        | some op => replaceAt s.orphans i (r, { p with op := op })
        | none => removeAt s.orphans i }

/-- NEAR_ACK: NEAR operation `i` of context `c`, or of the writes ended contexts left. -/
def execNearAck (c : Option Nat) (i : Nat) (s : State) : Out :=
  .next (match c with
    | some r => s.as r fun s => s.nearDone i
    | none => s.orphanNear i)

/-! ## Counted tile operations (07 R164) -/

/-- The oldest counted operation of the current core is performed. -/
def State.tileDone (s : State) : State :=
  match s.core.tileq with
  | [] => s
  | o :: rest =>
    let holder := s.core.claim.map (s.k * 8 + ·)
    let blocked := match holder with | some r => (s.select r).tileBlocked o | none => false
    if blocked then s
    else if !s.powered o.op.keys then s.wakeFor o.op.keys
    else
      let t := s.runTile o.op
      let t := match o.op, s.core.claim with | .mma .., some c => t.pmc s.k 10 (some c) | _, _ => t
      let gone := rest.isEmpty && t.core.release
      let t := { t with core := { t.core with
        tileq := rest, claim := if gone then none else t.core.claim, release := if gone then false else t.core.release } }
      match holder with
      | some r => t.as r State.settleHere
      | none => t

/-- TILE_OP_COMPLETE on core `k`. -/
def execTileOpComplete (k : Nat) (s : State) : Out := .next (s.as (k * 8) State.tileDone)

/-! ## Releases (08 R188) -/

/-- The meaning of a releasing instruction. -/
def releaseMeaning (i : Instr) : Option (State → Out) :=
  match i with
  | .fork a => some (execFork a)
  | .haltJ a => some (execHaltJ a)
  | .haltM => some execHaltM
  | .tqput d a b => some (execTqput d a b)
  | .tdone a => some (execTdone a)
  | .send a => some (execSend a)
  | .sendr a b => some (execSendr a b)
  | .callat a b c => some (execCallat a b c)
  | .amo op ord near dbl d a b c imm => some (execAmo op ord near dbl d a b c imm)
  | .stl d a imm w => some (execStl d a imm w)
  | .arrive d a imm => some (execArrive d a imm)
  | .arrwait a imm b => some (execArrwait a imm b)
  | _ => none

/-- RELEASE_PERFORM: the release that context `c` waits with performs its effect once LDC and STC are 0. -/
def execReleasePerform (c : Nat) (s : State) : Out :=
  match (s.getCtx c).wait with
  | .release i =>
    match releaseMeaning i with
    | some f => if (s.getCtx c).drained then s.asOut c f else .next s
    | none => .next s
  | _ => .next s

end Sys2Proof.Machine
end

