-- ==== Sys2Proof/Machine/Sched.lean ====
section
/-! DEFINITION. Activations of a core, deques, stealing and the signal box (12 R308 to R312, 01 R16, 08 R209, 12 R313). -/

namespace Sys2Proof.Machine

open Sys2Proof

/-! ## Deques and stealing (12 R308 to R310) -/

/-- DEQUE_REFILL: a record moves back from the siding while the hardware holds fewer than 16. -/
def execDequeRefill (k : Nat) (s : State) : Out :=
  let c := s.getCore k
  .next (match c.siding.getLast? with
    | some r =>
      if c.deque.length < 16 then s.setCore k { c with siding := c.siding.dropLast, deque := r :: c.deque } else s
    | none => s)

/-- Whether something precedes the deque in the order of R311: a message that can start, or a delivered tile. -/
def State.before (s : State) (k : Nat) : Bool :=
  (s.vn1Ready k).isSome || (s.vn0Ready k).isSome || !(s.getCore k).tileActs.isEmpty

/-- TASK_ACTIVATION: a core with room starts the newest record of its deque. -/
def execTaskActivation (k : Nat) (s : State) : Out :=
  .next (if !s.running k || !s.hasRoom k || s.before k then s
    else
      match (s.getCore k).popTask, s.dormant k with
      | some (t, c), some r => (s.setCore k c).activate r t.activation
      | _, _ => s)

/-- The kind of a core: compute, data, gateway, station master. -/
def coreKind (k : Nat) : Nat := if isCompute k then 0 else if isData k then 1 else if isGateway k then 2 else 3

/-- Whether two cores lie in one cluster (level 0), quadrant, die, or the package (level 3); gateway cores form one group
at every level (15 R363). -/
def sameGroup (level a b : Nat) : Bool :=
  if isMesh a && isMesh b then
    (if level = 0 then clusterOf a == clusterOf b else if level = 1 then quadOf a == quadOf b
     else if level = 2 then dieOf a == dieOf b else true)
  else isGateway a && isGateway b

/-- The victims of a thief at a level (R309). -/
def State.victims (s : State) (k level : Nat) : List Nat :=
  match s.partOf k with
  | some (_, p) => p.cores.filter fun v => v != k && coreKind v == coreKind k && sameGroup level k v
  | none => []

/-- The next wider level, or the pause after the package (R309). -/
def Thief.widen (t : Thief) : Thief := if 3 ≤ t.level then ⟨0, 0, true⟩ else ⟨t.level + 1, 0, false⟩

/-- A failed attempt. -/
def Thief.fail (t : Thief) : Thief := if t.fails + 1 = 4 then t.widen else { t with fails := t.fails + 1 }

/-- Whether a core is a thief. -/
def State.isThief (s : State) (k : Nat) : Bool :=
  let c := s.getCore k
  s.running k && s.hasRoom k && !s.before k && c.deque.isEmpty && c.siding.isEmpty

/-- STEAL: a thief that does not pause sends a request to a victim of its level; a level with no other core counts as four
failures. -/
def execSteal (thief victim : Nat) (s : State) : Out :=
  let c := s.getCore thief
  .next (if !s.isThief thief || c.thief.pause || c.stealing.isSome then s
    else
      let vs := s.victims thief c.thief.level
      if vs.isEmpty then s.setCore thief { c with thief := c.thief.widen }
      else if vs.contains victim then s.setCore thief { c with stealing := some victim }
      else s)

/-- STEAL_PAUSE_END: the thief of core `k` starts again at cluster level. -/
def execStealPauseEnd (k : Nat) (s : State) : Out :=
  .next (s.modCore k fun c => if c.thief.pause then { c with thief := ⟨0, 0, false⟩ } else c)

/-- Whether a DOM reaches a thief (R310). -/
def domReaches (dom : BitVec 2) (victim thief : Nat) : Bool := sameGroup dom.toNat victim thief

/-- Remove the first record a thief may take. -/
def takeFirst (p : TaskRec → Bool) : List TaskRec → Option (TaskRec × List TaskRec)
  | [] => none
  | r :: l =>
    if p r then some (r, l)
    else
      match takeFirst p l with
      | some (x, l) => some (x, r :: l)
      | none => none

/-- The oldest record of a deque that a predicate accepts, and the deque without it. -/
def Core.steal (c : Core) (p : TaskRec → Bool) : Option (TaskRec × Core) :=
  match takeFirst p c.siding with
  | some (r, l) => some (r, { c with siding := l })
  | none =>
    match takeFirst p c.deque with
    | some (r, l) => some (r, { c with deque := l })
    | none => none

/-- The thieves that ask a victim, lowest number first. -/
def State.thievesOf (s : State) (v : Nat) : List Nat := (s.victims v 3).filter fun k => (s.getCore k).stealing == some v

/-- STEAL_SERVE: the deque of a victim serves one request. A thief that has found other work takes nothing. -/
def execStealServe (victim : Nat) (s : State) : Out :=
  .next (match s.thievesOf victim with
    | [] => s
    | k :: _ =>
      let c := s.getCore k
      if !s.isThief k then s.setCore k c.endThief
      else
        match (s.getCore victim).steal fun r => domReaches r.dom victim k, s.dormant k with
        | some (t, v), some r => ((s.setCore victim v).pmc k 13 (some (r % 8))).activate r t.activation
        | _, _ => (s.setCore k { c with thief := c.thief.fail, stealing := none }).pmc k 14 none)

/-! ## Vector registers (01 R16) -/

/-- VREG_GRANT: the oldest waiting request of a core is granted when its registers are free; no activation starts so while its job is
stopped (16 R382). -/
def execVregGrant (k : Nat) (s : State) : Out :=
  .next (match (s.getCore k).regReqs with
    | [] => s
    | r :: l =>
      if s.running k && s.withinLimits k && s.regsFit k (s.getCtx r).valloc.toNat then
        State.acquire k ((s.modCore k fun c => { c with regReqs := l }).modCtx r fun c => { c with phase := .active })
      else s)

/-! ## Aging (12 R313) -/

/-- PRIO_AGING: after 64 ready cycles without issue, EFF rises by 1. -/
def execPrioAging (c : Nat) (s : State) : Out :=
  .next (s.modCtx c fun x => if 64 ≤ x.aging then { x with aging := 0, eff := if x.eff = 127 then 127 else x.eff + 1 } else x)

/-! ## The signal box (08 R209, 12 R312) -/

/-- The partition a quadrant's signal box serves. -/
def State.quadPart (s : State) (quad : Nat) : Option (Nat × Part) := s.parts.find? fun e => e.2.quads.contains quad

/-- A signal-box access at an address with a privilege: its key, or none where it fails (SBOXF). The signal box stands in no cluster, and
R209 does not say what the untranslated local alias names for it: the CLM of the quadrant's first cluster is taken (log 48). -/
def State.boxKey (s : State) (p : Part) (prv : BitVec 2) (a : Acc) (quad : Nat) (va : Word) : Option Nat :=
  match s.siteIn (quad * 180) (some ⟨p.asd, s.asidAt p.asd, quad * 180, .die⟩) prv a va with
  | .ok (.key n _ _) => some n
  | _ => none

/-- The keys of the shape entries, 16 bytes each; only M and N are used. -/
def State.shapeKeys (s : State) (p : Part) (prv : BitVec 2) (quad : Nat) (va : Word) : Nat → Option (List Nat)
  | 0 => some []
  | n + 1 =>
    match s.boxKey p prv .r quad va, s.boxKey p prv .r quad (va + 8), s.shapeKeys p prv quad (va + 16) n with
    | some k, some _, some r => some (k :: r)
    | _, _, _ => none

def ceilDiv (a b : Nat) : Nat := (a + b - 1) / b

/-- Tile counts in m and n of a group (08 R207): M and N over MT and NT. -/
def TileRec.counts (t : TileRec) (sh : BitVec 32 × BitVec 32) : Nat × Nat :=
  let shp := tileWord t.words 0x08
  (ceilDiv sh.1.toNat (shp.extractLsb' 0 16).toNat, ceilDiv sh.2.toNat (shp.extractLsb' 16 16).toNat)

/-- Tiles of a group. -/
def TileRec.tilesOf (t : TileRec) (sh : BitVec 32 × BitVec 32) : Nat := (t.counts sh).1 * (t.counts sh).2

/-- The record with its shapes, at its first tile. -/
def TileRec.skip (t : TileRec) : Nat → TileRec
  | 0 => t
  | fuel + 1 =>
    match t.ready with
    | some l =>
      match l[t.g]? with
      | some sh => if t.tilesOf sh = 0 then TileRec.skip { t with g := t.g + 1, m := 0, n := 0 } fuel else t
      | none => t
    | none => t

/-- The record at its next tile. -/
def TileRec.next (t : TileRec) : TileRec :=
  match t.ready with
  | some l =>
    match l[t.g]? with
    | some sh =>
      let c := t.counts sh
      if t.n + 1 < c.2 then { t with n := t.n + 1 }
      else if t.m + 1 < c.1 then { t with m := t.m + 1, n := 0 }
      else TileRec.skip { t with g := t.g + 1, m := 0, n := 0 } l.length
    | none => t
  | none => t

/-- Whether every tile of a record has been dispatched. -/
def TileRec.done (t : TileRec) : Bool :=
  match t.ready with
  | some l => decide (l.length ≤ t.g)
  | none => false

/-- SBOX_DEP_READ: the signal box reads DEP of the record at the head of queue `q`; when it equals TGT, it reads the shapes
and adds T − 1 to DONE. -/
def execSboxDepRead (quad q : Nat) (s : State) : Out :=
  .next (match s.quadPart quad, s.tileq (quad * 64 + q) with
    | some (i, p), t :: rest =>
      if p.idle || s.dev.dstops.contains p.asid || p.stopping || t.ready.isSome || 64 ≤ q then s
      else
        let fail := s.partFault i p 8 0xFFFF
        let dep := tileWord t.words 0x50
        let depKey := if dep = 0 then some none else (s.boxKey p t.prv .r quad dep).map some
        match depKey with
        | none => fail
        | some dk =>
          let ks := dk.toList
          if !s.powered ks then s.wakeFor ks
          else if ks.any fun a => Mem.word s.mem a != tileWord t.words 0x58 then s.note (ks.flatMap fun a => byteKeys a 8)
          else
            match s.shapeKeys p t.prv quad (tileWord t.words 0x10) (tileWord t.words 0x18).toNat,
                  s.boxKey p t.prv .rw quad (tileWord t.words 0x60) with
            | some shs, some done =>
              if !s.powered (done :: shs) then s.wakeFor (done :: shs)
              else
                let shapes := shs.map fun a =>
                  let w := Mem.word s.mem a
                  (w.extractLsb' 0 32, w.extractLsb' 32 32)
                let t := TileRec.skip { t with ready := some shapes } shapes.length
                let total := (shapes.map t.tilesOf).sum
                let s := s.note ((ks ++ done :: shs).flatMap fun a => byteKeys a 8)
                let s := s.homeStore (cellsOf done 8 (Mem.word s.mem done + BitVec.ofNat 64 total - 1).toNat)
                s.setTileq (quad * 64 + q) (if t.done then rest else t :: rest)
            | _, _ => fail
    | _, _ => s)

/-- The load of a core: its active contexts and the tiles delivered to it. -/
def State.load (s : State) (k : Nat) : Nat := ((s.coreCtxs k).filter fun e => e.2.phase != .dormant).length

/-- The least-loaded core of a list that satisfies a condition, the first of several. -/
def State.leastLoaded (s : State) : List Nat → Option Nat
  | [] => none
  | k :: r =>
    match s.leastLoaded r with
    | none => some k
    | some j => if s.load j < s.load k then some j else some k

/-- The compute cores a record's CMASK allows, by CID (R209, R312). -/
def maskCores (quad : Nat) (mask : Word) : List Nat :=
  (List.range 20).flatMap fun c => if mask.getLsbD c then (List.range 8).map ((quad * 20 + c) * 9 + ·) else []

/-- The tile queues of a quadrant whose head can dispatch now, with the core it goes to. -/
def State.dispatchable (s : State) (quad q : Nat) : Option (Nat × Nat × TileRec × List TileRec) :=
  match s.tileq (quad * 64 + q) with
  | t :: rest =>
    if t.ready.isSome then
      match s.leastLoaded ((maskCores quad (tileWord t.words 0x70)).filter fun k => s.running k && s.hasRoom k) with
      | some k => some (k, q, t, rest)
      | none => none
    else none
  | [] => none

def TileRec.prio (t : TileRec) : BitVec 7 := (tileWord t.words 0x68).extractLsb' 0 7

/-- The highest PRIO, the lowest queue among equals. -/
def bestTile : List (Nat × Nat × TileRec × List TileRec) → Option (Nat × Nat × TileRec × List TileRec)
  | [] => none
  | x :: r =>
    match bestTile r with
    | none => some x
    | some y => if x.2.2.1.prio.toNat < y.2.2.1.prio.toNat then some y else some x

/-- TILE_DISPATCH: the signal box of a quadrant dispatches one tile; the activation holds a context of its core. -/
def execTileDispatch (quad : Nat) (s : State) : Out :=
  .next (match bestTile ((List.range 64).filterMap (s.dispatchable quad)) with
    | none => s
    | some (k, q, t, rest) =>
      match s.dormant k with
      | none => s
      | some r =>
        let ctl := tileWord t.words 0x68
        let a : TileAct := ⟨r, tileWord t.words 0, BitVec.ofNat 64 t.g, BitVec.ofNat 64 t.m, BitVec.ofNat 64 t.n, t.addr,
          ctl.extractLsb' 10 2, t.prio, q⟩
        let t := t.next
        ((s.setTileq (quad * 64 + q) (if t.done then rest else t :: rest)).modCtx r fun c =>
            { c with phase := .waiting, kind := .tile }).modCore k fun c => { c.endThief with tileActs := c.tileActs ++ [a] })

/-- The activation of a delivered tile. -/
def TileAct.activation (a : TileAct) : Activation :=
  ⟨.tile, a.pc, a.g, a.m, a.n, a.addr, a.prio, vreqRegs a.vreq, 0, BitVec.ofNat 16 a.tag, none⟩

/-- TILE_ACTIVATION: a core starts the tile delivered to it first. -/
def execTileActivation (k : Nat) (s : State) : Out :=
  .next (if !s.running k || !s.withinLimits k || (s.vn1Ready k).isSome || (s.vn0Ready k).isSome then s
    else
      match (s.getCore k).tileActs with
      | [] => s
      | a :: l => (s.modCore k fun c => { c with tileActs := l }).activate a.ctx a.activation)

end Sys2Proof.Machine
end

