-- ==== Sys2Proof/Machine/Switch.lean ====
section
/-! DEFINITION. Partitions and gang switches (12 R304 to R307, 01 R31 to R36, 13 R326, R327): stopping a partition, saving
and restoring contexts and cores, resuming a job, time slices, drain and link timeouts. -/

namespace Sys2Proof.Machine

open Sys2Proof

/-! ## Words of records -/

/-- The cells of a list of words from a key on. -/
def wordCells (key : Nat) (ws : List Word) : List Host.Cell := cellsAt key (ws.flatMap fun w => leBytes 8 w.toNat)

/-- The words of a vector register. -/
def vWords (v : VWord) : List Word := (List.range 8).map fun i => v.extractLsb' (64 * i) 64

/-- Eight words as a vector register. -/
def vOfWords (g : Nat → Word) : VWord := g 7 ++ g 6 ++ g 5 ++ g 4 ++ g 3 ++ g 2 ++ g 1 ++ g 0

/-- Two 4-byte values in a word. -/
def pair (a b : BitVec 32) : Word := b ++ a

def quadWords (v : Vector (BitVec 32) 4) : List Word := [pair v[0] v[1], pair v[2] v[3]]

def quadOfWords (a b : Word) : Vector (BitVec 32) 4 :=
  #v[a.extractLsb' 0 32, a.extractLsb' 32 32, b.extractLsb' 0 32, b.extractLsb' 32 32]

/-- The 16 words of a stream slot (01 R32). -/
def Stream.words (t : Stream) : List Word :=
  [t.roCtl ||| t.act.ctl, t.pending.ctl, t.act.base, t.pending.base] ++ quadWords t.act.bnd ++ quadWords t.pending.bnd ++
    quadWords t.act.stride ++ quadWords t.pending.stride ++ [t.act.idx, t.pending.idx, t.spos, t.sflt]

/-- A pattern from its SCTL, SBASE, bounds, strides and SIDX words. -/
def Pattern.ofWords (ctl base b0 b1 s0 s1 idx : Word) : Pattern :=
  ⟨ctl.extractLsb' 7 2, ctl.getLsbD 6, ctl.extractLsb' 3 3, ctl.getLsbD 2, base, quadOfWords b0 b1, quadOfWords s0 s1, idx⟩

/-- A stream from its slot. The record holds FLT and SFLT; the subcode and index of a held fault are the context's (log 23). -/
def Stream.ofWords (g : Nat → Word) (old : Option StreamFault) : Stream :=
  { act := .ofWords (g 0) (g 2) (g 4) (g 5) (g 8) (g 9) (g 12)
    pending := .ofWords (g 1) (g 3) (g 6) (g 7) (g 10) (g 11) (g 13)
    active := (g 0).getLsbD 0
    ended := (g 0).getLsbD 1
    flt := if (g 0).getLsbD 9 then some ⟨((old.map (·.n)).getD (g 14).toNat), g 15, (old.map (·.sub)).getD 0⟩ else none
    bv := (g 0).getLsbD 10
    breg := (g 0).extractLsb' 11 5
    spos := g 14
    sflt := g 15
    got := []
    pushes := []
    part := .none }

/-- An engine entry (01 R35). -/
def EngRec.words (r : EngRec) : List Word := [r.tval, r.addr, r.sub ++ r.cmd ++ r.ea.extractLsb' 0 52]

def EngRec.ofWords (g : Nat → Word) : EngRec :=
  ⟨(g 0).extractLsb' 56 8, (g 0).extractLsb' 0 56, g 1, (g 2).extractLsb' 56 8, (g 2).extractLsb' 52 4,
    ((g 2).extractLsb' 0 52).signExtend 64⟩

/-- The 512 bytes of engine state. -/
def Ctx.engWords (c : Ctx) : List Word :=
  let ev := (c.eng.take 16).flatMap EngRec.words
  [BitVec.ofNat 64 (min 16 c.eng.length)] ++ c.latched.words ++ ev ++ List.replicate (60 - ev.length) 0

/-- A body slot: 16 bytes, an instruction padded with zero. -/
def slotWords (i : Option Instr) : List Word :=
  match i with
  | none => [0, 0]
  | some i =>
    let g := encode i
    [pair (g.getD 0 0) (g.getD 1 0), pair (g.getD 2 0) (g.getD 3 0)]

/-- The CSRs of a save record in order, OPCNT as 0 (01 R31, R33). -/
def saveCsrs : List Nat :=
  [0x000, 0x002, 0x003, 0xFFF, 0x00A, 0x402, 0x403, 0x404, 0x405, 0x406, 0x408, 0x020, 0x021, 0x022, 0x023, 0x001,
   0x040, 0x041, 0x042, 0x043, 0x044, 0x045]

/-- The 512 words of the current context's save record (01 R31). -/
def State.saveWords (s : State) : List Word :=
  let c := s.ctx
  [c.pc, s.status] ++ (List.range 32).map (fun i => s.x (BitVec.ofNat 5 i)) ++ c.f.toList ++ c.m.toList ++
    saveCsrs.map (fun a => if a = 0xFFF then 0 else s.csr a) ++ c.streams.toList.flatMap Stream.words ++
    (List.range 16).flatMap (fun i => slotWords (if c.rep.act then c.rep.body[i]? else none)) ++ c.engWords ++
    (c.v.toList.zipIdx).flatMap fun e => vWords (if e.2 < c.valloc.toNat then e.1 else 0)

/-- A context as its save record and what the model kept of it say; `g` gives the record's words (01 R33). -/
def Ctx.restore (c : Ctx) (g : Nat → Word) : Ctx :=
  let st := g 1
  let cs (i : Nat) := g (74 + i)
  let wd (i : Nat) := g (90 + i)
  let rc := cs 11
  { c with
    pc := g 0
    x := Vector.ofFn fun i : Fin 32 => if i.val = 0 then 0 else g (2 + i.val)
    f := Vector.ofFn fun i : Fin 32 => g (34 + i.val)
    m := Vector.ofFn fun i : Fin 8 => g (66 + i.val)
    v := Vector.ofFn fun i : Fin 32 => vOfWords fun j => g (256 + 8 * i.val + j)
    te := (cs 0).extractLsb' 8 5
    rm := (cs 0).extractLsb' 5 3
    flags := (cs 0).extractLsb' 0 5
    lvl := (cs 2).extractLsb' 0 7
    eff := (cs 2).extractLsb' 8 7
    instret := cs 4
    epc := cs 5
    cause := cs 6
    tval := cs 7
    scratch := cs 8
    tcmp := cs 9
    psat := (cs 10).extractLsb' 0 32
    abt := st.getLsbD 11
    hvn := st.getLsbD 10
    hnd := st.getLsbD 9
    arrv := st.getLsbD 6
    pprv := st.extractLsb' 4 2
    prv := st.extractLsb' 2 2
    pie := st.getLsbD 1
    ie := st.getLsbD 0
    cpc := 0
    pend := []
    rep := { c.rep with
      act := rc.getLsbD 5
      len := rc.extractLsb' 0 5
      cnt := (cs 12).extractLsb' 0 32
      bt := (cs 13).getLsbD 63
      slot := (cs 13).extractLsb' 32 4
      iter := (cs 13).extractLsb' 0 32
      pc := cs 14
      body := (List.range (rc.extractLsb' 0 5).toNat).filterMap fun i =>
        decodeTableWord 128 ((g (160 + 2 * i)).toNat + 2 ^ 64 * (g (161 + 2 * i)).toNat)
      issuing := false
      ends := [] }
    wd := { c.wd with
      wdm := st.getLsbD 7
      base := wd 0
      out := wd 1
      cond := wd 2
      blk := wd 3
      nblk := (wd 4).extractLsb' 24 16
      opc := (wd 4).extractLsb' 16 8
      sub := if c.wd.held then c.wd.sub else (wd 4).extractLsb' 8 8
      held := c.wd.held && (wd 4).extractLsb' 8 8 == 0
      state := (wd 4).extractLsb' 0 3
      rpc := wd 5
      reread := c.wd.reread || st.getLsbD 7 }
    streams := Vector.ofFn fun i : Fin 4 => Stream.ofWords (fun j => g (96 + 16 * i.val + j)) (c.streams[i]).flt
    latched := .ofWords fun j => g (193 + j)
    eng := (List.range ((g 192).extractLsb' 0 5).toNat).map fun i => .ofWords fun j => g (196 + 3 * i + j)
    wait := .none
    early := []
    fma := []
    fetched := none }

/-! ## Tile and core records (01 R34, R36) -/

def rowWords (r : BitVec 1024) : List Word := (List.range 16).map fun i => r.extractLsb' (64 * i) 64

/-- A tile's scale block. -/
def TileReg.scaleWords (t : TileReg) (sh : TShape) : List Word :=
  (List.range 16).map (fun i => pair (t.sr.toList.getD (2 * i) 0) (t.sr.toList.getD (2 * i + 1) 0)) ++
    [pair t.st 0, sh.word] ++ List.replicate 14 0

/-- The 4,352 words of a tile save record. -/
def Core.tileWords (c : Core) : List Word :=
  c.tiles.toList.flatMap (fun t => t.rows.toList.flatMap rowWords) ++
    (c.tiles.toList.zip c.tshape.toList).flatMap fun e => e.1.scaleWords e.2

/-- Sixteen words as a row, word 15 highest. -/
def rowOfWords (g : Nat → Word) : BitVec 1024 :=
  BitVec.ofNat 1024 ((List.range 16).foldl (fun n i => n + (g i).toNat * 2 ^ (64 * i)) 0)

def TShape.ofWord (w : Word) : TShape := ⟨w.extractLsb' 16 7, w.extractLsb' 8 5, w.extractLsb' 0 3⟩

/-- Tile `t` of a tile save record. -/
def TileReg.ofWords (g : Nat → Word) (t : Nat) : TileReg :=
  { rows := Vector.ofFn fun i : Fin 32 => rowOfWords fun j => g (512 * t + 16 * i.val + j)
    sr := Vector.ofFn fun i : Fin 32 => (g (4096 + 32 * t + i.val / 2)).extractLsb' (32 * (i.val % 2)) 32
    st := (g (4096 + 32 * t + 16)).extractLsb' 0 32 }

def Core.loadTiles (c : Core) (g : Nat → Word) : Core :=
  { c with
    tiles := Vector.ofFn fun t : Fin 8 => .ofWords g t.val
    tshape := Vector.ofFn fun t : Fin 8 => .ofWord (g (4096 + 32 * t.val + 17)) }

/-- The 32 words of a core record. -/
def Core.words (c : Core) : List Word :=
  [c.tvec, n64 c.hres, n64 c.pmcovf, 0] ++ c.pmc.toList.map n64 ++ c.pmcsel.toList ++ c.mon.toList ++ [0, 0, 0, 0]

/-- The control state of a core as a core record gives it. -/
def Core.loadWords (c : Core) (g : Nat → Word) : Core :=
  { c with
    tvec := g 0
    hres := (g 1).extractLsb' 0 3
    pmcovf := (g 2).extractLsb' 0 8
    pmc := Vector.ofFn fun i : Fin 8 => (g (4 + i.val)).extractLsb' 0 48
    pmcsel := Vector.ofFn fun i : Fin 8 => g (12 + i.val)
    mon := Vector.ofFn fun i : Fin 8 => g (20 + i.val) }

/-- The reset values, for a core that starts a job for the first time (01 R36). -/
def Core.freshJob (c : Core) : Core :=
  { c with
    tvec := 0, hres := 2, pmcovf := 0, pmc := Vector.replicate 8 0, pmcsel := Vector.replicate 8 0,
    mon := Vector.replicate 8 0, gqNext := 0, gqCount := 0 }

/-! ## Stopping a partition (12 R305 steps 1 to 3) -/

/-- Whether a wait is abandoned by a gang switch (13 R326). -/
def Wait.restarts (w : Wait) : Bool := w.yields && w != .none

/-- Step 1 for the current context: a running handler is aborted and its message served again, unless its MDONE has issued
(08 R201, R202), and after a release of it that has issued has been performed; a restartable wait is abandoned; a running train
discards its block (09 R240). -/
def State.stopHere (s : State) : State :=
  if s.ctx.phase != .active then s
  else
    let goesOn := match s.ctx.wait with | .mdone => true | .ending _ => true | .release _ => true | _ => false
    if s.ctx.hnd && goesOn then s
    else if s.ctx.hnd then
      State.finish { s.leaveWaits with ctx := { s.ctx with heldq := [] } } true
    else
      let s := if s.ctx.wait.restarts then { s.leaveWaits with ctx := { s.ctx with wait := .none } } else s
      if s.ctx.wd.wdm && s.ctx.wd.state == 1 && s.ctx.wd.ending.isNone then
        let s := s.giveUp
        { s with ctx := { s.ctx with wd := { s.ctx.wd with posts := 0, block := none } }, core := s.core.freeResv s.c }
      else s

/-- Every context of a partition that is not dormant. -/
def State.partCtxs (s : State) (p : Part) : List Nat :=
  p.cores.flatMap fun k => ((s.coreCtxs k).filter fun e => e.2.phase != .dormant).map (·.1)

/-- Whether a partition's switch time has come and it has not stopped. -/
def State.mustStop (s : State) (p : Part) : Bool :=
  match p.switch with
  | some (t, _) => !p.idle && !p.stopping && decide (t.toNat ≤ s.time.toNat)
  | none => false

/-- Step 1 for every context of a partition. -/
def State.stopCtxs (s : State) (p : Part) : State := (s.partCtxs p).foldl (fun s r => s.as r State.stopHere) s

/-- A partition stops issuing at its switch time. -/
def State.stopPart (s : State) (i : Nat) (p : Part) : State := (s.setPart i { p with stopping := true }).stopCtxs p

/-- Whether nothing of a context is left to drain. -/
def Ctx.quiet (c : Ctx) : Bool :=
  c.phase != .active ||
    (c.drained && !c.hnd &&
      (match c.wait with | .release _ => false | .ending _ => false | .mdone => false | .arrival .. => false
                         | .tlbi .. => false | _ => true))

/-- Whether an engine command is no concern of a switch any more: a failed one whose context holds 16 events (01 R35). -/
def State.kept (s : State) (x : EngCmd) : Bool := x.failed.isSome && !x.ended && decide (16 ≤ (s.getCtx x.ctx).eng.length)

/-- Steps 2 and 3 are done: loads, stores, pushes, NEAR operations, tile operations and engine commands but kept failures. -/
def State.partQuiet (s : State) (p : Part) : Bool :=
  (s.partCtxs p).all (fun r => (s.getCtx r).quiet) && p.cores.all (fun k => (s.getCore k).tileq.isEmpty) &&
    !(s.orphans.any fun e => p.holds (e.1 / 8)) &&
    s.clusters.all fun e => (e.2.copies ++ e.2.decodes).all fun x => x.asid != p.asid || s.kept x

/-! ## Saving (12 R305 steps 4 to 6) -/

/-- Where the station master puts records: core number `j` of the partition has 0x11000 bytes from `base` on, context `c` at
4 KiB × c, the tile record at 0x8000, the core record at 0x10800. The task records and the tile records follow the last core's. -/
def recordBase (base j : Nat) : Nat := base + j * 0x11000

/-- The job of an ASID, or a job that has nothing yet. -/
def State.jobOr (s : State) (asid : Nat) : Job :=
  (s.job asid).getD ⟨asid, 0, [], [], [], [], [], [], [], none, 1087, none, Config.msgSidingSize, 0⟩

/-- Eject a core's messages: those in its input queues but the ones aborted handlers hold, and those in its send slots. -/
def State.heldOf (s : State) (k : Nat) : List (Nat × Bool × InEntry) :=
  let c := s.getCore k
  (c.inq0.filter (·.held)).map (fun e => (k, false, e)) ++ (c.inq1.filter (·.held)).map fun e => (k, true, e)

def State.queued (s : State) (k : Nat) : List Msg :=
  let c := s.getCore k
  ((c.inq0 ++ c.inq1).filter (!·.held)).map (·.msg)

/-- The tiles delivered to a core are activations, and are saved as contexts: each starts, or waits for its registers. -/
def State.startTiles (s : State) (k : Nat) : State :=
  (s.getCore k).tileActs.foldl (fun s a => s.activate a.ctx a.activation) (s.modCore k fun c => { c with tileActs := [] })

/-- The CLM region that a context holds has a holder `b` in the place of holder `a` (10 R261). -/
def State.rehold (r : Nat) (c : Ctx) (a b : Holder) (s : State) : State :=
  match c.region with
  | none => s
  | some _ =>
    let u := clusterOf (r / 8)
    let cl := s.cluster u
    s.setCluster u { cl with regions := cl.regions.map fun x =>
      { x with holders := x.holders.map fun h => if h = a then b else h } }

/-- Save the contexts of a core, its tiles when they are claimed, and its core record. -/
def State.saveCore (asid base : Nat) (s : State) (e : Nat × Nat) : State :=
  let k := e.1
  let at0 := recordBase base e.2
  let live := (s.coreCtxs k).filter fun x => x.2.phase != .dormant
  let tile (r : Nat) : Option Nat := if (s.getCore k).claim = some (r % 8) then some (at0 + 0x8000) else none
  let saved := live.map fun x => (⟨x.1, at0 + 0x1000 * (x.1 % 8), tile x.1, x.2⟩ : SavedCtx)
  let s := live.foldl (fun s x => s.homeStore (wordCells (at0 + 0x1000 * (x.1 % 8)) (s.select x.1).saveWords)) s
  let c := s.getCore k
  let s := if saved.any (·.tile.isSome) then s.homeStore (wordCells (at0 + 0x8000) c.tileWords) else s
  let s := s.homeStore (wordCells (at0 + 0x10800) c.words)
  let j := s.jobOr asid
  let dq := c.siding ++ c.deque
  let j := { j with
    saved := j.saved ++ saved
    cores := j.cores ++ [⟨k, at0 + 0x10800, c.gqNext, c.gqCount, c.dqAt, c.dqIn⟩]
    waiting := j.waiting ++ c.regReqs
    deques := if dq.isEmpty then j.deques else j.deques ++ [(k, dq)] }
  let s := live.foldl (fun s x => State.rehold x.1 x.2 (.ctx x.1) (.saved asid x.1) (s.setCtx x.1 .reset)) (s.setJob j)
  s.setCore k { c.discard with lastJob := some asid }

/-- The tile queues of a partition. -/
def State.savedTiles (s : State) (p : Part) : List SavedTiles :=
  p.quads.flatMap fun quad => (List.range 64).filterMap fun q =>
    let l := s.tileq (quad * 64 + q)
    if l.isEmpty then none else some ⟨quad, q, l⟩

/-- Kept failures of a job are no longer counted (01 R35). -/
def uncount (asid : Nat) (l : List EngCmd) : List EngCmd := l.map fun e => if e.asid = asid then { e with counted := false } else e

/-- The messages of a partition's job that a switch ejects: from input queues, from the network, from send slots (R305 step 4). -/
def State.ejected (s : State) (p : Part) : List Msg :=
  p.cores.flatMap s.queued ++ s.net.filter (·.asid == p.asid) ++
    p.cores.flatMap fun k => (s.getCore k).out0 ++ (s.getCore k).out1

/-- The records of a core's deque enter its siding (R305 step 5). -/
def State.sideDeque (s : State) (k : Nat) : State :=
  (s.getCore k).deque.foldl (State.sideTask k) (s.modCore k fun c => { c with deque := [] })

/-- The words of the deque records of cores without a siding region, and of the tile-queue records, of a partition (R305 step 5). -/
def State.recordWords (s : State) (p : Part) : List Word :=
  (p.cores.flatMap fun k => if (s.getCore k).dqAt.isSome then []
    else ((s.getCore k).siding ++ (s.getCore k).deque).flatMap TaskRec.words) ++
    (s.savedTiles p).flatMap fun e => e.recs.flatMap (·.words)

/-- Whether a partition can be saved from a place on: its records lie in HBM, and the siding has room for its messages (R306). -/
def State.saveOk (s : State) (base : Nat) (p : Part) : Bool :=
  base % 4096 == 0 && isHbmKey (recordBase base p.cores.length + 8 * (s.recordWords p).length) &&
    decide (((s.jobOr p.asid).siding ++ s.ejected p).length ≤ (s.jobOr p.asid).entries)

/-- A message enters the siding of the job of an ASID. -/
def State.sideWith (asid : Nat) (s : State) (m : Msg) : State := s.sideMsg (s.jobOr asid) m

/-- A quiet partition ejects its messages, saves its records, contexts and cores, and is idle. -/
def State.savePart (s : State) (i : Nat) (p : Part) (base : Nat) : State :=
  let s := (s.ejected p).foldl (State.sideWith p.asid) s
  let s := p.cores.foldl State.startTiles s
  let s := p.cores.foldl State.sideDeque (s.homeStore (wordCells (recordBase base p.cores.length) (s.recordWords p)))
  let j := s.jobOr p.asid
  let j := { j with
    asd := p.asd
    held := p.cores.flatMap s.heldOf
    tiles := s.savedTiles p
    saved := [], cores := [], waiting := [], deques := []
    round := p.round }
  let s := { s.setJob j with
    net := s.net.filter (·.asid != p.asid)
    tileqs := s.tileqs.filter fun e => !(p.quads.contains (e.1 / 64))
    clusters := s.clusters.map fun e =>
      (e.1, { e.2 with copies := uncount p.asid e.2.copies, decodes := uncount p.asid e.2.decodes }) }
  let s := (p.cores.zipIdx).foldl (State.saveCore p.asid base) s
  s.setPart i { p with idle := true, stopping := false, round := none }

/-- Whether a partition has not reported 1 ms after its switch time (R305). -/
def State.overdue (s : State) (p : Part) : Bool :=
  match p.switch with
  | some (t, _) => !p.idle && decide (t.toNat + 1000000 ≤ s.time.toNat)
  | none => false

/-- Whether something of a core is left to drain. -/
def State.unquiet (s : State) (k : Nat) : Bool :=
  !((s.coreCtxs k).all fun e => e.2.quiet) || !(s.getCore k).tileq.isEmpty || s.orphans.any fun e => e.1 / 8 == k

/-- The drain timeout of a partition that has not reported in time; its cause names the first core that has work left, or its first
core (13 R330; log 35). -/
def State.drainFault (s : State) (i : Nat) (p : Part) : State :=
  s.partFault i p 3 (cidOf ((p.cores.find? s.unquiet).getD (p.cores.headD 0) * 8))

/-- The drain timeouts that are due. -/
def State.drainFaults (s : State) : State :=
  (s.parts.filter fun e => s.overdue e.2).foldl (fun s e => s.drainFault e.1 e.2) s

/-- GANG_SWITCH: at its switch time a partition stops issue; once everything has drained, its messages are ejected and its
records, contexts and cores saved from `base` on. After 1 ms it is faulted. -/
def execGangSwitch (part base : Nat) (s : State) : Out :=
  .next (match s.part part with
    | none => s
    | some p =>
      if s.overdue p then s.drainFault part p
      else
        let s := if s.mustStop p then s.stopPart part p else if p.stopping then s.stopCtxs p else s
        match s.part part with
        | none => s
        | some p => if p.stopping && s.partQuiet p && s.saveOk base p then s.savePart part p base else s)

/-- DRAIN_TIMEOUT: a core that has not reported 1 ms after the switch time faults its partition (R305, 13 R330). -/
def execDrainTimeout (part core : Nat) (s : State) : Out :=
  .next (match s.part part with
    | none => s
    | some p => if s.overdue p && p.holds core then s.partFault part p 3 (cidOf (core * 8)) else s)

/-! ## Resuming (12 R307, 01 R33, R36) -/

/-- The control state of a core at the start or resumption of a job; the tiles it keeps only for the job it ran last. R36 speaks of a
first start and of a resumption: DESIGN CHOICE, a job that is placed again after a partition fault takes the core record of its
last switch where it has one, and else the reset values (log 48). -/
def State.loadCore (j : Job) (s : State) (k : Nat) : State :=
  s.modCore k fun c =>
    let c := match j.cores.find? (·.core == k) with
      | some e => { c.loadWords (fun i => Mem.word s.mem (e.pa + 8 * i)) with gqNext := e.gqNext, gqCount := e.gqCount, dqAt := e.dqAt, dqIn := e.dqIn }
      | none => c.freshJob
    let c := if c.lastJob = some j.asid then c
      else { c with tiles := Vector.replicate 8 .reset, tshape := Vector.replicate 8 .reset }
    { c with lastJob := some j.asid, last := 7, injected := false }

/-- Restore a saved context of a job, the claim it held, and its hold of a region. -/
def State.loadCtx (asid : Nat) (s : State) (e : SavedCtx) : State :=
  let s := State.rehold e.ref e.ctx (.saved asid e.ref) (.ctx e.ref) s
  let s := s.setCtx e.ref (e.ctx.restore fun i => Mem.word s.mem (e.pa + 8 * i))
  match e.tile with
  | none => s
  | some pa => s.modCore (e.ref / 8) fun c =>
      { c.loadTiles (fun i => Mem.word s.mem (pa + 8 * i)) with claim := some (e.ref % 8), release := false }

/-- Reload a deque: its 64 newest records go to the hardware. -/
def State.loadDeque (s : State) (e : Nat × List TaskRec) : State :=
  s.modCore e.1 fun c => { c with siding := e.2.take (e.2.length - 64), deque := e.2.drop (e.2.length - 64) }

/-- A held message returns to the head of its queue. -/
def State.loadHeld (s : State) (e : Nat × Bool × InEntry) : State :=
  s.modCore e.1 fun c => c.setInq e.2.1 (e.2.2 :: c.inq e.2.1)

/-- Whether a sided message can be re-injected into a partition: its destination lies there, or on another device. -/
def State.reinjects (s : State) (p : Part) (m : Msg) : Bool :=
  m.w0.extractLsb' 16 9 != s.dev.devnum || (match destCore m.w0 with | some k => p.holds k | none => false)

/-- The default slice: 4,000,000 ticks (R304). -/
def sliceTicks : Nat := 4000000

/-- Place a job on an idle partition: restore what was saved of it, reload its deques and tile queues, and re-inject its
sided messages. -/
def State.resumeJob (s : State) (i : Nat) (p : Part) (j : Job) : State :=
  let p' := { p with
    idle := false, asid := j.asid, asd := j.asd, switch := none, stopping := false,
    round := j.round.map fun r => { r with pos := 0, mark := true }, slice := s.time.toNat + p.length }
  let s := s.setPart i p'
  let s := p'.cores.foldl (State.loadCore j) s
  let s := j.saved.foldl (State.loadCtx j.asid) s
  let s := j.waiting.foldl (fun s r => s.modCore (r / 8) fun c => { c with regReqs := c.regReqs ++ [r] }) s
  let s := j.deques.foldl State.loadDeque s
  let s := j.held.reverse.foldl State.loadHeld s
  let s := j.tiles.foldl (fun s t => s.setTileq (t.quad * 64 + t.queue) t.recs) s
  let back := j.siding.filter (s.reinjects p')
  let here := back.filter fun m => m.w0.extractLsb' 16 9 == s.dev.devnum
  let away := back.filter fun m => m.w0.extractLsb' 16 9 != s.dev.devnum
  { s.setJob { j with siding := j.siding.filter (!s.reinjects p' ·), saved := [], waiting := [], deques := [], held := [],
                      tiles := [], round := none } with
    net := here.map (fun m => { m with again := true }) ++ s.net
    sent := s.sent ++ away.map fun m => { m with payload := toWire (msgFmt m.w0) m.payload } }

/-- Whether a job runs on some partition. -/
def State.placed (s : State) (asid : Nat) : Bool := s.parts.any fun e => !e.2.idle && e.2.asid == asid

/-- Whether a switch to a job has been announced to another partition than `part`. -/
def State.promised (s : State) (part asid : Nat) : Bool :=
  s.parts.any fun e => e.1 != part && (match e.2.switch with | some (_, a) => a == asid | none => false)

/-- Whether a partition has every unit that a job was saved on: the cores of its contexts, deques and held messages, and the
quadrants of its tile queues. -/
def Job.fits (j : Job) (p : Part) : Bool :=
  (j.saved.all fun e => p.holds (e.ref / 8)) && (j.deques.all fun e => p.holds e.1) && (j.held.all fun e => p.holds e.1) &&
    (j.cores.all fun e => p.holds e.core) && j.tiles.all fun e => p.quads.contains e.quad

/-- JOB_RESUME: at the agreed time the station master places a job on an idle partition. -/
def execJobResume (part asid : Nat) (s : State) : Out :=
  .next (match s.part part, s.job asid with
    | some p, some j =>
      let due := match p.switch with
        | some (t, a) => a == asid && decide (t.toNat ≤ s.time.toNat)
        | none => true
      if p.idle && due && !s.placed asid && !s.promised part asid && j.fits p then s.resumeJob part p j else s
    | _, _ => s)

/-! ## Time slices (12 R304) -/

/-- The queues of a job that are active and hold untaken records. -/
def State.openQueues (s : State) (asid : Nat) : List HostQueue :=
  let vfs := s.vfsOf asid
  s.hqueues.filter fun h => vfs.contains h.vf && h.state == 1 && h.prod != h.cons

/-- A job is runnable when a queue of it is open or its work has not ended. -/
def State.runnable (s : State) (j : Job) : Bool :=
  !(s.openQueues j.asid).isEmpty || !j.saved.isEmpty || !j.deques.isEmpty || !j.siding.isEmpty || !j.tiles.isEmpty ||
    !j.held.isEmpty || j.round.isSome || (s.hqueues.any fun h => (s.vfsOf j.asid).contains h.vf && !h.cmds.isEmpty) ||
    s.clusters.any fun e => (e.2.copies ++ e.2.decodes).any fun x => x.asid == j.asid

/-- The highest PRIO of a job's open queues. -/
def State.jobPrio (s : State) (asid : Nat) : Nat := ((s.openQueues asid).map (·.prio.toNat)).foldl max 0

/-- Ticks from an announcement to the switch (R305). -/
def announceTicks : Nat := 20000

/-- Whether a core holds work of its job beyond its contexts: task records, messages, delivered tiles. -/
def Core.laden (c : Core) : Bool :=
  !c.deque.isEmpty || !c.siding.isEmpty || !c.inq0.isEmpty || !c.inq1.isEmpty || !c.out0.isEmpty || !c.out1.isEmpty ||
    !c.tileActs.isEmpty

/-- Whether the job of a partition has work: contexts, records in deques and tile queues, messages, commands. -/
def State.busy (s : State) (p : Part) : Bool :=
  !p.idle && (!(s.partCtxs p).isEmpty || p.cores.any (fun k => (s.getCore k).laden) || !(s.savedTiles p).isEmpty ||
    s.net.any (·.asid == p.asid) || p.round.isSome || s.orphans.any (fun e => p.holds (e.1 / 8)) ||
    (match s.job p.asid with | some j => s.runnable j | none => false))

/-- Whether runnable jobs outnumber partitions. -/
def State.crowded (s : State) : Bool :=
  decide (s.parts.length <
    (s.jobs.filter fun x => s.runnable x && !s.placed x.asid).length + (s.parts.filter fun e => s.busy e.2).length)

/-- How far an ASID lies after another in the round of jobs. -/
def turn (after asid : Nat) : Nat := (asid + 65535 - after) % 65536

/-- Whether job `y` comes before job `x` in a partition: by the highest PRIO, and in turn among equals (R304). -/
def State.beats (s : State) (p : Part) (y x : Nat) : Bool :=
  decide (s.jobPrio x < s.jobPrio y) || (s.jobPrio x == s.jobPrio y && decide (turn p.asid y ≤ turn p.asid x))

/-- TIMESLICE_EXPIRY: the slice of a partition ends while runnable jobs outnumber partitions, or the partition's job has no
work; the station master chooses the next job, of those that neither run nor have been announced to another partition, and announces a
switch. R305 leaves T to the station master, no less than 20,000 ticks later: DESIGN CHOICE, it is exactly 20,000. R304 does not say
whether the job whose slice ends competes for the next slice: DESIGN CHOICE, it does not (log 41). -/
def execTimesliceExpiry (part asid : Nat) (s : State) : Out :=
  .next (match s.part part, s.job asid with
    | some p, some j =>
      let free (a : Nat) : Bool := !s.placed a && !s.promised part a
      let rivals := s.jobs.filter fun x => s.runnable x && free x.asid && x.fits p
      if !p.idle && p.switch.isNone && decide (p.slice ≤ s.time.toNat) && (s.crowded || !s.busy p) && s.runnable j &&
          free asid && j.fits p && rivals.all (fun x => s.beats p asid x.asid) then
        s.setPart part { p with switch := some (s.time + BitVec.ofNat 64 announceTicks, asid) }
      else s
    | _, _ => s)

/-! ## Links (15 R358) -/

/-- Whether an access that is read reaches another device, its index words included. -/
def LaneSrc.remote (l : LaneSrc) : Bool := (l.allSites .core).any fun h => remoteHome h.2

/-- Whether an outstanding access reaches another device. -/
def Pend.remote (p : Pend) : Bool :=
  (p.sitesOf.any fun h => remoteHome h.2) ||
    match p.op with
    | .load _ _ _ lanes => lanes.any (·.src.remote)
    | _ => false

/-- A list of checked addresses, none when a check fails. -/
def checkedList {α : Type} (r : Except Trap (List α)) : List α :=
  match r with
  | .ok l => l
  | .error _ => []

/-- The word that HALT.J and TDONE count down. -/
def State.countWord (s : State) (va : Word) : List LaneSrc :=
  match s.storeCheck va 8 .w with
  | .ok k => [.mem k (s.homeAt va k)]
  | .error _ => []

/-- The index words of gather windows that a vector load's addresses come to. -/
def State.vIndexes (s : State) (i : Instr) (k : VMCtl) (srcs : List Opnd) (addr : List VWord → Nat → Word) : List LaneSrc :=
  match openUses i s.ctx k.rimm srcs with
  | .ok us =>
    (match s.readUses [] us with
     | .ok vs => s.indexesOf (ewBytes k.ew) ((s.memLanes k).map (addr vs))
     | .error _ => [])
  | .error _ => []

/-- What an instruction reads at homes while it issues, beside the accesses that it leaves outstanding: records, the payload that a
record names, index words of gather windows. -/
def State.issueReads (s : State) (i : Instr) : List LaneSrc :=
  let rec8 (va : Word) := checkedList (s.loadBlock va 8)
  match i with
  | .fork a => rec8 (s.x a)
  | .send a =>
    let l := rec8 (s.x a)
    let ws := (s.readWords l).1
    l ++ checkedList (s.payloadAt (ws.getD 6 0) (msgPlen (ws.getD 0 0)))
  | .jrec _ _ c => rec8 (s.x c)
  | .tqput _ a _ => checkedList (s.loadBlock (s.x a) 16)
  | .dcopy _ a off _ => rec8 (s.x a + off.signExtend 64)
  | .sortc _ a off _ => rec8 (s.x a + off.signExtend 64)
  | .haltJ a => s.countWord (s.x a)
  | .tdone a => s.countWord (s.x a)
  | .ld _ a imm wid _ => [s.indexWords (s.ea a imm) (memBytes wid)]
  | .lda _ a imm wid _ => [s.indexWords (s.ea a imm) (memBytes wid)]
  | .fld _ a imm w => [s.indexWords (s.ea a imm) (fmtBytes w)]
  | .vld _ a k => s.vIndexes i k [] fun _ => s.strided a k.imm (BitVec.ofNat 64 (ewBytes k.ew))
  | .vlds _ a b k => s.vIndexes i k [] fun _ => s.strided a k.imm (s.x b)
  | .vgath _ a b k => s.vIndexes i k [vS b] fun vs => s.indexed a k (sv vs 0)
  | _ => []

/-- What LDP and STP read while they issue: the element's bytes or its scale word. -/
def State.sliceReads (s : State) (i : Instr) : List Nat :=
  match i with
  | .ldp _ a imm pln prnd => (match s.ldpSlice a imm pln prnd with | .ok (_, _, l) => allKeys l | .error _ => [])
  | .stp _ a imm pln => (match s.stpSlice a imm pln with | .ok (_, _, l) => scaleKeys l | .error _ => [])
  | _ => []

/-- What the block of the running train reads beside itself: LOADA's tile, the word that BRC or SKIPZ tests. -/
def State.blockReads (s : State) : List Nat :=
  let word (va : Word) : List Nat := match s.wordKey va 4 with | .ok k => [k] | .error _ => []
  match s.blockAt with
  | .ok (.loada h, _) =>
    (match s.dataRange .r (s.ctx.wd.base + BitVec.ofNat 64 (h.col * 0x1080)) 128 528 with
     | .ok ks => ks
     | .error _ => [])
  | .ok (.brc _, _) => word s.ctx.wd.cond
  | .ok (.skipz h, _) => word (s.ctx.wd.cond + BitVec.ofNat 64 (4 * h.row))
  | _ => []

/-- Whether the current context reads at another device in the middle of the instruction or block it is at: a poll, a record, a
payload, a count, a tile. -/
def State.readsAway (s : State) : Bool :=
  s.ctx.phase == .active &&
    match s.ctx.wait with
    | .await _ home _ _ => remoteHome home
    | _ =>
      if s.ctx.wd.wdm && s.ctx.wd.state == 1 then s.blockReads.any isRemoteKey
      else
        let away (i : Instr) : Bool := (s.issueReads i).any LaneSrc.remote || (s.sliceReads i).any isRemoteKey
        match s.ctx.fetched, s.fetchAt s.ctx.pc with
        | some i, _ => away i
        | none, .instr i _ => away i
        | none, _ => false

/-- Whether a stream of the current context has a push for another device, or reads its next element there; a write stream of a context
that waits may do so for the index word of its next push. -/
def State.streamRemote (s : State) (t : Stream) : Bool :=
  (t.pushes.any fun e => e.homes.any remoteHome) ||
    (t.active && if t.act.dir then
      s.ctx.wait == .counters && (gotOf (s.elemAddr t.act .none t.spos.toNat)).keys.any isRemoteKey
     else
      match s.elemRead t.act t.part (t.spos.toNat + t.got.length) with
      | .ok (_, g) => g.keys.any isRemoteKey
      | .error e => e.got.keys.any isRemoteKey)

/-- Whether the store of a completed collection round, which its last core makes, is for another device. -/
def State.roundRemote (s : State) (k : Nat) : Bool :=
  match s.partOf k with
  | some (_, p) =>
    (match p.round with
     | some r => p.cores[r.pos]? == some k && r.pos + 1 == p.cores.length && isRemoteKey r.pa
     | none => false)
  | none => false

/-- Whether a core has a remote request or message under way: an access of a context or one that a context left, a read in the middle
of an instruction, a stream's, a counted tile operation's, a copy's or decode's, a message, or the store of a round. -/
def State.remoteWork (s : State) (k : Nat) : Bool :=
  ((s.coreCtxs k).any fun e =>
      e.2.pend.any Pend.remote || (s.select e.1).readsAway || (e.2.streams.toList.any fun t => (s.select e.1).streamRemote t)) ||
    (s.orphans.any fun e => e.1 / 8 == k && e.2.remote) || ((s.getCore k).tileq.any fun o => o.homes.any remoteHome) ||
    (let cl := s.cluster (engineOf k)
     (cl.copies ++ cl.decodes).any fun x => x.ctx / 8 == k && (runCmd x s).keys.any isRemoteKey) ||
    s.roundRemote k || ((s.getCore k).out0 ++ (s.getCore k).out1 ++ s.sent).any fun m => m.w0.extractLsb' 16 9 != s.dev.devnum && m.src / 8 == k

/-- What a quadrant's signal box reads and writes for the record at the head of tile queue `q`. -/
def State.boxKeys (s : State) (p : Part) (quad q : Nat) : List Nat :=
  match s.tileq (quad * 64 + q) with
  | t :: _ =>
    if t.ready.isSome then []
    else
      let w (n : Nat) : Word := tileWord t.words n
      (if w 0x50 = 0 then [] else (s.boxKey p t.prv .r quad (w 0x50)).toList) ++
        ((s.shapeKeys p t.prv quad (w 0x10) (w 0x18).toNat).getD []) ++ (s.boxKey p t.prv .rw quad (w 0x60)).toList
  | [] => []

/-- Whether the signal box of a core's quadrant has a remote request under way for a job. -/
def State.boxRemote (s : State) (p : Part) (core : Nat) : Bool :=
  isMesh core && (List.range 64).any fun q => (s.boxKeys p (quadOf core) q).any isRemoteKey

/-- LINK_TIMEOUT: a remote request or message of a core, or of its quadrant's signal box, stays undelivered for 100 µs; its partition is
faulted. A signal box's request is no core's (13 R330). -/
def execLinkTimeout (part core : Nat) (s : State) : Out :=
  .next (match s.part part with
    | none => s
    | some p =>
      if p.idle || !p.holds core then s
      else if s.remoteWork core then s.partFault part p 7 (cidOf (core * 8))
      else if s.boxRemote p core then s.partFault part p 7 0xFFFF
      else s)

end Sys2Proof.Machine
end

