-- ==== Sys2Proof/Machine/HostCmd.lean ====
section
/-! DEFINITION. Host command queues and events (12 R298 to R303, 15 R352 to R355). -/

namespace Sys2Proof.Machine

open Sys2Proof

/-! ## Queues -/

/-- Whether a virtual function answers and serves a job (15 R352, 16 R373). -/
def State.vfUp (s : State) (vf : Nat) : Bool := decide (1 ≤ vf ∧ vf ≤ 16) && s.dev.mode == 1 && (s.vf vf).bound

/-- The station master reads the header of a queue whose doorbell rang: a stopped queue starts again when the host has
written STATE := 1 (R298, R303). -/
def State.ring (s : State) (vf q : Nat) : State :=
  if !s.vfUp vf || 64 ≤ q || s.header vf q = 0 then s
  else
    let prod := (s.headerWord vf q 0x10).extractLsb' 0 32
    let prio := (s.headerWord vf q 0x08).extractLsb' 8 7
    let h := { s.queueOr vf q with prod := prod, prio := prio }
    if h.state == 2 || h.state == 3 then
      (if (s.headerWord vf q 0x28).extractLsb' 0 8 = 1 then s.setQueue { h with state := 1 } else s.setQueue h)
    else (s.setQueue { h with state := 1 }).writeHeader vf q 0x28 1 1

/-- DOORBELL of queue `q`. -/
def execDoorbell (vf q : Nat) (s : State) : Out := .next (s.ring vf q)

/-! ## Taking a record (R299, R301) -/

/-- A record of a queue: eight words. -/
def State.recordOf (s : State) (vf q : Nat) (seq : BitVec 32) : List Word :=
  let base := (s.headerWord vf q 0x00).toNat
  let size := 2 ^ ((s.headerWord vf q 0x08).extractLsb' 0 5).toNat
  (List.range 8).map fun i => Mem.word s.hostMem (base + 64 * (seq.toNat % size) + 8 * i)

/-- Whether the next record of a queue may be taken: the previous one has completed or carried ASYNC. -/
def HostQueue.open (h : HostQueue) : Bool :=
  h.state == 1 && h.prod != h.cons &&
    (match h.cmds.find? (·.seq == h.cons) with | some c => c.async | none => true)

/-- How long a queue waits for its turn in its job, in queue numbers after the one served last (R301). -/
def State.queueTurn (s : State) (h : HostQueue) : Nat :=
  (h.vf * 64 + h.q + 1087 - (s.jobOr (s.vf h.vf).asid.toNat).served) % 1088

/-- Whether a queue is the next to be served in its job: by descending PRIO, in turn among equals. -/
def State.first (s : State) (h : HostQueue) : Bool :=
  s.hqueues.all fun g => !(g.open && (s.vf g.vf).bound && (s.vf g.vf).asid == (s.vf h.vf).asid &&
    (decide (h.prio.toNat < g.prio.toNat) || (h.prio == g.prio && decide (s.queueTurn g < s.queueTurn h))))

/-- Add an event; the status of types 1 and 2 is a free value (log 21). -/
def State.addEvent (s : State) (vf : Nat) (type : BitVec 8) (q : Nat) (seq : BitVec 32) : State :=
  let f := s.fresh
  { f.2 with events := f.2.events ++ [⟨vf, type, BitVec.ofNat 6 q, seq, f.1⟩] }

/-- A record stops its queue with an error code. -/
def State.stopErr (s : State) (h : HostQueue) (err : Nat) : State :=
  let seq := h.cons + 1
  let s := s.setQueue { h with state := 2 }
  let s := s.writeHeader h.vf h.q 0x28 8 (seq.toNat * 2 ^ 32 + err * 256 + 2)
  s.addEvent h.vf 2 h.q seq

/-- Advance COMP over the completed records that follow it. -/
def advanceComp (comp : BitVec 32) (done : List (BitVec 32)) : Nat → BitVec 32 × List (BitVec 32)
  | 0 => (comp, done)
  | n + 1 => if done.contains (comp + 1) then advanceComp (comp + 1) (done.filter (· != comp + 1)) n else (comp, done)

/-- A record completes: COMP first, then its event (R302, R354). -/
def State.complete (s : State) (vf q : Nat) (seq : BitVec 32) (evt : Bool) : State :=
  match s.queue vf q with
  | none => s
  | some h =>
    let d := h.done ++ [seq]
    let a := advanceComp h.comp d d.length
    let s := s.setQueue { h with comp := a.1, done := a.2, cmds := h.cmds.filter (·.seq != seq) }
    let s := s.writeHeader vf q 0x20 4 a.1.toNat
    if evt then s.addEvent vf 1 q seq else s

/-- A record is taken: CONS counts it, and it runs; its queue was served. -/
def State.take (s : State) (h : HostQueue) (c : HostCmd) : State :=
  let j := s.jobOr (s.vf h.vf).asid.toNat
  let s := s.setJob { j with served := h.vf * 64 + h.q }
  (s.setQueue { h with cons := h.cons + 1, cmds := h.cmds ++ [c] }).writeHeader h.vf h.q 0x18 4 (h.cons + 1).toNat

/-- Take the next record of a queue when it is a command `opc`: the checks common to all commands, then `k`. -/
def State.command (s : State) (vf q opc : Nat) (k : HostQueue → HostCmd → State → State) : State :=
  match s.queue vf q with
  | none => s
  | some h =>
    if !s.vfUp vf || !h.open || !s.first h then s
    else
      let ws := s.recordOf vf q (h.cons + 1)
      let w0 := ws.getD 0 0
      let c : HostCmd := ⟨h.cons + 1, w0.extractLsb' 32 8, w0.getLsbD 41, w0.getLsbD 40, ws⟩
      if w0.extractLsb' 0 32 != h.cons + 1 then s.stopErr h 1
      else if 5 ≤ c.opc.toNat then s.stopErr h 2
      else if c.opc.toNat ≠ opc then s
      else if w0.extractLsb' 42 22 != 0 then s.stopErr h 3
      else k h c s

/-- NOP. -/
def execNopCommand (vf q : Nat) (s : State) : Out :=
  .next (s.command vf q 0 fun h c s => (s.take h c).complete vf q c.seq c.evt)

/-! ## The job's address space -/

/-- The partition that runs the job of a virtual function. -/
def State.jobPart (s : State) (vf : Nat) : Option (Nat × Part) :=
  s.parts.find? fun e => !e.2.idle && e.2.asid == (s.vf vf).asid.toNat

/-- The address space of the job of a virtual function. -/
def State.jobSpace (s : State) (vf : Nat) : Space :=
  let asid := (s.vf vf).asid.toNat
  match s.jobPart vf with
  | some (_, p) => ⟨p.asd, s.asidAt p.asd, Config.masterCore, .die⟩
  | none => ⟨(s.jobOr asid).asd, s.asidAt (s.jobOr asid).asd, Config.masterCore, .die⟩

/-- The key of an access the station master makes in an address space with S-mode privilege. -/
def State.hostKey (s : State) (sp : Space) (a : Acc) (va : Word) : Option Nat :=
  match s.siteIn Config.masterCore (some sp) 1 a va with
  | .ok (.key n _ _) => some n
  | _ => none

/-- The keys of eight words. -/
def State.hostKeys (s : State) (sp : Space) (va : Word) : Nat → Option (List Nat)
  | 0 => some []
  | n + 1 =>
    match s.hostKey sp .r va, s.hostKeys sp (va + 8) n with
    | some k, some r => some (k :: r)
    | _, _ => none

/-! ## LAUNCH (R300) -/

/-- The compute cores of the quadrants QMASK names, by CID; all when it is 0. -/
def seedCores (p : Part) (qmask : BitVec 16) : List Nat :=
  (p.quads.zipIdx).flatMap fun e =>
    if qmask = 0 || qmask.getLsbD e.2 then ((List.range 180).map (e.1 * 180 + ·)).filter isCompute else []

/-- Whether a core's partition runs a job. -/
def State.runsJob (s : State) (k : Nat) : Bool :=
  match s.partOf k with
  | some (_, p) => !p.idle
  | none => false

/-- Push `n` seeds from number `i` on, round-robin over the cores; a push that overflows a deque stops the job, and no seed follows
(13 R329). -/
def State.seed (cores : List Nat) (t : TaskRec) : State → Nat → Nat → State
  | s, 0, _ => s
  | s, n + 1, i =>
    let k := cores.getD (i % cores.length) 0
    if s.runsJob k then State.seed cores t (State.pushTask k s { t with a3 := BitVec.ofNat 64 i }) n (i + 1) else s

/-- The effect of a LAUNCH that has been decoded; the rules of R300 come before the translation of CWORD (log 26). -/
def State.launchJob (s : State) (h : HostQueue) (c : HostCmd) (i : Nat) (p : Part) : State :=
  let w (n : Nat) : Word := c.words.getD n 0
  let asd := (w 5).toNat
  let asd' := if asd = 0 then p.asd else asd
  let sp : Space := ⟨asd', s.asidAt asd', Config.masterCore, .die⟩
  let n := ((w 2).extractLsb' 0 16).toNat
  let qm := (w 2).extractLsb' 16 16
  if w 6 != 0 || w 7 != 0 then s.stopErr h 3
  else if (w 1).toNat % 64 != 0 || (w 3).toNat % 8 != 0 || asd % 1024 != 0 then s.stopErr h 4
  else if n = 0 || qm.toNat / 2 ^ p.quads.length != 0 then s.stopErr h 6
  else if !isHbmKey asd then s.stopErr h 5
  else
    match s.hostKeys sp (w 1) 8 with
    | none => s.stopErr h 5
    | some ks =>
      if !s.powered ks then s.wakeFor ks
      else
        let s := s.note (ks.flatMap fun a => byteKeys a 8)
        let t := ks.map fun a => Mem.word s.mem a
        if !taskOk t then s.stopErr h 6
        else
          match s.hostKey sp .r (w 3) with
          | none => s.stopErr h 5
          | some _ =>
            let s := (s.take h c).setPart i { p with asd := sp.asd }
            State.seed (seedCores p qm) (.ofWords t) (s.setJob { s.jobOr p.asid with asd := sp.asd }) n 0

/-- LAUNCH: a job that runs on a partition starts its seeds. -/
def execLaunch (vf q : Nat) (s : State) : Out :=
  .next (match s.jobPart vf with
    | none => s
    | some (i, p) => s.command vf q 1 fun h c s => s.launchJob h c i p)

/-- The first command taken of a kind whose word has come to what it waits for. -/
def State.ready (s : State) (sp : Space) (opc : Nat) (addr : Nat) (ok : Word → HostCmd → Bool) : List HostCmd → Option HostCmd
  | [] => none
  | c :: r =>
    let hit := c.opc.toNat == opc &&
      (match s.hostKey sp .r (c.words.getD addr 0) with
       | some a => s.powered [a] && ok (Mem.word s.mem a) c
       | none => false)
    if hit then some c else s.ready sp opc addr ok r

/-- The words that the station master polls for the commands taken of a kind; a poll is an access, and wakes a region that sleeps (10
R262). -/
def State.polled (s : State) (sp : Space) (opc addr : Nat) (l : List HostCmd) : List Nat :=
  (l.filter fun c => c.opc.toNat == opc).filterMap fun c => s.hostKey sp .r (c.words.getD addr 0)

/-- LAUNCH_COMPLETE: CWORD, read at its home, equals CVAL. -/
def execLaunchComplete (vf q : Nat) (s : State) : Out :=
  .next (match s.queue vf q with
    | none => s
    | some h =>
      let ks := s.polled (s.jobSpace vf) 1 3 h.cmds
      match s.ready (s.jobSpace vf) 1 3 (fun x c => x == c.words.getD 4 0) h.cmds with
      | some c => (s.note (ks.flatMap fun a => byteKeys a 8)).complete vf q c.seq c.evt
      | none => (s.note (ks.flatMap fun a => byteKeys a 8)).wakeFor ks)

/-! ## WRITE64, WAITVAL, BARRIER (R299) -/

/-- WRITE64, a store on the CORE path of the station master. -/
def execWrite64 (vf q : Nat) (s : State) : Out :=
  .next (s.command vf q 2 fun h c s =>
    let va := c.words.getD 1 0
    if va.toNat % 8 != 0 then s.stopErr h 4
    else
      match s.hostKey (s.jobSpace vf) .w va with
      | none => s.stopErr h 5
      | some a =>
        if !s.powered [a] then s.wakeFor [a]
        else
          (State.performStore Config.masterCore true (s.take h c) (cellsOf a 8 (c.words.getD 2 0).toNat)).complete vf q c.seq c.evt)

/-- WAITVAL is taken; it completes by WAITVAL_COMPLETE. -/
def execWaitval (vf q : Nat) (s : State) : Out :=
  .next (s.command vf q 3 fun h c s =>
    let va := c.words.getD 1 0
    if va.toNat % 8 != 0 then s.stopErr h 4
    else
      match s.hostKey (s.jobSpace vf) .r va with
      | none => s.stopErr h 5
      | some _ => s.take h c)

/-- WAITVAL_COMPLETE: the word, read at its home as a signed value, is at or above the target. -/
def execWaitvalComplete (vf q : Nat) (s : State) : Out :=
  .next (match s.queue vf q with
    | none => s
    | some h =>
      let ks := s.polled (s.jobSpace vf) 3 1 h.cmds
      match s.ready (s.jobSpace vf) 3 1 (fun x c => decide ((c.words.getD 2 0).toInt ≤ x.toInt)) h.cmds with
      | some c => (s.note (ks.flatMap fun a => byteKeys a 8)).complete vf q c.seq c.evt
      | none => (s.note (ks.flatMap fun a => byteKeys a 8)).wakeFor ks)

/-- Complete a BARRIER that is the oldest command not complete. -/
def State.passBarrier (s : State) (vf q : Nat) : State :=
  match s.queue vf q with
  | some h =>
    match h.cmds with
    | c :: _ => if c.opc == 4 then s.complete vf q c.seq c.evt else s
    | [] => s
  | none => s

/-- BARRIER: taken, it completes when every earlier record of its queue has. -/
def execBarrier (vf q : Nat) (s : State) : Out :=
  .next ((s.command vf q 4 fun h c s => s.take h c).passBarrier vf q)

/-! ## Events (R302, 15 R353) -/

/-- Remove the first event of a virtual function. -/
def takeEvent (vf : Nat) (l : List HostEvent) : Option (HostEvent × List HostEvent) :=
  match l with
  | [] => none
  | e :: r =>
    if e.vf = vf then some (e, r)
    else
      match takeEvent vf r with
      | some (x, r) => some (x, e :: r)
      | none => none

/-- EVENT_WRITE: the oldest event of a virtual function is written when its ring has room; IEN raises its vector after. -/
def execEventWrite (vf : Nat) (s : State) : Out :=
  .next (match takeEvent vf s.events with
    | none => s
    | some (e, rest) =>
      let v := s.vf vf
      let size := 2 ^ v.log2n.toNat
      if (v.evprod - v.evcons).toNat = size then s
      else
        let n := v.evprod + 1
        let w0 : Word := BitVec.ofNat 64 (e.qid.toNat * 2 ^ 40 + e.type.toNat * 2 ^ 32 + n.toNat)
        let cells := wordCells (v.evbase.toNat + 32 * (n.toNat % size)) [w0, e.seq.zeroExtend 64, e.status, s.time]
        { s.setVf vf { v with evprod := n } with
          hostMem := Mem.setAll s.hostMem cells
          events := rest
          msix := if v.ien then s.msix ++ [vf] else s.msix })

/-! ## The host's accesses (15 R353, R355) -/

/-- HOST_REG_WRITE to BAR0 of a virtual function. -/
def execHostRegWrite (vf off : Nat) (v : Word) (s : State) : Out :=
  .next (
    let r := s.vf vf
    if !decide (1 ≤ vf ∧ vf ≤ 16) || s.dev.mode == 2 then s
    else if off = 0 then s.ring vf (v.extractLsb' 0 6).toNat
    else if 0x100 ≤ off ∧ off < 0x300 ∧ off % 8 = 0 then
      (if r.bound then s else s.setVf vf { r with qhaddr := put r.qhaddr ((off - 0x100) / 8) (v &&& 0xFFFFFFFFFFFFFFC0) })
    else if off = 0x300 then (if r.bound then s else s.setVf vf { r with evbase := v &&& 0xFFFFFFFFFFFFF000 })
    else if off = 0x308 then
      (if r.bound then s
       else s.setVf vf { r with
         ien := v.getLsbD 8
         log2n := if 4 ≤ (v.extractLsb' 0 5).toNat ∧ (v.extractLsb' 0 5).toNat ≤ 16 then v.extractLsb' 0 5 else r.log2n })
    else if off = 0x310 then s.setVf vf { r with evcons := v.extractLsb' 0 32 }
    else s)

/-- What the host reads at an offset of a virtual function's BAR0, while the function answers (R353, 16 R373). -/
def State.bar0 (s : State) (vf off : Nat) : Word :=
  let r := s.vf vf
  if off = 8 then n64 r.asid <<< 16 ||| bitAt r.bound 0
  else if 0x100 ≤ off ∧ off < 0x300 ∧ off % 8 = 0 then look 0 r.qhaddr ((off - 0x100) / 8)
  else if off = 0x300 then r.evbase
  else if off = 0x308 then bitAt r.ien 8 ||| n64 r.log2n
  else if off = 0x310 then n64 r.evcons
  else if off = 0x318 then n64 r.evprod
  else 0

/-- The device identifier of a function of the endpoint: the physical function, or a virtual one (R351). -/
def deviceId (fn : Nat) : Nat := if fn = 0 then 0x2400 else 0x2401

/-- What the host reads through BAR2, at the homes; none when no bound window answers (R355). -/
def State.bar2 (s : State) (vf off n : Nat) : Option (List Byte) :=
  let a := (s.vf vf).window + off
  if s.vfUp vf && decide (off + n ≤ 2 ^ 36) && isHbmKey (a + n - 1) then some (Mem.bytes s.mem a n) else none

/-- HOST_BAR2_ACCESS: `n` bytes at an offset of a bound virtual function's window, a write when `data` holds bytes; at the
homes, on a path other than CORE. A read returns `State.bar2` and changes nothing on the device. -/
def execHostBar2Access (vf off n : Nat) (data : Option (List Byte)) (s : State) : Out :=
  .next (
    let a := (s.vf vf).window + off
    match data with
    | none => s
    | some l =>
      if s.vfUp vf && decide (off + n ≤ 2 ^ 36) && isHbmKey (a + n - 1) then s.homeStore (cellsAt a (l.take n)) else s)

end Sys2Proof.Machine
end

