-- ==== Sys2Proof/Machine/Device.lean ====
section
/-! DEFINITION. Islands and droop (16 R365 to R368), device control space (R369, R370), CLM protection and region power
(10 R257 to R262), monitors and the sampling pulse (16 R378 to R381), code invalidation (R383). -/

namespace Sys2Proof.Machine

open Sys2Proof

/-! ## CLM protection (10 R257 to R259) -/

/-- Multiply by α in GF(2^8) of 0x11D. -/
def gfDouble (a : Byte) : Byte := if a.getLsbD 7 then (a <<< 1) ^^^ 0x1D else a <<< 1

/-- α^n · a. -/
def gfShift (a : Byte) : Nat → Byte
  | 0 => a
  | n + 1 => gfDouble (gfShift a n)

/-- The product of two elements, by the bits of the second. -/
def gfMul (a b : Byte) : Byte := (List.range 8).foldl (fun x n => if b.getLsbD n then x ^^^ gfShift a n else x) 0

/-- The inverse of an element, found by trial; 0 for 0. -/
def gfInv (a : Byte) : Byte := BitVec.ofNat 8 (((List.range 256).find? fun n => gfMul a (BitVec.ofNat 8 n) == 1).getD 0)

/-- The syndromes S0 and S1 of symbols and their positions. -/
def syndromes (syms : List (Nat × Byte)) : Byte × Byte :=
  syms.foldl (fun s e => (s.1 ^^^ e.2, s.2 ^^^ gfShift e.2 e.1)) (0, 0)

/-- The check symbols s_64 and s_65 that a write computes for data symbols: P and Q are their syndromes. -/
def checkSymbols (data : List (Nat × Byte)) : Byte × Byte :=
  let pq := syndromes data
  let s64 := gfMul (pq.2 ^^^ gfShift pq.1 65) (gfInv (gfShift 1 64 ^^^ gfShift 1 65))
  (s64, pq.1 ^^^ s64)

/-- What a read of a codeword delivers: the symbols that are not delivered as they are stored, and the bank a correction is counted in;
or an uncorrectable lane. -/
inductive EccResult where
  | delivered (fixed : List (Nat × Byte)) (counted : Option Nat)
  | uncorrectable
  deriving DecidableEq, Repr

/-- The decode of R257 of the symbols of a codeword with failed banks F. -/
def eccDecode (failed : List Nat) (syms : List (Nat × Byte)) : EccResult :=
  let s := syndromes (syms.filter fun e => !failed.contains e.1)
  match failed with
  | [] =>
    if s.1 = 0 ∧ s.2 = 0 then .delivered [] none
    else
      match (List.range 66).find? fun i => s.1 != 0 && gfShift s.1 i == s.2 with
      | some i => .delivered [(i, look 0 syms i ^^^ s.1)] (some i)
      | none => .uncorrectable
  | [f] => if gfShift s.1 f = s.2 then .delivered [(f, s.1)] none else .uncorrectable
  | f :: g :: _ =>
    match (List.range 256).find? fun n => gfShift (BitVec.ofNat 8 n) f ^^^ gfShift (s.1 ^^^ BitVec.ofNat 8 n) g == s.2 with
    | some n => .delivered [(f, BitVec.ofNat 8 n), (g, s.1 ^^^ BitVec.ofNat 8 n)] none
    | none => .uncorrectable

/-- The key of the byte that a data bank holds in a row and a byte lane, in a CLM or in a gateway memory (R256, 15 R362). -/
def bankKey (u row lane b : Nat) : Nat :=
  let o := row * 1024 + b * 16 + lane
  if u < 320 then clmKey u o else gwKey (u - 320) o

/-- The data symbols of a row and byte lane, as stored. -/
def State.dataSymbols (s : State) (u row lane : Nat) : List (Nat × Byte) :=
  (List.range 64).map fun b => (b, Mem.get s.mem (bankKey u row lane b))

/-- The symbols of a row and byte lane, as stored: the check symbols are those a write computed, unless the state lists others. -/
def State.symbols (s : State) (u row lane : Nat) : List (Nat × Byte) :=
  let data := s.dataSymbols u row lane
  let c := ((s.checks.find? fun e => e.1 == (u, row, lane)).map (·.2)).getD (checkSymbols data)
  data ++ [(64, c.1), (65, c.2)]

/-- The stored symbols of a row and byte lane change: those of banks by the differences listed. They stay so until a write (R257). -/
def State.setSymbols (s : State) (u row lane : Nat) (errs : List (Nat × Byte)) : State :=
  let d (b : Nat) : Byte := (errs.filter (·.1 == b)).foldl (fun x e => x ^^^ e.2) 0
  let syms := (s.symbols u row lane).map fun e => (e.1, e.2 ^^^ d e.1)
  let s := { s with
    mem := (syms.take 64).foldl (fun m e => Mem.set m (bankKey u row lane e.1) e.2) s.mem
    checks := s.checks.filter (·.1 != (u, row, lane)) }
  let c := (look 0 syms 64, look 0 syms 65)
  if u < 338 ∧ row < 2048 ∧ lane < 16 ∧ c ≠ checkSymbols (syms.take 64) then { s with checks := s.checks ++ [((u, row, lane), c)] } else s

/-- Bytes that reads of a row and byte lane receive, beside those that stand there. -/
def State.upsets (s : State) (u row lane : Nat) (fixed : List (Nat × Byte)) : List (Nat × Byte × Byte) :=
  (fixed.filter (·.1 < 64)).map fun e =>
    let a := bankKey u row lane e.1
    (a, e.2, Mem.get s.mem a)

/-- A bank whose count has reached 16 is marked when fewer than two are; the data core of a cluster gets ECC, after those it still
holds (R258, 13 R325). -/
def State.bankMark (s : State) (u bank : Nat) : State :=
  let cl := s.cluster u
  if look 0 cl.counts bank < 16 || 2 ≤ cl.failed.length || cl.failed.contains bank then s
  else
    let b : BitVec 7 := BitVec.ofNat 7 bank
    let first := cl.fb0 == 0x7F
    let s := s.setCluster u (if first then { cl with fb0 := b } else { cl with fb1 := b })
    if u < 320 then
      s.modCore (u * 9 + 8) fun c => { c with ecc := c.ecc ++ [n64 b ||| bitAt (!first) 7 ||| BitVec.ofNat 64 (u * 256)] }
    else s

/-- CLM_BANK_MARK. -/
def execClmBankMark (clus bank : Nat) (s : State) : Out := .next (s.bankMark clus bank)

/-- A correction in a bank is counted, and may mark it. -/
def State.corrected (s : State) (u : Nat) (counted : Option Nat) : State :=
  let cl := s.cluster u
  match counted with
  | some b =>
    (s.setCluster u { cl with
      counts := Sys2Proof.Machine.put cl.counts b (look 0 cl.counts b + 1)
      corr := if cl.corr = BitVec.allOnes 32 then cl.corr else cl.corr + 1 }).bankMark u b
  | none => s

/-- The bytes that the reads of a step receive wrong stand in memory while it runs. -/
def State.garbled (s : State) : State := { s with mem := s.upset.foldl (fun m e => Mem.set m e.1 e.2.1) s.mem }

/-- After the step every byte that it has not written is what it was. -/
def State.ungarbled (s : State) : State :=
  { s with mem := s.upset.foldl (fun m e => Mem.set m e.1 e.2.2) s.mem, upset := [] }

/-- A step on memory as reads deliver it, with the bytes of `upset` delivered as it says. -/
def State.delivering (s : State) (upset : List (Nat × Byte × Byte)) (f : State → Out) : Out :=
  match f { s with upset := upset }.garbled with
  | .next t => .next t.ungarbled
  | o => o

/-- The codewords of the state that no write has computed, with what their decoder answers. -/
def State.codewords (s : State) : List ((Nat × Nat × Nat) × EccResult) :=
  s.checks.map fun e => (e.1, eccDecode (s.cluster e.1.1).failed (s.symbols e.1.1 e.1.2.1 e.1.2.2))

/-- What the decoders of codewords deliver otherwise than it is stored. -/
def State.deliveries (s : State) (l : List ((Nat × Nat × Nat) × EccResult)) : List (Nat × Byte × Byte) :=
  l.flatMap fun e => match e.2 with
    | .delivered fixed _ => s.upsets e.1.1 e.1.2.1 e.1.2.2 fixed
    | .uncorrectable => []

/-- Whether what a step does depends on the bytes of a codeword: it comes out otherwise when they are delivered otherwise (log 45). -/
def State.readsWord (s : State) (l : List (Nat × Byte × Byte)) (f : State → Out) (w : Nat × Nat × Nat) : Bool :=
  let all := (s.dataSymbols w.1 w.2.1 w.2.2).map fun e =>
    let a := bankKey w.1 w.2.1 w.2.2 e.1
    (a, (look (e.2, e.2) l a).1 ^^^ 0xFF, e.2)
  match s.delivering (l.filter (fun e => !all.any fun x => x.1 == e.1) ++ all) f, s.delivering l f with
  | .next t, .next u => t != u
  | _, _ => true

/-- Where a read's partition fault goes: the partition, and what bits 63:8 of the status hold (13 R330). -/
abbrev Reader := Option (Nat × Part) × BitVec 16

/-- The reads of a core; those of a quadrant's signal box, and those of the station master for a virtual function's job. -/
def State.coreReader (s : State) (k : Nat) : Reader := (s.partOf k, cidOf (k * 8))
def State.boxReader (s : State) (quad : Nat) : Reader := (s.quadPart quad, 0xFFFF)
def State.hostReader (s : State) (vf : Nat) : Reader := (s.jobPart vf, 0xFFFF)

/-- An uncorrectable lane faults the partition it is read for. An uncorrectable CLM lane that a stream reads fits code 1 of R330 and its
code 2: DESIGN CHOICE, a lane that a stream reads in the step has code 2 (log 45). -/
def State.unreadable (s : State) (r : Reader) (strm : Bool) : State :=
  match r.1 with
  | some (i, p) => s.partFault i p (if strm then 2 else 1) r.2
  | none => s

/-- A step whose reads pass through the decoders of R257: a correction is counted, and a read of an uncorrectable lane faults the
partition. A lane is read when the step says so (`State.note`) or when its bytes matter to what the step does. -/
def State.misread (s : State) (r : Reader) (f : State → Out) : Out :=
  if s.checks.isEmpty then f s
  else
    let s := { s with read := [] }
    let ws := s.codewords
    let l := s.deliveries ws
    let out := s.delivering l f
    let noted := match out with | .next t => t.read | _ => []
    let read := ws.filter fun e => noted.any (·.2 == e.1) || s.readsWord l f e.1
    match read.find? (·.2 == .uncorrectable) with
    | some e => .next (s.unreadable r (noted.contains (true, e.1)))
    | none =>
      match out with
      | .next t =>
        .next { read.foldl (fun t e => match e.2 with | .delivered _ c => t.corrected e.1.1 c | .uncorrectable => t) t with read := [] }
      | o => o

/-- CLM_CORR_CLEAR: CYCLE bits 19:0 of an island are zero. -/
def execClmCorrClear (i : Nat) (s : State) : Out :=
  .next (if (s.island i).cycle.extractLsb' 0 20 = 0 then s.clearCorr i else s)

/-- CLMST_READ: CORR is cleared by the read. -/
def execClmstRead (c : Nat) (s : State) : Out :=
  .next (if c < 320 then s.setCluster c { s.cluster c with corr := 0 } else s)

/-! ## Region power (10 R261, R262) -/

/-- REGION_WAKE_DONE: every byte of the region reads as zero (its bytes went at the power-down); the writes that waited for it
are performed. -/
def execRegionWakeDone (clus k : Nat) (s : State) : Out :=
  .next (
    let cl := s.cluster clus
    let r := cl.region k
    if clus < 320 && r.waking then (s.setCluster clus (cl.setRegion k { r with on := true, waking := false })).lateWrites else s)

/-- REGION_POWER_DOWN: a managed region with no holder and no tag. -/
def execRegionPowerDown (clus k : Nat) (s : State) : Out :=
  .next (
    let cl := s.cluster clus
    let r := cl.region k
    if decide (clus < 320 ∧ k < 15) && r.on && r.managed && r.holders.isEmpty && r.tag == 0 then
      { s.setCluster clus (cl.setRegion k { r with on := false, managed := false }) with
        mem := Mem.clear s.mem (clmKey clus (k * 0x20000)) 0x20000
        checks := s.checks.filter fun e => regionOf (bankKey e.1.1 e.1.2.1 e.1.2.2 0) != some (clus, k)
        upset := s.upset.filter fun e => regionOf e.1 != some (clus, k) }
    else s)

/-! ## Code invalidation (R383) -/

/-- A mailbox command is complete: BUSY falls, and the PF's vector is raised (R374). -/
def State.mbDone (s : State) (err : Bool) (result : BitVec 32) : State :=
  { s with dev := { s.dev with mbBusy := false, mbErr := err, mbResult := result, mbCmd := 0 }, msix := s.msix ++ [0] }

/-- The all-core code invalidate: every L1 instruction cache and every fetch buffer is emptied (R383). -/
def State.forgetCode (s : State) : State :=
  { s with
    ctx := { s.ctx with fetched := none }
    ctxs := s.ctxs.map fun e => (e.1, { e.2 with fetched := none })
    core := { s.core with l1i := [] }
    cores := s.cores.map fun e => (e.1, { e.2 with l1i := [] }) }

/-- CODE_INVALIDATE_DONE: every core has dropped what it had fetched; CINV.GO reads 0 and a CODEINV completes. -/
def execCodeInvalidateDone (s : State) : Out :=
  .next (if !s.dev.cinvGo then s
    else
      let s := { s.forgetCode with dev := { s.dev with cinvGo := false } }
      if s.dev.mbBusy && s.dev.mbCmd == 6 then s.mbDone false 0 else s)

/-! ## Monitors (R378, R379) -/

/-- The source value of a monitor of core `k`; link credits, and CLM words that do not exist, are free values (log 21). -/
def State.monSource (s : State) (k : Nat) (m : Word) : Int × State :=
  let c := s.getCore k
  let arg := (m.extractLsb' 12 16).toNat
  let free := s.fresh
  match (m.extractLsb' 28 4).toNat with
  | 1 => (c.inq0.length, s)
  | 2 => (c.inq1.length, s)
  | 3 => (c.freeSlots false, s)
  | 4 => (c.freeSlots true, s)
  | 5 => (c.deque.length, s)
  | 6 => if arg < (if dieOf k < 2 then 5 else 4) then ((free.1.extractLsb' 0 32).toNat, free.2) else (0, s)
  | 7 =>
    if isMesh k || (isGateway k && decide (8 * arg < 0x40000)) then
      (((Mem.word s.mem (aliasKey k (0x1000000000 + 8 * arg))).extractLsb' 0 32).toInt, s)
    else ((free.1.extractLsb' 0 32).toInt, free.2)
  | 8 => (if c.pmcovf.getLsbD arg then 1 else 0, s)
  | _ => (0, s)

/-- Whether a relation holds (R378). -/
def monRel (rel : Nat) (a b : Int) : Bool :=
  match rel with
  | 0 => a == b
  | 1 => a != b
  | 2 => decide (a < b)
  | 3 => decide (a ≤ b)
  | 4 => decide (b < a)
  | _ => decide (b ≤ a)

/-- What a monitor does when it fires. -/
def State.monAct (s : State) (k n : Nat) (act : Nat) : State :=
  match act with
  | 1 => { s with dev := { s.dev with trFrz := true } }
  | 2 => (ctxsOf k).foldl (fun s r => s.modCtx r fun c =>
      if c.phase = .dormant then c else { c with debug := c.debug ||| ((1 : BitVec 8) <<< n) }) s
  | 3 =>
    match s.partOf k with
    | some (_, p) => if p.idle then s else { s with dev := { s.dev with dstops := p.asid :: s.dev.dstops.filter (· != p.asid) } }
    | none => s
  | _ => s

/-- The CLM word that a monitor of core `k` reads, when its source is 7. -/
def monWord (k : Nat) (m : Word) : List Nat :=
  if m.extractLsb' 28 4 = 7 ∧ isMesh k then [aliasKey k (0x1000000000 + 8 * (m.extractLsb' 12 16).toNat)] else []

/-- Monitor `n` of core `k` fires if it is enabled, has not fired and its invariant is false. A CLM word in a region that sleeps is read
after the region's wake (10 R262). -/
def State.monitor (k : Nat) (s : State) (n : Fin 8) : State :=
  let m := (s.getCore k).mon[n]
  if !m.getLsbD 0 || m.getLsbD 1 || m.extractLsb' 28 4 == 0 then s
  else if !s.powered (monWord k m) then s.wakeFor (monWord k m)
  else
    let src := s.monSource k m
    if monRel (m.extractLsb' 9 3).toNat src.1 (m.extractLsb' 32 32).toInt then src.2
    else
      let s := src.2.modCore k fun c => { c with mon := c.mon.set n.val (m ||| 2) n.isLt }
      let v : Word := (BitVec.ofInt 32 src.1 : BitVec 32) ++ BitVec.ofNat 32 (n.val * 2 ^ 16 + (cidOf (k * 8)).toNat)
      (s.record 3 [v]).monAct k n.val (m.extractLsb' 7 2).toNat

/-- The monitors of a core in a cycle, but those that a CSR write of the cycle has written (R379). -/
def State.monitors (s : State) (k : Nat) (skip : List Nat) : State :=
  ((List.finRange 8).filter fun n => !skip.contains n.val).foldl (State.monitor k) s

/-- MONITOR_FIRE: monitor `n` of core `k` is evaluated. -/
def execMonitorFire (k : Nat) (n : BitVec 3) (s : State) : Out := .next (s.monitor k ⟨n.toNat, n.isLt⟩)

/-! ## The sampling pulse (R381) -/

/-- The STATE codes that describe a context: 2 to 6 by what it is, 1 when it waits or its next instruction is held back, 0 when none of
those applies; the spec gives no order among them (log 24). Where the counters leave no room for every instruction, 0 and 1 both
may describe it. -/
def State.sampleCodes (s : State) (r : Nat) : List Nat :=
  let t := s.select r
  let c := t.ctx
  let l := (if c.phase = .waiting then [6] else []) ++ (if c.wd.wdm then [3] else []) ++ (if c.hnd then [5] else []) ++
    (if c.prv = 1 then [4] else []) ++ (if c.rep.act then [2] else []) ++
    (if c.phase = .active && !c.wd.wdm && (c.wait != .none || t.stalled) then [1] else [])
  if !l.isEmpty then l else if t.roomy then [0] else [0, 1]

/-- The sample entry of a context, choosing among its codes by a free value; a weight-driven one shows its WDRUN. -/
def State.sampleEntry (s : State) (r : Nat) (free : Word) : Word :=
  let l := s.sampleCodes r
  let code := l.getD (free.toNat % l.length) 0
  let c := s.getCtx r
  n64 ((if code = 3 then c.wd.rpc else c.pc).extractLsb' 2 50) <<< 3 ||| BitVec.ofNat 64 code

/-- The contexts of a core that are not dormant. -/
def State.live (s : State) (k : Nat) : List Nat := ((s.coreCtxs k).filter fun e => e.2.phase != .dormant).map (·.1)

/-- What a pulse latches of a core: its byte of the bitmap, and the entries of its contexts. -/
def State.latchOf (s : State) (k : Nat) : Byte × List Word :=
  (BitVec.ofNat 8 (((s.live k).map fun r => 2 ^ (r % 8)).sum),
    (s.live k).map fun r => s.sampleEntry r (Config.freeWord (s.free + r)))

/-- The cores of an island latch their contexts, whose cycle in progress holds the tick of the coming pulse (R381). -/
def State.latch (s : State) (cores : List Nat) : State :=
  { s with latched := cores.foldl (fun l k => Sys2Proof.Machine.put l k (s.latchOf k)) s.latched, free := s.free + 8 * Config.masterCore }

/-- The words of a sample record after word 1; a core that has latched nothing stands as it did at the tick. -/
def State.sampleWords (s : State) : List Word :=
  let all := (List.range Config.masterCore).map fun k => (find s.latched k).getD (s.latchOf k)
  BitVec.ofNat 64 Config.masterCore :: wordsOf (all.map (·.1) ++ List.replicate 6 0) ++ all.flatMap (·.2)

/-- The pulse at tick NEXT: a record of the contexts goes into the trace ring, and NEXT moves on (R381). -/
def State.sample (s : State) : State :=
  let at0 := s.dev.pulse
  let per := s.dev.pulsePer.toNat
  let ws := if s.tracing then s.sampleWords else []
  let next : Word := if per = 0 then BitVec.allOnes 64 else at0 + BitVec.ofNat 64 (max 10000 per)
  let r := State.record { s with time := at0 } 2 ws
  { r with time := s.time, latched := [], free := s.free + 8 * Config.masterCore, dev := { r.dev with pulse := next } }

/-- The pulses whose tick is later than `t` and has come; `n` bounds their number. -/
def State.pulses (t : Nat) : Nat → State → State
  | 0, s => s
  | n + 1, s => if t < s.dev.pulse.toNat ∧ s.dev.pulse.toNat ≤ s.time.toNat then State.pulses t n s.sample else s

/-- What the ticks that have passed since `t` bring: the sampling pulses; a period has at least 10,000 ticks. -/
def State.passed (t : Word) (s : State) : State := State.pulses t.toNat ((s.time.toNat - t.toNat) / 10000 + 1) s

/-- SAMPLE_PULSE: the tick is NEXT. -/
def execSamplePulse (s : State) : Out := .next (if s.time = s.dev.pulse then s.sample else s)

end Sys2Proof.Machine
end

