-- ==== Sys2Proof/Machine/Cycle.lean ====
section
/-! DEFINITION. The cycles of an island (16 R365 to R368): what a cycle's end does for the island and for those of its cores that had
no turn in it (R376, R379), the turn of a core, and the supply alarm. -/

namespace Sys2Proof.Machine

open Sys2Proof

/-- The cycle of core `k` ends: replays whose last writes end it (17 R385), core-wide events 1, 3 and 4, what the cycle has counted
otherwise, and the core's monitors (R376, R377, R379); the counters `skip` and the monitors `mons` were written in it. -/
def State.endCycle (s : State) (k : Nat) (skip mons : List Nat) (issued : Bool) : State :=
  let withheld := !(s.island (islandOf k)).mayIssue
  ((s.settleOn 3 k).modCore k fun c =>
    let c := (c.flush skip).pmcCount 1 none skip
    let c := if issued then c else c.pmcCount 3 none skip
    if withheld then c.pmcCount 4 none skip else c).monitors k mons

/-- The cores of an island that have left their reset state; the others count and watch nothing. -/
def State.islandCores (s : State) (i : Nat) : List Nat :=
  (s.k :: (s.cores.map (·.1)).filter (· != s.k)).filter fun k => islandOf k == i

/-- Whether the tick of the coming sampling pulse lies in the cycle of an island in progress, and has not come. -/
def State.pulseIn (s : State) (i : Nat) : Bool :=
  let x := s.island i
  s.tracing && decide (s.time.toNat < s.dev.pulse.toNat) &&
    decide ((s.dev.pulse.toNat - s.time.toNat + s.clock / tickParts) * tickParts < x.now + x.period)

/-- The first turn in a cycle of an island is about to come, or the cycle to end without one: its cores have latched their contexts for
a pulse in it (R381). -/
def State.latchIn (s : State) (i : Nat) : State :=
  if (s.island i).acted.isEmpty && s.pulseIn i then s.latch (s.islandCores i) else s

/-- One cycle of an island ends: the cores that had no turn in it, its count, its droop counters, its period, and the clearing of
correction counts; the time of the package goes on to the start of the next one, if it was not there (log 5). -/
def State.islandCycle (s : State) (i : Nat) : State :=
  let s := s.latchIn i
  let s := ((s.islandCores i).filter fun k => !(s.island i).acted.contains k).foldl (fun s k => s.endCycle k [] [] false) s
  let x := (s.island i).settled
  let x := { x with
    cycle := x.cycle + 1
    now := x.now + x.period
    acted := []
    fell := 0
    cnt0 := x.cnt
    mrg0 := x.mrg
    stepBy := none
    stBy := none
    stretch := x.stretch - (if 1 < x.stretch then 1 else 0)
    window := x.window.map (· + 1) }
  let s := { s.setIsland i x with
    clock := max s.clock x.now
    time := s.time + BitVec.ofNat 64 (max s.clock x.now / tickParts - s.clock / tickParts) }
  if x.cycle.extractLsb' 0 20 = 0 then s.clearCorr i else s

/-- Repeat a change. -/
def iter (f : State → State) : Nat → State → State
  | 0, s => s
  | n + 1, s => iter f n (f s)

/-- The cycles of an island that are over by now end, without a turn of a core in them. -/
def State.catchUp (s : State) (i : Nat) : State :=
  let x := s.island i
  iter (fun s => if (s.island i).now + (s.island i).period ≤ s.clock then s.islandCycle i else s)
    ((s.clock - x.now) / (100 * (tickParts / max 1 x.clock)) + 1) s

/-- The islands whose cycles count: those with a core, a cluster or a register that has left its reset state. -/
def State.liveIslands (s : State) : List Nat :=
  (islandOf s.k :: s.islands.map (·.1) ++ s.cores.map (fun e => islandOf e.1) ++ s.clusters.map fun e => unitIsland e.1).eraseDups

/-- Time has passed since `t`: every island's cycle in progress is one that now lies in, and the sampling pulses have come. -/
def State.keepUp (t : Word) (s : State) : State := State.passed t (s.liveIslands.foldl State.catchUp s)

/-- The cycle of an island in progress ends, and the package goes on to that time. -/
def State.nextCycle (s : State) (i : Nat) : State := State.keepUp s.time (s.islandCycle i)

/-- Some ticks pass. -/
def State.ticks (n : Nat) (s : State) : State :=
  State.keepUp s.time { s with clock := s.clock + n * tickParts, time := s.time + BitVec.ofNat 64 n }

/-- Core `k` has its turn: in the cycle of its island that is in progress, or, when it has had its turn in that one, in the
next. -/
def State.beginTurn (s : State) (k : Nat) : State :=
  let i := islandOf k
  let s := s.catchUp i
  let s := if (s.island i).acted.contains k then s.nextCycle i else s
  let s := s.latchIn i
  s.setIsland i { s.island i with acted := k :: (s.island i).acted }

/-- DROOP_ALARM: the supply of an island is below its threshold at the boundary where a cycle begins. Island 31 is never
stretched (R365). -/
def execDroopAlarm (i : Nat) (s : State) : Out :=
  .next (
    let s := s.catchUp i
    let s := if (s.island i).acted.isEmpty then s else s.nextCycle i
    let x := (s.island i).settled
    if x.fell ≠ 0 then s
    else s.setIsland i (Island.detect (
      if x.stretch ≠ 0 then { x with fell := 2 }
      else { x with fell := 1, ltime := (s.timeAt i).extractLsb' 0 32, stretch := if i = 31 then 0 else 7, window := none })))

end Sys2Proof.Machine
end

