-- ==== Sys2Proof/Machine/Boot.lean ====
section
/-! DEFINITION. Power-on, the boot, Safe Mode, recovery, device reset, attestation and the mailbox commands
(16 R371 to R375, R382, R383, 15 R352). -/

namespace Sys2Proof.Machine

open Sys2Proof

/-! ## The firmware manifest (R371, R372) -/

/-- The little-endian number of `n` bytes of a list at an offset; bytes beyond the list read as 0. -/
def fieldOf (l : List Byte) (off n : Nat) : Nat := leNat ((List.range n).map fun i => l.getD (off + i) 0)

def sliceOf (l : List Byte) (off n : Nat) : List Byte := (List.range n).map fun i => l.getD (off + i) 0

/-- Number of images of a manifest. -/
def nimg (l : List Byte) : Nat := fieldOf l 0x0C 4

/-- Whether the fields of a manifest hold the values stated for them. -/
def layoutOk (l : List Byte) : Bool :=
  fieldOf l 0 4 == 0x5A474D31 && fieldOf l 4 4 == 1 && decide (1 ≤ nimg l ∧ nimg l ≤ 16) &&
    (sliceOf l 0x10 48).all (· == 0) && (List.range (nimg l)).all fun n => fieldOf l (0x40 + 64 * n + 0x18) 8 == 0

/-- The public key and the place of the signature. -/
def keyOf (l : List Byte) : List Byte := sliceOf l (0x40 + 64 * nimg l) 1312
def sigAt (l : List Byte) : Nat := 0x40 + 64 * nimg l + 1312

/-- Image `n`: its LOAD address, its bytes, its DIGEST. -/
def imageOf (l : List Byte) (n : Nat) : Nat × List Byte × Nat :=
  let e := 0x40 + 64 * n
  (fieldOf l (e + 0x10) 8, sliceOf l (fieldOf l (e + 8) 8) (fieldOf l (e + 4) 4), fieldOf l (e + 0x20) 32)

/-- The first image whose digest does not match. -/
def badImage (l : List Byte) : Option Nat :=
  (List.range (nimg l)).find? fun n => (Config.sha3 (imageOf l n).2.1).toNat != (imageOf l n).2.2

/-- Steps 1 to 4 with the rollback counter: the failing step, its CODE, and the image index when one is at fault. -/
def manifestFault (rollback : Nat) (l : List Byte) : Option (Nat × Nat × Option Nat) :=
  if !layoutOk l then some (1, 2, none)
  else if Config.sha3 (keyOf l) ≠ Config.fuseKeyHash then some (2, 1, none)
  else if !Config.mlDsaVerify (keyOf l) (l.take (sigAt l)) (sliceOf l (sigAt l) 2420) then some (2, 1, none)
  else if fieldOf l 8 4 < rollback then some (3, 1, none)
  else
    match badImage l with
    | some n => some (4, 1, some n)
    | none => none

/-- The first `n` images of a manifest in memory. -/
def State.placeImages (s : State) (l : List Byte) (n : Nat) : State :=
  s.homeStore ((List.range n).flatMap fun i =>
    (cellsAt (imageOf l i).1 (imageOf l i).2.1).filter fun c => isHbmKey c.1 || isClmKey c.1)

/-- The images of a manifest in memory, and their digests and the manifest's as measured (R375). -/
def State.loadImages (s : State) (l : List Byte) : State :=
  let s := s.placeImages l (nimg l)
  { s with dev := { s.dev with
      measures := Config.sha3 (l.take (sigAt l)) :: (List.range (nimg l)).map fun i => Config.sha3 (imageOf l i).2.1 } }

/-! ## Boot -/

/-- The fused rollback counter: as the part came, and what the station master firmware has added (R372). -/
def State.rollback (s : State) : Nat := Config.fuseRollback.toNat + s.dev.svnUp

/-- The failure record (R373). -/
def State.safeMode (s : State) (stage code unit : Nat) (detail : Word) : State :=
  { s with dev := { s.dev with
      mode := 2
      failrec := #v[BitVec.ofNat 64 (unit % 2 ^ 16 * 2 ^ 16 + code % 256 * 256 + stage % 256), detail, s.time, 0, 0, 0, 0, 0] } }

/-- Mark the banks that memory BIST finds failed, those that are not marked yet while fewer than two are (10 R258). -/
def State.markBanks (s : State) : List (Nat × Nat) → State
  | [] => s
  | (u, b) :: r =>
    let cl := s.cluster u
    let cl := if cl.failed.contains b then cl
      else if cl.fb0 = 0x7F then { cl with fb0 := BitVec.ofNat 7 b }
      else if cl.fb1 = 0x7F then { cl with fb1 := BitVec.ofNat 7 b }
      else cl
    State.markBanks (s.setCluster u cl) r

/-- A CLM with more than two failed banks, marked ones included. -/
def State.tooMany (s : State) (l : List (Nat × Nat)) : Option (Nat × Nat) :=
  l.find? fun e =>
    decide (2 < ((s.cluster e.1).failed ++ (l.filter fun x => x.1 == e.1).map (·.2)).eraseDups.length)

/-- The failure of memory BIST or of a later step, as the boot finds it: stage, unit, detail. -/
def State.bootFault (s : State) (r : BootResult) : Option (Nat × Nat × Word) :=
  match s.tooMany r.marked with
  | some (u, b) => some (5, u, BitVec.ofNat 64 b)
  | none =>
    match r.fail with
    | some e => if 5 ≤ e.1 ∧ e.1 ≤ 7 then some e else none
    | none => none

/-- Step 6 and 7 for what does not stop the boot: the ports left down, which the ready record reports, and the thresholds that the
firmware writes to every DRPTH. -/
def State.train (s : State) (r : BootResult) : State :=
  r.steps.foldl (fun s e => if e.2 = 0 then s else s.setIsland e.1 { s.island e.1 with step := e.2 })
    { s with dev := { s.dev with down := r.down } }

/-- Steps 5 to 7: BIST, whose marks last, training, and the firmware's first writes. -/
def State.bringUp (s : State) (r : BootResult) : State :=
  let fault := s.bootFault r
  let s := s.markBanks r.marked
  match fault with
  | some (stage, unit, detail) =>
    let s := if stage = 7 then { s with dev := { s.dev with down := r.down } } else s
    s.safeMode stage 1 unit detail
  | none =>
    let s := s.train r
    let size := if 1 ≤ r.domsize ∧ r.domsize ≤ 320 then r.domsize else 1
    let num := if r.devnum < size then r.devnum else 0
    { s with dev := { s.dev with domsize := BitVec.ofNat 9 size, devnum := BitVec.ofNat 9 num, mode := 1 } }

/-- Steps 1 to 7 on an image; `stage` is what a failure of steps 1 to 4 records for its step. An image is loaded before it is
checked. The DETAIL of a check that concerns no image is a free value (log 21). -/
def State.boot (s : State) (img : List Byte) (stage : Nat → Nat) (r : BootResult) : State :=
  match manifestFault s.rollback img with
  | some (n, code, d) =>
    let f := s.fresh
    match d with
    | some i => (f.2.placeImages img (i + 1)).safeMode (stage n) code 0xFFFF (BitVec.ofNat 64 i)
    | none => f.2.safeMode (stage n) code 0xFFFF f.1
  | none => (s.loadImages img).bringUp r

/-- POWER_ON: the boot ROM runs, once after a power-on or a device reset. -/
def execPowerOn (r : BootResult) (s : State) : Out :=
  .next (if s.dev.mode = 0 then s.boot Config.flash id r else s)

/-! ## Mailbox commands (R374) -/

/-- A word of MBDATA. -/
def State.mbWord (s : State) (off : Nat) : Word := BitVec.ofNat 64 (fieldOf s.dev.mbdata.toList off 8)

/-- The modes in which a command may be issued. -/
def mbModes (code : Nat) : List Nat := if code = 9 then [1, 2] else if code = 4 ∨ code = 5 then [2] else [1]

/-- A write of a command code to MBCMD: ignored while BUSY; RESULT 1 for an unallocated code, RESULT 2 in a mode that does not have
the command; else the command is in progress, with the ASID of a DSTOP as MBDATA has it. -/
def State.mbStart (s : State) (code : Nat) : State :=
  if s.dev.mbBusy then s
  else if code < 1 ∨ 9 < code then s.mbDone true 1
  else if !(mbModes code).contains s.dev.mode.toNat then s.mbDone true 2
  else { s with dev := { s.dev with
    mbBusy := true, mbCmd := BitVec.ofNat 8 code, mbAsid := if code = 7 then (s.mbWord 0x10).extractLsb' 0 16 else s.dev.mbAsid } }

/-- Whether a command that has been written waits for what the station master finds or chooses (BINDVF, BISTRUN, RECOVER). -/
def State.mbWaits (s : State) (code : Nat) : Bool :=
  s.dev.mbBusy && s.dev.mbCmd == BitVec.ofNat 8 code && (code == 1 || code == 4 || code == 5)

/-- The command `code`, when it waits, or else as it is written to MBCMD now: its work `k`, unless it is turned away. -/
def State.mailbox (s : State) (code : Nat) (k : State → State) : State :=
  if s.mbWaits code then k s
  else if s.dev.mbBusy then s
  else
    let t := s.mbStart code
    if t.dev.mbBusy then k t else t

/-- BINDVF: the station master fixes the window base, 1 GiB aligned in HBM (15 R352, R355). -/
def execBindvf (base : Nat) (s : State) : Out :=
  .next (s.mailbox 1 fun s =>
    let vf := (s.mbWord 0x10).toNat
    let asid := (s.mbWord 0x18).extractLsb' 0 16
    if vf < 1 ∨ 16 < vf ∨ base % 2 ^ 30 ≠ 0 ∨ !isHbmKey base then s.mbDone true 3
    else
      ((s.setVf vf { s.vf vf with bound := true, asid := asid, window := base }).setJob (s.jobOr asid.toNat)).mbDone false 0)

/-- UNBINDVF: the VF serves no job and its queues are gone. -/
def State.unbindvf (s : State) : State :=
  let vf := (s.mbWord 0x10).toNat
  if vf < 1 ∨ 16 < vf then s.mbDone true 3
  else State.mbDone { s.setVf vf { s.vf vf with bound := false, asid := 0 } with hqueues := s.hqueues.filter (·.vf != vf) } false 0

def execUnbindvf (s : State) : Out := .next (s.mailbox 2 State.unbindvf)

/-- The attestation report before its signature (R375). -/
def State.report (s : State) : List Byte :=
  leBytes 4 0x5A474154 ++ leBytes 4 1 ++ leBytes 4 s.dev.devnum.toNat ++ leBytes 4 (2 + s.dev.measures.length) ++
    leBytes 16 Config.fuseSerial.toNat ++ sliceOf s.dev.mbdata.toList 0x10 32 ++ leBytes 8 s.time.toNat ++
    List.replicate 24 0 ++
    (Config.measureRom :: Config.measureFuses :: s.dev.measures).flatMap fun m => leBytes 32 m.toNat

/-- The device identity key: KeyGen from SHA3-256(device secret ‖ KEYHASH); the public and the private key (R375). -/
def identityKey : List Byte × List Byte :=
  Config.mlDsaKeyGen (Config.sha3 (leBytes 32 Config.deviceSecret.toNat ++ leBytes 32 Config.fuseKeyHash.toNat))

/-- ATTEST: the report, signed with the private key. -/
def State.attest (s : State) : State :=
  let r := s.report ++ (Config.mlDsaSign identityKey.2 s.report).toList
  State.mbDone { s with dev := { s.dev with stage := Mem.setAll s.dev.stage (cellsAt 0 r) } } false (BitVec.ofNat 32 r.length)

def execAttest (s : State) : Out := .next (s.mailbox 3 State.attest)

/-- BISTRUN: step 5 again, a failure of which is a failed check (log 43). After a pass the mode is still 2: the record's zeros stand
(R373), and what its other fields hold is free (log 21). -/
def execBistrun (r : BootResult) (s : State) : Out :=
  .next (s.mailbox 4 fun s =>
    let fault := s.bootFault r
    let s := s.markBanks r.marked
    match fault with
    | some (_, unit, detail) => (s.safeMode 5 1 unit detail).mbDone true 3
    | none =>
      let w (i : Nat) : Word := Config.freeWord (s.free + i)
      State.mbDone { s with
        dev := { s.dev with failrec := #v[w 0 &&& 0xFFFFFFFF, w 1, w 2, 0, 0, 0, 0, 0] }
        free := s.free + 3 } false 0)

/-- RECOVER: the boot of the image in the staging area; a failing check of it records stage 8. -/
def execRecover (r : BootResult) (s : State) : Out :=
  .next (s.mailbox 5 fun s =>
    let t := s.boot (Mem.bytes s.dev.stage 0 0x100000) (fun _ => 8) r
    if t.dev.mode = 1 then t.mbDone false 0 else t.mbDone true 3)

/-- CODEINV starts the all-core code invalidate (R383). -/
def State.codeinv (s : State) : State := { s with dev := { s.dev with cinvGo := true } }

def execCodeinv (s : State) : Out := .next (s.mailbox 6 State.codeinv)

/-- Whether no context of a job is active; a delivered tile, or an activation that waits for registers, is not. -/
def State.jobStopped (s : State) (asid : Nat) : Bool :=
  s.parts.all fun e => e.2.idle || e.2.asid != asid || (s.partCtxs e.2).all fun r => (s.getCtx r).phase != .active

/-- A DSTOP in progress completes when its job is stopped. -/
def State.dstopDone (s : State) : State :=
  if s.dev.mbBusy && s.dev.mbCmd == 7 && s.jobStopped s.dev.mbAsid.toNat then s.mbDone false 0 else s

/-- DSTOP: no activation of the job starts; it completes when the job is stopped (R382). -/
def State.dstop (s : State) : State :=
  let asid := s.dev.mbAsid.toNat
  if (s.job asid).isNone then s.mbDone true 3
  else { s with dev := { s.dev with dstops := asid :: s.dev.dstops.filter (· != asid) } }

def execDstop (s : State) : Out := .next (s.mailbox 7 State.dstop).dstopDone

/-- DRESUME ends a debug stop. -/
def State.dresume (s : State) : State :=
  let asid := ((s.mbWord 0x10).extractLsb' 0 16).toNat
  if (s.job asid).isNone then s.mbDone true 3
  else State.mbDone { s with dev := { s.dev with dstops := s.dev.dstops.filter (· != asid) } } false 0

def execDresume (s : State) : Out := .next (s.mailbox 8 State.dresume)

/-- RESET: a device reset. TIME, which counts from power-on, the fuses, memory and what lies outside the device keep their values. -/
def State.deviceReset (s : State) : State :=
  { State.reset with
    time := s.time, mem := s.mem, checks := s.checks, hostMem := s.hostMem, sent := s.sent, msix := s.msix, nextId := s.nextId, free := s.free,
    agenda := s.agenda, dev := { Device.reset with svnUp := s.dev.svnUp } }

def execReset (s : State) : Out := .next (s.mailbox 9 State.deviceReset)

/-- The command written to MBCMD; one that waits for the station master goes on by its own event. -/
def State.mbCommand (s : State) (code : Nat) : State :=
  match code with
  | 2 => s.mailbox 2 State.unbindvf
  | 3 => s.mailbox 3 State.attest
  | 6 => s.mailbox 6 State.codeinv
  | 7 => (s.mailbox 7 State.dstop).dstopDone
  | 8 => s.mailbox 8 State.dresume
  | 9 => s.mailbox 9 State.deviceReset
  | _ => s.mbStart code

/-- The host writes PF BAR0: MBCMD, MBDATA, the staging area. -/
def State.mailboxWrite (s : State) (off : Nat) (l : List Byte) : State :=
  if off = 0 then s.mbCommand (l.getD 0 0).toNat
  else if 0x10 ≤ off ∧ off + l.length ≤ 0x100 then
    { s with dev := { s.dev with
      mbdata := Vector.ofFn fun i : Fin 256 =>
        if off ≤ i.val ∧ i.val < off + l.length then l.getD (i.val - off) 0 else s.dev.mbdata[i] } }
  else if 0x100000 ≤ off ∧ off + l.length ≤ 0x200000 then
    { s with dev := { s.dev with stage := Mem.setAll s.dev.stage (cellsAt (off - 0x100000) l) } }
  else s

/-- MBSTAT (R374). -/
def Device.mbstat (d : Device) : Word :=
  n64 d.mbResult <<< 32 ||| n64 d.mode <<< 8 ||| bitAt d.mbErr 1 ||| bitAt d.mbBusy 0

/-- What the host reads at a byte offset of PF BAR0: MBSTAT, MBDATA, the failure record, the staging area; 0 elsewhere. -/
def Device.mailboxByte (d : Device) (off : Nat) : Byte :=
  if 8 ≤ off ∧ off < 0x10 then d.mbstat.extractLsb' (8 * (off - 8)) 8
  else if h : 0x10 ≤ off ∧ off < 0x100 then d.mbdata[off]'(by omega)
  else if 0x100 ≤ off ∧ off < 0x140 then (d.failrec.toList.getD ((off - 0x100) / 8) 0).extractLsb' (8 * (off % 8)) 8
  else if 0x100000 ≤ off ∧ off < 0x200000 then Mem.get d.stage (off - 0x100000)
  else 0

end Sys2Proof.Machine
end

