-- ==== Sys2Proof/Machine/Loader.lean ====
section
/-! DEFINITION. The Girad loader and the Obpen translator (19 R390 to R400, R403, R404; 10 R268, R269). -/

namespace Sys2Proof.Machine

open Sys2Proof

/-- A failure: CODE and INDEX of the load status (R398). -/
abbrev LoadFail := Nat × Nat

def noIndex : Nat := 0xFFFFFFFF

/-- A rule of the object; the failure when it does not hold. -/
def rule (ok : Bool) (code index : Nat) : Except LoadFail Unit := if ok then .ok () else .error (code, index)

/-! ## The object (R390 to R394) -/

/-- A section table entry (R391). -/
structure Section where
  kind   : Nat
  zero   : Nat
  foff   : Nat
  voff   : Nat
  size   : Nat
  fbytes : Nat
  deriving DecidableEq, Repr

/-- A symbol (R393). -/
structure Sym where
  value : Nat
  sec   : Nat
  bind  : Nat
  type  : Nat
  got   : Nat
  name  : List Byte
  deriving DecidableEq, Repr

/-- A relocation (R394). -/
structure Reloc where
  site : Nat
  sym  : Nat
  type : Nat
  zero : Nat
  add  : Word
  deriving DecidableEq, Repr

/-- An object: its bytes, sections, symbols and relocations. -/
structure Girad where
  bytes : List Byte
  secs  : List Section
  syms  : List Sym
  rels  : List Reloc
  deriving DecidableEq, Repr

def sectionAt (l : List Byte) (i : Nat) : Section :=
  let o := fieldOf l 0x18 8 + 32 * i
  ⟨fieldOf l o 1, fieldOf l (o + 1) 3, fieldOf l (o + 4) 4, fieldOf l (o + 8) 8, fieldOf l (o + 0x10) 8, fieldOf l (o + 0x18) 8⟩

def symAt (l : List Byte) (o : Nat) : Sym :=
  ⟨fieldOf l o 8, fieldOf l (o + 8) 2, fieldOf l (o + 0xA) 1, fieldOf l (o + 0xB) 1, fieldOf l (o + 0xC) 4, sliceOf l (o + 0x10) 16⟩

def relocAt (l : List Byte) (o : Nat) : Reloc :=
  ⟨fieldOf l o 8, fieldOf l (o + 8) 4, fieldOf l (o + 0xC) 1, fieldOf l (o + 0xD) 3, BitVec.ofNat 64 (fieldOf l (o + 0x10) 8)⟩

/-- The section of a kind. -/
def findSec (l : List Section) (kind : Nat) : Option Section := l.find? (·.kind == kind)

/-- Read an object's tables. -/
def girad (l : List Byte) : Girad :=
  let secs := (List.range (fieldOf l 0x0C 4)).map (sectionAt l)
  let tab (kind n : Nat) : List Nat :=
    match findSec secs kind with
    | some s => (List.range (s.fbytes / n)).map fun i => s.foff + n * i
    | none => []
  ⟨l, secs, (tab 6 32).map (symAt l), (tab 7 24).map (relocAt l)⟩

/-- A loaded kind (R392). -/
def loadedKind (k : Nat) : Bool := 1 ≤ k && k ≤ 5

/-- Round up to 4 KiB. -/
def pageUp (n : Nat) : Nat := (n + 4095) / 4096 * 4096

/-- The image size. -/
def Girad.size (g : Girad) : Nat :=
  pageUp (((g.secs.filter (loadedKind ·.kind)).map fun s => s.voff + s.size).foldl max 0)

/-- A byte of a section in memory, before relocation. -/
def Girad.byte (g : Girad) (s : Section) (o : Nat) : Byte := if o < s.fbytes then g.bytes.getD (s.foff + o) 0 else 0

/-- The loaded section that wholly contains `n` bytes at an image offset. -/
def Girad.secAt (g : Girad) (site n : Nat) : Option Section :=
  g.secs.find? fun s => loadedKind s.kind && decide (s.voff ≤ site ∧ site + n ≤ s.voff + s.size)

/-- The little-endian number of `n` bytes at an offset of a section. -/
def Girad.num (g : Girad) (s : Section) (o n : Nat) : Nat := leNat ((List.range n).map fun i => g.byte s (o + i))

/-! ## Steps 1 and 2 -/

/-- The header (R397 step 1). -/
def headerCheck (l : List Byte) : Except LoadFail Unit :=
  let pbase : Word := BitVec.ofNat 64 (fieldOf l 0x10 8)
  match rule (fieldOf l 0 4 == 0x44524947) 1 noIndex with
  | .error e => .error e
  | .ok _ =>
    match rule (fieldOf l 4 2 == 2 && fieldOf l 6 2 == 0) 2 noIndex with
    | .error e => .error e
    | .ok _ =>
      rule (fieldOf l 8 4 == 0 && (sliceOf l 0x28 24).all (· == 0) &&
        decide (1 ≤ fieldOf l 0x0C 4 ∧ fieldOf l 0x0C 4 ≤ 8) && canonical pbase && pbase.toNat % 4096 == 0 &&
        fieldOf l 0x18 8 % 8 == 0 && fieldOf l 0x20 8 == l.length) 3 noIndex

/-- An Obpen entry (R403). -/
structure ObEnt where
  mtype : Nat
  vn    : Nat
  place : Nat
  sym   : Nat
  state : Nat
  maxpl : Nat
  zero  : Bool
  deriving DecidableEq, Repr

def obEntAt (l : List Byte) (o : Nat) : ObEnt :=
  ⟨fieldOf l o 2, fieldOf l (o + 2) 1, fieldOf l (o + 3) 1, fieldOf l (o + 4) 4, fieldOf l (o + 8) 4, fieldOf l (o + 0xC) 4,
    (sliceOf l (o + 0x10) 16).all (· == 0)⟩

def Girad.obpen (g : Girad) : List ObEnt :=
  match findSec g.secs 8 with
  | some s => (List.range (s.fbytes / 32)).map fun i => obEntAt g.bytes (s.foff + 32 * i)
  | none => []

/-- The rules of an Obpen table. -/
def Girad.obpenOk (g : Girad) : Bool :=
  let l := g.obpen
  l.all (fun e => e.mtype != 0 && e.vn ≤ 1 && e.place ≤ 3 && e.state % 64 == 0 && decide (e.state ≤ 0x10000) &&
    decide (e.maxpl ≤ 256) && e.zero && (match g.syms[e.sym]? with | some y => y.type == 3 + e.vn | none => false)) &&
    decide ((l.map (·.mtype)).Nodup)

/-- Whether section `i` obeys R391 and R392. -/
def Girad.secOk (g : Girad) (i : Nat) (s : Section) : Bool :=
  let ld := loadedKind s.kind
  decide (1 ≤ s.kind ∧ s.kind ≤ 8) && s.zero == 0 && !((g.secs.take i).any (·.kind == s.kind)) &&
    (if ld then s.voff % 4096 == 0 else s.voff == 0) && decide (s.fbytes ≤ s.size) &&
    decide (s.foff + s.fbytes ≤ fieldOf g.bytes 0x20 8) &&
    !(ld && (g.secs.take i).any fun t => loadedKind t.kind &&
      decide (s.voff < t.voff + pageUp t.size ∧ t.voff < s.voff + pageUp s.size)) &&
    (s.kind != 8 || g.obpenOk)

/-- The first element of a list, by place, that a rule refuses. -/
def firstBad {α : Type} (f : Nat → α → Except LoadFail Unit) : Nat → List α → Except LoadFail Unit
  | _, [] => .ok ()
  | i, x :: r =>
    match f i x with
    | .error e => .error e
    | .ok _ => firstBad f (i + 1) r

/-! ## Step 3 -/

/-- Whether an address range lies in one canonical half. -/
def rangeCanonical (b n : Nat) : Bool := decide (b + n ≤ 2 ^ 51) || decide (2 ^ 64 - 2 ^ 51 ≤ b ∧ b + n ≤ 2 ^ 64)

/-- Whether a range is free of CLM aliases, bound windows, range entries and mapped pages. -/
def State.rangeFree (s : State) (sp : Space) (b n : Nat) : Bool :=
  !meets b n 0x1000000000 0x200000 && !meets b n 0x2000000000 0x28000000 &&
    !(((List.range 16).filterMap (s.windowRec sp)).any fun w => meets b n w.wva.toNat (w.n * w.sz)) &&
    !((List.range (s.rangeEnd sp)).any fun i =>
      let e := s.rangeEnt sp i
      let lo := (e.w0 &&& 0xFFFFFFFFFFFFF000).toNat
      e.w3.getLsbD 0 && meets b n lo ((e.w1 &&& 0xFFFFFFFFFFFFF000).toNat - lo)) &&
    (List.range (n / 4096)).all fun i =>
      match s.pageWalk sp.asd (BitVec.ofNat 64 (b + 4096 * i)) with
      | .ok _ => false
      | .error _ => true

/-! ## Step 4 -/

/-- The value of a symbol at base `b`. -/
def Girad.symVal (g : Girad) (b : Nat) (y : Sym) (ext : List Symbol) : Option Word :=
  if y.bind = 2 then (ext.find? (·.name == y.name)).map (·.value)
  else if y.sec = 0xFFFF then some (BitVec.ofNat 64 y.value)
  else (g.secs[y.sec]?).map fun s => BitVec.ofNat 64 (b + s.voff + y.value)

/-- The rules of symbol `i`. -/
def Girad.symCheck (g : Girad) (ext : List Symbol) (i : Nat) (y : Sym) : Except LoadFail Unit :=
  let inSec := match g.secs[y.sec]? with | some s => loadedKind s.kind && decide (y.value ≤ s.size) | none => false
  let secOk := if y.bind = 2 then y.sec == 0xFFFE else y.sec == 0xFFFF || inSec
  let gotOk := y.got == noIndex ||
    (!((g.syms.take i).any (·.got == y.got)) &&
      (match findSec g.secs 5 with | some s => decide (8 * y.got + 8 ≤ s.size) | none => false))
  match rule (decide (y.bind ≤ 2) && decide (y.type ≤ 5) && secOk && gotOk) 6 i with
  | .error e => .error e
  | .ok _ =>
    match rule (y.bind != 2 || ext.any (·.name == y.name)) 7 i with
    | .error e => .error e
    | .ok _ => rule (y.bind != 1 || !(ext.any (·.name == y.name))) 8 i

/-! ## Step 5 (R396) -/

/-- A patch: image offset, bits from it on (`lo`, `n`), value. -/
structure Patch where
  site : Nat
  lo   : Nat
  n    : Nat
  val  : Nat
  deriving DecidableEq, Repr

/-- The forms LO12 accepts: major opcode and fn3. -/
def lo12Form (op fn3 : Nat) : Bool :=
  (op == 0x02 && fn3 ≤ 4) || op == 0x12 || (0x18 ≤ op && op ≤ 0x1B) || op == 0x38 || (op == 0x59 && fn3 ≤ 2) || op == 0x5C ||
    op == 0x5D || op == 0x70 || op == 0x71 || op == 0x74

/-- Whether a number fits a signed field of 32 bits. -/
def fits32 (v : Int) : Bool := decide (-(2 ^ 31 : Int) ≤ v ∧ v < 2 ^ 31)

/-- What a relocation of a type does at its site: the field and the value, or why not. -/
def Girad.patch (g : Girad) (i : Nat) (r : Reloc) (s : Word) (b : Nat) (gslot : Option Word) : Except LoadFail Patch :=
  let bad : Except LoadFail Patch := .error (11, i)
  let range : Except LoadFail Patch := .error (9, i)
  let p : Word := BitVec.ofNat 64 (b + r.site)
  let sa : Word := s + r.add
  let text (len : Nat) : Option (Nat × Nat × Nat) :=
    match g.secAt r.site (4 * len) with
    | some sec =>
      if sec.kind = 1 ∧ r.site % 4 = 0 then
        let g0 := g.num sec (r.site - sec.voff) 4
        let g1 := g.num sec (r.site - sec.voff + 4) 4
        if g0 % 4 + 1 = len then some (g0 / 4 % 128, g0 / 512 % 8, g1 % 2) else none
      else none
    | none => none
  let data (n : Nat) : Bool :=
    match g.secAt r.site n with
    | some sec => (sec.kind == 2 || sec.kind == 3) && r.site % n == 0
    | none => false
  match r.type with
  | 1 =>
    match text 4 with
    | some (op, fn3, _) => if op = 0x06 ∧ fn3 = 0 then .ok ⟨r.site, 64, 64, sa.toNat⟩ else bad
    | none => if data 8 then .ok ⟨r.site, 0, 64, sa.toNat⟩ else bad
  | 2 => if data 4 then (if 0 ≤ sa.toInt ∧ sa.toInt ≤ 0xFFFFFFFF then .ok ⟨r.site, 0, 32, sa.toNat⟩ else range) else bad
  | 3 =>
    match text 2 with
    | some (op, fn3, _) =>
      if op = 0x04 ∧ fn3 = 0 then
        let v := (sa + 0x800).toInt / 4096
        if -0x80000 ≤ v ∧ v ≤ 0x7FFFF then .ok ⟨r.site, 44, 20, (BitVec.ofInt 20 v).toNat⟩ else range
      else bad
    | none => bad
  | 4 =>
    match text 2 with
    | some (op, fn3, _) => if lo12Form op fn3 then .ok ⟨r.site, 52, 12, sa.toNat % 4096⟩ else bad
    | none => bad
  | 5 =>
    match text 3 with
    | some (op, fn3, pcb) =>
      let v := (sa - p).toInt
      if op = 0x05 ∧ fn3 = 1 ∧ pcb = 1 then
        (if fits32 v then .ok ⟨r.site, 64, 32, (BitVec.ofInt 32 v).toNat⟩ else range)
      else if op = 0x13 ∧ fn3 = 0 then
        (if v % 4 ≠ 0 then .error (10, i)
         else if fits32 (v / 4) then .ok ⟨r.site, 64, 32, (BitVec.ofInt 32 (v / 4)).toNat⟩ else range)
      else bad
    | none => bad
  | 6 =>
    match text 3, gslot with
    | some (op, fn3, pcb), some gs =>
      let v := (gs + r.add - p).toInt
      if op = 0x05 ∧ fn3 = 1 ∧ pcb = 1 then
        (if fits32 v then .ok ⟨r.site, 64, 32, (BitVec.ofInt 32 v).toNat⟩ else range)
      else bad
    | _, _ => bad
  | _ => bad

/-- The address of a symbol's GOT slot. -/
def Girad.gotSlot (g : Girad) (b : Nat) (y : Sym) : Option Word :=
  if y.got = noIndex then none else (findSec g.secs 5).map fun s => BitVec.ofNat 64 (b + s.voff + 8 * y.got)

/-- Relocations in table order. -/
def Girad.patches (g : Girad) (b : Nat) (ext : List Symbol) : Nat → List Reloc → Except LoadFail (List Patch)
  | _, [] => .ok []
  | i, r :: rest =>
    match g.syms[r.sym]? with
    | none => .error (11, i)
    | some y =>
      if r.zero ≠ 0 then .error (11, i)
      else
        match g.symVal b y ext with
        | none => .error (11, i)
        | some v =>
          match g.patch i r v b (g.gotSlot b y) with
          | .error e => .error e
          | .ok p =>
            match g.patches b ext (i + 1) rest with
            | .error e => .error e
            | .ok ps => .ok (p :: ps)

/-! ## Steps 6 to 8 -/

/-- Write a patch into memory where the image stands at `pa`: only its field changes. -/
def Patch.apply (pa : Nat) (m : List Host.Cell) (p : Patch) : List Host.Cell :=
  let a := pa + p.site
  let n := (p.lo + p.n + 7) / 8
  let old := leNat (Mem.bytes m a n)
  let lo := old % 2 ^ p.lo
  Mem.setAll m (cellsOf a n (lo + p.val * 2 ^ p.lo + old / 2 ^ (p.lo + p.n) * 2 ^ (p.lo + p.n)))

/-- The bytes of the loaded sections at `pa`. -/
def Girad.image (g : Girad) (pa : Nat) : List Host.Cell :=
  (g.secs.filter (loadedKind ·.kind)).flatMap fun s =>
    (List.range (pageUp s.size)).map fun o => (pa + s.voff + o, if o < s.size then g.byte s o else 0)

/-- The GOT at `pa`: each slot the value of the symbol that names it, 0 where none does. -/
def Girad.gotCells (g : Girad) (pa b : Nat) (ext : List Symbol) : List Host.Cell :=
  match findSec g.secs 5 with
  | none => []
  | some s => (List.range (s.size / 8)).flatMap fun i =>
      let v := match g.syms.find? (·.got == i) with
        | some y => (g.symVal b y ext).getD 0
        | none => 0
      cellsOf (pa + s.voff + 8 * i) 8 v.toNat

/-- The physical address of a device-local one: the device's number is in bits 51:43 (10 R254). -/
def State.physOf (s : State) (a : Nat) : Nat := s.dev.devnum.toNat * 2 ^ 43 + a

/-- The entry of a page at a physical address: permissions RD, W, X, WX of a loaded kind as bits 3 to 6 (R392, 10 R268), with U and V. -/
def pteOf (kind pa : Nat) : Nat :=
  pa + 0x81 + (match kind with | 1 => 0x20 | 2 => 0x08 | 3 => 0x18 | 4 => 0x40 | _ => 0x08)

/-- Install the leaf of a page below the entry at `a`, allocating tables; `lvl` is the level of that entry, and `dev` the physical address
of the device's own memory. -/
def installPage (dev : Nat) (m : List Host.Cell) (tabs : List Nat) (va pte : Nat) : Nat → Nat → Option (List Host.Cell × List Nat)
  | 0, a => some (Mem.setAll m (cellsOf a 8 pte), tabs)
  | lvl + 1, a =>
    let e := Mem.word m a
    let idx := va / 2 ^ (12 + 9 * lvl) % 512
    if e.getLsbD 0 then installPage dev m tabs va pte lvl ((e.extractLsb' 12 31).toNat * 4096 + 8 * idx)
    else
      match tabs with
      | [] => none
      | t :: r =>
        installPage dev (Mem.setAll (Mem.clear m t 4096) (cellsOf a 8 (dev + t + 1))) r va pte lvl (t + 8 * idx)

/-- Install pages: (address, entry). -/
def installPages (dev root : Nat) : List Host.Cell → List Nat → List (Nat × Nat) → Option (List Host.Cell)
  | m, _, [] => some m
  | m, tabs, (va, pte) :: r =>
    match installPage dev m tabs va pte 3 (root + 8 * (va / 2 ^ 39 % 2 ^ 13)) with
    | some (m, tabs) => installPages dev root m tabs r
    | none => none

/-- The pages of the loaded sections and their entries. -/
def Girad.pages (g : Girad) (b pa : Nat) : List (Nat × Nat) :=
  (g.secs.filter (loadedKind ·.kind)).flatMap fun s =>
    (List.range (pageUp s.size / 4096)).map fun i => (b + s.voff + 4096 * i, pteOf s.kind (pa + s.voff + 4096 * i))

/-! ## Obpen (R404) -/

/-- Cores an entry's PLACE selects. -/
def placeCores (p : Part) (place : Nat) : List Nat :=
  let mesh := p.cores.filter isMesh
  match place with
  | 0 => mesh.take 1
  | 1 => mesh.filter (· % 9 == 0)
  | 2 => mesh.filter isCompute
  | _ => mesh.filter isData

/-- An instance of an entry: its entry, its core, and the offset of its state in the core's cluster CLM. -/
structure Instance where
  ent  : ObEnt
  core : Nat
  off  : Nat
  deriving DecidableEq, Repr

/-- The instances of the entries in turn, their states at the offsets listed. -/
def instances (p : Part) : List Nat → List ObEnt → List (ObEnt × List Instance)
  | _, [] => []
  | offs, e :: r =>
    let cs := placeCores p e.place
    (e, (cs.zip offs).map fun x => ⟨e, x.1, x.2⟩) :: instances p (offs.drop cs.length) r

/-- The route table and instance arrays at address `va`, and the CLM bytes of the states. -/
def State.routes (s : State) (g : Girad) (p : Part) (clm : List Nat) (va pa : Nat) : List Host.Cell :=
  let ins := instances p clm g.obpen
  let arr0 := 16 * ins.length
  let heads := (ins.zipIdx).flatMap fun e =>
    let before := ((ins.take e.2).map fun x => 16 * x.2.length).sum
    cellsOf (pa + 16 * e.2) 4 e.1.1.mtype ++ cellsOf (pa + 16 * e.2 + 4) 4 e.1.2.length ++
      cellsOf (pa + 16 * e.2 + 8) 8 (va + arr0 + before)
  let all := ins.flatMap (·.2)
  let body := all.zipIdx.flatMap fun y =>
    let w0 := (cidOf (y.1.core * 8)).toNat + s.dev.devnum.toNat * 2 ^ 16 + y.1.ent.vn * 2 ^ 32
    cellsOf (pa + arr0 + 16 * y.2) 8 w0 ++ cellsOf (pa + arr0 + 16 * y.2 + 8) 8 (0x1000000000 + y.1.off)
  let zeros := all.flatMap fun x =>
    (List.range x.ent.state).map fun i => (clmKey (clusterOf x.core) (x.off + i), (0 : Byte))
  heads ++ body ++ zeros

/-- Bytes of the route table and its arrays. -/
def routeSize (g : Girad) (p : Part) : Nat := ((g.obpen.map fun e => 16 + 16 * (placeCores p e.place).length)).sum

/-- Whether an RTAG names region `n` of a cluster: one retains it or has managed it, or a task record that waits on a core of the
partition carries it (10 R261). No RTAG names region 15. -/
def State.tagged (s : State) (p : Part) (u n : Nat) : Bool :=
  n != 15 &&
    (let r := (s.cluster u).region n
     r.managed || r.waking || !r.on || r.tag != 0 || !r.holders.isEmpty ||
       p.cores.any fun k => ((s.getCore k).deque ++ (s.getCore k).siding).any fun t =>
         t.rtag != 0 && (t.rtag.extractLsb' 0 4).toNat == n)

/-- Whether two instances have their states in different bytes. -/
def Instance.apart (x y : Instance) : Bool :=
  clusterOf x.core != clusterOf y.core || !meets x.off x.ent.state y.off y.ent.state

/-- No two of a list of instances share bytes. -/
def allApart : List Instance → Bool
  | [] => true
  | x :: r => r.all x.apart && allApart r

/-- The CLM of the instances' states, as key and length. -/
def Girad.states (g : Girad) (p : Part) (clm : List Nat) : List (Nat × Nat) :=
  ((instances p clm g.obpen).flatMap (·.2)).map fun x => (clmKey (clusterOf x.core) x.off, x.ent.state)

/-- Whether a key lies in one of a list of spans. -/
def inSpans (l : List (Nat × Nat)) (a : Nat) : Bool := l.any fun e => decide (e.1 ≤ a) && decide (a < e.1 + e.2)

/-- Every instance has its state in the CLM of its core's cluster, below the receive slots, outside every region that an RTAG names, and
in bytes that no other instance has, of this load or of one done before (R404). -/
def State.clmFits (s : State) (g : Girad) (p : Part) (clm : List Nat) : Bool :=
  let all := (instances p clm g.obpen).flatMap (·.2)
  decide (all.length = (g.obpen.map fun e => (placeCores p e.place).length).sum) &&
    (all.all fun x => decide (x.off + x.ent.state ≤ 0x1F2800) &&
      (List.range 16).all fun i => !meets (i * 0x20000) 0x20000 x.off x.ent.state || !s.tagged p (clusterOf x.core) i) &&
    allApart all && (g.states p clm).all fun x => s.loads.all fun l => l.clm.all fun y => !meets y.1 y.2 x.1 x.2

/-- The name `.obroute`, padded to 16 bytes. -/
def obrouteName : List Byte := [0x2E, 0x6F, 0x62, 0x72, 0x6F, 0x75, 0x74, 0x65, 0, 0, 0, 0, 0, 0, 0, 0]

/-! ## A load (R397) -/

/-- Steps 1 to 5 for a load at base `b`: the patches. -/
def State.loadChecks (s : State) (g : Girad) (sp : Space) (b : Nat) (ext : List Symbol) : Except LoadFail (List Patch) :=
  match firstBad (fun i x => rule (g.secOk i x) 4 i) 0 g.secs with
  | .error e => .error e
  | .ok _ =>
    match rule (b % 4096 == 0 && rangeCanonical b g.size && s.rangeFree sp b g.size) 5 noIndex with
    | .error e => .error e
    | .ok _ =>
      match firstBad (g.symCheck ext) 0 g.syms with
      | .error e => .error e
      | .ok _ => g.patches b ext 0 g.rels

/-- The target address space, as the station master's loader sees it. -/
def State.loadSpace (s : State) (r : LoadReq) : Space := ⟨r.asd, s.asidAt r.asd, Config.masterCore, .die⟩

/-! ### Memory that address spaces use -/

/-- The words listed in a range of memory; the others are 0. -/
def State.listed (s : State) (a n : Nat) : List Word :=
  (((s.mem.filter fun c => decide (a ≤ c.1) && decide (c.1 < a + n)).map (·.1 / 8)).eraseDups).map fun w => Mem.word s.mem (8 * w)

/-- The tables and pages below an entry of level `lvl`, as device-local ranges (start, size). -/
def State.under (s : State) : Nat → Word → List (Nat × Nat)
  | lvl, e =>
    if !e.getLsbD 0 then []
    else if e.getLsbD 3 || e.getLsbD 4 || e.getLsbD 5 || e.getLsbD 6 then
      [((e.extractLsb' 12 31).toNat * 4096, 2 ^ (if e.getLsbD 9 then 16 else 12 + 9 * lvl))]
    else
      match lvl with
      | 0 => []
      | l + 1 =>
        let t := (e.extractLsb' 12 31).toNat * 4096
        (t, 4096) :: (s.listed t 4096).flatMap (s.under l)

/-- What an address space uses: its descriptor, its tables, its pages, the memory behind its range entries. -/
def State.uses (s : State) (asd : Nat) : List (Nat × Nat) :=
  let root := (Mem.word s.mem asd).toNat
  let n := ((Mem.word s.mem (asd + 16)).extractLsb' 0 9).toNat
  let rt := (Mem.word s.mem (asd + 8)).toNat
  [(asd, 1024), (root, 65536), (rt, 32 * n), ((Mem.word s.mem (asd + 24)).toNat, 2048)] ++ (s.listed root 65536).flatMap (s.under 3) ++
    (List.range n).map fun i =>
      let e := s.words4 (rt + 32 * i)
      ((e.w0 &&& 0xFFFFFFFFFFFFF000).toNat + (e.w2 &&& 0xFFFFFFFFFFFFF000).toNat, (e.w1 - e.w0).toNat)

/-- The address spaces that a job has, placed or not, or that a load was done for. -/
def State.spaces (s : State) : List Nat :=
  (s.parts.filter (!·.2.idle)).map (·.2.asd) ++ (s.jobs.filter (·.asd != 0)).map (·.asd) ++ s.loads.map (·.asd)

/-- Whether a range of memory is free: HBM that neither the target address space nor another one uses (R397 step 6). -/
def State.freeMem (s : State) (r : LoadReq) (a n : Nat) : Bool :=
  decide (a + n ≤ 0x8000000000) &&
    (r.asd :: s.spaces).all fun d => (s.uses d).all fun e => !meets (e.1 % 2 ^ 43) e.2 a n

/-- The places a load allocates: the image with the route table, and the pages for tables; all page aligned, free and apart. -/
def State.placesOk (s : State) (r : LoadReq) (size : Nat) : Bool :=
  r.pa % 4096 == 0 && s.freeMem r r.pa size && decide r.tables.Nodup &&
    r.tables.all fun t => t % 4096 == 0 && s.freeMem r t 4096 && !meets t 4096 r.pa size

/-- Steps 6 to 8: memory after the load, or none where it does not suffice. -/
def State.loadMem (s : State) (g : Girad) (p : Part) (r : LoadReq) (b : Nat) (ext : List Symbol) (ps : List Patch) :
    Option (List Host.Cell) :=
  let extra := pageUp (routeSize g p)
  if !s.placesOk r (g.size + extra) || !s.clmFits g p r.clm ||
      (extra != 0 && (r.route % 4096 != 0 || !rangeCanonical r.route extra || meets r.route extra b g.size ||
        !s.rangeFree (s.loadSpace r) r.route extra))
  then none
  else
    let m := Mem.setAll s.mem (g.image r.pa)
    let m := ps.foldl (Patch.apply r.pa) m
    let m := Mem.setAll m (g.gotCells r.pa b ext)
    let m := Mem.clear m (r.pa + g.size) extra
    let m := Mem.setAll m (s.routes g p r.clm r.route (r.pa + g.size))
    let route := (List.range (extra / 4096)).map fun i =>
      (r.route + 4096 * i, pteOf 3 (s.physOf (r.pa + g.size + 4096 * i)))
    installPages (s.physOf 0) (Mem.word s.mem r.asd).toNat m r.tables (g.pages b (s.physOf r.pa) ++ route)

/-- The load status word, written with a releasing write. -/
def State.loadStatus (s : State) (key code index : Nat) : State := s.homeWrite (cellsOf key 8 (code + index * 256))

/-- A core without copies of words that a load has written (R399). -/
def Core.reload (written : Nat → Bool) (c : Core) : Core := { c with l1 := c.l1.filter fun e => !written e.1 }

/-- A load that has passed its checks: memory, TLBs, caches, exports (R397 steps 6 to 8). -/
def State.loadCommit (s : State) (g : Girad) (p : Part) (r : LoadReq) (b : Nat) (ext : List Symbol) (m : List Host.Cell) : State :=
  let asid := s.asidAt r.asd
  let extra := pageUp (routeSize g p)
  let globals := (g.syms.filter (·.bind == 1)).filterMap fun y => (g.symVal b y ext).map fun v => (⟨asid, y.name, v⟩ : Symbol)
  let table := if (findSec g.secs 8).isNone then [] else [(⟨asid, obrouteName, BitVec.ofNat 64 r.route⟩ : Symbol)]
  let written (a : Nat) : Bool :=
    (decide (r.pa ≤ 8 * a) && decide (8 * a < r.pa + g.size + extra)) || Mem.word m (8 * a) != Mem.word s.mem (8 * a)
  let states := g.states p r.clm
  let pages := (List.range (g.size / 4096)).map (b + 4096 * ·) ++ (List.range (extra / 4096)).map (r.route + 4096 * ·)
  let s := { s with
    mem := m
    checks := s.checks.filter fun (e : (Nat × Nat × Nat) × Byte × Byte) =>
      !(List.range 64).any fun b => inSpans states (bankKey e.1.1 e.1.2.1 e.1.2.2 b)
    upset := s.upset.filter fun e => !inSpans states e.1
    loads := s.loads ++ [(⟨r.asd, states⟩ : Loaded)]
    owners := s.owners.filter fun e => !written e.1
    core := s.core.reload written
    cores := s.cores.map fun (e : Nat × Core) => (e.1, e.2.reload written)
    exports := s.exports ++ globals ++ table }
  pages.foldl (fun s a => s.tlbDrop asid 1 (BitVec.ofNat 64 a)) s.forgetCode

/-- The base of a load: the one asked for, or PBASE. What a load that succeeds returns (R397 step 8). -/
def loadBase (r : LoadReq) : Nat := if r.base = 0 then fieldOf r.image 0x10 8 else r.base.toNat

/-- OBJECT_LOAD: a whole load, or its failure's status and nothing else. -/
def execObjectLoad (r : LoadReq) (s : State) : Out :=
  .next (match s.part r.part with
    | none => s
    | some p =>
      if r.status % 8 != 0 || !(isHbmKey r.status || isClmKey r.status) || r.asd % 1024 != 0 || !inHbm r.asd 1024 then s
      else
        match headerCheck r.image with
        | .error e => s.loadStatus r.status e.1 e.2
        | .ok _ =>
          let g := girad r.image
          let b := loadBase r
          let ext := s.exports.filter (·.asid == s.asidAt r.asd)
          match s.loadChecks g (s.loadSpace r) b ext with
          | .error e => s.loadStatus r.status e.1 e.2
          | .ok ps =>
            match s.loadMem g p r b ext ps with
            | none => s.loadStatus r.status 12 noIndex
            | some m => (s.loadCommit g p r b ext m).loadStatus r.status 0 noIndex)

end Sys2Proof.Machine
end

