-- ==== Sys2Proof/Machine/Dispatch.lean ====
section
/-! DEFINITION. The one dispatch from an instruction or event of the opcode table to its meaning. -/

namespace Sys2Proof.Machine

open Sys2Proof

def exec (i : Instr) (s : State) : Host.Outcome State Fault Refusal :=
  match i with
  | .fetch => Sys2Proof.Machine.execFetch s
  | .takeEvent => Sys2Proof.Machine.execTakeEvent s
  | .timer c => Sys2Proof.Machine.execTimer c s
  | .add d a b => Sys2Proof.Machine.execAdd d a b s
  | .sub d a b => Sys2Proof.Machine.execSub d a b s
  | .and d a b => Sys2Proof.Machine.execAnd d a b s
  | .or d a b => Sys2Proof.Machine.execOr d a b s
  | .xor d a b => Sys2Proof.Machine.execXor d a b s
  | .sll d a b => Sys2Proof.Machine.execSll d a b s
  | .srl d a b => Sys2Proof.Machine.execSrl d a b s
  | .sra d a b => Sys2Proof.Machine.execSra d a b s
  | .slt d a b => Sys2Proof.Machine.execSlt d a b s
  | .sltu d a b => Sys2Proof.Machine.execSltu d a b s
  | .min d a b => Sys2Proof.Machine.execMin d a b s
  | .max d a b => Sys2Proof.Machine.execMax d a b s
  | .minu d a b => Sys2Proof.Machine.execMinu d a b s
  | .maxu d a b => Sys2Proof.Machine.execMaxu d a b s
  | .sel d a b c => Sys2Proof.Machine.execSel d a b c s
  | .clz d a => Sys2Proof.Machine.execClz d a s
  | .ctz d a => Sys2Proof.Machine.execCtz d a s
  | .popc d a => Sys2Proof.Machine.execPopc d a s
  | .mul d a b => Sys2Proof.Machine.execMul d a b s
  | .mulh d a b => Sys2Proof.Machine.execMulh d a b s
  | .mulhu d a b => Sys2Proof.Machine.execMulhu d a b s
  | .div d a b => Sys2Proof.Machine.execDiv d a b s
  | .divu d a b => Sys2Proof.Machine.execDivu d a b s
  | .rem d a b => Sys2Proof.Machine.execRem d a b s
  | .remu d a b => Sys2Proof.Machine.execRemu d a b s
  | .addi d a imm => Sys2Proof.Machine.execAddi d a imm s
  | .andi d a imm => Sys2Proof.Machine.execAndi d a imm s
  | .ori d a imm => Sys2Proof.Machine.execOri d a imm s
  | .xori d a imm => Sys2Proof.Machine.execXori d a imm s
  | .slti d a imm => Sys2Proof.Machine.execSlti d a imm s
  | .slli d a sh => Sys2Proof.Machine.execSlli d a sh s
  | .srli d a sh => Sys2Proof.Machine.execSrli d a sh s
  | .srai d a sh => Sys2Proof.Machine.execSrai d a sh s
  | .bfx d a lenM1 pos => Sys2Proof.Machine.execBfx d a lenM1 pos s
  | .bfi d a lenM1 pos => Sys2Proof.Machine.execBfi d a lenM1 pos s
  | .ldhi d imm => Sys2Proof.Machine.execLdhi d imm s
  | .addpc d imm => Sys2Proof.Machine.execAddpc d imm s
  | .li d imm => Sys2Proof.Machine.execLi d imm s
  | .lea d a imm => Sys2Proof.Machine.execLea d a imm s
  | .leaPc d imm => Sys2Proof.Machine.execLeaPc d imm s
  | .li64 d imm => Sys2Proof.Machine.execLi64 d imm s
  | .beq a b off => Sys2Proof.Machine.execBeq a b off s
  | .bne a b off => Sys2Proof.Machine.execBne a b off s
  | .blt a b off => Sys2Proof.Machine.execBlt a b off s
  | .bge a b off => Sys2Proof.Machine.execBge a b off s
  | .bltu a b off => Sys2Proof.Machine.execBltu a b off s
  | .bgeu a b off => Sys2Proof.Machine.execBgeu a b off s
  | .j off => Sys2Proof.Machine.execJ off s
  | .jal d off => Sys2Proof.Machine.execJal d off s
  | .jalr d a imm => Sys2Proof.Machine.execJalr d a imm s
  | .jl d off => Sys2Proof.Machine.execJl d off s
  | .ld d a imm w u => Sys2Proof.Machine.execLd d a imm w u s
  | .st d a imm w => Sys2Proof.Machine.execSt d a imm w s
  | .loadReturn c n => Sys2Proof.Machine.execLoadReturn c n s
  | .storeAck c n => Sys2Proof.Machine.execStoreAck c n s
  | .fld d a imm w => Sys2Proof.Machine.execFld d a imm w s
  | .fst d a imm w => Sys2Proof.Machine.execFst d a imm w s
  | .fadd d a b k => Sys2Proof.Machine.execFadd d a b k s
  | .fsub d a b k => Sys2Proof.Machine.execFsub d a b k s
  | .fmul d a b k => Sys2Proof.Machine.execFmul d a b k s
  | .fdiv d a b k => Sys2Proof.Machine.execFdiv d a b k s
  | .fsqrt d a k => Sys2Proof.Machine.execFsqrt d a k s
  | .fmin d a b fmt rimm => Sys2Proof.Machine.execFmin d a b fmt rimm s
  | .fmax d a b fmt rimm => Sys2Proof.Machine.execFmax d a b fmt rimm s
  | .feq d a b fmt rimm => Sys2Proof.Machine.execFeq d a b fmt rimm s
  | .flt d a b fmt rimm => Sys2Proof.Machine.execFlt d a b fmt rimm s
  | .fle d a b fmt rimm => Sys2Proof.Machine.execFle d a b fmt rimm s
  | .fclass d a fmt rimm => Sys2Proof.Machine.execFclass d a fmt rimm s
  | .fsgn d a b mode fmt rimm => Sys2Proof.Machine.execFsgn d a b mode fmt rimm s
  | .fmvX d a fmt rimm => Sys2Proof.Machine.execFmvX d a fmt rimm s
  | .fmvF d a fmt rimm => Sys2Proof.Machine.execFmvF d a fmt rimm s
  | .fcvt code d a frm rimm => Sys2Proof.Machine.execFcvt code d a frm rimm s
  | .fma d a b c k => Sys2Proof.Machine.execFma d a b c k s
  | .fms d a b c k => Sys2Proof.Machine.execFms d a b c k s
  | .fnma d a b c k => Sys2Proof.Machine.execFnma d a b c k s
  | .fnms d a b c k => Sys2Proof.Machine.execFnms d a b c k s
  | .vadd d a b k => Sys2Proof.Machine.execVadd d a b k s
  | .vsub d a b k => Sys2Proof.Machine.execVsub d a b k s
  | .vmul d a b k => Sys2Proof.Machine.execVmul d a b k s
  | .vdiv d a b k => Sys2Proof.Machine.execVdiv d a b k s
  | .vsqrt d a k => Sys2Proof.Machine.execVsqrt d a k s
  | .vmin d a b k => Sys2Proof.Machine.execVmin d a b k s
  | .vmax d a b k => Sys2Proof.Machine.execVmax d a b k s
  | .vabs d a k => Sys2Proof.Machine.execVabs d a k s
  | .vneg d a k => Sys2Proof.Machine.execVneg d a k s
  | .vand d a b k => Sys2Proof.Machine.execVand d a b k s
  | .vor d a b k => Sys2Proof.Machine.execVor d a b k s
  | .vxor d a b k => Sys2Proof.Machine.execVxor d a b k s
  | .vshl d a b k => Sys2Proof.Machine.execVshl d a b k s
  | .vshr d a b k => Sys2Proof.Machine.execVshr d a b k s
  | .vsra d a b k => Sys2Proof.Machine.execVsra d a b k s
  | .vcmp d a b cond k => Sys2Proof.Machine.execVcmp d a b cond k s
  | .vsel d a b c k => Sys2Proof.Machine.execVsel d a b c k s
  | .vexp2 d a k => Sys2Proof.Machine.execVexp2 d a k s
  | .vrcp d a k => Sys2Proof.Machine.execVrcp d a k s
  | .vrsq d a k => Sys2Proof.Machine.execVrsq d a k s
  | .vcvt code d a b k => Sys2Proof.Machine.execVcvt code d a b k s
  | .vfma d a b c k => Sys2Proof.Machine.execVfma d a b c k s
  | .vfms d a b c k => Sys2Proof.Machine.execVfms d a b c k s
  | .vbcast d a k => Sys2Proof.Machine.execVbcast d a k s
  | .vins d a b k => Sys2Proof.Machine.execVins d a b k s
  | .vext d a b k => Sys2Proof.Machine.execVext d a b k s
  | .vperm d a b k => Sys2Proof.Machine.execVperm d a b k s
  | .vslide d a b c k => Sys2Proof.Machine.execVslide d a b c k s
  | .vredsum d a b k => Sys2Proof.Machine.execVredsum d a b k s
  | .vredmax d a b k => Sys2Proof.Machine.execVredmax d a b k s
  | .vredmin d a b k => Sys2Proof.Machine.execVredmin d a b k s
  | .vtopk d a b c k => Sys2Proof.Machine.execVtopk d a b c k s
  | .vtopkm d a b c k => Sys2Proof.Machine.execVtopkm d a b c k s
  | .vsortk d a c k => Sys2Proof.Machine.execVsortk d a c k s
  | .vld d a k => Sys2Proof.Machine.execVld d a k s
  | .vst d a k => Sys2Proof.Machine.execVst d a k s
  | .vlds d a b k => Sys2Proof.Machine.execVlds d a b k s
  | .vgath d a b k => Sys2Proof.Machine.execVgath d a b k s
  | .vscat d a b k => Sys2Proof.Machine.execVscat d a b k s
  | .mand d a b => Sys2Proof.Machine.execMand d a b s
  | .mor d a b => Sys2Proof.Machine.execMor d a b s
  | .mxor d a b => Sys2Proof.Machine.execMxor d a b s
  | .mnot d a => Sys2Proof.Machine.execMnot d a s
  | .mpop d a => Sys2Proof.Machine.execMpop d a s
  | .mfirst d a => Sys2Proof.Machine.execMfirst d a s
  | .mset d a => Sys2Proof.Machine.execMset d a s
  | .msetX d a => Sys2Proof.Machine.execMsetX d a s
  | .scfg sid reg a => Sys2Proof.Machine.execScfg sid reg a s
  | .sstart sid d bv => Sys2Proof.Machine.execSstart sid d bv s
  | .sstop sid => Sys2Proof.Machine.execSstop sid s
  | .sstat d sid => Sys2Proof.Machine.execSstat d sid s
  | .streamFetch c k => Sys2Proof.Machine.execStreamFetch c k s
  | .streamWrite c n => Sys2Proof.Machine.execStreamWrite c n s
  | .frep a len => Sys2Proof.Machine.execFrep a len s
  | .frepi count len => Sys2Proof.Machine.execFrepi count len s
  | .frepBodyIssue => Sys2Proof.Machine.execFrepBodyIssue s
  | .tcfg t wid cols rows => Sys2Proof.Machine.execTcfg t wid cols rows s
  | .tacq => Sys2Proof.Machine.execTacq s
  | .tacqGrant k => Sys2Proof.Machine.execTacqGrant k s
  | .trel => Sys2Proof.Machine.execTrel s
  | .tzero t => Sys2Proof.Machine.execTzero t s
  | .tmovFr d t sel => Sys2Proof.Machine.execTmovFr d t sel s
  | .tmovTo d t sel => Sys2Proof.Machine.execTmovTo d t sel s
  | .tswap t => Sys2Proof.Machine.execTswap t s
  | .tswapExchange k => Sys2Proof.Machine.execTswapExchange k s
  | .tld t a b imm pln prnd => Sys2Proof.Machine.execTld t a b imm pln prnd s
  | .ttld t a b imm pln prnd => Sys2Proof.Machine.execTtld t a b imm pln prnd s
  | .tst t a b imm => Sys2Proof.Machine.execTst t a b imm s
  | .tmma t ta tb fmt => Sys2Proof.Machine.execTmma t ta tb fmt s
  | .tileOpComplete k => Sys2Proof.Machine.execTileOpComplete k s
  | .ldp d a imm pln prnd => Sys2Proof.Machine.execLdp d a imm pln prnd s
  | .stp d a imm pln => Sys2Proof.Machine.execStp d a imm pln s
  | .pscl d a imm => Sys2Proof.Machine.execPscl d a imm s
  | .prescale d a imm b => Sys2Proof.Machine.execPrescale d a imm b s
  | .paxpy d a imm b => Sys2Proof.Machine.execPaxpy d a imm b s
  | .psgdm d a imm b c => Sys2Proof.Machine.execPsgdm d a imm b c s
  | .baddq a imm b => Sys2Proof.Machine.execBaddq a imm b s
  | .nearAck c n => Sys2Proof.Machine.execNearAck c n s
  | .fork a => Sys2Proof.Machine.execFork a s
  | .dequeRefill k => Sys2Proof.Machine.execDequeRefill k s
  | .jrec a b c => Sys2Proof.Machine.execJrec a b c s
  | .yield => Sys2Proof.Machine.execYield s
  | .mdone => Sys2Proof.Machine.execMdone s
  | .tqput d a b => Sys2Proof.Machine.execTqput d a b s
  | .tdone a => Sys2Proof.Machine.execTdone a s
  | .qrnd d a b => Sys2Proof.Machine.execQrnd d a b s
  | .collectionRoundPass part => Sys2Proof.Machine.execCollectionRoundPass part s
  | .gqnext d => Sys2Proof.Machine.execGqnext d s
  | .halt => Sys2Proof.Machine.execHalt s
  | .haltJ a => Sys2Proof.Machine.execHaltJ a s
  | .haltK a => Sys2Proof.Machine.execHaltK a s
  | .haltM => Sys2Proof.Machine.execHaltM s
  | .send a => Sys2Proof.Machine.execSend a s
  | .sendr a b => Sys2Proof.Machine.execSendr a b s
  | .callat a b c => Sys2Proof.Machine.execCallat a b c s
  | .messageAccepted k vn n => Sys2Proof.Machine.execMessageAccepted k vn n s
  | .messageArrival n => Sys2Proof.Machine.execMessageArrival n s
  | .messageService k => Sys2Proof.Machine.execMessageService k s
  | .callActivation k => Sys2Proof.Machine.execCallActivation k s
  | .taskActivation k => Sys2Proof.Machine.execTaskActivation k s
  | .steal thief victim => Sys2Proof.Machine.execSteal thief victim s
  | .stealPauseEnd k => Sys2Proof.Machine.execStealPauseEnd k s
  | .stealServe victim => Sys2Proof.Machine.execStealServe victim s
  | .vregGrant k => Sys2Proof.Machine.execVregGrant k s
  | .releasePerform c => Sys2Proof.Machine.execReleasePerform c s
  | .amo op ord near dbl d a b c imm => Sys2Proof.Machine.execAmo op ord near dbl d a b c imm s
  | .lda d a imm w u => Sys2Proof.Machine.execLda d a imm w u s
  | .stl d a imm w => Sys2Proof.Machine.execStl d a imm w s
  | .fence ld st => Sys2Proof.Machine.execFence ld st s
  | .xfence p q => Sys2Proof.Machine.execXfence p q s
  | .wait tl cp st ld => Sys2Proof.Machine.execWait tl cp st ld s
  | .arrive d a imm => Sys2Proof.Machine.execArrive d a imm s
  | .await a imm b => Sys2Proof.Machine.execAwait a imm b s
  | .arrwait a imm b => Sys2Proof.Machine.execArrwait a imm b s
  | .awaitPoll c => Sys2Proof.Machine.execAwaitPoll c s
  | .dcopy d a off tag => Sys2Proof.Machine.execDcopy d a off tag s
  | .sortc d a off tag => Sys2Proof.Machine.execSortc d a off tag s
  | .ddec d a b c slot tag => Sys2Proof.Machine.execDdec d a b c slot tag s
  | .dtbl d a slot tag => Sys2Proof.Machine.execDtbl d a slot tag s
  | .bindw d a b c size win => Sys2Proof.Machine.execBindw d a b c size win s
  | .unbindw win => Sys2Proof.Machine.execUnbindw win s
  | .dstat d sel => Sys2Proof.Machine.execDstat d sel s
  | .engineComplete u n => Sys2Proof.Machine.execEngineComplete u n s
  | .engineFail u n => Sys2Proof.Machine.execEngineFail u n s
  | .wdrun d a => Sys2Proof.Machine.execWdrun d a s
  | .wdret => Sys2Proof.Machine.execWdret s
  | .mma h => Sys2Proof.Machine.execMma h s
  | .mmas h => Sys2Proof.Machine.execMmas h s
  | .loada h => Sys2Proof.Machine.execLoada h s
  | .zeroc h => Sys2Proof.Machine.execZeroc h s
  | .storec h => Sys2Proof.Machine.execStorec h s
  | .post h => Sys2Proof.Machine.execPost h s
  | .act h => Sys2Proof.Machine.execAct h s
  | .calli h => Sys2Proof.Machine.execCalli h s
  | .brc h => Sys2Proof.Machine.execBrc h s
  | .skipz h => Sys2Proof.Machine.execSkipz h s
  | .table h => Sys2Proof.Machine.execTable h s
  | .link h => Sys2Proof.Machine.execLink h s
  | .exit h => Sys2Proof.Machine.execExit h s
  | .trainEnd => Sys2Proof.Machine.execTrainEnd s
  | .trap n => Sys2Proof.Machine.execTrap n s
  | .eret => Sys2Proof.Machine.execEret s
  | .csrr d csr => Sys2Proof.Machine.execCsrr d csr s
  | .csrw d csr a => Sys2Proof.Machine.execCsrw d csr a s
  | .csrs d csr a => Sys2Proof.Machine.execCsrs d csr a s
  | .csrc d csr a => Sys2Proof.Machine.execCsrc d csr a s
  | .ifence => Sys2Proof.Machine.execIfence s
  | .tlbi a scope => Sys2Proof.Machine.execTlbi a scope s
  | .brk n => Sys2Proof.Machine.execBrk n s
  | .brk96 n => Sys2Proof.Machine.execBrk96 n s
  | .brk128 n => Sys2Proof.Machine.execBrk128 n s
  | .wfi => Sys2Proof.Machine.execWfi s
  | .nop => Sys2Proof.Machine.execNop s
  | .wfiWake c => Sys2Proof.Machine.execWfiWake c s
  | .hresWrite v => Sys2Proof.Machine.execHresWrite v s
  | .prioWrite v => Sys2Proof.Machine.execPrioWrite v s
  | .cycleWrite v => Sys2Proof.Machine.execCycleWrite v s
  | .tshapeWrite t v => Sys2Proof.Machine.execTshapeWrite t v s
  | .sposWrite k v => Sys2Proof.Machine.execSposWrite k v s
  | .frepitWrite cnt v => Sys2Proof.Machine.execFrepitWrite cnt v s
  | .wdrpcWrite v => Sys2Proof.Machine.execWdrpcWrite v s
  | .psatWrite v => Sys2Proof.Machine.execPsatWrite v s
  | .pmcWrite n v => Sys2Proof.Machine.execPmcWrite n v s
  | .pmcOverflow k n => Sys2Proof.Machine.execPmcOverflow k n s
  | .monWrite n v => Sys2Proof.Machine.execMonWrite n v s
  | .drpstWrite v => Sys2Proof.Machine.execDrpstWrite v s
  | .gqjobWrite v => Sys2Proof.Machine.execGqjobWrite v s
  | .csrWrite csr v => Sys2Proof.Machine.execCsrWrite csr v s
  | .prioAging c => Sys2Proof.Machine.execPrioAging c s
  | .sboxDepRead quad q => Sys2Proof.Machine.execSboxDepRead quad q s
  | .tileDispatch quad => Sys2Proof.Machine.execTileDispatch quad s
  | .tileActivation k => Sys2Proof.Machine.execTileActivation k s
  | .gangSwitch part base => Sys2Proof.Machine.execGangSwitch part base s
  | .drainTimeout part core => Sys2Proof.Machine.execDrainTimeout part core s
  | .jobResume part asid => Sys2Proof.Machine.execJobResume part asid s
  | .timesliceExpiry part asid => Sys2Proof.Machine.execTimesliceExpiry part asid s
  | .doorbell vf q => Sys2Proof.Machine.execDoorbell vf q s
  | .nopCommand vf q => Sys2Proof.Machine.execNopCommand vf q s
  | .launch vf q => Sys2Proof.Machine.execLaunch vf q s
  | .launchComplete vf q => Sys2Proof.Machine.execLaunchComplete vf q s
  | .write64 vf q => Sys2Proof.Machine.execWrite64 vf q s
  | .waitval vf q => Sys2Proof.Machine.execWaitval vf q s
  | .barrier vf q => Sys2Proof.Machine.execBarrier vf q s
  | .eventWrite vf => Sys2Proof.Machine.execEventWrite vf s
  | .hostBar2Access vf off n data => Sys2Proof.Machine.execHostBar2Access vf off n data s
  | .hostRegWrite vf off v => Sys2Proof.Machine.execHostRegWrite vf off v s
  | .bindvf base => Sys2Proof.Machine.execBindvf base s
  | .unbindvf => Sys2Proof.Machine.execUnbindvf s
  | .attest => Sys2Proof.Machine.execAttest s
  | .bistrun r => Sys2Proof.Machine.execBistrun r s
  | .recover r => Sys2Proof.Machine.execRecover r s
  | .codeinv => Sys2Proof.Machine.execCodeinv s
  | .dstop => Sys2Proof.Machine.execDstop s
  | .dresume => Sys2Proof.Machine.execDresume s
  | .reset => Sys2Proof.Machine.execReset s
  | .codeInvalidateDone => Sys2Proof.Machine.execCodeInvalidateDone s
  | .domsizeWrite v => Sys2Proof.Machine.execDomsizeWrite v s
  | .devnumWrite v => Sys2Proof.Machine.execDevnumWrite v s
  | .islcfgWrite n v => Sys2Proof.Machine.execIslcfgWrite n v s
  | .islandReady n => Sys2Proof.Machine.execIslandReady n s
  | .ipireqWrite v => Sys2Proof.Machine.execIpireqWrite v s
  | .cinvWrite v => Sys2Proof.Machine.execCinvWrite v s
  | .trctlWrite v => Sys2Proof.Machine.execTrctlWrite v s
  | .clmstRead c => Sys2Proof.Machine.execClmstRead c s
  | .samplePulse => Sys2Proof.Machine.execSamplePulse s
  | .droopAlarm n => Sys2Proof.Machine.execDroopAlarm n s
  | .droopStretchEnd n => Sys2Proof.Machine.execDroopStretchEnd n s
  | .halvingWindowEnd n => Sys2Proof.Machine.execHalvingWindowEnd n s
  | .monitorFire k n => Sys2Proof.Machine.execMonitorFire k n s
  | .clmCorrClear n => Sys2Proof.Machine.execClmCorrClear n s
  | .clmBankMark clus bank => Sys2Proof.Machine.execClmBankMark clus bank s
  | .regionWakeDone clus k => Sys2Proof.Machine.execRegionWakeDone clus k s
  | .regionPowerDown clus k => Sys2Proof.Machine.execRegionPowerDown clus k s
  | .linkTimeout part core => Sys2Proof.Machine.execLinkTimeout part core s
  | .powerOn r => Sys2Proof.Machine.execPowerOn r s
  | .objectLoad r => Sys2Proof.Machine.execObjectLoad r s
  | .waitvalComplete vf q => Sys2Proof.Machine.execWaitvalComplete vf q s
  | .tlbiRetire c => Sys2Proof.Machine.execTlbiRetire c s

end Sys2Proof.Machine
end

