-- ==== Sys2Proof/Machine/Issue.lean ====
section
/-! DEFINITION. One issue cycle of the current core (12 R313): what each context would do next, which of them are ready, which
one issues, and what goes on beside it. What an instruction's own rule makes it wait for is in its meaning. -/

namespace Sys2Proof.Machine

open Sys2Proof

/-! ## What holds an instruction back -/

/-- Whether an instruction issued now would keep the counters and queues within their limits. -/
def State.fits (s : State) (i : Instr) : Bool :=
  match exec i s with
  | .next t =>
    decide (t.ctx.ldc ≤ 32) && decide (t.ctx.stc ≤ 255) && decide (t.tlc ≤ 255) &&
      t.ctx.streams.toList.all fun t => decide (t.pushes.length ≤ 16)
  | _ => true

/-- Note the VFMA.D that an instruction has issued: `u` is the state after `t`. -/
def State.noteFma (u t : State) (i : Option Instr) : State :=
  match i.bind (fmaDest t.ctx) with
  | none => u
  | some r => if u.ctx.instret = t.ctx.instret + 1 then { u with ctx := u.ctx.addFma u ⟨r, t.cycleNow, false⟩ } else u

/-- Whether an instruction of the current context may issue now. -/
def State.gate (s : State) (i : Instr) : Bool := (s.roomy || s.fits i) && !s.heldFor i

/-! ## What a context would do next -/

inductive Act where
  | none
  | event
  | wake
  | trainEnd
  | train
  | body
  | pad
  | trap (t : Trap)
  /-- the first fetch from a CLM region that sleeps (10 R262) -/
  | rouse (key : Nat)
  | instr (i : Instr)
  deriving DecidableEq, Repr

/-- Whether a core issues at all: its partition runs a job and has not stopped for a switch (12 R305, R307). The station master
belongs to no partition. -/
def State.issues (s : State) (k : Nat) : Bool :=
  isMaster k ||
    match s.partOf k with
    | some (_, p) => !p.idle && !p.stopping && !s.reinjecting p
    | none => false

/-- What an instruction at PC comes to: it issues, unless something holds it back. -/
def State.instrAct (s : State) (i : Instr) : Act :=
  if s.replaying && !sideIssues s.ctx i then .none else if s.gate i then .instr i else .none

/-- What fetch at PC leads to. An instruction that waits has been fetched, and is not fetched again (04 R102). R156 names instructions
only: a fetch that fails during a replay traps at once (log 48). -/
def State.fetchAct (s : State) : Act :=
  match (if s.ctx.wait == .none then none else s.ctx.fetched) with
  | some i => s.instrAct i
  | none =>
    match s.fetchAt s.ctx.pc with
    | .trap t => .trap t
    | .pad => .pad
    | .asleep key =>
      match regionOf key with
      | some (u, n) => if ((s.cluster u).region n).waking then .none else .rouse key
      | none => .none
    | .instr i _ => s.instrAct i

/-- Whether the next body instruction goes on when it is issued: it completes, traps, or starts a wake. -/
def State.bodyGoes (s : State) : Bool :=
  match execFrepBodyIssue s with
  | .next t => t.ctx.rep != s.ctx.rep || t.clusters != s.clusters
  | _ => true

/-- Whether the next body instruction can issue. -/
def State.bodyReady (s : State) : Bool :=
  let r := s.ctx.rep
  r.act && !r.held && decide (r.iter.toNat < r.cnt.toNat) &&
    match r.body[r.slot.toNat]? with
    | some i => s.gate i && s.bodyGoes
    | none => false

/-- The next action of the current context: an event first (13 R322), then its train, its replay, its integer side. `side`
passes over the body of a replay. -/
def State.nextAct (s : State) (side : Bool) : Act :=
  if s.ctx.phase != .active then .none
  else if s.takesEvents && s.hasEvent s.cur then .event
  else
    match s.ctx.wait with
    | .release _ => .none
    | .ending _ => .none
    | .mdone => .none
    | .await .. => .none
    | .arrival .. => .none
    | .tlbi .. => .none
    | .wfi => if s.hasEvent s.cur || s.timeUp s.cur then .wake else .none
    | _ =>
      if s.ctx.wd.wdm && s.ctx.wd.state == 1 then
        (if s.ctx.wd.ending.isSome then (if s.trainDrained then .trainEnd else .none)
         else if s.roomy && s.core.tileq.isEmpty then .train else .none)
      else if !side && s.bodyReady then .body
      else s.fetchAct

/-- A block of the running train: the one in progress goes on, and another starts once its header can be read, with its header's checks
(09 R222, R234, R242). -/
def State.trainStep (s : State) : Out :=
  match s.ctx.wd.block with
  | some (i, _) => exec i s
  | none =>
    match s.trainKeys s.ctx.wd.blk 32 with
    | .error f => .next (s.blockFault f)
    | .ok ks =>
      if !s.mayReadNow ks then .next ((s.wakeFor ks).stall .counters)
      else
        match s.blockAt with
        | .error f => .next ((State.touch s.k s ks).blockFault f)
        | .ok (i, _) => exec i (State.touch s.k s ks)

/-- Perform an action of the current context. -/
def State.perform (s : State) (a : Act) : Out :=
  match a with
  | .none => .next s
  | .event => execTakeEvent s
  | .wake => .next (s.retire 8)
  | .trainEnd => execTrainEnd s
  | .train => s.trainStep
  | .body => execFrepBodyIssue s
  | .pad => .next s.skipPad
  | .trap t => .next (s.trap t)
  | .rouse key => .next (s.wakeFor [key])
  | .instr i => exec i s

/-- The fetch that an action of the current context rests on; an instruction that waits has been fetched before. -/
def State.fetchFor (s : State) (a : Act) : State :=
  match a with
  | .instr _ => if s.ctx.wait != .none && s.ctx.fetched.isSome then s else s.fetchIn
  | .pad => s.fetchIn
  | .trap _ => s.fetchIn
  | _ => s

/-- Whether an action takes no issue slot: an event, a trap of fetch, a pad granule, the end of WFI (13 R320). -/
def Act.free (a : Act) : Bool :=
  match a with
  | .event => true
  | .wake => true
  | .pad => true
  | .trap _ => true
  | .rouse _ => true
  | _ => false

/-- What a context keeps after an action that led from `t` to `u`: an instruction that waits stays fetched. -/
def State.afterAct (t u : State) (a : Act) : State :=
  if u.ctx.phase != .active then u
  else
    { u with ctx := { u.ctx with
      early := []
      fetched := match a with
        | .instr i => if u.ctx.wait = .none then none else some i
        | .body => t.ctx.fetched
        | _ => none } }

/-! ## What a cycle counts (16 R376, R377) -/

/-- The counter a CSR instruction names. -/
def pmcNamed (a : Act) : List Nat :=
  let f (n : BitVec 12) : List Nat := if 0x180 ≤ n.toNat ∧ n.toNat ≤ 0x187 then [n.toNat % 8] else []
  match a with
  | .instr (.csrw _ n _) => f n
  | .instr (.csrs _ n _) => f n
  | .instr (.csrc _ n _) => f n
  | _ => []

/-- The counter that an action has written, which keeps the written value (R377); one that trapped has written none. -/
def pmcWritten (a : Act) (s t : State) (r : Nat) : List Nat :=
  if (t.getCtx r).instret == (s.getCtx r).instret + 1 then pmcNamed a else []

/-- The monitor that an action has written, which does not fire in the cycle (R379). -/
def monWritten (a : Act) (s t : State) (r : Nat) : List Nat :=
  let f (n : BitVec 12) : List Nat := if 0x410 ≤ n.toNat ∧ n.toNat ≤ 0x417 then [n.toNat % 8] else []
  if (t.getCtx r).instret == (s.getCtx r).instret + 1 then
    match a with
    | .instr (.csrw _ n _) => f n
    | .instr (.csrs _ n _) => f n
    | .instr (.csrc _ n _) => f n
    | _ => []
  else []

/-- Whether an instruction writes INSTRET. -/
def writesInstret (a : Act) : Bool :=
  match a with
  | .instr (.csrw _ n _) => n == 0x00A
  | .instr (.csrs _ n _) => n == 0x00A
  | .instr (.csrc _ n _) => n == 0x00A
  | _ => false

/-- Whether context `r` retired an instruction between two states: INSTRET has moved on, or was written, or the context has ended
otherwise than by a fault of its partition. -/
def retired (a : Act) (s t : State) (r : Nat) : Bool :=
  let c := s.getCtx r
  let d := t.getCtx r
  d.instret == c.instret + 1 || (writesInstret a && d.pc != c.pc && d.prv == c.prv) ||
    (c.phase == .active && d.phase == .dormant && (isMaster (r / 8) || t.runsJob (r / 8)))

/-- Count what context `r` has retired by an action (event 2). -/
def State.countAct (s t : State) (a : Act) (r : Nat) : State := if retired a s t r then t.pmc (r / 8) 2 (some (r % 8)) else t

/-- Count what the contexts of a core, and of its mirror with which it exchanges tiles, have retired between two states without an
issue. -/
def State.countAll (s t : State) (k : Nat) : State :=
  (ctxsOf k ++ if isCompute k then ctxsOf (mirrorOf k) else []).foldl (fun t r => s.countAct t .none r) t

/-! ## Arbitration (R313) -/

/-- Whether an instruction that waits, or the end of a train, would go on, or wait for something else, if it were issued. -/
def State.goesOn (s : State) (a : Act) : Bool :=
  match s.perform a with
  | .next t =>
    t.cur != s.cur || t.clusters != s.clusters ||
      (if a == .trainEnd then t.ctx.wd != s.ctx.wd else t.ctx.wait == .none || t.ctx.wait != s.ctx.wait)
  | _ => true

/-- Whether context `r` of the current core is ready: it has an action that takes an issue slot and goes on. -/
def State.readyCtx (s : State) (side : Bool) (r : Nat) : Bool :=
  let t := s.select r
  match t.nextAct side with
  | .none => false
  | .body => true
  | a => !a.free && ((t.ctx.wait == .none && a != .trainEnd) || t.goesOn a)

/-- The ready contexts of the current core but those of a list, in the round-robin order that follows the last one that issued. -/
def State.readyList (s : State) (side : Bool) (out : List Nat) : List Nat :=
  if !s.issues s.k || !(s.island (islandOf s.k)).mayIssue then []
  else (((List.range 8).map fun i => s.k * 8 + (s.core.last + 1 + i) % 8).filter fun r =>
    (ctxsOf s.k).contains r && !out.contains r).filter (s.readyCtx side)

/-- The first context of a list with the highest EFF. -/
def State.highest (s : State) : List Nat → Option Nat
  | [] => none
  | r :: l =>
    match s.highest l with
    | none => some r
    | some q => if (s.getCtx r).eff.toNat < (s.getCtx q).eff.toNat then some q else some r

/-- The context that issues, of those that are not in a list. -/
def State.arbiter (s : State) (side : Bool) (out : List Nat) : Option Nat := s.highest (s.readyList side out)

/-- A ready context that does not issue ages; at 64 its EFF rises (PRIO_AGING). -/
def State.age (s : State) (r : Nat) : State :=
  let c := s.getCtx r
  if c.phase != .active then s
  else
    let c := { c with aging := c.aging + 1 }
    s.setCtx r (if 64 ≤ c.aging then { c with aging := 0, eff := if c.eff = 127 then 127 else c.eff + 1 } else c)

/-- The current context has issued: its EFF returns to LVL, and it is the last one; the others that were ready age. -/
def State.granted (s : State) (others : List Nat) : State :=
  let s := others.foldl State.age s
  { s with
    ctx := if s.ctx.phase = .active then { s.ctx with eff := s.ctx.lvl, aging := 0 } else s.ctx
    core := { s.core with last := s.c } }

/-- Whether an action from `t` to `u` has taken no issue slot: the instruction has trapped (13 R320), or it cannot issue yet. -/
def heldBack (t u : State) (a : Act) : Bool :=
  u.ctx.phase == .active && u.ctx.instret == t.ctx.instret &&
    (u.ctx.drain || a == .body || u.ctx.wait == .counters || u.ctx.wait == .slot)

/-! ## What goes on beside the issue of instructions (R315) -/

/-- The completion event of an outstanding access of a context. -/
def State.finishPend (s : State) (r : Nat) (p : Pend) : Out :=
  match p.op with
  | .load .. => execLoadReturn r 0 s
  | .amo .. => execLoadReturn r 0 s
  | .arrival _ => execLoadReturn r 0 s
  | .store .. => execStoreAck (some r) 0 s
  | _ => execNearAck (some r) 0 s

/-- The outstanding access of a context of the core that was issued first. -/
def State.oldestPend (s : State) : Option (Nat × Pend) :=
  let l := (ctxsOf s.k).filterMap fun r => (s.getCtx r).pend.head?.map fun p => (r, p)
  l.find? fun e => l.all fun f => e.2.id ≤ f.2.id

/-- Whether an event changes a context, or starts a wake. -/
def State.stirs (s : State) (r : Nat) (o : Out) : Bool :=
  match o with
  | .next t => t.getCtx r != s.getCtx r || t.clusters != s.clusters
  | _ => true

/-- The event that ends a wait of context `r` that no issue ends: a release, the poll of AWAIT, TLBI. -/
def State.waitEnds (s : State) (r : Nat) : Option Out :=
  match (s.getCtx r).wait with
  | .release _ => some (execReleasePerform r s)
  | .await .. => some (execAwaitPoll r s)
  | .tlbi .. => some (execTlbiRetire r s)
  | _ => none

/-- The first wait of a context of the core that ends now. -/
def State.waitDone (s : State) : Option Out :=
  (ctxsOf s.k).findSome? fun r =>
    match s.waitEnds r with
    | some o => if s.stirs r o then some o else none
    | none => none

/-- The first stream of a context of the core with a push to write: the one pushed first. -/
def State.oldestPush (s : State) : Option (Nat × Nat) :=
  (ctxsOf s.k).findSome? fun r =>
    let l := (s.getCtx r).streams.toList.zipIdx.filterMap fun e => e.1.pushes.head?.map fun p => (p.id, e.2)
    (l.find? fun e => l.all fun f => e.1 ≤ f.1).map fun e => (r, e.2)

/-- The first region of a cluster that wakes. -/
def State.wakingRegion (s : State) : Option (Nat × Nat) :=
  s.clusters.findSome? fun e => (e.2.regions.toList.zipIdx.find? fun r => r.1.waking).map fun r => (e.1, r.2)

/-- Whether an event changes a count. -/
def State.moves (s : State) (f : State → Nat) (o : Out) : Bool :=
  match o with
  | .next t => f t != f s
  | _ => true

/-- The first message of the network that can arrive. -/
def State.arrivable (s : State) : Option Nat :=
  (List.range s.net.length).find? fun i => s.moves (·.net.length) (execMessageArrival i s)

/-- Whether the first message in the send slots of a network can be accepted. -/
def State.acceptable (s : State) (vn : Bool) : Bool :=
  !(s.core.out vn).isEmpty && s.moves (fun t => ((t.getCore s.k).out vn).length) (execMessageAccepted s.k vn 0 s)

/-- A command of the current core's engine that completes or fails now. -/
def State.engineMoves (s : State) : Option Out :=
  let u := engineOf s.k
  let n := (s.engine.copies ++ s.engine.decodes).length
  (List.range n).findSome? fun i =>
    if s.moves (fun t => if t.cluster u == s.cluster u then 0 else 1) (execEngineComplete u i s) then some (execEngineComplete u i s)
    else if s.moves (fun t => if t.cluster u == s.cluster u then 0 else 1) (execEngineFail u i s) then some (execEngineFail u i s)
    else none

/-- The oldest outstanding access of the current core completes. -/
def State.pendMoves (s : State) : Option Out := s.oldestPend.map fun e => s.finishPend e.1 e.2

/-- The push that was pushed first is written. -/
def State.pushMoves (s : State) : Option Out := s.oldestPush.map fun e => execStreamWrite (some e.1) e.2 s

/-- The oldest counted tile operation of the current core completes. -/
def State.tileMoves (s : State) : Option Out := if s.core.tileq.isEmpty then none else some (execTileOpComplete s.k s)

/-- A free claim is granted, and offered tiles are exchanged. -/
def State.claimMoves (s : State) : Option Out :=
  if s.core.claim.isNone && !s.core.tacqs.isEmpty then some (execTacqGrant s.k s)
  else if s.core.offer.isSome && (s.getCore (mirrorOf s.k)).offer.isSome then some (execTswapExchange s.k s)
  else none

/-- What moves of the messages of the current core and the network. -/
def State.messageMoves (s : State) : Option Out :=
  if s.acceptable true then some (execMessageAccepted s.k true 0 s)
  else if s.acceptable false then some (execMessageAccepted s.k false 0 s)
  else s.arrivable.map fun i => execMessageArrival i s

/-- Whether an event of the signal box or of a collection round does something. -/
def State.boxStirs (s : State) (o : Out) : Bool :=
  match o with
  | .next t => t.tileqs != s.tileqs || t.parts != s.parts || t.clusters != s.clusters
  | _ => true

/-- What the signal box of the current core's quadrant does next: a dependence that is met, then a tile that can go (12 R312). -/
def State.boxMoves (s : State) : Option Out :=
  if s.tileqs.isEmpty || !isMesh s.k then none
  else
    let quad := quadOf s.k
    match (List.range 64).find? fun q =>
        (match s.tileq (quad * 64 + q) with | t :: _ => t.ready.isNone | [] => false) && s.boxStirs (execSboxDepRead quad q s) with
    | some q => some (execSboxDepRead quad q s)
    | none => if s.boxStirs (execTileDispatch quad s) then some (execTileDispatch quad s) else none

/-- What a thief does next; its victim is a free value (12 R309, log 21). -/
def State.thieves (s : State) : Option Out :=
  let c := s.core
  if !s.isThief s.k then none
  else
    match c.stealing with
    | some v => some (execStealServe v s)
    | none =>
      if c.thief.pause then some (execStealPauseEnd s.k s)
      else
        let vs := s.victims s.k c.thief.level
        some (execSteal s.k (vs.getD (s.fresh.1.toNat % vs.length) 0) s.fresh.2)

/-- What the current core starts, in the order of R311. -/
def State.starts (s : State) : Option Out :=
  let k := s.k
  let c := s.core
  if !s.running k then none
  else if (s.vn1Ready k).isSome then some (execMessageService k s)
  else
    match s.vn0Ready k with
    | some (_, m) => some (if m.call then execCallActivation k s else execMessageService k s)
    | none =>
      if !c.tileActs.isEmpty && s.withinLimits k then some (execTileActivation k s)
      else if (match c.regReqs with | r :: _ => s.withinLimits k && s.regsFit k (s.getCtx r).valloc.toNat | [] => false) then
        some (execVregGrant k s)
      else if s.hasRoom k && !(c.deque.isEmpty && c.siding.isEmpty) && c.tileActs.isEmpty then some (execTaskActivation k s)
      else s.thieves

/-- The collection round of the current core's partition, when its token can move (08 R211). -/
def State.roundMoves (s : State) : Option Out :=
  match s.partOf s.k with
  | some (i, p) =>
    if p.round.isSome && s.boxStirs (execCollectionRoundPass i s) then some (execCollectionRoundPass i s) else none
  | none => none

/-- An event happens, if there is one; what it lets retire is counted. -/
def State.goOn (s : State) (f : State → Option Out) : State :=
  match f s with
  | some (.next t) => s.countAll t s.k
  | _ => s

/-- What goes on beside the issue of instructions: of every kind of outstanding work the event of the current core that comes first,
where there is one (R315; log 3). -/
def State.background (s : State) : State :=
  [fun s : State => s.wakingRegion.map fun e => execRegionWakeDone e.1 e.2 s, State.waitDone, State.pendMoves, State.pushMoves,
    State.tileMoves, State.claimMoves, State.engineMoves, State.messageMoves, State.boxMoves, State.roundMoves,
    State.starts].foldl State.goOn { s with core := { s.core with aside := 0 } }

/-! ## One step of the current core -/

/-- TIMER events come due in the contexts of the current core (13 R325). -/
def State.raiseTimers (s : State) : State :=
  (ctxsOf s.k).foldl (fun s r =>
    let c := s.getCtx r
    if c.phase == .active && s.timeUp r && !c.timer then s.setCtx r { c with timer := true } else s) s

/-- The instruction of the integer side that an action issues. -/
def Act.issued (a : Act) : Option Instr :=
  match a with
  | .instr i => some i
  | _ => Option.none

/-- The replays of the current core's contexts end whose last loads have returned since its last cycle (06 R155). -/
def State.settleReplays (s : State) : State := State.settleOn 4 s.k s

/-- A context acts without an issue slot. -/
def State.actFree (side : Bool) (s : State) (r : Nat) : State :=
  let t := s.select r
  let a := t.nextAct side
  match a.free, (t.fetchFor a).perform a with
  | true, .next u => (s.countAct (t.afterAct u a) a r).select s.cur
  | _, _ => s

/-- The contexts of the current core that act without an issue slot. -/
def State.freeList (s : State) (side : Bool) : List Nat :=
  if s.issues s.k then (ctxsOf s.k).filter fun r => ((s.select r).nextAct side).free else []

/-- A cycle in which nothing issues: outstanding work goes on, unless the cycle is a quiet one. -/
def State.idleCycle (quiet : Bool) (s : State) : Out := .next ((if quiet then s else s.background).endCycle s.k [] [] false)

/-- Issue in a cycle, of the contexts that are not in a list: the arbiter's context, or, when its instruction traps or cannot issue,
another one; `n` bounds them. -/
def State.issueCycle (side quiet : Bool) : Nat → List Nat → State → Out
  | 0, _, s => s.idleCycle quiet
  | n + 1, out, s =>
    match s.arbiter side out with
    | none => s.idleCycle quiet
    | some r =>
      let t := s.select r
      let a := t.nextAct side
      let t := State.fetchFor { t with ctx := { t.ctx with drain := false } } a
      match t.perform a with
      | .next u =>
        let u := t.afterAct u a
        if heldBack t u a then State.issueCycle side quiet n (r :: out) u
        else
          let v := (((t.countAct u a r).noteFma t a.issued).granted ((s.readyList side out).filter (· != r)))
          .next (State.endCycle { v with core := { v.core with aside := v.core.aside + 1 } } v.k
            (pmcWritten a t u r) (monWritten a t u r) true)
      | o => o

/-- A cycle of the current core: what needs no issue slot, then one instruction; when none issues, outstanding work goes on. -/
def State.coreCycle (s : State) (side quiet : Bool) : Out :=
  let s := s.settleReplays
  let free := s.freeList side
  State.issueCycle side quiet 8 free (free.foldl (State.actFree side) s)

end Sys2Proof.Machine
end

