-- ==== Sys2Proof/Machine/Inputs.lean ====
section
/-! DEFINITION. What an entry of the agenda does: events of the table, time, supply, translation caches, other devices, the
host and the station master (log 3, 5, 9). -/

namespace Sys2Proof.Machine

open Sys2Proof

/-- The rows of the table that come about inside other steps only: instructions, which issue from their fetched bytes; train
blocks; body instructions; the CSR writes and the counter overflow of an instruction. -/
def inside (i : Instr) : Bool :=
  !(encode i).isEmpty ||
    match i with
    | .mma _ | .mmas _ | .loada _ | .zeroc _ | .storec _ | .post _ | .act _ | .calli _ | .brc _ | .skipz _ | .table _ | .link _
    | .exit _ => true
    | .frepBodyIssue => true
    | .hresWrite _ | .prioWrite _ | .cycleWrite _ | .tshapeWrite .. | .sposWrite .. | .frepitWrite .. | .wdrpcWrite _
    | .psatWrite _ | .pmcWrite .. | .pmcOverflow .. | .monWrite .. | .drpstWrite _ | .gqjobWrite _ | .csrWrite .. => true
    | _ => false

/-- Whether an event may come about: taking an event and fetching need a core that issues. -/
def State.mayRun (s : State) (i : Instr) : Bool :=
  !inside i &&
    match i with
    | .takeEvent => s.issues s.k
    | .fetch => s.issues s.k
    | _ => true

/-- The contexts that an event may let retire. -/
def State.actors (s : State) (i : Instr) : List Nat :=
  match i with
  | .takeEvent => [s.cur]
  | .trainEnd => [s.cur]
  | .releasePerform c => [c]
  | .awaitPoll c => [c]
  | .tlbiRetire c => [c]
  | .wfiWake c => [c]
  | .loadReturn c _ => [c]
  | .nearAck (some c) _ => [c]
  | .tileOpComplete k => ctxsOf k
  | .tacqGrant k => ctxsOf k
  | .tswapExchange k => ctxsOf k ++ ctxsOf (mirrorOf k)
  | _ => []

/-- An event of the table; retirements count for PMCs. -/
def State.runEvent (s : State) (i : Instr) : Out :=
  if !s.mayRun i then .next s
  else
    match exec i s with
    | .next t => .next ((s.actors i).foldl (fun t r => s.countAct t .none r) t)
    | o => o

/-! ## Translation caches (10 R273) -/

/-- Entries of one TLB that share its room: the last level holds page entries apart from the others (R273). -/
def sameRoom (t : TlbAt) (e : TlbEnt) (x : TlbAt × TlbEnt) : Bool :=
  let page (e : TlbEnt) : Bool := match e with | .page .. => true | _ => false
  x.1 == t && (match t with | .die _ => page x.2 == page e | _ => true)

/-- Entries that a TLB has room for beside an entry. -/
def tlbRoom (t : TlbAt) (e : TlbEnt) : Nat :=
  match t, e with
  | .core _, _ => Config.coreTlb
  | .cluster _, _ => Config.clusterTlb
  | .die _, .page .. => Config.dieTlbPages
  | .die _, _ => Config.dieTlbRanges

/-- An entry enters a TLB; when there is no room, it takes the place of one that the spec leaves open (log 21). -/
def State.tlbAdd (s : State) (t : TlbAt) (e : TlbEnt) : State :=
  let room := (s.tlb.zipIdx.filter fun x => sameRoom t e x.1).map (·.2)
  if room.length < tlbRoom t e then { s with tlb := (t, e) :: s.tlb }
  else { s.fresh.2 with tlb := (t, e) :: removeAt s.tlb (room.getD (s.fresh.1.toNat % room.length) 0) }

/-- Whether an address names the descriptor of a job's address space: nothing else has translations or records to cache. -/
def State.installed (s : State) (asd : Nat) : Bool :=
  (s.parts.any fun e => !e.2.idle && e.2.asd == asd) || s.jobs.any fun j => j.asd != 0 && j.asd == asd

/-- What a descriptor's address space holds now enters a TLB; nothing does for an address that is no job's descriptor. -/
def State.fill (s : State) (t : TlbAt) (asd : Nat) (e : Space → Option TlbEnt) : State :=
  if s.installed asd then
    match e ⟨asd, s.asidAt asd, s.k, .die⟩ with
    | some e => s.tlbAdd t e
    | none => s
  else s

/-- A page that the tables of an address space map now. -/
def State.pageEnt (s : State) (va : Word) (sp : Space) : Option TlbEnt :=
  match s.pageWalk sp.asd va with
  | .ok (sh, base, p) => some (.page sp.asid (va.toNat / 2 ^ sh * 2 ^ sh) sh base p)
  | .error _ => none

/-- Range entry `idx`, one of the RTCNT that there are. -/
def State.rangeFill (s : State) (idx : Nat) (sp : Space) : Option TlbEnt :=
  if idx < (s.rangeCount sp).getD 0 then some (.range sp.asid idx (s.words4 ((Mem.word s.mem (sp.asd + 8)).toNat + 32 * idx)))
  else none

/-- Format descriptor `idx` of the 64, where it lies in HBM. -/
def State.fdFill (s : State) (idx : Nat) (sp : Space) : Option TlbEnt :=
  let a := (Mem.word s.mem (sp.asd + 24)).toNat + 32 * idx
  if decide (idx < 64) && inHbm a 32 then some (.fd sp.asid idx (s.words4 a)) else none

/-- Window record `idx` of the 16. -/
def State.windowFill (s : State) (idx : Nat) (sp : Space) : Option TlbEnt :=
  if idx < 16 then some (.window sp.asid idx (s.words4 (sp.asd + 0x200 + 32 * idx))) else none

/-! ## Gather windows (10 R282) -/

/-- What an instruction comes to with a unit of a gather window read ahead, apart from the unit itself. -/
def State.withUnit (s : State) (i : Instr) (key : Nat) (l : List Byte) : Option State :=
  match exec i { s with ctx := { s.ctx with early := s.ctx.early ++ [(key, l)] } } with
  | .next t => some { t with ctx := { t.ctx with early := [] } }
  | _ => none

/-- The `n` bytes at a key are read ahead of the other reads of the instruction that the current context issues now, and of which they
are a unit: what the instruction does depends on them. The instruction has issued then, and goes on (R282, 11 R284). -/
def State.readEarly (s : State) (key n : Nat) : State :=
  let l := Mem.bytes s.mem key n
  if !s.issues s.k || !(s.island (islandOf s.k)).mayIssue || !([1, 2, 4, 8].contains n) || key % n != 0 then s
  else
    match s.nextAct true with
    | .instr i =>
      if s.withUnit i key l == s.withUnit i key (l.map (· ^^^ 0xFF)) then s
      else State.touch s.k { s with ctx := { s.ctx with early := s.ctx.early ++ [(key, l)], wait := .counters, fetched := some i } } [key]
    | _ => s

/-! ## Partitions and other devices -/

/-- The station master forms or reforms an idle partition of quadrants and gateway cores that no other one holds, kept in
ascending order; with no quadrant and no gateway core an idle partition is dissolved (12 R304). -/
def State.form (s : State) (i : Nat) (quads gws : List Nat) : State :=
  let others := s.parts.filter (·.1 != i)
  let ok := !quads.isEmpty && quads.all (· < 16) && gws.all (· < 18) && decide quads.Nodup && decide gws.Nodup &&
    others.all (fun e => !(e.2.quads.any quads.contains) && !(e.2.gws.any gws.contains)) &&
    (match s.part i with | some p => p.idle | none => true)
  if quads.isEmpty && gws.isEmpty then
    (match s.part i with | some p => if p.idle then { s with parts := drop s.parts i } else s | none => s)
  else if ok then s.setPart i
    ⟨(List.range 16).filter quads.contains, (List.range 18).filter gws.contains, 0, 0, true, none, none, false, 0, sliceTicks⟩
  else s

/-- The slices of a partition last `n` ticks from its next job on, 1 ms to 1,000 ms (12 R304). -/
def State.setSlice (s : State) (i n : Nat) : State :=
  match s.part i with
  | some p => if 1000000 ≤ n ∧ n ≤ 1000000000 then s.setPart i { p with length := n } else s
  | none => s

/-- The station master sets the ring of a job's message siding, while no message is in it: at least 4,096 entries (12 R306). -/
def State.setRing (s : State) (asid key entries : Nat) : State :=
  match s.job asid with
  | some j =>
    if 4096 ≤ entries ∧ j.siding = [] ∧ isHbmKey (key + 320 * entries) then
      s.setJob { j with ring := some key, entries := entries, entered := 0 }
    else s
  | none => s

/-- Another device has accepted a message that this one sent (15 R356); those of one route are accepted in their order. -/
def State.accepted (s : State) (i : Nat) : State :=
  match s.sent[i]? with
  | some m => if (s.sent.take i).any (sameRoute m) then s else { s with sent := removeAt s.sent i }
  | none => s

/-- The station master sets aside a region of HBM for the deque siding of a core, while no record is in it (12 R308). -/
def State.setDeque (s : State) (core key : Nat) : State :=
  if (s.getCore core).siding.isEmpty && isHbmKey (key + 64 * Config.dequeSidingSize - 1) then
    s.modCore core fun c => { c with dqAt := some key, dqIn := 0 }
  else s

/-- Another device writes memory of this one, HBM or CLM and never gateway memory (15 R362), or memory of another device: the words'
copies are unowned then, whichever device they live on (11 R287, R296). -/
def State.remoteWrite (s : State) (cells : List Host.Cell) : State :=
  if cells.all fun e => isHbmKey e.1 || isClmKey e.1 then s.homeWrite cells
  else if cells.all fun e => isRemoteKey e.1 && s.phys (e.1 - 2 ^ 53) == .key e.1 then s.homeStore cells
  else s

/-- A context number that no context of this device has: the sender of a message from another device. -/
def foreign : Nat := 0x100000

/-- A message from another device reaches this device's network, its payload rebuilt (15 R359, R360). -/
def State.receive (s : State) (m : Msg) : State :=
  if m.w0.extractLsb' 16 9 == s.dev.devnum && m.mid.extractLsb' 16 9 != s.dev.devnum then
    { s with net := s.net ++
        [{ m with payload := fromWire (msgFmt m.w0) (msgPlen m.w0) m.payload, again := false, src := foreign }] }
  else s

/-- Whether a number names a context of the package. -/
def isCtx (r : Nat) : Bool := decide (r < Config.masterCore * 8) || r == Config.masterCore * 8

/-- A cycle of the current core; a partition whose switch time has come stops first, and one that has not stopped in time is
faulted (12 R305). After 16 cycles with an issue outstanding work goes on first, unless the cycle is a quiet one (R315; log 3). -/
def State.cycleStep (s : State) (side quiet : Bool) : Out :=
  if s.parts.any fun e => s.overdue e.2 then .next s.drainFaults
  else
    match s.parts.find? fun e => s.mustStop e.2 with
    | some (i, p) => .next (s.stopPart i p)
    | none =>
      if decide (16 ≤ s.core.aside) && !quiet then s.misread (s.coreReader s.k) fun s => .next s.background
      else (s.beginTurn s.k).raiseTimers.misread (s.coreReader s.k) (·.coreCycle side quiet)

/-- The core whose command stands at a place of an engine. -/
def State.commander (s : State) (u i : Nat) : Nat :=
  match (s.cluster u).cmd i with
  | some e => e.ctx / 8
  | none => s.k

/-- What the reads of an event are made for: a core, a signal box, or the station master. -/
def State.readerOf (s : State) (i : Instr) : Reader :=
  let orphan (j : Nat) := s.coreReader (((s.orphans[j]?).map (·.1)).getD s.cur / 8)
  match i with
  | .sboxDepRead quad _ => s.boxReader quad
  | .launch vf _ | .launchComplete vf _ | .waitvalComplete vf _ => s.hostReader vf
  | .storeAck none j | .nearAck none j | .streamWrite none j => orphan j
  | .storeAck (some c) _ | .streamWrite (some c) _ | .streamFetch c _ => s.coreReader (c / 8)
  | .engineComplete u j | .engineFail u j => s.coreReader (s.commander u j)
  | .dequeRefill k | .messageService k | .callActivation k | .taskActivation k | .vregGrant k | .messageAccepted k _ _ =>
    s.coreReader k
  | _ => s.coreReader ((s.actors i).headD s.cur / 8)

/-- One entry of the agenda. -/
def State.input (s : State) (i : Input) : Out :=
  match i with
  | .run i => s.misread (s.readerOf i) (·.runEvent i)
  | .select r => if isCtx r then .next (s.select r) else .fault .noContext
  | .side => s.cycleStep true false
  | .quiet => s.cycleStep false true
  | .tick n => .next (s.ticks n)
  | .cycle i n => .next (iter (fun s => s.nextCycle i) n (s.catchUp i))
  | .low i => execDroopAlarm i s
  | .tlbPage t asd va => .next (s.fill t asd (s.pageEnt va))
  | .tlbRange t asd idx => .next (s.fill t asd (s.rangeFill idx))
  | .tlbFd t asd idx => .next (s.fill t asd (s.fdFill idx))
  | .tlbWindow t asd idx => .next (s.fill t asd (s.windowFill idx))
  | .tlbEvict idx => .next { s with tlb := removeAt s.tlb idx }
  | .l1Evict core word => .next (s.modCore core fun c => c.l1Drop word)
  | .l1iEvict core gran => .next (s.modCore core fun c => { c with l1i := drop c.l1i gran })
  | .lane r i j => s.misread (s.coreReader (r / 8)) fun s => .next (s.as r (·.laneDone i j))
  | .early r key n => s.misread (s.coreReader (r / 8)) fun s => .next (s.as r (·.readEarly key n))
  | .part r i j => s.misread (s.coreReader (r / 8)) fun s => .next (s.as r (·.readPart (BitVec.ofNat 2 i) j))
  | .engine u i => s.misread (s.coreReader (s.commander u i)) fun s => .next (s.engineStep u i)
  | .symbols cluster row lane errs => .next (s.setSymbols cluster row lane errs)
  | .hbmError core => .next (s.fatal core 2)
  | .counted r evt => .next (if isCtx r && decide (7 ≤ evt ∧ evt ≤ 9) then s.pmc (r / 8) evt (some (r % 8)) else s)
  | .control off v => .next (s.control off v)
  | .partition i quads gws => .next (s.form i quads gws)
  | .slice i n => .next (s.setSlice i n)
  | .ring job key entries => .next (s.setRing job key entries)
  | .deque core key => .next (s.setDeque core key)
  | .rollback => .next { s with dev := { s.dev with svnUp := s.dev.svnUp + 1 } }
  | .accepted i => .next (s.accepted i)
  | .message m => .next (s.receive m)
  | .remoteWrite cells => .next (s.remoteWrite cells)
  | .hostWrite cells => .next { s with hostMem := Mem.setAll s.hostMem cells }
  | .mailbox off bytes => .next (s.mailboxWrite off bytes)

/-- Where `withFetchWord` puts an instruction in HBM. -/
def fetchPlace : Nat := 0x10000

/-- A page of the current address space at PC that may be fetched, at `fetchPlace`. -/
def fetchEnt (asid : Nat) (pc : Word) : TlbEnt := .page asid (pc.toNat / 4096 * 4096) 12 fetchPlace ⟨true, false, false, true, false, 0⟩

/-- The current core with a partition of its own that runs a job, when it has none; no switch is due. -/
def State.withPart (s : State) : State :=
  let s := { s with parts := s.parts.map fun (e : Nat × Part) => (e.1, { e.2 with switch := none }) }
  match s.partOf s.k with
  | some (i, p) => s.setPart i { p with idle := false, stopping := false, switch := none }
  | none =>
    let quads := if isMesh s.k then [quadOf s.k] else []
    let gws := if isGateway s.k then [gwOf s.k] else []
    s.setPart 0 ⟨quads, gws, 0, 1, false, none, none, false, 0, sliceTicks⟩

/-- The current context active, waiting for nothing, first in arbitration, its PC at a block. -/
def Ctx.fetchReady (c : Ctx) : Ctx :=
  { c with
    phase := .active, wait := .none, drain := false, eff := 127, pc := c.pc - BitVec.ofNat 64 (c.pc.toNat % 32)
    rep := { c.rep with act := false, loads := [], ends := [] }, wd := { c.wd with wdm := false, block := none }, pend := [], fma := [], early := [], fetched := none }

end Sys2Proof.Machine
end

