-- ==== Sys2Proof/Machine/Step.lean ====
section
/-! DEFINITION. One step of the machine: the first entry of the agenda, or, with none, a cycle of the current core; and the
placing of an instruction where the next step fetches (log 2, 3). -/

namespace Sys2Proof.Machine

open Sys2Proof

/-- One step. -/
def step (s : State) : Host.Outcome State Fault Refusal :=
  match s.agenda with
  | i :: rest => State.input { s with agenda := rest } i
  | [] => s.cycleStep false false

/-- `s` with an instruction's bits (zero above `nbits`, up to 16 bytes) where the next step fetches: in HBM, mapped at the
current context's PC, the context active on a core whose partition runs a job (log 2). -/
def State.withFetchWord (s : State) (nbits w : Nat) : State :=
  let s := s.withPart
  let c := s.ctx.fetchReady
  let key := fetchPlace + c.pc.toNat % 4096
  let s := { s with
    ctx := c
    core := { s.core with
      last := (s.c + 7) % 8, aside := 0, l1i := s.core.l1i.filter fun e => !(key / 4 ≤ e.1 && e.1 < key / 4 + 8) }
    checks := []
    upset := []
    read := []
    mem := Mem.setAll s.mem (cellsOf key 16 (w % 2 ^ nbits))
    agenda := [] }
  { s with tlb := (.die (dieOf s.k), fetchEnt (((s.space s.k).map (·.asid)).getD 0) c.pc) :: s.tlb }

end Sys2Proof.Machine
end

