-- ==== Sys2Proof/Safety.lean ====
section
/-! DEFINITION. The terms claims are stated in: what it is for an instruction to complete, to trap and to leave memory alone, the
invariant of memory, and tables of what the spec says an instruction computes, written in the numbers the spec uses. -/

namespace Sys2Proof.Machine

open Sys2Proof

/-! ## Invariants -/

/-- Every memory of the state is in its canonical form: addresses strictly rising, no entry equal to what an unlisted address
reads as. -/
def State.Canonical (s : State) : Prop :=
  Memory.wf s.mem = true ∧ Memory.wf s.hostMem = true ∧ Memory.wf s.dev.stage = true

/-! ## Memory, byte by byte -/

/-- Every byte reads as before. -/
def SameMemory (s t : State) : Prop := ∀ a, Mem.get t.mem a = Mem.get s.mem a

/-- From a memory in canonical form: every byte reads as the cells say, those they do not name as before. -/
def Stored (s t : State) (cells : List Host.Cell) : Prop :=
  Memory.wf s.mem = true → ∀ a, Mem.get t.mem a = (cellsGet cells a).getD (Mem.get s.mem a)

/-! ## How an instruction ends -/

/-- PC after an instruction of `len` bytes; a body instruction of a replay leaves it (04 R85, 06 R155). -/
def nextPc (s : State) (len : Nat) : Word := if s.ctx.rep.issuing then s.ctx.pc else s.ctx.pc + BitVec.ofNat 64 len

/-- Instruction `i` in state `s` completes: it answers the state `u`, which its effect has made of `s`, with PC moved on, one more
instruction counted and nothing waited for (04 R85). -/
def Done (i : Instr) (s u : State) (len : Nat) : Prop :=
  exec i s = .next { u with ctx := { u.ctx with pc := nextPc s len, instret := s.ctx.instret + 1, wait := .none } }

/-- A jump completes: the same with PC given (04 R94, R95). -/
def Goes (i : Instr) (s u : State) (pc : Word) : Prop :=
  exec i s = .next { u with ctx := { u.ctx with pc := pc, instret := s.ctx.instret + 1, wait := .none } }

/-- An instruction takes a trap in place of its effect (13 R320, R321). -/
def Traps (i : Instr) (s : State) (t : Trap) : Prop := exec i s = .next (s.trap t)

/-- An instruction waits at PC with none of its effect. -/
def Waits (i : Instr) (s : State) (w : Wait) : Prop := exec i s = .next (s.stall w)

/-- An event of the table, or an instruction, answers a state. -/
def Gives (i : Instr) (s t : State) : Prop := exec i s = .next t

/-- An access is added at the end of the context's program order, with the homes it reaches, each on its path. -/
def State.issuingAt (s : State) (op : PendOp) (sites : List (Path × Nat)) : State :=
  { s with ctx := { s.ctx with pend := s.ctx.pend ++ [⟨s.nextId, op, sites, false⟩] }, nextId := s.nextId + 1 }

/-- An access of one path is added. -/
def State.issuing (s : State) (op : PendOp) (homes : List Nat) : State := s.issuingAt op (homes.map (op.path, ·))

/-- Nothing of the current context is left in its core's tile operations or its engine's commands. -/
def Settled (s : State) : Prop :=
  s.core.tileq = [] ∧ ∀ x ∈ (s.cluster (engineOf s.k)).copies ++ (s.cluster (engineOf s.k)).decodes, x.ctx ≠ s.cur

/-- Memory addresses as the checks of an access give them: each with its home. -/
def sources (keys homes : List Nat) : List LaneSrc := (keys.zip homes).map fun e => .mem e.1 e.2

/-- What a register x[r] holds after v is written to x[d]: a write to x0 is discarded (01 R15). -/
def XHolds (s t : State) (d : Reg) (v : Word) : Prop := ∀ r, t.x r = if r = d ∧ d ≠ 0 then v else s.x r

/-! ## What integer instructions compute (03 R61, 04 R87 to R93) -/

/-- Quotient and remainder of R61. -/
def quotS (a b : Int) : Int := if b = 0 then -1 else a.tdiv b
def remainS (a b : Int) : Int := if b = 0 then a else a.tmod b
def quotU (a b : Nat) : Nat := if b = 0 then 2 ^ 64 - 1 else a / b
def remainU (a b : Nat) : Nat := if b = 0 then a else a % b

/-- The low 64 bits of an integer. -/
def ofI (i : Int) : Word := BitVec.ofInt 64 i
def ofN (n : Nat) : Word := BitVec.ofNat 64 n

/-- 1 or 0. -/
def flagOf (p : Prop) [Decidable p] : Word := if p then 1 else 0

/-- Length in bytes, destination and result of an integer instruction. -/
def intResult (s : State) (i : Instr) : Option (Nat × Reg × Word) :=
  let u (r : Reg) : Nat := (s.x r).toNat
  let z (r : Reg) : Int := (s.x r).toInt
  match i with
  | .add d a b => some (8, d, ofN (u a + u b))
  | .sub d a b => some (8, d, ofI (z a - z b))
  | .and d a b => some (8, d, s.x a &&& s.x b)
  | .or d a b => some (8, d, s.x a ||| s.x b)
  | .xor d a b => some (8, d, s.x a ^^^ s.x b)
  | .sll d a b => some (8, d, ofN (u a * 2 ^ (u b % 64)))
  | .srl d a b => some (8, d, ofN (u a / 2 ^ (u b % 64)))
  | .sra d a b => some (8, d, ofI (z a / 2 ^ (u b % 64)))
  | .slt d a b => some (8, d, flagOf (z a < z b))
  | .sltu d a b => some (8, d, flagOf (u a < u b))
  | .min d a b => some (8, d, ofI (min (z a) (z b)))
  | .max d a b => some (8, d, ofI (max (z a) (z b)))
  | .minu d a b => some (8, d, ofN (min (u a) (u b)))
  | .maxu d a b => some (8, d, ofN (max (u a) (u b)))
  | .sel d a b c => some (8, d, if u c ≠ 0 then s.x a else s.x b)
  | .mul d a b => some (8, d, ofI (z a * z b))
  | .mulh d a b => some (8, d, ofI (z a * z b / 2 ^ 64))
  | .mulhu d a b => some (8, d, ofN (u a * u b / 2 ^ 64))
  | .div d a b => some (8, d, ofI (quotS (z a) (z b)))
  | .divu d a b => some (8, d, ofN (quotU (u a) (u b)))
  | .rem d a b => some (8, d, ofI (remainS (z a) (z b)))
  | .remu d a b => some (8, d, ofN (remainU (u a) (u b)))
  | .addi d a n => some (8, d, ofI (z a + n.toInt))
  | .andi d a n => some (8, d, s.x a &&& ofI n.toInt)
  | .ori d a n => some (8, d, s.x a ||| ofI n.toInt)
  | .xori d a n => some (8, d, s.x a ^^^ ofI n.toInt)
  | .slti d a n => some (8, d, flagOf (z a < n.toInt))
  | .slli d a n => some (8, d, ofN (u a * 2 ^ n.toNat))
  | .srli d a n => some (8, d, ofN (u a / 2 ^ n.toNat))
  | .srai d a n => some (8, d, ofI (z a / 2 ^ n.toNat))
  | .ldhi d n => some (8, d, ofI (n.toInt * 4096))
  | .addpc d n => some (8, d, s.ctx.pc + ofI (n.toInt * 4096))
  | .li d n => some (12, d, ofI n.toInt)
  | .lea d a n => some (12, d, s.x a + ofI n.toInt)
  | .leaPc d n => some (12, d, s.ctx.pc + ofI n.toInt)
  | .li64 d n => some (16, d, n)
  | _ => none

/-- Whether a conditional branch is taken, and its offset in granules (04 R94). -/
def branchOf (s : State) (i : Instr) : Option (Bool × BitVec 20) :=
  match i with
  | .beq a b o => some (decide ((s.x a).toNat = (s.x b).toNat), o)
  | .bne a b o => some (decide ((s.x a).toNat ≠ (s.x b).toNat), o)
  | .blt a b o => some (decide ((s.x a).toInt < (s.x b).toInt), o)
  | .bge a b o => some (decide ((s.x b).toInt ≤ (s.x a).toInt), o)
  | .bltu a b o => some (decide ((s.x a).toNat < (s.x b).toNat), o)
  | .bgeu a b o => some (decide ((s.x b).toNat ≤ (s.x a).toNat), o)
  | _ => none

/-- The instructions that change nothing but x registers, mask registers, PC, INSTRET and the wait when they complete. -/
def registerOnly (i : Instr) : Bool :=
  match i with
  | .add .. | .sub .. | .and .. | .or .. | .xor .. | .sll .. | .srl .. | .sra .. | .slt .. | .sltu .. | .min .. | .max ..
  | .minu .. | .maxu .. | .sel _ _ _ _ | .clz .. | .ctz .. | .popc .. | .mul .. | .mulh .. | .mulhu .. | .div .. | .divu ..
  | .rem .. | .remu .. | .addi .. | .andi .. | .ori .. | .xori .. | .slti .. | .slli .. | .srli .. | .srai .. | .bfx ..
  | .bfi .. | .ldhi .. | .addpc .. | .li .. | .lea .. | .leaPc .. | .li64 .. | .beq .. | .bne .. | .blt .. | .bge ..
  | .bltu .. | .bgeu .. | .j .. | .jal .. | .jl .. | .mand .. | .mor .. | .mxor .. | .mnot .. | .mpop .. | .mfirst ..
  | .mset .. | .msetX .. | .sstat .. | .dstat .. | .nop => true
  | _ => false

/-- The x and m registers an instruction of `registerOnly` writes. -/
def xDest (i : Instr) : Option Reg :=
  match i with
  | .add d _ _ | .sub d _ _ | .and d _ _ | .or d _ _ | .xor d _ _ | .sll d _ _ | .srl d _ _ | .sra d _ _ | .slt d _ _
  | .sltu d _ _ | .min d _ _ | .max d _ _ | .minu d _ _ | .maxu d _ _ | .sel d _ _ _ | .clz d _ | .ctz d _ | .popc d _
  | .mul d _ _ | .mulh d _ _ | .mulhu d _ _ | .div d _ _ | .divu d _ _ | .rem d _ _ | .remu d _ _ | .addi d _ _
  | .andi d _ _ | .ori d _ _ | .xori d _ _ | .slti d _ _ | .slli d _ _ | .srli d _ _ | .srai d _ _ | .bfx d _ _ _
  | .bfi d _ _ _ | .ldhi d _ | .addpc d _ | .li d _ | .lea d _ _ | .leaPc d _ | .li64 d _ | .jal d _ | .jl d _ | .mpop d _
  | .mfirst d _ | .msetX d _ | .sstat d _ | .dstat d _ => some d
  | _ => none

def mDest (i : Instr) : Option MReg :=
  match i with
  | .mand d _ _ | .mor d _ _ | .mxor d _ _ | .mnot d _ | .mset d _ => some d
  | _ => none

/-! ## Operands of f and v registers (01 R29, 05 R115, 06 R141, R142) -/

/-- What source operand `u` delivers when the operands `p` come before it: what its register holds, or, when that is bound to an active
stream, the stream's next element, of those that have arrived, that no earlier operand takes. -/
def State.delivered (s : State) (p : List Use) (u : Use) : VWord :=
  match s.ctx.bound u.isV u.reg with
  | none => if u.isV then s.v u.reg else (s.f u.reg).zeroExtend 512
  | some k => (s.stream k).got.getD (popsOf s.ctx k p) 0

/-- The source operands of an instruction deliver the values `v`, in their order: every element that they pop has arrived. A destination
bound to a write stream finds an element left, whose index word can be read now and whose place passes its checks (06 R141, R142). -/
def Supplied (s : State) (us : List Use) (v : List VWord) : Prop :=
  (∀ k : BitVec 2, let n := popsOf s.ctx k us
    n ≤ (s.stream k).got.length ∧ (n ≠ 0 → (s.stream k).spos.toNat + n ≤ (s.stream k).act.total)) ∧
  v.length = (us.filter (·.role == .src)).length ∧
  (∀ (p q : List Use) (u : Use), us = p ++ u :: q → u.role = .src →
    v[(p.filter (·.role == .src)).length]? = some (s.delivered p u)) ∧
  (∀ (p q : List Use) (u : Use) (k : BitVec 2), us = p ++ u :: q → u.role = .dst → s.ctx.bound u.isV u.reg = some k →
    let n := (s.stream k).spos.toNat + pushesOf s.ctx k p
    n < (s.stream k).act.total ∧ ∃ x, s.pushPlace (s.stream k).act n = .ok x) ∧
  s.pushesReady us = true

/-- The state after the pops of an instruction: each stream has moved past the elements it delivered (06 R141, R147). -/
def State.popAll (s : State) (us : List Use) : State :=
  { s with ctx := { s.ctx with streams := Vector.ofFn fun j : Fin 4 =>
    let t := s.ctx.streams[j]
    let n := popsOf s.ctx (BitVec.ofFin j) us
    if n = 0 then t
    else { t with spos := t.spos + ofN n, got := t.got.drop n, part := .none, ended := decide (t.act.total ≤ t.spos.toNat + n) } } }

/-- What an inactive lane of a vector destination keeps: a destination bound to a stream has no current value (05 R114). -/
def State.oldV (s : State) (d : Reg) : VWord := if (s.ctx.bound true d).isSome then 0 else s.v d

/-- Operand `n` as an f register's value. -/
def fv (l : List VWord) (n : Nat) : Word := sf l n

/-- Where a scalar floating-point instruction puts its result: its f destination, or x[d]. -/
inductive FDst where
  | f
  | x (d : Reg)
  deriving DecidableEq, Repr

/-- A scalar floating-point instruction: relative offset, f operands (a destination first), what it computes from its
sources, and where the result goes (04 R105 to R111). -/
structure FOp where
  rimm : BitVec 6
  ops  : List Opnd
  res  : List VWord → FRes
  dst  : FDst

/-- A result without flags. -/
def plainRes (w : Word) : FRes := ⟨w, 0⟩

/-- The table of R105 to R111. -/
def fpOp (s : State) (i : Instr) : Option FOp :=
  match i with
  | .fadd d a b k => some ⟨k.rimm, [fD d, fS a, fS b], fun v => ieeeAdd k.fmt (s.mode k.frm) (fv v 0) (fv v 1), .f⟩
  | .fsub d a b k => some ⟨k.rimm, [fD d, fS a, fS b], fun v => ieeeSub k.fmt (s.mode k.frm) (fv v 0) (fv v 1), .f⟩
  | .fmul d a b k => some ⟨k.rimm, [fD d, fS a, fS b], fun v => ieeeMul k.fmt (s.mode k.frm) (fv v 0) (fv v 1), .f⟩
  | .fdiv d a b k => some ⟨k.rimm, [fD d, fS a, fS b], fun v => ieeeDiv k.fmt (s.mode k.frm) (fv v 0) (fv v 1), .f⟩
  | .fsqrt d a k => some ⟨k.rimm, [fD d, fS a], fun v => ieeeSqrt k.fmt (s.mode k.frm) (fv v 0), .f⟩
  | .fma d a b c k =>
    some ⟨k.rimm, [fD d, fS a, fS b, fS c], fun v => ieeeFma k.fmt (s.mode k.frm) false false (fv v 0) (fv v 1) (fv v 2), .f⟩
  | .fms d a b c k =>
    some ⟨k.rimm, [fD d, fS a, fS b, fS c], fun v => ieeeFma k.fmt (s.mode k.frm) false true (fv v 0) (fv v 1) (fv v 2), .f⟩
  | .fnma d a b c k =>
    some ⟨k.rimm, [fD d, fS a, fS b, fS c], fun v => ieeeFma k.fmt (s.mode k.frm) true false (fv v 0) (fv v 1) (fv v 2), .f⟩
  | .fnms d a b c k =>
    some ⟨k.rimm, [fD d, fS a, fS b, fS c], fun v => ieeeFma k.fmt (s.mode k.frm) true true (fv v 0) (fv v 1) (fv v 2), .f⟩
  | .fmin d a b f r => some ⟨r, [fD d, fS a, fS b], fun v => ieeeMinMax f false (fv v 0) (fv v 1), .f⟩
  | .fmax d a b f r => some ⟨r, [fD d, fS a, fS b], fun v => ieeeMinMax f true (fv v 0) (fv v 1), .f⟩
  | .feq d a b f r =>
    some ⟨r, [fS a, fS b], fun v => ⟨truth (ieeeRel f .eq (fv v 0) (fv v 1)).1, (ieeeRel f .eq (fv v 0) (fv v 1)).2⟩, .x d⟩
  | .flt d a b f r =>
    some ⟨r, [fS a, fS b], fun v => ⟨truth (ieeeRel f .lt (fv v 0) (fv v 1)).1, (ieeeRel f .lt (fv v 0) (fv v 1)).2⟩, .x d⟩
  | .fle d a b f r =>
    some ⟨r, [fS a, fS b], fun v => ⟨truth (ieeeRel f .le (fv v 0) (fv v 1)).1, (ieeeRel f .le (fv v 0) (fv v 1)).2⟩, .x d⟩
  | .fclass d a f r => some ⟨r, [fS a], fun v => plainRes (ieeeClass f (fv v 0)), .x d⟩
  | .fsgn d a b m f r =>
    some ⟨r, [fD d, fS a, fS b], fun v => plainRes (withSign f (fv v 0)
      (fsgnSign m ((fv v 0).getLsbD (fpOf f).sign) ((fv v 1).getLsbD (fpOf f).sign))), .f⟩
  | .fmvX d a f r => some ⟨r, [fS a], fun v => plainRes (fmtBits f (fv v 0)), .x d⟩
  | .fmvF d a f r => some ⟨r, [fD d], fun _ => plainRes (fmtBits f (s.x a)), .f⟩
  | .fcvt .sd d a f r => some ⟨r, [fD d, fS a], fun v => ieeeConv .s .d (s.mode f) (fv v 0), .f⟩
  | .fcvt .ds d a f r => some ⟨r, [fD d, fS a], fun v => ieeeConv .d .s (s.mode f) (fv v 0), .f⟩
  | .fcvt .sw d a f r => some ⟨r, [fD d], fun _ => ofIntFp .s (s.mode f) (low32s (s.x a.n)), .f⟩
  | .fcvt .sl d a f r => some ⟨r, [fD d], fun _ => ofIntFp .s (s.mode f) (s.x a.n).toInt, .f⟩
  | .fcvt .dw d a f r => some ⟨r, [fD d], fun _ => ofIntFp .d (s.mode f) (low32s (s.x a.n)), .f⟩
  | .fcvt .dl d a f r => some ⟨r, [fD d], fun _ => ofIntFp .d (s.mode f) (s.x a.n).toInt, .f⟩
  | .fcvt .ws d a f r => some ⟨r, [fS a], fun v => toIntFp .s (s.mode f) 32 (fv v 0), .x d.n⟩
  | .fcvt .ls d a f r => some ⟨r, [fS a], fun v => toIntFp .s (s.mode f) 64 (fv v 0), .x d.n⟩
  | .fcvt .wd d a f r => some ⟨r, [fS a], fun v => toIntFp .d (s.mode f) 32 (fv v 0), .x d.n⟩
  | .fcvt .ld d a f r => some ⟨r, [fS a], fun v => toIntFp .d (s.mode f) 64 (fv v 0), .x d.n⟩
  | _ => none

/-- The result written where it goes; to a register bound to a write stream it is pushed. -/
def FOp.put (o : FOp) (us : List Use) (w : Word) (s : State) : State :=
  match o.dst with
  | .f => s.writeF (rg (us.map (·.reg)) 0) w
  | .x d => s.setX d w

/-! ## Lane-wise vector instructions (05 R113 to R123) -/

/-- A lane-wise vector instruction: its control fields, destination, source operands, lane width in bytes, first lane and
number of lanes it computes, what each computed lane is, and a flag its block scale raises. -/
structure VOp where
  k     : VCtl
  d     : ROp
  srcs  : List Opnd
  n     : Nat
  lo    : Nat
  cnt   : Nat
  extra : List VWord → Flags
  lane  : List VWord → Nat → FRes

/-- An instruction on every lane of its element width. -/
def VOp.whole (k : VCtl) (d : ROp) (srcs : List Opnd) (f : List VWord → Nat → FRes) : VOp :=
  ⟨k, d, srcs, ewBytes k.ew, 0, 64, fun _ => 0, f⟩

/-- Lane `j` of source `q` at the element width. -/
def lv (k : VCtl) (v : List VWord) (q j : Nat) : Word := Machine.lane (sv v q) (ewBytes k.ew) j

/-- An operation that is `fp` on floating-point widths and `int` on integer ones. -/
def byWidth (k : VCtl) (fp : Fmt → FRes) (int : Word) : FRes :=
  match k.ew with
  | .s => fp .s
  | .d => fp .d
  | _ => ⟨int, 0⟩

/-- The signed value of a lane of the element width. -/
def li (k : VCtl) (w : Word) : Int := laneInt (ewBytes k.ew) w

/-- The shift count of a lane. -/
def ls (k : VCtl) (w : Word) : Nat := w.toNat % (8 * ewBytes k.ew)

/-- The table of R117 to R123. -/
def vOp (s : State) (i : Instr) : Option VOp :=
  match i with
  | .vadd d a b k => some (.whole k d [vS a, vS b] fun v j =>
      byWidth k (fun f => ieeeAdd f (s.mode k.frm) (lv k v 0 j) (lv k v 1 j)) (lv k v 0 j + lv k v 1 j))
  | .vsub d a b k => some (.whole k d [vS a, vS b] fun v j =>
      byWidth k (fun f => ieeeSub f (s.mode k.frm) (lv k v 0 j) (lv k v 1 j)) (lv k v 0 j - lv k v 1 j))
  | .vmul d a b k => some (.whole k d [vS a, vS b] fun v j =>
      byWidth k (fun f => ieeeMul f (s.mode k.frm) (lv k v 0 j) (lv k v 1 j)) (lv k v 0 j * lv k v 1 j))
  | .vdiv d a b k => some (.whole k d [vS a, vS b] fun v j =>
      byWidth k (fun f => ieeeDiv f (s.mode k.frm) (lv k v 0 j) (lv k v 1 j)) 0)
  | .vsqrt d a k => some (.whole k d [vS a] fun v j => byWidth k (fun f => ieeeSqrt f (s.mode k.frm) (lv k v 0 j)) 0)
  | .vmin d a b k => some (.whole k d [vS a, vS b] fun v j =>
      byWidth k (fun f => ieeeMinMax f false (lv k v 0 j) (lv k v 1 j))
        (ofI (min (li k (lv k v 0 j)) (li k (lv k v 1 j)))))
  | .vmax d a b k => some (.whole k d [vS a, vS b] fun v j =>
      byWidth k (fun f => ieeeMinMax f true (lv k v 0 j) (lv k v 1 j))
        (ofI (max (li k (lv k v 0 j)) (li k (lv k v 1 j)))))
  | .vabs d a k => some (.whole k d [vS a] fun v j =>
      byWidth k (fun f => plainRes (withSign f (lv k v 0 j) false)) (ofI (li k (lv k v 0 j)).natAbs))
  | .vneg d a k => some (.whole k d [vS a] fun v j =>
      byWidth k (fun f => plainRes (withSign f (lv k v 0 j) (!(lv k v 0 j).getLsbD (fpOf f).sign))) (ofI (-li k (lv k v 0 j))))
  | .vand d a b k => some (.whole k d [vS a, vS b] fun v j => byWidth k (fun _ => plainRes 0) (lv k v 0 j &&& lv k v 1 j))
  | .vor d a b k => some (.whole k d [vS a, vS b] fun v j => byWidth k (fun _ => plainRes 0) (lv k v 0 j ||| lv k v 1 j))
  | .vxor d a b k => some (.whole k d [vS a, vS b] fun v j => byWidth k (fun _ => plainRes 0) (lv k v 0 j ^^^ lv k v 1 j))
  | .vshl d a b k => some (.whole k d [vS a, vS b] fun v j =>
      byWidth k (fun _ => plainRes 0) (ofN ((lv k v 0 j).toNat * 2 ^ ls k (lv k v 1 j))))
  | .vshr d a b k => some (.whole k d [vS a, vS b] fun v j =>
      byWidth k (fun _ => plainRes 0) (ofN ((lv k v 0 j).toNat / 2 ^ ls k (lv k v 1 j))))
  | .vsra d a b k => some (.whole k d [vS a, vS b] fun v j =>
      byWidth k (fun _ => plainRes 0) (ofI (li k (lv k v 0 j) / 2 ^ ls k (lv k v 1 j))))
  | .vsel d a b c k => some (.whole k d [vS a, vS b] fun v j =>
      plainRes (if (s.m c).getLsbD (j * ewBytes k.ew) then lv k v 0 j else lv k v 1 j))
  | .vexp2 d a k => some (.whole k d [vS a] fun v j => byWidth k (fun f => redExp2 f (lv k v 0 j)) 0)
  | .vrcp d a k => some (.whole k d [vS a] fun v j => byWidth k (fun f => redRcp f (lv k v 0 j)) 0)
  | .vrsq d a k => some (.whole k d [vS a] fun v j => byWidth k (fun f => redRsq f (lv k v 0 j)) 0)
  | .vfma d a b c k => some (.whole k d [vS a, vS b, vS c] fun v j =>
      byWidth k (fun f => ieeeFma f (s.mode k.frm) false false (lv k v 0 j) (lv k v 1 j) (lv k v 2 j)) 0)
  | .vfms d a b c k => some (.whole k d [vS a, vS b, vS c] fun v j =>
      byWidth k (fun f => ieeeFma f (s.mode k.frm) false true (lv k v 0 j) (lv k v 1 j) (lv k v 2 j)) 0)
  | .vbcast d a k => some (.whole k d (scalarOps k.ew a) fun v _ => plainRes (s.scalar k.ew a v))
  | .vperm d a b k => some (.whole k d [vS a, vS b] fun v j =>
      plainRes (lane (sv v 0) (ewBytes k.ew) ((lv k v 1 j).toNat % (64 / ewBytes k.ew))))
  | .vslide d a b c k => some (.whole k d [vS a, vS b] fun v j =>
      let l := 64 / ewBytes k.ew
      let p := j + (s.x c).toNat
      plainRes (if p < l then lv k v 0 p else if p < 2 * l then lv k v 1 (p - l) else 0))
  | .vcvt c d a b k =>
    let m := s.mode k.frm
    let c := c.toNat
    let part (srcs : List Opnd) (n lo cnt : Nat) (f : List VWord → Nat → FRes) : VOp := ⟨k, d, srcs, n, lo, cnt, fun _ => 0, f⟩
    let e4 (q : List VWord) (o j : Nat) : Nat := (lane (sv q 0) 1 (16 * o + j)).toNat
    let toP (p n lo : Nat) : VOp := ⟨k, d, [vS a, fS b], n, lo, 16, s.scaleFlag k n, fun v j =>
      ⟨ofN (toPk p (low32 (lane (sv v 0) 4 j)) (scaleOf v)).w, (toPk p (low32 (lane (sv v 0) 4 j)) (scaleOf v)).fl⟩⟩
    let fromP (p n lo : Nat) : VOp := ⟨k, d, [vS a, fS b], 4, 0, 16, s.scaleFlag k 4, fun v j =>
      fromPk p (lane (sv v 0) n (lo + j)).toNat (scaleOf v)⟩
    some (
      if c = 0 then part [vS a, vS b] 4 0 16 fun v j =>
        ieeeConv .s .d m (if j < 8 then lane (sv v 0) 8 j else lane (sv v 1) 8 (j - 8))
      else if c = 1 then part [vS a] 8 0 8 fun v j => ieeeConv .d .s m (lane (sv v 0) 4 j)
      else if c = 2 then part [vS a] 8 0 8 fun v j => ieeeConv .d .s m (lane (sv v 0) 4 (8 + j))
      else if c = 3 then part [vS a] 4 0 16 fun v j => ofIntFp .s m (laneInt 4 (lane (sv v 0) 4 j))
      else if c = 4 then part [vS a] 4 0 16 fun v j => toIntFp .s m 32 (lane (sv v 0) 4 j)
      else if c = 5 then part [vS a] 8 0 8 fun v j => ofIntFp .d m (laneInt 8 (lane (sv v 0) 8 j))
      else if c = 6 then part [vS a] 8 0 8 fun v j => toIntFp .d m 64 (lane (sv v 0) 8 j)
      else if c ≤ 10 then part [vS a] 1 (16 * (c - 7)) 16 fun v j =>
        ⟨ofN (pkOf 1 (.ofIeee .s (lane (sv v 0) 4 j))).w, (pkOf 1 (.ofIeee .s (lane (sv v 0) 4 j))).fl⟩
      else if c ≤ 14 then part [vS a] 4 0 16 fun v j => plainRes (ofE4m3 .s (e4 v (c - 11) j))
      else if c ≤ 18 then toP 1 1 (16 * (c - 15))
      else if c ≤ 22 then fromP 1 1 (16 * (c - 19))
      else if c ≤ 24 then toP 2 2 (16 * (c - 23))
      else if c ≤ 26 then fromP 2 2 (16 * (c - 25))
      else if c = 27 then toP 4 4 0
      else fromP 4 4 0)
  | _ => none

/-- Lane `j` is one that the instruction computes and its mask keeps. -/
def VOp.computes (o : VOp) (s : State) (j : Nat) : Bool :=
  decide (o.lo ≤ j ∧ j < o.lo + o.cnt) && s.active o.k.msk o.n j

/-- The flags of a lane-wise instruction: those of its computed lanes, and its scale's. -/
def VOp.flags (o : VOp) (s : State) (v : List VWord) : Flags :=
  ((List.range (64 / o.n)).filter (o.computes s)).foldl (fun fl j => fl ||| (o.lane v (j - o.lo)).fl) 0 ||| o.extra v

/-- Lane `j` of its result, over a destination that held `old` (05 R114). -/
def VOp.result (o : VOp) (s : State) (old : VWord) (v : List VWord) (j : Nat) : Word :=
  if o.computes s j then lowBytes o.n (o.lane v (j - o.lo)).bits
  else if o.k.z && decide (o.lo ≤ j ∧ j < o.lo + o.cnt) then 0
  else Machine.lane old o.n j

/-! ## Finite numbers as integers (03 R62) -/

/-- A finite number in units of 2^−1074, of which every finite FP32 and FP64 value is a multiple. -/
def fpInt : Fp → Option Int
  | .fin sg m e => some (if sg then -(m * 2 ^ (e + 1074).toNat : Int) else (m * 2 ^ (e + 1074).toNat : Int))
  | _ => none

/-- A finite number as a fraction. -/
def fpQ (f : Fmt) (w : Word) : Option ℚ := (fpInt (.ofIeee f w)).map fun n => (n : ℚ) / 2 ^ 1074

/-- What four rounding modes deliver for an exact number, which is given by the fractions at or below it (`le`) and at or above it (`ge`)
(03 R63): RDN the greatest value of the format at or below it, RUP the least at or above it, RTZ the one of these on the side of zero,
RNE one that no other value is nearer than, the one with an even significand when two are as near; RNE delivers no finite number only
when the number lies beyond them all. -/
def CorrectlyRounded (f : Fmt) (res : RMode → Word) (le ge : ℚ → Prop) : Prop :=
  let lo := fpQ f (res .rdn)
  let hi := fpQ f (res .rup)
  let ne := fpQ f (res .rne)
  (∀ v, lo = some v → le v) ∧ (∀ v, hi = some v → ge v) ∧
  (le 0 → fpQ f (res .rtz) = lo) ∧ (¬le 0 → fpQ f (res .rtz) = hi) ∧
  ∀ w v, fpQ f w = some v →
    (le v → ∃ l, lo = some l ∧ v ≤ l) ∧ (ge v → ∃ h, hi = some h ∧ h ≤ v) ∧
    (∀ n, ne = some n →
      (n < v → ge ((n + v) / 2)) ∧ (v < n → le ((n + v) / 2)) ∧
      (v ≠ n → le ((n + v) / 2) → ge ((n + v) / 2) → (res .rne).getLsbD 0 = false)) ∧
    (ne = none → if 0 ≤ v then le 0 → ¬ge v else ge 0 → ¬le v)

/-! ## Plane elements as numbers (03 R70) -/

/-- The number that the fields of a Pk word of `n` planes spell, unscaled; the NaN pattern is read as a number too. -/
def pkQ (n W : Nat) : ℚ :=
  let mb := 8 * n - 5
  let mag := W % 2 ^ (8 * n - 1)
  let v : ℚ := if mag / 2 ^ mb = 0 then mag * 2 ^ (-6 - mb : Int) else (2 ^ mb + mag % 2 ^ mb : Nat) * 2 ^ ((mag / 2 ^ mb : Nat) - 7 - mb : Int)
  if 2 ^ (8 * n - 1) ≤ W then -v else v

/-- `W` is the word of `n` planes nearest to a number, of two that are as near the even one; beyond them all it is the largest. -/
def PkNearest (n : Nat) (q : ℚ) (W : Nat) : Prop :=
  W < 2 ^ (8 * n) ∧ pkNaN n W = false ∧ ∀ V < 2 ^ (8 * n), pkNaN n V = false →
    |pkQ n W - q| ≤ |pkQ n V - q| ∧ (pkQ n V ≠ pkQ n W → |pkQ n W - q| = |pkQ n V - q| → W % 2 = 0)

/-- A number that rounds beyond the largest finite word of `n` planes: it lies past the middle between that and the number that would
come next, or on the middle where the largest word is odd. -/
def PkBeyond (n : Nat) (q : ℚ) : Prop :=
  let top := 0x7F * 2 ^ (8 * (n - 1)) - 1
  let mid := (pkQ n top + pkQ n (top + 1)) / 2
  mid < |q| ∨ (top % 2 = 1 ∧ |q| = mid)

/-! ## VCMP (05 R118) -/

/-- The relation a condition names on integer lanes of `n` bytes. -/
def intHolds (c : VCond) (n : Nat) (x y : Word) : Bool :=
  match c with
  | .eq => decide (x.toNat = y.toNat)
  | .ne => decide (x.toNat ≠ y.toNat)
  | .lt => decide (laneInt n x < laneInt n y)
  | .le => decide (laneInt n x ≤ laneInt n y)
  | .ltu => decide (x.toNat < y.toNat)
  | .leu => decide (x.toNat ≤ y.toNat)

/-- The relation on a lane of the element width, with its flags. -/
def vHolds (c : VCond) (k : VCtl) (x y : Word) : Bool × Flags :=
  match k.ew with
  | .s => fpRel c .s x y
  | .d => fpRel c .d x y
  | _ => (intHolds c (ewBytes k.ew) x y, 0)

/-! ## Operand numbers (01 R29) -/

/-- The f and v operands of an arithmetic instruction, in the order d, a, b, c, and the offset of its relative ones. -/
def relOps (s : State) (i : Instr) : Option (BitVec 6 × List Opnd) :=
  match fpOp s i with
  | some o => some (o.rimm, o.ops)
  | none =>
    match vOp s i with
    | some o => some (o.k.rimm, vD o.d :: o.srcs)
    | none => none

/-- The number a relative operand computes, and the numbers its register file has for it. -/
def relIdx (s : State) (rimm : BitVec 6) (o : Opnd) : Word := s.x o.op.n + ofI rimm.toInt
def relGood (s : State) (rimm : BitVec 6) (o : Opnd) : Prop :=
  0 ≤ (relIdx s rimm o).toInt ∧ (relIdx s rimm o).toInt < (if o.isV then (s.ctx.valloc.toNat : Int) else 32)

/-! ## Page tables (10 R267 to R270) -/

/-- A valid entry, no reserved bit of which is 1. -/
def pteValid (e : Word) : Prop := e.getLsbD 0 = true ∧ e &&& 0x03F0000000000D06 = 0

/-- A leaf: RD, W, X or WX is 1. -/
def pteLeaf (e : Word) : Prop := e.getLsbD 3 = true ∨ e.getLsbD 4 = true ∨ e.getLsbD 5 = true ∨ e.getLsbD 6 = true

/-- A pointer to the table at `t`. -/
def ptePointer (e : Word) (t : Nat) : Prop :=
  pteValid e ∧ ¬pteLeaf e ∧ e.toNat / 2 ^ 58 = 0 ∧ e.getLsbD 7 = false ∧ e.getLsbD 9 = false ∧ t = e.toNat / 2 ^ 12 % 2 ^ 40 * 4096

/-- A leaf that maps 2^sh bytes at `base`. -/
def ptePage (e : Word) (sh base : Nat) : Prop :=
  pteValid e ∧ pteLeaf e ∧ base = e.toNat / 2 ^ 12 % 2 ^ 40 * 4096 ∧ base % 2 ^ sh = 0

/-- What an entry permits, with its format descriptor index. -/
def ptePerm (e : Word) : Perm :=
  ⟨e.getLsbD 7, e.getLsbD 3, e.getLsbD 4, e.getLsbD 5, e.getLsbD 6, BitVec.ofNat 6 (e.toNat / 2 ^ 58)⟩

/-- The index of an address at a level. -/
def pteIndex (va : Word) (lvl : Nat) : Nat := va.toNat / 2 ^ (12 + 9 * lvl) % (if lvl = 3 then 8192 else 512)

/-! ## Vector memory (05 R128 to R130) -/

/-- A vector memory access: its fields, data register, further operands, and the address of each lane. -/
structure VMem where
  k    : VMCtl
  d    : ROp
  srcs : List Opnd
  addr : List VWord → Nat → Word

/-- The vector loads: the addresses of R128. -/
def vLoadOf (s : State) (i : Instr) : Option VMem :=
  match i with
  | .vld d a k => some ⟨k, d, [], fun _ j => s.x a + ofI k.imm.toInt + ofN (j * ewBytes k.ew)⟩
  | .vlds d a b k => some ⟨k, d, [], fun _ j => s.x a + ofI k.imm.toInt + ofN (j * (s.x b).toNat)⟩
  | .vgath d a b k => some ⟨k, d, [vS b], fun v j =>
      s.x a + ofI k.imm.toInt + ofI (laneInt (ewBytes k.ew) (Machine.lane (sv v 0) (ewBytes k.ew) j) * ewBytes k.ew)⟩
  | _ => none

/-- The vector stores; source value 0 is the data. -/
def vStoreOf (s : State) (i : Instr) : Option VMem :=
  match i with
  | .vst d a k => some ⟨k, d, [], fun _ j => s.x a + ofI k.imm.toInt + ofN (j * ewBytes k.ew)⟩
  | .vscat d a b k => some ⟨k, d, [vS b], fun v j =>
      s.x a + ofI k.imm.toInt + ofI (laneInt (ewBytes k.ew) (Machine.lane (sv v 1) (ewBytes k.ew) j) * ewBytes k.ew)⟩
  | _ => none

/-- The active lanes of an access, and the others. -/
def VMem.lanes (o : VMem) (s : State) : List Nat :=
  (List.range (64 / ewBytes o.k.ew)).filter fun j => s.active o.k.msk (ewBytes o.k.ew) j
def VMem.idle (o : VMem) (s : State) : List Nat :=
  (List.range (64 / ewBytes o.k.ew)).filter fun j => !s.active o.k.msk (ewBytes o.k.ew) j

/-! ## Activations (01 R13, R14) -/

/-- Context `r` holds what R14 gives activation `a` of state `s`: its registers, streams, replay, train, counters and CSRs; it waits when
its vector registers cannot be granted at once (R16, R25). That sp and gp are read at the activation, and not at the grant, is the
model's choice (log 48). -/
def Started (s u : State) (r : Nat) (a : Activation) : Prop :=
  let c := u.getCtx r
  let block := aliasKey (r / 8) (blockAddr r)
  c.phase = (if a.kind = .msg true ∨ ((s.getCore (r / 8)).regReqs = [] ∧ s.withinLimits (r / 8) = true ∧ s.regsFit (r / 8) a.regs = true) then .active
    else .waiting) ∧
  c.kind = a.kind ∧ c.pc = a.pc ∧
  (∀ i : Fin 32, c.x[i] = match i.val with
    | 2 => Mem.word u.mem block
    | 3 => Mem.word u.mem (block + 8)
    | 4 => ofN (blockAddr r)
    | 10 => a.a0
    | 11 => a.a1
    | 12 => a.a2
    | 13 => a.a3
    | _ => 0) ∧
  c.f = Vector.replicate 32 0 ∧ c.v = Vector.replicate 32 0 ∧ c.m = Vector.replicate 8 0 ∧ c.valloc = BitVec.ofNat 6 a.regs ∧
  c.lvl = a.prio ∧ c.eff = a.prio ∧ c.prv = 0 ∧ c.ie = true ∧ c.flags = 0 ∧ c.te = 0 ∧ c.rm = 0 ∧ c.instret = 0 ∧ c.pend = [] ∧
  c.hnd = a.mid.isSome ∧ c.trigger = a.mid ∧
  (∀ j : Fin 4, c.streams[j] = Stream.reset) ∧ c.rep.act = false ∧ c.wd = Train.reset ∧ c.ldc = 0 ∧ c.stc = 0 ∧ c.cpc = 0 ∧
  c.epc = 0 ∧ c.cause = 0 ∧ c.tval = 0 ∧ c.scratch = 0 ∧ c.tcmp = BitVec.allOnes 64 ∧ c.psat = 0 ∧
  c.abt = false ∧ c.hvn = (a.kind == .msg true) ∧ c.arrv = false ∧ c.pie = false ∧ c.pprv = 0 ∧ c.wait = .none

/-- What lets the current context end at once: no load outstanding, no claim, no region, no ENGINE event (08 R193, 13 R325). -/
def MayEnd (s : State) : Prop := s.ctx.ldc = 0 ∧ s.tclm = false ∧ s.ctx.region = none ∧ s.ctx.eng = []

/-- The current context has ended: it is dormant, and its writes go on without it. -/
def Ended (s t : State) : Prop := t.ctx = .reset ∧ t.cur = s.cur ∧ t.orphans = s.orphans ++ s.leftWrites

/-- A context has read the words at keys of memory that no L1 holds. -/
def State.readingWords (s : State) (keys : List Nat) : State := keys.foldl (fun s k => s.note (byteKeys k 8)) s

/-! ## Trains (09 R235) -/

/-- A train block has committed: it is counted, and the train goes on at a block, or ends with a state to report. -/
def Committed (s t : State) (opc : BitVec 8) (n : Next) : Prop :=
  let w := s.ctx.wd
  SameMemory s t ∧ t.ctx = { s.ctx with
    wait := .none
    wd := { w with
      nblk := BitVec.ofNat 16 (min (w.nblk.toNat + 1) 0xFFFF), opc := opc, posts := 0, block := none
      blk := match n with | .block a => a &&& ~~~0x1F | .done _ => w.blk
      ending := match n with | .block _ => w.ending | .done st => some st } }

/-! ## Exceptions (13 R320) -/

/-- The current context has entered its S-mode handler from state `s`: `code` as CAUSE holds it. -/
def Entered (s t : State) (code : Word) (tval epc : Word) : Prop :=
  t.ctx.pc = BitVec.ofNat 64 (s.core.tvec.toNat / 32 * 32) ∧ t.ctx.epc = epc ∧ t.ctx.cause = code ∧ t.ctx.tval = tval ∧
  t.ctx.pprv = s.ctx.prv ∧ t.ctx.pie = s.ctx.ie ∧ t.ctx.prv = 1 ∧ t.ctx.ie = false ∧ t.ctx.wait = .none ∧ t.cur = s.cur ∧
  (∀ r, t.x r = s.x r) ∧ SameMemory s t

/-- The core has an S-mode handler, and the context is in no message handler and is not the station master's. -/
def Handled (s : State) : Prop := s.ctx.hnd = false ∧ isMaster s.k = false ∧ 32 ≤ s.core.tvec.toNat

/-- What a write of a CSR by an instruction leaves: the value read in x[d], and the instruction retired. -/
def CsrDone (i : Instr) (s t : State) (d : Reg) (old : Word) : Prop :=
  let u := t.setX d old
  exec i s = .next { u with ctx := { u.ctx with pc := nextPc s 8, instret := u.ctx.instret + 1, wait := .none } }

/-! ## The host (12 R299 to R303) -/

/-- The next record of a queue may be taken, and is command `c`. -/
def Next1 (s : State) (h : HostQueue) (c : HostCmd) : Prop :=
  s.queue h.vf h.q = some h ∧ s.vfUp h.vf = true ∧ h.open = true ∧ s.first h = true ∧
  c.words = s.recordOf h.vf h.q (h.cons + 1) ∧ c.seq = h.cons + 1 ∧ c.words.getD 0 0 =
    ofN (c.seq.toNat + c.opc.toNat * 2 ^ 32 + (if c.async then 2 ^ 40 else 0) + (if c.evt then 2 ^ 41 else 0))

/-- A queue with nothing under way. -/
def Caught (h : HostQueue) : Prop := h.cmds = [] ∧ h.done = [] ∧ h.comp = h.cons

/-! ## The trace ring (16 R380) -/

/-- Records are captured, and the ring, which lies in HBM, has room for one of `n` bytes, or wraps. -/
def RingTakes (s : State) (n : Nat) : Prop :=
  s.tracing = true ∧ n ≤ 2 ^ s.dev.trLog.toNat ∧ (s.dev.trWrap = true ∨ s.dev.trpos.toNat + n ≤ 2 ^ s.dev.trLog.toNat) ∧
    s.dev.trbase.toNat + 2 ^ s.dev.trLog.toNat ≤ 0x8000000000

/-- The bytes of a record stand in the ring, from where it was filled to. -/
def Recorded (s t : State) (bytes : List Byte) : Prop :=
  t.dev.trpos = s.dev.trpos + ofN bytes.length ∧ (Memory.wf s.mem = true → ∀ j < bytes.length,
    Mem.get t.mem (s.dev.trbase.toNat + (s.dev.trpos.toNat + j) % 2 ^ s.dev.trLog.toNat) = bytes.getD j 0)

/-! ## The matrix unit (07 R164) -/

/-- Core `k`'s oldest counted operation is `o`, and it may be performed: nothing of the holder's comes first, and the regions it reaches
are awake. The holder, whichever context it is and whichever context is current, is not about to end. -/
def TileNext (s : State) (k id : Nat) (o : TileOp) (homes : List Nat) (rest : List Counted) : Prop :=
  (s.getCore k).tileq = ⟨id, o, homes⟩ :: rest ∧ s.powered o.keys = true ∧
    ∀ c, (s.getCore k).claim = some c → c < 8 ∧ (s.select (k * 8 + c)).tileBlocked ⟨id, o, homes⟩ = false ∧
      (s.getCtx (k * 8 + c)).wait ≠ .mdone ∧ ∀ b, (s.getCtx (k * 8 + c)).wait ≠ .ending b

end Sys2Proof.Machine
end

