-- ==== Sys2Proof/Certificates/Slice0/Obligations.lean ====
section
/-! DEFINITION. The statements for the provers: what the spec's rules say the machine does, as propositions about `exec`,
`step`, the decoder and the encoder. OBLIGATIONS.json lists them with their rules. -/

open Sys2Proof Sys2Proof.Machine

/-! ## The encoding -/

/-- Decoding the encoding of a well-formed instruction gives it back, with every operand at every value its encoding admits
(02 R37 to R55). -/
def Obligations.DecodeEncode : Prop :=
  ∀ (i : Instr) (rest : List (BitVec 32)), i.wf = true → decode (encode i ++ rest) = .ok (i, rest)

/-- What decodes is well-formed, and no two encodings stand for one instruction: the granules read are the encoding of the
instruction they decode to, but for a long BRK, whose granules after the second are ignored (02 R51, R55). -/
def Obligations.DecodeInverse : Prop :=
  ∀ (gs rest : List (BitVec 32)) (i : Instr), decode gs = .ok (i, rest) →
    i.wf = true ∧ ((∀ n, i ≠ .brk96 n ∧ i ≠ .brk128 n) → encode i ++ rest = gs)

/-- The words the spec writes out, one or more for each family, decode to the instructions they stand for; a zero granule, a
granule of ones and an unallocated major opcode do not decode (02 R39, R51; the encoding tables of 02, 04 to 09, 13, 14). -/
def Obligations.DecodeWords : Prop :=
  decode [0x01CC5001, 0] = .ok (.add 5 6 7, []) ∧
  decode [0x0014A009, 0xFF800000] = .ok (.addi 10 10 0xFF8, []) ∧
  decode [0x0000701B, 0, 0x89ABCDEF, 0x01234567] = .ok (.li64 7 0x0123456789ABCDEF, []) ∧
  decode [0x000A0041, 0x00006000] = .ok (.beq 5 0 6, []) ∧
  decode [0x0000104E, 0, 0x00000400] = .ok (.jl 1 0x400, []) ∧
  decode [0x008270C1, 0x0000144A] = .ok (.vadd ⟨7, true⟩ ⟨1, false⟩ ⟨2, false⟩ ⟨.dyn, 2, .s, true, 2⟩, []) ∧
  decode [0x000A7CF1, 0x00100000] = .ok (.msetX 7 5, []) ∧
  decode [0x00007341, 0x00070000] = .ok (.sstart 3 7 true, []) ∧
  decode [0x00000169, 0x00065000] = .ok (.tmma 3 1 2 .p1, []) ∧
  decode [0x00143171, 0x00003000] = .ok (.ldp 3 10 0 1 true, []) ∧
  decode [0x999403A1, 0] = .ok (.jrec 10 6 19, []) ∧
  decode [0x019451C1, 0x00010403] = .ok (.amo .add .rel false true 5 10 6 0 0, []) ∧
  decode [0x001451F1, 0] = .ok (.wdrun 5 10, []) ∧
  decode [0x62D455E2, 0x07000000, 1] = .ok (.ddec 5 10 11 12 1 7, []) ∧
  decode [0x000C07F9, 0x40200000] = .ok (.csrw 0 0x402 6, []) ∧
  decode [0x08000FFA, 0x00500000, 0xDEADBEEF] = .ok (.brk96 5, []) ∧
  decode [0, 0] = .error .noInstruction ∧
  decode [0xFFFFFFFF, 0xFFFFFFFF, 0xFFFFFFFF, 0xFFFFFFFF] = .error .major ∧
  decode [0x0000001D, 0] = .error .major

/-! ## The whole machine -/

/-- After device reset every memory is in its canonical form.
That an unlisted byte reads as 0 is the model's choice (log 1). -/
def Obligations.CanonicalReset : Prop := Machine.State.reset.Canonical

/-- Every step, whatever the agenda holds, keeps every memory in its canonical form.
The canonical form is the model's own (log 1), the agenda too (log 3). -/
def Obligations.CanonicalStep : Prop :=
  ∀ s t : Machine.State, s.Canonical → step s = .next t → t.Canonical

/-- A step runs the decoded instruction: in a cycle in which the current core's arbiter picks context `r`, when it is active,
nothing pends, waits, replays or holds its next instruction back, and the granules at PC decode to `i`, the step is `exec i` on the
state in which `r` acts, its block in the L1 instruction cache, with what a cycle counts after it: `r` was the last to issue, the others that were ready age, and every
counter and monitor of the core has had its cycle (02 R37 to R41, 12 R313, 16 R376). An instruction that traps takes no issue slot:
the cycle goes on with the others (13 R320). A fault is a fault.
What holds an instruction back beyond the rules is log 25; how a turn and the cycle of its island belong together is log 5; that outstanding work goes on by itself after
16 cycles with an issue is log 3. -/
def Obligations.StepRunsInstruction : Prop :=
  ∀ (s : Machine.State) (r key : Nat) (fdi : BitVec 6) (al : Bool) (i : Instr) (rest : List (BitVec 32)),
    let q := (s.beginTurn s.k).raiseTimers.settleReplays
    let p := q.select r
    let t := State.fetchIn { p with ctx := { p.ctx with drain := false } }
    s.agenda = [] → (∀ e ∈ s.parts, s.overdue e.2 = false ∧ s.mustStop e.2 = false) → s.core.aside < 16 →
    (s.beginTurn s.k).raiseTimers.checks = [] → q.freeList false = [] → q.arbiter false [] = some r →
    p.ctx.phase = .active → (p.takesEvents && p.hasEvent p.cur) = false → p.ctx.wait = .none → p.ctx.wd.wdm = false →
    p.ctx.rep.act = false → p.replayWrites 4 = false → p.gate i = true →
    p.site .x p.ctx.pc = .ok (.key key fdi al) → p.powered [key] = true →
    p.granule key ≠ 0 → (p.granule key).extractLsb' 0 2 ≠ 0 → p.granule key ≠ 0xFFFFFFFF →
    p.ctx.pc.toNat % 32 + 4 * lenGranules (p.granule key) ≤ 32 →
    decode (p.granules key (lenGranules (p.granule key))) = .ok (i, rest) → vallocOk p.ctx i = true →
    (∀ f, exec i t = .fault f → step s = .fault f) ∧
    ∀ u, exec i t = .next u →
      let w := t.afterAct u (.instr i)
      (heldBack t w (.instr i) = false →
        let v := ((t.countAct w (.instr i) r).noteFma t (some i)).granted ((q.readyList false []).filter (· != r))
        step s = .next (State.endCycle { v with core := { v.core with aside := v.core.aside + 1 } } v.k
          (pmcWritten (.instr i) t w r) (monWritten (.instr i) t w r) true)) ∧
      (heldBack t w (.instr i) = true → step s = State.issueCycle false false 7 [r] w)

/-- Device reset: the values the spec gives (01 R14 to R26, 12 R302, 16 R366 to R370). No context is active; nothing is in
memory, in a queue or on its way.
That nothing is in memory, in a queue or a cache is the model's choice (log 1, 4). -/
def Obligations.ResetState : Prop :=
  let s := Machine.State.reset
  s.ctx.phase = .dormant ∧ (∀ r, (s.getCtx r).phase = .dormant) ∧
  (∀ k, (s.getCore k).tvec = 0 ∧ (s.getCore k).hres = 2 ∧ (s.getCore k).claim = none ∧
    (s.getCore k).pmc = Vector.replicate 8 0 ∧ (s.getCore k).pmcsel = Vector.replicate 8 0) ∧
  (∀ n, (s.island n).cycle = 0 ∧ (s.island n).vcode = 20 ∧ (s.island n).freq = 60 ∧ (s.island n).rdy = true ∧
    (s.island n).err = false) ∧
  s.time = 0 ∧ s.dev.domsize = 1 ∧ s.dev.devnum = 0 ∧ s.dev.trLog = 16 ∧ s.dev.mode = 0 ∧
  s.parts = [] ∧ s.jobs = [] ∧ s.net = [] ∧ s.events = [] ∧ s.tlb = [] ∧ s.mem = [] ∧ s.dev.down = [] ∧
  (∀ v, (s.vf v).bound = false ∧ (s.vf v).log2n = 4)

/-! ## Integer instructions -/

/-- Every integer instruction of 04 R87 to R93 whose result is an arithmetic or logical function of its operands completes with
that result in its destination, computed in exact integers and cut to 64 bits; a write to x0 is discarded; nothing else changes
but PC, INSTRET and the wait. -/
def Obligations.IntegerResults : Prop :=
  ∀ (s : Machine.State) (i : Instr) (len : Nat) (d : Reg) (v : Word),
    intResult s i = some (len, d, v) → Done i s (s.setX d v) len ∧ XHolds s (s.setX d v) d v ∧ s.x 0 = 0

/-- CLZ and CTZ count zero bits from the top and from the bottom, 64 for zero; POPC counts ones (04 R87). -/
def Claim.BitCounts : Prop :=
  ∀ (s : Machine.State) (d a : Reg),
    (∃ n ≤ 64, Done (.clz d a) s (s.setX d (ofN n)) 8 ∧ (∀ j < 64, 64 - n ≤ j → (s.x a).getLsbD j = false) ∧
      (n < 64 → (s.x a).getLsbD (63 - n) = true)) ∧
    (∃ n ≤ 64, Done (.ctz d a) s (s.setX d (ofN n)) 8 ∧ (∀ j < n, (s.x a).getLsbD j = false) ∧
      (n < 64 → (s.x a).getLsbD n = true)) ∧
    Done (.popc d a) s (s.setX d (ofN ((List.range 64).countP fun j => (s.x a).getLsbD j))) 8

/-- BFX extracts and BFI inserts a field of `l` + 1 bits at position `p` (04 R90). -/
def Claim.BitFields : Prop :=
  ∀ (s : Machine.State) (d a : Reg) (l p : BitVec 6), l.toNat + p.toNat < 64 →
    Done (.bfx d a l p) s (s.setX d (ofN ((s.x a).toNat / 2 ^ p.toNat % 2 ^ (l.toNat + 1)))) 8 ∧
    ∃ v : Word, Done (.bfi d a l p) s (s.setX d v) 8 ∧
      ∀ j < 64, v.getLsbD j =
        if p.toNat ≤ j ∧ j ≤ p.toNat + l.toNat then (s.x a).getLsbD (j - p.toNat) else (s.x d).getLsbD j

/-! ## Control flow -/

/-- A conditional branch goes to PC + off20 × 4 when its condition holds, else to the next instruction (04 R94). -/
def Claim.Branches : Prop :=
  ∀ (s : Machine.State) (i : Instr) (taken : Bool) (off : BitVec 20), branchOf s i = some (taken, off) →
    Goes i s s (if taken then s.ctx.pc + ofI (off.toInt * 4) else s.ctx.pc + 8)

/-- J, JAL, JL and JALR: the target, the link register, and JALR's alignment check, which comes before the link is written (04
R95, R96, 02 R42). -/
def Claim.Jumps : Prop :=
  ∀ (s : Machine.State) (d a : Reg) (off : BitVec 20) (imm : BitVec 12) (far : BitVec 32),
    Goes (.j off) s s (s.ctx.pc + ofI (off.toInt * 4)) ∧
    Goes (.jal d off) s (s.setX d (s.ctx.pc + 8)) (s.ctx.pc + ofI (off.toInt * 4)) ∧
    Goes (.jl d far) s (s.setX d (s.ctx.pc + 12)) (s.ctx.pc + ofI (far.toInt * 4)) ∧
    (let t := s.x a + ofI imm.toInt
     (t.toNat % 4 = 0 → Goes (.jalr d a imm) s (s.setX d (s.ctx.pc + 8)) t) ∧
     (t.toNat % 4 ≠ 0 → Traps (.jalr d a imm) s ⟨6, 0, t⟩))

/-! ## Mask instructions -/

/-- The mask instructions of 05 R131, on stored values. -/
def Claim.MaskResults : Prop :=
  ∀ (s : Machine.State) (d a b : MReg) (x : Reg),
    Done (.mand d a b) s (s.setM d (s.m a &&& s.m b)) 8 ∧
    Done (.mor d a b) s (s.setM d (s.m a ||| s.m b)) 8 ∧
    Done (.mxor d a b) s (s.setM d (s.m a ^^^ s.m b)) 8 ∧
    Done (.mnot d a) s (s.setM d (~~~s.m a)) 8 ∧
    Done (.mset d x) s (s.setM d (s.x x)) 8 ∧
    Done (.msetX x a) s (s.setX x (s.m a)) 8 ∧
    Done (.mpop x a) s (s.setX x (ofN ((List.range 64).countP fun j => (s.m a).getLsbD j))) 8 ∧
    ∃ n ≤ 64, Done (.mfirst x a) s (s.setX x (ofN n)) 8 ∧ (∀ j < n, (s.m a).getLsbD j = false) ∧
      (n < 64 → (s.m a).getLsbD n = true)

/-- What an integer, mask, branch or status-reading instruction leaves alone whenever it answers a state: every x register but
its destination, every m register but its destination, every byte of memory, and everything else of the machine but PC, INSTRET
and the wait (04 R85). -/
def Obligations.FrameRegisterOnly : Prop :=
  ∀ (i : Instr) (s t : Machine.State), registerOnly i = true → exec i s = .next t →
    (∀ r, xDest i ≠ some r → t.x r = s.x r) ∧ (∀ r, mDest i ≠ some r → t.m r = s.m r) ∧ SameMemory s t ∧
    t = { s with ctx := { s.ctx with
      x := t.ctx.x, m := t.ctx.m, pc := t.ctx.pc, instret := s.ctx.instret + 1, wait := .none } }

/-! ## Scalar memory -/

/-- The checks of a scalar load or store, in their order (04 R99, 10 R252, R254): a misaligned address traps with ALIGN; an
address whose bits 63:52 are not all equal to bit 51 faults with SUB 3; the aliased range of a compute or data core's own
cluster leads to that cluster's CLM, untranslated. -/
def Claim.ScalarChecks : Prop :=
  ∀ (s : Machine.State) (d a : Reg) (imm : BitVec 12) (w : MemW) (u : Bool),
    let va := s.x a + ofI imm.toInt
    (va.toNat % memBytes w ≠ 0 →
      Traps (.ld d a imm w u) s ⟨6, 0, va⟩ ∧ Traps (.st d a imm w) s ⟨6, 0, va⟩ ∧
      Traps (.lda d a imm w u) s ⟨6, 0, va⟩ ∧ Traps (.stl d a imm w) s ⟨6, 0, va⟩) ∧
    (va.toNat % memBytes w = 0 → va.toNat / 2 ^ 52 ≠ (if va.getLsbD 51 then 4095 else 0) →
      Traps (.ld d a imm w u) s ⟨4, 3, va⟩ ∧ Traps (.st d a imm w) s ⟨5, 3, va⟩ ∧
      Traps (.lda d a imm w u) s ⟨4, 3, va⟩ ∧ Traps (.stl d a imm w) s ⟨5, 3, va⟩) ∧
    (va.toNat % memBytes w = 0 → s.k < 2880 → 0x1000000000 ≤ va.toNat → va.toNat < 0x1000200000 →
      let key := 0x40000000000 + s.k / 9 * 0x200000 + (va.toNat - 0x1000000000)
      s.loadCheck va (memBytes w) = .ok (.mem key (s.homeAt va key)) ∧ s.storeCheck va (memBytes w) .w = .ok key)

/-- A page walk (10 R266 to R270): from the root that PTROOT names, through three tables of the device's own HBM to the page that an
entry maps, of 1 GiB, 2 MiB, 64 KiB, or 4 KiB when no entry of its group has C64; an entry that is not valid or has a reserved bit
set, and a leaf in the root table, end it with no valid translation. R270 lets any one of the entries of a group with C64 translate
when the 16 are not alike: that the entry at the address does, if it has C64, is the model's reading (log 47). -/
def Claim.PageWalks : Prop :=
  ∀ (s : Machine.State) (asd : Nat) (va e3 e2 e1 e0 : Word) (t2 t1 t0 base : Nat),
    let root := (Mem.word s.mem asd).toNat + 8 * pteIndex va 3
    root + 8 ≤ 0x8000000000 → Mem.word s.mem root = e3 →
    (¬pteValid e3 ∨ pteLeaf e3 → s.pageWalk asd va = .error 1) ∧
    (ptePointer e3 t2 → s.tableWord (t2 + 8 * pteIndex va 2) = none → s.pageWalk asd va = .error 1) ∧
    (ptePointer e3 t2 → s.tableWord (t2 + 8 * pteIndex va 2) = some e2 →
      (¬pteValid e2 → s.pageWalk asd va = .error 1) ∧
      (ptePage e2 30 base → e2.getLsbD 9 = false → s.pageWalk asd va = .ok (30, base, ptePerm e2)) ∧
      (ptePointer e2 t1 → s.tableWord (t1 + 8 * pteIndex va 1) = some e1 →
        (¬pteValid e1 → s.pageWalk asd va = .error 1) ∧
        (ptePage e1 21 base → e1.getLsbD 9 = false → s.pageWalk asd va = .ok (21, base, ptePerm e1)) ∧
        (ptePointer e1 t0 → s.tableWord (t0 + 8 * pteIndex va 0) = some e0 →
          (ptePage e0 16 base → e0.getLsbD 9 = true → s.pageWalk asd va = .ok (16, base, ptePerm e0)) ∧
          ((∀ n < 16, ∀ e, s.tableWord (t0 + 8 * (pteIndex va 0 / 16 * 16 + n)) = some e → e.getLsbD 9 = false) →
            (¬pteValid e0 → s.pageWalk asd va = .error 1) ∧
            (ptePage e0 12 base → s.pageWalk asd va = .ok (12, base, ptePerm e0))))))

/-- Where an address leads (10 R271 to R274): a bound window first; then the Range Table, whose lowest-numbered matching entry adds
its offset; then an entry of a TLB that serves the access; then the page walk, which is not come to when the table is malformed. A range
entry that is cached stays in use whatever the table says, its RTCNT included. -/
def Claim.TranslationOrder : Prop :=
  ∀ (s : Machine.State) (sp : Space) (va : Word),
    let cnt := (Mem.word s.mem (sp.asd + 16)).toNat % 512
    let table := (Mem.word s.mem (sp.asd + 8)).toNat
    let hit (i : Nat) : Bool := rangeMatches (s.rangeEnt sp i) va
    (∀ w, s.windowAt sp va = some w → s.translate sp va = .window w) ∧
    (∀ i e, tlbRange sp.asid i (s.tlbOf sp) = some e → s.rangeEnt sp i = e) ∧
    (∀ i, tlbRange sp.asid i (s.tlbOf sp) = none → cnt ≤ 256 → table + 32 * cnt ≤ 0x8000000000 →
      (i < cnt → s.rangeEnt sp i = s.words4 (table + 32 * i)) ∧ (cnt ≤ i → hit i = false)) ∧
    (s.windowAt sp va = none →
      (∀ i, hit i = true → (∀ j < i, hit j = false) →
        let e := s.rangeEnt sp i
        let pa := (va.toNat + e.w2.toNat / 4096 * 4096) % 2 ^ 64
        s.translate sp va = if pa < 2 ^ 52 then .page pa (permOf e.w3 (BitVec.ofNat 6 (e.w3.toNat / 2 ^ 10))) else .none 1) ∧
      ((∀ i, hit i = false) →
        (∀ sh base p, tlbPage sp.asid va.toNat (s.tlbOf sp) = some (sh, base, p) →
          s.translate sp va = .page (base + va.toNat % 2 ^ sh) p) ∧
        (tlbPage sp.asid va.toNat (s.tlbOf sp) = none →
          (256 < cnt → s.translate sp va = .none 1) ∧
          (cnt ≤ 256 → table + 32 * cnt ≤ 0x8000000000 →
            (∀ sub, s.pageWalk sp.asd va = .error sub → s.translate sp va = .none sub) ∧
            (∀ sh base p, s.pageWalk sp.asd va = .ok (sh, base, p) →
              s.translate sp va = .page (base + va.toNat % 2 ^ sh) p)))))

/-- A load and a store through a translated address (04 R99, R100, 10 R268, R272, 11 R284): no translation and a missing permission
fault with TVAL the address; else the load returns the bytes at the physical address, and the store, performed, leaves its bytes
there and every other byte as it was. Stated of a core whose L1 does not hold the word, with nothing outstanding. -/
def Claim.TranslatedAccess : Prop :=
  ∀ (s : Machine.State) (d a : Reg) (imm : BitVec 12) (w : MemW) (u : Bool) (sp : Space),
    let va := s.x a + ofI imm.toInt
    let n := memBytes w
    va.toNat % n = 0 → va.toNat / 2 ^ 52 = (if va.getLsbD 51 then 4095 else 0) → aliasOf s.k va = none → s.space s.k = some sp →
    (∀ sub, s.translate sp va = .none sub →
      Traps (.ld d a imm w u) s ⟨4, sub, va⟩ ∧ Traps (.st d a imm w) s ⟨5, sub, va⟩) ∧
    (∀ pa p key, s.translate sp va = .page pa p → s.phys pa = .key key →
      let usable : Bool := p.u || decide (s.ctx.prv ≠ 0)
      (usable = false ∨ p.rd = false → Traps (.ld d a imm w u) s ⟨4, 2, va⟩) ∧
      (usable = false ∨ p.w = false → Traps (.st d a imm w) s ⟨5, 2, va⟩) ∧
      (s.ctx.pend = [] → s.readsAfter s.nextId ((List.range n).map (key + ·)) = false → s.ctx.wait = .none → s.powered [key] = true →
        s.powered ((List.range n).map (key + ·)) = true →
        (usable = true → p.rd = true → find s.core.l1 (key / 8) = none →
          ∃ t v, Gives (.ld d a imm w u) s t ∧ Gives (.loadReturn t.cur 0) t v ∧
            XHolds s v d (let b := leNat (Mem.bytes s.mem key n)
              if u then ofN b else ofI (if b < 2 ^ (8 * n - 1) then b else (b : Int) - 2 ^ (8 * n))) ∧
            v.ctx.pend = [] ∧ SameMemory s v) ∧
        (usable = true → p.w = true →
          ∃ t v, Gives (.st d a imm w) s t ∧ Gives (.storeAck (some t.cur) 0) t v ∧ SameMemory s t ∧
            Stored s v (cellsOf key n (s.x d).toNat) ∧ v.ctx.pend = [])))

/-- Scalar accesses: their checks, and the translation of their addresses. -/
def Obligations.AccessChecks : Prop :=
  Claim.ScalarChecks ∧ Claim.PageWalks ∧ Claim.TranslationOrder ∧ Claim.TranslatedAccess

/-- A scalar load whose checks pass is outstanding at the end of the context's program order, counted in LDC, and retires; it
writes its destination later (04 R100, R101, 08 R214). A bound destination of FLD is ILLEGAL (06 R141). An LDA acquires. Through a gather window it reads its index words now, once
nothing earlier comes first there, and else waits.
That a window's index words are read at issue is the model's choice (log 7). -/
def Claim.LoadIssue : Prop :=
  ∀ (s : Machine.State) (d a : Reg) (imm : BitVec 12) (w : MemW) (u : Bool) (f : Fmt) (src : LaneSrc),
    let va := s.x a + ofI imm.toInt
    let out (n : Nat) (acq : Bool) (dst : Dst) : Machine.State :=
      (State.touch s.k s src.indexKeys).issuingAt (.load src.path acq dst [⟨0, n, src⟩]) (src.sitesOn .core)
    ((s.ctx.bound false d).isSome = true → Traps (.fld d a imm f) s (illegal (.fld d a imm f))) ∧
    let early : Machine.State := State.stall s.ctx.wait.reading (s.wakeFor src.indexKeys)
    (s.loadCheck va (memBytes w) = .ok src →
      (s.indexFree src = true → s.powered src.keys = true →
        Done (.ld d a imm w u) s (out (memBytes w) false (.x d (memBytes w) u)) 8 ∧
        Done (.lda d a imm w u) s (out (memBytes w) true (.x d (memBytes w) u)) 8) ∧
      (s.indexFree src = false → Gives (.ld d a imm w u) s early ∧ Gives (.lda d a imm w u) s early)) ∧
    (s.loadCheck va (fmtBytes f) = .ok src → s.ctx.bound false d = none →
      (s.indexFree src = true → s.powered src.keys = true → Done (.fld d a imm f) s (out (fmtBytes f) false (.f d)) 8) ∧
      (s.indexFree src = false → Gives (.fld d a imm f) s early))

/-- A scalar store whose checks pass is outstanding with the low bytes of its register, little-endian, and retires; every byte of
memory reads as before until it is performed (04 R100, R101); a data register of FST that is bound to a read stream is popped (06
R141). STL waits until LDC and STC are 0 (08 R188, R214). -/
def Claim.StoreIssue : Prop :=
  ∀ (s : Machine.State) (d a : Reg) (imm : BitVec 12) (w : MemW) (f : Fmt) (key : Nat),
    let va := s.x a + ofI imm.toInt
    s.powered [key] = true →
    (s.storeCheck va (memBytes w) .w = .ok key →
      let t := s.issuing (.store .core [cellsOf key (memBytes w) (s.x d).toNat]) [s.homeAt va key]
      Done (.st d a imm w) s t 8 ∧ (s.ctx.ldc = 0 → s.ctx.stc = 0 → Done (.stl d a imm w) s t 8) ∧
      (s.ctx.ldc ≠ 0 ∨ s.ctx.stc ≠ 0 → Waits (.stl d a imm w) s (.release (.stl d a imm w)))) ∧
    (∀ (us : List Use) (v : List VWord), openUses (.fst d a imm f) s.ctx 0 [fS (direct d)] = .ok us → Supplied s us v →
      s.storeCheck va (fmtBytes f) .w = .ok key →
      Done (.fst d a imm f) s
        ((s.popAll us).issuing (.store .core [cellsOf key (fmtBytes f) (sf v 0).toNat]) [s.homeAt va key]) 8)

/-- LOAD_RETURN of the oldest access of the current context, a load of `n` bytes at a key on the CORE path: it reads the bytes,
little-endian, and writes them zero-extended or sign-extended; memory stays. A word that HBM holds comes from a valid copy in the
core's L1, and else enters it (04 R100, 10 R263, 11 R287). -/
def Claim.LoadReturns : Prop :=
  ∀ (s : Machine.State) (r : Reg) (n id key home : Nat) (u sn : Bool) (sites : List (Sys2Proof.Path × Nat)) (rest : List Pend),
    s.ctx.pend = ⟨id, .load .core false (.x r n u) [⟨0, n, .mem key home⟩], sites, sn⟩ :: rest → (∀ p ∈ rest, id < p.id) →
    s.readsAfter id ((List.range n).map (key + ·)) = false → n ∈ [1, 2, 4, 8] → key % n = 0 → ctlOf key = none → s.powered [key] = true →
    s.powered ((List.range n).map (key + ·)) = true → s.ctx.wait = .none →
    let ext (v : Nat) : Word := if u then ofN v else ofI (if v < 2 ^ (8 * n - 1) then v else (v : Int) - 2 ^ (8 * n))
    let here := leNat (Mem.bytes s.mem key n)
    (cachedKey key = false →
      Gives (.loadReturn s.cur 0) s (State.setX { s.note (byteKeys key n) with ctx := { s.ctx with pend := rest } } r (ext here))) ∧
    (∀ w, cachedKey key = true → find s.core.l1 (key / 8) = some w →
      Gives (.loadReturn s.cur 0) s (State.setX { s with ctx := { s.ctx with pend := rest } } r
        (ext (w.toNat / 2 ^ (8 * (key % 8)) % 2 ^ (8 * n))))) ∧
    (cachedKey key = true → find s.core.l1 (key / 8) = none →
      ∃ t, Gives (.loadReturn s.cur 0) s t ∧ XHolds s t r (ext here) ∧ t.ctx.pend = rest ∧ SameMemory s t ∧
        find t.core.l1 (key / 8) = some (Mem.word s.mem (key / 8 * 8)))

/-- STORE_ACK of the oldest access of the current context, a store with one batch of bytes: memory then reads as its cells say and
elsewhere as before, the access is gone, and the core owns every cached word it wrote on the CORE path (11 R284, R287). The same
of a store that an ended context left (08 R193).
A store's batches as steps are the model's choice (log 6). -/
def Obligations.StoreAcks : Prop :=
  ∀ (s : Machine.State) (id k : Nat) (path : Sys2Proof.Path) (cells : List Host.Cell) (sn : Bool) (sites : List (Sys2Proof.Path × Nat))
    (rest : List Pend) (left : List (Nat × Pend)),
    s.powered (cells.map (·.1)) = true → (∀ e ∈ cells, ctlOf e.1 = none) →
    (s.ctx.pend = ⟨id, .store path [cells], sites, sn⟩ :: rest → (∀ p ∈ rest, id < p.id) →
      s.readBefore id (cells.map (·.1)) = false →
      ∃ t, Gives (.storeAck (some s.cur) 0) s t ∧ Stored s t cells ∧ t.ctx = { s.ctx with pend := rest } ∧
        (path = .core → ∀ e ∈ cells, cachedKey e.1 = true → find t.owners (e.1 / 8) = some s.k)) ∧
    (s.orphans = (k, ⟨id, .store path [cells], sites, sn⟩) :: left → s.cmdBefore k id (cells.map (·.1)) = false →
      ∃ t, Gives (.storeAck none 0) s t ∧ Stored s t cells ∧ t.ctx = s.ctx ∧ t.orphans = left)

/-- A context's load sees its own earlier store on the CORE path before that store is performed (11 R286), and the store is marked as
seen, so that a later read of its bytes on another path waits for it (R293). -/
def Claim.OwnStores : Prop :=
  ∀ (s : Machine.State) (r : Reg) (n v i j key home : Nat) (sn tn : Bool) (hs ht : List (Sys2Proof.Path × Nat)) (rest : List Pend),
    s.ctx.pend = ⟨i, .store .core [cellsOf key n v], hs, sn⟩ ::
      ⟨j, .load .core false (.x r n true) [⟨0, n, .mem key home⟩], ht, tn⟩ :: rest →
    i ≠ j → (∀ p ∈ rest, p.id ≠ j) → 0 < n → n ≤ 8 → ctlOf key = none → s.ctx.wait = .none →
    Gives (.loadReturn s.cur 1) s (State.setX { s with ctx := { s.ctx with
      pend := ⟨i, .store .core [cellsOf key n v], hs, true⟩ :: rest } } r (ofN (v % 2 ^ (8 * n))))

/-! ## Operands in f and v registers, and streams -/

/-- A scalar floating-point instruction completes, when its operands are supplied and no flag it raises is enabled to trap: its result
goes to its f register, or to its x register, or, when its destination is bound to a write stream, is pushed; FCSR.FLAGS gains the
flags, and every stream its sources name moves on (03 R63 to R66, 04 R103 to R111, 06 R141). The registers are those its operands
name, relative ones included (01 R29).
The reading of UF is log 10. -/
def Obligations.FpResults : Prop :=
  ∀ (s : Machine.State) (i : Instr) (o : FOp) (us : List Use) (v : List VWord),
    fpOp s i = some o → openUses i s.ctx o.rimm o.ops = .ok us → Supplied s us v →
    let r := o.res v
    s.fpTraps r.fl = false → Done i s (o.put us r.bits ((s.orFlags r.fl).popAll us)) 8

/-- When a flag that a floating-point instruction raises is enabled, its flags are set and it takes FPX, with the flags it raised
in SUB and TVAL, and writes no register and pops nothing (03 R66, 06 R142); an index word that its push has read is read. -/
def Claim.FpxTraps : Prop :=
  ∀ (s : Machine.State) (i : Instr) (o : FOp) (us : List Use) (v : List VWord),
    fpOp s i = some o → openUses i s.ctx o.rimm o.ops = .ok us → Supplied s us v →
    let r := o.res v
    r.fl &&& s.ctx.te ≠ 0 →
      Gives i s (((s.touchPushes us).orFlags r.fl).trap ⟨13, r.fl.zeroExtend 8, r.fl.zeroExtend 64⟩)

/-- A relative operand selects the register whose number is x[n] + RIMM, read as 64-bit signed numbers; an f number outside 0 to
31, or a v number outside 0 to VALLOC.N − 1, raises REGIDX with the number computed, of several operands with that of the first that
fails in the order d, a, b, c; a v register named directly at or above VALLOC.N is ILLEGAL (01 R29, R30, 06 R142). The registers
selected are stated of FMV.X in full, and of every scalar and lane-wise arithmetic instruction by its operand list. -/
def Obligations.RelativeOperands : Prop :=
  ∀ (s : Machine.State) (d n : Reg) (f : Fmt) (rimm : BitVec 6),
    let idx := s.x n + ofI rimm.toInt
    (0 ≤ idx.toInt → idx.toInt < 32 → s.ctx.bound false (BitVec.ofNat 5 idx.toNat) = none →
      Done (.fmvX d ⟨n, true⟩ f rimm) s (s.setX d (fmtBits f (s.f (BitVec.ofNat 5 idx.toNat)))) 8) ∧
    (idx.toInt < 0 ∨ 32 ≤ idx.toInt → Traps (.fmvX d ⟨n, true⟩ f rimm) s ⟨7, 0, idx⟩) ∧
    ∀ (i : Instr) (off : BitVec 6) (ops : List Opnd), i.wf = true → relOps s i = some (off, ops) →
      ((∃ o ∈ ops, o.op.rel = false ∧ o.isV = true ∧ s.ctx.valloc.toNat ≤ o.op.n.toNat) → Traps i s ⟨1, 0, low64 i⟩) ∧
      ((∀ o ∈ ops, o.op.rel = false → (o.isV = true → o.op.n.toNat < s.ctx.valloc.toNat) ∧ s.ctx.bound o.isV o.op.n = none) →
        (∀ (p q : List Opnd) (o : Opnd), ops = p ++ o :: q → (∀ y ∈ p, y.op.rel = true → relGood s off y) → o.op.rel = true →
          ¬relGood s off o → Traps i s ⟨7, 0, Machine.relIdx s off o⟩) ∧
        ((∀ o ∈ ops, o.op.rel = true → relGood s off o ∧
            s.ctx.bound o.isV (BitVec.ofNat 5 (Machine.relIdx s off o).toNat) = none) →
          openUses i s.ctx off ops = .ok (ops.map fun o =>
            ⟨o.isV, if o.op.rel then BitVec.ofNat 5 (Machine.relIdx s off o).toNat else o.op.n, o.role⟩)))

/-- FP addition of finite numbers is correctly rounded in every mode (03 R63): with exact sums in units of 2^−1074, RDN delivers the
greatest value of the format not above the sum, RUP the least not below it, RTZ the one of these on the side of zero, and RNE one
that no other value is nearer than, the one with an even significand when two are as near; RNE delivers no finite number only when
the sum lies beyond them all. -/
def Obligations.SumsRounded : Prop :=
  ∀ (f : Fmt) (a b : Word) (x y : Int), fpInt (.ofIeee f a) = some x → fpInt (.ofIeee f b) = some y →
    let lo := fpInt (.ofIeee f (ieeeAdd f .rdn a b).bits)
    let hi := fpInt (.ofIeee f (ieeeAdd f .rup a b).bits)
    let tz := fpInt (.ofIeee f (ieeeAdd f .rtz a b).bits)
    let near := (ieeeAdd f .rne a b).bits
    let ne := fpInt (.ofIeee f near)
    (∀ v, lo = some v → v ≤ x + y) ∧ (∀ v, hi = some v → x + y ≤ v) ∧ tz = (if 0 ≤ x + y then lo else hi) ∧
    ∀ w v, fpInt (.ofIeee f w) = some v →
      (v ≤ x + y → ∃ l, lo = some l ∧ v ≤ l) ∧ (x + y ≤ v → ∃ h, hi = some h ∧ h ≤ v) ∧
      (∀ n, ne = some n → (n - (x + y)).natAbs ≤ (v - (x + y)).natAbs ∧
        (v ≠ n → (n - (x + y)).natAbs = (v - (x + y)).natAbs → near.getLsbD 0 = false)) ∧
      (ne = none → v.natAbs < (x + y).natAbs)

/-- FP products, quotients, square roots and fused multiply-adds of finite numbers are correctly rounded in every mode (03 R63): the
exact numbers are a fraction, or the root of one, and the fused operation rounds once. -/
def Obligations.ProductsRounded : Prop :=
  ∀ (f : Fmt) (a b c : Word) (x y z : ℚ), fpQ f a = some x → fpQ f b = some y → fpQ f c = some z →
    let exact (res : RMode → Word) (q : ℚ) : Prop := CorrectlyRounded f res (· ≤ q) (q ≤ ·)
    exact (fun m => (ieeeMul f m a b).bits) (x * y) ∧
    (y ≠ 0 → exact (fun m => (ieeeDiv f m a b).bits) (x / y)) ∧
    (0 ≤ x → CorrectlyRounded f (fun m => (ieeeSqrt f m a).bits) (fun v => v ≤ 0 ∨ v * v ≤ x) (fun v => 0 ≤ v ∧ x ≤ v * v)) ∧
    ∀ p q : Bool, exact (fun m => (ieeeFma f m p q a b c).bits) ((if p then -(x * y) else x * y) + if q then -z else z)

/-- An operation of scalar FP arithmetic with a NaN operand in any place delivers the canonical quiet NaN of its format, whatever the
NaN, and raises NV for a signalling one (03 R64). FMA, FMS, FNMA and FNMS are the four signs of the fused operation. FMIN and FMAX
deliver the other operand when one is a NaN, and the canonical one when both are (04 R107); a conversion to the other format, the
canonical NaN of that format; a conversion to an integer, the greatest one, with NV (03 R77). -/
def Obligations.NanOperands : Prop :=
  ∀ (f : Fmt) (m : RMode) (p q : Bool) (a b c : Word), isNaN f a = true →
    let nv := (Fp.ofIeee f a).sig
    let good (r : FRes) : Prop := r.bits = canonNaN f ∧ nv &&& r.fl = nv
    good (ieeeAdd f m a b) ∧ good (ieeeAdd f m b a) ∧ good (ieeeSub f m a b) ∧ good (ieeeSub f m b a) ∧
    good (ieeeMul f m a b) ∧ good (ieeeMul f m b a) ∧ good (ieeeDiv f m a b) ∧ good (ieeeDiv f m b a) ∧
    good (ieeeSqrt f m a) ∧ good (ieeeFma f m p q a b c) ∧ good (ieeeFma f m p q b a c) ∧ good (ieeeFma f m p q b c a) ∧
    (∀ mx : Bool, (isNaN f b = false →
        ieeeMinMax f mx a b = ⟨fmtBits f b, nv⟩ ∧ ieeeMinMax f mx b a = ⟨fmtBits f b, nv⟩) ∧
      (isNaN f b = true → ieeeMinMax f mx a b = ⟨canonNaN f, nv ||| (Fp.ofIeee f b).sig⟩)) ∧
    (∀ g : Fmt, ieeeConv g f m a = ⟨canonNaN g, nv⟩) ∧
    toIntFp f m 32 a = ⟨ofI (2 ^ 31 - 1), flagNV⟩ ∧ toIntFp f m 64 a = ⟨ofI (2 ^ 63 - 1), flagNV⟩

/-! ## The vector unit -/

/-- A lane-wise vector instruction completes, when its operands are supplied and no flag it raises is enabled to trap: each lane that it
computes and its mask keeps becomes what the rules of 05 R117 to R123 say; an inactive lane stays, or becomes zero under Z; lanes
outside its part stay; FCSR gains the flags of the computed lanes (05 R113 to R115). A destination bound to a write stream has the
result pushed, its other lanes zero, and every stream its sources name moves on (05 R114, 06 R141).
The reading of UF is log 10, the computation of VEXP2 log 11. -/
def Obligations.VectorLanes : Prop :=
  ∀ (s : Machine.State) (i : Instr) (o : VOp) (us : List Use) (v : List VWord),
    i.wf = true → vOp s i = some o → openUses i s.ctx o.k.rimm (vD o.d :: o.srcs) = .ok us → Supplied s us v →
    let d := rg (us.map (·.reg)) 0
    s.fpTraps (o.flags s v) = false →
    ∃ r : VWord, Done i s (((s.orFlags (o.flags s v)).popAll us).writeV d r) 8 ∧
      ∀ j < 64 / o.n, lane r o.n j = o.result s (s.oldV d) v j

/-- When a flag that a lane-wise vector instruction raises is enabled, it takes FPX, writes no register and pops nothing (03 R66, 05
R115); an index word that its push has read is read. -/
def Claim.VectorFpx : Prop :=
  ∀ (s : Machine.State) (i : Instr) (o : VOp) (us : List Use) (v : List VWord),
    vOp s i = some o → openUses i s.ctx o.k.rimm (vD o.d :: o.srcs) = .ok us → Supplied s us v →
    let fl := o.flags s v
    fl &&& s.ctx.te ≠ 0 → Gives i s (((s.touchPushes us).orFlags fl).trap ⟨13, fl.zeroExtend 8, fl.zeroExtend 64⟩)

/-- VCMP writes, for every active lane, the truth of its relation into all the mask bits of the lane, and for an inactive lane
keeps them, or clears them under Z (05 R118). Bound sources are popped (06 R141). -/
def Claim.VectorCompare : Prop :=
  ∀ (s : Machine.State) (d : MReg) (a b : ROp) (c : VCond) (k : VCtl) (us : List Use) (v : List VWord),
    Instr.wf (.vcmp d a b c k) = true → openUses (.vcmp d a b c k) s.ctx k.rimm [vS a, vS b] = .ok us → Supplied s us v →
    let n := ewBytes k.ew
    let act := (List.range (64 / n)).filter (s.active k.msk n)
    let fl := act.foldl (fun fl j => fl ||| (vHolds c k (lv k v 0 j) (lv k v 1 j)).2) 0
    s.fpTraps fl = false →
    ∃ w : Word, Done (.vcmp d a b c k) s (((s.orFlags fl).popAll us).setM d w) 8 ∧
      ∀ p < 64, w.getLsbD p =
        if s.active k.msk n (p / n) then (vHolds c k (lv k v 0 (p / n)) (lv k v 1 (p / n))).1
        else (!k.z && (s.m d).getLsbD p)

/-- VINS writes lane x[b] mod L from its scalar, when that lane is active, and keeps the others; VEXT reads a lane into an f
register or, sign-extended but for E4M3, an x register (05 R123). Bound operands are popped and pushed (06 R141). -/
def Claim.VectorInsertExtract : Prop :=
  ∀ (s : Machine.State) (d a : ROp) (b : Reg) (k : VCtl) (us : List Use) (v : List VWord),
    let n := ewBytes k.ew
    let p := (s.x b).toNat % (64 / n)
    let i : Instr := .vins d a b k
    let j : Instr := .vext d a b k
    (openUses i s.ctx k.rimm (⟨true, d, .both⟩ :: scalarOps k.ew a) = .ok us → Supplied s us v →
      ∃ r : VWord, Done i s ((s.popAll us).setV (rg (us.map (·.reg)) 0) r) 8 ∧ ∀ l < 64 / n, lane r n l =
        if l = p ∧ s.active k.msk n l = true then lowBytes n (s.scalar k.ew a v)
        else lane (s.v (rg (us.map (·.reg)) 0)) n l) ∧
    (k.ew.isFp = true → openUses j s.ctx k.rimm [fD d, vS a] = .ok us → Supplied s us v →
      Done j s ((s.popAll us).writeF (rg (us.map (·.reg)) 0) (lane (sv v 0) n p)) 8) ∧
    (k.ew.isFp = false → openUses j s.ctx k.rimm [vS a] = .ok us → Supplied s us v →
      let x := lane (sv v 0) n p
      Done j s ((s.popAll us).setX d.n (if k.ew = .e4m3 then x else ofI (laneInt n x))) 8)

/-- VREDSUM, VREDMAX and VREDMIN over integer lanes: the active lanes, in exact integers, with the scalar as the first term, cut
to the element and sign-extended; over FP lanes in lane order from the scalar on, with every partial result rounded (05 R124). Bound
operands are popped and pushed (06 R141). -/
def Obligations.VectorReductions : Prop :=
  ∀ (s : Machine.State) (d a b : ROp) (k : VCtl) (us : List Use) (v : List VWord),
    let n := ewBytes k.ew
    let xs := ((List.range (64 / n)).filter (s.active k.msk n)).map fun j => lane (sv v 0) n j
    let ints := xs.map (laneInt n)
    let b0 := laneInt n (s.x b.n)
    let wrap (z : Int) : Word := ofI (laneInt n (ofI z))
    (k.ew.isInt = true → openUses (.vredsum d a b k) s.ctx k.rimm [vS a] = .ok us → Supplied s us v →
      Done (.vredsum d a b k) s ((s.popAll us).setX d.n (wrap (b0 + ints.sum))) 8) ∧
    (k.ew.isInt = true → openUses (.vredmax d a b k) s.ctx k.rimm [vS a] = .ok us → Supplied s us v →
      Done (.vredmax d a b k) s ((s.popAll us).setX d.n (ofI (ints.foldl max b0))) 8) ∧
    (k.ew.isInt = true → openUses (.vredmin d a b k) s.ctx k.rimm [vS a] = .ok us → Supplied s us v →
      Done (.vredmin d a b k) s ((s.popAll us).setX d.n (ofI (ints.foldl min b0))) 8) ∧
    ∀ f : Fmt, ewFmt k.ew = some f →
      let fold (i : Instr) (step : Word → Word → FRes) : Prop :=
        openUses i s.ctx k.rimm [fD d, vS a, fS b] = .ok us → Supplied s us v →
        let r := xs.foldl (fun (acc : FRes) x => ⟨(step acc.bits x).bits, acc.fl ||| (step acc.bits x).fl⟩)
          ⟨fmtBits f (sf v 1), 0⟩
        s.fpTraps r.fl = false → Done i s (((s.orFlags r.fl).popAll us).writeF (rg (us.map (·.reg)) 0) r.bits) 8
      fold (.vredsum d a b k) (ieeeAdd f (s.mode k.frm)) ∧ fold (.vredmax d a b k) (ieeeMinMax f true) ∧
        fold (.vredmin d a b k) (ieeeMinMax f false)

/-- VTOPK and VTOPKM rank their candidates, the active lanes and for VTOPKM the k kept ones, in an order none of whose members
precedes an earlier one, and write the first k values and indices; a k of 0 or above 16 is ILLEGAL. VSORTK sorts the active lanes
with their lane numbers, ascending and stable (05 R125 to R127). A source bound to a read stream is popped, and each result of VTOPK and
VSORTK whose destination is bound is pushed (06 R141).
That VSORTK writes c last, should it be d, is log 48. -/
def Obligations.VectorSelection : Prop :=
  ∀ (s : Machine.State) (d a c : ROp) (b : Reg) (k : VCtl) (us : List Use) (v : List VWord),
    let rd := rg (us.map (·.reg)) 0
    let rc := rg (us.map (·.reg)) 2
    let act := (List.range 16).filter (s.active k.msk 4)
    let n := (s.x b).toNat % 256
    let base : BitVec 32 := (s.x b).extractLsb' 32 32
    let new : List Cand := act.map fun j => ⟨lane (sv v 0) 4 j, base + BitVec.ofNat 32 j, true⟩
    let old : List Cand := ((List.range n).map fun j =>
      (⟨lane (s.v rd) 4 j, (s.v rc).extractLsb' (32 * j) 32, false⟩ : Cand)).filter fun e => e.idx ≠ 0xFFFFFFFF
    let ranked (l cs : List Cand) : Prop := l.Perm cs ∧ l.Pairwise fun x y => y.precedes x = false
    let both (l : List (Word × Word)) : Machine.State := ((s.popAll us).writeV rd (ofLanes 4 (l.map (·.1)))).writeV rc (ofLanes 4 (l.map (·.2)))
    (openUses (.vtopk d a b c k) s.ctx k.rimm [vD d, vS a, vD c] = .ok us → Supplied s us v →
      (1 ≤ n ∧ n ≤ 16 → ∃ l, ranked l new ∧ Done (.vtopk d a b c k) s (both (topLanes n l)) 8) ∧
      (n = 0 ∨ 16 < n → Gives (.vtopk d a b c k) s ((s.touchPushes us).trap (illegal (.vtopk d a b c k))))) ∧
    (openUses (.vtopkm d a b c k) s.ctx k.rimm [⟨true, d, .both⟩, vS a, ⟨true, c, .both⟩] = .ok us → Supplied s us v →
      (1 ≤ n ∧ n ≤ 16 → ∃ l, ranked l (old ++ new) ∧ Done (.vtopkm d a b c k) s (both (topLanes n l)) 8) ∧
      (n = 0 ∨ 16 < n → Gives (.vtopkm d a b c k) s ((s.touchPushes us).trap (illegal (.vtopkm d a b c k))))) ∧
    (openUses (.vsortk d a c k) s.ctx k.rimm [vD d, vS a, vD c] = .ok us → Supplied s us v →
      ∃ l : List (Word × Word), l.Perm (act.map fun j => (lane (sv v 0) 4 j, ofN j)) ∧
        l.Pairwise (fun x y => sortKeyLt k.ew x.1 y.1 = true ∨ (sortKeyLt k.ew y.1 x.1 = false ∧ x.2.toNat < y.2.toNat)) ∧
        Done (.vsortk d a c k) s
          (both ((List.range 16).map fun i => l.getD i (if k.ew = .s then 0x7F800000 else 0x7FFFFFFF, 0xFFFFFFFF))) 8)

/-- A vector load whose active lanes all pass their checks is one outstanding access that will fill those lanes, and zero the
others under Z; it is on the CORE path, and each lane through a gather window on GWIN, whose index words it reads now, once nothing
earlier comes first there. A vector store whose active lanes pass is one outstanding access that writes them lane by lane, in
order, of the lanes with one address only the highest (05 R128 to R130). The first failing lane's trap is taken instead, once the
index words up to it have been read. With no active lane nothing is accessed. A data register of a store and an index register bound to a read stream are popped (06 R141).
What of an access is read at issue is log 7, its lanes' order log 6, VSCAT's order of pops log 16. -/
def Obligations.VectorMemory : Prop :=
  ∀ (s : Machine.State) (i : Instr) (o : VMem) (us : List Use) (v : List VWord),
    let n := ewBytes o.k.ew
    let rd := rg (us.map (·.reg)) 0
    (vLoadOf s i = some o → openUses i s.ctx o.k.rimm (⟨true, o.d, .load⟩ :: o.srcs) = .ok us → Supplied s us v →
      (∀ src : Nat → LaneSrc, (∀ j ∈ o.lanes s, s.loadCheck (o.addr v j) n = .ok (src j)) → o.lanes s ≠ [] →
        let idx := (o.lanes s).flatMap fun j => (src j).indexKeys
        ((∀ j ∈ o.lanes s, s.indexFree (src j) = true) → s.powered ((o.lanes s).flatMap fun j => (src j).keys) = true →
          let lanes : List LoadLane := ((o.lanes s).map fun j => ⟨8 * n * j, n, src j⟩) ++
            (if o.k.z then (o.idle s).map fun j => ⟨8 * n * j, n, .val 0⟩ else [])
          let path : Sys2Proof.Path := if (o.lanes s).all fun j => (src j).path == .gwin then .gwin else .core
          Done i s ((State.touch s.k (s.popAll us) idx).issuingAt (.load path false (.v rd) lanes)
            ((o.lanes s).flatMap fun j => (src j).sitesOn .core)) 8) ∧
        ((∃ j ∈ o.lanes s, s.indexFree (src j) = false) → Gives i s (State.stall s.ctx.wait.reading (s.wakeFor idx)))) ∧
      (o.lanes s = [] → ∃ r : VWord, Done i s ((s.popAll us).setV rd r) 8 ∧
        ∀ j < 64 / n, lane r n j = if o.k.z then 0 else lane (s.v rd) n j) ∧
      (∀ (p q : List Nat) (j : Nat) (t : Trap), o.lanes s = p ++ j :: q → (∀ l ∈ p, ∃ x, s.loadCheck (o.addr v l) n = .ok x) →
        s.loadCheck (o.addr v j) n = .error t →
        let read := (p ++ [j]).map fun l => s.indexWords (o.addr v l) n
        ((∀ w ∈ read, s.indexFree w = true) → Gives i s ((State.touch s.k s (read.flatMap (·.indexKeys))).trap t)) ∧
        ((∃ w ∈ read, s.indexFree w = false) →
          Gives i s (State.stall s.ctx.wait.reading (s.wakeFor (read.flatMap (·.indexKeys))))))) ∧
    (vStoreOf s i = some o → openUses i s.ctx o.k.rimm (vS o.d :: o.srcs) = .ok us → Supplied s us v →
      (∀ key : Nat → Nat, (∀ j ∈ o.lanes s, s.storeCheck (o.addr v j) n .w = .ok (key j)) → o.lanes s ≠ [] →
        let kept := (o.lanes s).filter fun j => (o.lanes s).all fun l => !(decide (j < l) && o.addr v l == o.addr v j)
        s.powered (kept.map key) = true →
        Done i s ((s.popAll us).issuing (.store .core (kept.map fun j => cellsOf (key j) n (lane (sv v 0) n j).toNat))
          (kept.map fun j => s.homeAt (o.addr v j) (key j))) 8) ∧
      (o.lanes s = [] → Done i s (s.popAll us) 8) ∧
      (∀ (p q : List Nat) (j : Nat) (t : Trap), o.lanes s = p ++ j :: q →
        (∀ l ∈ p, ∃ x, s.storeCheck (o.addr v l) n .w = .ok x) → s.storeCheck (o.addr v j) n .w = .error t → Traps i s t))

/-! ## Streams and replays -/

/-- SCFG writes one pattern register of a stream's pending copy and no other; SCTL with a reserved WID is ILLEGAL (01 R27, 06
R137). -/
def Claim.StreamConfig : Prop :=
  ∀ (s : Machine.State) (k : BitVec 2) (r : BitVec 4) (a : Reg), r.toNat ≤ 10 →
    let v := s.x a
    let p := (s.stream k).pending
    let i : Instr := .scfg k r a
    (r = 0 → 4 < v.toNat / 8 % 8 → Traps i s (illegal i)) ∧
    (¬(r = 0 ∧ 4 < v.toNat / 8 % 8) →
      ∃ q : Pattern, Done i s (s.setStream k { s.stream k with pending := q }) 8 ∧
        (q.dims, q.ind, q.wid, q.dir) =
          (if r = 0 then (v.extractLsb' 7 2, v.getLsbD 6, v.extractLsb' 3 3, v.getLsbD 2) else (p.dims, p.ind, p.wid, p.dir)) ∧
        q.base = (if r = 1 then v else p.base) ∧ q.idx = (if r = 10 then v else p.idx) ∧
        (∀ n : Fin 4, q.bnd[n] = if r.toNat = 2 + n then v.extractLsb' 0 32 else p.bnd[n]) ∧
        (∀ n : Fin 4, q.stride[n] = if r.toNat = 6 + n then v.extractLsb' 0 32 else p.stride[n]))

/-- SSTART makes the pending pattern the active one at position 0 and binds the register, or is ILLEGAL; SSTOP ends an active stream:
ACT, BREG, BV and FLT become 0, what was fetched is dropped, and SPOS, ENDED, the pattern and the pushes stay; SSTAT reads its state (06 R135 to R140). -/
def Claim.StreamControl : Prop :=
  ∀ (s : Machine.State) (k : BitVec 2) (d : Reg) (bv : Bool),
    let t := s.stream k
    (∀ e, t.flt = some e → e.n < 2 ^ 48) →
    let w := t.pending.wid.toNat
    let ok : Prop := (bv = true → d.toNat < s.ctx.valloc.toNat) ∧ (if bv then w = 4 else w ≤ 3) ∧
      (∀ j, s.ctx.bound bv d = some j → j = k) ∧ t.pending.total < 2 ^ 48
    (ok → Done (.sstart k d bv) s (s.setStream k
      { act := t.pending, pending := t.pending, active := true, ended := decide (t.pending.total = 0), flt := none, bv := bv,
        breg := d, spos := 0, sflt := 0, got := [], pushes := t.pushes, part := .none }) 8) ∧
    (¬ok → Traps (.sstart k d bv) s (illegal (.sstart k d bv))) ∧
    (t.active = true → Done (.sstop k) s (s.setStream k
      { t with active := false, bv := false, breg := 0, flt := none, got := [], part := .none }) 8) ∧
    (t.active = false → Done (.sstop k) s s 8) ∧
    Done (.sstat d k) s (s.setX d (ofN (
      (match t.flt with | some e => e.n | none => t.spos.toNat % 2 ^ 48) + t.active.toNat * 2 ^ 56 + t.ended.toNat * 2 ^ 57 +
        t.flt.isSome.toNat * 2 ^ 58 + t.act.dir.toNat * 2 ^ 59))) 8

/-- A register bound to an active stream is its next element, each naming once: as a source it pops the element at SPOS, fetched
already or now, and as a destination it pushes the result to the element's place. Past the last element STREND is raised; an element
in the fault slot, and a place that may not be written, raise STRFAULT with the stream, the subcode and the address; a register of
a write stream as a source, and of a read stream as a destination, is ILLEGAL: nothing is popped or pushed then, and of a place that
fails only the index word has been read (06 R141, R142, R145 to R147). These rows of checks are stated of FMV.X and FMV.F; what the other instructions do with elements that have arrived, and two
pops in one instruction, is in FpResults, VectorLanes and the statements beside them.
That TVAL of a pop is what SFLT reads is log 48. -/
def Obligations.StreamOperands : Prop :=
  ∀ (s : Machine.State) (d r : Reg) (f : Fmt) (k : BitVec 2),
    let t := s.stream k
    let rest (t : Stream) : Stream := { t with spos := t.spos + 1, part := .none, ended := decide (t.act.total ≤ t.spos.toNat + 1) }
    let pop : Instr := .fmvX d ⟨r, false⟩ f 0
    let push : Instr := .fmvF ⟨r, false⟩ d f 0
    s.ctx.bound false r = some k →
    (t.act.dir = false →
      (∀ (v : VWord) (l : List VWord), t.got = v :: l → t.spos.toNat < t.act.total →
        Done pop s (State.setX (s.setStream k { rest t with got := l }) d (fmtBits f (v.extractLsb' 0 64))) 8) ∧
      (∀ (v : VWord) (g : StreamGot), t.got = [] → t.flt = none → t.spos.toNat < t.act.total →
        s.elemRead t.act t.part t.spos.toNat = .ok (v, g) → s.streamHeld g = false → s.powered g.keys = true →
        ∃ u, Done pop s u 8 ∧ XHolds s u d (fmtBits f (v.extractLsb' 0 64)) ∧ u.stream k = rest t ∧ SameMemory s u) ∧
      (t.act.total ≤ t.spos.toNat → Traps pop s ⟨9, k ++ (0 : BitVec 6), t.spos⟩) ∧
      (∀ e, t.got = [] → t.flt = some e → e.n ≤ t.spos.toNat → t.spos.toNat < t.act.total →
        Traps pop s ⟨8, k ++ e.sub, t.sflt⟩) ∧
      Traps push s (illegal push)) ∧
    (t.act.dir = true →
      (∀ (va : Word) (keys : List Nat) (g : StreamGot), t.got = [] → t.spos.toNat < t.act.total →
        s.pushPlace t.act t.spos.toNat = .ok (va, keys, g) → s.streamHeld g = false → s.powered g.keys = true →
        Done push s (State.touchStream s.k { s.setStream k { rest t with
          pushes := t.pushes ++ [⟨s.nextId, keys.zip (leBytes t.act.bytes (fmtBits f (s.x d)).toNat),
            keys.zipIdx.map fun e => s.homeAt (va + ofN e.2) e.1⟩] } with nextId := s.nextId + 1 } g.keys) 8) ∧
      (t.act.total ≤ t.spos.toNat → Traps push s ⟨9, k ++ (0 : BitVec 6), t.spos⟩) ∧
      (∀ e, t.spos.toNat < t.act.total → s.pushPlace t.act t.spos.toNat = .error e →
        let g := s.indexRead k 1
        (t.act.ind = false → g.keys = []) ∧
        (s.streamHeld g = false → s.powered g.keys = true →
          Gives push s ((State.touchStream s.k s g.keys).trap ⟨8, k ++ e.sub, e.addr⟩))) ∧
      Traps pop s (illegal pop))

/-- STREAM_FETCH adds the next element of an active read stream of the current context, once no earlier access of the context
comes first at one of its homes or words and its region is awake, and on a fault holds it, with its address, for the pop that meets it; STREAM_WRITE writes
the oldest push of a stream when nothing earlier comes first, and of the pushes an ended context left (06 R143 to R145, 08 R193, 11
R286). -/
def Obligations.StreamMoves : Prop :=
  ∀ (s : Machine.State) (k : BitVec 2),
    let t := s.stream k
    let n := t.spos.toNat + t.got.length
    (t.active = true → t.act.dir = false → t.flt = none → n < t.act.total → t.got.length < 16 →
      (∀ v g, s.elemRead t.act t.part n = .ok (v, g) → s.streamHeld g = false → s.powered g.keys = true →
        Gives (.streamFetch s.cur k.toNat) s
          (State.touchStream s.k (s.setStream k { t with got := t.got ++ [v], part := .none }) g.keys)) ∧
      (∀ e, s.elemRead t.act t.part n = .error e → s.streamHeld e.got = false → s.powered e.got.keys = true →
        Gives (.streamFetch s.cur k.toNat) s (State.touchStream s.k
          (s.setStream k { t with flt := some ⟨n, e.addr, e.sub⟩, sflt := e.addr, part := .none }) e.got.keys))) ∧
    (∀ (e : Push) (r : List Push), t.pushes = e :: r → s.pushFree e = true →
      ∃ u, Gives (.streamWrite (some s.cur) k.toNat) s u ∧ Stored s u e.cells ∧
        u.ctx = { s.ctx with streams := s.ctx.streams.map fun t => { t with pushes := t.pushes.filter (·.id != e.id) } }) ∧
    (∀ (c id : Nat) (cells : List Host.Cell) (sn : Bool) (hs : List (Sys2Proof.Path × Nat)) (r : List (Nat × Pend)),
      s.orphans = (c, ⟨id, .store .strm [cells], hs, sn⟩) :: r → s.powered (cells.map (·.1)) = true →
      s.cmdBefore c id (cells.map (·.1)) = false →
      ∃ u, Gives (.streamWrite none 0) s u ∧ Stored s u cells ∧ u.orphans = r)

/-- FREP and FREPI capture their body and start its replay, or skip it when the count is 0; a count of 2^32 or more, or a replay in
progress, is ILLEGAL, and a body that cannot be captured traps with what fetch or R153 finds; a body in a CLM region that sleeps is
waited for (06 R151 to R154, 10 R262). -/
def Claim.ReplayStarts : Prop :=
  ∀ (s : Machine.State) (a : Reg) (n : BitVec 12) (len : BitVec 4),
    let starts (i : Instr) (cnt : Nat) : Prop :=
      (s.ctx.rep.act = true → Traps i s (illegal i)) ∧
      (s.ctx.rep.act = false → 2 ^ 32 ≤ cnt → Traps i s (illegal i)) ∧
      (∀ body first p, s.ctx.rep.act = false → cnt < 2 ^ 32 →
        s.capture 64 (len.toNat + 1) (s.ctx.pc + 8) [] 0 = .ok (body, first, p) →
        (cnt = 0 → Goes i s s p) ∧
        (cnt ≠ 0 → Goes i s { s with ctx := { s.ctx with
          rep := ⟨true, BitVec.ofNat 5 (len.toNat + 1), BitVec.ofNat 32 cnt, false, 0, 0, first, body, false, false, [], []⟩ } } p)) ∧
      (∀ t, s.ctx.rep.act = false → cnt < 2 ^ 32 → s.capture 64 (len.toNat + 1) (s.ctx.pc + 8) [] 0 = .error (.trap t) →
        Traps i s t) ∧
      (∀ key, s.ctx.rep.act = false → cnt < 2 ^ 32 → s.capture 64 (len.toNat + 1) (s.ctx.pc + 8) [] 0 = .error (.asleep key) →
        Gives i s (State.stall .counters (s.wakeFor [key])))
    starts (.frep a len) (s.x a).toNat ∧ starts (.frepi n len) n.toNat

/-- FREP_BODY_ISSUE runs the next body instruction with the effect that instruction has by itself, but for PC, which stays; then
the next one is up, or the first of the next iteration (06 R153, R155). An iteration is counted (16 R376 event 16), and after the last
one the replay ends, once its body instructions have written their destinations: with no load of theirs out at once, and else the
replay goes on with the iteration noted. A body instruction of the mask class, each of the eight, never waits or traps (05 R131).
A replay whose iterations have all issued ends in the first cycle in which nothing of it is left to write (17 R385). -/
def Claim.ReplayBody : Prop :=
  ∀ (s t : Machine.State) (i : Instr),
    let r := s.ctx.rep
    let last : Bool := decide (r.slot.toNat + 1 = r.len.toNat)
    let stepped (u : Replay) : Prop := u.issuing = false ∧ u.slot = (if last then 0 else r.slot + 1) ∧
      u.iter = if last then r.iter + 1 else r.iter
    let atEnd : Bool := last && decide (r.cnt.toNat ≤ (r.iter + 1).toNat)
    let counted (v : Machine.State) : Machine.State :=
      if last then { v with core := { v.core with due := v.core.due ++ [(16, some s.c)] } } else v
    let after (v : Machine.State) (u : Replay) : Machine.State := { v with ctx := { v.ctx with rep := u, wait := s.ctx.wait } }
    let fresh : Prop := r.loads = [] ∧ r.ends = [] ∧ s.ctx.fma = []
    let masked (v : Machine.State) : Prop := fresh → (∀ p ∈ s.ctx.pend, p.id < s.nextId) →
      ∃ u : Replay, stepped u ∧ u.act = !atEnd ∧
        Gives .frepBodyIssue s (counted (after { v with ctx := { v.ctx with instret := s.ctx.instret + 1 } } u))
    r.act = true → r.held = false → r.issuing = false → r.iter.toNat < r.cnt.toNat → r.body[r.slot.toNat]? = some i →
    (inBody i = true → exec i { s with ctx := { s.ctx with wait := .none, rep := { r with issuing := true } } } = .next t →
      t.ctx.rep = { r with issuing := true } → t.ctx.wait = .none → t.cur = s.cur → fresh → t.ctx.fma = [] → fmaDest s.ctx i = none →
      (t.ctx.loadsFrom s.nextId = [] → ∃ u : Replay, Gives .frepBodyIssue s (counted (after t u)) ∧ stepped u ∧ u.act = !atEnd) ∧
      (t.ctx.loadsFrom s.nextId ≠ [] → (∀ p ∈ t.ctx.pend, p.id < t.nextId) →
        ∃ u : Replay, Gives .frepBodyIssue s (after t u) ∧ stepped u ∧ u.act = true ∧
          u.ends = if last then [(t.nextId, t.cycleNow)] else [])) ∧
    (∀ d a b, i = .mand d a b → masked (s.setM d (s.m a &&& s.m b))) ∧
    (∀ d a b, i = .mor d a b → masked (s.setM d (s.m a ||| s.m b))) ∧
    (∀ d a b, i = .mxor d a b → masked (s.setM d (s.m a ^^^ s.m b))) ∧
    (∀ d a, i = .mnot d a → masked (s.setM d (~~~s.m a))) ∧
    (∀ d a, i = .mset d a → masked (s.setM d (s.x a))) ∧
    (∀ d a, i = .msetX d a → masked (s.setX d (s.m a))) ∧
    (∀ d a, i = .mpop d a → masked (s.setX d (ofN ((List.range 64).countP fun j => (s.m a).getLsbD j)))) ∧
    (∀ d a, i = .mfirst d a → ∃ n ≤ 64, masked (s.setX d (ofN n)) ∧ (∀ j < n, (s.m a).getLsbD j = false) ∧
      (n < 64 → (s.m a).getLsbD n = true))

/-- A replay that has issued its last iteration goes on while a body instruction has a destination left to write, and then ends (06
R155, 17 R385). -/
def Claim.ReplayEnds : Prop :=
  ∀ s : Machine.State, s.ctx.rep.act = true → s.ctx.rep.held = false →
    ∀ n : Nat, (s.replayWrites n = true → (s.settleReplay n).ctx.rep.act = true) ∧
      (s.replayWrites n = false → (s.settleReplay n).ctx.rep.act = decide (s.ctx.rep.iter.toNat < s.ctx.rep.cnt.toNat))

/-! ## The matrix unit -/

/-- Every instruction of the matrix unit but TACQ traps when its core is no compute core (ILLEGAL, SUB 2), and else when its
context does not hold the claim (TILEBUSY); TMOV so once its v register has passed its own checks (07 R161, R164). -/
def Claim.TileGates : Prop :=
  ∀ (s : Machine.State) (t ta tb : Tile) (a b d : Reg) (w pln : BitVec 3) (c : BitVec 7) (r : BitVec 5) (imm : BitVec 12)
    (rnd : Bool) (fmt : TFmt) (sel : TSel) (i : Instr),
    i ∈ [.trel, .tcfg t w c r, .tzero t, .tswap t, .tld t a b imm pln rnd, .ttld t a b imm pln rnd, .tst t a b imm,
        .tmma t ta tb fmt] ∨
      (i ∈ [.tmovFr d t sel, .tmovTo d t sel] ∧ d.toNat < s.ctx.valloc.toNat ∧ s.ctx.bound true d = none) →
    (isCompute s.k = false → Traps i s ⟨1, 2, low64 i⟩ ∧ Traps .tacq s ⟨1, 2, low64 .tacq⟩) ∧
    (isCompute s.k = true → s.tclm = false → Traps i s ⟨12, 0, low64 i⟩)

/-- TACQ completes at once for the holder of the claim, takes a free claim for which nobody waits, and else waits its turn, behind
those that wait already even when the claim is free; TACQ_GRANT gives a free claim to the first waiting context, whose TACQ then
completes; TREL gives the claim up when no counted operation is left, and else waits (07 R161). -/
def Claim.TileClaim : Prop :=
  ∀ s : Machine.State, isCompute s.k = true →
    (s.tclm = true → Done .tacq s s 8) ∧
    (s.core.claim = none → s.core.tacqs = [] → Done .tacq s { s with core := { s.core with claim := some s.c } } 8) ∧
    (s.tclm = false → s.core.claim ≠ none ∨ s.core.tacqs ≠ [] →
      (s.c ∉ s.core.tacqs →
        Gives .tacq s (State.stall .tacq { s with core := { s.core with tacqs := s.core.tacqs ++ [s.c] } })) ∧
      (s.c ∈ s.core.tacqs → Waits .tacq s .tacq)) ∧
    (∀ (c : Nat) (r : List Nat), s.core.claim = none → s.core.tacqs = c :: r → (s.getCtx (s.k * 8 + c)).rep.issuing = false →
      ∃ t, Gives (.tacqGrant s.k) s t ∧ t.core.claim = some c ∧ t.core.tacqs = r ∧ t.cur = s.cur ∧ SameMemory s t ∧
        t.getCtx (s.k * 8 + c) = (let x := s.getCtx (s.k * 8 + c)
          { x with pc := x.pc + 8, instret := x.instret + 1, wait := .none })) ∧
    (s.tclm = true → s.core.tileq = [] → Done .trel s { s with core := { s.core with claim := none, release := false } } 8) ∧
    (s.tclm = true → s.core.tileq ≠ [] → Waits .trel s .counters)

/-- For the holder of the claim: TCFG sets a shape at once; TZERO, TMMA with the widths its format asks for, and tile loads and
stores whose checks pass join the counted operations, with the homes they reach; TMMA with another width is ILLEGAL (07 R164, R165, R166, R168, R171,
R172). -/
def Claim.TileIssue : Prop :=
  ∀ (s : Machine.State) (t ta tb : Tile) (a b : Reg) (w pln : BitVec 3) (c : BitVec 7) (r : BitVec 5) (imm : BitVec 12)
    (rnd : Bool) (fmt : TFmt), isCompute s.k = true → s.tclm = true →
    let counted (i : Instr) (o : TileOp) (homes : List Nat) : Prop :=
      Done i s { s with core := { s.core with tileq := s.core.tileq ++ [⟨s.nextId, o, homes⟩] }, nextId := s.nextId + 1 } 8
    let ab : BitVec 3 := match fmt with | .p1 => 0 | .e4m3 => 0 | .i8 => 1 | .p2 => 2 | .s => 3 | .d => 4
    let cw : BitVec 3 := match fmt with | .d => 4 | _ => 3
    let fits : Prop := (s.tshape ta).wid = ab ∧ (s.tshape tb).wid = ab ∧ (s.tshape t).wid = cw
    Done (.tcfg t w c r) s (s.setTshape t ⟨c, r, w⟩) 8 ∧ counted (.tzero t) (.zero t) [] ∧
    (fits → counted (.tmma t ta tb fmt) (.mma t ta tb fmt) []) ∧
    (¬fits → Traps (.tmma t ta tb fmt) s (illegal (.tmma t ta tb fmt))) ∧
    (∀ o, s.tileLoad (.tld t a b imm pln rnd) t a b imm pln rnd false = .ok o → counted (.tld t a b imm pln rnd) o (s.tileHomes a b imm false o)) ∧
    (∀ o, s.tileLoad (.ttld t a b imm pln rnd) t a b imm pln rnd true = .ok o → counted (.ttld t a b imm pln rnd) o (s.tileHomes a b imm true o)) ∧
    (∀ o, s.tileStore t a b imm = .ok o → counted (.tst t a b imm) o (s.tileHomes a b imm false o))

/-- TMOV between a v register and a half row, half the row scales, or the tile scale, for the holder of the claim with no counted
operation left; with one left it waits (07 R167). A v register bound to a read stream gives TMOV its next element, which is popped, and
TMOV to a bound v register is ILLEGAL (06 R141). -/
def Claim.TileMoves : Prop :=
  ∀ (s : Machine.State) (d : Reg) (t : Tile) (r : BitVec 5) (h : Bool) (sel : TSel) (us : List Use) (l : List VWord),
    isCompute s.k = true → s.tclm = true →
    let v := sv l 0
    let fr : Prop := d.toNat < s.ctx.valloc.toNat ∧ s.ctx.bound true d = none
    let into (i : Instr) : Prop := openUses i s.ctx 0 [vS (direct d)] = .ok us ∧ Supplied s us l
    let T := s.tile t
    let row := T.rows[r.toNat]'(r.isLt)
    let h0 := if h then 512 else 0
    (d.toNat < s.ctx.valloc.toNat → (s.ctx.bound true d).isSome = true →
      Traps (.tmovFr d t sel) s (illegal (.tmovFr d t sel))) ∧
    (s.core.tileq ≠ [] → (fr → Waits (.tmovFr d t sel) s .counters) ∧ (into (.tmovTo d t sel) → Waits (.tmovTo d t sel) s .counters)) ∧
    (s.core.tileq = [] → fr →
      Done (.tmovFr d t (.row r h)) s (s.setV d (row.extractLsb' h0 512)) 8 ∧
      Done (.tmovFr d t .ts) s (s.setV d (T.st.zeroExtend 512)) 8 ∧
      (∃ x : VWord, Done (.tmovFr d t (.rs h)) s (s.setV d x) 8 ∧
        ∀ j : Fin 16, x.extractLsb' (32 * j) 32 = T.sr.toList.getD ((if h then 16 else 0) + j) 0)) ∧
    (s.core.tileq = [] →
      (into (.tmovTo d t (.row r h)) → ∃ w : BitVec 1024,
        Done (.tmovTo d t (.row r h)) s ((s.popAll us).setTile t { T with rows := T.rows.set r.toNat w r.isLt }) 8 ∧
        w.extractLsb' h0 512 = v ∧ w.extractLsb' (512 - h0) 512 = row.extractLsb' (512 - h0) 512) ∧
      (into (.tmovTo d t .ts) → Done (.tmovTo d t .ts) s ((s.popAll us).setTile t { T with st := v.extractLsb' 0 32 }) 8) ∧
      (into (.tmovTo d t (.rs h)) → ∃ q : Vector (BitVec 32) 32,
        Done (.tmovTo d t (.rs h)) s ((s.popAll us).setTile t { T with sr := q }) 8 ∧
        ∀ j : Fin 32, q[j] = if decide (j.val < 16) = !h then v.extractLsb' (32 * (j.val % 16)) 32 else T.sr[j]))

/-- The addresses of a tile load and store (07 R168, R169): element (i, c) of the captured shape stands at base + i × stride + c × e
for TLD and TST, at base + c × stride + i × e for TTLD, with e the element's bytes on a plain page and 1 on a plane page; every
element that passes its checks is captured, rows in order and within a row elements in order; on a plane page with the planes the
read takes and the scale word of each row. TST of width 0 captures on a plane page the plane-0 byte of each element and nothing else,
and of another width faults at the base with SFAULT (07 R171); the subcode is log 48's. -/
def Claim.TileAddresses : Prop :=
  ∀ (s : Machine.State) (t : Tile) (a b : Reg) (imm : BitVec 12) (pln : BitVec 3) (rnd tr : Bool) (fdi : BitVec 6) (d : Fd)
    (key : Nat → Nat → Nat) (ks : Nat → Nat → List Nat) (g : Nat → Nat → Nat × Nat) (i : Instr),
    let sh := s.tshape t
    let base := s.x a + ofI imm.toInt
    let w := [1, 1, 2, 4, 8].getD sh.wid.toNat 0
    let addr (e r c : Nat) : Word :=
      if tr then base + ofN c * s.x b + ofN (r * e) else base + ofN r * s.x b + ofN (c * e)
    let all : List (Nat × Nat) :=
      (List.range (sh.rows.toNat + 1)).flatMap fun r => (List.range (sh.cols.toNat + 1)).map fun c => (r, c)
    let elems (f : Nat → Nat → List Nat) : List TileElem := all.map fun e => ⟨e.1, e.2, f e.1 e.2⟩
    let bytes (r c : Nat) : List Nat := (List.range w).map (key r c + ·)
    let k := if sh.wid = 2 then 2 else 1
    let np := if rnd = true ∧ k < d.npl then d.npl else min k d.npl
    sh.wid.toNat ≤ 4 →
    (s.tileBase true base = .ok ⟨fdi, none⟩ → pln = 0 →
      (∀ r ≤ sh.rows.toNat, ∀ c ≤ sh.cols.toNat, (addr w r c).toNat % w = 0 ∧ s.tileSite true (addr w r c) = .ok (key r c, fdi)) →
      s.tileLoad i t a b imm pln rnd tr = .ok (.load t w 1 1 false false (elems bytes) [])) ∧
    (s.tileBase false base = .ok ⟨fdi, none⟩ → tr = false →
      (∀ r ≤ sh.rows.toNat, ∀ c ≤ sh.cols.toNat, (addr w r c).toNat % w = 0 ∧ s.tileSite false (addr w r c) = .ok (key r c, fdi)) →
      s.tileStore t a b imm = .ok (.store t w (elems bytes))) ∧
    (s.tileBase false base = .ok ⟨fdi, some d⟩ → tr = false →
      (sh.wid ≠ 0 → s.tileStore t a b imm = .error ⟨5, 7, base⟩) ∧
      (sh.wid = 0 →
        (∀ r ≤ sh.rows.toNat, ∀ c ≤ sh.cols.toNat, s.tileSite false (addr 1 r c) = .ok (key r c, fdi) ∧
          ∃ n, d.elem (addr 1 r c) = some (0, n)) →
        s.tileStore t a b imm = .ok (.store t 1 (elems fun r c => [key r c])))) ∧
    (s.tileBase true base = .ok ⟨fdi, some d⟩ → sh.wid = 0 ∨ sh.wid = 2 → pln = 0 ∨ pln.toNat = k →
      (∀ r ≤ sh.rows.toNat, ∀ c ≤ sh.cols.toNat,
        s.tileElem true ⟨fdi, some d⟩ 1 np (addr 1 r c) = .ok (ks r c, some (g r c))) →
      blockRule tr d.block (all.map fun e => ⟨e.1, e.2, addr 1 e.1 e.2, ks e.1 e.2, some (g e.1 e.2)⟩) = .ok () →
      s.tileLoad i t a b imm pln rnd tr = .ok (.load t w np k rnd true (elems ks)
        ((List.range (sh.rows.toNat + 1)).map fun r => (r, (g r 0).2))))

/-- TILE_OP_COMPLETE performs the oldest counted operation of a core, once nothing earlier of its context comes first: a zeroed tile
has zero rows and scales of 1.0; a plain tile load fills its elements with the bytes at their addresses and its scales with 1.0; a
load of a plane page fills them with the word its planes give, rounded or cut to the planes read, its row scales with the scale
words, 1.0 where there is none, and the tile scale with that of row 0; either makes every other byte of the tile zero; a tile store
writes its elements' bytes. No other tile changes (07 R164, R166, R168 to R171).
That the whole operation is one step is log 6. -/
def Claim.TilePerformed : Prop :=
  ∀ (s : Machine.State) (t : Tile) (w k id np : Nat) (rnd : Bool) (elems : List TileElem) (scales : List (Nat × Nat))
    (rest : List Counted) (o : TileOp) (homes : List Nat), TileNext s k id o homes rest →
    let one : BitVec 32 := 0x3F800000
    let tile (u : Machine.State) (x : Tile) : TileReg := (u.getCore k).tiles[x.toNat]'(x.isLt)
    let at' (u : Machine.State) (r c : Nat) : Nat := ((tile u t).rows.toList.getD r 0).toNat / 2 ^ (8 * w * c) % 2 ^ (8 * w)
    let done (P : Machine.State → Prop) : Prop := ∃ u, Gives (.tileOpComplete k) s u ∧ (u.getCore k).tileq = rest ∧ P u
    let filled (u : Machine.State) : Prop := SameMemory s u ∧ (∀ q, q ≠ t → tile u q = tile s q) ∧
      ∀ r < 32, ∀ c, (c + 1) * w ≤ 128 → (∀ e ∈ elems, ¬(e.row = r ∧ e.col = c)) → at' u r c = 0
    (o = .zero t → done fun u => SameMemory s u ∧ (∀ j : Fin 32, (tile u t).rows[j] = 0 ∧ (tile u t).sr[j] = one) ∧
      (tile u t).st = one ∧ ∀ q, q ≠ t → tile u q = tile s q) ∧
    (o = .load t w 1 1 false false elems [] → w ∈ [1, 2, 4, 8] → (∀ e ∈ elems, e.addrs.length = w ∧ (e.col + 1) * w ≤ 128) →
      elems.Pairwise (fun x y => (x.row, x.col) ≠ (y.row, y.col)) →
      done fun u => filled u ∧ (∀ e ∈ elems, e.row < 32 → at' u e.row e.col = leNat (e.addrs.map (Mem.get s.mem))) ∧
        (∀ j : Fin 32, (tile u t).sr[j] = one) ∧ (tile u t).st = one) ∧
    (o = .load t w np w rnd true elems scales → w ∈ [1, 2] → (∀ e ∈ elems, e.addrs.length = np ∧ 1 ≤ np ∧ (e.col + 1) * w ≤ 128) →
      elems.Pairwise (fun x y => (x.row, x.col) ≠ (y.row, y.col)) →
      done fun u => filled u ∧
        (∀ e ∈ elems, e.row < 32 → at' u e.row e.col = readPlanes np w rnd (planeWord (e.addrs.map (Mem.get s.mem)))) ∧
        (∀ j : Fin 32, (tile u t).sr[j] = match find scales j with
          | some g => BitVec.ofNat 32 (leNat (Mem.bytes s.mem g 4))
          | none => one) ∧
        (tile u t).st = (tile u t).sr[0]) ∧
    (o = .store t w elems → done fun u => (u.getCore k).tiles = (s.getCore k).tiles ∧
      Stored s u (elems.flatMap fun e => e.addrs.zip
        (leBytes w (((tile s t).rows.toList.getD e.row 0).toNat / 2 ^ (8 * w * e.col) % 2 ^ (8 * w)))))

/-- A performed TMMA of a floating-point format (03 R79, R81, R82, 07 R172, R173). P1 and E4M3 sum 128 exact products, P2 64, in units
of 2^−18 and 2^−34; the sum is rounded to FP32, multiplied by the rounded product of A's row scale and B's tile scale, and added to
the element of C, each operation rounded RNE; an invalid scale or a NaN element of either row makes it the canonical NaN. S and D
take one fused multiply-add after another, in the order of k. C keeps its scales, and the other tiles stay. -/
def Claim.TileProducts : Prop :=
  ∀ (s : Machine.State) (t ta tb : Tile) (core id : Nat) (fmt : TFmt) (homes : List Nat) (rest : List Counted),
    TileNext s core id (.mma t ta tb fmt) homes rest →
    let tile (u : Machine.State) (x : Tile) : TileReg := (u.getCore core).tiles[x.toNat]'(x.isLt)
    let el (u : Machine.State) (x : Tile) (w i q : Nat) : Nat :=
      ((tile u x).rows.toList.getD i 0).toNat / 2 ^ (8 * w * q) % 2 ^ (8 * w)
    let block (k n lsb i j : Nat) : Word :=
      let a (q : Nat) := el s ta k i q
      let b (q : Nat) := el s tb k j q
      let sA := (tile s ta).sr.toList.getD i 0
      let sB := (tile s tb).st
      let acc : Int := ((List.range n).map fun q => pkInt k (a q) * pkInt k (b q)).sum
      let d : Word := if acc = 0 then 0 else (roundIeee .s .rne (decide (acc < 0)) acc.natAbs (-(lsb : Int)) false).bits
      let sc := (ieeeMul .s .rne (sA.zeroExtend 64) (sB.zeroExtend 64)).bits
      if scaleOk sA = false ∨ scaleOk sB = false ∨ (∃ q < n, pkNaN k (a q) = true ∨ pkNaN k (b q) = true) then 0x7FC00000
      else (ieeeAdd .s .rne (ofN (el s t 4 i j)) (ieeeMul .s .rne d sc).bits).bits
    let chain (f : Fmt) (w n i j : Nat) : Word :=
      (List.range n).foldl (fun c q => (ieeeFma f .rne false false (ofN (el s ta w i q)) (ofN (el s tb w j q)) c).bits)
        (ofN (el s t w i j))
    ∃ u, Gives (.tileOpComplete core) s u ∧ (u.getCore core).tileq = rest ∧ SameMemory s u ∧
      (tile u t).sr = (tile s t).sr ∧ (tile u t).st = (tile s t).st ∧ (∀ q, q ≠ t → tile u q = tile s q) ∧
      (fmt = .p1 ∨ fmt = .e4m3 → ∀ i < 32, ∀ j < 32, el u t 4 i j = (block 1 128 18 i j).toNat % 2 ^ 32) ∧
      (fmt = .p2 → ∀ i < 32, ∀ j < 32, el u t 4 i j = (block 2 64 34 i j).toNat % 2 ^ 32) ∧
      (fmt = .s → ∀ i < 32, ∀ j < 32, el u t 4 i j = (chain .s 4 32 i j).toNat % 2 ^ 32) ∧
      (fmt = .d → ∀ i < 32, ∀ j < 16, el u t 8 i j = (chain .d 8 16 i j).toNat)

/-- Counted tile operations: what they capture, and what they do. -/
def Obligations.TileCompletes : Prop := Claim.TileAddresses ∧ Claim.TilePerformed ∧ Claim.TileProducts

/-- A performed TMMA.I8 leaves in element [i][j] of C, modulo 2^32, its old value plus the exact sum of the 128 products of row i
of A and row j of B, bytes taken as signed; no scale has a part in it (03 R80). -/
def Obligations.TileI8Product : Prop :=
  ∀ (s : Machine.State) (t ta tb : Tile) (core id : Nat) (homes : List Nat) (rest : List Counted), t ≠ ta → t ≠ tb →
    TileNext s core id (.mma t ta tb .i8) homes rest →
    let tile (u : Machine.State) (x : Tile) : TileReg := (u.getCore core).tiles[x.toNat]'(x.isLt)
    let byte (x : Tile) (i k : Nat) : Int := (BitVec.ofNat 8 (((tile s x).rows.toList.getD i 0).toNat / 2 ^ (8 * k))).toInt
    let word (u : Machine.State) (i j : Nat) : BitVec 32 := ((tile u t).rows.toList.getD i 0).extractLsb' (32 * j) 32
    ∃ u, Gives (.tileOpComplete core) s u ∧ (u.getCore core).tileq = rest ∧ (∀ q, q ≠ t → tile u q = tile s q) ∧
      ∀ i < 32, ∀ j < 32, word u i j =
        word s i j + BitVec.ofInt 32 ((List.range 128).map fun k => byte ta i k * byte tb j k).sum

/-- TSWAP offers its tile once no counted operation is left, and waits; when the mirrored core offers one too, TSWAP_EXCHANGE
trades data, scales and shapes and completes both: each context's PC and INSTRET have moved on and it waits no more (00 R5, 07
R174). -/
def Obligations.TileSwaps : Prop :=
  ∀ (s : Machine.State) (t : Tile), isCompute s.k = true →
    (s.tclm = true → s.core.tileq = [] →
      Gives (.tswap t) s { s with core := { s.core with offer := some (s.c, t) }, ctx := { s.ctx with wait := .tswap } }) ∧
    (s.tclm = true → s.core.tileq ≠ [] → Waits (.tswap t) s .counters) ∧
    (∀ (ca cb : Nat) (ta tb : Tile), ca < 8 → cb < 8 →
      let m := mirrorOf s.k
      let b := s.getCore m
      let ra := s.k * 8 + ca
      let rb := m * 8 + cb
      let after (x : Ctx) : Ctx := { x with pc := x.pc + 8, instret := x.instret + 1, wait := .none }
      s.core.offer = some (ca, ta) → b.offer = some (cb, tb) → m ≠ s.k →
      (s.getCtx ra).rep.issuing = false → (s.getCtx rb).rep.issuing = false →
      ∃ u, Gives (.tswapExchange s.k) s u ∧ u.core.offer = none ∧ (u.getCore m).offer = none ∧ SameMemory s u ∧
        u.getCtx ra = after (s.getCtx ra) ∧ u.getCtx rb = after (s.getCtx rb) ∧
        u.core.tiles = s.core.tiles.set ta.toNat (b.tiles[tb.toNat]'(tb.isLt)) ta.isLt ∧
        (u.getCore m).tiles = b.tiles.set tb.toNat (s.tile ta) tb.isLt ∧
        u.core.tshape = s.core.tshape.set ta.toNat (b.tshape[tb.toNat]'(tb.isLt)) ta.isLt ∧
        (u.getCore m).tshape = b.tshape.set tb.toNat (s.tshape ta) tb.isLt)

/-! ## Plane instructions -/

/-- LDP, STP and PSCL whose checks pass and whose flags do not trap are outstanding on the TILE path and retire: LDP with the FP32
values of 16 elements, read as their planes under their scales; STP with the plane bytes of 16 rounded elements; PSCL with a scale
word (07 R175 to R179). A v register of STP that is bound to a read stream is popped; a bound destination of LDP and of PSCL is ILLEGAL
(06 R141, 07 R176).
That LDP reads at issue is log 7. -/
def Claim.PlaneMoves : Prop :=
  ∀ (s : Machine.State) (d a : Reg) (imm : BitVec 12) (pln : BitVec 3) (rnd : Bool) (p : PlaneAt)
    (l : List (List Nat × Nat)) (us : List Use) (v : List VWord),
    (d.toNat < s.ctx.valloc.toNat → (s.ctx.bound true d).isSome = true →
      Traps (.ldp d a imm pln rnd) s (illegal (.ldp d a imm pln rnd))) ∧
    ((s.ctx.bound false d).isSome = true → Traps (.pscl d a imm) s (illegal (.pscl d a imm))) ∧
    let va := s.x a + ofI imm.toInt
    let n := p.fd.npl
    let k := if pln = 0 then n else pln.toNat
    let sixteen := (List.range 16).map (p.i + ·)
    let g (e : List Nat × Nat) : BitVec 32 := BitVec.ofNat 32 (leNat (Mem.bytes s.mem e.2 4))
    let inv : Flags := if l.all fun e => scaleOk (g e) then 0 else flagNV
    let scales := l.flatMap fun e => byteKeys e.2 4
    let keys := l.flatMap fun e => byteKeys e.2 4 ++ e.1
    let homes := s.sliceHomes p.fd sixteen l
    s.powered keys = true → s.powered scales = true → s.tileOrder homes = false → s.readsAfter s.nextId keys = false →
    s.readsAfter s.nextId scales = false →
    (let np := if rnd = true ∧ k < n then n else min k n
      let r (e : List Nat × Nat) : FRes :=
        fromPk k (readPlanes np k rnd (planeWord (e.1.map (Mem.get s.mem)))) (g e)
      let fl := l.foldl (fun fl e => fl ||| (r e).fl) 0 ||| inv
      d.toNat < s.ctx.valloc.toNat → s.ctx.bound true d = none →
      s.planeAt true va = .ok p → s.sliceKeys true .r .r p.fd np sixteen = .ok l → s.fpTraps fl = false →
      Done (.ldp d a imm pln rnd) s ((State.touch s.k (s.orFlags fl) keys).issuing (.load .tile false (.v d)
        ((List.range 16).map fun j => ⟨32 * j, 4, .val ((l.map fun e => (r e).bits).getD j 0)⟩)) homes) 8) ∧
    (let kk := min k n
      let x (j : Nat) : BitVec 32 := (sv v 0).extractLsb' (32 * j) 32
      let js := (List.range 16).zip l
      let fl := js.foldl (fun fl e => fl ||| (toPk kk (x e.1) (g e.2)).fl) inv
      let planes (e : Nat × List Nat × Nat) : List (List Host.Cell) :=
        (e.2.1.zip (planeBytes kk (toPk kk (x e.1) (g e.2)).w ++ List.replicate (n - kk) 0)).map fun c => [c]
      openUses (.stp d a imm pln) s.ctx 0 [vS (direct d)] = .ok us → Supplied s us v →
      s.planeAt false va = .ok p → s.sliceKeys false .w .r p.fd n sixteen = .ok l → s.fpTraps fl = false →
      Done (.stp d a imm pln) s ((State.touch s.k ((s.orFlags fl).popAll us) scales).issuing (.store .tile (js.flatMap planes))
        homes) 8) ∧
    (∀ key, s.planeAt true va = .ok p → s.planeKey true .r (p.fd.scaleAddr p.i) = .ok key → s.powered [key] = true →
      s.ctx.bound false d = none →
      let home := s.homeAt (p.fd.scaleAddr p.i) key
      s.tileConflict [home] = false →
      Done (.pscl d a imm) s (s.issuing (.load .tile false (.f d) [⟨0, 4, .mem key home⟩]) [home]) 8)

/-- The plane operations performed at the home are outstanding on the NEAR path with the operands they captured and retire:
PRESCALE with a block, PAXPY with a slice, PSGDM with a momentum and a weight slice, BADDQ with two blocks (07 R180 to R183). Bound
sources of PAXPY and PSGDM are popped (06 R141). Each stands at the homes of its elements and of their scale words: for PRESCALE and
BADDQ, which R265 performs at the scale word's home, that is the model's choice (log 18).
Which addresses are checked as stores is log 18. -/
def Claim.PlaneNear : Prop :=
  ∀ (s : Machine.State) (d a b c : Reg) (imm : BitVec 12) (l m : List (List Nat × Nat)) (us : List Use) (v : List VWord),
    let va := s.x a + ofI imm.toInt
    let keys (l : List (List Nat × Nat)) := l.flatMap fun e => byteKeys e.2 4 ++ e.1
    let sixteen (n : Nat) : List Nat := (List.range 16).map (n + ·)
    let pops (i : Instr) : Prop := openUses i s.ctx 0 [fS (direct d), vS (direct b)] = .ok us ∧ Supplied s us v
    s.powered (keys l) = true → s.powered (keys m) = true →
    (∀ p, s.planeAt false va = .ok p → s.sliceKeys false .w .w p.fd p.fd.npl (p.fd.blockElems p.i) = .ok l →
      Done (.prescale d a imm b) s
        (s.issuing (.prescale d (s.x b) (mkSlice l)) (s.sliceHomes p.fd (p.fd.blockElems p.i) l)) 8) ∧
    (∀ p, pops (.paxpy d a imm b) → s.slice16 va = .ok (p, l) →
      Done (.paxpy d a imm b) s
        ((s.popAll us).issuing (.paxpy ((sf v 0).extractLsb' 0 32) (sv v 1) (mkSlice l)) (s.sliceHomes p.fd (sixteen p.i) l)) 8) ∧
    (∀ p q, pops (.psgdm d a imm b c) → s.slice16 va = .ok (p, l) → s.slice16 (s.x c) = .ok (q, m) →
      Done (.psgdm d a imm b c) s ((s.popAll us).issuing (.psgdm ((sf v 0).extractLsb' 0 32) ((sf v 0).extractLsb' 32 32) (sv v 1)
        (mkSlice m) (mkSlice l) none) (s.sliceHomes q.fd (sixteen q.i) m ++ s.sliceHomes p.fd (sixteen p.i) l)) 8) ∧
    (∀ p q, s.baddqAt false va = .ok p → s.sliceKeys false .w .w p.fd p.fd.npl (p.fd.blockElems p.i) = .ok l →
      s.baddqAt true (s.x b) = .ok q → (q.fd.blockElems q.i).length = (p.fd.blockElems p.i).length →
      s.sliceKeys true .r .r q.fd 1 (q.fd.blockElems q.i) = .ok m →
      Done (.baddq a imm b) s (s.issuing (.baddq (mkSlice l) (mkSlice m)) 
        (s.sliceHomes p.fd (p.fd.blockElems p.i) l ++ s.sliceHomes q.fd (q.fd.blockElems q.i) m)) 8)

/-- NEAR_ACK of the oldest access of the current context: the operation is performed at its home, memory reads as the bytes it
writes say and elsewhere as before, PSAT gains its saturations, PRESCALE's status is in its register, and the access is gone; PSGDM
takes two steps, and is left with its second after the first, unless the momentum's scale is invalid (07 R180 to R184, 08 R213). Stated
of every NEAR operation; and of what an ended context left.
A step of PSGDM is a step of the model (log 6). -/
def Obligations.NearAcks : Prop :=
  ∀ (s : Machine.State) (id k : Nat) (hs : List (Sys2Proof.Path × Nat)) (sn : Bool) (rest : List Pend) (left : List (Nat × Pend))
    (op : PendOp),
    s.powered (nearKeys op) = true → s.ctx.wait = .none → (∀ p ∈ rest, id < p.id) → s.readsAfter id (nearKeys op) = false →
    let made (cells : List Host.Cell) (sat : Nat) (d : Reg) (v : Word) (more : Option PendOp) : Prop :=
      (s.ctx.pend = ⟨id, op, hs, sn⟩ :: rest → ∃ t, Gives (.nearAck (some s.cur) 0) s t ∧ Stored s t cells ∧
        t.ctx.pend = (more.map fun o => (⟨id, o, hs, sn⟩ : Pend)).toList ++ rest ∧
        t.ctx.psat.toNat = min (s.ctx.psat.toNat + sat) (2 ^ 32 - 1) ∧ XHolds s t d v) ∧
      (s.orphans = (k, ⟨id, op, hs, sn⟩) :: left → s.cmdBefore k id op.writes = false → ∃ t, Gives (.nearAck none 0) s t ∧ Stored s t cells ∧
        t.orphans = (more.map fun o => (k, (⟨id, o, hs, sn⟩ : Pend))).toList ++ left ∧ t.ctx.x = s.ctx.x)
    (∀ d f b, op = .prescale d f b → made (prescaleCells s.mem f b).2 0 d (prescaleCells s.mem f b).1 none) ∧
    (∀ w x b, op = .paxpy w x b → made (paxpyCells s.mem w x b).1 (paxpyCells s.mem w x b).2 0 0 none) ∧
    (∀ lr mu g m w, op = .psgdm lr mu g m w none →
      (psgdmStep1 s.mem mu g m = none → made [] 0 0 0 none) ∧
      ∀ cells sat mr, psgdmStep1 s.mem mu g m = some (cells, sat, mr) →
        made cells sat 0 0 (some (.psgdm lr mu g m w (some mr)))) ∧
    (∀ lr mu g m w mr, op = .psgdm lr mu g m w (some mr) →
      let r := psgdmStep2 s.mem lr ((m.elems.head?.map (·.length)).getD 1) mr w
      made r.1 r.2 0 0 none) ∧
    (∀ d r, op = .baddq d r → made (baddqCells s.mem d r) 0 0 0 none) ∧
    (∀ o n pa x c, op = .nearAmo o n pa x c → 0 < n →
      made (cellsOf pa n (amoNew o n (leNat (Mem.bytes s.mem pa n)) x.toNat c.toNat)) 0 0 0 none)

/-- The arithmetic of PRESCALE and PAXPY in numbers (03 R70, R72, 07 R180, R181), for a block or slice whose bytes are apart. Under an
invalid scale neither changes anything, and PRESCALE answers bit 63, as it does when the new scale is no positive normal number. Else
PRESCALE multiplies the scale by 2^s exactly and makes each element that is no NaN the word nearest to its value over 2^s, with its
sign; status bit 1 tells that one lay beyond the largest word, bit 0 that another was inexact. PAXPY makes each element that is no NaN
the word nearest to w + a x / g, NaN when a x is, and the largest of a x's sign when that is infinite; an exact zero is +0 unless both
terms are −0; it counts the elements that are infinite or lie beyond the largest word. NaN elements stay. -/
def Obligations.PlaneArithmetic : Prop :=
  ∀ (m : List Host.Cell) (sl : Slice),
    let g : Word := ofN (leNat (Mem.bytes m sl.scale 4))
    let word (m : List Host.Cell) (ks : List Nat) : Nat := planeWord (ks.map (Mem.get m))
    let top (n : Nat) : Nat := 2 ^ (8 * n - 1)
    Memory.wf m = true → (sl.elems.flatten ++ (List.range 4).map (sl.scale + ·)).Nodup →
    (∀ ks ∈ sl.elems, 1 ≤ ks.length ∧ ks.length ≤ 4) →
    (scaleOk (g.extractLsb' 0 32) = false →
      (∀ sh, prescaleCells m sh sl = (0x8000000000000000, [])) ∧ ∀ a x, paxpyCells m a x sl = ([], 0)) ∧
    ∀ gq : ℚ, scaleOk (g.extractLsb' 0 32) = true → fpQ .s g = some gq →
      (∀ sh : Word,
        let k : ℚ := 2 ^ sh.toInt
        let r := prescaleCells m sh sl
        let after := Mem.setAll m r.2
        let q (ks : List Nat) : ℚ := pkQ ks.length (word m ks) / k
        let num (ks : List Nat) : Prop := ks ∈ sl.elems ∧ pkNaN ks.length (word m ks) = false
        let fits : Prop := (2 : ℚ) ^ (-126 : Int) ≤ gq * k ∧ gq * k < 2 ^ 128
        (¬fits → r = (0x8000000000000000, [])) ∧
        (fits →
          fpQ .s (ofN (leNat (Mem.bytes after sl.scale 4))) = some (gq * k) ∧
          (∀ ks ∈ sl.elems, pkNaN ks.length (word m ks) = true → word after ks = word m ks) ∧
          (∀ ks, num ks → PkNearest ks.length (q ks) (word after ks) ∧
            word after ks / top ks.length = word m ks / top ks.length) ∧
          r.1.toNat < 4 ∧ (r.1.getLsbD 1 = true ↔ ∃ ks, num ks ∧ PkBeyond ks.length (q ks)) ∧
          (r.1.getLsbD 0 = true ↔ ∃ ks, num ks ∧ ¬PkBeyond ks.length (q ks) ∧ pkQ ks.length (word after ks) ≠ q ks))) ∧
      ∀ (a : BitVec 32) (x : VWord),
        let av : Word := a.zeroExtend 64
        let xv (j : Nat) : Word := lane x 4 j
        let r := paxpyCells m a x sl
        let after := Mem.setAll m r.1
        let inf (w : Word) : Prop := w.toNat % 2 ^ 31 = 0x7F800000
        let negative (j : Nat) : Bool := av.getLsbD 31 != (xv j).getLsbD 31
        let bad (j : Nat) : Prop := isNaN .s av = true ∨ isNaN .s (xv j) = true ∨ (inf av ∧ fpQ .s (xv j) = some 0) ∨
          (inf (xv j) ∧ fpQ .s av = some 0)
        let big (j : Nat) : Prop := ¬bad j ∧ (inf av ∨ inf (xv j))
        let sum (j : Nat) (W n : Nat) (z : ℚ) : Prop :=
          ∃ p q, fpQ .s av = some p ∧ fpQ .s (xv j) = some q ∧ z = pkQ n W + p * q / gq
        (∀ (j : Nat) (ks : List Nat), j < 16 → sl.elems[j]? = some ks →
          let n := ks.length
          let W := word m ks
          let W' := word after ks
          (pkNaN n W = true → W' = W) ∧
          (pkNaN n W = false →
            (bad j → W' = 0x7F * 2 ^ (8 * (n - 1))) ∧
            (big j → W' = 0x7F * 2 ^ (8 * (n - 1)) - 1 + if negative j then top n else 0) ∧
            ∀ z, sum j W n z → PkNearest n z W' ∧ (z < 0 → top n ≤ W') ∧ (0 < z → W' < top n) ∧
              (z = 0 → W' = if W = top n ∧ negative j = true then top n else 0))) ∧
        (sl.elems.length ≤ 16 → ∃ sat : List Bool, sat.length = sl.elems.length ∧ r.2 = sat.count true ∧
          ∀ (j : Nat) (ks : List Nat), sl.elems[j]? = some ks →
            (sat[j]? = some true ↔ pkNaN ks.length (word m ks) = false ∧
              (big j ∨ ∃ z, sum j (word m ks) ks.length z ∧ PkBeyond ks.length z)))

/-! ## Tasks -/

/-- FORK of a record at 64-byte aligned CLM keys, with no earlier access outstanding: the record joins its core's deque, whose oldest
record goes to its siding when the deque is full, into the next 64 bytes of the siding's region where the station master has set one, or in a message handler is held until MDONE; a fifth held FORK is SQFULL, SUB 4;
an ill-formed record is ILLEGAL, SUB 1. With an earlier access outstanding it waits (08 R188 to R191, 12 R308).
TVAL of the fifth held FORK is the model's choice (log 28), and the order of the records in the region too (log 6). -/
def Claim.Forks : Prop :=
  ∀ (s : Machine.State) (a : Reg) (keys homes : List Nat), homes.length = keys.length →
    (s.x a).toNat % 64 = 0 → s.loadBlock (s.x a) 8 = .ok (sources keys homes) → (∀ k ∈ keys, cachedKey k = false ∧ ctlOf k = none) →
    s.powered keys = true → s.readsAfter s.nextId keys = false →
    let ws := keys.map (Mem.word s.mem)
    let rec' := TaskRec.ofWords ws
    let s' := s.readingWords keys
    let joins (deque siding : List TaskRec) (n : Nat) : Machine.State := { s' with core := { s.core with
      deque := deque, siding := siding, dqIn := n, thief := ⟨0, 0, false⟩, stealing := none } }
    (s.ctx.ldc ≠ 0 ∨ s.ctx.stc ≠ 0 → Waits (.fork a) s (.release (.fork a))) ∧
    (s.ctx.ldc = 0 → s.ctx.stc = 0 →
      (taskOk ws = false → Gives (.fork a) s (s'.trap ⟨1, 1, s.x a⟩)) ∧
      (taskOk ws = true → s.ctx.hnd = false →
        (s.core.deque.length < 64 → Done (.fork a) s (joins (s.core.deque ++ [rec']) s.core.siding s.core.dqIn) 8) ∧
        (∀ old l, s.core.deque = old :: l → 64 ≤ s.core.deque.length → s.core.siding.length < Config.dequeSidingSize →
          let t := joins (l ++ [rec']) (s.core.siding ++ [old]) (s.core.dqIn + 1)
          (s.core.dqAt = none → Done (.fork a) s t 8) ∧
          (∀ p, s.core.dqAt = some p →
            let cells := cellsAt (p + 64 * (s.core.dqIn % 2 ^ 20)) (old.words.flatMap fun w => leBytes 8 w.toNat)
            s.powered (cells.map (·.1)) = true →
            ∃ u, Done (.fork a) s u 8 ∧ u.ctx = s.ctx ∧ u.core = t.core ∧ Stored s u cells))) ∧
      (taskOk ws = true → s.ctx.hnd = true →
        (heldForks s.ctx.heldq < 4 →
          Done (.fork a) s { s' with ctx := { s.ctx with heldq := s.ctx.heldq ++ [.fork rec'] } } 8) ∧
        (4 ≤ heldForks s.ctx.heldq → Gives (.fork a) s ((s'.pmc s.k 15 (some s.c)).trap ⟨10, 4, 0⟩))))

/-- JREC writes a join record: the count, seven zero words and the task record it copies, as one outstanding store; a count that is
not 1 to 2^32 − 1, or a template that breaks R191, is ILLEGAL, SUB 1 (08 R192). Stated of a template in CLM that no earlier access of
the context writes or has still to read. -/
def Claim.JoinRecords : Prop :=
  ∀ (s : Machine.State) (a b c : Reg) (ks keys homes : List Nat), homes.length = keys.length →
    (s.x a).toNat % 128 = 0 → (s.x c).toNat % 64 = 0 → s.storeBlock (s.x a) 16 = .ok ks →
    s.loadBlock (s.x c) 8 = .ok (sources keys homes) → (∀ k ∈ keys, cachedKey k = false ∧ ctlOf k = none) → s.ctx.pend = [] →
    s.powered keys = true → s.powered ks = true → s.readsAfter s.nextId keys = false →
    let t := keys.map (Mem.word s.mem)
    let s' := s.readingWords keys
    let counts : Prop := 1 ≤ (s.x b).toInt ∧ (s.x b).toInt < 2 ^ 32
    (counts → taskOk t = true →
      Done (.jrec a b c) s (s'.issuing (.store .core [(ks.zip (s.x b :: List.replicate 7 0 ++ t)).flatMap fun e =>
        cellsOf e.1 8 e.2.toNat]) (s.blockHomes (s.x a) ks)) 8) ∧
    (counts → taskOk t = false → Gives (.jrec a b c) s (s'.trap ⟨1, 1, s.x c⟩)) ∧
    (¬counts → Traps (.jrec a b c) s ⟨1, 1, s.x b⟩)

/-- YIELD gives up the turn: EFF returns to LVL and the context is last in the order of its core (08 R196). GQNEXT hands out the
next block number of a gateway core, or −1 past the last, and is ILLEGAL elsewhere (08 R212, 15 R364). QRND starts a collection
round of its partition, or answers −1 while one is under way (08 R211).
That a core of no partition starts no round is log 30. -/
def Claim.TaskStatus : Prop :=
  ∀ (s : Machine.State) (d a b : Reg),
    Done .yield s { s with
      ctx := { s.ctx with eff := s.ctx.lvl, aging := 0 }, core := { s.core with last := s.c } } 8 ∧
    (isGateway s.k = false → Traps (.gqnext d) s ⟨1, 2, low64 (.gqnext d)⟩) ∧
    (isGateway s.k = true → s.core.gqNext.toNat < s.core.gqCount.toNat →
      Done (.gqnext d) s (State.setX { s with core := { s.core with gqNext := s.core.gqNext + 1 } } d
        (ofN s.core.gqNext.toNat)) 8) ∧
    (isGateway s.k = true → s.core.gqCount.toNat ≤ s.core.gqNext.toNat → Done (.gqnext d) s (s.setX d (ofI (-1))) 8) ∧
    (∀ key, s.ctx.hnd = false → (s.x a).toNat % 8 = 0 → s.storeCheck (s.x a) 8 .w = .ok key →
      (∀ n p, s.partOf s.k = some (n, p) →
        (p.round = none → Done (.qrnd d a b) s
          (State.setX (s.setPart n { p with round := some ⟨key, s.x b, 0, true⟩ }) d 0) 8) ∧
        (p.round ≠ none → Done (.qrnd d a b) s (s.setX d (ofI (-1))) 8)) ∧
      (s.partOf s.k = none → Done (.qrnd d a b) s (s.setX d (ofI (-1))) 8)) ∧
    (s.ctx.hnd = true → Traps (.qrnd d a b) s ⟨1, 2, low64 (.qrnd d a b)⟩)

/-- HALT ends the context once its loads have returned, and, when it holds the claim, its counted tile operations have ended: the
claim goes with it; it waits until then. HALT.K does so after it has retained the region the context holds, under a tag that names it
and is not in use; with any other tag it only ends the context, and the region keeps its tag. These, HALT.J and HALT.M are ILLEGAL with SUB 2 in a message
handler and in a callout, and TDONE in a message handler (08 R193, R195, R210, 09 R229, 10 R261).
That STATE 3 means a callout in the handler of a trap taken in it too is the model's reading (log 47). -/
def Claim.Halts : Prop :=
  ∀ (s : Machine.State) (a : Reg),
    let callout : Prop := s.ctx.wd.wdm = true ∧ s.ctx.wd.state = 3
    let halt : Prop := s.ctx.hnd = false ∧ ¬callout
    let bare : Prop := s.ctx.ldc = 0 ∧ s.tclm = false ∧ s.ctx.eng = []
    (halt → MayEnd s →
      (∃ t, Gives .halt s t ∧ Ended s t ∧ SameMemory s t) ∧ (∃ t, Gives (.haltK a) s t ∧ Ended s t ∧ SameMemory s t)) ∧
    (halt → s.ctx.ldc = 0 → s.ctx.region = none → s.ctx.eng = [] → s.tclm = true →
      (s.core.tileq = [] → ∃ t, Gives .halt s t ∧ Ended s t ∧ SameMemory s t ∧ t.core.claim = none) ∧
      (s.core.tileq ≠ [] → Waits .halt s (.ending false))) ∧
    (halt → s.ctx.ldc ≠ 0 → Waits .halt s (.ending false) ∧ (s.ctx.region = none → Waits (.haltK a) s (.ending false))) ∧
    (s.ctx.hnd = true ∨ callout → Traps .halt s ⟨1, 2, low64 .halt⟩ ∧ Traps (.haltK a) s ⟨1, 2, low64 (.haltK a)⟩ ∧
      Traps (.haltJ a) s ⟨1, 2, low64 (.haltJ a)⟩ ∧ Traps .haltM s ⟨1, 2, low64 .haltM⟩) ∧
    (s.ctx.hnd = true → Traps (.tdone a) s ⟨1, 2, low64 (.tdone a)⟩) ∧
    (∀ n < 15, halt → bare → s.ctx.region = some n → isMesh s.k = true →
      let tag : BitVec 16 := (s.x a).extractLsb' 0 16
      let cl := s.cluster (clusterOf s.k)
      let free : Prop := tag ≠ 0 ∧ tag.toNat % 16 = n ∧ (cl.region n).tag = 0 ∧ ∀ r ∈ cl.regions.toList, r.tag ≠ tag
      ∃ t, Gives (.haltK a) s t ∧ Ended s t ∧
        (free → ((t.cluster (clusterOf s.k)).region n).tag = tag) ∧
        (¬free → ((t.cluster (clusterOf s.k)).region n).tag = (cl.region n).tag) ∧
        .ctx s.cur ∉ ((t.cluster (clusterOf s.k)).region n).holders)

/-- HALT.J and TDONE subtract 1 from the word at their address and end the context; the decrement of HALT.J that reaches 0 pushes
the continuation that follows the word; both wait for the accesses that come before, and for those that have still to read the words
they read (08 R188, R194, R210, 11 R293).
That the continuation's PC is pushed unchecked is log 48. -/
def Claim.JoinEnds : Prop :=
  ∀ (s : Machine.State) (a : Reg) (key : Nat), s.ctx.hnd = false → s.ctx.wd.wdm = false →
    s.storeCheck (s.x a) 8 .w = .ok key →
    (s.ctx.ldc ≠ 0 ∨ s.ctx.stc ≠ 0 →
      ((s.x a).toNat % 8 = 0 → Waits (.tdone a) s (.release (.tdone a))) ∧
      ((s.x a).toNat % 128 = 0 → Waits (.haltJ a) s (.release (.haltJ a)))) ∧
    (MayEnd s → s.ctx.stc = 0 → s.core.deque.length < 64 → Memory.wf s.mem = true →
      let old := Mem.word s.mem key
      let less := cellsOf key 8 (old - 1).toNat
      let both := byteKeys key 8 ++ byteKeys (key + 64) 64
      ((s.x a).toNat % 8 = 0 → s.mayReadNow (byteKeys key 8) = true → ∃ t, Gives (.tdone a) s t ∧ Stored s t less ∧ t.ctx = .reset) ∧
      ((s.x a).toNat % 8 = 0 → s.mayReadNow (byteKeys key 8) = false →
        Gives (.tdone a) s (State.stall (.release (.tdone a)) (s.wakeFor [key]))) ∧
      ((s.x a).toNat % 128 = 0 → s.mayReadNow both = false →
        Gives (.haltJ a) s (State.stall (.release (.haltJ a)) (s.wakeFor both))) ∧
      ((s.x a).toNat % 128 = 0 → s.mayReadNow both = true → ∃ t, Gives (.haltJ a) s t ∧ Stored s t less ∧ t.ctx = .reset ∧
        t.core.deque = if old = 1 then s.core.deque ++
            [{ TaskRec.ofWords ((List.range 8).map fun i => Mem.word s.mem (key + 64 + 8 * i)) with cont := true }]
          else s.core.deque)) ∧
    ((s.x a).toNat % 128 ≠ 0 → Traps (.haltJ a) s ⟨6, 0, s.x a⟩)

/-- TQPUT of a well-formed record in CLM adds it to a tile queue of its quadrant and answers 0, or −1 when the queue holds 16; an
ill-formed record or a queue above 63 is ILLEGAL, SUB 1 (08 R207, R208).
On a gateway core the quadrant is log 19. -/
def Claim.TilePuts : Prop :=
  ∀ (s : Machine.State) (d a b : Reg) (keys homes : List Nat), homes.length = keys.length →
    s.ctx.hnd = false → (s.x a).toNat % 128 = 0 → s.loadBlock (s.x a) 16 = .ok (sources keys homes) →
    (∀ k ∈ keys, cachedKey k = false ∧ ctlOf k = none) → s.powered keys = true → s.readsAfter s.nextId keys = false →
    let ws := keys.map (Mem.word s.mem)
    let q := boxOf s.k * 64 + (s.x b).toNat
    let s' := s.readingWords keys
    ((s.x b).toNat < 64 → s.ctx.ldc ≠ 0 ∨ s.ctx.stc ≠ 0 → Waits (.tqput d a b) s (.release (.tqput d a b))) ∧
    ((s.x b).toNat < 64 → s.ctx.ldc = 0 → s.ctx.stc = 0 →
      (tileOk ws = true → (s.tileq q).length < 16 →
        Done (.tqput d a b) s (State.setX (s'.setTileq q (s.tileq q ++ [⟨ws, s.x a, s.ctx.prv, none, 0, 0, 0⟩])) d 0) 8) ∧
      (tileOk ws = true → 16 ≤ (s.tileq q).length → Done (.tqput d a b) s (s'.setX d (ofI (-1))) 8) ∧
      (tileOk ws = false → Gives (.tqput d a b) s (s'.trap ⟨1, 1, s.x a⟩))) ∧
    (64 ≤ (s.x b).toNat → Traps (.tqput d a b) s ⟨1, 1, s.x b⟩)

/-- A core with room that is offered no message or tile starts the newest record of its deque in its lowest dormant context, with
the values of 01 R14; a granted vector request makes its context active, but none is granted while the holdings of the core exceed the
limits of HRES or its job does not run; a deque with fewer than 16 records takes one back from its siding (01 R16, R25, 12 R308, R309, R311, 16 R382).
That sp and gp are read when the registers are asked for, also of a context that waits for its grant, is the model's choice (log 48). -/
def Claim.TaskStarts : Prop :=
  ∀ (s : Machine.State) (k r : Nat) (t : TaskRec) (l : List TaskRec) (q : List Nat), k < 2898 →
    let c := s.getCore k
    (s.running k = true → s.hasRoom k = true → s.before k = false → s.dormant k = some r → c.deque = l ++ [t] →
      ∃ u, Gives (.taskActivation k) s u ∧ Started s u r t.activation ∧ (u.getCore k).deque = l) ∧
    (c.siding = l ++ [t] → c.deque.length < 16 →
      Gives (.dequeRefill k) s (s.setCore k { c with siding := l, deque := t :: c.deque })) ∧
    (c.regReqs = r :: q → r / 8 = k → s.running k = true → s.regsFit k (s.getCtx r).valloc.toNat = true → s.withinLimits k = true →
      ∃ u, Gives (.vregGrant k) s u ∧ (u.getCore k).regReqs = q ∧ SameMemory s u ∧
        u.getCtx r = { s.getCtx r with phase := .active }) ∧
    (s.withinLimits k = false ∨ s.running k = false → Gives (.vregGrant k) s s)

/-- A thief asks a victim of its level, or widens when its level has none; a pause ends at cluster level; a victim serves its
thief with the oldest of its records whose DOM reaches it, those of the siding being older than the others, started at once in the
thief, and keeps the rest in their order; when none reaches, the attempt fails: the fourth failure of a level widens it, and at package
level the thief pauses (12 R308 to R310).
Which of several thieves is served first is log 33. -/
def Claim.Steals : Prop :=
  ∀ (s : Machine.State) (k v r : Nat) (q : List Nat) (t : TaskRec) (l m : List TaskRec), k < 2898 →
    let c := s.getCore k
    let b := s.getCore v
    let reaches (x : TaskRec) : Bool := sameGroup x.dom.toNat v k
    (s.isThief k = true → c.thief.pause = false → c.stealing = none → v ∈ s.victims k c.thief.level →
      Gives (.steal k v) s (s.setCore k { c with stealing := some v })) ∧
    (s.isThief k = true → c.thief.pause = false → c.stealing = none → s.victims k c.thief.level = [] →
      ∃ u, Gives (.steal k v) s u ∧ (u.getCore k).thief =
        if c.thief.level < 3 then ⟨c.thief.level + 1, 0, false⟩ else ⟨0, 0, true⟩) ∧
    (c.thief.pause = true → Gives (.stealPauseEnd k) s (s.setCore k { c with thief := ⟨0, 0, false⟩ })) ∧
    (s.thievesOf v = k :: q → v ≠ k → s.isThief k = true → s.dormant k = some r → b.siding ++ b.deque = l ++ t :: m →
      (∀ x ∈ l, reaches x = false) → reaches t = true →
      ∃ u, Gives (.stealServe v) s u ∧ Started s u r t.activation ∧ (u.getCore k).stealing = none ∧
        (u.getCore v).siding ++ (u.getCore v).deque = l ++ m ∧
        (u.getCore v).siding.length = (if l.length < b.siding.length then b.siding.length - 1 else b.siding.length)) ∧
    (s.thievesOf v = k :: q → v ≠ k → s.isThief k = true → s.dormant k = some r → (∀ x ∈ b.siding ++ b.deque, reaches x = false) →
      ∃ u, Gives (.stealServe v) s u ∧ (u.getCore k).stealing = none ∧ (u.getCore v).siding = b.siding ∧
        (u.getCore v).deque = b.deque ∧
        (c.thief.fails < 3 → (u.getCore k).thief = { c.thief with fails := c.thief.fails + 1 }) ∧
        (c.thief.fails = 3 → (u.getCore k).thief =
          if c.thief.level < 3 then ⟨c.thief.level + 1, 0, false⟩ else ⟨0, 0, true⟩))

/-- A collection round's token visits the cores of its partition in order and leaves one only when its messages are accepted and
its writes performed: those of its contexts, of contexts that ended, of its tile operations, and of releases that have issued; a round
no core marked stores its value and ends, a marked one starts over (08 R211). Which of its messages and writes those are, the model's
`State.tokenFree` says.
What a switch does to a round is log 30. -/
def Claim.CollectionRounds : Prop :=
  ∀ (s : Machine.State) (i k : Nat) (p : Part) (r : Round),
    s.part i = some p → p.round = some r → p.cores[r.pos]? = some k →
    let mark := r.mark || s.tokenMark k
    (s.tokenFree k = false → Gives (.collectionRoundPass i) s s) ∧
    (s.tokenFree k = true → (s.getCore k).out0 = [] ∧ (s.getCore k).out1 = [] ∧ (∀ o ∈ (s.getCore k).tileq, o.op.stores = false) ∧
      (∀ e ∈ s.orphans, e.1 / 8 ≠ k) ∧ ∀ c ∈ s.coreCtxs k, c.2.pushes = 0 ∧ c.2.wait.writes = false ∧
        ∀ q ∈ c.2.pend, ∃ path acq dst lanes, q.op = .load path acq dst lanes) ∧
    (s.tokenFree k = true → r.pos + 1 < p.cores.length → ∃ u, Gives (.collectionRoundPass i) s u ∧ SameMemory s u ∧
      u.part i = some { p with round := some { r with pos := r.pos + 1, mark := mark } }) ∧
    (s.tokenFree k = true → r.pos + 1 = p.cores.length → mark = true → ∃ u, Gives (.collectionRoundPass i) s u ∧
      u.part i = some { p with round := some { r with pos := 0, mark := false } }) ∧
    (s.tokenFree k = true → r.pos + 1 = p.cores.length → mark = false → s.powered [r.pa] = true →
      ∃ u, Gives (.collectionRoundPass i) s u ∧ u.part i = some { p with round := none } ∧
        Stored s u (cellsOf r.pa 8 r.value.toNat))

/-! ## Messages -/

/-- SENDR and CALLAT with no access outstanding: a header that breaks 08 R197 or R200 is ILLEGAL, SUB 1, for CALLAT one of VN1 or a
misaligned PADR too; a destination that cannot receive is SQFULL, SUB 3; with a free slot of its network the message goes into it,
with the next sequence number, and the instruction completes; with none it waits. In a message handler SENDR holds the message until
MDONE, a full network is SQFULL, SUB 1, a reply's handler may send on VN1 only, SUB 2, and CALLAT is ILLEGAL (08 R188, R197 to R202,
R205). -/
def Claim.Sends : Prop :=
  ∀ (s : Machine.State) (a b c : Reg),
    let w0 := s.x a
    let vn := msgVn w0
    let ok := hdrOk w0 (s.x b) && msgPlen w0 == 0 && msgFmt w0 == 0
    let okc : Prop := ok = true ∧ vn = false ∧ (s.x c).toNat % 4 = 0
    let m (padr : Word) (call : Bool) : Msg := s.mkMsg w0 (s.x b) padr [s.x 10, s.x 11, s.x 12, s.x 13] [] call
    let seq := if vn then s.core.seq1 else s.core.seq0
    let full (i : Instr) (sub : BitVec 8) (v : Word) : Prop := Gives i s ((s.pmc s.k 15 (some s.c)).trap ⟨10, sub, v⟩)
    let goes (i : Instr) (m : Msg) : Prop := ∃ u, Gives i s u ∧ SameMemory s u ∧ u.ctx.instret = s.ctx.instret + 1 ∧
      u.core.out vn = s.core.out vn ++ [{ m with mid := midOf s s.cur vn seq }] ∧
      (if vn then u.core.seq1 else u.core.seq0) = seq + 1
    (s.ctx.hnd = true → Traps (.callat a b c) s ⟨1, 2, low64 (.callat a b c)⟩) ∧
    (s.ctx.ldc ≠ 0 ∨ s.ctx.stc ≠ 0 → Waits (.sendr a b) s (.release (.sendr a b)) ∧
      (s.ctx.hnd = false → Waits (.callat a b c) s (.release (.callat a b c)))) ∧
    (s.ctx.ldc = 0 → s.ctx.stc = 0 →
      (ok = false → Traps (.sendr a b) s ⟨1, 1, w0⟩) ∧
      (ok = true → s.canReceive w0 = false → full (.sendr a b) 3 w0) ∧
      (ok = true → s.canReceive w0 = true → s.ctx.hnd = false → s.ctx.hvn = false →
        (0 < s.core.freeSlots vn → goes (.sendr a b) (m 0 false)) ∧
        (s.core.freeSlots vn = 0 → Waits (.sendr a b) s .slot)) ∧
      (ok = true → s.canReceive w0 = true → s.ctx.hnd = true →
        (s.ctx.hvn = true → vn = false → full (.sendr a b) 2 0) ∧
        (s.ctx.hvn = false ∨ vn = true → s.core.freeSlots vn = 0 → full (.sendr a b) 1 0) ∧
        (s.ctx.hvn = false ∨ vn = true → 0 < s.core.freeSlots vn →
          Done (.sendr a b) s { s with
            ctx := { s.ctx with heldq := s.ctx.heldq ++ [.send (m 0 false)] }
            core := s.core.setResv vn (s.core.resv vn ++ [s.c]) } 8)) ∧
      (s.ctx.hnd = false →
        (¬okc → Traps (.callat a b c) s ⟨1, 1, w0⟩) ∧
        (okc → s.canReceive w0 = false → full (.callat a b c) 3 w0) ∧
        (okc → s.canReceive w0 = true → s.ctx.hvn = false →
          (0 < s.core.freeSlots vn → goes (.callat a b c) (m (s.x c) true)) ∧
          (s.core.freeSlots vn = 0 → Waits (.callat a b c) s .slot))))

/-- SEND reads its descriptor and its payload and puts the message into a free slot; an ill-formed header is ILLEGAL, SUB 1, a
destination that cannot receive SQFULL, SUB 3; with no slot it waits (08 R197, R200). Stated of a descriptor and payload in CLM,
outside a handler. -/
def Claim.SendsDescriptor : Prop :=
  ∀ (s : Machine.State) (a : Reg) (keys homes pay at' : List Nat), homes.length = keys.length → at'.length = pay.length → s.ctx.ldc = 0 → s.ctx.stc = 0 → s.ctx.hnd = false → s.ctx.hvn = false →
    (s.x a).toNat % 64 = 0 → s.loadBlock (s.x a) 8 = .ok (sources keys homes) →
    (∀ k ∈ keys ++ pay, cachedKey k = false ∧ ctlOf k = none) → s.powered (keys ++ pay) = true →
    s.readsAfter s.nextId (keys ++ pay) = false → s.core.l1 = [] →
    let w := fun n => (keys.map (Mem.word s.mem)).getD n 0
    let vn := msgVn (w 0)
    let s' := s.readingWords keys
    (hdrOk (w 0) (w 1) = false → Gives (.send a) s (s'.trap ⟨1, 1, s.x a⟩)) ∧
    (hdrOk (w 0) (w 1) = true → s.payloadAt (w 6) (msgPlen (w 0)) = .ok (sources pay at') →
      (s.canReceive (w 0) = false → Gives (.send a) s (((s'.note pay).pmc s.k 15 (some s.c)).trap ⟨10, 3, w 0⟩)) ∧
      (s.canReceive (w 0) = true → s.core.freeSlots vn = 0 → Gives (.send a) s (State.stall .slot (s'.note pay))) ∧
      (s.canReceive (w 0) = true → 0 < s.core.freeSlots vn →
        ∃ u, Gives (.send a) s u ∧ SameMemory s u ∧ u.ctx.instret = s.ctx.instret + 1 ∧
          u.core.out vn = s.core.out vn ++ [{ s.mkMsg (w 0) (w 1) 0 [w 2, w 3, w 4, w 5] (pay.map (Mem.get s.mem)) false with
            mid := midOf s s.cur vn (if vn then s.core.seq1 else s.core.seq0) }]))

/-- HALT.M sends the reply to the message in the context's receive slot and ends the context: the reply goes on VN1 to the core that
the slot's MID names, to be handled at the slot's PADR word, with x10, x11 and the MID as arguments. MDONE ends a handler: its message
leaves its queue, which keeps its other entries, and all it held goes in its order, sends into the slots of their networks with the next
sequence numbers and FORKs onto the deque; it waits for the loads of the handler, and outside a handler it is ILLEGAL (08 R201, R206).
That no check is made of the reply's handler address is log 48; that its word 0 keeps the context bits of the MID, which R206 has the
network ignore, is the model's reading (log 47). -/
def Obligations.MessageEnds : Prop :=
  ∀ s : Machine.State,
    (MayEnd s → s.ctx.stc = 0 → s.ctx.hnd = false → s.ctx.wd.wdm = false → s.ctx.hvn = false →
      let slot := aliasKey s.k (slotAddr s.cur)
      let mid := Mem.word s.mem (slot + 0x38)
      let w0 : Word := ofN (2 ^ 32 + mid.toNat % 2 ^ 25)
      s.canReceive w0 = true → 0 < s.core.freeSlots true →
      ∃ u, Gives .haltM s u ∧ u.ctx = .reset ∧ SameMemory s u ∧
        u.core.out1 = s.core.out1 ++ [{
          w0 := w0, hpc := Mem.word s.mem (slot + 0x30), a0 := s.x 10, a1 := s.x 11, a2 := mid, a3 := 0, padr := 0
          mid := midOf s s.cur true s.core.seq1, call := false, payload := [], prio := s.ctx.lvl
          asid := s.asidOf s.k, src := s.cur, again := false }]) ∧
    (s.ctx.hnd = false → Traps .mdone s ⟨1, 2, low64 .mdone⟩) ∧
    (s.ctx.hnd = true → s.ctx.ldc ≠ 0 → Waits .mdone s .mdone) ∧
    (MayEnd s → s.ctx.hnd = true → s.ctx.phase = .active →
      let ends (u : Machine.State) : Prop := Gives .mdone s u ∧ u.ctx = s.ctx.ended ∧ SameMemory s u ∧
        u.core.inq0 = s.core.inq0.filter (fun e => e.service != some s.c) ∧
        u.core.inq1 = s.core.inq1.filter (fun e => e.service != some s.c)
      let forks : List TaskRec := s.ctx.heldq.filterMap fun h => match h with | .fork t => some t | .send _ => none
      let sends (vn : Bool) : List Msg :=
        s.ctx.heldq.filterMap fun h => match h with | .send m => if msgVn m.w0 = vn then some m else none | .fork _ => none
      let sent (vn : Bool) (seq : BitVec 16) : List Msg :=
        (sends vn).zipIdx.map fun e => { e.1 with mid := midOf s s.cur vn (seq + BitVec.ofNat 16 e.2) }
      s.core.deque.length + forks.length ≤ 64 →
      ∃ u, ends u ∧ u.core.deque = s.core.deque ++ forks ∧ u.core.out0 = s.core.out0 ++ sent false s.core.seq0 ∧
        u.core.out1 = s.core.out1 ++ sent true s.core.seq1)

/-- The network accepts the first message of a core's send slots for this device, and sends one for another device away, converted,
unless every port is down (08 R203, 15 R356, R359); a message arrives in its destination's input queue in the order of its route, or waits, or enters the siding
of its job when the core runs another (08 R203, 12 R306); a core takes the message it is offered into service in a dormant context,
its header and payload in the receive slot, a reply first (08 R199, R203, R204, R206, 12 R311).
The size of the siding is log 22, PADR without a payload log 27, and that any port that is up will do log 5. -/
def Obligations.MessageEvents : Prop :=
  ∀ (s : Machine.State) (k i r : Nat) (vn : Bool) (m : Msg) (l : List Msg) (p : Part), k < 2898 →
    let c := s.getCore k
    let q := c.inq (msgVn m.w0)
    (c.out vn = m :: l → m.w0.extractLsb' 16 9 = s.dev.devnum → s.sidedWith m = none →
      ∃ u, Gives (.messageAccepted k vn 0) s u ∧ u.net = s.net ++ [m] ∧ (u.getCore k).out vn = l ∧ SameMemory s u) ∧
    (c.out vn = m :: l → m.w0.extractLsb' 16 9 ≠ s.dev.devnum → s.linked = false → Gives (.messageAccepted k vn 0) s s) ∧
    (c.out vn = m :: l → m.w0.extractLsb' 16 9 ≠ s.dev.devnum → s.linked = true →
      ∃ u, Gives (.messageAccepted k vn 0) s u ∧ (u.getCore k).out vn = l ∧
        u.sent = s.sent ++ [{ m with payload := toWire (msgFmt m.w0) m.payload }]) ∧
    (s.net = m :: l → destCore m.w0 = some k → s.partOf k = some (i, p) →
      (p.asid = m.asid → p.idle = false → q.length < Config.inQueueSize →
        ∃ u, Gives (.messageArrival 0) s u ∧ u.net = l ∧ SameMemory s u ∧
          (u.getCore k).inq (msgVn m.w0) = q ++ [⟨m, none, false⟩]) ∧
      (p.asid = m.asid → p.idle = false → Config.inQueueSize ≤ q.length → Gives (.messageArrival 0) s s) ∧
      (∀ j, p.asid ≠ m.asid ∨ p.idle = true → s.job m.asid = some j →
        (j.siding.length < j.entries → j.ring = none → ∃ u, Gives (.messageArrival 0) s u ∧ u.net = l ∧ SameMemory s u ∧
          u.job m.asid = some { j with siding := j.siding ++ [m], entered := j.entered + 1 }) ∧
        (j.entries ≤ j.siding.length → Gives (.messageArrival 0) s s))) ∧
    (s.running k = true → s.dev.trAct = false →
      let starts (ev : Instr) : Prop := ∃ u, Gives ev s u ∧ Started s u r m.activation ∧ Stored s u (slotCells r m)
      (s.vn1Ready k = some (r, m) → m.call = false → msgVn m.w0 = true → starts (.messageService k)) ∧
      (s.vn1Ready k = none → s.vn0Ready k = some (r, m) → msgVn m.w0 = false →
        (m.call = false → starts (.messageService k)) ∧ (m.call = true → starts (.callActivation k))))

/-! ## Atomics, barriers and ordering -/

/-- The new value of each of the ten operations of an AMO on words of 4 or 8 bytes (08 R213). -/
def Claim.AmoValues : Prop :=
  ∀ (n old o c : Nat), n = 4 ∨ n = 8 → old < 2 ^ (8 * n) → o < 2 ^ (8 * n) →
    let signed (v : Nat) : Int := if v < 2 ^ (8 * n - 1) then v else (v : Int) - 2 ^ (8 * n)
    let new (op : AmoOp) : Nat := amoNew op n old o c
    let bits (op : AmoOp) (f : Bool → Bool → Bool) : Prop := ∀ j, (new op).testBit j = f (old.testBit j) (o.testBit j)
    (∀ op, new op < 2 ^ (8 * n)) ∧
    new .swap = o ∧ new .add = (old + o) % 2 ^ (8 * n) ∧ bits .and (fun x y => x && y) ∧ bits .or (fun x y => x || y) ∧
    bits .xor (fun x y => x != y) ∧ signed (new .min) = min (signed old) (signed o) ∧ signed (new .max) = max (signed old) (signed o) ∧
    new .minu = min old o ∧ new .maxu = max old o ∧ new .cas = if old = c then o else old

/-- An AMO whose checks pass is outstanding with its operands and retires, on the CORE path, or the NEAR path with no result; a
releasing one, of either path, waits until LDC and STC are 0; when it is performed its register has the old value, sign-extended, and
memory the new one, and an acquiring one leaves no word in the L1 that the core does not own (08 R188, R213). ARRIVE adds 1 and releases (08 R218).
That a releasing instruction repeats its checks after the wait is log 17. -/
def Claim.AmoRuns : Prop :=
  ∀ (s : Machine.State) (op : AmoOp) (ord : MemOrd) (near dbl : Bool) (d a b c : Reg) (imm : BitVec 12) (key : Nat),
    let va := s.x a + ofI imm.toInt
    let n := if dbl then 8 else 4
    let rel : Prop := ord = .rel ∨ ord = .ar
    let acq := decide (ord = .acq ∨ ord = .ar)
    let early : Prop := s.ctx.ldc ≠ 0 ∨ s.ctx.stc ≠ 0
    let i : Instr := .amo op ord near dbl d a b c imm
    let j : Instr := .arrive d a imm
    let o := lowBytes n (s.x b)
    let e := lowBytes n (s.x c)
    s.powered [key] = true →
    (s.storeCheck va n .rw = .ok key →
      (near = true → aliasOf s.k va ≠ none → Traps i s ⟨5, 7, va⟩) ∧
      (near = false ∨ aliasOf s.k va = none → rel → early → Waits i s (.release i)) ∧
      ((rel → ¬early) →
        (near = false → Done i s (s.issuing (.amo op n key o e d acq) [s.homeAt va key]) 8) ∧
        (near = true → aliasOf s.k va = none → Done i s (s.issuing (.nearAmo op n key o e) [s.homeAt va key]) 8))) ∧
    (s.storeCheck va 8 .rw = .ok key →
      (early → Waits j s (.release j)) ∧
      (¬early → Done j s (s.issuing (.amo .add 8 key 1 0 d false) [s.homeAt va key]) 8)) ∧
    (∀ (id m : Nat) (u v : Word) (hs : List (Sys2Proof.Path × Nat)) (sn ac : Bool) (rest : List Pend), m = 4 ∨ m = 8 →
      s.ctx.pend = ⟨id, .amo op m key u v d ac, hs, sn⟩ :: rest → (∀ p ∈ rest, id < p.id) →
      s.readsAfter id ((List.range m).map (key + ·)) = false → s.ctx.wait = .none →
      let old := leNat (Mem.bytes s.mem key m)
      ∃ t, Gives (.loadReturn s.cur 0) s t ∧ t.ctx.pend = rest ∧
        (ac = true → ∀ w, (find t.core.l1 w).isSome = true → t.owns s.k w = true) ∧
        XHolds s t d (ofI (if old < 2 ^ (8 * m - 1) then old else (old : Int) - 2 ^ (8 * m))) ∧
        Stored s t (cellsOf key m (amoNew op m old u.toNat v.toNat)))

/-- Atomics: what they compute, and how they run. -/
def Obligations.Atomics : Prop := Claim.AmoValues ∧ Claim.AmoRuns

/-- AWAIT completes when the word at its address has reached its target, as signed numbers, with an acquire, and else waits;
ARRWAIT first releases and adds 1 to the word, and then, its arrival done, completes as AWAIT does; AWAIT_POLL reads the word again;
none may stand in a message handler (08 R188, R218, R219). -/
def Claim.Barriers : Prop :=
  ∀ (s : Machine.State) (a b : Reg) (imm : BitVec 12) (key there : Nat) (target : Word),
    let va := s.x a + ofI imm.toInt
    let home := s.homeAt va key
    let i : Instr := .await a imm b
    let j : Instr := .arrwait a imm b
    let word := Mem.word s.mem key
    let looked := s.note (byteKeys key 8)
    s.powered [key] = true →
    (s.ctx.hnd = true → Traps i s ⟨1, 2, low64 i⟩ ∧ Traps j s ⟨1, 2, low64 j⟩) ∧
    (s.ctx.hnd = false → s.storeCheck va 8 .rw = .ok key → s.coreBusy key home = false →
      ((s.x b).toInt ≤ word.toInt → ∃ t, Done i s t 8 ∧ t.ctx = s.ctx ∧ SameMemory s t ∧
        ∀ w, (find t.core.l1 w).isSome = true → s.owns s.k w = true) ∧
      (word.toInt < (s.x b).toInt → Gives i s (State.stall (.await key home (s.x b) false) looked)) ∧
      (s.ctx.arrv = true → (s.x b).toInt ≤ word.toInt → ∃ t, Done j s t 8 ∧ t.ctx = { s.ctx with arrv := false } ∧
        SameMemory s t ∧ ∀ w, (find t.core.l1 w).isSome = true → s.owns s.k w = true) ∧
      (s.ctx.arrv = true → word.toInt < (s.x b).toInt → Gives j s (State.stall (.await key home (s.x b) true) looked))) ∧
    (s.ctx.hnd = false → s.storeCheck va 8 .rw = .ok key → s.ctx.arrv = false →
      (s.ctx.ldc ≠ 0 ∨ s.ctx.stc ≠ 0 → Waits j s (.release j)) ∧
      (s.ctx.ldc = 0 → s.ctx.stc = 0 →
        Gives j s (State.stall (.arrival key home (s.x b)) (s.issuing (.arrival key) [home])))) ∧
    (∀ id hs sn, s.ctx.wait = .arrival key there target → s.ctx.pend = [⟨id, .arrival key, hs, sn⟩] → Settled s →
      Memory.wf s.mem = true →
      ∃ t, Gives (.loadReturn s.cur 0) s t ∧ Stored s t (cellsOf key 8 (word + 1).toNat) ∧
        (target.toInt ≤ (word + 1).toInt → t.ctx = { s.ctx with
          pend := [], pc := nextPc s 8, instret := s.ctx.instret + 1, wait := .none, arrv := false }) ∧
        ((word + 1).toInt < target.toInt → t.ctx = { s.ctx with pend := [], wait := .await key there target true, arrv := true })) ∧
    (∀ arr, s.ctx.wait = .await key there target arr → s.coreBusy key there = false →
      (target.toInt ≤ word.toInt → ∃ t, Gives (.awaitPoll s.cur) s t ∧ SameMemory s t ∧
        t.ctx = { s.ctx with
          pc := nextPc s 8, instret := s.ctx.instret + 1, wait := .none, arrv := if arr then false else s.ctx.arrv }) ∧
      (word.toInt < target.toInt → Gives (.awaitPoll s.cur) s looked))

/-- FENCE waits until the counters it names are 0, WAIT until each is at most its limit, XFENCE until every earlier access of the
context on its first path is complete: on CORE LDC and STC are 0, on STRM every push is written, on COPY CPC is 0, on TILE, GWIN and
NEAR nothing outstanding travels there, on MSG every payload is written; XFENCE to STRM makes active read streams fetch again, XFENCE
to CORE acquires (08 R215 to R217).
What XFENCE MSG counts in a handler is log 48. -/
def Claim.Ordering : Prop :=
  ∀ (s : Machine.State) (ld st : Bool) (p q : Path) (tl cp sl ll : BitVec 4),
    let met : Prop := (ld = true → s.ctx.ldc = 0) ∧ (st = true → s.ctx.stc = 0)
    let low : Prop := s.ctx.ldc ≤ ll.toNat ∧ s.ctx.stc ≤ sl.toNat ∧ s.ctx.cpc ≤ cp.toNat ∧ s.tlc ≤ tl.toNat
    let empty (p : Path) : Prop := ∀ e ∈ s.ctx.pend, e.on p = false
    let complete : Prop := match p with
      | .core => s.ctx.ldc = 0 ∧ s.ctx.stc = 0
      | .strm => s.ctx.pushes = 0
      | .tile => s.tlc = 0 ∧ empty .tile
      | .copy => s.ctx.cpc = 0
      | .msg => s.payloadsLeft s.cur = false
      | .wdb => True
      | .gwin => empty .gwin
      | .near => empty .near
    (met → Done (.fence ld st) s s 8) ∧ (¬met → Waits (.fence ld st) s .counters) ∧
    (low → Done (.wait tl cp sl ll) s s 8) ∧ (¬low → Waits (.wait tl cp sl ll) s .counters) ∧
    (¬complete → Waits (.xfence p q) s .counters) ∧
    (complete → q ≠ .core → q ≠ .strm → Done (.xfence p q) s s 8) ∧
    (complete → ∃ t, Done (.xfence p .core) s t 8 ∧ t.ctx = s.ctx ∧ t.core.l1 = s.core.l1.filter fun e => s.owns s.k e.1) ∧
    (complete → Done (.xfence p .strm) s { s with ctx := { s.ctx with
      streams := s.ctx.streams.map fun t => if t.active && !t.act.dir then { t with got := [], part := .none, flt := none } else t } } 8)

/-- RELEASE_PERFORM: a releasing instruction that waits for LDC and STC performs its effect, as if issued now, once they are 0, and
waits on before (08 R188). Stated of the current context, and of STL.
That the checks are repeated then is log 17. -/
def Claim.ReleasePerforms : Prop :=
  ∀ (s : Machine.State) (i : Instr), s.ctx.wait = .release i →
    (s.ctx.ldc ≠ 0 ∨ s.ctx.stc ≠ 0 → Gives (.releasePerform s.cur) s s) ∧
    (s.ctx.ldc = 0 → s.ctx.stc = 0 → ∀ t, (releaseMeaning i).isSome = true → exec i s = .next t → t.cur = s.cur →
      Gives (.releasePerform s.cur) s t) ∧
    (∀ d a imm w key, i = .stl d a imm w → s.ctx.ldc = 0 → s.ctx.stc = 0 →
      s.storeCheck (s.x a + ofI imm.toInt) (memBytes w) .w = .ok key → s.powered [key] = true →
      let t := s.issuing (.store .core [cellsOf key (memBytes w) (s.x d).toNat]) [s.homeAt (s.x a + ofI imm.toInt) key]
      Gives (.releasePerform s.cur) s
        { t with ctx := { t.ctx with pc := nextPc s 8, instret := s.ctx.instret + 1, wait := .none } })
/-! ## Engines and gather windows -/

/-- DCOPY and SORTC read their descriptor of eight words and start a copy command, DDEC and DTBL a decode command: x[d] := 0 and
CPC counts it. A copy command with 255 commands counted or no free copy tag, and a decode command with no free request slot, those of
weight trains counted, answer −1 and start nothing. A descriptor outside its limits is ILLEGAL, SUB 1; a core without the engine is
ILLEGAL, SUB 2 (14 R343, R344, R348, 09 R246 to R248). The descriptor is in CLM, and no earlier access of the context is outstanding.
A decode command is stated with fewer than 255 commands counted (log 48).
The traps of cores without the engine are log 29. -/
def Claim.EngineIssue : Prop :=
  ∀ (s : Machine.State) (d a b c : Reg) (off : BitVec 32) (tag : BitVec 8) (slot : BitVec 2) (keys homes : List Nat),
    homes.length = keys.length →
    let ea := s.x a + ofI off.toInt
    let ws := keys.map (Mem.word s.mem)
    let u := engineOf s.k
    let cl := s.cluster u
    let sp := (s.space s.k).getD ⟨0, 0, s.k, .die⟩
    let s' := s.readingWords keys
    let e (n : BitVec 4) (ea : Word) (desc : List Word) : EngCmd :=
      ⟨s.nextId, s.cur, n, tag, ea, desc, s.ctx.prv, sp.asd, s.asidOf s.k, none, false, true, none⟩
    let counted (s : Machine.State) (cl : Cluster) : Machine.State :=
      State.setX { s.setCluster u cl with ctx := { s.ctx with cpc := s.ctx.cpc + 1 }, nextId := s.nextId + 1 } d 0
    let copy (i : Instr) (n : BitVec 4) : Prop :=
      (s.ctx.cpc < 255 → cl.copies.length < 256 → Done i s (counted s' { cl with copies := cl.copies ++ [e n ea ws] }) 12) ∧
      (s.ctx.cpc = 255 ∨ 256 ≤ cl.copies.length → Done i s (s'.setX d (ofI (-1))) 12)
    let refused (i : Instr) (t : Trap) : Prop := Gives i s (s'.trap t)
    let free : Prop := cl.decodes.length < 3 ∧ cl.decodes.length + cl.reqs.length < 4
    let decode (i : Instr) (cmd : EngCmd) : Prop :=
      (free → s.ctx.cpc < 255 → Done i s (counted s { cl with decodes := cl.decodes ++ [cmd] }) 12) ∧
      (¬free → Done i s (s.setX d (ofI (-1))) 12)
    let dcopy : Instr := .dcopy d a off tag
    let sortc : Instr := .sortc d a off tag
    let ddec : Instr := .ddec d a b c slot tag
    let dtbl : Instr := .dtbl d a slot tag
    (isMaster s.k = true → Traps dcopy s ⟨1, 2, low64 dcopy⟩ ∧ Traps sortc s ⟨1, 2, low64 sortc⟩) ∧
    (isMaster s.k = false → ea.toNat % 64 ≠ 0 → Traps dcopy s ⟨6, 0, ea⟩ ∧ Traps sortc s ⟨6, 0, ea⟩) ∧
    (isMaster s.k = false → ea.toNat % 64 = 0 → s.loadBlock ea 8 = .ok (sources keys homes) →
      (∀ k ∈ keys, cachedKey k = false ∧ ctlOf k = none) → s.powered keys = true → s.ctx.pend = [] →
      s.readsAfter s.nextId keys = false →
      (dcopyOk ws = true → copy dcopy 0) ∧ (dcopyOk ws = false → refused dcopy ⟨1, 1, ea⟩) ∧
      (sortcOk ws = true → sortcAlign ws = .ok () → copy sortc 1) ∧
      (∀ t, sortcOk ws = true → sortcAlign ws = .error t → refused sortc t) ∧
      (sortcOk ws = false → refused sortc ⟨1, 1, ea⟩)) ∧
    (isMesh s.k = false → Traps ddec s ⟨1, 2, low64 ddec⟩ ∧ Traps dtbl s ⟨1, 2, low64 dtbl⟩) ∧
    (isMesh s.k = true →
      ((s.x c).toNat = 0 ∨ 2 ^ 24 ≤ (s.x c).toNat → Traps ddec s ⟨1, 1, s.x c⟩) ∧
      (0 < (s.x c).toNat → (s.x c).toNat < 2 ^ 24 →
        decode ddec (e 2 (s.x a) [s.x a, s.x b, s.x c, slot.zeroExtend 64])) ∧
      ((s.x a).toNat % 4 = 0 → decode dtbl (e 3 (s.x a) [s.x a, slot.zeroExtend 64])) ∧
      ((s.x a).toNat % 4 ≠ 0 → Traps dtbl s ⟨6, 0, s.x a⟩))

/-- ENGINE_COMPLETE does the work that a command has left, when nothing fails it, once its engine's order and the order of its context's accesses allow
(09 R246, 11 R286), and ENGINE_FAIL abandons one at its failure, with an ENGINE event
of its context, kept while the context holds 16; both take the command out of its engine and out of CPC (13 R328, 14 R343, R346). A
DCOPY of one unconverted byte moves that byte.
How far a command has come before is log 6. -/
def Claim.EngineEnds : Prop :=
  ∀ (s : Machine.State) (u i : Nat) (e : EngCmd),
    (s.cluster u).cmd i = some e → (s.cluster u).cmdReady i = true → e.failed = none → e.ended = false → e.counted = true →
    s.cmdFree u e (runCmd e s) = true →
    let r := runCmd e s
    let all (c : Cluster) : List EngCmd := c.copies ++ c.decodes
    let left (t : Machine.State) : Prop := all (t.cluster u) = removeAt (all (s.cluster u)) i ∧
      (t.getCtx e.ctx).cpc = (s.getCtx e.ctx).cpc - 1
    s.powered r.keys = true →
    (r.fault = none → ∃ t, Gives (.engineComplete u i) s t ∧ left t ∧ t.mem = r.s.mem ∧ Gives (.engineFail u i) s s) ∧
    (∀ f, r.fault = some f →
      let ev : EngRec := ⟨e.tag, BitVec.ofNat 56 r.now.pos, f.addr, f.sub, e.cmd, e.ea⟩
      Gives (.engineComplete u i) s s ∧
      ((s.getCtx e.ctx).eng.length < 16 → ∃ t, Gives (.engineFail u i) s t ∧ left t ∧ t.mem = r.s.mem ∧
        (t.getCtx e.ctx).eng = (s.getCtx e.ctx).eng ++ [ev]) ∧
      (16 ≤ (s.getCtx e.ctx).eng.length → ∃ t, Gives (.engineFail u i) s t ∧
        all (t.cluster u) = replaceAt (all (s.cluster u)) i { e with failed := some ev })) ∧
    (∀ src dst, e.cmd = 0 → e.at' = none → dcopyConv e.desc = 0 → e.w 2 = 0x0001000100000001 → s.engKey e .r (e.w 0) = .ok src →
      s.engKey e .w (e.w 1) = .ok dst → ∃ t, Gives (.engineComplete u i) s t ∧ Stored s t [(dst, Mem.get s.mem src)])

/-- BINDW writes a window record into the address space's descriptor and gives it to every TLB, UNBINDW removes one, and no other
window changes; the checks of BINDW come in order (10 R278, R279). DSTAT reads CPC with the free copy tags, and the latched engine
record (14 R350).
The traps where there is no address space are the model's choice (log 29). -/
def Obligations.WindowsAndStatus : Prop :=
  ∀ (s : Machine.State) (d a b c : Reg) (size : BitVec 3) (win : BitVec 4) (sp : Space),
    let i : Instr := .bindw d a b c size win
    let words : FdWords := ⟨s.x d, s.x a, s.x b, ofN ((s.x c).toNat + size.toNat * 2 ^ 56 + 2 ^ 63)⟩
    let n := (s.x c).toNat % 2 ^ 28
    let at' := sp.asd + 0x200 + 32 * win.toNat
    let others (t : Machine.State) : Prop := ∀ j < 16, j ≠ win.toNat → t.windowRec sp j = s.windowRec sp j
    (s.space s.k = some sp →
      (2 ^ 56 ≤ (s.x c).toNat ∨ n = 0 ∨ (s.x c).toNat / 2 ^ 28 % 2 ^ 28 = 0 → Traps i s ⟨1, 1, s.x c⟩) ∧
      ((s.x c).toNat < 2 ^ 56 → n ≠ 0 → (s.x c).toNat / 2 ^ 28 ≠ 0 →
        ((s.x a).toNat % 4 ≠ 0 → Traps i s ⟨6, 0, s.x a⟩) ∧
        ((s.x a).toNat % 4 = 0 → (s.x b).toNat % min (sizeCode size) 8 ≠ 0 → Traps i s ⟨6, 0, s.x b⟩) ∧
        ((s.x a).toNat % 4 = 0 → (s.x b).toNat % min (sizeCode size) 8 = 0 →
          (s.badWindow sp (s.x d) (n * sizeCode size) win.toNat = true → Traps i s ⟨1, 1, s.x d⟩) ∧
          (s.badWindow sp (s.x d) (n * sizeCode size) win.toNat = false →
            ∃ t, Done i s t 12 ∧ t.ctx = s.ctx ∧ t.windowRec sp win.toNat = windowOf words ∧ others t ∧
              Stored s t (cellsOf at' 8 words.w0.toNat ++ cellsOf (at' + 8) 8 words.w1.toNat ++
                cellsOf (at' + 16) 8 words.w2.toNat ++ cellsOf (at' + 24) 8 words.w3.toNat)))) ∧
      (s.windowRec sp win.toNat = none → Done (.unbindw win) s s 12) ∧
      (s.windowRec sp win.toNat ≠ none → Memory.wf s.mem = true →
        ∃ t, Done (.unbindw win) s t 12 ∧ t.ctx = s.ctx ∧ t.windowRec sp win.toNat = none ∧ others t)) ∧
    (s.space s.k = none → Traps i s ⟨1, 2, low64 i⟩ ∧ Traps (.unbindw win) s ⟨1, 2, low64 (.unbindw win)⟩) ∧
    (s.ctx.cpc < 256 → Done (.dstat d 0) s
      (s.setX d (ofN (s.ctx.cpc + (256 - (s.cluster (engineOf s.k)).copies.length) * 256))) 12) ∧
    (let r := s.ctx.latched
     Done (.dstat d 1) s (s.setX d r.addr) 12 ∧
     Done (.dstat d 2) s (s.setX d (ofN (r.tag.toNat * 2 ^ 56 + r.cmd.toNat * 2 ^ 8 + r.sub.toNat))) 12 ∧
     Done (.dstat d 3) s (s.setX d r.ea) 12 ∧ Done (.dstat d 4) s (s.setX d (ofN r.bytes.toNat)) 12)

/-! ## Weight trains -/

/-- WDRUN enters the train at x[a] once the context's work has drained, WDRET goes back into it from a callout, past the callout's
block, and the end of a train writes its status and goes on after the WDRUN, whose d field it reads again when the run was
interrupted; WDRUN and WDRET wait for outstanding work, and without the claim they raise TILEBUSY (09 R229 to R233, R239).
That WDRET reads the callout block's coupling again is log 20, what the end of a train waits for log 32 and 36. -/
def Obligations.Trains : Prop :=
  ∀ (s : Machine.State) (d a : Reg),
    let i : Instr := .wdrun d a
    let w := s.ctx.wd
    let quiet : Prop := s.ctx.ldc = 0 ∧ s.ctx.stc = 0 ∧ s.core.tileq = []
    let may : Prop := isCompute s.k = true ∧ s.ctx.hnd = false ∧ w.wdm = false
    let out : Prop := w.wdm = true ∧ w.state = 3
    (¬may → Traps i s ⟨1, 2, low64 i⟩) ∧ (may → s.tclm = false → Traps i s ⟨12, 0, low64 i⟩) ∧
    (may → s.tclm = true → (s.x a).toNat % 32 ≠ 0 → Traps i s ⟨6, 0, s.x a⟩) ∧
    (may → s.tclm = true → (s.x a).toNat % 32 = 0 → ¬quiet → Waits i s .counters) ∧
    (may → s.tclm = true → (s.x a).toNat % 32 = 0 → quiet → s.ctx.pc.toNat % 4 = 0 →
      Gives i s { s with ctx := { s.ctx with
        wait := .none
        wd := { w with wdm := true, blk := s.x a, rpc := s.ctx.pc, nblk := 0, opc := 0, sub := 0, held := false, state := 1
                       ending := none, reread := false, posts := 0, dst := d, block := none } } }) ∧
    (¬out → Traps .wdret s ⟨1, 2, low64 .wdret⟩) ∧ (out → s.tclm = false → Traps .wdret s ⟨12, 0, low64 .wdret⟩) ∧
    (out → s.tclm = true → ¬quiet → Waits .wdret s .counters) ∧
    (∀ ks cpl, out → s.tclm = true → quiet → s.calloutCpl = .ok (ks, cpl) →
      (s.mayReadNow ks = false → Gives .wdret s (State.stall .counters (s.wakeFor ks))) ∧
      (s.mayReadNow ks = true → ∃ t, Gives .wdret s t ∧
        SameMemory s t ∧ t.ctx.pc = w.rpc ∧ t.ctx.instret = s.ctx.instret + 1 ∧ t.ctx.wd.state = 1 ∧
        t.ctx.wd.nblk.toNat = min (w.nblk.toNat + 1) 0xFFFF ∧ t.ctx.wd.opc = 8 ∧
        (cpl ≠ 0 → t.ctx.wd.blk = (w.blk + ofI (cpl.toInt * 32)) &&& ~~~0x1F) ∧ (cpl = 0 → t.ctx.wd.ending = some 5))) ∧
    (let ends (d : Reg) (st : BitVec 3) : Prop :=
      Goes .trainEnd s (State.setX { s with ctx := { s.ctx with wd :=
          { w with wdm := false, state := st, held := false, ending := none } } }
        d (ofN (w.nblk.toNat * 2 ^ 24 + w.opc.toNat * 2 ^ 16 + w.sub.toNat * 2 ^ 8 + st.toNat))) (w.rpc + 8)
     ∀ st, w.wdm = true → w.state = 1 → w.ending = some st → s.trainDrained = true →
      (w.reread = false → ends w.dst st) ∧
      (∀ d' a' n, w.reread = true → s.fetchAt w.rpc = .instr (.wdrun d' a') n → ends d' st)) ∧
    (w.ending = none ∨ s.trainDrained = false → Gives .trainEnd s s)

/-- The blocks of a running train whose checks pass, with the effect of each and its successor; POST waits until 16 send slots are
reserved, TABLE until no earlier decode uses its slot. A block reads its payload when it starts, and one that waits goes on with what it
has read. A block that fails a check of R234, of its header's translation, MAGIC and OPC, of its fields, payload and CRC, of tile shapes,
data addresses and target PC, or of its decode, holds the train and traps with that check's subcode and
address (09 R221 to R229, R234, R235, R238, R242, R244, R246). A coded MMA or MMAS is stated when the decode engine serves it.
What a block reads is read once no earlier access of the context comes first at its words (11 R293).
That WDSTAT.SUB reads as the subcode again after an event that held the train is log 47. -/
def Obligations.TrainBlocks : Prop :=
  ∀ (s : Machine.State) (h : BlkHdr) (pk : List Nat) (p : List Byte), s.trainRuns = true →
    let b := s.ctx.wd.blk
    let fresh (i : Instr) : Prop := ∀ j q, s.ctx.wd.block = some (j, q) → j ≠ i
    let payload : BChk (List Nat) := s.trainKeys (b + 32) h.plen
    let begun (i : Instr) : Prop := s.ctx.wd.block = some (i, p) ∨ (fresh i ∧ fieldsOk i = true ∧ payload = .ok pk ∧
      s.mayReadNow pk = true ∧ p = pk.map (Mem.get s.mem) ∧ crc32c (h.bytes ++ p) = h.w7)
    let ready (i : Instr) (ks : List Nat) : Prop := begun i ∧ State.mayReadNow (if s.ctx.wd.block = some (i, p) then s else
      let t := State.touch s.k s pk
      { t with ctx := { s.ctx with wd := { s.ctx.wd with block := some (i, p) } } }) ks = true
    let commits (i : Instr) (ks : List Nat) (n : Next) (q : Machine.State → Prop) : Prop :=
      ready i ks → ∃ t, Gives i s t ∧ Committed s t h.opc n ∧ q t
    let stops (o : Host.Outcome Machine.State Fault Refusal) (f : BlkFault) : Prop := ∃ l1 rd, o = .next (State.trap { s.giveUp with
      ctx := { s.ctx with wd := { s.ctx.wd with state := 2, sub := f.sub, held := false, posts := 0, block := none } }
      core := { s.core.freeResv s.c with l1 := l1 }, read := rd } ⟨11, f.sub, f.tval⟩)
    let failed (i : Instr) (f : BlkFault) : Prop := stops (exec i s) f
    let fails (i : Instr) (ks : List Nat) (f : BlkFault) : Prop := ready i ks → failed i f
    let same (x : Tile) (t : Machine.State) : Prop := ∀ y, y ≠ x → t.tile y = s.tile y
    let mma (i : Instr) (scale : BitVec 32) : Prop :=
      let shaped : Prop := (s.tshape h.at').wid = (mmaWids (blkFmt h)).1 ∧ (s.tshape h.ct).wid = (mmaWids (blkFmt h)).2
      (¬shaped → fails i [] ⟨11, b⟩) ∧
      (shaped → h.slot = 0xFF ∨ s.decodes = true → s.mmaPayload h p = none → fails i [] ⟨5, b⟩) ∧
      (∀ out, shaped → h.slot = 0xFF ∨ s.decodes = true → s.mmaPayload h p = some out →
        let w : TileReg := ⟨imageRows (if h.planes = 0 then out else planeMajor (blkFmt h) out), Vector.replicate 32 scale, scale⟩
        commits i [] (coupled b h.w2) fun t => t.tile h.wt = w ∧
          t.tile h.ct = mmaTile (blkFmt h) (s.tile h.ct) (s.tile h.at') w ∧
          ∀ y, y ≠ h.wt → y ≠ h.ct → t.tile y = s.tile y)
    let word (i : Instr) (va : Word) (al : Nat) (q : Nat → Prop) : Prop :=
      (∀ f, s.wordKey va al = .error f → fails i [] f) ∧ ∀ k, s.wordKey va al = .ok k → q k
    mma (.mma h) 0x3F800000 ∧ mma (.mmas h) h.w5 ∧
    (let va := s.ctx.wd.base + ofN (h.col * 0x1080)
     (∀ f, s.dataRange .r va 128 528 = .error f → fails (.loada h) [] f) ∧
     ∀ ks, s.dataRange .r va 128 528 = .ok ks →
      let img := ks.flatMap fun k => Mem.bytes s.mem k 8
      commits (.loada h) ks (coupled b h.w2) fun t => same h.at' t ∧ (t.tile h.at').st = 0x3F800000 ∧ ∀ j : Fin 32,
        (t.tile h.at').rows[j].toNat = leNat ((img.drop (128 * j)).take 128) ∧
        (t.tile h.at').sr[j].toNat = leNat ((img.drop (4096 + 4 * j)).take 4)) ∧
    commits (.zeroc h) [] (coupled b h.w2) (fun t => same h.ct t ∧ (t.tile h.ct).st = 0x3F800000 ∧
      ∀ j : Fin 32, (t.tile h.ct).rows[j] = 0 ∧ (t.tile h.ct).sr[j] = 0x3F800000) ∧
    (let va := s.ctx.wd.out + ofN (h.row * 4096)
     (∀ f, s.dataRange .w va 64 512 = .error f → fails (.storec h) [] f) ∧
     ∀ ks, s.dataRange .w va 64 512 = .ok ks → s.powered ks = true →
      commits (.storec h) [] (coupled b h.w2) fun t => t.core.tiles = s.core.tiles ∧
        t.core.tileq = [⟨s.nextId, .bytes ((ks.flatMap fun k => (List.range 8).map (k + ·)).zip
          ((s.tile h.ct).rows.toList.flatMap fun r => leBytes 128 r.toNat)),
          ks.zipIdx.map fun e => s.homeAt (va + ofN (8 * e.2)) e.1⟩]) ∧
    ((s.tshape h.ct).wid ≠ 3 → fails (.act h) [] ⟨11, b⟩) ∧
    ((s.tshape h.ct).wid = 3 → commits (.act h) [] (coupled b h.w2) fun t => same h.ct t ∧ ∀ i j : Fin 32,
      (t.tile h.ct).rows[i].extractLsb' (32 * j) 32 =
        actElem (h.flags.getLsbD 4) (h.flags.getLsbD 5) h.w5 ((s.tile h.ct).rows[i].extractLsb' (32 * j) 32)) ∧
    (let got (i : Instr) (q : Nat → Word → Prop) : Prop := word i (s.x 3 + ofN h.w3.toNat) 8 fun k =>
      (pcOk (Mem.word s.mem k) = false → fails i [k] ⟨10, Mem.word s.mem k⟩) ∧ (pcOk (Mem.word s.mem k) = true → q k (Mem.word s.mem k))
     got (.post h) (fun k pc =>
      (s.ctx.wd.posts = 0 → s.core.out0 = [] → s.core.resv0 = [] →
        commits (.post h) [k] (coupled b h.w2) fun t => t.core.tiles = s.core.tiles ∧
          let dst := if h.tcore = 15 then s.k else clusterOf s.k * 9 + h.tcore.toNat
          t.core.out0.map (fun m => (m.w0, m.hpc, m.a0, m.a1, m.a2, m.a3, m.payload)) = (List.range 16).map fun q =>
            (ofN (2 ^ 48 + s.dev.devnum.toNat * 2 ^ 16 + (cidOf (dst * 8)).toNat), pc, ofN h.rtag.toNat, ofN q, ofN h.w6.toNat, b,
              (((s.tile h.ct).rows.toList.flatMap fun r => leBytes 128 r.toNat).drop (256 * q)).take 256)) ∧
      (s.ctx.wd.posts + s.core.freeSlots false < 16 → ready (.post h) [k] →
        ∃ t, Gives (.post h) s t ∧ SameMemory s t ∧
          t.ctx.wd = { s.ctx.wd with posts := s.ctx.wd.posts + s.core.freeSlots false, block := some (.post h, p) } ∧
          t.core.resv0 = s.core.resv0 ++ List.replicate (s.core.freeSlots false) s.c)) ∧
     got (.calli h) (fun k pc => ready (.calli h) [k] →
      ∃ t, Gives (.calli h) s t ∧ SameMemory s t ∧
        t.ctx = { s.ctx with wait := .none, pc := pc, wd := { s.ctx.wd with state := 3, block := some (.calli h, p) } })) ∧
    word (.brc h) s.ctx.wd.cond 4 (fun k =>
      commits (.brc h) (byteKeys k 4) (coupled b (if leNat (Mem.bytes s.mem k 4) = 0 then h.w2 else h.w3)) fun t => t.core.tiles = s.core.tiles) ∧
    word (.skipz h) (s.ctx.wd.cond + ofN (4 * h.row)) 4 (fun k =>
      let skips : Prop := leNat (Mem.bytes s.mem k 4) = 0 ∧ h.w2 ≠ 0
      let nb := b + ofI (h.w2.toInt * 32)
      (¬skips → commits (.skipz h) (byteKeys k 4) (coupled b h.w2) fun _ => True) ∧
      (∀ f, skips → s.trainKeys nb 32 = .error f → fails (.skipz h) (byteKeys k 4) f) ∧
      (∀ ks, skips → s.trainKeys nb 32 = .ok ks → commits (.skipz h) (byteKeys k 4 ++ ks)
        (coupled nb (BitVec.ofNat 32 (leNat (((ks.map (Mem.get s.mem)).drop 8).take 4)))) fun _ => True)) ∧
    (tableOf p = none → fails (.table h) [] ⟨5, b⟩) ∧
    (∀ tab, tableOf p = some tab →
      (s.tableBusy h.slot.toNat = false → commits (.table h) [] (coupled b h.w2) fun t =>
        (t.cluster (clusterOf s.k)).table h.slot.toNat = tab) ∧
      (s.tableBusy h.slot.toNat = true → ready (.table h) [] →
        ∃ t, Gives (.table h) s t ∧ SameMemory s t ∧
          t.ctx = { s.ctx with wait := .counters, wd := { s.ctx.wd with block := some (.table h, p) } })) ∧
    commits (.link h) [] (.block (ofN (h.w3.toNat * 32))) (fun _ => True) ∧
    commits (.exit h) [] (.done 4) (fun t => t.core.tiles = s.core.tiles) ∧
    (s.ctx.wd.block = none →
      (∀ f, s.trainKeys b 32 = .error f → stops s.trainStep f) ∧
      (∀ ks, s.trainKeys b 32 = .ok ks →
        let header := ks.map (Mem.get s.mem)
        (s.mayReadNow ks = false → s.trainStep = .next (State.stall .counters (s.wakeFor ks))) ∧
        (s.mayReadNow ks = true →
          (header.getD 0 0 ≠ 0xB7 → stops s.trainStep ⟨3, b⟩) ∧
          (header.getD 0 0 = 0xB7 → (header.getD 1 0).toNat = 0 ∨ 13 < (header.getD 1 0).toNat → stops s.trainStep ⟨6, b⟩) ∧
          (header.getD 0 0 = 0xB7 → 0 < (header.getD 1 0).toNat → (header.getD 1 0).toNat ≤ 13 →
            ∃ i, blockInstr (hdrOf header) = some i ∧ s.trainStep = exec i (State.touch s.k s ks))))) ∧
    ∀ i : Instr, i ∈ ([.mma h, .mmas h, .loada h, .zeroc h, .storec h, .post h, .act h, .calli h, .brc h, .skipz h,
        .table h, .link h, .exit h] : List Instr) → fresh i →
      (fieldsOk i = false → failed i ⟨3, b⟩) ∧
      (∀ f, fieldsOk i = true → payload = .error f → failed i f) ∧
      (fieldsOk i = true → payload = .ok pk → s.mayReadNow pk = false → Gives i s (State.stall .counters (s.wakeFor pk))) ∧
      (fieldsOk i = true → payload = .ok pk → s.mayReadNow pk = true → crc32c (h.bytes ++ pk.map (Mem.get s.mem)) ≠ h.w7 →
        failed i ⟨4, b⟩)

/-! ## Traps, events and the system instructions -/

/-- TRAP n raises SYSCALL with TVAL = zext(imm12). It retires, and INSTRET counts it, before the trap is taken, so EPC = PC + 8 and
ERET returns to the next instruction; in a message handler it aborts the handler like any trap (13 R332). -/
def Obligations.SyscallTraps : Prop :=
  ∀ (s : Machine.State) (n : BitVec 12), s.ctx.rep.issuing = false →
    (Handled s → ∃ t, Gives (.trap n) s t ∧ Entered s t 15 (ofN n.toNat) (s.ctx.pc + 8) ∧
      t.ctx.instret = s.ctx.instret + 1 ∧
      (s.ctx.wd.wdm = false → s.ctx.abt = false → s.ctx.pc.toNat % 4 = 0 →
        ∃ u, Gives .eret t u ∧ u.ctx.pc = s.ctx.pc + 8 ∧ u.ctx.prv = s.ctx.prv ∧ u.ctx.ie = s.ctx.ie)) ∧
    (isMaster s.k = false → s.ctx.hnd = true → 32 ≤ s.core.tvec.toNat → ∃ t, Gives (.trap n) s t ∧
      Entered s t 15 (s.ctx.trigger.getD 0) 0 ∧ t.ctx.instret = s.ctx.instret + 1 ∧ t.ctx.abt = true ∧ t.ctx.hnd = false ∧
      t.ctx.heldq = [])

/-- BRK n, of any length, raises BRK with EPC = PC and TVAL = zext(imm12), and does not retire (13 R338). Taking a trap (13 R317,
R320, R323, R329, 01 R19, R23): the saved registers, the status and the PC, on a core and, by the model's choice of log 13, on the
station master; in a message handler the handler is aborted, its
message held, its replay ended with its counts kept; with no handler address the partition is faulted. -/
def Claim.TrapEntry : Prop :=
  ∀ (s : Machine.State) (n : BitVec 12) (t : Trap),
    (Traps (.brk n) s ⟨14, 0, ofN n.toNat⟩ ∧ Traps (.brk96 n) s ⟨14, 0, ofN n.toNat⟩ ∧ Traps (.brk128 n) s ⟨14, 0, ofN n.toNat⟩) ∧
    (let u := s.trap t
     let code : Word := ofN (t.sub.toNat * 2 ^ 8 + t.code.toNat)
     (Handled s → Entered s u code t.tval s.ctx.pc ∧ u.ctx.instret = s.ctx.instret ∧ u.ctx.f = s.ctx.f ∧ u.ctx.v = s.ctx.v ∧
       u.ctx.m = s.ctx.m ∧ u.ctx.pend = s.ctx.pend ∧ u.ctx.streams = s.ctx.streams ∧ u.core.claim = s.core.claim ∧
       (s.ctx.rep.act = true → u.ctx.rep.held = true ∧ u.ctx.rep.bt = s.ctx.rep.issuing)) ∧
     (isMaster s.k = false → s.ctx.hnd = true → 32 ≤ s.core.tvec.toNat → Entered s u code (s.ctx.trigger.getD 0) 0 ∧
       u.ctx.abt = true ∧ u.ctx.hnd = false ∧ u.ctx.hvn = false ∧ u.ctx.heldq = [] ∧ u.ctx.rep.act = false ∧
       u.ctx.rep.cnt = s.ctx.rep.cnt ∧ u.ctx.rep.iter = s.ctx.rep.iter ∧ u.ctx.rep.pc = s.ctx.rep.pc ∧
       (∀ k : Fin 4, u.ctx.streams[k].active = false) ∧ u.tclm = false ∧
       ∀ e ∈ u.core.inq0 ++ u.core.inq1, e.service = some s.c → e.held = true) ∧
     (isMaster s.k = true → u.core.mepc = s.ctx.pc ∧ u.core.mcause = code ∧ u.core.mtval = t.tval ∧ u.ctx.prv = 3 ∧
       u.ctx.pprv = s.ctx.prv ∧ u.ctx.ie = false ∧ u.ctx.pie = s.ctx.ie ∧
       u.ctx.pc = ofN (s.core.mtvec.toNat / 32 * 32)) ∧
     (∀ i p, isMaster s.k = false → s.core.tvec.toNat < 32 → s.partOf s.k = some (i, p) →
       u.ctx = .reset ∧ ∃ q, u.part i = some q ∧ q.idle = true))

/-- What fetch finds at PC, in the order of R41: a block it may not fetch is XFAULT; a pad granule at the start of its block, a granule
of the length code 00, the granule of all ones and what does not decode are ILLEGAL with the bits at PC; an instruction across the end
of its block is FETCHBND. In a cycle in which the current core's own context alone acts without an issue slot, a fetch that fails takes
its trap with EPC = PC, retires nothing, and the cycle goes on with the others (02 R39 to R42, R55, 13 R320).
What else is done in the cycle is log 5. -/
def Claim.FetchFails : Prop :=
  ∀ (s : Machine.State) (t : Trap),
    let pc := s.ctx.pc
    let finds (t : Trap) : Prop := s.fetchAt pc = .trap t
    (∀ e, s.site .x pc = .error e → finds ⟨3, e, pc⟩) ∧
    (∀ key f al, s.site .x pc = .ok (.key key f al) → s.powered [key] = true →
      let g := s.granule key
      let two := ofN ((s.granule (key + 4)).toNat * 2 ^ 32 + g.toNat)
      let fits : Prop := pc.toNat % 32 + 4 * lenGranules g ≤ 32
      (g = 0 → pc.toNat % 32 = 0 → finds ⟨1, 0, two⟩) ∧
      (g = 0 → pc.toNat % 32 ≠ 0 → s.fetchAt pc = .pad) ∧
      (g ≠ 0 → g.toNat % 4 = 0 → finds ⟨1, 0, ofN g.toNat⟩) ∧
      (g.toNat % 4 ≠ 0 → ¬fits → finds ⟨2, 0, pc⟩) ∧
      (g = 0xFFFFFFFF → fits → finds ⟨1, 0, two⟩) ∧
      (g.toNat % 4 ≠ 0 → fits → (∀ i rest, decode (s.granules key (lenGranules g)) = .ok (i, rest) → vallocOk s.ctx i = false) →
        finds ⟨1, 0, two⟩)) ∧
    (let q := (s.beginTurn s.k).raiseTimers.settleReplays
     s.agenda = [] → (∀ e ∈ s.parts, s.overdue e.2 = false ∧ s.mustStop e.2 = false) → s.core.aside < 16 →
     (s.beginTurn s.k).raiseTimers.checks = [] → q.freeList false = [q.cur] → (q.takesEvents && q.hasEvent q.cur) = false →
     q.ctx.wait = .none → q.ctx.wd.wdm = false → q.ctx.rep.act = false → Handled q → q.fetchAt q.ctx.pc = .trap t →
     ∃ u, Entered q u (ofN (t.sub.toNat * 2 ^ 8 + t.code.toNat)) t.tval q.ctx.pc ∧ u.ctx.instret = q.ctx.instret ∧
       step s = State.issueCycle false false 8 [q.cur] u)

/-- ERET outside S mode is ILLEGAL, SUB 3; it restores PRV and IE and goes to EPC, which must be aligned; it resumes or abandons a
held train; after an aborted handler it ends the activation, once its loads have returned, and the message stands in its queue, at its
place and with no service, to be served again (13 R323, R333, 09 R239). -/
def Claim.EretReturns : Prop :=
  ∀ s : Machine.State,
    let c := s.ctx
    let went (t : Machine.State) (pc : Word) : Prop := t.ctx.pc = pc ∧ t.ctx.prv = c.pprv ∧ t.ctx.ie = c.pie ∧
      t.ctx.pie = true ∧ t.ctx.pprv = 0 ∧ t.ctx.instret = c.instret + 1 ∧ (∀ r, t.x r = s.x r) ∧ SameMemory s t
    (c.prv ≠ 1 → Traps .eret s ⟨1, 3, low64 .eret⟩) ∧
    (c.prv = 1 → ¬(c.abt = true ∧ c.pprv = 0) →
      (c.epc.toNat % 4 ≠ 0 → Traps .eret s ⟨6, 0, c.epc⟩) ∧
      (c.epc.toNat % 4 = 0 → ¬(c.wd.wdm = true ∧ c.wd.state = 2) → ∃ t, Gives .eret s t ∧ went t c.epc) ∧
      (c.epc.toNat % 4 = 0 → c.wd.wdm = true → c.wd.state = 2 →
        (c.wd.blk = 0 → ∃ t, Gives .eret s t ∧ went t (c.epc + 8) ∧ t.ctx.wd.wdm = false ∧ t.ctx.wd.state = 6) ∧
        (c.wd.blk ≠ 0 → ∃ t, Gives .eret s t ∧ went t c.epc ∧ t.ctx.wd.wdm = true ∧ t.ctx.wd.state = 1))) ∧
    (c.prv = 1 → c.abt = true → c.pprv = 0 → c.hnd = false →
      let back (l : List InEntry) : List InEntry :=
        l.map fun e => if e.service = some s.c then ⟨e.msg, none, false⟩ else e
      (MayEnd s → ∃ t, Gives .eret s t ∧ Ended s t ∧ SameMemory s t ∧
        t.core.inq0 = back s.core.inq0 ∧ t.core.inq1 = back s.core.inq1) ∧
      (c.ldc ≠ 0 → Waits .eret s (.ending true)))

/-- NOP, WFI, IFENCE and TLBI, what ends their waits, and FETCH, of a context that does not wait (02 R40, 04 R102, 10 R263, R273, 13 R335, R337, R339, R340).
That S-mode instructions run in M mode too is log 31. -/
def Obligations.SystemInstructions : Prop :=
  ∀ (s : Machine.State) (a : Reg) (scope : BitVec 2),
    let due := s.hasEvent s.cur || s.timeUp s.cur
    let own := ((s.space s.k).map (·.asid)).getD 0
    let gone (asid : Nat) (va : Word) : List (TlbAt × TlbEnt) := s.tlb.filter fun e => !tlbiHits asid scope va e.2
    let on (u : Machine.State) : Machine.State :=
      { u with ctx := { u.ctx with pc := nextPc s 8, instret := s.ctx.instret + 1, wait := .none } }
    Done .nop s s 8 ∧
    (s.ctx.hnd = true → Traps .wfi s ⟨1, 2, low64 .wfi⟩) ∧
    (s.ctx.hnd = false → due = true → Done .wfi s s 8) ∧ (s.ctx.hnd = false → due = false → Waits .wfi s .wfi) ∧
    (s.ctx.wait = .wfi → due = true → Gives (.wfiWake s.cur) s (on s)) ∧
    (s.ctx.wait = .wfi → due = false → Gives (.wfiWake s.cur) s s) ∧
    (s.ctx.rep.act = true → s.ctx.rep.held = false → Waits .ifence s .counters) ∧
    (s.ctx.rep.act = false ∨ s.ctx.rep.held = true → ∃ u, Done .ifence s u 8 ∧ SameMemory s u ∧
      u.core = { s.core with l1i := [] } ∧ ∀ r, r / 8 = s.k → u.getCtx r = { s.getCtx r with fetched := none }) ∧
    (s.ctx.prv = 0 → Traps (.tlbi a scope) s ⟨1, 3, low64 (.tlbi a scope)⟩) ∧
    (s.ctx.prv ≠ 0 → Gives (.tlbi a scope) s
      (State.stall (.tlbi own scope (s.x a)) { s with tlb := gone own (s.x a) })) ∧
    (∀ asid va, s.ctx.wait = .tlbi asid scope va → Gives (.tlbiRetire s.cur) s (on { s with tlb := gone asid va })) ∧
    (s.ctx.fetches = false → Gives .fetch s s) ∧
    (∀ key f al, s.ctx.fetches = true → s.site .x s.ctx.pc = .ok (.key key f al) → s.powered [key] = false →
      Gives .fetch s (s.wakeFor [key])) ∧
    (∀ key f al, s.ctx.fetches = true → s.site .x s.ctx.pc = .ok (.key key f al) → s.powered [key] = true → ∃ t, Gives .fetch s t ∧ SameMemory s t ∧
      (find s.core.l1i (key / 4) = none → ∀ n < 8, find t.core.l1i (key / 32 * 8 + n) =
        some ((find s.core.l1i (key / 32 * 8 + n)).getD (BitVec.ofNat 32 (leNat (Mem.bytes s.mem (4 * (key / 32 * 8 + n)) 4))))) ∧
      ((find s.core.l1i (key / 4)).isSome = true → t.core.l1i = s.core.l1i) ∧
      (key % 4 = 0 → s.granule key ≠ 0 → t.ctx = s.ctx) ∧
      (s.granule key = 0 → key % 4 = 0 → s.ctx.pc.toNat % 32 ≠ 0 →
        t.ctx = { s.ctx with pc := ofN ((s.ctx.pc.toNat / 32 + 1) * 32) }))

/-- Events: TIMER comes due; a context that may takes its first pending event, of DEBUG, ENGINE, IPI, TIMER and ECC in this order,
with its cause and TVAL, and a WFI retires first; a running train is held, at its block, and its WDRUN is the interrupted
instruction; a context that may not takes none (09 R238, 13 R322, R325, R326, R339).
That SUB reads 0 while an event holds the train is log 47, that its end goes on afterwards log 32. -/
def Obligations.Events : Prop :=
  ∀ (s : Machine.State) (c : Nat),
    let x := s.ctx
    let epc := if x.wait = .wfi then nextPc s 8 else x.pc
    let takes (code : Nat) (tval : Word) (q : Machine.State → Prop) : Prop :=
      ∃ t, Gives .takeEvent s t ∧ Entered s t (ofN (2 ^ 63 + code)) tval epc ∧ q t ∧
        (x.wd.wdm = true → x.wd.state = 1 → t.ctx.wd = { x.wd with
          state := 2, held := true, posts := 0, block := none } ∧ (t.csr 0x044).toNat / 256 % 256 = 0)
    ((s.getCtx c).phase = .active → (s.getCtx c).tcmp.toNat ≤ (s.timeOf (c / 8)).toNat →
      Gives (.timer c) s (s.setCtx c { s.getCtx c with timer := true })) ∧
    ((s.timeOf (c / 8)).toNat < (s.getCtx c).tcmp.toNat → Gives (.timer c) s s) ∧
    (s.takesEvents = false → Gives .takeEvent s s) ∧
    (s.takesEvents = true → Handled s →
      (∀ n < 8, (x.debug).getLsbD n = true → (∀ j < n, (x.debug).getLsbD j = false) →
        takes 34 (ofN n) fun t => t.ctx.debug = x.debug &&& ~~~((1 : BitVec 8) <<< n)) ∧
      (∀ r l, x.debug = 0 → x.eng = r :: l → takes (35 + r.sub.toNat * 256) (ofN (r.tag.toNat * 2 ^ 56 + r.bytes.toNat)) fun t =>
        t.ctx.eng = l ∧ t.ctx.latched = r) ∧
      (∀ w, x.debug = 0 → x.eng = [] → x.ipi = some w → takes 33 (ofN w.toNat) fun t => t.ctx.ipi = none) ∧
      (x.debug = 0 → x.eng = [] → x.ipi = none → x.timer = true → takes 32 (s.timeOf s.k) fun _ => True) ∧
      (∀ w l, x.debug = 0 → x.eng = [] → x.ipi = none → x.timer = false → s.eccTarget s.k = some s.cur → s.core.ecc = w :: l →
        takes 36 w fun t => t.core.ecc = l) ∧
      (s.hasEvent s.cur = false → Gives .takeEvent s s))

/-! ## Control and status registers -/

/-- CSRR, CSRW, CSRS and CSRC of an accessible register read its old value into x[d] and write it, whole, or with bits set or
cleared; an unallocated register, a read-only one written, and one above the privilege are ILLEGAL, SUB 3, and a refused value traps. The
registers of the matrix unit are ILLEGAL, SUB 2, on a core without one, and TILEBUSY without the claim (01 R17, R21 to R23, 07 R164, 13 R334). CSRS and CSRC of DRPST work on what it held before the droop detector counted in the cycle (16 R368).
That the instruction that writes INSTRET counts itself in the value written is log 47. -/
def Claim.CsrInstructions : Prop :=
  ∀ (s : Machine.State) (d a : Reg) (n : BitVec 12),
    let q := n.toNat
    let bad (i : Instr) : Prop := Traps i s ⟨1, 3, low64 i⟩
    let rw := csrRw q
    let old := s.csr q
    let x := s.island (islandOf s.k)
    let held := if q = 0x40A then ofN (x.cnt0.toNat * 2 ^ 16 + x.mrg0.toNat * 2 ^ 8) else old &&& rw
    (csrAccess s.k q = none → bad (.csrr d n) ∧ bad (.csrw d n a) ∧ bad (.csrs d n a) ∧ bad (.csrc d n a)) ∧
    (∀ r w, csrAccess s.k q = some (r, w) →
      (s.ctx.prv.toNat < r.toNat → bad (.csrr d n)) ∧
      (isTshape q = true → ∀ i ∈ ([.csrr d n, .csrw d n a, .csrs d n a, .csrc d n a] : List Instr),
        (isCompute s.k = false → Traps i s ⟨1, 2, low64 i⟩) ∧
        (isCompute s.k = true → s.tclm = false → Traps i s ⟨12, 0, low64 i⟩)) ∧
      (w = none → bad (.csrw d n a) ∧ bad (.csrs d n a) ∧ bad (.csrc d n a)) ∧
      (∀ p, w = some p → s.ctx.prv.toNat < p.toNat → bad (.csrw d n a) ∧ bad (.csrs d n a) ∧ bad (.csrc d n a)) ∧
      (r.toNat ≤ s.ctx.prv.toNat → isTshape q = false ∨ s.tclm = true ∧ isCompute s.k = true →
        Done (.csrr d n) s (s.setX d old) 8) ∧
      (∀ p, w = some p → r.toNat ≤ s.ctx.prv.toNat → p.toNat ≤ s.ctx.prv.toNat →
        isTshape q = false ∨ s.tclm = true ∧ isCompute s.k = true →
        (∀ t, csrPut q (s.x a) true (refuseOf (.csrw d n a)) s = .ok t → CsrDone (.csrw d n a) s t d old) ∧
        (∀ t, csrPut q (held ||| (s.x a &&& rw)) false (refuseOf (.csrs d n a)) s = .ok t → CsrDone (.csrs d n a) s t d old) ∧
        (∀ t, csrPut q (held &&& ~~~(s.x a)) false (refuseOf (.csrc d n a)) s = .ok t → CsrDone (.csrc d n a) s t d old) ∧
        (∀ t, csrPut q (s.x a) true (refuseOf (.csrw d n a)) s = .error t → Traps (.csrw d n a) s t) ∧
        (∀ t, csrPut q (held ||| (s.x a &&& rw)) false (refuseOf (.csrs d n a)) s = .error t → Traps (.csrs d n a) s t) ∧
        (∀ t, csrPut q (held &&& ~~~(s.x a)) false (refuseOf (.csrc d n a)) s = .error t → Traps (.csrc d n a) s t)))

/-- The plain registers hold what is written, cut to their RW fields, and a write changes no other register (01 R20 to R26, 09 R230,
R231, 13 R320). -/
def Claim.CsrHoldWrites : Prop :=
  ∀ (s : Machine.State) (n : Nat) (v : Word) (r : Refuse),
    n ∈ [0x00A, 0x021, 0x040, 0x041, 0x042, 0x043, 0x045, 0x401, 0x402, 0x403, 0x404, 0x405, 0x406, 0x408, 0x800, 0x801, 0x802,
      0x803, 0x804] →
    ∃ t, csrPut n v true r s = .ok t ∧ t.csr n = v &&& csrRw n ∧ SameMemory s t ∧
      ∀ j, (csrAccess s.k j).isSome = true → j ≠ n → t.csr j = s.csr j

/-- The registers of several fields: what STATUS, FCSR, PRIO, OPCNT and CID read, and what writes of STATUS, FCSR, PMCSELn, PMCOVF and
DRPTH do. A reserved value of a field (PPRV 0b10, and 0b11 but on the station master, RM 4 to 7, an event code above 16, STEP 0) is
refused and writes nothing; a 1 written to a bit of PMCOVF clears it (01 R19 to R25, 16 R367, R376, R377).
Stated of a DRPTH that no core of the island has written in the cycle. -/
def Claim.SpecialRegisters : Prop :=
  ∀ (s : Machine.State) (v : Word) (w1c : Bool) (r : Refuse) (n : Fin 8),
    let c := s.ctx
    let b (x : Bool) : Nat := if x then 1 else 0
    let bits (lo w : Nat) : Nat := v.toNat / 2 ^ lo % 2 ^ w
    let refused (csr : Nat) : Prop := csrPut csr v w1c r s = .error r.enc
    let puts (csr : Nat) (t : Machine.State) : Prop := csrPut csr v w1c r s = .ok t
    let isl := islandOf s.k
    s.csr 0x400 = ofN (b c.ie + 2 * b c.pie + 4 * c.prv.toNat + 16 * c.pprv.toNat + 64 * b c.arrv + 128 * b c.wd.wdm +
      256 * b s.tclm + 512 * b c.hnd + 1024 * b c.hvn + 2048 * b c.abt) ∧
    s.csr 0x000 = ofN (c.flags.toNat + 32 * c.rm.toNat + 256 * c.te.toNat) ∧
    s.csr 0x003 = ofN (c.lvl.toNat + 256 * c.eff.toNat) ∧
    (c.ldc < 256 → c.stc < 256 → c.cpc < 256 → s.core.tileq.length < 256 → s.csr 0x004 = ofN (c.ldc + 256 * c.stc +
      65536 * c.cpc + if s.core.claim = some s.c then 16777216 * s.core.tileq.length else 0)) ∧
    (∀ die quad clus core ctx, die < 4 → quad < 4 → clus < 20 → core < 9 → ctx < 8 →
      s.cur = ((die * 80 + quad * 20 + clus) * 9 + core) * 8 + ctx → s.csr 0x001 = ofN (s.dev.devnum.toNat * 2 ^ 16 +
        die * 2 ^ 14 + quad * 2 ^ 12 + clus * 2 ^ 7 + core * 8 + ctx)) ∧
    (∀ die port ctx, die < 4 → port < (if die < 2 then 5 else 4) → ctx < 8 →
      s.cur = (2880 + (if die < 3 then 5 * die else 14) + port) * 8 + ctx →
      s.csr 0x001 = ofN (s.dev.devnum.toNat * 2 ^ 16 + die * 2 ^ 14 + 31 * 2 ^ 7 + port * 8 + ctx)) ∧
    (isMaster s.k = true → s.csr 0x001 = ofN (s.dev.devnum.toNat * 2 ^ 16 + 0xFFFF)) ∧
    (let reserved : Prop := bits 4 2 = 2 ∨ bits 4 2 = 3 ∧ isMaster s.k = false
     (reserved → refused 0x400) ∧
     (¬reserved → puts 0x400 { s with ctx := { c with
       arrv := v.getLsbD 6, pprv := BitVec.ofNat 2 (bits 4 2), pie := v.getLsbD 1, ie := v.getLsbD 0 } })) ∧
    (3 < bits 5 3 → refused 0x000) ∧
    (bits 5 3 ≤ 3 → puts 0x000 { s with ctx := { c with
      te := BitVec.ofNat 5 (bits 8 5), rm := BitVec.ofNat 3 (bits 5 3), flags := BitVec.ofNat 5 (bits 0 5) } }) ∧
    (16 < bits 0 8 → refused (0x188 + n)) ∧
    (bits 0 8 ≤ 16 → ∃ t, puts (0x188 + n) t ∧ t.ctx = s.ctx ∧ SameMemory s t ∧
      (t.core.pmcsel[n]).toNat = bits 16 8 * 2 ^ 16 + bits 15 1 * 2 ^ 15 + bits 0 8 ∧
      ∀ j : Fin 8, j ≠ n → t.core.pmcsel[j] = s.core.pmcsel[j]) ∧
    puts 0x190 { s with core := { s.core with
      pmcovf := if w1c then s.core.pmcovf &&& ~~~(BitVec.ofNat 8 (bits 0 8)) else s.core.pmcovf } } ∧
    (bits 0 5 = 0 → refused 0x409) ∧
    (bits 0 5 ≠ 0 → (s.island isl).stepBy = none → ∃ t, puts 0x409 t ∧ t.ctx = s.ctx ∧ SameMemory s t ∧
      (t.island isl).step = BitVec.ofNat 5 (bits 0 5) ∧ ∀ j, j ≠ isl → t.island j = s.island j)

/-- The writes of CSRs that are steps of their own: reserved values are refused, what the droop detector did in the cycle is counted
after a write of DRPST, and of the writes of one cycle that of the highest core stands (01 R21, R25, R26, 06 R148, R152, 09 R231, 15 R364, 16 R367, R368, R376 to R378). -/
def Obligations.CsrWriteSteps : Prop :=
  ∀ (s : Machine.State) (v : Word) (t : Tile) (k : BitVec 2) (n : BitVec 3) (csr : BitVec 12),
    let bad (i : Instr) (sub : BitVec 8) : Prop := Traps i s ⟨1, sub, s.bitsAtPc s.ctx.pc⟩
    let ctx (f : Ctx → Ctx) : Machine.State := { s with ctx := f s.ctx }
    let isl := islandOf s.k
    (v.toNat % 8 = 0 → bad (.hresWrite v) 3) ∧
    (v.toNat % 8 ≠ 0 → Gives (.hresWrite v) s { s with core := { s.core with hres := BitVec.ofNat 3 v.toNat } }) ∧
    Gives (.prioWrite v) s
      (ctx fun c => { c with lvl := BitVec.ofNat 7 v.toNat, eff := BitVec.ofNat 7 v.toNat, aging := 0 }) ∧
    (∃ u, Gives (.cycleWrite v) s u ∧ u.cycle + 1 = v ∧ u.ctx = s.ctx ∧ u.islands = s.islands) ∧
    (let sh : TShape := ⟨v.extractLsb' 16 7, v.extractLsb' 8 5, v.extractLsb' 0 3⟩
     (4 < sh.wid.toNat → bad (.tshapeWrite t v) 3) ∧
     (sh.wid.toNat ≤ 4 → 128 < (sh.cols.toNat + 1) * tileBytes sh.wid → bad (.tshapeWrite t v) 0) ∧
     (sh.wid.toNat ≤ 4 → (sh.cols.toNat + 1) * tileBytes sh.wid ≤ 128 → Gives (.tshapeWrite t v) s (s.setTshape t sh))) ∧
    (let x := s.stream k
     let p : Word := ofN (v.toNat % 2 ^ 48)
     (x.active = false → Gives (.sposWrite k v) s (s.setStream k { x with spos := p })) ∧
     (x.active = true → Gives (.sposWrite k v) s (s.setStream k
       { x with spos := p, got := [], part := .none, flt := none, ended := decide (x.act.total ≤ p.toNat) }))) ∧
    (let r := s.ctx.rep
     Gives (.frepitWrite true v) s (ctx fun c => { c with rep := { r with cnt := BitVec.ofNat 32 v.toNat } }) ∧
     (r.act = true → r.len.toNat ≤ (v.extractLsb' 32 4).toNat → bad (.frepitWrite false v) 0) ∧
     (r.act = false ∨ (v.extractLsb' 32 4).toNat < r.len.toNat → Gives (.frepitWrite false v) s (ctx fun c =>
       { c with rep := { r with bt := v.getLsbD 63, slot := v.extractLsb' 32 4, iter := BitVec.ofNat 32 v.toNat } }))) ∧
    Gives (.wdrpcWrite v) s (ctx fun c => { c with wd := { c.wd with rpc := ofN (v.toNat / 4 * 4) } }) ∧
    Gives (.psatWrite v) s (ctx fun c => { c with psat := BitVec.ofNat 32 v.toNat }) ∧
    Gives (.pmcWrite n v) s { s with core := { s.core with pmc := s.core.pmc.set n.toNat (BitVec.ofNat 48 v.toNat) n.isLt } } ∧
    (∃ u, Gives (.pmcOverflow s.k n) s u ∧ u.ctx = s.ctx ∧
      (s.core.pmc[n.toNat]'(n.isLt) = BitVec.allOnes 48 →
        u.core.pmc[n.toNat]'(n.isLt) = 0 ∧ u.core.pmcovf = s.core.pmcovf ||| ((1 : BitVec 8) <<< n.toNat))) ∧
    (8 < (v.extractLsb' 28 4).toNat ∨ 5 < (v.extractLsb' 9 3).toNat → bad (.monWrite n v) 3) ∧
    ((v.extractLsb' 28 4).toNat ≤ 8 → (v.extractLsb' 9 3).toNat ≤ 5 → ∃ u, Gives (.monWrite n v) s u ∧ u.ctx = s.ctx ∧
      let m := u.core.mon[n.toNat]'(n.isLt)
      m.extractLsb' 7 57 = v.extractLsb' 7 57 ∧ m.getLsbD 0 = v.getLsbD 0 ∧
      m.getLsbD 1 = ((s.core.mon[n.toNat]'(n.isLt)).getLsbD 1 && !v.getLsbD 1)) ∧
    (let x := s.island isl
     let n := v.extractLsb' 16 16
     let m := v.extractLsb' 8 8
     let wrote (cnt : BitVec 16) (mrg : BitVec 8) : Prop := Gives (.drpstWrite v) s (s.setIsland isl { x with
       cnt0 := n, mrg0 := m, stBy := some s.k, cnt := cnt, mrg := mrg })
     (∀ j, x.stBy = some j → s.k < j → Gives (.drpstWrite v) s (s.setIsland isl x)) ∧
     ((∀ j, x.stBy = some j → j ≤ s.k) →
       (x.fell = 0 → wrote n m) ∧ (x.fell = 1 → wrote (BitVec.ofNat 16 (min (n.toNat + 1) 0xFFFF)) m) ∧
       (x.fell = 2 → wrote n (BitVec.ofNat 8 (min (m.toNat + 1) 0xFF))))) ∧
    Gives (.gqjobWrite v) s { s with core := { s.core with gqCount := BitVec.ofNat 32 v.toNat, gqNext := 0 } } ∧
    (∀ r w u, csrAccess s.k csr.toNat = some (r, some w) → csrPut csr.toNat v true s.refuse s = .ok u → Gives (.csrWrite csr v) s u)

/-! ## The signal box and aging -/

/-- The signal box: a record at the head of its queue whose DEP holds TGT, or is 0, has its shapes read and DONE raised by the number
of its tiles less 1. Of the queues whose head has its shapes and a core that may take a tile, that of highest PRIO, of equals the lowest
queue, gives its next tile to the core of its mask that holds the fewest contexts, of equals the one of lowest CID, which holds a
context for it; the record goes on to the next n, then m, then the next group with tiles, and leaves its queue after its last tile. The
core starts its first delivered tile when no message comes before it and its holdings fit the limits of HRES (01 R25). A failing access,
of DEP, of the shapes or of DONE, faults the partition (08 R209, 12 R311, R312). A ready context that has waited 64 cycles rises by 1 (12 R313).
What the event of a partition fault leaves open is log 21, the signal box's local CLM log 48. -/
def Obligations.SignalBox : Prop :=
  ∀ (s : Machine.State) (quad q i c : Nat) (p : Part) (t : TileRec) (rest : List TileRec),
    let w (n : Nat) : Word := t.words.getD n 0
    let faults : Prop := ∃ u, Gives (.sboxDepRead quad q) s u ∧ ∃ p', u.part i = some p' ∧ p'.idle = true
    let head : Prop := q < 64 ∧ s.quadPart quad = some (i, p) ∧ p.idle = false ∧ p.stopping = false ∧
      p.asid ∉ s.dev.dstops ∧ s.tileq (quad * 64 + q) = t :: rest ∧ t.ready = none ∧ t.g = 0
    (∀ (shs : List Nat) (done : Nat) (dep : Option Nat), head →
      (match dep with | none => w 10 = 0 | some k => w 10 ≠ 0 ∧ s.boxKey p t.prv .r quad (w 10) = some k) →
      s.powered (dep.toList) = true →
      (∀ k, dep = some k → Mem.word s.mem k ≠ w 11 → Gives (.sboxDepRead quad q) s (s.readingWords [k])) ∧
      ((∀ k, dep = some k → Mem.word s.mem k = w 11) →
        s.shapeKeys p t.prv quad (w 2) (w 3).toNat = none ∨ s.boxKey p t.prv .rw quad (w 12) = none → faults) ∧
      ((∀ k, dep = some k → Mem.word s.mem k = w 11) → s.shapeKeys p t.prv quad (w 2) (w 3).toNat = some shs →
        s.boxKey p t.prv .rw quad (w 12) = some done → s.powered (done :: shs) = true →
        let tiles (k : Nat) : Nat :=
          let m := leNat (Mem.bytes s.mem k 4)
          let n := leNat (Mem.bytes s.mem (k + 4) 4)
          let mt := (w 1).toNat % 2 ^ 16
          let nt := (w 1).toNat / 2 ^ 16 % 2 ^ 16
          (m + mt - 1) / mt * ((n + nt - 1) / nt)
        let total := (shs.map tiles).sum
        ∃ u, Gives (.sboxDepRead quad q) s u ∧ u.ctx = s.ctx ∧
          Stored s u (cellsOf done 8 (Mem.word s.mem done + ofN total - 1).toNat) ∧
          (total = 0 → u.tileq (quad * 64 + q) = rest) ∧
          (total ≠ 0 → ∃ t', u.tileq (quad * 64 + q) = t' :: rest ∧ t'.ready.isSome = true ∧ t'.words = t.words))) ∧
    (head → w 10 ≠ 0 → s.boxKey p t.prv .r quad (w 10) = none → faults) ∧
    (let may (t : TileRec) (k : Nat) : Prop := ∃ clus < 20, ∃ j < 8, (t.words.getD 14 0).getLsbD clus = true ∧
       k = (quad * 20 + clus) * 9 + j ∧ s.running k = true ∧ s.hasRoom k = true
     let prio (t : TileRec) : Nat := (t.words.getD 13 0).toNat % 128
     let held (k : Nat) : Nat := ((List.range 8).filter fun c => (s.getCtx (8 * k + c)).phase != .dormant).length
     let up (a b : Nat) : Nat := (a + b - 1) / b
     let mt := (w 1).toNat % 2 ^ 16
     let nt := (w 1).toNat / 2 ^ 16 % 2 ^ 16
     ∀ (k r : Nat) (l : List (BitVec 32 × BitVec 32)) (sh : BitVec 32 × BitVec 32), quad < 16 → q < 64 →
       s.tileq (quad * 64 + q) = t :: rest →
       t.ready = some l → l[t.g]? = some sh → may t k → s.dormant k = some r →
       (∀ j, may t j → held k ≤ held j ∧ (held j = held k → k ≤ j)) →
       (∀ q' t' rest', q' < 64 → s.tileq (quad * 64 + q') = t' :: rest' → t'.ready.isSome = true → (∃ j, may t' j) →
         prio t' ≤ prio t ∧ (prio t' = prio t → q ≤ q')) →
       ∃ u, Gives (.tileDispatch quad) s u ∧ SameMemory s u ∧ (u.getCtx r).phase = .waiting ∧
         (u.getCore k).tileActs = (s.getCore k).tileActs ++
           [⟨r, w 0, ofN t.g, ofN t.m, ofN t.n, t.addr, (w 13).extractLsb' 10 2, (w 13).extractLsb' 0 7, q⟩] ∧
         let left := u.tileq (quad * 64 + q)
         let empty (j : Nat) : Prop := ∀ x, l[j]? = some x → up x.1.toNat mt * up x.2.toNat nt = 0
         (t.n + 1 < up sh.2.toNat nt → left = { t with n := t.n + 1 } :: rest) ∧
         (up sh.2.toNat nt ≤ t.n + 1 → t.m + 1 < up sh.1.toNat mt → left = { t with m := t.m + 1, n := 0 } :: rest) ∧
         (up sh.2.toNat nt ≤ t.n + 1 → up sh.1.toNat mt ≤ t.m + 1 →
           (∀ g, t.g < g → (∀ j, t.g < j → j < g → empty j) → ¬empty g → left = { t with g := g, m := 0, n := 0 } :: rest) ∧
           ((∀ j, t.g < j → empty j) → left = rest))) ∧
    (∀ (k : Nat) (a : TileAct) (l : List TileAct), s.running k = true → s.vn1Ready k = none → s.vn0Ready k = none →
      (s.getCore k).tileActs = a :: l → a.ctx / 8 = k → a.ctx < 8 * 2898 →
      (s.withinLimits k = true →
        ∃ u, Gives (.tileActivation k) s u ∧ Started s u a.ctx a.activation ∧ (u.getCore k).tileActs = l) ∧
      (s.withinLimits k = false → Gives (.tileActivation k) s s)) ∧
    (let x := s.getCtx c
     (64 ≤ x.aging → Gives (.prioAging c) s
       (s.setCtx c { x with aging := 0, eff := BitVec.ofNat 7 (min (x.eff.toNat + 1) 127) })) ∧
     (x.aging < 64 → Gives (.prioAging c) s (s.setCtx c x)))

/-! ## Partitions -/

/-- A slice that has ended announces a switch 20 µs later; a partition whose time has come stops, and once its work has drained it
saves its contexts and tile queues, becomes idle, and its cores give up their claims, while a region of CLM that a saved context holds
stays held; a job that neither runs nor has been announced to another partition is placed on an idle partition that has the units it was
saved on, and its saved contexts and tile queues go on where they were; a partition that has not reported 1 ms after its switch time, and an
undelivered remote access, fault the partition and end every context of it (12 R304, R305, R307, 13 R329, R330, 15 R358).
What the station master decides is log 41, the core that a drain fault names log 35. -/
def Claim.GangSwitches : Prop :=
  ∀ (s : Machine.State) (i k asid base : Nat) (p : Part) (j : Job), s.part i = some p →
    let faulted (e : Instr) : Prop := ∃ u, Gives e s u ∧ (∃ q, u.part i = some q ∧ q.idle = true ∧ q.switch = none) ∧
      ∀ r, p.holds (r / 8) = true → u.getCtx r = .reset
    (p.idle = false → p.switch = none → p.slice ≤ s.time.toNat → s.job asid = some j → s.runnable j = true →
      s.placed asid = false → s.promised i asid = false → j.fits p = true → s.crowded = true ∨ s.busy p = false →
      (∀ x ∈ s.jobs, s.runnable x = true → s.placed x.asid = false → s.promised i x.asid = false → x.fits p = true →
        s.beats p asid x.asid = true) →
      Gives (.timesliceExpiry i asid) s (s.setPart i { p with switch := some (s.time + 20000, asid) })) ∧
    (s.time.toNat < p.slice → Gives (.timesliceExpiry i asid) s s) ∧
    (s.overdue p = false → p.stopping = false → s.mustStop p = false → Gives (.gangSwitch i base) s s) ∧
    (s.overdue p = true → faulted (.gangSwitch i base)) ∧
    (let v := s.stopCtxs p
     s.overdue p = false → p.stopping = true → s.mustStop p = false → v.part i = some p →
      (v.partQuiet p = false → Gives (.gangSwitch i base) s v) ∧
      (v.partQuiet p = true → v.saveOk base p = true →
        ∃ u, Gives (.gangSwitch i base) s u ∧ u.part i = some { p with idle := true, stopping := false, round := none } ∧
          (∀ n, p.holds n = true → (u.getCore n).claim = none) ∧
          (∀ r, p.holds (r / 8) = true → (u.getCtx r).phase = .dormant) ∧
          (∃ x, u.job p.asid = some x ∧
            (∀ r, p.holds (r / 8) = true → (v.getCtx r).phase = .active → ∃ e ∈ x.saved, e.ref = r) ∧
            ∀ quad ∈ p.quads, ∀ q < 64, v.tileq (quad * 64 + q) ≠ [] → ⟨quad, q, v.tileq (quad * 64 + q)⟩ ∈ x.tiles) ∧
          ∀ r n, p.holds (r / 8) = true → (v.getCtx r).phase = .active → (v.getCtx r).region = some n →
            let holders (y : Machine.State) : List Holder := ((y.cluster (clusterOf (r / 8))).region n).holders
            .ctx r ∈ holders v → .saved p.asid r ∈ holders u)) ∧
    (p.idle = true → p.switch = none → s.placed asid = false → s.promised i asid = false → s.job asid = some j → j.fits p = true →
      ∃ u, Gives (.jobResume i asid) s u ∧ SameMemory s u ∧ (∃ q, u.part i = some q ∧ q.idle = false ∧ q.asid = j.asid ∧
        q.asd = j.asd ∧ q.slice = s.time.toNat + p.length ∧ q.quads = p.quads ∧ q.gws = p.gws) ∧
        ((j.saved.map (·.ref)).Nodup → ∀ e ∈ j.saved,
          (u.getCtx e.ref).phase = e.ctx.phase ∧ (u.getCtx e.ref).pc = Mem.word s.mem e.pa) ∧
        ((j.tiles.map fun t => t.quad * 64 + t.queue).Nodup → ∀ t ∈ j.tiles, u.tileq (t.quad * 64 + t.queue) = t.recs)) ∧
    (p.idle = true → p.switch = none → s.job asid = some j → s.placed asid = true ∨ s.promised i asid = true ∨ j.fits p = false →
      Gives (.jobResume i asid) s s) ∧
    (∀ t n, p.switch = some (t, n) → p.idle = false → p.holds k = true →
      (t.toNat + 1000000 ≤ s.time.toNat → faulted (.drainTimeout i k)) ∧
      (s.time.toNat < t.toNat + 1000000 → Gives (.drainTimeout i k) s s)) ∧
    (p.idle = false → p.holds k = true →
      (s.remoteWork k = true ∨ s.boxRemote p k = true → faulted (.linkTimeout i k)) ∧
      (s.remoteWork k = false → s.boxRemote p k = false → Gives (.linkTimeout i k) s s))

/-- A save record gives back what it holds of a context (01 R31, R33): what `State.saveWords` writes, `Ctx.restore` reads, the latched
engine record, the pending ENGINE events (01 R35) and the captured body of a replay among it.
What the record does not hold is log 23, a held replay log 14. -/
def Claim.SaveRestores : Prop :=
  ∀ s : Machine.State,
    let c := s.ctx
    let d := c.restore fun i => s.saveWords.getD i 0
    d.pc = c.pc ∧ (∀ r : Fin 32, d.x[r] = if r.val = 0 then 0 else c.x[r]) ∧ d.f = c.f ∧ d.m = c.m ∧
    (∀ r : Fin 32, d.v[r] = if r.val < c.valloc.toNat then c.v[r] else 0) ∧ d.valloc = c.valloc ∧
    d.te = c.te ∧ d.rm = c.rm ∧ d.flags = c.flags ∧ d.lvl = c.lvl ∧ d.eff = c.eff ∧ d.instret = c.instret ∧ d.epc = c.epc ∧
    d.cause = c.cause ∧ d.tval = c.tval ∧ d.scratch = c.scratch ∧ d.tcmp = c.tcmp ∧ d.psat = c.psat ∧ d.abt = c.abt ∧
    d.hnd = c.hnd ∧ d.hvn = c.hvn ∧ d.arrv = c.arrv ∧ d.pprv = c.pprv ∧ d.prv = c.prv ∧ d.pie = c.pie ∧ d.ie = c.ie ∧
    d.wd.wdm = c.wd.wdm ∧ d.wd.base = c.wd.base ∧ d.wd.out = c.wd.out ∧ d.wd.cond = c.wd.cond ∧ d.wd.blk = c.wd.blk ∧
    d.wd.rpc = c.wd.rpc ∧ d.wd.stat = c.wd.stat ∧ d.rep.ctl = c.rep.ctl ∧ d.rep.cnt = c.rep.cnt ∧ d.rep.it = c.rep.it ∧
    (let whole (r : EngRec) : Prop := canonical r.ea = true
     (whole c.latched → d.latched = c.latched) ∧ (c.eng.length ≤ 16 → (∀ r ∈ c.eng, whole r) → d.eng = c.eng)) ∧
    (c.rep.act = true → c.rep.body.length = c.rep.len.toNat → c.rep.body.length ≤ 16 → (∀ i ∈ c.rep.body, i.wf = true) →
      d.rep.body = c.rep.body) ∧
    ∀ k : Fin 4, d.streams[k].act = c.streams[k].act ∧ d.streams[k].sflt = c.streams[k].sflt ∧
      d.streams[k].flt.isSome = c.streams[k].flt.isSome ∧ d.streams[k].pending = c.streams[k].pending ∧
      d.streams[k].spos = c.streams[k].spos ∧ d.streams[k].active = c.streams[k].active ∧
      d.streams[k].ended = c.streams[k].ended ∧ d.streams[k].bv = c.streams[k].bv ∧ d.streams[k].breg = c.streams[k].breg

/-! ## The host -/

/-- The host's command queues: a doorbell makes a queue active with the header's PROD and PRIO, a stopped one only when the host has
written STATE 1; the next record is taken and does what its command says, or stops its queue with its error code in the header; the
seeds of a LAUNCH go round the compute cores of its quadrants; a
completed record counts in COMP and, with EVT, leaves an event (12 R298 to R303).
When a completion event is written is log 40, LAUNCH's checks log 26, whose turn it is among equals log 41. -/
def Claim.HostCommands : Prop :=
  ∀ (s : Machine.State) (vf q : Nat) (h : HostQueue) (c : HostCmd),
    let w (n : Nat) : Word := c.words.getD n 0
    let event (u : Machine.State) : Prop := u.events.length = s.events.length + (if c.evt then 1 else 0)
    let finished (u : Machine.State) : Prop := event u ∧ u.queue h.vf h.q = some { h with cons := h.cons + 1, comp := h.comp + 1 }
    let begun (u : Machine.State) : Prop := u.queue h.vf h.q = some { h with cons := h.cons + 1, cmds := [c] }
    let stopped (e : Instr) (err : Nat) : Prop := ∃ u, Gives e s u ∧ u.queue h.vf h.q = some { h with state := 2 } ∧
      u.events.length = s.events.length + 1 ∧ SameMemory s u ∧ (Memory.wf s.hostMem = true → s.header h.vf h.q ≠ 0 →
        Mem.word u.hostMem (s.header h.vf h.q + 0x28) = ofN ((h.cons + 1).toNat * 2 ^ 32 + err * 256 + 2))
    let ended (u : Machine.State) : Prop := event u ∧ u.queue h.vf h.q = some { h with comp := h.comp + 1, cmds := [] }
    (s.vfUp vf = true → q < 64 → s.header vf q ≠ 0 →
      let g : HostQueue := { s.queueOr vf q with
        prod := (s.headerWord vf q 0x10).extractLsb' 0 32
        prio := (s.headerWord vf q 0x08).extractLsb' 8 7 }
      let held : Prop := g.state = 2 ∨ g.state = 3
      let written : Prop := (s.headerWord vf q 0x28).extractLsb' 0 8 = 1
      ∃ u, Gives (.doorbell vf q) s u ∧ SameMemory s u ∧ (held ∧ ¬written → u.queue vf q = some g) ∧
        (¬held ∨ written → u.queue vf q = some { g with state := 1 }) ∧
        (¬held → Memory.wf s.hostMem = true → Mem.get u.hostMem (s.header vf q + 0x28) = 1)) ∧
    (s.vfUp vf = false ∨ 64 ≤ q ∨ s.header vf q = 0 → Gives (.doorbell vf q) s s) ∧
    (s.queue h.vf h.q = some h → s.vfUp h.vf = true → h.open = true → s.first h = true →
      let w0 := (s.recordOf h.vf h.q (h.cons + 1)).getD 0 0
      (w0.extractLsb' 0 32 ≠ h.cons + 1 →
        ∀ e ∈ ([.nopCommand h.vf h.q, .write64 h.vf h.q, .waitval h.vf h.q, .barrier h.vf h.q] : List Instr), stopped e 1) ∧
      (w0.extractLsb' 0 32 = h.cons + 1 → 2 ^ 42 ≤ w0.toNat →
        (w0.extractLsb' 32 8 = 0 → stopped (.nopCommand h.vf h.q) 3) ∧ (w0.extractLsb' 32 8 = 2 → stopped (.write64 h.vf h.q) 3) ∧
        (w0.extractLsb' 32 8 = 3 → stopped (.waitval h.vf h.q) 3) ∧ (w0.extractLsb' 32 8 = 4 → stopped (.barrier h.vf h.q) 3) ∧
        (w0.extractLsb' 32 8 = 1 → (s.jobPart h.vf).isSome = true → stopped (.launch h.vf h.q) 3))) ∧
    (Next1 s h c → Caught h →
      (c.opc = 0 → ∃ u, Gives (.nopCommand h.vf h.q) s u ∧ finished u ∧ SameMemory s u) ∧
      (c.opc = 2 → (w 1).toNat % 8 ≠ 0 → stopped (.write64 h.vf h.q) 4) ∧
      (c.opc = 2 → (w 1).toNat % 8 = 0 → s.hostKey (s.jobSpace h.vf) .w (w 1) = none → stopped (.write64 h.vf h.q) 5) ∧
      (5 ≤ c.opc.toNat → stopped (.nopCommand h.vf h.q) 2) ∧
      (∀ a, c.opc = 2 → (w 1).toNat % 8 = 0 → s.hostKey (s.jobSpace h.vf) .w (w 1) = some a → s.powered [a] = true →
        ∃ u, Gives (.write64 h.vf h.q) s u ∧ finished u ∧ Stored s u (cellsOf a 8 (w 2).toNat)) ∧
      (∀ a, c.opc = 3 → (w 1).toNat % 8 = 0 → s.hostKey (s.jobSpace h.vf) .r (w 1) = some a →
        ∃ u, Gives (.waitval h.vf h.q) s u ∧ begun u ∧ SameMemory s u) ∧
      (c.opc = 4 → ∃ u, Gives (.barrier h.vf h.q) s u ∧ finished u ∧ SameMemory s u) ∧
      (∀ i p, c.opc = 1 → s.jobPart h.vf = some (i, p) →
        let n := (w 2).toNat % 2 ^ 16
        let qmask := (w 2).extractLsb' 16 16
        let asd := if (w 5).toNat = 0 then p.asd else (w 5).toNat
        let sp : Space := ⟨asd, s.asidAt asd, Config.masterCore, .die⟩
        let clear : Prop := w 6 = 0 ∧ w 7 = 0
        let placed : Prop := clear ∧ (w 1).toNat % 64 = 0 ∧ (w 3).toNat % 8 = 0 ∧ (w 5).toNat % 1024 = 0
        let named : Prop := placed ∧ n ≠ 0 ∧ qmask.toNat < 2 ^ p.quads.length
        let found : Prop := named ∧ isHbmKey (w 5).toNat = true
        let fails (err : Nat) : Prop := stopped (.launch h.vf h.q) err
        (¬clear → fails 3) ∧ (clear → ¬placed → fails 4) ∧ (placed → ¬named → fails 6) ∧
        (named → isHbmKey (w 5).toNat = false → fails 5) ∧ (found → s.hostKeys sp (w 1) 8 = none → fails 5) ∧
        (∀ ks, found → s.hostKeys sp (w 1) 8 = some ks → s.powered ks = true →
          let r := TaskRec.ofWords (ks.map (Mem.word s.mem))
          let ok : Prop := taskOk (ks.map (Mem.word s.mem)) = true
          (¬ok → fails 6) ∧ (ok → s.hostKey sp .r (w 3) = none → fails 5) ∧
          ∀ a, ok → s.hostKey sp .r (w 3) = some a →
            let cores := seedCores p qmask
            let seeds (j : Nat) : List TaskRec := ((List.range n).filter (· % cores.length == j)).map fun i => { r with a3 := ofN i }
            cores ≠ [] → cores.Nodup → (∀ k ∈ cores, s.runsJob k = true) →
            (∀ j k, cores[j]? = some k → (s.getCore k).deque.length + (seeds j).length ≤ 64) →
            ∃ u, Gives (.launch h.vf h.q) s u ∧ begun u ∧ SameMemory s u ∧
              (∀ j k, cores[j]? = some k → (u.getCore k).deque = (s.getCore k).deque ++ seeds j) ∧
              ∀ k, k ∉ cores → (u.getCore k).deque = (s.getCore k).deque))) ∧
    (s.queue h.vf h.q = some h → h.cmds = [c] → h.done = [] → c.seq = h.comp + 1 →
      (∀ a, c.opc = 1 → s.hostKey (s.jobSpace h.vf) .r (w 3) = some a → s.powered [a] = true →
        (Mem.word s.mem a = w 4 → ∃ u, Gives (.launchComplete h.vf h.q) s u ∧ ended u ∧ SameMemory s u) ∧
        (Mem.word s.mem a ≠ w 4 → Gives (.launchComplete h.vf h.q) s (s.readingWords [a]))) ∧
      (∀ a, c.opc = 3 → s.hostKey (s.jobSpace h.vf) .r (w 1) = some a → s.powered [a] = true →
        ((w 2).toInt ≤ (Mem.word s.mem a).toInt → ∃ u, Gives (.waitvalComplete h.vf h.q) s u ∧ ended u ∧ SameMemory s u) ∧
        ((Mem.word s.mem a).toInt < (w 2).toInt → Gives (.waitvalComplete h.vf h.q) s (s.readingWords [a]))))

/-- EVENT_WRITE puts the oldest event of a virtual function into its ring when there is room, and then raises its vector when
enabled; BAR0 and BAR2 accesses of the host (12 R302, 15 R353, R355).
A host write takes words out of the registry (log 39). -/
def Claim.HostAccesses : Prop :=
  ∀ (s : Machine.State) (vf off n : Nat) (v : Word) (l : List Byte) (e : HostEvent) (rest : List HostEvent),
    let r := s.vf vf
    let size := 2 ^ r.log2n.toNat
    let num := r.evprod + 1
    let regs (o : Nat) (x : Vf) : Prop := 1 ≤ vf → vf ≤ 16 → s.dev.mode ≠ 2 → off = o → r.bound = false →
      Gives (.hostRegWrite vf off v) s (s.setVf vf x)
    (s.events = e :: rest → e.vf = vf → (r.evprod - r.evcons).toNat ≠ size →
      ∃ u, Gives (.eventWrite vf) s u ∧ u.events = rest ∧ u.msix = (if r.ien then s.msix ++ [vf] else s.msix) ∧
        (u.vf vf).evprod = num ∧ SameMemory s u ∧ (Memory.wf s.hostMem = true → ∀ j < 32,
          Mem.get u.hostMem (r.evbase.toNat + 32 * (num.toNat % size) + j) =
            (leBytes 8 (e.qid.toNat * 2 ^ 40 + e.type.toNat * 2 ^ 32 + num.toNat) ++ leBytes 8 e.seq.toNat ++
              leBytes 8 e.status.toNat ++ leBytes 8 s.time.toNat).getD j 0)) ∧
    (s.events = e :: rest → e.vf = vf → (r.evprod - r.evcons).toNat = size → Gives (.eventWrite vf) s s) ∧
    (s.vfUp vf = true → off + l.length ≤ 2 ^ 36 → isHbmKey (r.window + off + l.length - 1) = true →
      ∃ u, Gives (.hostBar2Access vf off l.length (some l)) s u ∧ Stored s u (cellsAt (r.window + off) l)) ∧
    Gives (.hostBar2Access vf off n none) s s ∧
    (s.vfUp vf = true → off + n ≤ 2 ^ 36 → isHbmKey (r.window + off + n - 1) = true →
      ∃ d, s.bar2 vf off n = some d ∧ d.length = n ∧ ∀ j < n, d.getD j 0 = Mem.get s.mem (r.window + off + j)) ∧
    ((s.bar0 vf 8).getLsbD 0 = r.bound ∧ (s.bar0 vf 8).extractLsb' 16 16 = r.asid ∧ s.bar0 vf 0 = 0 ∧
      s.bar0 vf 0x318 = ofN r.evprod.toNat) ∧
    regs 0x108 { r with qhaddr := put r.qhaddr 1 (v &&& ~~~0x3F) } ∧ regs 0x300 { r with evbase := v &&& ~~~0xFFF } ∧
    regs 0x310 { r with evcons := BitVec.ofNat 32 v.toNat } ∧
    (1 ≤ vf → vf ≤ 16 → s.dev.mode ≠ 2 → r.bound = true → (0x100 ≤ off ∧ off < 0x310) → Gives (.hostRegWrite vf off v) s s)

/-- The mailbox: a command runs when none is under way, in a mode that has it, else RESULT 2; one that waits for the station master
goes on when that has chosen; it leaves RESULT, and ERR when it failed, and raises the PF's vector when it is complete; an ATTEST that succeeds has the length of its
report as RESULT; the effects of BINDVF, UNBINDVF, ATTEST,
BISTRUN, RECOVER, CODEINV, DSTOP, DRESUME and RESET (15 R352, 16 R374, R375, R382, R383).
What a reset keeps and how BISTRUN fails is log 43; signatures and digests are log 12. -/
def Claim.Mailbox : Prop :=
  ∀ (s : Machine.State) (base : Nat) (b : BootResult),
    let m := s.dev.mode
    let vf := (s.mbWord 0x10).toNat
    let asid := vf % 2 ^ 16
    let idle : Prop := s.dev.mbBusy = false
    let open' (code : BitVec 8) : Prop := s.dev.mbBusy = false ∨ s.dev.mbCmd = code
    let answered (i : Instr) (err : Bool) (result : BitVec 32) (q : Machine.State → Prop) : Prop :=
      ∃ u, Gives i s u ∧ u.dev.mbBusy = false ∧ u.dev.mbResult = result ∧ u.dev.mbErr = err ∧
        u.msix = s.msix ++ [0] ∧ SameMemory s u ∧ q u
    let ended (i : Instr) (result : BitVec 32) (q : Machine.State → Prop) : Prop := answered i (!(result == 0)) result q
    let wrong (i : Instr) : Prop := ended i 2 fun u => u.vfs = s.vfs ∧ u.dev.mode = s.dev.mode
    (s.dev.mbBusy = true → (s.dev.mbCmd ≠ 1 → Gives (.bindvf base) s s) ∧ Gives .unbindvf s s ∧ Gives .attest s s ∧
      Gives .codeinv s s ∧ Gives .dresume s s ∧ Gives .reset s s) ∧
    (idle → m ≠ 1 → wrong (.bindvf base) ∧ wrong .unbindvf ∧ wrong .attest ∧ wrong .codeinv ∧ wrong .dresume ∧ wrong .dstop) ∧
    (idle → m ≠ 2 → wrong (.bistrun b) ∧ wrong (.recover b)) ∧
    (m = 1 → open' 1 →
      (1 ≤ vf → vf ≤ 16 → base % 2 ^ 30 = 0 → isHbmKey base = true → ended (.bindvf base) 0 fun u =>
        (u.vf vf).bound = true ∧ (u.vf vf).asid = (s.mbWord 0x18).extractLsb' 0 16 ∧ (u.vf vf).window = base ∧
        (u.job ((s.mbWord 0x18).toNat % 2 ^ 16)).isSome = true) ∧
      (vf = 0 ∨ 16 < vf → ended (.bindvf base) 3 fun u => u.vfs = s.vfs)) ∧
    (idle → m = 1 →
      (1 ≤ vf → vf ≤ 16 → ended .unbindvf 0 fun u => (u.vf vf).bound = false ∧ ∀ h ∈ u.hqueues, h.vf ≠ vf) ∧
      (vf = 0 ∨ 16 < vf → ended .unbindvf 3 fun u => u.vfs = s.vfs) ∧
      (answered .attest false (BitVec.ofNat 32 (2580 + 32 * s.dev.measures.length)) fun u => Memory.wf s.dev.stage = true →
        ∀ j < 8, Mem.get u.dev.stage j = (leBytes 4 0x5A474154 ++ leBytes 4 1).getD j 0) ∧
      (∃ u, Gives .codeinv s u ∧ u.dev.cinvGo = true ∧ u.dev.mbBusy = true ∧ SameMemory s u) ∧
      (∀ j, s.job asid = some j →
        (∃ u, Gives .dstop s u ∧ asid ∈ u.dev.dstops ∧ SameMemory s u ∧ (u.dev.mbBusy = !s.jobStopped asid)) ∧
        ended .dresume 0 fun u => asid ∉ u.dev.dstops) ∧
      (s.job asid = none → (ended .dstop 3 fun u => u.dev.dstops = s.dev.dstops) ∧
        ended .dresume 3 fun u => u.dev.dstops = s.dev.dstops)) ∧
    (m = 2 → open' 4 →
      (s.bootFault b = none → ended (.bistrun b) 0 fun u => u.dev.mode = 2 ∧ u.dev.failrec[0].toNat < 2 ^ 32 ∧
        ∀ j : Fin 8, 3 ≤ j.val → u.dev.failrec[j] = 0) ∧
      ∀ stage unit detail, s.bootFault b = some (stage, unit, detail) → ended (.bistrun b) 3 fun u =>
        u.dev.mode = 2 ∧ u.dev.failrec[0] = ofN (unit % 2 ^ 16 * 2 ^ 16 + 256 + 5) ∧ u.dev.failrec[1] = detail) ∧
    (m = 2 → open' 5 → ∃ u, Gives (.recover b) s u ∧ u.dev.mbBusy = false ∧
      ((u.dev.mode = 1 ∧ u.dev.mbErr = false ∧ u.dev.mbResult = 0) ∨
        (u.dev.mode = 2 ∧ u.dev.mbErr = true ∧ u.dev.mbResult = 3))) ∧
    (idle → m = 1 ∨ m = 2 → ∃ u, Gives .reset s u ∧ u.time = s.time ∧ SameMemory s u ∧
      u.dev = { Device.reset with svnUp := s.dev.svnUp } ∧ u.parts = [] ∧ u.jobs = [] ∧ u.tlb = [] ∧
      ∀ r, (u.getCtx r).phase = .dormant)

/-! ## The device -/

/-- Device control space: DOMSIZE and DEVNUM within their limits, an island's operating point within R366's bound, IPIREQ, CINV, TRCTL,
CLMST, the end of a code invalidation, and the sampling pulse at its tick, with the record it makes of what every core has latched (16
R366, R369, R370, R380, R381, R383).
That an IPI to a context that is not active is gone is log 42, which STATE an entry shows log 24, refused fields log 43, the clock while an island changes log 5. -/
def Claim.ControlSpace : Prop :=
  ∀ (s : Machine.State) (v : Word) (i c : Nat),
    let d := s.dev
    let dev (e : Device) : Machine.State := { s with dev := e }
    (let n := BitVec.ofNat 9 v.toNat
     (1 ≤ n.toNat → n.toNat ≤ 320 → d.devnum.toNat < n.toNat → Gives (.domsizeWrite v) s (dev { d with domsize := n })) ∧
     (n = 0 ∨ 320 < n.toNat ∨ n.toNat ≤ d.devnum.toNat → Gives (.domsizeWrite v) s s) ∧
     (n.toNat < d.domsize.toNat → Gives (.devnumWrite v) s (dev { d with devnum := n })) ∧
     (d.domsize.toNat ≤ n.toNat → Gives (.devnumWrite v) s s)) ∧
    (let x := s.island i
     let vc := v.toNat / 2 ^ 16 % 64
     let fr := v.toNat % 256
     let ok : Prop := x.rdy = true ∧ vc ≤ 60 ∧ 10 ≤ fr ∧ fr ≤ 600 * (450 + 5 * vc) / 5500
     (i < 128 → ok → Gives (.islcfgWrite i v) s (s.setIsland i { x with
       vcode := BitVec.ofNat 6 vc, freq := BitVec.ofNat 8 fr, prev := x.freq, rdy := false, err := x.err && !v.getLsbD 30 })) ∧
     (i < 128 → ¬ok → Gives (.islcfgWrite i v) s (s.setIsland i { x with err := true })) ∧
     Gives (.islandReady i) s (s.setIsland i { x with rdy := true })) ∧
    ipiCtx 0xFFFF = some (2898 * 8) ∧ (ipiCtx (v.extractLsb' 0 16) = none → Gives (.ipireqWrite v) s s) ∧
    (∀ r, ipiCtx (v.extractLsb' 0 16) = some r →
      ((s.getCtx r).phase = .dormant → Gives (.ipireqWrite v) s (s.setCtx r (s.getCtx r))) ∧
      ((s.getCtx r).phase ≠ .dormant → Gives (.ipireqWrite v) s (s.setCtx r { s.getCtx r with ipi := some (v.extractLsb' 32 32) }))) ∧
    (v.getLsbD 0 = true → Gives (.cinvWrite v) s (dev { d with cinvGo := true })) ∧
    (v.getLsbD 0 = false → Gives (.cinvWrite v) s s) ∧
    (∃ e, Gives (.trctlWrite v) s (dev e) ∧ e.trEn = v.getLsbD 0 ∧ e.trAct = v.getLsbD 1 ∧ e.trWrap = v.getLsbD 2 ∧
      e.trFrz = v.getLsbD 3 ∧ (v.getLsbD 4 = true → e.trOvf = false) ∧ (v.getLsbD 0 = true → e.trpos = 0) ∧
      (16 ≤ v.toNat / 2 ^ 32 % 256 → v.toNat / 2 ^ 32 % 256 ≤ 34 → e.trLog.toNat = v.toNat / 2 ^ 32 % 256)) ∧
    (c < 320 → Gives (.clmstRead c) s (s.setCluster c { s.cluster c with corr := 0 })) ∧
    (d.cinvGo = false → Gives .codeInvalidateDone s s) ∧
    (d.cinvGo = true → ∃ u, Gives .codeInvalidateDone s u ∧ u.dev.cinvGo = false ∧ SameMemory s u ∧
      u.ctx = { s.ctx with fetched := none } ∧ (∀ r, (u.getCtx r).fetched = none) ∧ ∀ k, (u.getCore k).l1i = []) ∧
    (s.time ≠ d.pulse → Gives .samplePulse s s) ∧
    (s.time = d.pulse →
      let next : Word := if d.pulsePer = 0 then BitVec.allOnes 64 else d.pulse + ofN (max 10000 d.pulsePer.toNat)
      let core (k : Nat) : Byte × List Word := (find s.latched k).getD (s.latchOf k)
      let entries := (List.range 2898).flatMap fun k => (core k).2
      let bytes := leBytes 8 ((24 + 2904 + 8 * entries.length) * 256 + 2) ++ leBytes 8 s.time.toNat ++ leBytes 8 2898 ++
        (List.range 2898).map (fun k => (core k).1) ++ List.replicate 6 0 ++ entries.flatMap fun e => leBytes 8 e.toNat
      (s.tracing = false → ∃ f, Gives .samplePulse s { s with dev := { d with pulse := next }, latched := [], free := f }) ∧
      (RingTakes s bytes.length → ∃ u, Gives .samplePulse s u ∧ u.dev.pulse = next ∧ u.ctx = s.ctx ∧ Recorded s u bytes)) ∧
    (∀ k < 2898, let x := s.latchOf k
      let live := ((List.range 8).map (8 * k + ·)).filter fun r => (s.getCtx r).phase != .dormant
      (∀ j < 8, x.1.getLsbD j = ((s.getCtx (8 * k + j)).phase != .dormant)) ∧ x.2.length = live.length ∧
      (∀ e ∈ x.2, e.toNat < 2 ^ 53 ∧ e.toNat % 8 ≤ 6) ∧
      ((∀ r ∈ live, (s.getCtx r).wd.wdm = false) →
        x.2.map (fun e => e.extractLsb' 3 50) = live.map fun r => (s.getCtx r).pc.extractLsb' 2 50))

/-- Droop, monitors and the protection and power of CLM: an alarm stretches an island but 31, one in a stretch counts as merged, and
one per cycle at most; corrections are cleared every 2^20 cycles; a bank with 16 is marked, once, and two of a cluster at most; a region
wakes and powers down; a monitor whose invariant is false fires, with its record and its action (10 R257 to R262, 16 R365, R368, R378
to R380).
Codewords as differences are log 45, monitors of undefined sources log 21, the cycle in progress log 5. -/
def Claim.DroopAndClm : Prop :=
  ∀ (s : Machine.State) (i k bank n : Nat) (q : BitVec 3),
    let x := s.island i
    let cl := s.cluster i
    let r := cl.region n
    (x.acted = [] → s.clock < x.now + x.period →
      let y := x.settled
      (x.fell ≠ 0 → Gives (.droopAlarm i) s s) ∧
      (x.fell = 0 → y.stretch = 0 → Gives (.droopAlarm i) s (s.setIsland i { y with
        cnt := BitVec.ofNat 16 (min (x.cnt0.toNat + 1) 0xFFFF), mrg := x.mrg0, ltime := (s.timeAt i).extractLsb' 0 32, fell := 1
        stretch := if i = 31 then 0 else 7, window := none })) ∧
      (x.fell = 0 → y.stretch ≠ 0 → Gives (.droopAlarm i) s
        (s.setIsland i { y with cnt := x.cnt0, mrg := BitVec.ofNat 8 (min (x.mrg0.toNat + 1) 0xFF), fell := 2 }))) ∧
    (x.stretch = 1 → Gives (.droopStretchEnd i) s (s.setIsland i { x with stretch := 0, window := some 0 })) ∧
    (x.window = some 64 → Gives (.halvingWindowEnd i) s (s.setIsland i { x with window := none })) ∧
    (x.cycle.toNat % 2 ^ 20 = 0 → ∃ u, Gives (.clmCorrClear i) s u ∧ SameMemory s u ∧ u.ctx = s.ctx ∧
      ∀ c < 338, unitIsland c = i → (u.cluster c).counts = []) ∧
    (x.cycle.toNat % 2 ^ 20 ≠ 0 → Gives (.clmCorrClear i) s s) ∧
    (i < 320 → 16 ≤ look 0 cl.counts bank → bank < 66 → cl.fb0 = 0x7F → cl.fb1 = 0x7F →
      ∃ u, Gives (.clmBankMark i bank) s u ∧ SameMemory s u ∧ (u.cluster i).fb0 = BitVec.ofNat 7 bank ∧
        (u.cluster i).fb1 = 0x7F ∧ (u.getCore (i * 9 + 8)).ecc = (s.getCore (i * 9 + 8)).ecc ++ [ofN (i * 256 + bank)]) ∧
    (i < 320 → 16 ≤ look 0 cl.counts bank → bank < 66 → cl.fb0 ≠ 0x7F → cl.fb0.toNat ≠ bank → cl.fb1 = 0x7F →
      ∃ u, Gives (.clmBankMark i bank) s u ∧ SameMemory s u ∧ (u.cluster i).fb0 = cl.fb0 ∧ (u.cluster i).fb1 = BitVec.ofNat 7 bank ∧
        (u.getCore (i * 9 + 8)).ecc = (s.getCore (i * 9 + 8)).ecc ++ [ofN (i * 256 + 128 + bank)]) ∧
    (bank ∈ cl.failed ∨ cl.failed.length = 2 → Gives (.clmBankMark i bank) s s) ∧
    (look 0 cl.counts bank < 16 → Gives (.clmBankMark i bank) s s) ∧
    (i < 320 → n < 16 → r.waking = true → s.late = [] →
      Gives (.regionWakeDone i n) s (s.setCluster i (cl.setRegion n { r with on := true, waking := false }))) ∧
    (i < 320 → n < 15 → r.on = true → r.managed = true → r.holders = [] → r.tag = 0 →
      ∃ u, Gives (.regionPowerDown i n) s u ∧ ((u.cluster i).region n).on = false ∧ ∀ a, Mem.get u.mem a =
        if 0x40000000000 + i * 0x200000 + n * 0x20000 ≤ a ∧ a < 0x40000000000 + i * 0x200000 + (n + 1) * 0x20000 then 0
        else Mem.get s.mem a) ∧
    (r.holders ≠ [] ∨ r.tag ≠ 0 ∨ r.managed = false → Gives (.regionPowerDown i n) s s) ∧
    (let m := (s.getCore k).mon[q.toNat]'(q.isLt)
     let holds (a : Int) : Prop :=
       let b := (m.extractLsb' 32 32).toInt
       match (m.extractLsb' 9 3).toNat with
       | 0 => a = b
       | 1 => a ≠ b
       | 2 => a < b
       | 3 => a ≤ b
       | 4 => b < a
       | _ => b ≤ a
     let code := (m.extractLsb' 28 4).toNat
     let arg := (m.extractLsb' 12 16).toNat
     let c := s.getCore k
     let source : Option Int :=
       if code = 1 then some c.inq0.length else if code = 2 then some c.inq1.length else if code = 3 then some (c.freeSlots false)
       else if code = 4 then some (c.freeSlots true) else if code = 5 then some c.deque.length
       else if code = 7 ∧ isMesh k = true then
         some ((BitVec.ofNat 32 (leNat (Mem.bytes s.mem (0x40000000000 + clusterOf k * 0x200000 + 8 * arg) 4))).toInt)
       else if code = 8 then some (if c.pmcovf.getLsbD arg then 1 else 0) else none
     let bytes (a : Int) : List Byte := leBytes 8 (24 * 256 + 3) ++ leBytes 8 s.time.toNat ++
       leBytes 8 ((BitVec.ofInt 32 a).toNat * 2 ^ 32 + q.toNat * 2 ^ 16 + (cidOf (8 * k)).toNat)
     let act := (m.extractLsb' 7 2).toNat
     ∀ a, source = some a → m.getLsbD 0 = true → m.getLsbD 1 = false → (code = 7 → s.powered (monWord k m) = true) →
       (holds a → Gives (.monitorFire k q) s s) ∧
       (¬holds a → ∃ u, Gives (.monitorFire k q) s u ∧ ((u.getCore k).mon[q.toNat]'(q.isLt)) = m ||| 2 ∧
         (s.tracing = false → SameMemory s u) ∧ (RingTakes s 24 → Recorded s u (bytes a)) ∧
         (act = 1 → u.dev.trFrz = true) ∧ (act ≠ 1 → u.dev.trFrz = s.dev.trFrz) ∧
         (act = 2 → ∀ r ∈ ctxsOf k, (s.getCtx r).phase ≠ .dormant →
           (u.getCtx r).debug = (s.getCtx r).debug ||| ((1 : BitVec 8) <<< q.toNat)) ∧
         (act ≠ 2 → ∀ r, u.getCtx r = s.getCtx r) ∧
         (∀ i p, act = 3 → s.partOf k = some (i, p) → p.idle = false → p.asid ∈ u.dev.dstops) ∧
         (act ≠ 3 → u.dev.dstops = s.dev.dstops)))

/-- The boot leaves the device operating when every check passes and no unit fails, with the DOMSIZE and DEVNUM that the firmware writes,
and else in Safe Mode, with the failing step, its CODE, the unit, the detail and TIME in the failure record (16 R371 to R373). An object
whose checks all pass is in memory, patched,
before its status word says so, no core keeps a copy of its words or a fetched instruction, its places of CLM are kept from later loads,
and its global symbols are exported; one that
fails leaves only its status (19 R397, R399).
Digests and signatures are log 12, the firmware's choices log 41, a load's places log 44. -/
def Claim.BootAndLoad : Prop :=
  ∀ (s : Machine.State) (b : BootResult) (r : LoadReq) (p : Part),
    (s.dev.mode = 0 → ∃ u, Gives (.powerOn b) s u ∧ u.ctx = s.ctx ∧ u.time = s.time ∧
      let fails (stage code unit : Nat) : Prop :=
        u.dev.mode = 2 ∧ u.dev.failrec[0] = ofN (unit % 2 ^ 16 * 2 ^ 16 + code * 256 + stage) ∧ u.dev.failrec[2] = s.time
      match manifestFault s.rollback Config.flash, s.bootFault b with
      | some (step, code, d), _ => fails step code 0xFFFF ∧ ∀ i, d = some i → u.dev.failrec[1] = ofN i
      | none, some (stage, unit, detail) => fails stage 1 unit ∧ u.dev.failrec[1] = detail
      | none, none => u.dev.mode = 1 ∧ (1 ≤ b.domsize → b.domsize ≤ 320 → b.devnum < b.domsize →
          u.dev.domsize.toNat = b.domsize ∧ u.dev.devnum.toNat = b.devnum)) ∧
    (s.dev.mode ≠ 0 → Gives (.powerOn b) s s) ∧
    (s.part r.part = some p → r.status % 8 = 0 → isHbmKey r.status = true → r.asd % 1024 = 0 → inHbm r.asd 1024 = true →
      let g := girad r.image
      let asid := s.asidAt r.asd
      let at' := if r.base = 0 then fieldOf r.image 0x10 8 else r.base.toNat
      let checks (ext : List Symbol) : Except LoadFail (List Patch) := s.loadChecks g (s.loadSpace r) at' ext
      let ext := s.exports.filter (·.asid == asid)
      let failed (e : LoadFail) : Prop := ∃ u, Gives (.objectLoad r) s u ∧ u.ctx = s.ctx ∧ u.tlb = s.tlb ∧
        u.exports = s.exports ∧ Stored s u (cellsOf r.status 8 (e.1 + e.2 * 256))
      (∀ e, headerCheck r.image = .error e → failed e) ∧
      (∀ x, headerCheck r.image = .ok x →
        (∀ e, checks ext = .error e → failed e) ∧
        (∀ ps, checks ext = .ok ps → s.loadMem g p r at' ext ps = none → failed (12, noIndex)) ∧
        (∀ ps m, checks ext = .ok ps →
          s.loadMem g p r at' ext ps = some m → ∃ u, Gives (.objectLoad r) s u ∧ u.ctx = { s.ctx with fetched := none } ∧
            ⟨r.asd, g.states p r.clm⟩ ∈ u.loads ∧ (∀ k, (u.getCore k).l1i = [] ∧ ∀ e ∈ (u.getCore k).l1, 8 * e.1 < r.pa ∨ r.pa + g.size ≤ 8 * e.1) ∧
            (∀ y ∈ g.syms, ∀ v, y.bind = 1 → g.symVal at' y ext = some v → ⟨asid, y.name, v⟩ ∈ u.exports) ∧
            (Memory.wf m = true → ∀ a, Mem.get u.mem a =
              (cellsGet (cellsOf r.status 8 (noIndex * 256)) a).getD (Mem.get m a)))))

/-! ## Statements of several parts -/

/-- Counting, field and mask instructions, conditional branches and jumps. -/
def Obligations.BitMaskBranchResults : Prop :=
  Claim.BitCounts ∧ Claim.BitFields ∧ Claim.MaskResults ∧ Claim.Branches ∧ Claim.Jumps

/-- Scalar loads and stores go out, and loads return their data, those the context's own stores give included. -/
def Obligations.ScalarAccesses : Prop := Claim.LoadIssue ∧ Claim.StoreIssue ∧ Claim.LoadReturns ∧ Claim.OwnStores

/-- Enabled floating-point flags trap. -/
def Obligations.FlagTraps : Prop := Claim.FpxTraps ∧ Claim.VectorFpx

/-- Vector compares, and single lanes in and out. -/
def Obligations.VectorSingles : Prop := Claim.VectorCompare ∧ Claim.VectorInsertExtract

/-- Streams are set up, started, stopped and read. -/
def Obligations.StreamSetup : Prop := Claim.StreamConfig ∧ Claim.StreamControl

/-- Replays start and run. -/
def Obligations.Replays : Prop := Claim.ReplayStarts ∧ Claim.ReplayBody ∧ Claim.ReplayEnds

/-- The claim of the matrix unit. -/
def Obligations.TileClaims : Prop := Claim.TileGates ∧ Claim.TileClaim

/-- The instructions of the matrix unit. -/
def Obligations.TileInstructions : Prop := Claim.TileIssue ∧ Claim.TileMoves

/-- Plane instructions go out. -/
def Obligations.PlaneOperations : Prop := Claim.PlaneMoves ∧ Claim.PlaneNear

/-- Task, join and tile records. -/
def Obligations.TaskRecords : Prop := Claim.Forks ∧ Claim.JoinRecords ∧ Claim.TilePuts

/-- YIELD, GQNEXT, QRND and collection rounds. -/
def Obligations.TaskQueries : Prop := Claim.TaskStatus ∧ Claim.CollectionRounds

/-- A context ends. -/
def Obligations.ContextEnds : Prop := Claim.Halts ∧ Claim.JoinEnds

/-- Tasks start and are stolen. -/
def Obligations.Activations : Prop := Claim.TaskStarts ∧ Claim.Steals

/-- Messages are sent. -/
def Obligations.MessagesOut : Prop := Claim.Sends ∧ Claim.SendsDescriptor

/-- Barriers, fences and releases. -/
def Obligations.Synchronization : Prop := Claim.Barriers ∧ Claim.Ordering ∧ Claim.ReleasePerforms

/-- Engine commands start and end. -/
def Obligations.Engines : Prop := Claim.EngineIssue ∧ Claim.EngineEnds

/-- Traps are taken, those of fetch included, and returned from. -/
def Obligations.Exceptions : Prop := Claim.TrapEntry ∧ Claim.FetchFails ∧ Claim.EretReturns

/-- Control and status registers are read and written. -/
def Obligations.CsrAccesses : Prop := Claim.CsrInstructions ∧ Claim.CsrHoldWrites ∧ Claim.SpecialRegisters

/-- Partitions switch, and contexts are saved and restored. -/
def Obligations.Partitions : Prop := Claim.GangSwitches ∧ Claim.SaveRestores

/-- The host's queues and accesses. -/
def Obligations.HostQueues : Prop := Claim.HostCommands ∧ Claim.HostAccesses

/-- The mailbox, the boot and object loads. -/
def Obligations.MailboxAndBoot : Prop := Claim.Mailbox ∧ Claim.BootAndLoad

/-- Device control space, droop, monitors and CLM. -/
def Obligations.DeviceRegisters : Prop := Claim.ControlSpace ∧ Claim.DroopAndClm
end

