-- ==== Sys2Proof/Laws/Encoding.lean ====
section
/-! SUPPORT. The bit-field layouts of the encoding: cutting a granule undoes putting it together, and every code of a named
field decodes to the name it encodes. -/

namespace Sys2Proof

/-! ## Fields of a concatenation -/

theorem extract_lo {n m k j : Nat} (a : BitVec n) (b : BitVec m) (h : k + j ≤ m) :
    (a ++ b).extractLsb' k j = b.extractLsb' k j := by
  ext i hi
  simp only [BitVec.getElem_extractLsb', BitVec.getLsbD_append]
  rw [if_pos (by omega)]

theorem extract_hi {n m k j : Nat} (a : BitVec n) (b : BitVec m) (h : m ≤ k) :
    (a ++ b).extractLsb' k j = a.extractLsb' (k - m) j := by
  ext i hi
  simp only [BitVec.getElem_extractLsb', BitVec.getLsbD_append]
  rw [if_neg (by simp; omega)]
  congr 1
  omega

@[simp] theorem extract_all {n : Nat} (a : BitVec n) : a.extractLsb' 0 n = a := by
  ext i hi
  simp

@[simp] theorem extract_append_hi {n m : Nat} (a : BitVec n) (b : BitVec m) : (a ++ b).extractLsb' m n = a := by
  rw [extract_hi a b (Nat.le_refl m)]
  simp

@[simp] theorem extract_append_lo {n m : Nat} (a : BitVec n) (b : BitVec m) : (a ++ b).extractLsb' 0 m = b := by
  rw [extract_lo a b (by omega)]
  simp

/-! ## Granule layouts (02 R43 to R49) -/

@[simp] theorem Lo.unpack_pack (l : Lo) : Lo.unpack l.pack = l := by
  simp only [Lo.unpack, Lo.pack]
  congr 1
  · exact (extract_hi (n := 30) (m := 2) _ _ (by decide)).trans <| (extract_hi (n := 23) (m := 7) _ _ (by decide)).trans <| (extract_hi (n := 20) (m := 3) _ _ (by decide)).trans <| (extract_hi (n := 15) (m := 5) _ _ (by decide)).trans <| (extract_hi (n := 10) (m := 5) _ _ (by decide)).trans <| extract_append_hi (n := 5) (m := 5) _ _
  · exact (extract_hi (n := 30) (m := 2) _ _ (by decide)).trans <| (extract_hi (n := 23) (m := 7) _ _ (by decide)).trans <| (extract_hi (n := 20) (m := 3) _ _ (by decide)).trans <| (extract_hi (n := 15) (m := 5) _ _ (by decide)).trans <| (extract_hi (n := 10) (m := 5) _ _ (by decide)).trans <| extract_append_lo (n := 5) (m := 5) _ _
  · exact (extract_hi (n := 30) (m := 2) _ _ (by decide)).trans <| (extract_hi (n := 23) (m := 7) _ _ (by decide)).trans <| (extract_hi (n := 20) (m := 3) _ _ (by decide)).trans <| (extract_hi (n := 15) (m := 5) _ _ (by decide)).trans <| extract_append_lo (n := 10) (m := 5) _ _
  · exact (extract_hi (n := 30) (m := 2) _ _ (by decide)).trans <| (extract_hi (n := 23) (m := 7) _ _ (by decide)).trans <| (extract_hi (n := 20) (m := 3) _ _ (by decide)).trans <| extract_append_lo (n := 15) (m := 5) _ _
  · exact (extract_hi (n := 30) (m := 2) _ _ (by decide)).trans <| (extract_hi (n := 23) (m := 7) _ _ (by decide)).trans <| extract_append_lo (n := 20) (m := 3) _ _
  · exact (extract_hi (n := 30) (m := 2) _ _ (by decide)).trans <| extract_append_lo (n := 23) (m := 7) _ _
  · exact extract_append_lo (n := 30) (m := 2) _ _

@[simp] theorem HiR.unpack_pack (h : HiR) : HiR.unpack h.pack = h := by
  simp only [HiR.unpack, HiR.pack]
  congr 1
  · exact (extract_hi (n := 29) (m := 3) _ _ (by decide)).trans <| (extract_hi (n := 28) (m := 1) _ _ (by decide)).trans <| (extract_hi (n := 25) (m := 3) _ _ (by decide)).trans <| (extract_hi (n := 24) (m := 1) _ _ (by decide)).trans <| (extract_hi (n := 23) (m := 1) _ _ (by decide)).trans <| (extract_hi (n := 22) (m := 1) _ _ (by decide)).trans <| (extract_hi (n := 21) (m := 1) _ _ (by decide)).trans <| (extract_hi (n := 15) (m := 6) _ _ (by decide)).trans <| extract_append_hi (n := 12) (m := 3) _ _
  · exact (extract_hi (n := 29) (m := 3) _ _ (by decide)).trans <| (extract_hi (n := 28) (m := 1) _ _ (by decide)).trans <| (extract_hi (n := 25) (m := 3) _ _ (by decide)).trans <| (extract_hi (n := 24) (m := 1) _ _ (by decide)).trans <| (extract_hi (n := 23) (m := 1) _ _ (by decide)).trans <| (extract_hi (n := 22) (m := 1) _ _ (by decide)).trans <| (extract_hi (n := 21) (m := 1) _ _ (by decide)).trans <| (extract_hi (n := 15) (m := 6) _ _ (by decide)).trans <| extract_append_lo (n := 12) (m := 3) _ _
  · exact (extract_hi (n := 29) (m := 3) _ _ (by decide)).trans <| (extract_hi (n := 28) (m := 1) _ _ (by decide)).trans <| (extract_hi (n := 25) (m := 3) _ _ (by decide)).trans <| (extract_hi (n := 24) (m := 1) _ _ (by decide)).trans <| (extract_hi (n := 23) (m := 1) _ _ (by decide)).trans <| (extract_hi (n := 22) (m := 1) _ _ (by decide)).trans <| (extract_hi (n := 21) (m := 1) _ _ (by decide)).trans <| extract_append_lo (n := 15) (m := 6) _ _
  · exact (extract_hi (n := 29) (m := 3) _ _ (by decide)).trans <| (extract_hi (n := 28) (m := 1) _ _ (by decide)).trans <| (extract_hi (n := 25) (m := 3) _ _ (by decide)).trans <| (extract_hi (n := 24) (m := 1) _ _ (by decide)).trans <| (extract_hi (n := 23) (m := 1) _ _ (by decide)).trans <| (extract_hi (n := 22) (m := 1) _ _ (by decide)).trans <| extract_append_lo (n := 21) (m := 1) _ _
  · exact (extract_hi (n := 29) (m := 3) _ _ (by decide)).trans <| (extract_hi (n := 28) (m := 1) _ _ (by decide)).trans <| (extract_hi (n := 25) (m := 3) _ _ (by decide)).trans <| (extract_hi (n := 24) (m := 1) _ _ (by decide)).trans <| (extract_hi (n := 23) (m := 1) _ _ (by decide)).trans <| extract_append_lo (n := 22) (m := 1) _ _
  · exact (extract_hi (n := 29) (m := 3) _ _ (by decide)).trans <| (extract_hi (n := 28) (m := 1) _ _ (by decide)).trans <| (extract_hi (n := 25) (m := 3) _ _ (by decide)).trans <| (extract_hi (n := 24) (m := 1) _ _ (by decide)).trans <| extract_append_lo (n := 23) (m := 1) _ _
  · exact (extract_hi (n := 29) (m := 3) _ _ (by decide)).trans <| (extract_hi (n := 28) (m := 1) _ _ (by decide)).trans <| (extract_hi (n := 25) (m := 3) _ _ (by decide)).trans <| extract_append_lo (n := 24) (m := 1) _ _
  · exact (extract_hi (n := 29) (m := 3) _ _ (by decide)).trans <| (extract_hi (n := 28) (m := 1) _ _ (by decide)).trans <| extract_append_lo (n := 25) (m := 3) _ _
  · exact (extract_hi (n := 29) (m := 3) _ _ (by decide)).trans <| extract_append_lo (n := 28) (m := 1) _ _
  · exact extract_append_lo (n := 29) (m := 3) _ _

@[simp] theorem HiI.unpack_pack (h : HiI) : HiI.unpack h.pack = h := by
  simp only [HiI.unpack, HiI.pack]
  congr 1
  · exact extract_append_hi (n := 12) (m := 20) _ _
  · exact extract_append_lo (n := 12) (m := 20) _ _

@[simp] theorem HiU.unpack_pack (h : HiU) : HiU.unpack h.pack = h := by
  simp only [HiU.unpack, HiU.pack]
  congr 1
  · exact extract_append_hi (n := 20) (m := 12) _ _
  · exact extract_append_lo (n := 20) (m := 12) _ _

@[simp] theorem HiM.unpack_pack (h : HiM) : HiM.unpack h.pack = h := by
  simp only [HiM.unpack, HiM.pack]
  congr 1
  · exact (extract_hi (n := 29) (m := 3) _ _ (by decide)).trans <| (extract_hi (n := 28) (m := 1) _ _ (by decide)).trans <| (extract_hi (n := 24) (m := 4) _ _ (by decide)).trans <| (extract_hi (n := 23) (m := 1) _ _ (by decide)).trans <| (extract_hi (n := 20) (m := 3) _ _ (by decide)).trans <| (extract_hi (n := 19) (m := 1) _ _ (by decide)).trans <| (extract_hi (n := 16) (m := 3) _ _ (by decide)).trans <| extract_append_hi (n := 12) (m := 4) _ _
  · exact (extract_hi (n := 29) (m := 3) _ _ (by decide)).trans <| (extract_hi (n := 28) (m := 1) _ _ (by decide)).trans <| (extract_hi (n := 24) (m := 4) _ _ (by decide)).trans <| (extract_hi (n := 23) (m := 1) _ _ (by decide)).trans <| (extract_hi (n := 20) (m := 3) _ _ (by decide)).trans <| (extract_hi (n := 19) (m := 1) _ _ (by decide)).trans <| (extract_hi (n := 16) (m := 3) _ _ (by decide)).trans <| extract_append_lo (n := 12) (m := 4) _ _
  · exact (extract_hi (n := 29) (m := 3) _ _ (by decide)).trans <| (extract_hi (n := 28) (m := 1) _ _ (by decide)).trans <| (extract_hi (n := 24) (m := 4) _ _ (by decide)).trans <| (extract_hi (n := 23) (m := 1) _ _ (by decide)).trans <| (extract_hi (n := 20) (m := 3) _ _ (by decide)).trans <| (extract_hi (n := 19) (m := 1) _ _ (by decide)).trans <| extract_append_lo (n := 16) (m := 3) _ _
  · exact (extract_hi (n := 29) (m := 3) _ _ (by decide)).trans <| (extract_hi (n := 28) (m := 1) _ _ (by decide)).trans <| (extract_hi (n := 24) (m := 4) _ _ (by decide)).trans <| (extract_hi (n := 23) (m := 1) _ _ (by decide)).trans <| (extract_hi (n := 20) (m := 3) _ _ (by decide)).trans <| extract_append_lo (n := 19) (m := 1) _ _
  · exact (extract_hi (n := 29) (m := 3) _ _ (by decide)).trans <| (extract_hi (n := 28) (m := 1) _ _ (by decide)).trans <| (extract_hi (n := 24) (m := 4) _ _ (by decide)).trans <| (extract_hi (n := 23) (m := 1) _ _ (by decide)).trans <| extract_append_lo (n := 20) (m := 3) _ _
  · exact (extract_hi (n := 29) (m := 3) _ _ (by decide)).trans <| (extract_hi (n := 28) (m := 1) _ _ (by decide)).trans <| (extract_hi (n := 24) (m := 4) _ _ (by decide)).trans <| extract_append_lo (n := 23) (m := 1) _ _
  · exact (extract_hi (n := 29) (m := 3) _ _ (by decide)).trans <| (extract_hi (n := 28) (m := 1) _ _ (by decide)).trans <| extract_append_lo (n := 24) (m := 4) _ _
  · exact (extract_hi (n := 29) (m := 3) _ _ (by decide)).trans <| extract_append_lo (n := 28) (m := 1) _ _
  · exact extract_append_lo (n := 29) (m := 3) _ _

@[simp] theorem HiT.unpack_pack (h : HiT) : HiT.unpack h.pack = h := by
  simp only [HiT.unpack, HiT.pack]
  congr 1
  · exact (extract_hi (n := 29) (m := 3) _ _ (by decide)).trans <| (extract_hi (n := 28) (m := 1) _ _ (by decide)).trans <| (extract_hi (n := 27) (m := 1) _ _ (by decide)).trans <| (extract_hi (n := 24) (m := 3) _ _ (by decide)).trans <| (extract_hi (n := 21) (m := 3) _ _ (by decide)).trans <| (extract_hi (n := 18) (m := 3) _ _ (by decide)).trans <| (extract_hi (n := 15) (m := 3) _ _ (by decide)).trans <| extract_append_hi (n := 12) (m := 3) _ _
  · exact (extract_hi (n := 29) (m := 3) _ _ (by decide)).trans <| (extract_hi (n := 28) (m := 1) _ _ (by decide)).trans <| (extract_hi (n := 27) (m := 1) _ _ (by decide)).trans <| (extract_hi (n := 24) (m := 3) _ _ (by decide)).trans <| (extract_hi (n := 21) (m := 3) _ _ (by decide)).trans <| (extract_hi (n := 18) (m := 3) _ _ (by decide)).trans <| (extract_hi (n := 15) (m := 3) _ _ (by decide)).trans <| extract_append_lo (n := 12) (m := 3) _ _
  · exact (extract_hi (n := 29) (m := 3) _ _ (by decide)).trans <| (extract_hi (n := 28) (m := 1) _ _ (by decide)).trans <| (extract_hi (n := 27) (m := 1) _ _ (by decide)).trans <| (extract_hi (n := 24) (m := 3) _ _ (by decide)).trans <| (extract_hi (n := 21) (m := 3) _ _ (by decide)).trans <| (extract_hi (n := 18) (m := 3) _ _ (by decide)).trans <| extract_append_lo (n := 15) (m := 3) _ _
  · exact (extract_hi (n := 29) (m := 3) _ _ (by decide)).trans <| (extract_hi (n := 28) (m := 1) _ _ (by decide)).trans <| (extract_hi (n := 27) (m := 1) _ _ (by decide)).trans <| (extract_hi (n := 24) (m := 3) _ _ (by decide)).trans <| (extract_hi (n := 21) (m := 3) _ _ (by decide)).trans <| extract_append_lo (n := 18) (m := 3) _ _
  · exact (extract_hi (n := 29) (m := 3) _ _ (by decide)).trans <| (extract_hi (n := 28) (m := 1) _ _ (by decide)).trans <| (extract_hi (n := 27) (m := 1) _ _ (by decide)).trans <| (extract_hi (n := 24) (m := 3) _ _ (by decide)).trans <| extract_append_lo (n := 21) (m := 3) _ _
  · exact (extract_hi (n := 29) (m := 3) _ _ (by decide)).trans <| (extract_hi (n := 28) (m := 1) _ _ (by decide)).trans <| (extract_hi (n := 27) (m := 1) _ _ (by decide)).trans <| extract_append_lo (n := 24) (m := 3) _ _
  · exact (extract_hi (n := 29) (m := 3) _ _ (by decide)).trans <| (extract_hi (n := 28) (m := 1) _ _ (by decide)).trans <| extract_append_lo (n := 27) (m := 1) _ _
  · exact (extract_hi (n := 29) (m := 3) _ _ (by decide)).trans <| extract_append_lo (n := 28) (m := 1) _ _
  · exact extract_append_lo (n := 29) (m := 3) _ _

@[simp] theorem HiS.unpack_pack (h : HiS) : HiS.unpack h.pack = h := by
  simp only [HiS.unpack, HiS.pack]
  congr 1
  · exact (extract_hi (n := 28) (m := 4) _ _ (by decide)).trans <| (extract_hi (n := 24) (m := 4) _ _ (by decide)).trans <| (extract_hi (n := 20) (m := 4) _ _ (by decide)).trans <| (extract_hi (n := 16) (m := 4) _ _ (by decide)).trans <| (extract_hi (n := 14) (m := 2) _ _ (by decide)).trans <| (extract_hi (n := 13) (m := 1) _ _ (by decide)).trans <| extract_append_hi (n := 12) (m := 1) _ _
  · exact (extract_hi (n := 28) (m := 4) _ _ (by decide)).trans <| (extract_hi (n := 24) (m := 4) _ _ (by decide)).trans <| (extract_hi (n := 20) (m := 4) _ _ (by decide)).trans <| (extract_hi (n := 16) (m := 4) _ _ (by decide)).trans <| (extract_hi (n := 14) (m := 2) _ _ (by decide)).trans <| (extract_hi (n := 13) (m := 1) _ _ (by decide)).trans <| extract_append_lo (n := 12) (m := 1) _ _
  · exact (extract_hi (n := 28) (m := 4) _ _ (by decide)).trans <| (extract_hi (n := 24) (m := 4) _ _ (by decide)).trans <| (extract_hi (n := 20) (m := 4) _ _ (by decide)).trans <| (extract_hi (n := 16) (m := 4) _ _ (by decide)).trans <| (extract_hi (n := 14) (m := 2) _ _ (by decide)).trans <| extract_append_lo (n := 13) (m := 1) _ _
  · exact (extract_hi (n := 28) (m := 4) _ _ (by decide)).trans <| (extract_hi (n := 24) (m := 4) _ _ (by decide)).trans <| (extract_hi (n := 20) (m := 4) _ _ (by decide)).trans <| (extract_hi (n := 16) (m := 4) _ _ (by decide)).trans <| extract_append_lo (n := 14) (m := 2) _ _
  · exact (extract_hi (n := 28) (m := 4) _ _ (by decide)).trans <| (extract_hi (n := 24) (m := 4) _ _ (by decide)).trans <| (extract_hi (n := 20) (m := 4) _ _ (by decide)).trans <| extract_append_lo (n := 16) (m := 4) _ _
  · exact (extract_hi (n := 28) (m := 4) _ _ (by decide)).trans <| (extract_hi (n := 24) (m := 4) _ _ (by decide)).trans <| extract_append_lo (n := 20) (m := 4) _ _
  · exact (extract_hi (n := 28) (m := 4) _ _ (by decide)).trans <| extract_append_lo (n := 24) (m := 4) _ _
  · exact extract_append_lo (n := 28) (m := 4) _ _

@[simp] theorem HiC.unpack_pack (h : HiC) : HiC.unpack h.pack = h := by
  simp only [HiC.unpack, HiC.pack]
  congr 1
  · exact extract_append_hi (n := 8) (m := 24) _ _
  · exact extract_append_lo (n := 8) (m := 24) _ _

@[simp] theorem HiL.unpack_pack (h : HiL) : HiL.unpack h.pack = h := by
  simp only [HiL.unpack, HiL.pack]
  congr 1
  · exact extract_append_hi (n := 31) (m := 1) _ _
  · exact extract_append_lo (n := 31) (m := 1) _ _

/-! ## Codes -/

@[simp] theorem bit1_unbit1 (b : Bool) : bit1 (unbit1 b) = b := by cases b <;> rfl
@[simp] theorem unbit1_false : unbit1 false = 0#1 := rfl
@[simp] theorem unbit1_true : unbit1 true = 1#1 := rfl
@[simp] theorem Frm.decode_encode (f : Frm) : Frm.decode f.encode = some f := by cases f <;> rfl
@[simp] theorem Ew.decode_encode (e : Ew) : Ew.decode e.encode = some e := by cases e <;> rfl
@[simp] theorem MemW.decode_encode (x : MemW) : MemW.decode x.encode = some x := by cases x <;> rfl
@[simp] theorem AmoOp.decode_encode (o : AmoOp) : AmoOp.decode o.encode = some o := by cases o <;> rfl
@[simp] theorem MemOrd.decode_encode (o : MemOrd) : MemOrd.decode o.encode = some o := by cases o <;> rfl
@[simp] theorem TFmt.decode_encode (f : TFmt) : TFmt.decode f.encode = some f := by cases f <;> rfl
@[simp] theorem VCond.decode_encode (c : VCond) : VCond.decode c.encode = some c := by cases c <;> rfl
@[simp] theorem SgnMode.decode_encode (m : SgnMode) : SgnMode.decode m.encode = some m := by cases m <;> rfl
@[simp] theorem FCvt.decode_encode (c : FCvt) : FCvt.decode c.encode = some c := by cases c <;> rfl
@[simp] theorem Path.decode_encode (p : Path) : Path.decode p.encode = some p := by cases p <;> rfl
@[simp] theorem fmtOf_encode (f : Fmt) : fmtOf f.encode = some f := by cases f <;> rfl

@[simp] theorem mField_mEnc (m : MReg) : mField (mEnc m) = m := by revert m; decide
@[simp] theorem mOk_mEnc (m : MReg) : mOk (mEnc m) = true := by revert m; decide

@[simp] theorem TSel.decode_encode (t : TSel) : TSel.decode t.encode = some t := by
  cases t with
  | row r h => revert r; cases h <;> decide
  | rs h => cases h <;> decide
  | ts => decide

/-! ## Two fields in an immediate of 12 bits -/

@[simp] theorem imm_hi_6 (a : BitVec 6) (b : BitVec 6) : BitVec.extractLsb' 6 6 (a ++ b : BitVec 12) = a :=
  extract_append_hi (n := 6) (m := 6) a b

@[simp] theorem imm_lo_6 (a : BitVec 6) (b : BitVec 6) : BitVec.extractLsb' 0 6 (a ++ b : BitVec 12) = b :=
  extract_append_lo (n := 6) (m := 6) a b

@[simp] theorem imm_hi_8 (a : BitVec 8) (b : BitVec 4) : BitVec.extractLsb' 4 8 (a ++ b : BitVec 12) = a :=
  extract_append_hi (n := 8) (m := 4) a b

@[simp] theorem imm_lo_4 (a : BitVec 8) (b : BitVec 4) : BitVec.extractLsb' 0 4 (a ++ b : BitVec 12) = b :=
  extract_append_lo (n := 8) (m := 4) a b

@[simp] theorem imm_hi_7 (a : BitVec 7) (b : BitVec 5) : BitVec.extractLsb' 5 7 (a ++ b : BitVec 12) = a :=
  extract_append_hi (n := 7) (m := 5) a b

@[simp] theorem imm_lo_5 (a : BitVec 7) (b : BitVec 5) : BitVec.extractLsb' 0 5 (a ++ b : BitVec 12) = b :=
  extract_append_lo (n := 7) (m := 5) a b

@[simp] theorem imm_hi_10 (a : BitVec 10) (b : BitVec 2) : BitVec.extractLsb' 2 10 (a ++ b : BitVec 12) = a :=
  extract_append_hi (n := 10) (m := 2) a b

@[simp] theorem imm_lo_2 (a : BitVec 10) (b : BitVec 2) : BitVec.extractLsb' 0 2 (a ++ b : BitVec 12) = b :=
  extract_append_lo (n := 10) (m := 2) a b

/-! ## Lengths -/

@[simp] theorem lenGranules_lo64 (op : BitVec 7) (fn3 : BitVec 3) (d a b c : BitVec 5) : lenGranules (lo64 op fn3 d a b c) = 2 := by
  simp [lenGranules, lo64]

@[simp] theorem lenGranules_pack (l : Lo) : lenGranules l.pack = l.len.toNat + 1 := by
  simp [lenGranules]

/-- The first failing rule of a list is one of its reasons. -/
theorem firstDefect_ne {e : Reject} : ∀ {l : List (Bool × Reject)}, (∀ p ∈ l, p.2 ≠ e) → firstDefect l ≠ some e
  | [], _ => by simp [firstDefect]
  | (ok, r) :: rest, h => by
    simp only [firstDefect]
    split
    · exact firstDefect_ne fun p hp => h p (List.mem_cons_of_mem _ hp)
    · have := h (ok, r) (List.mem_cons_self ..)
      simpa using this

end Sys2Proof
end

