-- ==== Sys2Proof/Laws/Memory.lean ====
section
/-! SUPPORT. The laws of sparse memory: reading after writing, and that every operation on a memory keeps its canonical
form. -/

namespace Sys2Proof.Machine

open Sys2Proof

/-! ## The canonical form -/

theorem Mem.wfFrom_mono {lo hi : Nat} (h : lo ≤ hi) : ∀ {m : List Host.Cell}, Mem.wfFrom hi m = true → Mem.wfFrom lo m = true
  | [], _ => rfl
  | (k, b) :: r, hm => by
    simp only [Mem.wfFrom, Bool.and_eq_true, decide_eq_true_eq] at hm ⊢
    exact ⟨⟨by omega, hm.1.2⟩, hm.2⟩

/-- Below the first listed address everything reads as 0. -/
theorem Mem.get_below {lo a : Nat} (h : a < lo) : ∀ {m : List Host.Cell}, Mem.wfFrom lo m = true → Mem.get m a = 0
  | [], _ => rfl
  | (k, b) :: r, hm => by
    simp only [Mem.wfFrom, Bool.and_eq_true, decide_eq_true_eq] at hm
    simp only [Mem.get]
    rw [if_neg (by omega)]
    exact Mem.get_below (lo := k + 1) (by omega) hm.2

theorem Mem.wfFrom_set {lo a : Nat} (v : Byte) (h : lo ≤ a) :
    ∀ {m : List Host.Cell}, Mem.wfFrom lo m = true → Mem.wfFrom lo (Mem.set m a v) = true
  | [], _ => by
    simp only [Mem.set]
    split
    · rfl
    · simp_all [Mem.wfFrom]
  | (k, b) :: r, hm => by
    simp only [Mem.wfFrom, Bool.and_eq_true, decide_eq_true_eq, bne_iff_ne] at hm
    obtain ⟨⟨hk, hb⟩, hr⟩ := hm
    simp only [Mem.set]
    by_cases h1 : a < k
    · rw [if_pos h1]
      by_cases hv : v = 0
      · simpa [hv, Mem.wfFrom, hk, hr] using hb
      · simp only [hv, if_false, Mem.wfFrom, Bool.and_eq_true, decide_eq_true_eq, bne_iff_ne]
        exact ⟨⟨h, hv⟩, ⟨by omega, hb⟩, hr⟩
    · rw [if_neg h1]
      by_cases h2 : a = k
      · rw [if_pos h2]
        by_cases hv : v = 0
        · rw [if_pos hv]; exact Mem.wfFrom_mono (by omega) hr
        · simp only [hv, if_false, Mem.wfFrom, Bool.and_eq_true, decide_eq_true_eq, bne_iff_ne]
          exact ⟨⟨h, hv⟩, h2 ▸ hr⟩
      · simp only [if_neg h2, Mem.wfFrom, Bool.and_eq_true, decide_eq_true_eq, bne_iff_ne]
        exact ⟨⟨hk, hb⟩, Mem.wfFrom_set v (by omega) hr⟩

/-- Writing a byte keeps the canonical form. -/
theorem Memory.wf_set {m : List Host.Cell} (h : Memory.wf m = true) (a : Nat) (v : Byte) : Memory.wf (Mem.set m a v) = true :=
  Mem.wfFrom_set v (Nat.zero_le a) h

/-- Writing bytes keeps the canonical form. -/
theorem Memory.wf_setAll : ∀ (l : List Host.Cell) {m : List Host.Cell}, Memory.wf m = true → Memory.wf (Mem.setAll m l) = true
  | [], _, h => h
  | (a, v) :: r, _, h => Memory.wf_setAll r (Memory.wf_set h a v)

theorem Mem.wfFrom_filter (p : Host.Cell → Bool) {lo : Nat} :
    ∀ {m : List Host.Cell}, Mem.wfFrom lo m = true → Mem.wfFrom lo (m.filter p) = true
  | [], _ => rfl
  | (k, b) :: r, hm => by
    simp only [Mem.wfFrom, Bool.and_eq_true, decide_eq_true_eq] at hm
    rw [List.filter_cons]
    split
    · simp only [Mem.wfFrom, Bool.and_eq_true, decide_eq_true_eq]
      exact ⟨hm.1, Mem.wfFrom_filter p hm.2⟩
    · exact Mem.wfFrom_mono (by omega) (Mem.wfFrom_filter p hm.2)

/-- Forgetting a range keeps the canonical form. -/
theorem Memory.wf_clear {m : List Host.Cell} (h : Memory.wf m = true) (a n : Nat) : Memory.wf (Mem.clear m a n) = true :=
  Mem.wfFrom_filter _ h

/-- A memory that lists nothing is canonical. -/
theorem Memory.wf_nil : Memory.wf [] = true := rfl

/-! ## Reading after writing -/

/-- A byte written reads back; every other byte reads as before. -/
theorem Mem.get_setFrom (a b : Nat) (v : Byte) {lo : Nat} :
    ∀ {m : List Host.Cell}, Mem.wfFrom lo m = true → Mem.get (Mem.set m a v) b = if b = a then v else Mem.get m b
  | [], _ => by
    simp only [Mem.set]
    split <;> split <;> simp_all [Mem.get]
  | (k, w) :: r, hm => by
    simp only [Mem.wfFrom, Bool.and_eq_true, decide_eq_true_eq] at hm
    have below : ∀ c, c ≤ k → Mem.get r c = 0 := fun c hc => Mem.get_below (lo := k + 1) (by omega) hm.2
    have ih := Mem.get_setFrom a b v hm.2
    simp only [Mem.set]
    by_cases h1 : a < k
    · by_cases hv : v = 0#8
      · by_cases hb : b = a
        · simp [h1, hv, hb, Mem.get, below a (by omega), Nat.ne_of_lt h1]
        · simp [h1, hv, hb, Mem.get]
      · simp [h1, hv, Mem.get]
    · by_cases h2 : a = k
      · subst h2
        by_cases hv : v = 0#8
        · by_cases hb : b = a
          · simp [hv, hb, below a (Nat.le_refl a)]
          · simp [hv, hb, Mem.get]
        · by_cases hb : b = a
          · simp [hv, hb, Mem.get]
          · simp [hv, hb, Mem.get]
      · rw [if_neg h1, if_neg h2]
        by_cases hb : b = k
        · subst hb; simp [Mem.get, Ne.symm h2]
        · simp [Mem.get, hb, ih]

theorem Mem.get_set {m : List Host.Cell} (h : Memory.wf m = true) (a b : Nat) (v : Byte) :
    Mem.get (Mem.set m a v) b = if b = a then v else Mem.get m b :=
  Mem.get_setFrom a b v h

/-- After writing bytes, an address holds the last byte written there, else what it held. -/
theorem Mem.get_setAll (b : Nat) : ∀ (l : List Host.Cell) {m : List Host.Cell}, Memory.wf m = true →
    Mem.get (Mem.setAll m l) b = (cellsGet l b).getD (Mem.get m b)
  | [], _, _ => rfl
  | (a, v) :: r, m, h => by
    rw [Mem.setAll, Mem.get_setAll b r (Memory.wf_set h a v), Mem.get_set h]
    simp only [cellsGet]
    cases cellsGet r b with
    | some w => rfl
    | none => simp only [Option.getD_none]; split <;> rfl

/-- Bytes that no cell of a list names read as before, whatever the memory. -/
theorem Mem.get_set_ne (a b : Nat) (v : Byte) (h : b ≠ a) : ∀ (m : List Host.Cell), (Memory.wf m = true) →
    Mem.get (Mem.set m a v) b = Mem.get m b := fun m hm => by rw [Mem.get_set hm, if_neg h]

end Sys2Proof.Machine
end

