-- ==== Sys2Proof/Laws/State.lean ====
section
/-! SUPPORT. What the small updates of the state leave as it is, one lemma per field per update, and what they write. -/

namespace Sys2Proof.Machine

open Sys2Proof

/-! ### State.setX -/

@[simp] theorem State.setX_cur (s : State) (r : Reg) (v : Word) : (s.setX r v).cur = s.cur := by unfold State.setX; split <;> rfl
@[simp] theorem State.setX_core (s : State) (r : Reg) (v : Word) : (s.setX r v).core = s.core := by unfold State.setX; split <;> rfl
@[simp] theorem State.setX_ctxs (s : State) (r : Reg) (v : Word) : (s.setX r v).ctxs = s.ctxs := by unfold State.setX; split <;> rfl
@[simp] theorem State.setX_cores (s : State) (r : Reg) (v : Word) : (s.setX r v).cores = s.cores := by unfold State.setX; split <;> rfl
@[simp] theorem State.setX_clusters (s : State) (r : Reg) (v : Word) : (s.setX r v).clusters = s.clusters := by unfold State.setX; split <;> rfl
@[simp] theorem State.setX_tileqs (s : State) (r : Reg) (v : Word) : (s.setX r v).tileqs = s.tileqs := by unfold State.setX; split <;> rfl
@[simp] theorem State.setX_islands (s : State) (r : Reg) (v : Word) : (s.setX r v).islands = s.islands := by unfold State.setX; split <;> rfl
@[simp] theorem State.setX_time (s : State) (r : Reg) (v : Word) : (s.setX r v).time = s.time := by unfold State.setX; split <;> rfl
@[simp] theorem State.setX_clock (s : State) (r : Reg) (v : Word) : (s.setX r v).clock = s.clock := by unfold State.setX; split <;> rfl
@[simp] theorem State.setX_latched (s : State) (r : Reg) (v : Word) : (s.setX r v).latched = s.latched := by unfold State.setX; split <;> rfl
@[simp] theorem State.setX_mem (s : State) (r : Reg) (v : Word) : (s.setX r v).mem = s.mem := by unfold State.setX; split <;> rfl
@[simp] theorem State.setX_hostMem (s : State) (r : Reg) (v : Word) : (s.setX r v).hostMem = s.hostMem := by unfold State.setX; split <;> rfl
@[simp] theorem State.setX_owners (s : State) (r : Reg) (v : Word) : (s.setX r v).owners = s.owners := by unfold State.setX; split <;> rfl
@[simp] theorem State.setX_tlb (s : State) (r : Reg) (v : Word) : (s.setX r v).tlb = s.tlb := by unfold State.setX; split <;> rfl
@[simp] theorem State.setX_net (s : State) (r : Reg) (v : Word) : (s.setX r v).net = s.net := by unfold State.setX; split <;> rfl
@[simp] theorem State.setX_sent (s : State) (r : Reg) (v : Word) : (s.setX r v).sent = s.sent := by unfold State.setX; split <;> rfl
@[simp] theorem State.setX_orphans (s : State) (r : Reg) (v : Word) : (s.setX r v).orphans = s.orphans := by unfold State.setX; split <;> rfl
@[simp] theorem State.setX_late (s : State) (r : Reg) (v : Word) : (s.setX r v).late = s.late := by unfold State.setX; split <;> rfl
@[simp] theorem State.setX_checks (s : State) (r : Reg) (v : Word) : (s.setX r v).checks = s.checks := by unfold State.setX; split <;> rfl
@[simp] theorem State.setX_upset (s : State) (r : Reg) (v : Word) : (s.setX r v).upset = s.upset := by unfold State.setX; split <;> rfl
@[simp] theorem State.setX_read (s : State) (r : Reg) (v : Word) : (s.setX r v).read = s.read := by unfold State.setX; split <;> rfl
@[simp] theorem State.setX_parts (s : State) (r : Reg) (v : Word) : (s.setX r v).parts = s.parts := by unfold State.setX; split <;> rfl
@[simp] theorem State.setX_jobs (s : State) (r : Reg) (v : Word) : (s.setX r v).jobs = s.jobs := by unfold State.setX; split <;> rfl
@[simp] theorem State.setX_exports (s : State) (r : Reg) (v : Word) : (s.setX r v).exports = s.exports := by unfold State.setX; split <;> rfl
@[simp] theorem State.setX_loads (s : State) (r : Reg) (v : Word) : (s.setX r v).loads = s.loads := by unfold State.setX; split <;> rfl
@[simp] theorem State.setX_vfs (s : State) (r : Reg) (v : Word) : (s.setX r v).vfs = s.vfs := by unfold State.setX; split <;> rfl
@[simp] theorem State.setX_hqueues (s : State) (r : Reg) (v : Word) : (s.setX r v).hqueues = s.hqueues := by unfold State.setX; split <;> rfl
@[simp] theorem State.setX_events (s : State) (r : Reg) (v : Word) : (s.setX r v).events = s.events := by unfold State.setX; split <;> rfl
@[simp] theorem State.setX_msix (s : State) (r : Reg) (v : Word) : (s.setX r v).msix = s.msix := by unfold State.setX; split <;> rfl
@[simp] theorem State.setX_dev (s : State) (r : Reg) (v : Word) : (s.setX r v).dev = s.dev := by unfold State.setX; split <;> rfl
@[simp] theorem State.setX_nextId (s : State) (r : Reg) (v : Word) : (s.setX r v).nextId = s.nextId := by unfold State.setX; split <;> rfl
@[simp] theorem State.setX_free (s : State) (r : Reg) (v : Word) : (s.setX r v).free = s.free := by unfold State.setX; split <;> rfl
@[simp] theorem State.setX_agenda (s : State) (r : Reg) (v : Word) : (s.setX r v).agenda = s.agenda := by unfold State.setX; split <;> rfl
@[simp] theorem State.setX_ctx_phase (s : State) (r : Reg) (v : Word) : (s.setX r v).ctx.phase = s.ctx.phase := by unfold State.setX; split <;> rfl
@[simp] theorem State.setX_ctx_kind (s : State) (r : Reg) (v : Word) : (s.setX r v).ctx.kind = s.ctx.kind := by unfold State.setX; split <;> rfl
@[simp] theorem State.setX_ctx_pc (s : State) (r : Reg) (v : Word) : (s.setX r v).ctx.pc = s.ctx.pc := by unfold State.setX; split <;> rfl
@[simp] theorem State.setX_ctx_f (s : State) (r : Reg) (v : Word) : (s.setX r v).ctx.f = s.ctx.f := by unfold State.setX; split <;> rfl
@[simp] theorem State.setX_ctx_v (s : State) (r : Reg) (v : Word) : (s.setX r v).ctx.v = s.ctx.v := by unfold State.setX; split <;> rfl
@[simp] theorem State.setX_ctx_m (s : State) (r : Reg) (v : Word) : (s.setX r v).ctx.m = s.ctx.m := by unfold State.setX; split <;> rfl
@[simp] theorem State.setX_ctx_valloc (s : State) (r : Reg) (v : Word) : (s.setX r v).ctx.valloc = s.ctx.valloc := by unfold State.setX; split <;> rfl
@[simp] theorem State.setX_ctx_te (s : State) (r : Reg) (v : Word) : (s.setX r v).ctx.te = s.ctx.te := by unfold State.setX; split <;> rfl
@[simp] theorem State.setX_ctx_rm (s : State) (r : Reg) (v : Word) : (s.setX r v).ctx.rm = s.ctx.rm := by unfold State.setX; split <;> rfl
@[simp] theorem State.setX_ctx_flags (s : State) (r : Reg) (v : Word) : (s.setX r v).ctx.flags = s.ctx.flags := by unfold State.setX; split <;> rfl
@[simp] theorem State.setX_ctx_lvl (s : State) (r : Reg) (v : Word) : (s.setX r v).ctx.lvl = s.ctx.lvl := by unfold State.setX; split <;> rfl
@[simp] theorem State.setX_ctx_eff (s : State) (r : Reg) (v : Word) : (s.setX r v).ctx.eff = s.ctx.eff := by unfold State.setX; split <;> rfl
@[simp] theorem State.setX_ctx_aging (s : State) (r : Reg) (v : Word) : (s.setX r v).ctx.aging = s.ctx.aging := by unfold State.setX; split <;> rfl
@[simp] theorem State.setX_ctx_ie (s : State) (r : Reg) (v : Word) : (s.setX r v).ctx.ie = s.ctx.ie := by unfold State.setX; split <;> rfl
@[simp] theorem State.setX_ctx_pie (s : State) (r : Reg) (v : Word) : (s.setX r v).ctx.pie = s.ctx.pie := by unfold State.setX; split <;> rfl
@[simp] theorem State.setX_ctx_prv (s : State) (r : Reg) (v : Word) : (s.setX r v).ctx.prv = s.ctx.prv := by unfold State.setX; split <;> rfl
@[simp] theorem State.setX_ctx_pprv (s : State) (r : Reg) (v : Word) : (s.setX r v).ctx.pprv = s.ctx.pprv := by unfold State.setX; split <;> rfl
@[simp] theorem State.setX_ctx_arrv (s : State) (r : Reg) (v : Word) : (s.setX r v).ctx.arrv = s.ctx.arrv := by unfold State.setX; split <;> rfl
@[simp] theorem State.setX_ctx_hnd (s : State) (r : Reg) (v : Word) : (s.setX r v).ctx.hnd = s.ctx.hnd := by unfold State.setX; split <;> rfl
@[simp] theorem State.setX_ctx_hvn (s : State) (r : Reg) (v : Word) : (s.setX r v).ctx.hvn = s.ctx.hvn := by unfold State.setX; split <;> rfl
@[simp] theorem State.setX_ctx_abt (s : State) (r : Reg) (v : Word) : (s.setX r v).ctx.abt = s.ctx.abt := by unfold State.setX; split <;> rfl
@[simp] theorem State.setX_ctx_epc (s : State) (r : Reg) (v : Word) : (s.setX r v).ctx.epc = s.ctx.epc := by unfold State.setX; split <;> rfl
@[simp] theorem State.setX_ctx_cause (s : State) (r : Reg) (v : Word) : (s.setX r v).ctx.cause = s.ctx.cause := by unfold State.setX; split <;> rfl
@[simp] theorem State.setX_ctx_tval (s : State) (r : Reg) (v : Word) : (s.setX r v).ctx.tval = s.ctx.tval := by unfold State.setX; split <;> rfl
@[simp] theorem State.setX_ctx_scratch (s : State) (r : Reg) (v : Word) : (s.setX r v).ctx.scratch = s.ctx.scratch := by unfold State.setX; split <;> rfl
@[simp] theorem State.setX_ctx_tcmp (s : State) (r : Reg) (v : Word) : (s.setX r v).ctx.tcmp = s.ctx.tcmp := by unfold State.setX; split <;> rfl
@[simp] theorem State.setX_ctx_instret (s : State) (r : Reg) (v : Word) : (s.setX r v).ctx.instret = s.ctx.instret := by unfold State.setX; split <;> rfl
@[simp] theorem State.setX_ctx_psat (s : State) (r : Reg) (v : Word) : (s.setX r v).ctx.psat = s.ctx.psat := by unfold State.setX; split <;> rfl
@[simp] theorem State.setX_ctx_cpc (s : State) (r : Reg) (v : Word) : (s.setX r v).ctx.cpc = s.ctx.cpc := by unfold State.setX; split <;> rfl
@[simp] theorem State.setX_ctx_pend (s : State) (r : Reg) (v : Word) : (s.setX r v).ctx.pend = s.ctx.pend := by unfold State.setX; split <;> rfl
@[simp] theorem State.setX_ctx_streams (s : State) (r : Reg) (v : Word) : (s.setX r v).ctx.streams = s.ctx.streams := by unfold State.setX; split <;> rfl
@[simp] theorem State.setX_ctx_rep (s : State) (r : Reg) (v : Word) : (s.setX r v).ctx.rep = s.ctx.rep := by unfold State.setX; split <;> rfl
@[simp] theorem State.setX_ctx_wd (s : State) (r : Reg) (v : Word) : (s.setX r v).ctx.wd = s.ctx.wd := by unfold State.setX; split <;> rfl
@[simp] theorem State.setX_ctx_trigger (s : State) (r : Reg) (v : Word) : (s.setX r v).ctx.trigger = s.ctx.trigger := by unfold State.setX; split <;> rfl
@[simp] theorem State.setX_ctx_heldq (s : State) (r : Reg) (v : Word) : (s.setX r v).ctx.heldq = s.ctx.heldq := by unfold State.setX; split <;> rfl
@[simp] theorem State.setX_ctx_eng (s : State) (r : Reg) (v : Word) : (s.setX r v).ctx.eng = s.ctx.eng := by unfold State.setX; split <;> rfl
@[simp] theorem State.setX_ctx_latched (s : State) (r : Reg) (v : Word) : (s.setX r v).ctx.latched = s.ctx.latched := by unfold State.setX; split <;> rfl
@[simp] theorem State.setX_ctx_timer (s : State) (r : Reg) (v : Word) : (s.setX r v).ctx.timer = s.ctx.timer := by unfold State.setX; split <;> rfl
@[simp] theorem State.setX_ctx_ipi (s : State) (r : Reg) (v : Word) : (s.setX r v).ctx.ipi = s.ctx.ipi := by unfold State.setX; split <;> rfl
@[simp] theorem State.setX_ctx_debug (s : State) (r : Reg) (v : Word) : (s.setX r v).ctx.debug = s.ctx.debug := by unfold State.setX; split <;> rfl
@[simp] theorem State.setX_ctx_region (s : State) (r : Reg) (v : Word) : (s.setX r v).ctx.region = s.ctx.region := by unfold State.setX; split <;> rfl
@[simp] theorem State.setX_ctx_rtag (s : State) (r : Reg) (v : Word) : (s.setX r v).ctx.rtag = s.ctx.rtag := by unfold State.setX; split <;> rfl
@[simp] theorem State.setX_ctx_wait (s : State) (r : Reg) (v : Word) : (s.setX r v).ctx.wait = s.ctx.wait := by unfold State.setX; split <;> rfl
@[simp] theorem State.setX_ctx_drain (s : State) (r : Reg) (v : Word) : (s.setX r v).ctx.drain = s.ctx.drain := by unfold State.setX; split <;> rfl
@[simp] theorem State.setX_ctx_early (s : State) (r : Reg) (v : Word) : (s.setX r v).ctx.early = s.ctx.early := by unfold State.setX; split <;> rfl
@[simp] theorem State.setX_ctx_fma (s : State) (r : Reg) (v : Word) : (s.setX r v).ctx.fma = s.ctx.fma := by unfold State.setX; split <;> rfl
@[simp] theorem State.setX_ctx_fetched (s : State) (r : Reg) (v : Word) : (s.setX r v).ctx.fetched = s.ctx.fetched := by unfold State.setX; split <;> rfl

/-! ### State.setF -/

@[simp] theorem State.setF_cur (s : State) (r : Reg) (v : Word) : (s.setF r v).cur = s.cur := rfl
@[simp] theorem State.setF_core (s : State) (r : Reg) (v : Word) : (s.setF r v).core = s.core := rfl
@[simp] theorem State.setF_ctxs (s : State) (r : Reg) (v : Word) : (s.setF r v).ctxs = s.ctxs := rfl
@[simp] theorem State.setF_cores (s : State) (r : Reg) (v : Word) : (s.setF r v).cores = s.cores := rfl
@[simp] theorem State.setF_clusters (s : State) (r : Reg) (v : Word) : (s.setF r v).clusters = s.clusters := rfl
@[simp] theorem State.setF_tileqs (s : State) (r : Reg) (v : Word) : (s.setF r v).tileqs = s.tileqs := rfl
@[simp] theorem State.setF_islands (s : State) (r : Reg) (v : Word) : (s.setF r v).islands = s.islands := rfl
@[simp] theorem State.setF_time (s : State) (r : Reg) (v : Word) : (s.setF r v).time = s.time := rfl
@[simp] theorem State.setF_clock (s : State) (r : Reg) (v : Word) : (s.setF r v).clock = s.clock := rfl
@[simp] theorem State.setF_latched (s : State) (r : Reg) (v : Word) : (s.setF r v).latched = s.latched := rfl
@[simp] theorem State.setF_mem (s : State) (r : Reg) (v : Word) : (s.setF r v).mem = s.mem := rfl
@[simp] theorem State.setF_hostMem (s : State) (r : Reg) (v : Word) : (s.setF r v).hostMem = s.hostMem := rfl
@[simp] theorem State.setF_owners (s : State) (r : Reg) (v : Word) : (s.setF r v).owners = s.owners := rfl
@[simp] theorem State.setF_tlb (s : State) (r : Reg) (v : Word) : (s.setF r v).tlb = s.tlb := rfl
@[simp] theorem State.setF_net (s : State) (r : Reg) (v : Word) : (s.setF r v).net = s.net := rfl
@[simp] theorem State.setF_sent (s : State) (r : Reg) (v : Word) : (s.setF r v).sent = s.sent := rfl
@[simp] theorem State.setF_orphans (s : State) (r : Reg) (v : Word) : (s.setF r v).orphans = s.orphans := rfl
@[simp] theorem State.setF_late (s : State) (r : Reg) (v : Word) : (s.setF r v).late = s.late := rfl
@[simp] theorem State.setF_checks (s : State) (r : Reg) (v : Word) : (s.setF r v).checks = s.checks := rfl
@[simp] theorem State.setF_upset (s : State) (r : Reg) (v : Word) : (s.setF r v).upset = s.upset := rfl
@[simp] theorem State.setF_read (s : State) (r : Reg) (v : Word) : (s.setF r v).read = s.read := rfl
@[simp] theorem State.setF_parts (s : State) (r : Reg) (v : Word) : (s.setF r v).parts = s.parts := rfl
@[simp] theorem State.setF_jobs (s : State) (r : Reg) (v : Word) : (s.setF r v).jobs = s.jobs := rfl
@[simp] theorem State.setF_exports (s : State) (r : Reg) (v : Word) : (s.setF r v).exports = s.exports := rfl
@[simp] theorem State.setF_loads (s : State) (r : Reg) (v : Word) : (s.setF r v).loads = s.loads := rfl
@[simp] theorem State.setF_vfs (s : State) (r : Reg) (v : Word) : (s.setF r v).vfs = s.vfs := rfl
@[simp] theorem State.setF_hqueues (s : State) (r : Reg) (v : Word) : (s.setF r v).hqueues = s.hqueues := rfl
@[simp] theorem State.setF_events (s : State) (r : Reg) (v : Word) : (s.setF r v).events = s.events := rfl
@[simp] theorem State.setF_msix (s : State) (r : Reg) (v : Word) : (s.setF r v).msix = s.msix := rfl
@[simp] theorem State.setF_dev (s : State) (r : Reg) (v : Word) : (s.setF r v).dev = s.dev := rfl
@[simp] theorem State.setF_nextId (s : State) (r : Reg) (v : Word) : (s.setF r v).nextId = s.nextId := rfl
@[simp] theorem State.setF_free (s : State) (r : Reg) (v : Word) : (s.setF r v).free = s.free := rfl
@[simp] theorem State.setF_agenda (s : State) (r : Reg) (v : Word) : (s.setF r v).agenda = s.agenda := rfl
@[simp] theorem State.setF_ctx_phase (s : State) (r : Reg) (v : Word) : (s.setF r v).ctx.phase = s.ctx.phase := rfl
@[simp] theorem State.setF_ctx_kind (s : State) (r : Reg) (v : Word) : (s.setF r v).ctx.kind = s.ctx.kind := rfl
@[simp] theorem State.setF_ctx_pc (s : State) (r : Reg) (v : Word) : (s.setF r v).ctx.pc = s.ctx.pc := rfl
@[simp] theorem State.setF_ctx_x (s : State) (r : Reg) (v : Word) : (s.setF r v).ctx.x = s.ctx.x := rfl
@[simp] theorem State.setF_ctx_v (s : State) (r : Reg) (v : Word) : (s.setF r v).ctx.v = s.ctx.v := rfl
@[simp] theorem State.setF_ctx_m (s : State) (r : Reg) (v : Word) : (s.setF r v).ctx.m = s.ctx.m := rfl
@[simp] theorem State.setF_ctx_valloc (s : State) (r : Reg) (v : Word) : (s.setF r v).ctx.valloc = s.ctx.valloc := rfl
@[simp] theorem State.setF_ctx_te (s : State) (r : Reg) (v : Word) : (s.setF r v).ctx.te = s.ctx.te := rfl
@[simp] theorem State.setF_ctx_rm (s : State) (r : Reg) (v : Word) : (s.setF r v).ctx.rm = s.ctx.rm := rfl
@[simp] theorem State.setF_ctx_flags (s : State) (r : Reg) (v : Word) : (s.setF r v).ctx.flags = s.ctx.flags := rfl
@[simp] theorem State.setF_ctx_lvl (s : State) (r : Reg) (v : Word) : (s.setF r v).ctx.lvl = s.ctx.lvl := rfl
@[simp] theorem State.setF_ctx_eff (s : State) (r : Reg) (v : Word) : (s.setF r v).ctx.eff = s.ctx.eff := rfl
@[simp] theorem State.setF_ctx_aging (s : State) (r : Reg) (v : Word) : (s.setF r v).ctx.aging = s.ctx.aging := rfl
@[simp] theorem State.setF_ctx_ie (s : State) (r : Reg) (v : Word) : (s.setF r v).ctx.ie = s.ctx.ie := rfl
@[simp] theorem State.setF_ctx_pie (s : State) (r : Reg) (v : Word) : (s.setF r v).ctx.pie = s.ctx.pie := rfl
@[simp] theorem State.setF_ctx_prv (s : State) (r : Reg) (v : Word) : (s.setF r v).ctx.prv = s.ctx.prv := rfl
@[simp] theorem State.setF_ctx_pprv (s : State) (r : Reg) (v : Word) : (s.setF r v).ctx.pprv = s.ctx.pprv := rfl
@[simp] theorem State.setF_ctx_arrv (s : State) (r : Reg) (v : Word) : (s.setF r v).ctx.arrv = s.ctx.arrv := rfl
@[simp] theorem State.setF_ctx_hnd (s : State) (r : Reg) (v : Word) : (s.setF r v).ctx.hnd = s.ctx.hnd := rfl
@[simp] theorem State.setF_ctx_hvn (s : State) (r : Reg) (v : Word) : (s.setF r v).ctx.hvn = s.ctx.hvn := rfl
@[simp] theorem State.setF_ctx_abt (s : State) (r : Reg) (v : Word) : (s.setF r v).ctx.abt = s.ctx.abt := rfl
@[simp] theorem State.setF_ctx_epc (s : State) (r : Reg) (v : Word) : (s.setF r v).ctx.epc = s.ctx.epc := rfl
@[simp] theorem State.setF_ctx_cause (s : State) (r : Reg) (v : Word) : (s.setF r v).ctx.cause = s.ctx.cause := rfl
@[simp] theorem State.setF_ctx_tval (s : State) (r : Reg) (v : Word) : (s.setF r v).ctx.tval = s.ctx.tval := rfl
@[simp] theorem State.setF_ctx_scratch (s : State) (r : Reg) (v : Word) : (s.setF r v).ctx.scratch = s.ctx.scratch := rfl
@[simp] theorem State.setF_ctx_tcmp (s : State) (r : Reg) (v : Word) : (s.setF r v).ctx.tcmp = s.ctx.tcmp := rfl
@[simp] theorem State.setF_ctx_instret (s : State) (r : Reg) (v : Word) : (s.setF r v).ctx.instret = s.ctx.instret := rfl
@[simp] theorem State.setF_ctx_psat (s : State) (r : Reg) (v : Word) : (s.setF r v).ctx.psat = s.ctx.psat := rfl
@[simp] theorem State.setF_ctx_cpc (s : State) (r : Reg) (v : Word) : (s.setF r v).ctx.cpc = s.ctx.cpc := rfl
@[simp] theorem State.setF_ctx_pend (s : State) (r : Reg) (v : Word) : (s.setF r v).ctx.pend = s.ctx.pend := rfl
@[simp] theorem State.setF_ctx_streams (s : State) (r : Reg) (v : Word) : (s.setF r v).ctx.streams = s.ctx.streams := rfl
@[simp] theorem State.setF_ctx_rep (s : State) (r : Reg) (v : Word) : (s.setF r v).ctx.rep = s.ctx.rep := rfl
@[simp] theorem State.setF_ctx_wd (s : State) (r : Reg) (v : Word) : (s.setF r v).ctx.wd = s.ctx.wd := rfl
@[simp] theorem State.setF_ctx_trigger (s : State) (r : Reg) (v : Word) : (s.setF r v).ctx.trigger = s.ctx.trigger := rfl
@[simp] theorem State.setF_ctx_heldq (s : State) (r : Reg) (v : Word) : (s.setF r v).ctx.heldq = s.ctx.heldq := rfl
@[simp] theorem State.setF_ctx_eng (s : State) (r : Reg) (v : Word) : (s.setF r v).ctx.eng = s.ctx.eng := rfl
@[simp] theorem State.setF_ctx_latched (s : State) (r : Reg) (v : Word) : (s.setF r v).ctx.latched = s.ctx.latched := rfl
@[simp] theorem State.setF_ctx_timer (s : State) (r : Reg) (v : Word) : (s.setF r v).ctx.timer = s.ctx.timer := rfl
@[simp] theorem State.setF_ctx_ipi (s : State) (r : Reg) (v : Word) : (s.setF r v).ctx.ipi = s.ctx.ipi := rfl
@[simp] theorem State.setF_ctx_debug (s : State) (r : Reg) (v : Word) : (s.setF r v).ctx.debug = s.ctx.debug := rfl
@[simp] theorem State.setF_ctx_region (s : State) (r : Reg) (v : Word) : (s.setF r v).ctx.region = s.ctx.region := rfl
@[simp] theorem State.setF_ctx_rtag (s : State) (r : Reg) (v : Word) : (s.setF r v).ctx.rtag = s.ctx.rtag := rfl
@[simp] theorem State.setF_ctx_wait (s : State) (r : Reg) (v : Word) : (s.setF r v).ctx.wait = s.ctx.wait := rfl
@[simp] theorem State.setF_ctx_drain (s : State) (r : Reg) (v : Word) : (s.setF r v).ctx.drain = s.ctx.drain := rfl
@[simp] theorem State.setF_ctx_early (s : State) (r : Reg) (v : Word) : (s.setF r v).ctx.early = s.ctx.early := rfl
@[simp] theorem State.setF_ctx_fma (s : State) (r : Reg) (v : Word) : (s.setF r v).ctx.fma = s.ctx.fma := rfl
@[simp] theorem State.setF_ctx_fetched (s : State) (r : Reg) (v : Word) : (s.setF r v).ctx.fetched = s.ctx.fetched := rfl

/-! ### State.setV -/

@[simp] theorem State.setV_cur (s : State) (r : Reg) (v : VWord) : (s.setV r v).cur = s.cur := rfl
@[simp] theorem State.setV_core (s : State) (r : Reg) (v : VWord) : (s.setV r v).core = s.core := rfl
@[simp] theorem State.setV_ctxs (s : State) (r : Reg) (v : VWord) : (s.setV r v).ctxs = s.ctxs := rfl
@[simp] theorem State.setV_cores (s : State) (r : Reg) (v : VWord) : (s.setV r v).cores = s.cores := rfl
@[simp] theorem State.setV_clusters (s : State) (r : Reg) (v : VWord) : (s.setV r v).clusters = s.clusters := rfl
@[simp] theorem State.setV_tileqs (s : State) (r : Reg) (v : VWord) : (s.setV r v).tileqs = s.tileqs := rfl
@[simp] theorem State.setV_islands (s : State) (r : Reg) (v : VWord) : (s.setV r v).islands = s.islands := rfl
@[simp] theorem State.setV_time (s : State) (r : Reg) (v : VWord) : (s.setV r v).time = s.time := rfl
@[simp] theorem State.setV_clock (s : State) (r : Reg) (v : VWord) : (s.setV r v).clock = s.clock := rfl
@[simp] theorem State.setV_latched (s : State) (r : Reg) (v : VWord) : (s.setV r v).latched = s.latched := rfl
@[simp] theorem State.setV_mem (s : State) (r : Reg) (v : VWord) : (s.setV r v).mem = s.mem := rfl
@[simp] theorem State.setV_hostMem (s : State) (r : Reg) (v : VWord) : (s.setV r v).hostMem = s.hostMem := rfl
@[simp] theorem State.setV_owners (s : State) (r : Reg) (v : VWord) : (s.setV r v).owners = s.owners := rfl
@[simp] theorem State.setV_tlb (s : State) (r : Reg) (v : VWord) : (s.setV r v).tlb = s.tlb := rfl
@[simp] theorem State.setV_net (s : State) (r : Reg) (v : VWord) : (s.setV r v).net = s.net := rfl
@[simp] theorem State.setV_sent (s : State) (r : Reg) (v : VWord) : (s.setV r v).sent = s.sent := rfl
@[simp] theorem State.setV_orphans (s : State) (r : Reg) (v : VWord) : (s.setV r v).orphans = s.orphans := rfl
@[simp] theorem State.setV_late (s : State) (r : Reg) (v : VWord) : (s.setV r v).late = s.late := rfl
@[simp] theorem State.setV_checks (s : State) (r : Reg) (v : VWord) : (s.setV r v).checks = s.checks := rfl
@[simp] theorem State.setV_upset (s : State) (r : Reg) (v : VWord) : (s.setV r v).upset = s.upset := rfl
@[simp] theorem State.setV_read (s : State) (r : Reg) (v : VWord) : (s.setV r v).read = s.read := rfl
@[simp] theorem State.setV_parts (s : State) (r : Reg) (v : VWord) : (s.setV r v).parts = s.parts := rfl
@[simp] theorem State.setV_jobs (s : State) (r : Reg) (v : VWord) : (s.setV r v).jobs = s.jobs := rfl
@[simp] theorem State.setV_exports (s : State) (r : Reg) (v : VWord) : (s.setV r v).exports = s.exports := rfl
@[simp] theorem State.setV_loads (s : State) (r : Reg) (v : VWord) : (s.setV r v).loads = s.loads := rfl
@[simp] theorem State.setV_vfs (s : State) (r : Reg) (v : VWord) : (s.setV r v).vfs = s.vfs := rfl
@[simp] theorem State.setV_hqueues (s : State) (r : Reg) (v : VWord) : (s.setV r v).hqueues = s.hqueues := rfl
@[simp] theorem State.setV_events (s : State) (r : Reg) (v : VWord) : (s.setV r v).events = s.events := rfl
@[simp] theorem State.setV_msix (s : State) (r : Reg) (v : VWord) : (s.setV r v).msix = s.msix := rfl
@[simp] theorem State.setV_dev (s : State) (r : Reg) (v : VWord) : (s.setV r v).dev = s.dev := rfl
@[simp] theorem State.setV_nextId (s : State) (r : Reg) (v : VWord) : (s.setV r v).nextId = s.nextId := rfl
@[simp] theorem State.setV_free (s : State) (r : Reg) (v : VWord) : (s.setV r v).free = s.free := rfl
@[simp] theorem State.setV_agenda (s : State) (r : Reg) (v : VWord) : (s.setV r v).agenda = s.agenda := rfl
@[simp] theorem State.setV_ctx_phase (s : State) (r : Reg) (v : VWord) : (s.setV r v).ctx.phase = s.ctx.phase := rfl
@[simp] theorem State.setV_ctx_kind (s : State) (r : Reg) (v : VWord) : (s.setV r v).ctx.kind = s.ctx.kind := rfl
@[simp] theorem State.setV_ctx_pc (s : State) (r : Reg) (v : VWord) : (s.setV r v).ctx.pc = s.ctx.pc := rfl
@[simp] theorem State.setV_ctx_x (s : State) (r : Reg) (v : VWord) : (s.setV r v).ctx.x = s.ctx.x := rfl
@[simp] theorem State.setV_ctx_f (s : State) (r : Reg) (v : VWord) : (s.setV r v).ctx.f = s.ctx.f := rfl
@[simp] theorem State.setV_ctx_m (s : State) (r : Reg) (v : VWord) : (s.setV r v).ctx.m = s.ctx.m := rfl
@[simp] theorem State.setV_ctx_valloc (s : State) (r : Reg) (v : VWord) : (s.setV r v).ctx.valloc = s.ctx.valloc := rfl
@[simp] theorem State.setV_ctx_te (s : State) (r : Reg) (v : VWord) : (s.setV r v).ctx.te = s.ctx.te := rfl
@[simp] theorem State.setV_ctx_rm (s : State) (r : Reg) (v : VWord) : (s.setV r v).ctx.rm = s.ctx.rm := rfl
@[simp] theorem State.setV_ctx_flags (s : State) (r : Reg) (v : VWord) : (s.setV r v).ctx.flags = s.ctx.flags := rfl
@[simp] theorem State.setV_ctx_lvl (s : State) (r : Reg) (v : VWord) : (s.setV r v).ctx.lvl = s.ctx.lvl := rfl
@[simp] theorem State.setV_ctx_eff (s : State) (r : Reg) (v : VWord) : (s.setV r v).ctx.eff = s.ctx.eff := rfl
@[simp] theorem State.setV_ctx_aging (s : State) (r : Reg) (v : VWord) : (s.setV r v).ctx.aging = s.ctx.aging := rfl
@[simp] theorem State.setV_ctx_ie (s : State) (r : Reg) (v : VWord) : (s.setV r v).ctx.ie = s.ctx.ie := rfl
@[simp] theorem State.setV_ctx_pie (s : State) (r : Reg) (v : VWord) : (s.setV r v).ctx.pie = s.ctx.pie := rfl
@[simp] theorem State.setV_ctx_prv (s : State) (r : Reg) (v : VWord) : (s.setV r v).ctx.prv = s.ctx.prv := rfl
@[simp] theorem State.setV_ctx_pprv (s : State) (r : Reg) (v : VWord) : (s.setV r v).ctx.pprv = s.ctx.pprv := rfl
@[simp] theorem State.setV_ctx_arrv (s : State) (r : Reg) (v : VWord) : (s.setV r v).ctx.arrv = s.ctx.arrv := rfl
@[simp] theorem State.setV_ctx_hnd (s : State) (r : Reg) (v : VWord) : (s.setV r v).ctx.hnd = s.ctx.hnd := rfl
@[simp] theorem State.setV_ctx_hvn (s : State) (r : Reg) (v : VWord) : (s.setV r v).ctx.hvn = s.ctx.hvn := rfl
@[simp] theorem State.setV_ctx_abt (s : State) (r : Reg) (v : VWord) : (s.setV r v).ctx.abt = s.ctx.abt := rfl
@[simp] theorem State.setV_ctx_epc (s : State) (r : Reg) (v : VWord) : (s.setV r v).ctx.epc = s.ctx.epc := rfl
@[simp] theorem State.setV_ctx_cause (s : State) (r : Reg) (v : VWord) : (s.setV r v).ctx.cause = s.ctx.cause := rfl
@[simp] theorem State.setV_ctx_tval (s : State) (r : Reg) (v : VWord) : (s.setV r v).ctx.tval = s.ctx.tval := rfl
@[simp] theorem State.setV_ctx_scratch (s : State) (r : Reg) (v : VWord) : (s.setV r v).ctx.scratch = s.ctx.scratch := rfl
@[simp] theorem State.setV_ctx_tcmp (s : State) (r : Reg) (v : VWord) : (s.setV r v).ctx.tcmp = s.ctx.tcmp := rfl
@[simp] theorem State.setV_ctx_instret (s : State) (r : Reg) (v : VWord) : (s.setV r v).ctx.instret = s.ctx.instret := rfl
@[simp] theorem State.setV_ctx_psat (s : State) (r : Reg) (v : VWord) : (s.setV r v).ctx.psat = s.ctx.psat := rfl
@[simp] theorem State.setV_ctx_cpc (s : State) (r : Reg) (v : VWord) : (s.setV r v).ctx.cpc = s.ctx.cpc := rfl
@[simp] theorem State.setV_ctx_pend (s : State) (r : Reg) (v : VWord) : (s.setV r v).ctx.pend = s.ctx.pend := rfl
@[simp] theorem State.setV_ctx_streams (s : State) (r : Reg) (v : VWord) : (s.setV r v).ctx.streams = s.ctx.streams := rfl
@[simp] theorem State.setV_ctx_rep (s : State) (r : Reg) (v : VWord) : (s.setV r v).ctx.rep = s.ctx.rep := rfl
@[simp] theorem State.setV_ctx_wd (s : State) (r : Reg) (v : VWord) : (s.setV r v).ctx.wd = s.ctx.wd := rfl
@[simp] theorem State.setV_ctx_trigger (s : State) (r : Reg) (v : VWord) : (s.setV r v).ctx.trigger = s.ctx.trigger := rfl
@[simp] theorem State.setV_ctx_heldq (s : State) (r : Reg) (v : VWord) : (s.setV r v).ctx.heldq = s.ctx.heldq := rfl
@[simp] theorem State.setV_ctx_eng (s : State) (r : Reg) (v : VWord) : (s.setV r v).ctx.eng = s.ctx.eng := rfl
@[simp] theorem State.setV_ctx_latched (s : State) (r : Reg) (v : VWord) : (s.setV r v).ctx.latched = s.ctx.latched := rfl
@[simp] theorem State.setV_ctx_timer (s : State) (r : Reg) (v : VWord) : (s.setV r v).ctx.timer = s.ctx.timer := rfl
@[simp] theorem State.setV_ctx_ipi (s : State) (r : Reg) (v : VWord) : (s.setV r v).ctx.ipi = s.ctx.ipi := rfl
@[simp] theorem State.setV_ctx_debug (s : State) (r : Reg) (v : VWord) : (s.setV r v).ctx.debug = s.ctx.debug := rfl
@[simp] theorem State.setV_ctx_region (s : State) (r : Reg) (v : VWord) : (s.setV r v).ctx.region = s.ctx.region := rfl
@[simp] theorem State.setV_ctx_rtag (s : State) (r : Reg) (v : VWord) : (s.setV r v).ctx.rtag = s.ctx.rtag := rfl
@[simp] theorem State.setV_ctx_wait (s : State) (r : Reg) (v : VWord) : (s.setV r v).ctx.wait = s.ctx.wait := rfl
@[simp] theorem State.setV_ctx_drain (s : State) (r : Reg) (v : VWord) : (s.setV r v).ctx.drain = s.ctx.drain := rfl
@[simp] theorem State.setV_ctx_early (s : State) (r : Reg) (v : VWord) : (s.setV r v).ctx.early = s.ctx.early := rfl
@[simp] theorem State.setV_ctx_fma (s : State) (r : Reg) (v : VWord) : (s.setV r v).ctx.fma = s.ctx.fma := rfl
@[simp] theorem State.setV_ctx_fetched (s : State) (r : Reg) (v : VWord) : (s.setV r v).ctx.fetched = s.ctx.fetched := rfl

/-! ### State.setM -/

@[simp] theorem State.setM_cur (s : State) (r : MReg) (v : Word) : (s.setM r v).cur = s.cur := rfl
@[simp] theorem State.setM_core (s : State) (r : MReg) (v : Word) : (s.setM r v).core = s.core := rfl
@[simp] theorem State.setM_ctxs (s : State) (r : MReg) (v : Word) : (s.setM r v).ctxs = s.ctxs := rfl
@[simp] theorem State.setM_cores (s : State) (r : MReg) (v : Word) : (s.setM r v).cores = s.cores := rfl
@[simp] theorem State.setM_clusters (s : State) (r : MReg) (v : Word) : (s.setM r v).clusters = s.clusters := rfl
@[simp] theorem State.setM_tileqs (s : State) (r : MReg) (v : Word) : (s.setM r v).tileqs = s.tileqs := rfl
@[simp] theorem State.setM_islands (s : State) (r : MReg) (v : Word) : (s.setM r v).islands = s.islands := rfl
@[simp] theorem State.setM_time (s : State) (r : MReg) (v : Word) : (s.setM r v).time = s.time := rfl
@[simp] theorem State.setM_clock (s : State) (r : MReg) (v : Word) : (s.setM r v).clock = s.clock := rfl
@[simp] theorem State.setM_latched (s : State) (r : MReg) (v : Word) : (s.setM r v).latched = s.latched := rfl
@[simp] theorem State.setM_mem (s : State) (r : MReg) (v : Word) : (s.setM r v).mem = s.mem := rfl
@[simp] theorem State.setM_hostMem (s : State) (r : MReg) (v : Word) : (s.setM r v).hostMem = s.hostMem := rfl
@[simp] theorem State.setM_owners (s : State) (r : MReg) (v : Word) : (s.setM r v).owners = s.owners := rfl
@[simp] theorem State.setM_tlb (s : State) (r : MReg) (v : Word) : (s.setM r v).tlb = s.tlb := rfl
@[simp] theorem State.setM_net (s : State) (r : MReg) (v : Word) : (s.setM r v).net = s.net := rfl
@[simp] theorem State.setM_sent (s : State) (r : MReg) (v : Word) : (s.setM r v).sent = s.sent := rfl
@[simp] theorem State.setM_orphans (s : State) (r : MReg) (v : Word) : (s.setM r v).orphans = s.orphans := rfl
@[simp] theorem State.setM_late (s : State) (r : MReg) (v : Word) : (s.setM r v).late = s.late := rfl
@[simp] theorem State.setM_checks (s : State) (r : MReg) (v : Word) : (s.setM r v).checks = s.checks := rfl
@[simp] theorem State.setM_upset (s : State) (r : MReg) (v : Word) : (s.setM r v).upset = s.upset := rfl
@[simp] theorem State.setM_read (s : State) (r : MReg) (v : Word) : (s.setM r v).read = s.read := rfl
@[simp] theorem State.setM_parts (s : State) (r : MReg) (v : Word) : (s.setM r v).parts = s.parts := rfl
@[simp] theorem State.setM_jobs (s : State) (r : MReg) (v : Word) : (s.setM r v).jobs = s.jobs := rfl
@[simp] theorem State.setM_exports (s : State) (r : MReg) (v : Word) : (s.setM r v).exports = s.exports := rfl
@[simp] theorem State.setM_loads (s : State) (r : MReg) (v : Word) : (s.setM r v).loads = s.loads := rfl
@[simp] theorem State.setM_vfs (s : State) (r : MReg) (v : Word) : (s.setM r v).vfs = s.vfs := rfl
@[simp] theorem State.setM_hqueues (s : State) (r : MReg) (v : Word) : (s.setM r v).hqueues = s.hqueues := rfl
@[simp] theorem State.setM_events (s : State) (r : MReg) (v : Word) : (s.setM r v).events = s.events := rfl
@[simp] theorem State.setM_msix (s : State) (r : MReg) (v : Word) : (s.setM r v).msix = s.msix := rfl
@[simp] theorem State.setM_dev (s : State) (r : MReg) (v : Word) : (s.setM r v).dev = s.dev := rfl
@[simp] theorem State.setM_nextId (s : State) (r : MReg) (v : Word) : (s.setM r v).nextId = s.nextId := rfl
@[simp] theorem State.setM_free (s : State) (r : MReg) (v : Word) : (s.setM r v).free = s.free := rfl
@[simp] theorem State.setM_agenda (s : State) (r : MReg) (v : Word) : (s.setM r v).agenda = s.agenda := rfl
@[simp] theorem State.setM_ctx_phase (s : State) (r : MReg) (v : Word) : (s.setM r v).ctx.phase = s.ctx.phase := rfl
@[simp] theorem State.setM_ctx_kind (s : State) (r : MReg) (v : Word) : (s.setM r v).ctx.kind = s.ctx.kind := rfl
@[simp] theorem State.setM_ctx_pc (s : State) (r : MReg) (v : Word) : (s.setM r v).ctx.pc = s.ctx.pc := rfl
@[simp] theorem State.setM_ctx_x (s : State) (r : MReg) (v : Word) : (s.setM r v).ctx.x = s.ctx.x := rfl
@[simp] theorem State.setM_ctx_f (s : State) (r : MReg) (v : Word) : (s.setM r v).ctx.f = s.ctx.f := rfl
@[simp] theorem State.setM_ctx_v (s : State) (r : MReg) (v : Word) : (s.setM r v).ctx.v = s.ctx.v := rfl
@[simp] theorem State.setM_ctx_valloc (s : State) (r : MReg) (v : Word) : (s.setM r v).ctx.valloc = s.ctx.valloc := rfl
@[simp] theorem State.setM_ctx_te (s : State) (r : MReg) (v : Word) : (s.setM r v).ctx.te = s.ctx.te := rfl
@[simp] theorem State.setM_ctx_rm (s : State) (r : MReg) (v : Word) : (s.setM r v).ctx.rm = s.ctx.rm := rfl
@[simp] theorem State.setM_ctx_flags (s : State) (r : MReg) (v : Word) : (s.setM r v).ctx.flags = s.ctx.flags := rfl
@[simp] theorem State.setM_ctx_lvl (s : State) (r : MReg) (v : Word) : (s.setM r v).ctx.lvl = s.ctx.lvl := rfl
@[simp] theorem State.setM_ctx_eff (s : State) (r : MReg) (v : Word) : (s.setM r v).ctx.eff = s.ctx.eff := rfl
@[simp] theorem State.setM_ctx_aging (s : State) (r : MReg) (v : Word) : (s.setM r v).ctx.aging = s.ctx.aging := rfl
@[simp] theorem State.setM_ctx_ie (s : State) (r : MReg) (v : Word) : (s.setM r v).ctx.ie = s.ctx.ie := rfl
@[simp] theorem State.setM_ctx_pie (s : State) (r : MReg) (v : Word) : (s.setM r v).ctx.pie = s.ctx.pie := rfl
@[simp] theorem State.setM_ctx_prv (s : State) (r : MReg) (v : Word) : (s.setM r v).ctx.prv = s.ctx.prv := rfl
@[simp] theorem State.setM_ctx_pprv (s : State) (r : MReg) (v : Word) : (s.setM r v).ctx.pprv = s.ctx.pprv := rfl
@[simp] theorem State.setM_ctx_arrv (s : State) (r : MReg) (v : Word) : (s.setM r v).ctx.arrv = s.ctx.arrv := rfl
@[simp] theorem State.setM_ctx_hnd (s : State) (r : MReg) (v : Word) : (s.setM r v).ctx.hnd = s.ctx.hnd := rfl
@[simp] theorem State.setM_ctx_hvn (s : State) (r : MReg) (v : Word) : (s.setM r v).ctx.hvn = s.ctx.hvn := rfl
@[simp] theorem State.setM_ctx_abt (s : State) (r : MReg) (v : Word) : (s.setM r v).ctx.abt = s.ctx.abt := rfl
@[simp] theorem State.setM_ctx_epc (s : State) (r : MReg) (v : Word) : (s.setM r v).ctx.epc = s.ctx.epc := rfl
@[simp] theorem State.setM_ctx_cause (s : State) (r : MReg) (v : Word) : (s.setM r v).ctx.cause = s.ctx.cause := rfl
@[simp] theorem State.setM_ctx_tval (s : State) (r : MReg) (v : Word) : (s.setM r v).ctx.tval = s.ctx.tval := rfl
@[simp] theorem State.setM_ctx_scratch (s : State) (r : MReg) (v : Word) : (s.setM r v).ctx.scratch = s.ctx.scratch := rfl
@[simp] theorem State.setM_ctx_tcmp (s : State) (r : MReg) (v : Word) : (s.setM r v).ctx.tcmp = s.ctx.tcmp := rfl
@[simp] theorem State.setM_ctx_instret (s : State) (r : MReg) (v : Word) : (s.setM r v).ctx.instret = s.ctx.instret := rfl
@[simp] theorem State.setM_ctx_psat (s : State) (r : MReg) (v : Word) : (s.setM r v).ctx.psat = s.ctx.psat := rfl
@[simp] theorem State.setM_ctx_cpc (s : State) (r : MReg) (v : Word) : (s.setM r v).ctx.cpc = s.ctx.cpc := rfl
@[simp] theorem State.setM_ctx_pend (s : State) (r : MReg) (v : Word) : (s.setM r v).ctx.pend = s.ctx.pend := rfl
@[simp] theorem State.setM_ctx_streams (s : State) (r : MReg) (v : Word) : (s.setM r v).ctx.streams = s.ctx.streams := rfl
@[simp] theorem State.setM_ctx_rep (s : State) (r : MReg) (v : Word) : (s.setM r v).ctx.rep = s.ctx.rep := rfl
@[simp] theorem State.setM_ctx_wd (s : State) (r : MReg) (v : Word) : (s.setM r v).ctx.wd = s.ctx.wd := rfl
@[simp] theorem State.setM_ctx_trigger (s : State) (r : MReg) (v : Word) : (s.setM r v).ctx.trigger = s.ctx.trigger := rfl
@[simp] theorem State.setM_ctx_heldq (s : State) (r : MReg) (v : Word) : (s.setM r v).ctx.heldq = s.ctx.heldq := rfl
@[simp] theorem State.setM_ctx_eng (s : State) (r : MReg) (v : Word) : (s.setM r v).ctx.eng = s.ctx.eng := rfl
@[simp] theorem State.setM_ctx_latched (s : State) (r : MReg) (v : Word) : (s.setM r v).ctx.latched = s.ctx.latched := rfl
@[simp] theorem State.setM_ctx_timer (s : State) (r : MReg) (v : Word) : (s.setM r v).ctx.timer = s.ctx.timer := rfl
@[simp] theorem State.setM_ctx_ipi (s : State) (r : MReg) (v : Word) : (s.setM r v).ctx.ipi = s.ctx.ipi := rfl
@[simp] theorem State.setM_ctx_debug (s : State) (r : MReg) (v : Word) : (s.setM r v).ctx.debug = s.ctx.debug := rfl
@[simp] theorem State.setM_ctx_region (s : State) (r : MReg) (v : Word) : (s.setM r v).ctx.region = s.ctx.region := rfl
@[simp] theorem State.setM_ctx_rtag (s : State) (r : MReg) (v : Word) : (s.setM r v).ctx.rtag = s.ctx.rtag := rfl
@[simp] theorem State.setM_ctx_wait (s : State) (r : MReg) (v : Word) : (s.setM r v).ctx.wait = s.ctx.wait := rfl
@[simp] theorem State.setM_ctx_drain (s : State) (r : MReg) (v : Word) : (s.setM r v).ctx.drain = s.ctx.drain := rfl
@[simp] theorem State.setM_ctx_early (s : State) (r : MReg) (v : Word) : (s.setM r v).ctx.early = s.ctx.early := rfl
@[simp] theorem State.setM_ctx_fma (s : State) (r : MReg) (v : Word) : (s.setM r v).ctx.fma = s.ctx.fma := rfl
@[simp] theorem State.setM_ctx_fetched (s : State) (r : MReg) (v : Word) : (s.setM r v).ctx.fetched = s.ctx.fetched := rfl

/-! ### State.setStream -/

@[simp] theorem State.setStream_cur (s : State) (i : BitVec 2) (t : Stream) : (s.setStream i t).cur = s.cur := rfl
@[simp] theorem State.setStream_core (s : State) (i : BitVec 2) (t : Stream) : (s.setStream i t).core = s.core := rfl
@[simp] theorem State.setStream_ctxs (s : State) (i : BitVec 2) (t : Stream) : (s.setStream i t).ctxs = s.ctxs := rfl
@[simp] theorem State.setStream_cores (s : State) (i : BitVec 2) (t : Stream) : (s.setStream i t).cores = s.cores := rfl
@[simp] theorem State.setStream_clusters (s : State) (i : BitVec 2) (t : Stream) : (s.setStream i t).clusters = s.clusters := rfl
@[simp] theorem State.setStream_tileqs (s : State) (i : BitVec 2) (t : Stream) : (s.setStream i t).tileqs = s.tileqs := rfl
@[simp] theorem State.setStream_islands (s : State) (i : BitVec 2) (t : Stream) : (s.setStream i t).islands = s.islands := rfl
@[simp] theorem State.setStream_time (s : State) (i : BitVec 2) (t : Stream) : (s.setStream i t).time = s.time := rfl
@[simp] theorem State.setStream_clock (s : State) (i : BitVec 2) (t : Stream) : (s.setStream i t).clock = s.clock := rfl
@[simp] theorem State.setStream_latched (s : State) (i : BitVec 2) (t : Stream) : (s.setStream i t).latched = s.latched := rfl
@[simp] theorem State.setStream_mem (s : State) (i : BitVec 2) (t : Stream) : (s.setStream i t).mem = s.mem := rfl
@[simp] theorem State.setStream_hostMem (s : State) (i : BitVec 2) (t : Stream) : (s.setStream i t).hostMem = s.hostMem := rfl
@[simp] theorem State.setStream_owners (s : State) (i : BitVec 2) (t : Stream) : (s.setStream i t).owners = s.owners := rfl
@[simp] theorem State.setStream_tlb (s : State) (i : BitVec 2) (t : Stream) : (s.setStream i t).tlb = s.tlb := rfl
@[simp] theorem State.setStream_net (s : State) (i : BitVec 2) (t : Stream) : (s.setStream i t).net = s.net := rfl
@[simp] theorem State.setStream_sent (s : State) (i : BitVec 2) (t : Stream) : (s.setStream i t).sent = s.sent := rfl
@[simp] theorem State.setStream_orphans (s : State) (i : BitVec 2) (t : Stream) : (s.setStream i t).orphans = s.orphans := rfl
@[simp] theorem State.setStream_late (s : State) (i : BitVec 2) (t : Stream) : (s.setStream i t).late = s.late := rfl
@[simp] theorem State.setStream_checks (s : State) (i : BitVec 2) (t : Stream) : (s.setStream i t).checks = s.checks := rfl
@[simp] theorem State.setStream_upset (s : State) (i : BitVec 2) (t : Stream) : (s.setStream i t).upset = s.upset := rfl
@[simp] theorem State.setStream_read (s : State) (i : BitVec 2) (t : Stream) : (s.setStream i t).read = s.read := rfl
@[simp] theorem State.setStream_parts (s : State) (i : BitVec 2) (t : Stream) : (s.setStream i t).parts = s.parts := rfl
@[simp] theorem State.setStream_jobs (s : State) (i : BitVec 2) (t : Stream) : (s.setStream i t).jobs = s.jobs := rfl
@[simp] theorem State.setStream_exports (s : State) (i : BitVec 2) (t : Stream) : (s.setStream i t).exports = s.exports := rfl
@[simp] theorem State.setStream_loads (s : State) (i : BitVec 2) (t : Stream) : (s.setStream i t).loads = s.loads := rfl
@[simp] theorem State.setStream_vfs (s : State) (i : BitVec 2) (t : Stream) : (s.setStream i t).vfs = s.vfs := rfl
@[simp] theorem State.setStream_hqueues (s : State) (i : BitVec 2) (t : Stream) : (s.setStream i t).hqueues = s.hqueues := rfl
@[simp] theorem State.setStream_events (s : State) (i : BitVec 2) (t : Stream) : (s.setStream i t).events = s.events := rfl
@[simp] theorem State.setStream_msix (s : State) (i : BitVec 2) (t : Stream) : (s.setStream i t).msix = s.msix := rfl
@[simp] theorem State.setStream_dev (s : State) (i : BitVec 2) (t : Stream) : (s.setStream i t).dev = s.dev := rfl
@[simp] theorem State.setStream_nextId (s : State) (i : BitVec 2) (t : Stream) : (s.setStream i t).nextId = s.nextId := rfl
@[simp] theorem State.setStream_free (s : State) (i : BitVec 2) (t : Stream) : (s.setStream i t).free = s.free := rfl
@[simp] theorem State.setStream_agenda (s : State) (i : BitVec 2) (t : Stream) : (s.setStream i t).agenda = s.agenda := rfl
@[simp] theorem State.setStream_ctx_phase (s : State) (i : BitVec 2) (t : Stream) : (s.setStream i t).ctx.phase = s.ctx.phase := rfl
@[simp] theorem State.setStream_ctx_kind (s : State) (i : BitVec 2) (t : Stream) : (s.setStream i t).ctx.kind = s.ctx.kind := rfl
@[simp] theorem State.setStream_ctx_pc (s : State) (i : BitVec 2) (t : Stream) : (s.setStream i t).ctx.pc = s.ctx.pc := rfl
@[simp] theorem State.setStream_ctx_x (s : State) (i : BitVec 2) (t : Stream) : (s.setStream i t).ctx.x = s.ctx.x := rfl
@[simp] theorem State.setStream_ctx_f (s : State) (i : BitVec 2) (t : Stream) : (s.setStream i t).ctx.f = s.ctx.f := rfl
@[simp] theorem State.setStream_ctx_v (s : State) (i : BitVec 2) (t : Stream) : (s.setStream i t).ctx.v = s.ctx.v := rfl
@[simp] theorem State.setStream_ctx_m (s : State) (i : BitVec 2) (t : Stream) : (s.setStream i t).ctx.m = s.ctx.m := rfl
@[simp] theorem State.setStream_ctx_valloc (s : State) (i : BitVec 2) (t : Stream) : (s.setStream i t).ctx.valloc = s.ctx.valloc := rfl
@[simp] theorem State.setStream_ctx_te (s : State) (i : BitVec 2) (t : Stream) : (s.setStream i t).ctx.te = s.ctx.te := rfl
@[simp] theorem State.setStream_ctx_rm (s : State) (i : BitVec 2) (t : Stream) : (s.setStream i t).ctx.rm = s.ctx.rm := rfl
@[simp] theorem State.setStream_ctx_flags (s : State) (i : BitVec 2) (t : Stream) : (s.setStream i t).ctx.flags = s.ctx.flags := rfl
@[simp] theorem State.setStream_ctx_lvl (s : State) (i : BitVec 2) (t : Stream) : (s.setStream i t).ctx.lvl = s.ctx.lvl := rfl
@[simp] theorem State.setStream_ctx_eff (s : State) (i : BitVec 2) (t : Stream) : (s.setStream i t).ctx.eff = s.ctx.eff := rfl
@[simp] theorem State.setStream_ctx_aging (s : State) (i : BitVec 2) (t : Stream) : (s.setStream i t).ctx.aging = s.ctx.aging := rfl
@[simp] theorem State.setStream_ctx_ie (s : State) (i : BitVec 2) (t : Stream) : (s.setStream i t).ctx.ie = s.ctx.ie := rfl
@[simp] theorem State.setStream_ctx_pie (s : State) (i : BitVec 2) (t : Stream) : (s.setStream i t).ctx.pie = s.ctx.pie := rfl
@[simp] theorem State.setStream_ctx_prv (s : State) (i : BitVec 2) (t : Stream) : (s.setStream i t).ctx.prv = s.ctx.prv := rfl
@[simp] theorem State.setStream_ctx_pprv (s : State) (i : BitVec 2) (t : Stream) : (s.setStream i t).ctx.pprv = s.ctx.pprv := rfl
@[simp] theorem State.setStream_ctx_arrv (s : State) (i : BitVec 2) (t : Stream) : (s.setStream i t).ctx.arrv = s.ctx.arrv := rfl
@[simp] theorem State.setStream_ctx_hnd (s : State) (i : BitVec 2) (t : Stream) : (s.setStream i t).ctx.hnd = s.ctx.hnd := rfl
@[simp] theorem State.setStream_ctx_hvn (s : State) (i : BitVec 2) (t : Stream) : (s.setStream i t).ctx.hvn = s.ctx.hvn := rfl
@[simp] theorem State.setStream_ctx_abt (s : State) (i : BitVec 2) (t : Stream) : (s.setStream i t).ctx.abt = s.ctx.abt := rfl
@[simp] theorem State.setStream_ctx_epc (s : State) (i : BitVec 2) (t : Stream) : (s.setStream i t).ctx.epc = s.ctx.epc := rfl
@[simp] theorem State.setStream_ctx_cause (s : State) (i : BitVec 2) (t : Stream) : (s.setStream i t).ctx.cause = s.ctx.cause := rfl
@[simp] theorem State.setStream_ctx_tval (s : State) (i : BitVec 2) (t : Stream) : (s.setStream i t).ctx.tval = s.ctx.tval := rfl
@[simp] theorem State.setStream_ctx_scratch (s : State) (i : BitVec 2) (t : Stream) : (s.setStream i t).ctx.scratch = s.ctx.scratch := rfl
@[simp] theorem State.setStream_ctx_tcmp (s : State) (i : BitVec 2) (t : Stream) : (s.setStream i t).ctx.tcmp = s.ctx.tcmp := rfl
@[simp] theorem State.setStream_ctx_instret (s : State) (i : BitVec 2) (t : Stream) : (s.setStream i t).ctx.instret = s.ctx.instret := rfl
@[simp] theorem State.setStream_ctx_psat (s : State) (i : BitVec 2) (t : Stream) : (s.setStream i t).ctx.psat = s.ctx.psat := rfl
@[simp] theorem State.setStream_ctx_cpc (s : State) (i : BitVec 2) (t : Stream) : (s.setStream i t).ctx.cpc = s.ctx.cpc := rfl
@[simp] theorem State.setStream_ctx_pend (s : State) (i : BitVec 2) (t : Stream) : (s.setStream i t).ctx.pend = s.ctx.pend := rfl
@[simp] theorem State.setStream_ctx_rep (s : State) (i : BitVec 2) (t : Stream) : (s.setStream i t).ctx.rep = s.ctx.rep := rfl
@[simp] theorem State.setStream_ctx_wd (s : State) (i : BitVec 2) (t : Stream) : (s.setStream i t).ctx.wd = s.ctx.wd := rfl
@[simp] theorem State.setStream_ctx_trigger (s : State) (i : BitVec 2) (t : Stream) : (s.setStream i t).ctx.trigger = s.ctx.trigger := rfl
@[simp] theorem State.setStream_ctx_heldq (s : State) (i : BitVec 2) (t : Stream) : (s.setStream i t).ctx.heldq = s.ctx.heldq := rfl
@[simp] theorem State.setStream_ctx_eng (s : State) (i : BitVec 2) (t : Stream) : (s.setStream i t).ctx.eng = s.ctx.eng := rfl
@[simp] theorem State.setStream_ctx_latched (s : State) (i : BitVec 2) (t : Stream) : (s.setStream i t).ctx.latched = s.ctx.latched := rfl
@[simp] theorem State.setStream_ctx_timer (s : State) (i : BitVec 2) (t : Stream) : (s.setStream i t).ctx.timer = s.ctx.timer := rfl
@[simp] theorem State.setStream_ctx_ipi (s : State) (i : BitVec 2) (t : Stream) : (s.setStream i t).ctx.ipi = s.ctx.ipi := rfl
@[simp] theorem State.setStream_ctx_debug (s : State) (i : BitVec 2) (t : Stream) : (s.setStream i t).ctx.debug = s.ctx.debug := rfl
@[simp] theorem State.setStream_ctx_region (s : State) (i : BitVec 2) (t : Stream) : (s.setStream i t).ctx.region = s.ctx.region := rfl
@[simp] theorem State.setStream_ctx_rtag (s : State) (i : BitVec 2) (t : Stream) : (s.setStream i t).ctx.rtag = s.ctx.rtag := rfl
@[simp] theorem State.setStream_ctx_wait (s : State) (i : BitVec 2) (t : Stream) : (s.setStream i t).ctx.wait = s.ctx.wait := rfl
@[simp] theorem State.setStream_ctx_drain (s : State) (i : BitVec 2) (t : Stream) : (s.setStream i t).ctx.drain = s.ctx.drain := rfl
@[simp] theorem State.setStream_ctx_early (s : State) (i : BitVec 2) (t : Stream) : (s.setStream i t).ctx.early = s.ctx.early := rfl
@[simp] theorem State.setStream_ctx_fma (s : State) (i : BitVec 2) (t : Stream) : (s.setStream i t).ctx.fma = s.ctx.fma := rfl
@[simp] theorem State.setStream_ctx_fetched (s : State) (i : BitVec 2) (t : Stream) : (s.setStream i t).ctx.fetched = s.ctx.fetched := rfl

/-! ### State.setTile -/

@[simp] theorem State.setTile_cur (s : State) (t : Tile) (r : TileReg) : (s.setTile t r).cur = s.cur := rfl
@[simp] theorem State.setTile_ctx (s : State) (t : Tile) (r : TileReg) : (s.setTile t r).ctx = s.ctx := rfl
@[simp] theorem State.setTile_ctxs (s : State) (t : Tile) (r : TileReg) : (s.setTile t r).ctxs = s.ctxs := rfl
@[simp] theorem State.setTile_cores (s : State) (t : Tile) (r : TileReg) : (s.setTile t r).cores = s.cores := rfl
@[simp] theorem State.setTile_clusters (s : State) (t : Tile) (r : TileReg) : (s.setTile t r).clusters = s.clusters := rfl
@[simp] theorem State.setTile_tileqs (s : State) (t : Tile) (r : TileReg) : (s.setTile t r).tileqs = s.tileqs := rfl
@[simp] theorem State.setTile_islands (s : State) (t : Tile) (r : TileReg) : (s.setTile t r).islands = s.islands := rfl
@[simp] theorem State.setTile_time (s : State) (t : Tile) (r : TileReg) : (s.setTile t r).time = s.time := rfl
@[simp] theorem State.setTile_clock (s : State) (t : Tile) (r : TileReg) : (s.setTile t r).clock = s.clock := rfl
@[simp] theorem State.setTile_latched (s : State) (t : Tile) (r : TileReg) : (s.setTile t r).latched = s.latched := rfl
@[simp] theorem State.setTile_mem (s : State) (t : Tile) (r : TileReg) : (s.setTile t r).mem = s.mem := rfl
@[simp] theorem State.setTile_hostMem (s : State) (t : Tile) (r : TileReg) : (s.setTile t r).hostMem = s.hostMem := rfl
@[simp] theorem State.setTile_owners (s : State) (t : Tile) (r : TileReg) : (s.setTile t r).owners = s.owners := rfl
@[simp] theorem State.setTile_tlb (s : State) (t : Tile) (r : TileReg) : (s.setTile t r).tlb = s.tlb := rfl
@[simp] theorem State.setTile_net (s : State) (t : Tile) (r : TileReg) : (s.setTile t r).net = s.net := rfl
@[simp] theorem State.setTile_sent (s : State) (t : Tile) (r : TileReg) : (s.setTile t r).sent = s.sent := rfl
@[simp] theorem State.setTile_orphans (s : State) (t : Tile) (r : TileReg) : (s.setTile t r).orphans = s.orphans := rfl
@[simp] theorem State.setTile_late (s : State) (t : Tile) (r : TileReg) : (s.setTile t r).late = s.late := rfl
@[simp] theorem State.setTile_checks (s : State) (t : Tile) (r : TileReg) : (s.setTile t r).checks = s.checks := rfl
@[simp] theorem State.setTile_upset (s : State) (t : Tile) (r : TileReg) : (s.setTile t r).upset = s.upset := rfl
@[simp] theorem State.setTile_read (s : State) (t : Tile) (r : TileReg) : (s.setTile t r).read = s.read := rfl
@[simp] theorem State.setTile_parts (s : State) (t : Tile) (r : TileReg) : (s.setTile t r).parts = s.parts := rfl
@[simp] theorem State.setTile_jobs (s : State) (t : Tile) (r : TileReg) : (s.setTile t r).jobs = s.jobs := rfl
@[simp] theorem State.setTile_exports (s : State) (t : Tile) (r : TileReg) : (s.setTile t r).exports = s.exports := rfl
@[simp] theorem State.setTile_loads (s : State) (t : Tile) (r : TileReg) : (s.setTile t r).loads = s.loads := rfl
@[simp] theorem State.setTile_vfs (s : State) (t : Tile) (r : TileReg) : (s.setTile t r).vfs = s.vfs := rfl
@[simp] theorem State.setTile_hqueues (s : State) (t : Tile) (r : TileReg) : (s.setTile t r).hqueues = s.hqueues := rfl
@[simp] theorem State.setTile_events (s : State) (t : Tile) (r : TileReg) : (s.setTile t r).events = s.events := rfl
@[simp] theorem State.setTile_msix (s : State) (t : Tile) (r : TileReg) : (s.setTile t r).msix = s.msix := rfl
@[simp] theorem State.setTile_dev (s : State) (t : Tile) (r : TileReg) : (s.setTile t r).dev = s.dev := rfl
@[simp] theorem State.setTile_nextId (s : State) (t : Tile) (r : TileReg) : (s.setTile t r).nextId = s.nextId := rfl
@[simp] theorem State.setTile_free (s : State) (t : Tile) (r : TileReg) : (s.setTile t r).free = s.free := rfl
@[simp] theorem State.setTile_agenda (s : State) (t : Tile) (r : TileReg) : (s.setTile t r).agenda = s.agenda := rfl
@[simp] theorem State.setTile_core_tvec (s : State) (t : Tile) (r : TileReg) : (s.setTile t r).core.tvec = s.core.tvec := rfl
@[simp] theorem State.setTile_core_hres (s : State) (t : Tile) (r : TileReg) : (s.setTile t r).core.hres = s.core.hres := rfl
@[simp] theorem State.setTile_core_cycOff (s : State) (t : Tile) (r : TileReg) : (s.setTile t r).core.cycOff = s.core.cycOff := rfl
@[simp] theorem State.setTile_core_tshape (s : State) (t : Tile) (r : TileReg) : (s.setTile t r).core.tshape = s.core.tshape := rfl
@[simp] theorem State.setTile_core_claim (s : State) (t : Tile) (r : TileReg) : (s.setTile t r).core.claim = s.core.claim := rfl
@[simp] theorem State.setTile_core_release (s : State) (t : Tile) (r : TileReg) : (s.setTile t r).core.release = s.core.release := rfl
@[simp] theorem State.setTile_core_tacqs (s : State) (t : Tile) (r : TileReg) : (s.setTile t r).core.tacqs = s.core.tacqs := rfl
@[simp] theorem State.setTile_core_offer (s : State) (t : Tile) (r : TileReg) : (s.setTile t r).core.offer = s.core.offer := rfl
@[simp] theorem State.setTile_core_tileq (s : State) (t : Tile) (r : TileReg) : (s.setTile t r).core.tileq = s.core.tileq := rfl
@[simp] theorem State.setTile_core_l1 (s : State) (t : Tile) (r : TileReg) : (s.setTile t r).core.l1 = s.core.l1 := rfl
@[simp] theorem State.setTile_core_l1i (s : State) (t : Tile) (r : TileReg) : (s.setTile t r).core.l1i = s.core.l1i := rfl
@[simp] theorem State.setTile_core_deque (s : State) (t : Tile) (r : TileReg) : (s.setTile t r).core.deque = s.core.deque := rfl
@[simp] theorem State.setTile_core_siding (s : State) (t : Tile) (r : TileReg) : (s.setTile t r).core.siding = s.core.siding := rfl
@[simp] theorem State.setTile_core_dqAt (s : State) (t : Tile) (r : TileReg) : (s.setTile t r).core.dqAt = s.core.dqAt := rfl
@[simp] theorem State.setTile_core_dqIn (s : State) (t : Tile) (r : TileReg) : (s.setTile t r).core.dqIn = s.core.dqIn := rfl
@[simp] theorem State.setTile_core_thief (s : State) (t : Tile) (r : TileReg) : (s.setTile t r).core.thief = s.core.thief := rfl
@[simp] theorem State.setTile_core_stealing (s : State) (t : Tile) (r : TileReg) : (s.setTile t r).core.stealing = s.core.stealing := rfl
@[simp] theorem State.setTile_core_inq0 (s : State) (t : Tile) (r : TileReg) : (s.setTile t r).core.inq0 = s.core.inq0 := rfl
@[simp] theorem State.setTile_core_inq1 (s : State) (t : Tile) (r : TileReg) : (s.setTile t r).core.inq1 = s.core.inq1 := rfl
@[simp] theorem State.setTile_core_out0 (s : State) (t : Tile) (r : TileReg) : (s.setTile t r).core.out0 = s.core.out0 := rfl
@[simp] theorem State.setTile_core_out1 (s : State) (t : Tile) (r : TileReg) : (s.setTile t r).core.out1 = s.core.out1 := rfl
@[simp] theorem State.setTile_core_resv0 (s : State) (t : Tile) (r : TileReg) : (s.setTile t r).core.resv0 = s.core.resv0 := rfl
@[simp] theorem State.setTile_core_resv1 (s : State) (t : Tile) (r : TileReg) : (s.setTile t r).core.resv1 = s.core.resv1 := rfl
@[simp] theorem State.setTile_core_seq0 (s : State) (t : Tile) (r : TileReg) : (s.setTile t r).core.seq0 = s.core.seq0 := rfl
@[simp] theorem State.setTile_core_seq1 (s : State) (t : Tile) (r : TileReg) : (s.setTile t r).core.seq1 = s.core.seq1 := rfl
@[simp] theorem State.setTile_core_regReqs (s : State) (t : Tile) (r : TileReg) : (s.setTile t r).core.regReqs = s.core.regReqs := rfl
@[simp] theorem State.setTile_core_tileActs (s : State) (t : Tile) (r : TileReg) : (s.setTile t r).core.tileActs = s.core.tileActs := rfl
@[simp] theorem State.setTile_core_last (s : State) (t : Tile) (r : TileReg) : (s.setTile t r).core.last = s.core.last := rfl
@[simp] theorem State.setTile_core_aside (s : State) (t : Tile) (r : TileReg) : (s.setTile t r).core.aside = s.core.aside := rfl
@[simp] theorem State.setTile_core_pmc (s : State) (t : Tile) (r : TileReg) : (s.setTile t r).core.pmc = s.core.pmc := rfl
@[simp] theorem State.setTile_core_pmcsel (s : State) (t : Tile) (r : TileReg) : (s.setTile t r).core.pmcsel = s.core.pmcsel := rfl
@[simp] theorem State.setTile_core_pmcovf (s : State) (t : Tile) (r : TileReg) : (s.setTile t r).core.pmcovf = s.core.pmcovf := rfl
@[simp] theorem State.setTile_core_due (s : State) (t : Tile) (r : TileReg) : (s.setTile t r).core.due = s.core.due := rfl
@[simp] theorem State.setTile_core_mon (s : State) (t : Tile) (r : TileReg) : (s.setTile t r).core.mon = s.core.mon := rfl
@[simp] theorem State.setTile_core_gqNext (s : State) (t : Tile) (r : TileReg) : (s.setTile t r).core.gqNext = s.core.gqNext := rfl
@[simp] theorem State.setTile_core_gqCount (s : State) (t : Tile) (r : TileReg) : (s.setTile t r).core.gqCount = s.core.gqCount := rfl
@[simp] theorem State.setTile_core_ecc (s : State) (t : Tile) (r : TileReg) : (s.setTile t r).core.ecc = s.core.ecc := rfl
@[simp] theorem State.setTile_core_injected (s : State) (t : Tile) (r : TileReg) : (s.setTile t r).core.injected = s.core.injected := rfl
@[simp] theorem State.setTile_core_mtvec (s : State) (t : Tile) (r : TileReg) : (s.setTile t r).core.mtvec = s.core.mtvec := rfl
@[simp] theorem State.setTile_core_mepc (s : State) (t : Tile) (r : TileReg) : (s.setTile t r).core.mepc = s.core.mepc := rfl
@[simp] theorem State.setTile_core_mcause (s : State) (t : Tile) (r : TileReg) : (s.setTile t r).core.mcause = s.core.mcause := rfl
@[simp] theorem State.setTile_core_mtval (s : State) (t : Tile) (r : TileReg) : (s.setTile t r).core.mtval = s.core.mtval := rfl
@[simp] theorem State.setTile_core_mscratch (s : State) (t : Tile) (r : TileReg) : (s.setTile t r).core.mscratch = s.core.mscratch := rfl
@[simp] theorem State.setTile_core_lastJob (s : State) (t : Tile) (r : TileReg) : (s.setTile t r).core.lastJob = s.core.lastJob := rfl

/-! ### State.setTshape -/

@[simp] theorem State.setTshape_cur (s : State) (t : Tile) (r : TShape) : (s.setTshape t r).cur = s.cur := rfl
@[simp] theorem State.setTshape_ctx (s : State) (t : Tile) (r : TShape) : (s.setTshape t r).ctx = s.ctx := rfl
@[simp] theorem State.setTshape_ctxs (s : State) (t : Tile) (r : TShape) : (s.setTshape t r).ctxs = s.ctxs := rfl
@[simp] theorem State.setTshape_cores (s : State) (t : Tile) (r : TShape) : (s.setTshape t r).cores = s.cores := rfl
@[simp] theorem State.setTshape_clusters (s : State) (t : Tile) (r : TShape) : (s.setTshape t r).clusters = s.clusters := rfl
@[simp] theorem State.setTshape_tileqs (s : State) (t : Tile) (r : TShape) : (s.setTshape t r).tileqs = s.tileqs := rfl
@[simp] theorem State.setTshape_islands (s : State) (t : Tile) (r : TShape) : (s.setTshape t r).islands = s.islands := rfl
@[simp] theorem State.setTshape_time (s : State) (t : Tile) (r : TShape) : (s.setTshape t r).time = s.time := rfl
@[simp] theorem State.setTshape_clock (s : State) (t : Tile) (r : TShape) : (s.setTshape t r).clock = s.clock := rfl
@[simp] theorem State.setTshape_latched (s : State) (t : Tile) (r : TShape) : (s.setTshape t r).latched = s.latched := rfl
@[simp] theorem State.setTshape_mem (s : State) (t : Tile) (r : TShape) : (s.setTshape t r).mem = s.mem := rfl
@[simp] theorem State.setTshape_hostMem (s : State) (t : Tile) (r : TShape) : (s.setTshape t r).hostMem = s.hostMem := rfl
@[simp] theorem State.setTshape_owners (s : State) (t : Tile) (r : TShape) : (s.setTshape t r).owners = s.owners := rfl
@[simp] theorem State.setTshape_tlb (s : State) (t : Tile) (r : TShape) : (s.setTshape t r).tlb = s.tlb := rfl
@[simp] theorem State.setTshape_net (s : State) (t : Tile) (r : TShape) : (s.setTshape t r).net = s.net := rfl
@[simp] theorem State.setTshape_sent (s : State) (t : Tile) (r : TShape) : (s.setTshape t r).sent = s.sent := rfl
@[simp] theorem State.setTshape_orphans (s : State) (t : Tile) (r : TShape) : (s.setTshape t r).orphans = s.orphans := rfl
@[simp] theorem State.setTshape_late (s : State) (t : Tile) (r : TShape) : (s.setTshape t r).late = s.late := rfl
@[simp] theorem State.setTshape_checks (s : State) (t : Tile) (r : TShape) : (s.setTshape t r).checks = s.checks := rfl
@[simp] theorem State.setTshape_upset (s : State) (t : Tile) (r : TShape) : (s.setTshape t r).upset = s.upset := rfl
@[simp] theorem State.setTshape_read (s : State) (t : Tile) (r : TShape) : (s.setTshape t r).read = s.read := rfl
@[simp] theorem State.setTshape_parts (s : State) (t : Tile) (r : TShape) : (s.setTshape t r).parts = s.parts := rfl
@[simp] theorem State.setTshape_jobs (s : State) (t : Tile) (r : TShape) : (s.setTshape t r).jobs = s.jobs := rfl
@[simp] theorem State.setTshape_exports (s : State) (t : Tile) (r : TShape) : (s.setTshape t r).exports = s.exports := rfl
@[simp] theorem State.setTshape_loads (s : State) (t : Tile) (r : TShape) : (s.setTshape t r).loads = s.loads := rfl
@[simp] theorem State.setTshape_vfs (s : State) (t : Tile) (r : TShape) : (s.setTshape t r).vfs = s.vfs := rfl
@[simp] theorem State.setTshape_hqueues (s : State) (t : Tile) (r : TShape) : (s.setTshape t r).hqueues = s.hqueues := rfl
@[simp] theorem State.setTshape_events (s : State) (t : Tile) (r : TShape) : (s.setTshape t r).events = s.events := rfl
@[simp] theorem State.setTshape_msix (s : State) (t : Tile) (r : TShape) : (s.setTshape t r).msix = s.msix := rfl
@[simp] theorem State.setTshape_dev (s : State) (t : Tile) (r : TShape) : (s.setTshape t r).dev = s.dev := rfl
@[simp] theorem State.setTshape_nextId (s : State) (t : Tile) (r : TShape) : (s.setTshape t r).nextId = s.nextId := rfl
@[simp] theorem State.setTshape_free (s : State) (t : Tile) (r : TShape) : (s.setTshape t r).free = s.free := rfl
@[simp] theorem State.setTshape_agenda (s : State) (t : Tile) (r : TShape) : (s.setTshape t r).agenda = s.agenda := rfl
@[simp] theorem State.setTshape_core_tvec (s : State) (t : Tile) (r : TShape) : (s.setTshape t r).core.tvec = s.core.tvec := rfl
@[simp] theorem State.setTshape_core_hres (s : State) (t : Tile) (r : TShape) : (s.setTshape t r).core.hres = s.core.hres := rfl
@[simp] theorem State.setTshape_core_cycOff (s : State) (t : Tile) (r : TShape) : (s.setTshape t r).core.cycOff = s.core.cycOff := rfl
@[simp] theorem State.setTshape_core_tiles (s : State) (t : Tile) (r : TShape) : (s.setTshape t r).core.tiles = s.core.tiles := rfl
@[simp] theorem State.setTshape_core_claim (s : State) (t : Tile) (r : TShape) : (s.setTshape t r).core.claim = s.core.claim := rfl
@[simp] theorem State.setTshape_core_release (s : State) (t : Tile) (r : TShape) : (s.setTshape t r).core.release = s.core.release := rfl
@[simp] theorem State.setTshape_core_tacqs (s : State) (t : Tile) (r : TShape) : (s.setTshape t r).core.tacqs = s.core.tacqs := rfl
@[simp] theorem State.setTshape_core_offer (s : State) (t : Tile) (r : TShape) : (s.setTshape t r).core.offer = s.core.offer := rfl
@[simp] theorem State.setTshape_core_tileq (s : State) (t : Tile) (r : TShape) : (s.setTshape t r).core.tileq = s.core.tileq := rfl
@[simp] theorem State.setTshape_core_l1 (s : State) (t : Tile) (r : TShape) : (s.setTshape t r).core.l1 = s.core.l1 := rfl
@[simp] theorem State.setTshape_core_l1i (s : State) (t : Tile) (r : TShape) : (s.setTshape t r).core.l1i = s.core.l1i := rfl
@[simp] theorem State.setTshape_core_deque (s : State) (t : Tile) (r : TShape) : (s.setTshape t r).core.deque = s.core.deque := rfl
@[simp] theorem State.setTshape_core_siding (s : State) (t : Tile) (r : TShape) : (s.setTshape t r).core.siding = s.core.siding := rfl
@[simp] theorem State.setTshape_core_dqAt (s : State) (t : Tile) (r : TShape) : (s.setTshape t r).core.dqAt = s.core.dqAt := rfl
@[simp] theorem State.setTshape_core_dqIn (s : State) (t : Tile) (r : TShape) : (s.setTshape t r).core.dqIn = s.core.dqIn := rfl
@[simp] theorem State.setTshape_core_thief (s : State) (t : Tile) (r : TShape) : (s.setTshape t r).core.thief = s.core.thief := rfl
@[simp] theorem State.setTshape_core_stealing (s : State) (t : Tile) (r : TShape) : (s.setTshape t r).core.stealing = s.core.stealing := rfl
@[simp] theorem State.setTshape_core_inq0 (s : State) (t : Tile) (r : TShape) : (s.setTshape t r).core.inq0 = s.core.inq0 := rfl
@[simp] theorem State.setTshape_core_inq1 (s : State) (t : Tile) (r : TShape) : (s.setTshape t r).core.inq1 = s.core.inq1 := rfl
@[simp] theorem State.setTshape_core_out0 (s : State) (t : Tile) (r : TShape) : (s.setTshape t r).core.out0 = s.core.out0 := rfl
@[simp] theorem State.setTshape_core_out1 (s : State) (t : Tile) (r : TShape) : (s.setTshape t r).core.out1 = s.core.out1 := rfl
@[simp] theorem State.setTshape_core_resv0 (s : State) (t : Tile) (r : TShape) : (s.setTshape t r).core.resv0 = s.core.resv0 := rfl
@[simp] theorem State.setTshape_core_resv1 (s : State) (t : Tile) (r : TShape) : (s.setTshape t r).core.resv1 = s.core.resv1 := rfl
@[simp] theorem State.setTshape_core_seq0 (s : State) (t : Tile) (r : TShape) : (s.setTshape t r).core.seq0 = s.core.seq0 := rfl
@[simp] theorem State.setTshape_core_seq1 (s : State) (t : Tile) (r : TShape) : (s.setTshape t r).core.seq1 = s.core.seq1 := rfl
@[simp] theorem State.setTshape_core_regReqs (s : State) (t : Tile) (r : TShape) : (s.setTshape t r).core.regReqs = s.core.regReqs := rfl
@[simp] theorem State.setTshape_core_tileActs (s : State) (t : Tile) (r : TShape) : (s.setTshape t r).core.tileActs = s.core.tileActs := rfl
@[simp] theorem State.setTshape_core_last (s : State) (t : Tile) (r : TShape) : (s.setTshape t r).core.last = s.core.last := rfl
@[simp] theorem State.setTshape_core_aside (s : State) (t : Tile) (r : TShape) : (s.setTshape t r).core.aside = s.core.aside := rfl
@[simp] theorem State.setTshape_core_pmc (s : State) (t : Tile) (r : TShape) : (s.setTshape t r).core.pmc = s.core.pmc := rfl
@[simp] theorem State.setTshape_core_pmcsel (s : State) (t : Tile) (r : TShape) : (s.setTshape t r).core.pmcsel = s.core.pmcsel := rfl
@[simp] theorem State.setTshape_core_pmcovf (s : State) (t : Tile) (r : TShape) : (s.setTshape t r).core.pmcovf = s.core.pmcovf := rfl
@[simp] theorem State.setTshape_core_due (s : State) (t : Tile) (r : TShape) : (s.setTshape t r).core.due = s.core.due := rfl
@[simp] theorem State.setTshape_core_mon (s : State) (t : Tile) (r : TShape) : (s.setTshape t r).core.mon = s.core.mon := rfl
@[simp] theorem State.setTshape_core_gqNext (s : State) (t : Tile) (r : TShape) : (s.setTshape t r).core.gqNext = s.core.gqNext := rfl
@[simp] theorem State.setTshape_core_gqCount (s : State) (t : Tile) (r : TShape) : (s.setTshape t r).core.gqCount = s.core.gqCount := rfl
@[simp] theorem State.setTshape_core_ecc (s : State) (t : Tile) (r : TShape) : (s.setTshape t r).core.ecc = s.core.ecc := rfl
@[simp] theorem State.setTshape_core_injected (s : State) (t : Tile) (r : TShape) : (s.setTshape t r).core.injected = s.core.injected := rfl
@[simp] theorem State.setTshape_core_mtvec (s : State) (t : Tile) (r : TShape) : (s.setTshape t r).core.mtvec = s.core.mtvec := rfl
@[simp] theorem State.setTshape_core_mepc (s : State) (t : Tile) (r : TShape) : (s.setTshape t r).core.mepc = s.core.mepc := rfl
@[simp] theorem State.setTshape_core_mcause (s : State) (t : Tile) (r : TShape) : (s.setTshape t r).core.mcause = s.core.mcause := rfl
@[simp] theorem State.setTshape_core_mtval (s : State) (t : Tile) (r : TShape) : (s.setTshape t r).core.mtval = s.core.mtval := rfl
@[simp] theorem State.setTshape_core_mscratch (s : State) (t : Tile) (r : TShape) : (s.setTshape t r).core.mscratch = s.core.mscratch := rfl
@[simp] theorem State.setTshape_core_lastJob (s : State) (t : Tile) (r : TShape) : (s.setTshape t r).core.lastJob = s.core.lastJob := rfl

/-! ### State.orFlags -/

@[simp] theorem State.orFlags_cur (s : State) (fl : Flags) : (s.orFlags fl).cur = s.cur := rfl
@[simp] theorem State.orFlags_core (s : State) (fl : Flags) : (s.orFlags fl).core = s.core := rfl
@[simp] theorem State.orFlags_ctxs (s : State) (fl : Flags) : (s.orFlags fl).ctxs = s.ctxs := rfl
@[simp] theorem State.orFlags_cores (s : State) (fl : Flags) : (s.orFlags fl).cores = s.cores := rfl
@[simp] theorem State.orFlags_clusters (s : State) (fl : Flags) : (s.orFlags fl).clusters = s.clusters := rfl
@[simp] theorem State.orFlags_tileqs (s : State) (fl : Flags) : (s.orFlags fl).tileqs = s.tileqs := rfl
@[simp] theorem State.orFlags_islands (s : State) (fl : Flags) : (s.orFlags fl).islands = s.islands := rfl
@[simp] theorem State.orFlags_time (s : State) (fl : Flags) : (s.orFlags fl).time = s.time := rfl
@[simp] theorem State.orFlags_clock (s : State) (fl : Flags) : (s.orFlags fl).clock = s.clock := rfl
@[simp] theorem State.orFlags_latched (s : State) (fl : Flags) : (s.orFlags fl).latched = s.latched := rfl
@[simp] theorem State.orFlags_mem (s : State) (fl : Flags) : (s.orFlags fl).mem = s.mem := rfl
@[simp] theorem State.orFlags_hostMem (s : State) (fl : Flags) : (s.orFlags fl).hostMem = s.hostMem := rfl
@[simp] theorem State.orFlags_owners (s : State) (fl : Flags) : (s.orFlags fl).owners = s.owners := rfl
@[simp] theorem State.orFlags_tlb (s : State) (fl : Flags) : (s.orFlags fl).tlb = s.tlb := rfl
@[simp] theorem State.orFlags_net (s : State) (fl : Flags) : (s.orFlags fl).net = s.net := rfl
@[simp] theorem State.orFlags_sent (s : State) (fl : Flags) : (s.orFlags fl).sent = s.sent := rfl
@[simp] theorem State.orFlags_orphans (s : State) (fl : Flags) : (s.orFlags fl).orphans = s.orphans := rfl
@[simp] theorem State.orFlags_late (s : State) (fl : Flags) : (s.orFlags fl).late = s.late := rfl
@[simp] theorem State.orFlags_checks (s : State) (fl : Flags) : (s.orFlags fl).checks = s.checks := rfl
@[simp] theorem State.orFlags_upset (s : State) (fl : Flags) : (s.orFlags fl).upset = s.upset := rfl
@[simp] theorem State.orFlags_read (s : State) (fl : Flags) : (s.orFlags fl).read = s.read := rfl
@[simp] theorem State.orFlags_parts (s : State) (fl : Flags) : (s.orFlags fl).parts = s.parts := rfl
@[simp] theorem State.orFlags_jobs (s : State) (fl : Flags) : (s.orFlags fl).jobs = s.jobs := rfl
@[simp] theorem State.orFlags_exports (s : State) (fl : Flags) : (s.orFlags fl).exports = s.exports := rfl
@[simp] theorem State.orFlags_loads (s : State) (fl : Flags) : (s.orFlags fl).loads = s.loads := rfl
@[simp] theorem State.orFlags_vfs (s : State) (fl : Flags) : (s.orFlags fl).vfs = s.vfs := rfl
@[simp] theorem State.orFlags_hqueues (s : State) (fl : Flags) : (s.orFlags fl).hqueues = s.hqueues := rfl
@[simp] theorem State.orFlags_events (s : State) (fl : Flags) : (s.orFlags fl).events = s.events := rfl
@[simp] theorem State.orFlags_msix (s : State) (fl : Flags) : (s.orFlags fl).msix = s.msix := rfl
@[simp] theorem State.orFlags_dev (s : State) (fl : Flags) : (s.orFlags fl).dev = s.dev := rfl
@[simp] theorem State.orFlags_nextId (s : State) (fl : Flags) : (s.orFlags fl).nextId = s.nextId := rfl
@[simp] theorem State.orFlags_free (s : State) (fl : Flags) : (s.orFlags fl).free = s.free := rfl
@[simp] theorem State.orFlags_agenda (s : State) (fl : Flags) : (s.orFlags fl).agenda = s.agenda := rfl
@[simp] theorem State.orFlags_ctx_phase (s : State) (fl : Flags) : (s.orFlags fl).ctx.phase = s.ctx.phase := rfl
@[simp] theorem State.orFlags_ctx_kind (s : State) (fl : Flags) : (s.orFlags fl).ctx.kind = s.ctx.kind := rfl
@[simp] theorem State.orFlags_ctx_pc (s : State) (fl : Flags) : (s.orFlags fl).ctx.pc = s.ctx.pc := rfl
@[simp] theorem State.orFlags_ctx_x (s : State) (fl : Flags) : (s.orFlags fl).ctx.x = s.ctx.x := rfl
@[simp] theorem State.orFlags_ctx_f (s : State) (fl : Flags) : (s.orFlags fl).ctx.f = s.ctx.f := rfl
@[simp] theorem State.orFlags_ctx_v (s : State) (fl : Flags) : (s.orFlags fl).ctx.v = s.ctx.v := rfl
@[simp] theorem State.orFlags_ctx_m (s : State) (fl : Flags) : (s.orFlags fl).ctx.m = s.ctx.m := rfl
@[simp] theorem State.orFlags_ctx_valloc (s : State) (fl : Flags) : (s.orFlags fl).ctx.valloc = s.ctx.valloc := rfl
@[simp] theorem State.orFlags_ctx_te (s : State) (fl : Flags) : (s.orFlags fl).ctx.te = s.ctx.te := rfl
@[simp] theorem State.orFlags_ctx_rm (s : State) (fl : Flags) : (s.orFlags fl).ctx.rm = s.ctx.rm := rfl
@[simp] theorem State.orFlags_ctx_lvl (s : State) (fl : Flags) : (s.orFlags fl).ctx.lvl = s.ctx.lvl := rfl
@[simp] theorem State.orFlags_ctx_eff (s : State) (fl : Flags) : (s.orFlags fl).ctx.eff = s.ctx.eff := rfl
@[simp] theorem State.orFlags_ctx_aging (s : State) (fl : Flags) : (s.orFlags fl).ctx.aging = s.ctx.aging := rfl
@[simp] theorem State.orFlags_ctx_ie (s : State) (fl : Flags) : (s.orFlags fl).ctx.ie = s.ctx.ie := rfl
@[simp] theorem State.orFlags_ctx_pie (s : State) (fl : Flags) : (s.orFlags fl).ctx.pie = s.ctx.pie := rfl
@[simp] theorem State.orFlags_ctx_prv (s : State) (fl : Flags) : (s.orFlags fl).ctx.prv = s.ctx.prv := rfl
@[simp] theorem State.orFlags_ctx_pprv (s : State) (fl : Flags) : (s.orFlags fl).ctx.pprv = s.ctx.pprv := rfl
@[simp] theorem State.orFlags_ctx_arrv (s : State) (fl : Flags) : (s.orFlags fl).ctx.arrv = s.ctx.arrv := rfl
@[simp] theorem State.orFlags_ctx_hnd (s : State) (fl : Flags) : (s.orFlags fl).ctx.hnd = s.ctx.hnd := rfl
@[simp] theorem State.orFlags_ctx_hvn (s : State) (fl : Flags) : (s.orFlags fl).ctx.hvn = s.ctx.hvn := rfl
@[simp] theorem State.orFlags_ctx_abt (s : State) (fl : Flags) : (s.orFlags fl).ctx.abt = s.ctx.abt := rfl
@[simp] theorem State.orFlags_ctx_epc (s : State) (fl : Flags) : (s.orFlags fl).ctx.epc = s.ctx.epc := rfl
@[simp] theorem State.orFlags_ctx_cause (s : State) (fl : Flags) : (s.orFlags fl).ctx.cause = s.ctx.cause := rfl
@[simp] theorem State.orFlags_ctx_tval (s : State) (fl : Flags) : (s.orFlags fl).ctx.tval = s.ctx.tval := rfl
@[simp] theorem State.orFlags_ctx_scratch (s : State) (fl : Flags) : (s.orFlags fl).ctx.scratch = s.ctx.scratch := rfl
@[simp] theorem State.orFlags_ctx_tcmp (s : State) (fl : Flags) : (s.orFlags fl).ctx.tcmp = s.ctx.tcmp := rfl
@[simp] theorem State.orFlags_ctx_instret (s : State) (fl : Flags) : (s.orFlags fl).ctx.instret = s.ctx.instret := rfl
@[simp] theorem State.orFlags_ctx_psat (s : State) (fl : Flags) : (s.orFlags fl).ctx.psat = s.ctx.psat := rfl
@[simp] theorem State.orFlags_ctx_cpc (s : State) (fl : Flags) : (s.orFlags fl).ctx.cpc = s.ctx.cpc := rfl
@[simp] theorem State.orFlags_ctx_pend (s : State) (fl : Flags) : (s.orFlags fl).ctx.pend = s.ctx.pend := rfl
@[simp] theorem State.orFlags_ctx_streams (s : State) (fl : Flags) : (s.orFlags fl).ctx.streams = s.ctx.streams := rfl
@[simp] theorem State.orFlags_ctx_rep (s : State) (fl : Flags) : (s.orFlags fl).ctx.rep = s.ctx.rep := rfl
@[simp] theorem State.orFlags_ctx_wd (s : State) (fl : Flags) : (s.orFlags fl).ctx.wd = s.ctx.wd := rfl
@[simp] theorem State.orFlags_ctx_trigger (s : State) (fl : Flags) : (s.orFlags fl).ctx.trigger = s.ctx.trigger := rfl
@[simp] theorem State.orFlags_ctx_heldq (s : State) (fl : Flags) : (s.orFlags fl).ctx.heldq = s.ctx.heldq := rfl
@[simp] theorem State.orFlags_ctx_eng (s : State) (fl : Flags) : (s.orFlags fl).ctx.eng = s.ctx.eng := rfl
@[simp] theorem State.orFlags_ctx_latched (s : State) (fl : Flags) : (s.orFlags fl).ctx.latched = s.ctx.latched := rfl
@[simp] theorem State.orFlags_ctx_timer (s : State) (fl : Flags) : (s.orFlags fl).ctx.timer = s.ctx.timer := rfl
@[simp] theorem State.orFlags_ctx_ipi (s : State) (fl : Flags) : (s.orFlags fl).ctx.ipi = s.ctx.ipi := rfl
@[simp] theorem State.orFlags_ctx_debug (s : State) (fl : Flags) : (s.orFlags fl).ctx.debug = s.ctx.debug := rfl
@[simp] theorem State.orFlags_ctx_region (s : State) (fl : Flags) : (s.orFlags fl).ctx.region = s.ctx.region := rfl
@[simp] theorem State.orFlags_ctx_rtag (s : State) (fl : Flags) : (s.orFlags fl).ctx.rtag = s.ctx.rtag := rfl
@[simp] theorem State.orFlags_ctx_wait (s : State) (fl : Flags) : (s.orFlags fl).ctx.wait = s.ctx.wait := rfl
@[simp] theorem State.orFlags_ctx_drain (s : State) (fl : Flags) : (s.orFlags fl).ctx.drain = s.ctx.drain := rfl
@[simp] theorem State.orFlags_ctx_early (s : State) (fl : Flags) : (s.orFlags fl).ctx.early = s.ctx.early := rfl
@[simp] theorem State.orFlags_ctx_fma (s : State) (fl : Flags) : (s.orFlags fl).ctx.fma = s.ctx.fma := rfl
@[simp] theorem State.orFlags_ctx_fetched (s : State) (fl : Flags) : (s.orFlags fl).ctx.fetched = s.ctx.fetched := rfl

/-! ### State.count -/

@[simp] theorem State.count_cur (s : State) : s.count.cur = s.cur := rfl
@[simp] theorem State.count_core (s : State) : s.count.core = s.core := rfl
@[simp] theorem State.count_ctxs (s : State) : s.count.ctxs = s.ctxs := rfl
@[simp] theorem State.count_cores (s : State) : s.count.cores = s.cores := rfl
@[simp] theorem State.count_clusters (s : State) : s.count.clusters = s.clusters := rfl
@[simp] theorem State.count_tileqs (s : State) : s.count.tileqs = s.tileqs := rfl
@[simp] theorem State.count_islands (s : State) : s.count.islands = s.islands := rfl
@[simp] theorem State.count_time (s : State) : s.count.time = s.time := rfl
@[simp] theorem State.count_clock (s : State) : s.count.clock = s.clock := rfl
@[simp] theorem State.count_latched (s : State) : s.count.latched = s.latched := rfl
@[simp] theorem State.count_mem (s : State) : s.count.mem = s.mem := rfl
@[simp] theorem State.count_hostMem (s : State) : s.count.hostMem = s.hostMem := rfl
@[simp] theorem State.count_owners (s : State) : s.count.owners = s.owners := rfl
@[simp] theorem State.count_tlb (s : State) : s.count.tlb = s.tlb := rfl
@[simp] theorem State.count_net (s : State) : s.count.net = s.net := rfl
@[simp] theorem State.count_sent (s : State) : s.count.sent = s.sent := rfl
@[simp] theorem State.count_orphans (s : State) : s.count.orphans = s.orphans := rfl
@[simp] theorem State.count_late (s : State) : s.count.late = s.late := rfl
@[simp] theorem State.count_checks (s : State) : s.count.checks = s.checks := rfl
@[simp] theorem State.count_upset (s : State) : s.count.upset = s.upset := rfl
@[simp] theorem State.count_read (s : State) : s.count.read = s.read := rfl
@[simp] theorem State.count_parts (s : State) : s.count.parts = s.parts := rfl
@[simp] theorem State.count_jobs (s : State) : s.count.jobs = s.jobs := rfl
@[simp] theorem State.count_exports (s : State) : s.count.exports = s.exports := rfl
@[simp] theorem State.count_loads (s : State) : s.count.loads = s.loads := rfl
@[simp] theorem State.count_vfs (s : State) : s.count.vfs = s.vfs := rfl
@[simp] theorem State.count_hqueues (s : State) : s.count.hqueues = s.hqueues := rfl
@[simp] theorem State.count_events (s : State) : s.count.events = s.events := rfl
@[simp] theorem State.count_msix (s : State) : s.count.msix = s.msix := rfl
@[simp] theorem State.count_dev (s : State) : s.count.dev = s.dev := rfl
@[simp] theorem State.count_nextId (s : State) : s.count.nextId = s.nextId := rfl
@[simp] theorem State.count_free (s : State) : s.count.free = s.free := rfl
@[simp] theorem State.count_agenda (s : State) : s.count.agenda = s.agenda := rfl
@[simp] theorem State.count_ctx_phase (s : State) : s.count.ctx.phase = s.ctx.phase := rfl
@[simp] theorem State.count_ctx_kind (s : State) : s.count.ctx.kind = s.ctx.kind := rfl
@[simp] theorem State.count_ctx_pc (s : State) : s.count.ctx.pc = s.ctx.pc := rfl
@[simp] theorem State.count_ctx_x (s : State) : s.count.ctx.x = s.ctx.x := rfl
@[simp] theorem State.count_ctx_f (s : State) : s.count.ctx.f = s.ctx.f := rfl
@[simp] theorem State.count_ctx_v (s : State) : s.count.ctx.v = s.ctx.v := rfl
@[simp] theorem State.count_ctx_m (s : State) : s.count.ctx.m = s.ctx.m := rfl
@[simp] theorem State.count_ctx_valloc (s : State) : s.count.ctx.valloc = s.ctx.valloc := rfl
@[simp] theorem State.count_ctx_te (s : State) : s.count.ctx.te = s.ctx.te := rfl
@[simp] theorem State.count_ctx_rm (s : State) : s.count.ctx.rm = s.ctx.rm := rfl
@[simp] theorem State.count_ctx_flags (s : State) : s.count.ctx.flags = s.ctx.flags := rfl
@[simp] theorem State.count_ctx_lvl (s : State) : s.count.ctx.lvl = s.ctx.lvl := rfl
@[simp] theorem State.count_ctx_eff (s : State) : s.count.ctx.eff = s.ctx.eff := rfl
@[simp] theorem State.count_ctx_aging (s : State) : s.count.ctx.aging = s.ctx.aging := rfl
@[simp] theorem State.count_ctx_ie (s : State) : s.count.ctx.ie = s.ctx.ie := rfl
@[simp] theorem State.count_ctx_pie (s : State) : s.count.ctx.pie = s.ctx.pie := rfl
@[simp] theorem State.count_ctx_prv (s : State) : s.count.ctx.prv = s.ctx.prv := rfl
@[simp] theorem State.count_ctx_pprv (s : State) : s.count.ctx.pprv = s.ctx.pprv := rfl
@[simp] theorem State.count_ctx_arrv (s : State) : s.count.ctx.arrv = s.ctx.arrv := rfl
@[simp] theorem State.count_ctx_hnd (s : State) : s.count.ctx.hnd = s.ctx.hnd := rfl
@[simp] theorem State.count_ctx_hvn (s : State) : s.count.ctx.hvn = s.ctx.hvn := rfl
@[simp] theorem State.count_ctx_abt (s : State) : s.count.ctx.abt = s.ctx.abt := rfl
@[simp] theorem State.count_ctx_epc (s : State) : s.count.ctx.epc = s.ctx.epc := rfl
@[simp] theorem State.count_ctx_cause (s : State) : s.count.ctx.cause = s.ctx.cause := rfl
@[simp] theorem State.count_ctx_tval (s : State) : s.count.ctx.tval = s.ctx.tval := rfl
@[simp] theorem State.count_ctx_scratch (s : State) : s.count.ctx.scratch = s.ctx.scratch := rfl
@[simp] theorem State.count_ctx_tcmp (s : State) : s.count.ctx.tcmp = s.ctx.tcmp := rfl
@[simp] theorem State.count_ctx_psat (s : State) : s.count.ctx.psat = s.ctx.psat := rfl
@[simp] theorem State.count_ctx_cpc (s : State) : s.count.ctx.cpc = s.ctx.cpc := rfl
@[simp] theorem State.count_ctx_pend (s : State) : s.count.ctx.pend = s.ctx.pend := rfl
@[simp] theorem State.count_ctx_streams (s : State) : s.count.ctx.streams = s.ctx.streams := rfl
@[simp] theorem State.count_ctx_rep (s : State) : s.count.ctx.rep = s.ctx.rep := rfl
@[simp] theorem State.count_ctx_wd (s : State) : s.count.ctx.wd = s.ctx.wd := rfl
@[simp] theorem State.count_ctx_trigger (s : State) : s.count.ctx.trigger = s.ctx.trigger := rfl
@[simp] theorem State.count_ctx_heldq (s : State) : s.count.ctx.heldq = s.ctx.heldq := rfl
@[simp] theorem State.count_ctx_eng (s : State) : s.count.ctx.eng = s.ctx.eng := rfl
@[simp] theorem State.count_ctx_latched (s : State) : s.count.ctx.latched = s.ctx.latched := rfl
@[simp] theorem State.count_ctx_timer (s : State) : s.count.ctx.timer = s.ctx.timer := rfl
@[simp] theorem State.count_ctx_ipi (s : State) : s.count.ctx.ipi = s.ctx.ipi := rfl
@[simp] theorem State.count_ctx_debug (s : State) : s.count.ctx.debug = s.ctx.debug := rfl
@[simp] theorem State.count_ctx_region (s : State) : s.count.ctx.region = s.ctx.region := rfl
@[simp] theorem State.count_ctx_rtag (s : State) : s.count.ctx.rtag = s.ctx.rtag := rfl
@[simp] theorem State.count_ctx_drain (s : State) : s.count.ctx.drain = s.ctx.drain := rfl
@[simp] theorem State.count_ctx_early (s : State) : s.count.ctx.early = s.ctx.early := rfl
@[simp] theorem State.count_ctx_fma (s : State) : s.count.ctx.fma = s.ctx.fma := rfl
@[simp] theorem State.count_ctx_fetched (s : State) : s.count.ctx.fetched = s.ctx.fetched := rfl

/-! ### State.retire -/

@[simp] theorem State.retire_cur (s : State) (len : Nat) : (State.retire len s).cur = s.cur := by unfold State.retire; split <;> rfl
@[simp] theorem State.retire_core (s : State) (len : Nat) : (State.retire len s).core = s.core := by unfold State.retire; split <;> rfl
@[simp] theorem State.retire_ctxs (s : State) (len : Nat) : (State.retire len s).ctxs = s.ctxs := by unfold State.retire; split <;> rfl
@[simp] theorem State.retire_cores (s : State) (len : Nat) : (State.retire len s).cores = s.cores := by unfold State.retire; split <;> rfl
@[simp] theorem State.retire_clusters (s : State) (len : Nat) : (State.retire len s).clusters = s.clusters := by unfold State.retire; split <;> rfl
@[simp] theorem State.retire_tileqs (s : State) (len : Nat) : (State.retire len s).tileqs = s.tileqs := by unfold State.retire; split <;> rfl
@[simp] theorem State.retire_islands (s : State) (len : Nat) : (State.retire len s).islands = s.islands := by unfold State.retire; split <;> rfl
@[simp] theorem State.retire_time (s : State) (len : Nat) : (State.retire len s).time = s.time := by unfold State.retire; split <;> rfl
@[simp] theorem State.retire_clock (s : State) (len : Nat) : (State.retire len s).clock = s.clock := by unfold State.retire; split <;> rfl
@[simp] theorem State.retire_latched (s : State) (len : Nat) : (State.retire len s).latched = s.latched := by unfold State.retire; split <;> rfl
@[simp] theorem State.retire_mem (s : State) (len : Nat) : (State.retire len s).mem = s.mem := by unfold State.retire; split <;> rfl
@[simp] theorem State.retire_hostMem (s : State) (len : Nat) : (State.retire len s).hostMem = s.hostMem := by unfold State.retire; split <;> rfl
@[simp] theorem State.retire_owners (s : State) (len : Nat) : (State.retire len s).owners = s.owners := by unfold State.retire; split <;> rfl
@[simp] theorem State.retire_tlb (s : State) (len : Nat) : (State.retire len s).tlb = s.tlb := by unfold State.retire; split <;> rfl
@[simp] theorem State.retire_net (s : State) (len : Nat) : (State.retire len s).net = s.net := by unfold State.retire; split <;> rfl
@[simp] theorem State.retire_sent (s : State) (len : Nat) : (State.retire len s).sent = s.sent := by unfold State.retire; split <;> rfl
@[simp] theorem State.retire_orphans (s : State) (len : Nat) : (State.retire len s).orphans = s.orphans := by unfold State.retire; split <;> rfl
@[simp] theorem State.retire_late (s : State) (len : Nat) : (State.retire len s).late = s.late := by unfold State.retire; split <;> rfl
@[simp] theorem State.retire_checks (s : State) (len : Nat) : (State.retire len s).checks = s.checks := by unfold State.retire; split <;> rfl
@[simp] theorem State.retire_upset (s : State) (len : Nat) : (State.retire len s).upset = s.upset := by unfold State.retire; split <;> rfl
@[simp] theorem State.retire_read (s : State) (len : Nat) : (State.retire len s).read = s.read := by unfold State.retire; split <;> rfl
@[simp] theorem State.retire_parts (s : State) (len : Nat) : (State.retire len s).parts = s.parts := by unfold State.retire; split <;> rfl
@[simp] theorem State.retire_jobs (s : State) (len : Nat) : (State.retire len s).jobs = s.jobs := by unfold State.retire; split <;> rfl
@[simp] theorem State.retire_exports (s : State) (len : Nat) : (State.retire len s).exports = s.exports := by unfold State.retire; split <;> rfl
@[simp] theorem State.retire_loads (s : State) (len : Nat) : (State.retire len s).loads = s.loads := by unfold State.retire; split <;> rfl
@[simp] theorem State.retire_vfs (s : State) (len : Nat) : (State.retire len s).vfs = s.vfs := by unfold State.retire; split <;> rfl
@[simp] theorem State.retire_hqueues (s : State) (len : Nat) : (State.retire len s).hqueues = s.hqueues := by unfold State.retire; split <;> rfl
@[simp] theorem State.retire_events (s : State) (len : Nat) : (State.retire len s).events = s.events := by unfold State.retire; split <;> rfl
@[simp] theorem State.retire_msix (s : State) (len : Nat) : (State.retire len s).msix = s.msix := by unfold State.retire; split <;> rfl
@[simp] theorem State.retire_dev (s : State) (len : Nat) : (State.retire len s).dev = s.dev := by unfold State.retire; split <;> rfl
@[simp] theorem State.retire_nextId (s : State) (len : Nat) : (State.retire len s).nextId = s.nextId := by unfold State.retire; split <;> rfl
@[simp] theorem State.retire_free (s : State) (len : Nat) : (State.retire len s).free = s.free := by unfold State.retire; split <;> rfl
@[simp] theorem State.retire_agenda (s : State) (len : Nat) : (State.retire len s).agenda = s.agenda := by unfold State.retire; split <;> rfl
@[simp] theorem State.retire_ctx_phase (s : State) (len : Nat) : (State.retire len s).ctx.phase = s.ctx.phase := by unfold State.retire; split <;> rfl
@[simp] theorem State.retire_ctx_kind (s : State) (len : Nat) : (State.retire len s).ctx.kind = s.ctx.kind := by unfold State.retire; split <;> rfl
@[simp] theorem State.retire_ctx_x (s : State) (len : Nat) : (State.retire len s).ctx.x = s.ctx.x := by unfold State.retire; split <;> rfl
@[simp] theorem State.retire_ctx_f (s : State) (len : Nat) : (State.retire len s).ctx.f = s.ctx.f := by unfold State.retire; split <;> rfl
@[simp] theorem State.retire_ctx_v (s : State) (len : Nat) : (State.retire len s).ctx.v = s.ctx.v := by unfold State.retire; split <;> rfl
@[simp] theorem State.retire_ctx_m (s : State) (len : Nat) : (State.retire len s).ctx.m = s.ctx.m := by unfold State.retire; split <;> rfl
@[simp] theorem State.retire_ctx_valloc (s : State) (len : Nat) : (State.retire len s).ctx.valloc = s.ctx.valloc := by unfold State.retire; split <;> rfl
@[simp] theorem State.retire_ctx_te (s : State) (len : Nat) : (State.retire len s).ctx.te = s.ctx.te := by unfold State.retire; split <;> rfl
@[simp] theorem State.retire_ctx_rm (s : State) (len : Nat) : (State.retire len s).ctx.rm = s.ctx.rm := by unfold State.retire; split <;> rfl
@[simp] theorem State.retire_ctx_flags (s : State) (len : Nat) : (State.retire len s).ctx.flags = s.ctx.flags := by unfold State.retire; split <;> rfl
@[simp] theorem State.retire_ctx_lvl (s : State) (len : Nat) : (State.retire len s).ctx.lvl = s.ctx.lvl := by unfold State.retire; split <;> rfl
@[simp] theorem State.retire_ctx_eff (s : State) (len : Nat) : (State.retire len s).ctx.eff = s.ctx.eff := by unfold State.retire; split <;> rfl
@[simp] theorem State.retire_ctx_aging (s : State) (len : Nat) : (State.retire len s).ctx.aging = s.ctx.aging := by unfold State.retire; split <;> rfl
@[simp] theorem State.retire_ctx_ie (s : State) (len : Nat) : (State.retire len s).ctx.ie = s.ctx.ie := by unfold State.retire; split <;> rfl
@[simp] theorem State.retire_ctx_pie (s : State) (len : Nat) : (State.retire len s).ctx.pie = s.ctx.pie := by unfold State.retire; split <;> rfl
@[simp] theorem State.retire_ctx_prv (s : State) (len : Nat) : (State.retire len s).ctx.prv = s.ctx.prv := by unfold State.retire; split <;> rfl
@[simp] theorem State.retire_ctx_pprv (s : State) (len : Nat) : (State.retire len s).ctx.pprv = s.ctx.pprv := by unfold State.retire; split <;> rfl
@[simp] theorem State.retire_ctx_arrv (s : State) (len : Nat) : (State.retire len s).ctx.arrv = s.ctx.arrv := by unfold State.retire; split <;> rfl
@[simp] theorem State.retire_ctx_hnd (s : State) (len : Nat) : (State.retire len s).ctx.hnd = s.ctx.hnd := by unfold State.retire; split <;> rfl
@[simp] theorem State.retire_ctx_hvn (s : State) (len : Nat) : (State.retire len s).ctx.hvn = s.ctx.hvn := by unfold State.retire; split <;> rfl
@[simp] theorem State.retire_ctx_abt (s : State) (len : Nat) : (State.retire len s).ctx.abt = s.ctx.abt := by unfold State.retire; split <;> rfl
@[simp] theorem State.retire_ctx_epc (s : State) (len : Nat) : (State.retire len s).ctx.epc = s.ctx.epc := by unfold State.retire; split <;> rfl
@[simp] theorem State.retire_ctx_cause (s : State) (len : Nat) : (State.retire len s).ctx.cause = s.ctx.cause := by unfold State.retire; split <;> rfl
@[simp] theorem State.retire_ctx_tval (s : State) (len : Nat) : (State.retire len s).ctx.tval = s.ctx.tval := by unfold State.retire; split <;> rfl
@[simp] theorem State.retire_ctx_scratch (s : State) (len : Nat) : (State.retire len s).ctx.scratch = s.ctx.scratch := by unfold State.retire; split <;> rfl
@[simp] theorem State.retire_ctx_tcmp (s : State) (len : Nat) : (State.retire len s).ctx.tcmp = s.ctx.tcmp := by unfold State.retire; split <;> rfl
@[simp] theorem State.retire_ctx_psat (s : State) (len : Nat) : (State.retire len s).ctx.psat = s.ctx.psat := by unfold State.retire; split <;> rfl
@[simp] theorem State.retire_ctx_cpc (s : State) (len : Nat) : (State.retire len s).ctx.cpc = s.ctx.cpc := by unfold State.retire; split <;> rfl
@[simp] theorem State.retire_ctx_pend (s : State) (len : Nat) : (State.retire len s).ctx.pend = s.ctx.pend := by unfold State.retire; split <;> rfl
@[simp] theorem State.retire_ctx_streams (s : State) (len : Nat) : (State.retire len s).ctx.streams = s.ctx.streams := by unfold State.retire; split <;> rfl
@[simp] theorem State.retire_ctx_rep (s : State) (len : Nat) : (State.retire len s).ctx.rep = s.ctx.rep := by unfold State.retire; split <;> rfl
@[simp] theorem State.retire_ctx_wd (s : State) (len : Nat) : (State.retire len s).ctx.wd = s.ctx.wd := by unfold State.retire; split <;> rfl
@[simp] theorem State.retire_ctx_trigger (s : State) (len : Nat) : (State.retire len s).ctx.trigger = s.ctx.trigger := by unfold State.retire; split <;> rfl
@[simp] theorem State.retire_ctx_heldq (s : State) (len : Nat) : (State.retire len s).ctx.heldq = s.ctx.heldq := by unfold State.retire; split <;> rfl
@[simp] theorem State.retire_ctx_eng (s : State) (len : Nat) : (State.retire len s).ctx.eng = s.ctx.eng := by unfold State.retire; split <;> rfl
@[simp] theorem State.retire_ctx_latched (s : State) (len : Nat) : (State.retire len s).ctx.latched = s.ctx.latched := by unfold State.retire; split <;> rfl
@[simp] theorem State.retire_ctx_timer (s : State) (len : Nat) : (State.retire len s).ctx.timer = s.ctx.timer := by unfold State.retire; split <;> rfl
@[simp] theorem State.retire_ctx_ipi (s : State) (len : Nat) : (State.retire len s).ctx.ipi = s.ctx.ipi := by unfold State.retire; split <;> rfl
@[simp] theorem State.retire_ctx_debug (s : State) (len : Nat) : (State.retire len s).ctx.debug = s.ctx.debug := by unfold State.retire; split <;> rfl
@[simp] theorem State.retire_ctx_region (s : State) (len : Nat) : (State.retire len s).ctx.region = s.ctx.region := by unfold State.retire; split <;> rfl
@[simp] theorem State.retire_ctx_rtag (s : State) (len : Nat) : (State.retire len s).ctx.rtag = s.ctx.rtag := by unfold State.retire; split <;> rfl
@[simp] theorem State.retire_ctx_drain (s : State) (len : Nat) : (State.retire len s).ctx.drain = s.ctx.drain := by unfold State.retire; split <;> rfl
@[simp] theorem State.retire_ctx_early (s : State) (len : Nat) : (State.retire len s).ctx.early = s.ctx.early := by unfold State.retire; split <;> rfl
@[simp] theorem State.retire_ctx_fma (s : State) (len : Nat) : (State.retire len s).ctx.fma = s.ctx.fma := by unfold State.retire; split <;> rfl
@[simp] theorem State.retire_ctx_fetched (s : State) (len : Nat) : (State.retire len s).ctx.fetched = s.ctx.fetched := by unfold State.retire; split <;> rfl

/-! ### State.jump -/

@[simp] theorem State.jump_cur (s : State) (t : Word) : (State.jump t s).cur = s.cur := rfl
@[simp] theorem State.jump_core (s : State) (t : Word) : (State.jump t s).core = s.core := rfl
@[simp] theorem State.jump_ctxs (s : State) (t : Word) : (State.jump t s).ctxs = s.ctxs := rfl
@[simp] theorem State.jump_cores (s : State) (t : Word) : (State.jump t s).cores = s.cores := rfl
@[simp] theorem State.jump_clusters (s : State) (t : Word) : (State.jump t s).clusters = s.clusters := rfl
@[simp] theorem State.jump_tileqs (s : State) (t : Word) : (State.jump t s).tileqs = s.tileqs := rfl
@[simp] theorem State.jump_islands (s : State) (t : Word) : (State.jump t s).islands = s.islands := rfl
@[simp] theorem State.jump_time (s : State) (t : Word) : (State.jump t s).time = s.time := rfl
@[simp] theorem State.jump_clock (s : State) (t : Word) : (State.jump t s).clock = s.clock := rfl
@[simp] theorem State.jump_latched (s : State) (t : Word) : (State.jump t s).latched = s.latched := rfl
@[simp] theorem State.jump_mem (s : State) (t : Word) : (State.jump t s).mem = s.mem := rfl
@[simp] theorem State.jump_hostMem (s : State) (t : Word) : (State.jump t s).hostMem = s.hostMem := rfl
@[simp] theorem State.jump_owners (s : State) (t : Word) : (State.jump t s).owners = s.owners := rfl
@[simp] theorem State.jump_tlb (s : State) (t : Word) : (State.jump t s).tlb = s.tlb := rfl
@[simp] theorem State.jump_net (s : State) (t : Word) : (State.jump t s).net = s.net := rfl
@[simp] theorem State.jump_sent (s : State) (t : Word) : (State.jump t s).sent = s.sent := rfl
@[simp] theorem State.jump_orphans (s : State) (t : Word) : (State.jump t s).orphans = s.orphans := rfl
@[simp] theorem State.jump_late (s : State) (t : Word) : (State.jump t s).late = s.late := rfl
@[simp] theorem State.jump_checks (s : State) (t : Word) : (State.jump t s).checks = s.checks := rfl
@[simp] theorem State.jump_upset (s : State) (t : Word) : (State.jump t s).upset = s.upset := rfl
@[simp] theorem State.jump_read (s : State) (t : Word) : (State.jump t s).read = s.read := rfl
@[simp] theorem State.jump_parts (s : State) (t : Word) : (State.jump t s).parts = s.parts := rfl
@[simp] theorem State.jump_jobs (s : State) (t : Word) : (State.jump t s).jobs = s.jobs := rfl
@[simp] theorem State.jump_exports (s : State) (t : Word) : (State.jump t s).exports = s.exports := rfl
@[simp] theorem State.jump_loads (s : State) (t : Word) : (State.jump t s).loads = s.loads := rfl
@[simp] theorem State.jump_vfs (s : State) (t : Word) : (State.jump t s).vfs = s.vfs := rfl
@[simp] theorem State.jump_hqueues (s : State) (t : Word) : (State.jump t s).hqueues = s.hqueues := rfl
@[simp] theorem State.jump_events (s : State) (t : Word) : (State.jump t s).events = s.events := rfl
@[simp] theorem State.jump_msix (s : State) (t : Word) : (State.jump t s).msix = s.msix := rfl
@[simp] theorem State.jump_dev (s : State) (t : Word) : (State.jump t s).dev = s.dev := rfl
@[simp] theorem State.jump_nextId (s : State) (t : Word) : (State.jump t s).nextId = s.nextId := rfl
@[simp] theorem State.jump_free (s : State) (t : Word) : (State.jump t s).free = s.free := rfl
@[simp] theorem State.jump_agenda (s : State) (t : Word) : (State.jump t s).agenda = s.agenda := rfl
@[simp] theorem State.jump_ctx_phase (s : State) (t : Word) : (State.jump t s).ctx.phase = s.ctx.phase := rfl
@[simp] theorem State.jump_ctx_kind (s : State) (t : Word) : (State.jump t s).ctx.kind = s.ctx.kind := rfl
@[simp] theorem State.jump_ctx_x (s : State) (t : Word) : (State.jump t s).ctx.x = s.ctx.x := rfl
@[simp] theorem State.jump_ctx_f (s : State) (t : Word) : (State.jump t s).ctx.f = s.ctx.f := rfl
@[simp] theorem State.jump_ctx_v (s : State) (t : Word) : (State.jump t s).ctx.v = s.ctx.v := rfl
@[simp] theorem State.jump_ctx_m (s : State) (t : Word) : (State.jump t s).ctx.m = s.ctx.m := rfl
@[simp] theorem State.jump_ctx_valloc (s : State) (t : Word) : (State.jump t s).ctx.valloc = s.ctx.valloc := rfl
@[simp] theorem State.jump_ctx_te (s : State) (t : Word) : (State.jump t s).ctx.te = s.ctx.te := rfl
@[simp] theorem State.jump_ctx_rm (s : State) (t : Word) : (State.jump t s).ctx.rm = s.ctx.rm := rfl
@[simp] theorem State.jump_ctx_flags (s : State) (t : Word) : (State.jump t s).ctx.flags = s.ctx.flags := rfl
@[simp] theorem State.jump_ctx_lvl (s : State) (t : Word) : (State.jump t s).ctx.lvl = s.ctx.lvl := rfl
@[simp] theorem State.jump_ctx_eff (s : State) (t : Word) : (State.jump t s).ctx.eff = s.ctx.eff := rfl
@[simp] theorem State.jump_ctx_aging (s : State) (t : Word) : (State.jump t s).ctx.aging = s.ctx.aging := rfl
@[simp] theorem State.jump_ctx_ie (s : State) (t : Word) : (State.jump t s).ctx.ie = s.ctx.ie := rfl
@[simp] theorem State.jump_ctx_pie (s : State) (t : Word) : (State.jump t s).ctx.pie = s.ctx.pie := rfl
@[simp] theorem State.jump_ctx_prv (s : State) (t : Word) : (State.jump t s).ctx.prv = s.ctx.prv := rfl
@[simp] theorem State.jump_ctx_pprv (s : State) (t : Word) : (State.jump t s).ctx.pprv = s.ctx.pprv := rfl
@[simp] theorem State.jump_ctx_arrv (s : State) (t : Word) : (State.jump t s).ctx.arrv = s.ctx.arrv := rfl
@[simp] theorem State.jump_ctx_hnd (s : State) (t : Word) : (State.jump t s).ctx.hnd = s.ctx.hnd := rfl
@[simp] theorem State.jump_ctx_hvn (s : State) (t : Word) : (State.jump t s).ctx.hvn = s.ctx.hvn := rfl
@[simp] theorem State.jump_ctx_abt (s : State) (t : Word) : (State.jump t s).ctx.abt = s.ctx.abt := rfl
@[simp] theorem State.jump_ctx_epc (s : State) (t : Word) : (State.jump t s).ctx.epc = s.ctx.epc := rfl
@[simp] theorem State.jump_ctx_cause (s : State) (t : Word) : (State.jump t s).ctx.cause = s.ctx.cause := rfl
@[simp] theorem State.jump_ctx_tval (s : State) (t : Word) : (State.jump t s).ctx.tval = s.ctx.tval := rfl
@[simp] theorem State.jump_ctx_scratch (s : State) (t : Word) : (State.jump t s).ctx.scratch = s.ctx.scratch := rfl
@[simp] theorem State.jump_ctx_tcmp (s : State) (t : Word) : (State.jump t s).ctx.tcmp = s.ctx.tcmp := rfl
@[simp] theorem State.jump_ctx_psat (s : State) (t : Word) : (State.jump t s).ctx.psat = s.ctx.psat := rfl
@[simp] theorem State.jump_ctx_cpc (s : State) (t : Word) : (State.jump t s).ctx.cpc = s.ctx.cpc := rfl
@[simp] theorem State.jump_ctx_pend (s : State) (t : Word) : (State.jump t s).ctx.pend = s.ctx.pend := rfl
@[simp] theorem State.jump_ctx_streams (s : State) (t : Word) : (State.jump t s).ctx.streams = s.ctx.streams := rfl
@[simp] theorem State.jump_ctx_rep (s : State) (t : Word) : (State.jump t s).ctx.rep = s.ctx.rep := rfl
@[simp] theorem State.jump_ctx_wd (s : State) (t : Word) : (State.jump t s).ctx.wd = s.ctx.wd := rfl
@[simp] theorem State.jump_ctx_trigger (s : State) (t : Word) : (State.jump t s).ctx.trigger = s.ctx.trigger := rfl
@[simp] theorem State.jump_ctx_heldq (s : State) (t : Word) : (State.jump t s).ctx.heldq = s.ctx.heldq := rfl
@[simp] theorem State.jump_ctx_eng (s : State) (t : Word) : (State.jump t s).ctx.eng = s.ctx.eng := rfl
@[simp] theorem State.jump_ctx_latched (s : State) (t : Word) : (State.jump t s).ctx.latched = s.ctx.latched := rfl
@[simp] theorem State.jump_ctx_timer (s : State) (t : Word) : (State.jump t s).ctx.timer = s.ctx.timer := rfl
@[simp] theorem State.jump_ctx_ipi (s : State) (t : Word) : (State.jump t s).ctx.ipi = s.ctx.ipi := rfl
@[simp] theorem State.jump_ctx_debug (s : State) (t : Word) : (State.jump t s).ctx.debug = s.ctx.debug := rfl
@[simp] theorem State.jump_ctx_region (s : State) (t : Word) : (State.jump t s).ctx.region = s.ctx.region := rfl
@[simp] theorem State.jump_ctx_rtag (s : State) (t : Word) : (State.jump t s).ctx.rtag = s.ctx.rtag := rfl
@[simp] theorem State.jump_ctx_drain (s : State) (t : Word) : (State.jump t s).ctx.drain = s.ctx.drain := rfl
@[simp] theorem State.jump_ctx_early (s : State) (t : Word) : (State.jump t s).ctx.early = s.ctx.early := rfl
@[simp] theorem State.jump_ctx_fma (s : State) (t : Word) : (State.jump t s).ctx.fma = s.ctx.fma := rfl
@[simp] theorem State.jump_ctx_fetched (s : State) (t : Word) : (State.jump t s).ctx.fetched = s.ctx.fetched := rfl

/-! ### State.stall -/

@[simp] theorem State.stall_cur (s : State) (w : Wait) : (State.stall w s).cur = s.cur := rfl
@[simp] theorem State.stall_core (s : State) (w : Wait) : (State.stall w s).core = s.core := rfl
@[simp] theorem State.stall_ctxs (s : State) (w : Wait) : (State.stall w s).ctxs = s.ctxs := rfl
@[simp] theorem State.stall_cores (s : State) (w : Wait) : (State.stall w s).cores = s.cores := rfl
@[simp] theorem State.stall_clusters (s : State) (w : Wait) : (State.stall w s).clusters = s.clusters := rfl
@[simp] theorem State.stall_tileqs (s : State) (w : Wait) : (State.stall w s).tileqs = s.tileqs := rfl
@[simp] theorem State.stall_islands (s : State) (w : Wait) : (State.stall w s).islands = s.islands := rfl
@[simp] theorem State.stall_time (s : State) (w : Wait) : (State.stall w s).time = s.time := rfl
@[simp] theorem State.stall_clock (s : State) (w : Wait) : (State.stall w s).clock = s.clock := rfl
@[simp] theorem State.stall_latched (s : State) (w : Wait) : (State.stall w s).latched = s.latched := rfl
@[simp] theorem State.stall_mem (s : State) (w : Wait) : (State.stall w s).mem = s.mem := rfl
@[simp] theorem State.stall_hostMem (s : State) (w : Wait) : (State.stall w s).hostMem = s.hostMem := rfl
@[simp] theorem State.stall_owners (s : State) (w : Wait) : (State.stall w s).owners = s.owners := rfl
@[simp] theorem State.stall_tlb (s : State) (w : Wait) : (State.stall w s).tlb = s.tlb := rfl
@[simp] theorem State.stall_net (s : State) (w : Wait) : (State.stall w s).net = s.net := rfl
@[simp] theorem State.stall_sent (s : State) (w : Wait) : (State.stall w s).sent = s.sent := rfl
@[simp] theorem State.stall_orphans (s : State) (w : Wait) : (State.stall w s).orphans = s.orphans := rfl
@[simp] theorem State.stall_late (s : State) (w : Wait) : (State.stall w s).late = s.late := rfl
@[simp] theorem State.stall_checks (s : State) (w : Wait) : (State.stall w s).checks = s.checks := rfl
@[simp] theorem State.stall_upset (s : State) (w : Wait) : (State.stall w s).upset = s.upset := rfl
@[simp] theorem State.stall_read (s : State) (w : Wait) : (State.stall w s).read = s.read := rfl
@[simp] theorem State.stall_parts (s : State) (w : Wait) : (State.stall w s).parts = s.parts := rfl
@[simp] theorem State.stall_jobs (s : State) (w : Wait) : (State.stall w s).jobs = s.jobs := rfl
@[simp] theorem State.stall_exports (s : State) (w : Wait) : (State.stall w s).exports = s.exports := rfl
@[simp] theorem State.stall_loads (s : State) (w : Wait) : (State.stall w s).loads = s.loads := rfl
@[simp] theorem State.stall_vfs (s : State) (w : Wait) : (State.stall w s).vfs = s.vfs := rfl
@[simp] theorem State.stall_hqueues (s : State) (w : Wait) : (State.stall w s).hqueues = s.hqueues := rfl
@[simp] theorem State.stall_events (s : State) (w : Wait) : (State.stall w s).events = s.events := rfl
@[simp] theorem State.stall_msix (s : State) (w : Wait) : (State.stall w s).msix = s.msix := rfl
@[simp] theorem State.stall_dev (s : State) (w : Wait) : (State.stall w s).dev = s.dev := rfl
@[simp] theorem State.stall_nextId (s : State) (w : Wait) : (State.stall w s).nextId = s.nextId := rfl
@[simp] theorem State.stall_free (s : State) (w : Wait) : (State.stall w s).free = s.free := rfl
@[simp] theorem State.stall_agenda (s : State) (w : Wait) : (State.stall w s).agenda = s.agenda := rfl
@[simp] theorem State.stall_ctx_phase (s : State) (w : Wait) : (State.stall w s).ctx.phase = s.ctx.phase := rfl
@[simp] theorem State.stall_ctx_kind (s : State) (w : Wait) : (State.stall w s).ctx.kind = s.ctx.kind := rfl
@[simp] theorem State.stall_ctx_pc (s : State) (w : Wait) : (State.stall w s).ctx.pc = s.ctx.pc := rfl
@[simp] theorem State.stall_ctx_x (s : State) (w : Wait) : (State.stall w s).ctx.x = s.ctx.x := rfl
@[simp] theorem State.stall_ctx_f (s : State) (w : Wait) : (State.stall w s).ctx.f = s.ctx.f := rfl
@[simp] theorem State.stall_ctx_v (s : State) (w : Wait) : (State.stall w s).ctx.v = s.ctx.v := rfl
@[simp] theorem State.stall_ctx_m (s : State) (w : Wait) : (State.stall w s).ctx.m = s.ctx.m := rfl
@[simp] theorem State.stall_ctx_valloc (s : State) (w : Wait) : (State.stall w s).ctx.valloc = s.ctx.valloc := rfl
@[simp] theorem State.stall_ctx_te (s : State) (w : Wait) : (State.stall w s).ctx.te = s.ctx.te := rfl
@[simp] theorem State.stall_ctx_rm (s : State) (w : Wait) : (State.stall w s).ctx.rm = s.ctx.rm := rfl
@[simp] theorem State.stall_ctx_flags (s : State) (w : Wait) : (State.stall w s).ctx.flags = s.ctx.flags := rfl
@[simp] theorem State.stall_ctx_lvl (s : State) (w : Wait) : (State.stall w s).ctx.lvl = s.ctx.lvl := rfl
@[simp] theorem State.stall_ctx_eff (s : State) (w : Wait) : (State.stall w s).ctx.eff = s.ctx.eff := rfl
@[simp] theorem State.stall_ctx_aging (s : State) (w : Wait) : (State.stall w s).ctx.aging = s.ctx.aging := rfl
@[simp] theorem State.stall_ctx_ie (s : State) (w : Wait) : (State.stall w s).ctx.ie = s.ctx.ie := rfl
@[simp] theorem State.stall_ctx_pie (s : State) (w : Wait) : (State.stall w s).ctx.pie = s.ctx.pie := rfl
@[simp] theorem State.stall_ctx_prv (s : State) (w : Wait) : (State.stall w s).ctx.prv = s.ctx.prv := rfl
@[simp] theorem State.stall_ctx_pprv (s : State) (w : Wait) : (State.stall w s).ctx.pprv = s.ctx.pprv := rfl
@[simp] theorem State.stall_ctx_arrv (s : State) (w : Wait) : (State.stall w s).ctx.arrv = s.ctx.arrv := rfl
@[simp] theorem State.stall_ctx_hnd (s : State) (w : Wait) : (State.stall w s).ctx.hnd = s.ctx.hnd := rfl
@[simp] theorem State.stall_ctx_hvn (s : State) (w : Wait) : (State.stall w s).ctx.hvn = s.ctx.hvn := rfl
@[simp] theorem State.stall_ctx_abt (s : State) (w : Wait) : (State.stall w s).ctx.abt = s.ctx.abt := rfl
@[simp] theorem State.stall_ctx_epc (s : State) (w : Wait) : (State.stall w s).ctx.epc = s.ctx.epc := rfl
@[simp] theorem State.stall_ctx_cause (s : State) (w : Wait) : (State.stall w s).ctx.cause = s.ctx.cause := rfl
@[simp] theorem State.stall_ctx_tval (s : State) (w : Wait) : (State.stall w s).ctx.tval = s.ctx.tval := rfl
@[simp] theorem State.stall_ctx_scratch (s : State) (w : Wait) : (State.stall w s).ctx.scratch = s.ctx.scratch := rfl
@[simp] theorem State.stall_ctx_tcmp (s : State) (w : Wait) : (State.stall w s).ctx.tcmp = s.ctx.tcmp := rfl
@[simp] theorem State.stall_ctx_instret (s : State) (w : Wait) : (State.stall w s).ctx.instret = s.ctx.instret := rfl
@[simp] theorem State.stall_ctx_psat (s : State) (w : Wait) : (State.stall w s).ctx.psat = s.ctx.psat := rfl
@[simp] theorem State.stall_ctx_cpc (s : State) (w : Wait) : (State.stall w s).ctx.cpc = s.ctx.cpc := rfl
@[simp] theorem State.stall_ctx_pend (s : State) (w : Wait) : (State.stall w s).ctx.pend = s.ctx.pend := rfl
@[simp] theorem State.stall_ctx_streams (s : State) (w : Wait) : (State.stall w s).ctx.streams = s.ctx.streams := rfl
@[simp] theorem State.stall_ctx_rep (s : State) (w : Wait) : (State.stall w s).ctx.rep = s.ctx.rep := rfl
@[simp] theorem State.stall_ctx_wd (s : State) (w : Wait) : (State.stall w s).ctx.wd = s.ctx.wd := rfl
@[simp] theorem State.stall_ctx_trigger (s : State) (w : Wait) : (State.stall w s).ctx.trigger = s.ctx.trigger := rfl
@[simp] theorem State.stall_ctx_heldq (s : State) (w : Wait) : (State.stall w s).ctx.heldq = s.ctx.heldq := rfl
@[simp] theorem State.stall_ctx_eng (s : State) (w : Wait) : (State.stall w s).ctx.eng = s.ctx.eng := rfl
@[simp] theorem State.stall_ctx_latched (s : State) (w : Wait) : (State.stall w s).ctx.latched = s.ctx.latched := rfl
@[simp] theorem State.stall_ctx_timer (s : State) (w : Wait) : (State.stall w s).ctx.timer = s.ctx.timer := rfl
@[simp] theorem State.stall_ctx_ipi (s : State) (w : Wait) : (State.stall w s).ctx.ipi = s.ctx.ipi := rfl
@[simp] theorem State.stall_ctx_debug (s : State) (w : Wait) : (State.stall w s).ctx.debug = s.ctx.debug := rfl
@[simp] theorem State.stall_ctx_region (s : State) (w : Wait) : (State.stall w s).ctx.region = s.ctx.region := rfl
@[simp] theorem State.stall_ctx_rtag (s : State) (w : Wait) : (State.stall w s).ctx.rtag = s.ctx.rtag := rfl
@[simp] theorem State.stall_ctx_drain (s : State) (w : Wait) : (State.stall w s).ctx.drain = s.ctx.drain := rfl
@[simp] theorem State.stall_ctx_early (s : State) (w : Wait) : (State.stall w s).ctx.early = s.ctx.early := rfl
@[simp] theorem State.stall_ctx_fma (s : State) (w : Wait) : (State.stall w s).ctx.fma = s.ctx.fma := rfl
@[simp] theorem State.stall_ctx_fetched (s : State) (w : Wait) : (State.stall w s).ctx.fetched = s.ctx.fetched := rfl

/-! ### What is written -/

theorem State.setX_x (s : State) (r q : Reg) (v : Word) : (s.setX r v).x q = if q = r ∧ r ≠ 0 then v else s.x q := by
  unfold State.setX State.x
  by_cases hr : r = 0#5
  · subst hr; simp
  · by_cases hq : q = 0#5
    · subst hq; simp [Ne.symm hr]
    · by_cases h : q = r
      · subst h; simp [hr]
      · have hn : r.toNat ≠ q.toNat := fun e => h (BitVec.eq_of_toNat_eq e.symm)
        simp [hq, hr, h, hn]

theorem State.setF_f (s : State) (r q : Reg) (v : Word) : (s.setF r v).f q = if q = r then v else s.f q := by
  unfold State.setF State.f
  by_cases h : q = r
  · subst h; simp
  · have hn : r.toNat ≠ q.toNat := fun e => h (BitVec.eq_of_toNat_eq e.symm)
    simp [h, hn]

theorem State.setV_v (s : State) (r q : Reg) (v : VWord) : (s.setV r v).v q = if q = r then v else s.v q := by
  unfold State.setV State.v
  by_cases h : q = r
  · subst h; simp
  · have hn : r.toNat ≠ q.toNat := fun e => h (BitVec.eq_of_toNat_eq e.symm)
    simp [h, hn]

theorem State.setM_m (s : State) (r q : MReg) (v : Word) : (s.setM r v).m q = if q = r then v else s.m q := by
  unfold State.setM State.m
  by_cases h : q = r
  · subst h; simp
  · have hn : r.toNat ≠ q.toNat := fun e => h (BitVec.eq_of_toNat_eq e.symm)
    simp [h, hn]

theorem State.setStream_stream (s : State) (i j : BitVec 2) (t : Stream) :
    (s.setStream i t).stream j = if j = i then t else s.stream j := by
  unfold State.setStream State.stream
  by_cases h : j = i
  · subst h; simp
  · have hn : i.toNat ≠ j.toNat := fun e => h (BitVec.eq_of_toNat_eq e.symm)
    simp [h, hn]

theorem State.retire_eq (s : State) (len : Nat) : State.retire len s =
    { s with ctx := { s.ctx with
        pc := if s.ctx.rep.issuing then s.ctx.pc else s.ctx.pc + BitVec.ofNat 64 len
        instret := s.ctx.instret + 1, wait := .none } } := by
  unfold State.retire
  by_cases h : s.ctx.rep.issuing = true <;> simp [h, State.count]

@[simp] theorem State.retire_ctx_instret (s : State) (len : Nat) : (State.retire len s).ctx.instret = s.ctx.instret + 1 := by
  unfold State.retire; split <;> rfl
@[simp] theorem State.retire_ctx_wait (s : State) (len : Nat) : (State.retire len s).ctx.wait = .none := by
  unfold State.retire; split <;> rfl
@[simp] theorem State.jump_ctx_pc (s : State) (t : Word) : (State.jump t s).ctx.pc = t := rfl
@[simp] theorem State.jump_ctx_instret (s : State) (t : Word) : (State.jump t s).ctx.instret = s.ctx.instret + 1 := rfl
@[simp] theorem State.jump_ctx_wait (s : State) (t : Word) : (State.jump t s).ctx.wait = .none := rfl
@[simp] theorem State.stall_ctx_wait (s : State) (w : Wait) : (State.stall w s).ctx.wait = w := rfl
@[simp] theorem State.orFlags_ctx_flags (s : State) (fl : Flags) : (s.orFlags fl).ctx.flags = s.ctx.flags ||| fl := rfl

@[simp] theorem State.retire_x (s : State) (len : Nat) (r : Reg) : (State.retire len s).x r = s.x r := by
  simp [State.x]
@[simp] theorem State.retire_f (s : State) (len : Nat) (r : Reg) : (State.retire len s).f r = s.f r := by
  simp [State.f]
@[simp] theorem State.retire_v (s : State) (len : Nat) (r : Reg) : (State.retire len s).v r = s.v r := by
  simp [State.v]
@[simp] theorem State.retire_m (s : State) (len : Nat) (r : MReg) : (State.retire len s).m r = s.m r := by
  simp [State.m]

/-! ### Making another context current -/

@[simp] theorem State.select_cur (s : State) (r : Nat) : (s.select r).cur = r := by
  unfold State.select; split
  · simp_all
  · rfl
@[simp] theorem State.select_self (s : State) : s.select s.cur = s := by simp [State.select]
@[simp] theorem State.select_mem (s : State) (r : Nat) : (s.select r).mem = s.mem := by unfold State.select; split <;> rfl
@[simp] theorem State.select_hostMem (s : State) (r : Nat) : (s.select r).hostMem = s.hostMem := by
  unfold State.select; split <;> rfl
@[simp] theorem State.select_dev (s : State) (r : Nat) : (s.select r).dev = s.dev := by unfold State.select; split <;> rfl
@[simp] theorem State.select_time (s : State) (r : Nat) : (s.select r).time = s.time := by unfold State.select; split <;> rfl
@[simp] theorem State.select_parts (s : State) (r : Nat) : (s.select r).parts = s.parts := by unfold State.select; split <;> rfl
@[simp] theorem State.select_tlb (s : State) (r : Nat) : (s.select r).tlb = s.tlb := by unfold State.select; split <;> rfl
@[simp] theorem State.setCtx_mem (s : State) (r : Nat) (c : Ctx) : (s.setCtx r c).mem = s.mem := by
  unfold State.setCtx; split <;> rfl
@[simp] theorem State.setCore_mem (s : State) (k : Nat) (c : Core) : (s.setCore k c).mem = s.mem := by
  unfold State.setCore; split <;> rfl

end Sys2Proof.Machine
end

