-- ==== Sys2Proof/Laws/Ops.lean ====
section
/-! SUPPORT. What the shared operations can do, once for each: performing bytes, waking regions, adding an access, the checks
before an effect, releasing, and taking an exception. -/

namespace Sys2Proof.Machine

open Sys2Proof

/-! ## Bytes performed -/

@[simp] theorem State.modCore_mem (s : State) (k : Nat) (f : Core → Core) : (s.modCore k f).mem = s.mem := by
  simp [State.modCore]
@[simp] theorem State.modCtx_mem (s : State) (r : Nat) (f : Ctx → Ctx) : (s.modCtx r f).mem = s.mem := by
  simp [State.modCtx]

@[simp] theorem State.setMem_mem (s : State) (a : Nat) (b : Byte) : (s.setMem a b).mem = Mem.set s.mem a b := rfl

@[simp] theorem State.performByte_mem (k : Nat) (p : Bool) (s : State) (a : Nat) (b : Byte) :
    (s.performByte k p a b).mem = Mem.set s.mem a b := by
  unfold State.performByte
  by_cases h : cachedKey a = true <;> cases p <;> simp [h]

/-- Performing cells is writing them to memory, whatever the path. -/
@[simp] theorem State.performStore_mem (k : Nat) (p : Bool) : ∀ (l : List Host.Cell) (s : State),
    (State.performStore k p s l).mem = Mem.setAll s.mem l
  | [], _ => rfl
  | (a, b) :: r, s => by
    rw [State.performStore, State.performStore_mem k p r, State.performByte_mem, Mem.setAll]

/-- A write at the home is writing its cells to memory. -/
@[simp] theorem State.homeStore_mem : ∀ (l : List Host.Cell) (s : State), (State.homeStore s l).mem = Mem.setAll s.mem l
  | [], _ => rfl
  | (a, b) :: r, s => by rw [State.homeStore, State.homeStore_mem r]; rfl

theorem State.wf_performStore {s : State} (h : Memory.wf s.mem = true) (k : Nat) (p : Bool) (l : List Host.Cell) :
    Memory.wf (State.performStore k p s l).mem = true := by
  rw [State.performStore_mem]; exact Memory.wf_setAll l h

theorem State.wf_homeStore {s : State} (h : Memory.wf s.mem = true) (l : List Host.Cell) :
    Memory.wf (State.homeStore s l).mem = true := by
  rw [State.homeStore_mem]; exact Memory.wf_setAll l h

/-- After cells are performed every byte reads as they say, else as before. -/
theorem State.performStore_stored (k : Nat) (p : Bool) (l : List Host.Cell) (s : State) :
    Stored s (State.performStore k p s l) l := fun h a => by rw [State.performStore_mem, Mem.get_setAll a l h]

theorem State.homeStore_stored (l : List Host.Cell) (s : State) : Stored s (State.homeStore s l) l :=
  fun h a => by rw [State.homeStore_mem, Mem.get_setAll a l h]

/-! ## Powered regions -/

/-- Nothing wakes when every region is powered and awake. -/
theorem State.wakeFor_powered : ∀ (keys : List Nat) (s : State), s.powered keys = true → s.wakeFor keys = s
  | [], _, _ => rfl
  | a :: r, s, h => by
    simp only [State.powered, List.all_cons, Bool.and_eq_true] at h
    have ih := State.wakeFor_powered r s h.2
    rw [State.wakeFor]
    split
    · exact ih
    · next hr => simp only [hr] at h; simpa [h.1] using ih

@[simp] theorem State.wakeFor_mem : ∀ (keys : List Nat) (s : State), (s.wakeFor keys).mem = s.mem
  | [], _ => rfl
  | a :: r, s => by
    rw [State.wakeFor]
    split
    · exact State.wakeFor_mem r s
    · dsimp only
      rw [State.wakeFor_mem r]
      split <;> rfl

@[simp] theorem State.wakeFor_ctx : ∀ (keys : List Nat) (s : State), (s.wakeFor keys).ctx = s.ctx
  | [], _ => rfl
  | a :: r, s => by
    rw [State.wakeFor]
    split
    · exact State.wakeFor_ctx r s
    · dsimp only
      rw [State.wakeFor_ctx r]
      split <;> rfl

/-! ## Outstanding accesses -/

/-- Adding an access is what `State.issuing` says. -/
theorem State.issue_eq (s : State) (op : PendOp) (homes : List Nat) : s.issue op homes = s.issuing op homes := rfl
theorem State.issueSites_eq (s : State) (op : PendOp) (l : List (Path × Nat)) : s.issueSites op l = s.issuingAt op l := rfl

@[simp] theorem State.issue_mem (s : State) (op : PendOp) (homes : List Nat) : (s.issue op homes).mem = s.mem := rfl
@[simp] theorem State.issue_pend (s : State) (op : PendOp) (homes : List Nat) :
    (s.issue op homes).ctx.pend = s.ctx.pend ++ [⟨s.nextId, op, homes.map (op.path, ·), false⟩] := rfl

/-! ## Checks before an effect -/

theorem checked_ok {α : Type} (s : State) (a : α) (k : α → State) : checked s (.ok a) k = .next (k a) := rfl
theorem checked_error {α : Type} (s : State) (t : Trap) (k : α → State) : checked s (.error t) k = .next (s.trap t) := rfl

/-- An instruction of checks and an effect always answers a next state: the trap of the first failing check, or the effect. -/
theorem checked_next {α : Type} (s : State) (r : Except Trap α) (k : α → State) :
    ∃ t, checked s r k = .next t ∧ ((∃ e, r = .error e ∧ t = s.trap e) ∨ ∃ a, r = .ok a ∧ t = k a) := by
  cases r with
  | error e => exact ⟨_, rfl, .inl ⟨e, rfl, rfl⟩⟩
  | ok a => exact ⟨_, rfl, .inr ⟨a, rfl, rfl⟩⟩

/-! ## Releasing (08 R188) -/

/-- A releasing instruction has its effect when LDC and STC are 0. -/
theorem State.releasing_drained (s : State) (i : Instr) (k : State → Out) (h : s.ctx.drained = true) :
    s.releasing i k = k s := by simp [State.releasing, h]

/-- Until then it waits, with none of its effect. -/
theorem State.releasing_waits (s : State) (i : Instr) (k : State → Out) (h : s.ctx.drained = false) :
    s.releasing i k = .next (s.stall (.release i)) := by simp [State.releasing, h]

/-! ## Taking an exception -/

@[simp] theorem State.releaseClaim_mem (s : State) : s.releaseClaim.mem = s.mem := by
  unfold State.releaseClaim; split
  · split <;> rfl
  · rfl
@[simp] theorem State.abortHandler_mem (s : State) : s.abortHandler.mem = s.mem := State.releaseClaim_mem s
@[simp] theorem State.leaveWaits_mem (s : State) : s.leaveWaits.mem = s.mem := rfl
@[simp] theorem State.leaveWaits_core_tvec (s : State) : s.leaveWaits.core.tvec = s.core.tvec := rfl
@[simp] theorem State.enter_mem (s : State) (int : Bool) (t : Trap) (epc : Word) : (s.enter int t epc).mem = s.mem := rfl
@[simp] theorem State.writeHeader_mem (s : State) (vf q off n v : Nat) : (s.writeHeader vf q off n v).mem = s.mem := by
  unfold State.writeHeader; dsimp only; split <;> rfl
@[simp] theorem State.stopQueue_mem (s : State) (h : HostQueue) : (s.stopQueue h).mem = s.mem := by
  simp [State.stopQueue, State.setQueue]

theorem State.foldl_stopQueue_mem : ∀ (l : List HostQueue) (s : State), (l.foldl State.stopQueue s).mem = s.mem
  | [], _ => rfl
  | h :: r, s => by rw [List.foldl_cons, State.foldl_stopQueue_mem r, State.stopQueue_mem]

@[simp] theorem State.partFault_mem (s : State) (i : Nat) (p : Part) (code : BitVec 8) (cid : BitVec 16) :
    (s.partFault i p code cid).mem = s.mem := by
  simp only [State.partFault]
  rw [State.foldl_stopQueue_mem]
  rfl

@[simp] theorem State.fatal_mem (s : State) (k : Nat) (code : BitVec 8) : (s.fatal k code).mem = s.mem := by
  unfold State.fatal; split
  · exact State.partFault_mem ..
  · rfl

/-- Taking an exception writes no byte of device memory. -/
@[simp] theorem State.exception_mem (s : State) (int : Bool) (t : Trap) (epc : Word) : (s.exception int t epc).mem = s.mem := by
  simp only [State.exception]
  split
  · rfl
  · split <;> split <;> simp

@[simp] theorem State.trap_mem (s : State) (t : Trap) : (s.trap t).mem = s.mem := State.exception_mem ..

/-- With a handler address and outside a message handler, a trap of a core is the entry of 13 R320 and nothing more. -/
theorem State.trap_handled (s : State) (t : Trap) (h : isMaster s.k = false) (hh : s.ctx.hnd = false)
    (hv : s.core.tvec.extractLsb' 5 59 ≠ 0) : s.trap t = s.leaveWaits.enter false t s.ctx.pc := by
  simp only [State.trap, State.exception]
  rw [if_neg (by simpa [State.leaveWaits, State.k] using h), if_neg (by simpa [State.leaveWaits] using hh),
    if_neg (by simpa [State.enter, State.leaveWaits] using hv)]

end Sys2Proof.Machine
end

