-- ==== Sys2Proof/Laws/PerInstr.lean ====
section
/-! SUPPORT. The family Encodes: what the encoder says of every constructor. A constructor of the opcode map has granules, and
the length code of the first one says how many (02 R37); an event of the table has none. -/

namespace Sys2Proof.Laws.Encodes

open Sys2Proof

/-- An event has no granules; an instruction has as many as the length code of its first granule says. -/
def Statement (i : Instr) : Prop :=
  match encode i with
  | [] => i.isEvent = true
  | g :: r => lenGranules g = r.length + 1 ∧ i.isEvent = false

theorem fetch : Statement (.fetch) := rfl
theorem takeEvent : Statement (.takeEvent) := rfl
theorem timer c : Statement (.timer c) := rfl
theorem add d a b : Statement (.add d a b) := ⟨by simp, rfl⟩
theorem sub d a b : Statement (.sub d a b) := ⟨by simp, rfl⟩
theorem and d a b : Statement (.and d a b) := ⟨by simp, rfl⟩
theorem or d a b : Statement (.or d a b) := ⟨by simp, rfl⟩
theorem xor d a b : Statement (.xor d a b) := ⟨by simp, rfl⟩
theorem sll d a b : Statement (.sll d a b) := ⟨by simp, rfl⟩
theorem srl d a b : Statement (.srl d a b) := ⟨by simp, rfl⟩
theorem sra d a b : Statement (.sra d a b) := ⟨by simp, rfl⟩
theorem slt d a b : Statement (.slt d a b) := ⟨by simp, rfl⟩
theorem sltu d a b : Statement (.sltu d a b) := ⟨by simp, rfl⟩
theorem min d a b : Statement (.min d a b) := ⟨by simp, rfl⟩
theorem max d a b : Statement (.max d a b) := ⟨by simp, rfl⟩
theorem minu d a b : Statement (.minu d a b) := ⟨by simp, rfl⟩
theorem maxu d a b : Statement (.maxu d a b) := ⟨by simp, rfl⟩
theorem sel d a b c : Statement (.sel d a b c) := ⟨by simp, rfl⟩
theorem clz d a : Statement (.clz d a) := ⟨by simp, rfl⟩
theorem ctz d a : Statement (.ctz d a) := ⟨by simp, rfl⟩
theorem popc d a : Statement (.popc d a) := ⟨by simp, rfl⟩
theorem mul d a b : Statement (.mul d a b) := ⟨by simp, rfl⟩
theorem mulh d a b : Statement (.mulh d a b) := ⟨by simp, rfl⟩
theorem mulhu d a b : Statement (.mulhu d a b) := ⟨by simp, rfl⟩
theorem div d a b : Statement (.div d a b) := ⟨by simp, rfl⟩
theorem divu d a b : Statement (.divu d a b) := ⟨by simp, rfl⟩
theorem rem d a b : Statement (.rem d a b) := ⟨by simp, rfl⟩
theorem remu d a b : Statement (.remu d a b) := ⟨by simp, rfl⟩
theorem addi d a imm : Statement (.addi d a imm) := ⟨by simp, rfl⟩
theorem andi d a imm : Statement (.andi d a imm) := ⟨by simp, rfl⟩
theorem ori d a imm : Statement (.ori d a imm) := ⟨by simp, rfl⟩
theorem xori d a imm : Statement (.xori d a imm) := ⟨by simp, rfl⟩
theorem slti d a imm : Statement (.slti d a imm) := ⟨by simp, rfl⟩
theorem slli d a sh : Statement (.slli d a sh) := ⟨by simp, rfl⟩
theorem srli d a sh : Statement (.srli d a sh) := ⟨by simp, rfl⟩
theorem srai d a sh : Statement (.srai d a sh) := ⟨by simp, rfl⟩
theorem bfx d a lenM1 pos : Statement (.bfx d a lenM1 pos) := 
  ⟨by simp, beq_eq_false_iff_ne.mpr (firstDefect_ne (by simp))⟩
theorem bfi d a lenM1 pos : Statement (.bfi d a lenM1 pos) := 
  ⟨by simp, beq_eq_false_iff_ne.mpr (firstDefect_ne (by simp))⟩
theorem ldhi d imm : Statement (.ldhi d imm) := ⟨by simp, rfl⟩
theorem addpc d imm : Statement (.addpc d imm) := ⟨by simp, rfl⟩
theorem li d imm : Statement (.li d imm) := ⟨by simp, rfl⟩
theorem lea d a imm : Statement (.lea d a imm) := ⟨by simp, rfl⟩
theorem leaPc d imm : Statement (.leaPc d imm) := ⟨by simp, rfl⟩
theorem li64 d imm : Statement (.li64 d imm) := ⟨by simp, rfl⟩
theorem beq a b off : Statement (.beq a b off) := ⟨by simp, rfl⟩
theorem bne a b off : Statement (.bne a b off) := ⟨by simp, rfl⟩
theorem blt a b off : Statement (.blt a b off) := ⟨by simp, rfl⟩
theorem bge a b off : Statement (.bge a b off) := ⟨by simp, rfl⟩
theorem bltu a b off : Statement (.bltu a b off) := ⟨by simp, rfl⟩
theorem bgeu a b off : Statement (.bgeu a b off) := ⟨by simp, rfl⟩
theorem j off : Statement (.j off) := ⟨by simp, rfl⟩
theorem jal d off : Statement (.jal d off) := ⟨by simp, rfl⟩
theorem jalr d a imm : Statement (.jalr d a imm) := ⟨by simp, rfl⟩
theorem jl d off : Statement (.jl d off) := ⟨by simp, rfl⟩
theorem ld d a imm wid u : Statement (.ld d a imm wid u) := 
  ⟨by simp, beq_eq_false_iff_ne.mpr (firstDefect_ne (by simp))⟩
theorem st d a imm wid : Statement (.st d a imm wid) := ⟨by simp, rfl⟩
theorem loadReturn c i : Statement (.loadReturn c i) := rfl
theorem storeAck c i : Statement (.storeAck c i) := rfl
theorem fld d a imm wid : Statement (.fld d a imm wid) := ⟨by simp, rfl⟩
theorem fst d a imm wid : Statement (.fst d a imm wid) := ⟨by simp, rfl⟩
theorem fadd d a b k : Statement (.fadd d a b k) := 
  ⟨by simp, beq_eq_false_iff_ne.mpr (firstDefect_ne (by simp))⟩
theorem fsub d a b k : Statement (.fsub d a b k) := 
  ⟨by simp, beq_eq_false_iff_ne.mpr (firstDefect_ne (by simp))⟩
theorem fmul d a b k : Statement (.fmul d a b k) := 
  ⟨by simp, beq_eq_false_iff_ne.mpr (firstDefect_ne (by simp))⟩
theorem fdiv d a b k : Statement (.fdiv d a b k) := 
  ⟨by simp, beq_eq_false_iff_ne.mpr (firstDefect_ne (by simp))⟩
theorem fsqrt d a k : Statement (.fsqrt d a k) := 
  ⟨by simp, beq_eq_false_iff_ne.mpr (firstDefect_ne (by simp))⟩
theorem fmin d a b fmt rimm : Statement (.fmin d a b fmt rimm) := 
  ⟨by simp, beq_eq_false_iff_ne.mpr (firstDefect_ne (by simp))⟩
theorem fmax d a b fmt rimm : Statement (.fmax d a b fmt rimm) := 
  ⟨by simp, beq_eq_false_iff_ne.mpr (firstDefect_ne (by simp))⟩
theorem feq d a b fmt rimm : Statement (.feq d a b fmt rimm) := 
  ⟨by simp, beq_eq_false_iff_ne.mpr (firstDefect_ne (by simp))⟩
theorem flt d a b fmt rimm : Statement (.flt d a b fmt rimm) := 
  ⟨by simp, beq_eq_false_iff_ne.mpr (firstDefect_ne (by simp))⟩
theorem fle d a b fmt rimm : Statement (.fle d a b fmt rimm) := 
  ⟨by simp, beq_eq_false_iff_ne.mpr (firstDefect_ne (by simp))⟩
theorem fclass d a fmt rimm : Statement (.fclass d a fmt rimm) := 
  ⟨by simp, beq_eq_false_iff_ne.mpr (firstDefect_ne (by simp))⟩
theorem fsgn d a b mode fmt rimm : Statement (.fsgn d a b mode fmt rimm) := 
  ⟨by simp, beq_eq_false_iff_ne.mpr (firstDefect_ne (by simp))⟩
theorem fmvX d a fmt rimm : Statement (.fmvX d a fmt rimm) := 
  ⟨by simp, beq_eq_false_iff_ne.mpr (firstDefect_ne (by simp))⟩
theorem fmvF d a fmt rimm : Statement (.fmvF d a fmt rimm) := 
  ⟨by simp, beq_eq_false_iff_ne.mpr (firstDefect_ne (by simp))⟩
theorem fcvt code d a frm rimm : Statement (.fcvt code d a frm rimm) := 
  ⟨by simp, beq_eq_false_iff_ne.mpr (firstDefect_ne (by simp))⟩
theorem fma d a b c k : Statement (.fma d a b c k) := 
  ⟨by simp, beq_eq_false_iff_ne.mpr (firstDefect_ne (by simp))⟩
theorem fms d a b c k : Statement (.fms d a b c k) := 
  ⟨by simp, beq_eq_false_iff_ne.mpr (firstDefect_ne (by simp))⟩
theorem fnma d a b c k : Statement (.fnma d a b c k) := 
  ⟨by simp, beq_eq_false_iff_ne.mpr (firstDefect_ne (by simp))⟩
theorem fnms d a b c k : Statement (.fnms d a b c k) := 
  ⟨by simp, beq_eq_false_iff_ne.mpr (firstDefect_ne (by simp))⟩
theorem vadd d a b k : Statement (.vadd d a b k) := 
  ⟨by simp, beq_eq_false_iff_ne.mpr (firstDefect_ne (by simp))⟩
theorem vsub d a b k : Statement (.vsub d a b k) := 
  ⟨by simp, beq_eq_false_iff_ne.mpr (firstDefect_ne (by simp))⟩
theorem vmul d a b k : Statement (.vmul d a b k) := 
  ⟨by simp, beq_eq_false_iff_ne.mpr (firstDefect_ne (by simp))⟩
theorem vdiv d a b k : Statement (.vdiv d a b k) := 
  ⟨by simp, beq_eq_false_iff_ne.mpr (firstDefect_ne (by simp))⟩
theorem vsqrt d a k : Statement (.vsqrt d a k) := 
  ⟨by simp, beq_eq_false_iff_ne.mpr (firstDefect_ne (by simp))⟩
theorem vmin d a b k : Statement (.vmin d a b k) := 
  ⟨by simp, beq_eq_false_iff_ne.mpr (firstDefect_ne (by simp))⟩
theorem vmax d a b k : Statement (.vmax d a b k) := 
  ⟨by simp, beq_eq_false_iff_ne.mpr (firstDefect_ne (by simp))⟩
theorem vabs d a k : Statement (.vabs d a k) := 
  ⟨by simp, beq_eq_false_iff_ne.mpr (firstDefect_ne (by simp))⟩
theorem vneg d a k : Statement (.vneg d a k) := 
  ⟨by simp, beq_eq_false_iff_ne.mpr (firstDefect_ne (by simp))⟩
theorem vand d a b k : Statement (.vand d a b k) := 
  ⟨by simp, beq_eq_false_iff_ne.mpr (firstDefect_ne (by simp))⟩
theorem vor d a b k : Statement (.vor d a b k) := 
  ⟨by simp, beq_eq_false_iff_ne.mpr (firstDefect_ne (by simp))⟩
theorem vxor d a b k : Statement (.vxor d a b k) := 
  ⟨by simp, beq_eq_false_iff_ne.mpr (firstDefect_ne (by simp))⟩
theorem vshl d a b k : Statement (.vshl d a b k) := 
  ⟨by simp, beq_eq_false_iff_ne.mpr (firstDefect_ne (by simp))⟩
theorem vshr d a b k : Statement (.vshr d a b k) := 
  ⟨by simp, beq_eq_false_iff_ne.mpr (firstDefect_ne (by simp))⟩
theorem vsra d a b k : Statement (.vsra d a b k) := 
  ⟨by simp, beq_eq_false_iff_ne.mpr (firstDefect_ne (by simp))⟩
theorem vcmp d a b cond k : Statement (.vcmp d a b cond k) := 
  ⟨by simp, beq_eq_false_iff_ne.mpr (firstDefect_ne (by simp))⟩
theorem vsel d a b c k : Statement (.vsel d a b c k) := 
  ⟨by simp, beq_eq_false_iff_ne.mpr (firstDefect_ne (by simp))⟩
theorem vexp2 d a k : Statement (.vexp2 d a k) := 
  ⟨by simp, beq_eq_false_iff_ne.mpr (firstDefect_ne (by simp))⟩
theorem vrcp d a k : Statement (.vrcp d a k) := 
  ⟨by simp, beq_eq_false_iff_ne.mpr (firstDefect_ne (by simp))⟩
theorem vrsq d a k : Statement (.vrsq d a k) := 
  ⟨by simp, beq_eq_false_iff_ne.mpr (firstDefect_ne (by simp))⟩
theorem vcvt code d a b k : Statement (.vcvt code d a b k) := 
  ⟨by simp, beq_eq_false_iff_ne.mpr (firstDefect_ne (by simp))⟩
theorem vfma d a b c k : Statement (.vfma d a b c k) := 
  ⟨by simp, beq_eq_false_iff_ne.mpr (firstDefect_ne (by simp))⟩
theorem vfms d a b c k : Statement (.vfms d a b c k) := 
  ⟨by simp, beq_eq_false_iff_ne.mpr (firstDefect_ne (by simp))⟩
theorem vbcast d a k : Statement (.vbcast d a k) := 
  ⟨by simp, beq_eq_false_iff_ne.mpr (firstDefect_ne (by simp))⟩
theorem vins d a b k : Statement (.vins d a b k) := 
  ⟨by simp, beq_eq_false_iff_ne.mpr (firstDefect_ne (by simp))⟩
theorem vext d a b k : Statement (.vext d a b k) := 
  ⟨by simp, beq_eq_false_iff_ne.mpr (firstDefect_ne (by simp))⟩
theorem vperm d a b k : Statement (.vperm d a b k) := 
  ⟨by simp, beq_eq_false_iff_ne.mpr (firstDefect_ne (by simp))⟩
theorem vslide d a b c k : Statement (.vslide d a b c k) := 
  ⟨by simp, beq_eq_false_iff_ne.mpr (firstDefect_ne (by simp))⟩
theorem vredsum d a b k : Statement (.vredsum d a b k) := 
  ⟨by simp, beq_eq_false_iff_ne.mpr (firstDefect_ne (by simp))⟩
theorem vredmax d a b k : Statement (.vredmax d a b k) := 
  ⟨by simp, beq_eq_false_iff_ne.mpr (firstDefect_ne (by simp))⟩
theorem vredmin d a b k : Statement (.vredmin d a b k) := 
  ⟨by simp, beq_eq_false_iff_ne.mpr (firstDefect_ne (by simp))⟩
theorem vtopk d a b c k : Statement (.vtopk d a b c k) := 
  ⟨by simp, beq_eq_false_iff_ne.mpr (firstDefect_ne (by simp))⟩
theorem vtopkm d a b c k : Statement (.vtopkm d a b c k) := 
  ⟨by simp, beq_eq_false_iff_ne.mpr (firstDefect_ne (by simp))⟩
theorem vsortk d a c k : Statement (.vsortk d a c k) := 
  ⟨by simp, beq_eq_false_iff_ne.mpr (firstDefect_ne (by simp))⟩
theorem vld d a k : Statement (.vld d a k) := 
  ⟨by simp, beq_eq_false_iff_ne.mpr (firstDefect_ne (by simp))⟩
theorem vst d a k : Statement (.vst d a k) := 
  ⟨by simp, beq_eq_false_iff_ne.mpr (firstDefect_ne (by simp))⟩
theorem vlds d a b k : Statement (.vlds d a b k) := 
  ⟨by simp, beq_eq_false_iff_ne.mpr (firstDefect_ne (by simp))⟩
theorem vgath d a b k : Statement (.vgath d a b k) := 
  ⟨by simp, beq_eq_false_iff_ne.mpr (firstDefect_ne (by simp))⟩
theorem vscat d a b k : Statement (.vscat d a b k) := 
  ⟨by simp, beq_eq_false_iff_ne.mpr (firstDefect_ne (by simp))⟩
theorem mand d a b : Statement (.mand d a b) := ⟨by simp, rfl⟩
theorem mor d a b : Statement (.mor d a b) := ⟨by simp, rfl⟩
theorem mxor d a b : Statement (.mxor d a b) := ⟨by simp, rfl⟩
theorem mnot d a : Statement (.mnot d a) := ⟨by simp, rfl⟩
theorem mpop d a : Statement (.mpop d a) := ⟨by simp, rfl⟩
theorem mfirst d a : Statement (.mfirst d a) := ⟨by simp, rfl⟩
theorem mset d a : Statement (.mset d a) := ⟨by simp, rfl⟩
theorem msetX d a : Statement (.msetX d a) := ⟨by simp, rfl⟩
theorem scfg sid reg a : Statement (.scfg sid reg a) := 
  ⟨by simp, beq_eq_false_iff_ne.mpr (firstDefect_ne (by simp))⟩
theorem sstart sid d bv : Statement (.sstart sid d bv) := ⟨by simp, rfl⟩
theorem sstop sid : Statement (.sstop sid) := ⟨by simp, rfl⟩
theorem sstat d sid : Statement (.sstat d sid) := ⟨by simp, rfl⟩
theorem streamFetch c k : Statement (.streamFetch c k) := rfl
theorem streamWrite c i : Statement (.streamWrite c i) := rfl
theorem frep a len : Statement (.frep a len) := ⟨by simp, rfl⟩
theorem frepi count len : Statement (.frepi count len) := ⟨by simp, rfl⟩
theorem frepBodyIssue : Statement (.frepBodyIssue) := rfl
theorem tcfg t wid cols rows : Statement (.tcfg t wid cols rows) := 
  ⟨by simp, beq_eq_false_iff_ne.mpr (firstDefect_ne (by simp))⟩
theorem tacq : Statement (.tacq) := ⟨by simp, rfl⟩
theorem tacqGrant k : Statement (.tacqGrant k) := rfl
theorem trel : Statement (.trel) := ⟨by simp, rfl⟩
theorem tzero t : Statement (.tzero t) := ⟨by simp, rfl⟩
theorem tmovFr d t sel : Statement (.tmovFr d t sel) := ⟨by simp, rfl⟩
theorem tmovTo d t sel : Statement (.tmovTo d t sel) := ⟨by simp, rfl⟩
theorem tswap t : Statement (.tswap t) := ⟨by simp, rfl⟩
theorem tswapExchange k : Statement (.tswapExchange k) := rfl
theorem tld t a b imm pln prnd : Statement (.tld t a b imm pln prnd) := 
  ⟨by simp, beq_eq_false_iff_ne.mpr (firstDefect_ne (by simp))⟩
theorem ttld t a b imm pln prnd : Statement (.ttld t a b imm pln prnd) := 
  ⟨by simp, beq_eq_false_iff_ne.mpr (firstDefect_ne (by simp))⟩
theorem tst t a b imm : Statement (.tst t a b imm) := ⟨by simp, rfl⟩
theorem tmma t ta tb fmt : Statement (.tmma t ta tb fmt) := 
  ⟨by simp, beq_eq_false_iff_ne.mpr (firstDefect_ne (by simp))⟩
theorem tileOpComplete k : Statement (.tileOpComplete k) := rfl
theorem ldp d a imm pln prnd : Statement (.ldp d a imm pln prnd) := 
  ⟨by simp, beq_eq_false_iff_ne.mpr (firstDefect_ne (by simp))⟩
theorem stp d a imm pln : Statement (.stp d a imm pln) := 
  ⟨by simp, beq_eq_false_iff_ne.mpr (firstDefect_ne (by simp))⟩
theorem pscl d a imm : Statement (.pscl d a imm) := ⟨by simp, rfl⟩
theorem prescale d a imm b : Statement (.prescale d a imm b) := ⟨by simp, rfl⟩
theorem paxpy d a imm b : Statement (.paxpy d a imm b) := ⟨by simp, rfl⟩
theorem psgdm d a imm b c : Statement (.psgdm d a imm b c) := ⟨by simp, rfl⟩
theorem baddq a imm b : Statement (.baddq a imm b) := ⟨by simp, rfl⟩
theorem nearAck c i : Statement (.nearAck c i) := rfl
theorem fork a : Statement (.fork a) := ⟨by simp, rfl⟩
theorem dequeRefill k : Statement (.dequeRefill k) := rfl
theorem jrec a b c : Statement (.jrec a b c) := ⟨by simp, rfl⟩
theorem yield : Statement (.yield) := ⟨by simp, rfl⟩
theorem mdone : Statement (.mdone) := ⟨by simp, rfl⟩
theorem tqput d a b : Statement (.tqput d a b) := ⟨by simp, rfl⟩
theorem tdone a : Statement (.tdone a) := ⟨by simp, rfl⟩
theorem qrnd d a b : Statement (.qrnd d a b) := ⟨by simp, rfl⟩
theorem collectionRoundPass part : Statement (.collectionRoundPass part) := rfl
theorem gqnext d : Statement (.gqnext d) := ⟨by simp, rfl⟩
theorem halt : Statement (.halt) := ⟨by simp, rfl⟩
theorem haltJ a : Statement (.haltJ a) := ⟨by simp, rfl⟩
theorem haltK a : Statement (.haltK a) := ⟨by simp, rfl⟩
theorem haltM : Statement (.haltM) := ⟨by simp, rfl⟩
theorem send a : Statement (.send a) := ⟨by simp, rfl⟩
theorem sendr a b : Statement (.sendr a b) := ⟨by simp, rfl⟩
theorem callat a b c : Statement (.callat a b c) := ⟨by simp, rfl⟩
theorem messageAccepted k vn i : Statement (.messageAccepted k vn i) := rfl
theorem messageArrival i : Statement (.messageArrival i) := rfl
theorem messageService k : Statement (.messageService k) := rfl
theorem callActivation k : Statement (.callActivation k) := rfl
theorem taskActivation k : Statement (.taskActivation k) := rfl
theorem steal thief victim : Statement (.steal thief victim) := rfl
theorem stealPauseEnd k : Statement (.stealPauseEnd k) := rfl
theorem stealServe victim : Statement (.stealServe victim) := rfl
theorem vregGrant k : Statement (.vregGrant k) := rfl
theorem releasePerform c : Statement (.releasePerform c) := rfl
theorem amo op ord near dbl d a b c imm : Statement (.amo op ord near dbl d a b c imm) := 
  ⟨by simp, beq_eq_false_iff_ne.mpr (firstDefect_ne (by simp))⟩
theorem lda d a imm wid u : Statement (.lda d a imm wid u) := 
  ⟨by simp, beq_eq_false_iff_ne.mpr (firstDefect_ne (by simp))⟩
theorem stl d a imm wid : Statement (.stl d a imm wid) := ⟨by simp, rfl⟩
theorem fence ld st : Statement (.fence ld st) := 
  ⟨by simp, beq_eq_false_iff_ne.mpr (firstDefect_ne (by simp))⟩
theorem xfence p q : Statement (.xfence p q) := ⟨by simp, rfl⟩
theorem wait tl cp st ld : Statement (.wait tl cp st ld) := ⟨by simp, rfl⟩
theorem arrive d a imm : Statement (.arrive d a imm) := ⟨by simp, rfl⟩
theorem await a imm b : Statement (.await a imm b) := ⟨by simp, rfl⟩
theorem arrwait a imm b : Statement (.arrwait a imm b) := ⟨by simp, rfl⟩
theorem awaitPoll c : Statement (.awaitPoll c) := rfl
theorem dcopy d a off tag : Statement (.dcopy d a off tag) := ⟨by simp, rfl⟩
theorem sortc d a off tag : Statement (.sortc d a off tag) := ⟨by simp, rfl⟩
theorem ddec d a b c slot tag : Statement (.ddec d a b c slot tag) := ⟨by simp, rfl⟩
theorem dtbl d a slot tag : Statement (.dtbl d a slot tag) := ⟨by simp, rfl⟩
theorem bindw d a b c size win : Statement (.bindw d a b c size win) := 
  ⟨by simp, beq_eq_false_iff_ne.mpr (firstDefect_ne (by simp))⟩
theorem unbindw win : Statement (.unbindw win) := ⟨by simp, rfl⟩
theorem dstat d sel : Statement (.dstat d sel) := 
  ⟨by simp, beq_eq_false_iff_ne.mpr (firstDefect_ne (by simp))⟩
theorem engineComplete u i : Statement (.engineComplete u i) := rfl
theorem engineFail u i : Statement (.engineFail u i) := rfl
theorem wdrun d a : Statement (.wdrun d a) := ⟨by simp, rfl⟩
theorem wdret : Statement (.wdret) := ⟨by simp, rfl⟩
theorem mma h : Statement (.mma h) := rfl
theorem mmas h : Statement (.mmas h) := rfl
theorem loada h : Statement (.loada h) := rfl
theorem zeroc h : Statement (.zeroc h) := rfl
theorem storec h : Statement (.storec h) := rfl
theorem post h : Statement (.post h) := rfl
theorem act h : Statement (.act h) := rfl
theorem calli h : Statement (.calli h) := rfl
theorem brc h : Statement (.brc h) := rfl
theorem skipz h : Statement (.skipz h) := rfl
theorem table h : Statement (.table h) := rfl
theorem link h : Statement (.link h) := rfl
theorem exit h : Statement (.exit h) := rfl
theorem trainEnd : Statement (.trainEnd) := rfl
theorem trap n : Statement (.trap n) := ⟨by simp, rfl⟩
theorem eret : Statement (.eret) := ⟨by simp, rfl⟩
theorem csrr d csr : Statement (.csrr d csr) := ⟨by simp, rfl⟩
theorem csrw d csr a : Statement (.csrw d csr a) := ⟨by simp, rfl⟩
theorem csrs d csr a : Statement (.csrs d csr a) := ⟨by simp, rfl⟩
theorem csrc d csr a : Statement (.csrc d csr a) := ⟨by simp, rfl⟩
theorem ifence : Statement (.ifence) := ⟨by simp, rfl⟩
theorem tlbi a scope : Statement (.tlbi a scope) := 
  ⟨by simp, beq_eq_false_iff_ne.mpr (firstDefect_ne (by simp))⟩
theorem brk n : Statement (.brk n) := ⟨by simp, rfl⟩
theorem brk96 n : Statement (.brk96 n) := ⟨by simp, rfl⟩
theorem brk128 n : Statement (.brk128 n) := ⟨by simp, rfl⟩
theorem wfi : Statement (.wfi) := ⟨by simp, rfl⟩
theorem nop : Statement (.nop) := ⟨by simp, rfl⟩
theorem wfiWake c : Statement (.wfiWake c) := rfl
theorem hresWrite v : Statement (.hresWrite v) := rfl
theorem prioWrite v : Statement (.prioWrite v) := rfl
theorem cycleWrite v : Statement (.cycleWrite v) := rfl
theorem tshapeWrite t v : Statement (.tshapeWrite t v) := rfl
theorem sposWrite k v : Statement (.sposWrite k v) := rfl
theorem frepitWrite cnt v : Statement (.frepitWrite cnt v) := rfl
theorem wdrpcWrite v : Statement (.wdrpcWrite v) := rfl
theorem psatWrite v : Statement (.psatWrite v) := rfl
theorem pmcWrite n v : Statement (.pmcWrite n v) := rfl
theorem pmcOverflow k n : Statement (.pmcOverflow k n) := rfl
theorem monWrite n v : Statement (.monWrite n v) := rfl
theorem drpstWrite v : Statement (.drpstWrite v) := rfl
theorem gqjobWrite v : Statement (.gqjobWrite v) := rfl
theorem csrWrite csr v : Statement (.csrWrite csr v) := rfl
theorem prioAging c : Statement (.prioAging c) := rfl
theorem sboxDepRead quad q : Statement (.sboxDepRead quad q) := rfl
theorem tileDispatch quad : Statement (.tileDispatch quad) := rfl
theorem tileActivation k : Statement (.tileActivation k) := rfl
theorem gangSwitch part base : Statement (.gangSwitch part base) := rfl
theorem drainTimeout part core : Statement (.drainTimeout part core) := rfl
theorem jobResume part asid : Statement (.jobResume part asid) := rfl
theorem timesliceExpiry part asid : Statement (.timesliceExpiry part asid) := rfl
theorem doorbell vf q : Statement (.doorbell vf q) := rfl
theorem nopCommand vf q : Statement (.nopCommand vf q) := rfl
theorem launch vf q : Statement (.launch vf q) := rfl
theorem launchComplete vf q : Statement (.launchComplete vf q) := rfl
theorem write64 vf q : Statement (.write64 vf q) := rfl
theorem waitval vf q : Statement (.waitval vf q) := rfl
theorem barrier vf q : Statement (.barrier vf q) := rfl
theorem eventWrite vf : Statement (.eventWrite vf) := rfl
theorem hostBar2Access vf off n data : Statement (.hostBar2Access vf off n data) := rfl
theorem hostRegWrite vf off v : Statement (.hostRegWrite vf off v) := rfl
theorem bindvf base : Statement (.bindvf base) := rfl
theorem unbindvf : Statement (.unbindvf) := rfl
theorem attest : Statement (.attest) := rfl
theorem bistrun r : Statement (.bistrun r) := rfl
theorem recover r : Statement (.recover r) := rfl
theorem codeinv : Statement (.codeinv) := rfl
theorem dstop : Statement (.dstop) := rfl
theorem dresume : Statement (.dresume) := rfl
theorem reset : Statement (.reset) := rfl
theorem codeInvalidateDone : Statement (.codeInvalidateDone) := rfl
theorem domsizeWrite v : Statement (.domsizeWrite v) := rfl
theorem devnumWrite v : Statement (.devnumWrite v) := rfl
theorem islcfgWrite i v : Statement (.islcfgWrite i v) := rfl
theorem islandReady i : Statement (.islandReady i) := rfl
theorem ipireqWrite v : Statement (.ipireqWrite v) := rfl
theorem cinvWrite v : Statement (.cinvWrite v) := rfl
theorem trctlWrite v : Statement (.trctlWrite v) := rfl
theorem clmstRead c : Statement (.clmstRead c) := rfl
theorem samplePulse : Statement (.samplePulse) := rfl
theorem droopAlarm i : Statement (.droopAlarm i) := rfl
theorem droopStretchEnd i : Statement (.droopStretchEnd i) := rfl
theorem halvingWindowEnd i : Statement (.halvingWindowEnd i) := rfl
theorem monitorFire k n : Statement (.monitorFire k n) := rfl
theorem clmCorrClear i : Statement (.clmCorrClear i) := rfl
theorem clmBankMark clus bank : Statement (.clmBankMark clus bank) := rfl
theorem regionWakeDone clus k : Statement (.regionWakeDone clus k) := rfl
theorem regionPowerDown clus k : Statement (.regionPowerDown clus k) := rfl
theorem linkTimeout part core : Statement (.linkTimeout part core) := rfl
theorem powerOn r : Statement (.powerOn r) := rfl
theorem objectLoad r : Statement (.objectLoad r) := rfl
theorem waitvalComplete vf q : Statement (.waitvalComplete vf q) := rfl
theorem tlbiRetire c : Statement (.tlbiRetire c) := rfl

end Sys2Proof.Laws.Encodes
end

