-- ==== Sys2Proof/Tests/Slice0.lean ====
section
/-! SUPPORT. The model's own tests: terms that WellFormed refuses, words the spec writes out, results its worked examples state,
and, for the hypotheses of each statement, states and operands that meet them. -/

namespace Sys2Proof.Tests

open Sys2Proof Sys2Proof.Machine

set_option Elab.async false

/-! ## Ill-formed terms, one for each check (02 R41 to R49, R55) -/

def vk (ew : Ew) (frm : Frm) (rimm : BitVec 6) : VCtl := ⟨frm, rimm, ew, false, 0⟩
def rd (n : Reg) : ROp := ⟨n, false⟩
def rr (n : Reg) : ROp := ⟨n, true⟩

theorem test_defect_operand :
    (Instr.bfx 1 2 63 1).defect = some .operand ∧ (Instr.bfi 1 2 0 0).defect = none ∧ (Instr.scfg 0 11 5).defect = some .operand ∧
    (Instr.tcfg 0 0 127 31).defect = none ∧ (Instr.tcfg 0 3 32 31).defect = some .operand ∧
    (Instr.tmma 3 3 2 .p1).defect = some .operand ∧ (Instr.fence false false).defect = some .operand ∧
    (Instr.bindw 1 2 3 4 5 0).defect = some .operand ∧ (Instr.dstat 1 5).defect = some .operand := by decide

theorem test_defect_widths :
    (Instr.ld 1 2 0 .d true).defect = some .wid ∧ (Instr.lda 1 2 0 .d true).defect = some .wid ∧
    (Instr.tcfg 0 5 0 0).defect = some .fmt ∧ (Instr.tld 0 1 2 0 5 false).defect = some .pln ∧
    (Instr.ttld 0 1 2 0 7 false).defect = some .pln ∧ (Instr.ldp 1 2 0 5 false).defect = some .pln ∧
    (Instr.stp 1 2 0 6).defect = some .pln := by decide

theorem test_defect_unused :
    (Instr.amo .add .none false true 1 2 3 4 0).defect = some .unusedField ∧
    (Instr.amo .add .acq true true 0 2 3 0 0).defect = some .order ∧ (Instr.amo .add .none true true 1 2 3 0 0).defect = some .order ∧
    (Instr.tlbi 5 0).defect = some .unusedField ∧ (Instr.tlbi 5 1).defect = none := by decide

theorem test_defect_scalar_fp :
    (Instr.fadd (rd 1) (rd 2) (rd 3) ⟨.s, .dyn, 1⟩).defect = some .rimm ∧
    (Instr.fadd (rd 1) (rr 2) (rd 3) ⟨.s, .dyn, 1⟩).defect = none ∧
    (Instr.fcvt .ds (rd 1) (rd 2) .rtz 0).defect = some .frm ∧ (Instr.fcvt .ws (rr 1) (rd 2) .dyn 0).defect = some .relBit ∧
    (Instr.fcvt .sw (rd 1) (rr 2) .dyn 0).defect = some .relBit := by decide

theorem test_defect_vector :
    (Instr.vadd (rd 1) (rd 2) (rd 3) (vk .e4m3 .dyn 0)).defect = some .ew ∧
    (Instr.vadd (rd 1) (rd 2) (rd 3) (vk .i32 .rtz 0)).defect = some .frm ∧
    (Instr.vmin (rd 1) (rd 2) (rd 3) (vk .s .rtz 0)).defect = some .frm ∧
    (Instr.vdiv (rd 1) (rd 2) (rd 3) (vk .i32 .dyn 0)).defect = some .ew ∧
    (Instr.vand (rd 1) (rd 2) (rd 3) (vk .s .dyn 0)).defect = some .ew ∧
    (Instr.vexp2 (rd 1) (rd 2) (vk .s .rtz 0)).defect = some .frm ∧
    (Instr.vcmp 1 (rd 2) (rd 3) .ltu (vk .s .dyn 0)).defect = some .code ∧
    (Instr.vbcast (rd 1) (rr 2) (vk .i8 .dyn 0)).defect = some .relBit ∧
    (Instr.vredmax (rd 1) (rd 2) (rd 3) (vk .s .rtz 0)).defect = some .frm ∧
    (Instr.vredsum (rr 1) (rd 2) (rd 3) (vk .i8 .dyn 0)).defect = some .relBit ∧
    (Instr.vtopk (rd 1) (rd 2) 3 (rd 4) (vk .d .dyn 0)).defect = some .ew ∧
    (Instr.vsortk (rd 1) (rd 2) (rd 4) (vk .i8 .dyn 0)).defect = some .ew ∧
    (Instr.vgath (rd 1) 2 (rd 3) ⟨0, 0, .i8, false, 0⟩).defect = some .ew := by decide

theorem test_defect_vcvt :
    (Instr.vcvt 29 (rd 1) (rd 2) (rd 0) (vk .s .dyn 0)).defect = some .code ∧
    (Instr.vcvt 7 (rd 1) (rd 2) (rd 0) (vk .s .dyn 0)).defect = some .ew ∧
    (Instr.vcvt 7 (rd 1) (rd 2) (rd 0) (vk .e4m3 .rtz 0)).defect = some .frm ∧
    (Instr.vcvt 3 (rd 1) (rd 2) (rd 4) (vk .s .rtz 0)).defect = some .unusedField ∧
    Instr.fetch.defect = some .notEncoded ∧ (Instr.pmcWrite 1 0).defect = some .notEncoded := by decide

/-- Encodings that decode refuses: a truncated instruction, an unallocated fn3, reserved bits, an unused field, a REL bit on an x
field (02 R41, R55). -/
theorem test_decode_refuses :
    (decode [0x01CC5001]).toOption = none ∧ (decode [0x01CC5001, 1]).toOption = none ∧ (decode [0x31CC5001, 0]).toOption = none ∧
    (decode [0x00000F69, 0]).toOption = none ∧ (decode [0x28000FF9, 0]).toOption = none := by decide +kernel

/-! ## Words the spec writes out, family by family, through `decodeTableWord` -/

/-- An instruction's granules as one number, lowest first. -/
def word (g : List (BitVec 32)) : Nat := g.foldr (fun a n => a.toNat + 2 ^ 32 * n) 0

def dec (g : List (BitVec 32)) (i : Instr) : Bool := decodeTableWord (32 * g.length) (word g) == some i

theorem test_words_scalar :
    dec [0x01CC5001, 0] (.add 5 6 7) ∧ dec [0x0014A009, 0xFF800000] (.addi 10 10 0xFF8) ∧ dec [0x6016, 0, 0x12345678] (.li 6 0x12345678) ∧
    dec [0x0000701B, 0, 0x89ABCDEF, 0x01234567] (.li64 7 0x0123456789ABCDEF) ∧ dec [0x000A0041, 0x6000] (.beq 5 0 6) ∧
    dec [0x00020049, 0] (.jalr 0 1 0) ∧ dec [0x104E, 0, 0x400] (.jl 1 0x400) ∧
    dec [0x01821081, 0x00104100] (.fsub (rd 1) (rd 1) (rr 6) ⟨.s, .dyn, 8⟩) ∧
    dec [0x018C3081, 0x00B04300] (.fsgn (rd 3) (rr 6) (rr 6) .copy .s 8) := by decide +kernel

theorem test_words_vector :
    dec [0x008270C1, 0x144A] (.vadd (rr 7) (rd 1) (rd 2) ⟨.dyn, 2, .s, true, 2⟩) ∧
    dec [0x208240C5, 0x53] (.vfma (rd 4) (rd 1) (rd 2) (rd 4) ⟨.dyn, 0, .d, false, 3⟩) ∧
    dec [0x10C410C1, 0x00F00040] (.vcmp 1 (rd 2) (rd 3) .lt ⟨.dyn, 0, .s, false, 0⟩) ∧
    dec [0x324250D1, 0x40] (.vtopk (rd 5) (rd 1) 9 (rd 6) ⟨.dyn, 0, .s, false, 0⟩) ∧
    dec [0x001430E1, 0x08000050] (.vld (rd 3) 10 ⟨0x080, 0, .d, false, 0⟩) ∧ dec [0x00067CF1, 0x00100000] (.msetX 7 3) := by
  decide +kernel

theorem test_words_streams_matrix :
    dec [0x00140141, 0x00100000] (.scfg 0 1 10) ∧ dec [0x0001D341, 0x00010000] (.sstart 1 29 false) ∧
    dec [0x00000541, 0x00030000] (.sstop 3) ∧ dec [0x00005741, 0x00020000] (.sstat 5 2) ∧ dec [0x00000361, 0] .tacq ∧
    dec [0x00000161, 0xFFF40000] (.tcfg 2 0 127 31) ∧ dec [0x02D40165, 0x00020010] (.tld 1 10 11 0 0 true) ∧
    dec [0x00000169, 0x00065000] (.tmma 3 1 2 .p1) ∧ dec [0x00000B61, 0x00080000] (.tswap 4) ∧
    dec [0x00941175, 0] (.paxpy 1 10 0 2) ∧ dec [0x00143171, 0x3000] (.ldp 3 10 0 1 true) := by decide +kernel

theorem test_words_tasks :
    dec [0x002401A1, 0] (.fork 18) ∧ dec [0x999403A1, 0] (.jrec 10 6 19) ∧ dec [0x05A1, 0] .yield ∧ dec [0x07A1, 0] .mdone ∧
    dec [0x02D459A1, 0] (.tqput 5 10 11) ∧ dec [0x001803A5, 0] (.haltJ 12) ∧ dec [0x07A5, 0] .haltM ∧
    dec [0x018A03A9, 0] (.sendr 5 6) ∧ dec [0x398A05A9, 0] (.callat 5 6 7) ∧ dec [0x00005FA1, 0] (.gqnext 5) := by decide +kernel

theorem test_words_sync :
    dec [0x019451C1, 0x00010403] (.amo .add .rel false true 5 10 6 0 0) ∧ dec [0x001451C5, 0x0203] (.lda 5 10 0 .d false) ∧
    dec [0x001463C5, 0x0403] (.stl 6 10 0 .d) ∧ dec [0x03C9, 0x00300000] (.xfence .copy .core) ∧
    dec [0x01CD, 0xFF00] (.wait 15 15 0 0) ∧ dec [0x02D405D1, 3] (.arrwait 10 0 11) := by decide +kernel

theorem test_words_engines_trains :
    dec [0x001451F1, 0] (.wdrun 5 10) ∧ dec [0x03F1, 0] .wdret ∧ dec [0x62D455E2, 0x07000000, 1] (.ddec 5 10 11 12 1 7) ∧
    dec [0x001457E2, 0x03000000, 2] (.dtbl 5 10 2 3) ∧ dec [0x001451E2, 0x09000000, 0] (.dcopy 5 10 0 9) ∧
    dec [0x001653E2, 0x04000000, 0] (.sortc 5 11 0 4) ∧ dec [0x6DE2, 0, 2] (.dstat 6 2) ∧
    dec [0x41CC59E2, 0, 0x23] (.bindw 5 6 7 8 2 3) ∧ dec [0x0BE2, 0, 3] (.unbindw 3) := by decide +kernel

theorem test_words_system :
    dec [0x01F9, 0x01100000] (.trap 17) ∧ dec [0x03F9, 0] .eret ∧ dec [0x55F9, 0x40300000] (.csrr 5 0x403) ∧
    dec [0x000C07F9, 0x40200000] (.csrw 0 0x402 6) ∧ dec [0x0DF9, 0] .ifence ∧ dec [0x00140FF9, 0x00100000] (.tlbi 10 1) ∧
    dec [0x08000FF9, 0x00500000] (.brk 5) ∧ dec [0x08000FFA, 0x00500000, 0xDEADBEEF] (.brk96 5) ∧ dec [0x10000FF9, 0] .wfi ∧
    dec [0x18000FF9, 0] .nop := by decide +kernel

/-! ## States -/

/-- Partition 0: quadrant 0 and gateway core 0, running job 1 with its descriptor at 0x10000. -/
def part0 : Part := ⟨[0], [0], 0x10000, 1, false, none, none, false, 0, 4000000⟩

/-- Context 0 of core 0 of that partition is active and current, with 32 v registers; its descriptor names ASID 1. -/
def base : State := { State.reset with mem := [(0x10020, 1)], parts := [(0, part0)], ctx := { Ctx.reset with phase := .active, pc := 0x1000, valloc := 32 } }

/-- The same state with another context. -/
def ctx (f : Ctx → Ctx) (s : State := base) : State := { s with ctx := f s.ctx }

/-- The same state with x registers written. -/
def xs (l : List (Reg × Word)) (s : State := base) : State := l.foldl (fun s e => s.setX e.1 e.2) s

/-- Words at an offset of the CLM of cluster 0. -/
def clm : Nat := 0x40000000000
def poke (off : Nat) (ws : List Word) (s : State := base) : State := { s with mem := Mem.setAll s.mem (wordCells (clm + off) ws) }

/-- An address of the local alias, and the keys of `n` words there. -/
def va (off : Nat) : Word := ofN (0x1000000000 + off)
def keys (off n : Nat) : List Nat := (List.range n).map fun i => clm + off + 8 * i

/-- CLM addresses with their homes, as the checks of an access give them. -/
def srcs (off n : Nat) : List LaneSrc := sources (keys off n) ((keys off n).map homeOf)

/-- Accesses of the current context are outstanding. -/
def pends (l : List Pend) (s : State := base) : State := { s with ctx := { s.ctx with pend := l }, nextId := 100 }

/-! ## Hypotheses that states meet: the whole machine, integer and scalar instructions -/

theorem meets_DecodeEncode : (Instr.add 5 6 7).wf = true ∧ (Instr.bfx 1 2 60 3).wf = true := by decide

theorem meets_DecodeInverse : decode [0x01CC5001, 0, 7] = .ok (.add 5 6 7, [7]) := by rfl

/-- The machine with an ADD as the next instruction of context 0. -/
def ready : State := (State.withFetchWord .reset 64 0x01CC5001)

/-- An ADD takes its issue slot; an instruction that traps is held back. -/
theorem meets_StepRunsInstruction :
    let q := (ready.beginTurn ready.k).raiseTimers.settleReplays
    let p := q.select 0
    let t : State := State.fetchIn { p with ctx := { p.ctx with drain := false } }
    let w (i : Instr) : State := match exec i t with | .next u => t.afterAct u (.instr i) | _ => t
    ready.agenda = [] ∧ (ready.parts.all fun e => !ready.overdue e.2 && !ready.mustStop e.2) = true ∧ ready.core.aside < 16 ∧
    (ready.beginTurn ready.k).raiseTimers.checks = [] ∧
    q.freeList false = [] ∧ q.arbiter false [] = some 0 ∧ p.ctx.phase = .active ∧
    (p.takesEvents && p.hasEvent p.cur) = false ∧ p.ctx.wait = .none ∧ p.ctx.wd.wdm = false ∧ p.ctx.rep.act = false ∧
    p.replayWrites 4 = false ∧ p.gate (.add 5 6 7) = true ∧
    (p.site .x p.ctx.pc).toOption.map (fun e => match e with | .key k _ al => (k, al) | _ => (0, true)) = some (0x10000, false) ∧
    p.powered [0x10000] = true ∧ p.granule 0x10000 = 0x01CC5001 ∧ p.ctx.pc.toNat % 32 = 0 ∧
    (decode (p.granules 0x10000 2)).toOption = some (.add 5 6 7, []) ∧ vallocOk p.ctx (.add 5 6 7) = true ∧
    heldBack t (w (.add 5 6 7)) (.instr (.add 5 6 7)) = false ∧ heldBack t (w (.fork 0)) (.instr (.fork 0)) = false ∧
    heldBack t ((t.stall .slot)) (.instr (.fork 0)) = true := by
  intros
  repeat' apply And.intro
  all_goals decide +kernel

theorem meets_CanonicalStep : base.Canonical ∧ (∃ t, step base = .next t) := ⟨⟨rfl, rfl, rfl⟩, ⟨_, rfl⟩⟩

/-- Every row of the table of integer results, and both ends of a field. -/
theorem meets_IntegerResults : intResult base (.li64 7 5) = some (16, 7, 5) ∧ intResult base (.add 0 1 2) = some (8, 0, 0) ∧
    (63 : BitVec 6).toNat + (0 : BitVec 6).toNat < 64 ∧ (0 : BitVec 6).toNat + (63 : BitVec 6).toNat < 64 := by decide +kernel

theorem meets_BitMaskBranchResults : branchOf base (.beq 1 2 6) = some (true, 6) ∧ branchOf base (.bne 1 2 6) = some (false, 6) ∧
    (base.x 1 + ofI (4 : Int)).toNat % 4 = 0 ∧ (base.x 1 + ofI (3 : Int)).toNat % 4 ≠ 0 := by decide +kernel

theorem meets_FrameRegisterOnly : registerOnly (.addi 1 2 3) = true ∧ ∃ t, exec (.addi 1 2 3) base = .next t :=
  ⟨rfl, ⟨_, rfl⟩⟩

/-- The last and the first canonical address, the first that is none, and both ends of the local alias. -/
theorem meets_AccessChecks :
    (va 1).toNat % 8 ≠ 0 ∧ (0x8000000000000 : Word).toNat % 8 = 0 ∧
    (0x8000000000000 : Word).toNat / 2 ^ 52 ≠ (if (0x8000000000000 : Word).getLsbD 51 then 4095 else 0) ∧
    (va 0x1FFFF8).toNat % 8 = 0 ∧ (va 0x1FFFF8).toNat < 0x1000200000 ∧ 0x1000000000 ≤ (va 0).toNat ∧ base.k < 2880 := by
  decide +kernel

/-- Tables in HBM: PTROOT of the descriptor at 0x10000 is 0x20000; address 0 leads through tables at 0x21000, 0x22000 and 0x23000
to an entry for 0x300000, and the entry before it differs by the last table only. -/
def walked (e3 e2 e1 e0 : Word) : State := { base with mem := Mem.setAll base.mem (wordCells 0x10000 [0x20000] ++ wordCells 0x20000 [e3] ++
  wordCells 0x21000 [e2] ++ wordCells 0x22000 [e1] ++ wordCells 0x23000 [e0]) }

/-- A pointer and a page at each level; an entry that is not valid, and one that is a leaf in the root table. -/
theorem meets_PageWalks_entries :
    ptePointer 0x21001 0x21000 ∧ ptePage 0x300099 12 0x300000 ∧ ptePage 0x40000099 30 0x40000000 ∧
    (0x40000099 : Word).getLsbD 9 = false ∧ ptePage 0x200099 21 0x200000 ∧ ptePage 0x310299 16 0x310000 ∧
    (0x310299 : Word).getLsbD 9 = true ∧ ¬pteValid 0 ∧ ¬pteValid 0x103 ∧ pteLeaf 9 := by
  simp only [ptePointer, pteValid, pteLeaf, ptePage]
  decide +kernel

def walk4 : State := walked 0x21001 0x22001 0x23001 0x300099

theorem meets_PageWalks :
    (Mem.word walk4.mem 0x10000).toNat + 8 * pteIndex 0 3 + 8 ≤ 0x8000000000 ∧ Mem.word walk4.mem 0x20000 = 0x21001 ∧
    walk4.tableWord (0x21000 + 8 * pteIndex 0 2) = some 0x22001 ∧ walk4.tableWord (0x22000 + 8 * pteIndex 0 1) = some 0x23001 ∧
    walk4.tableWord (0x23000 + 8 * pteIndex 0 0) = some 0x300099 ∧ walk4.tableWord 0x8000000000 = none ∧
    ((List.range 16).all fun n => (walk4.tableWord (0x23000 + 8 * n)).all fun e => !e.getLsbD 9) = true := by
  decide +kernel

def sp0 : Space := ⟨0x10000, 1, 0, .core⟩

/-- A bound window; 256 and 257 range entries; an entry that matches and one that does not; a page in the core's TLB, in that of its
die, and in no TLB that serves it. -/
theorem meets_TranslationOrder :
    let page : TlbEnt := .page 1 0x300000 12 0x300000 ⟨true, true, true, false, false, 0⟩
    let s (t : TlbAt) : State := { base with tlb := [(t, page)] }
    let r (n : Nat) : State := { base with mem := Mem.setAll base.mem (wordCells 0x10008 [0x20000, ofN n] ++
      wordCells 0x20000 [0x300000, 0x301000, 0x1000, 0x89]) }
    ({ base with tlb := [(.core 0, .window 1 15 ⟨0x40000, 0, 0, 0x8000000010000001⟩)] } : State).windowAt sp0 0x40000 ≠ none ∧
    base.windowAt sp0 0x300000 = none ∧ (Mem.word (r 256).mem 0x10010).toNat % 512 = 256 ∧
    (Mem.word (r 257).mem 0x10010).toNat % 512 = 257 ∧ (Mem.word (r 256).mem 0x10008).toNat + 32 * 256 ≤ 0x8000000000 ∧
    rangeMatches ((r 256).rangeEnt sp0 0) 0x300FF8 = true ∧ rangeMatches ((r 256).rangeEnt sp0 0) 0x301000 = false ∧
    (tlbPage 1 0x300000 ((s (.core 0)).tlbOf sp0)).isSome = true ∧ (tlbPage 1 0x300000 ((s (.die 0)).tlbOf sp0)).isSome = true ∧
    tlbPage 1 0x300000 ((s (.core 1)).tlbOf sp0) = none ∧ tlbRange 1 0 ((r 256).tlbOf sp0) = none ∧
    tlbRange 1 255 ({ base with tlb := [(.core 0, .range 1 255 ⟨0, 0x1000, 0, 1⟩)] }.tlbOf sp0) = some ⟨0, 0x1000, 0, 1⟩ ∧
    (base.pageWalk 1 0).toOption = none ∧ ((walked 0x21001 0x22001 0x23001 0x300099).pageWalk 0x10000 0).toOption =
      some (12, 0x300000, ptePerm 0x300099) := by
  intros
  repeat' apply And.intro
  all_goals decide +kernel

/-- A page of HBM that user mode may read and write, one without each permission, and an address without a page. -/
def mapped (p : Perm) : State :=
  { xs [(1, 0x300008), (2, 0x400000)] base with tlb := [(.core 0, .page 1 0x300000 12 0x500000 p)] }

theorem meets_TranslatedAccess :
    let s := mapped ⟨true, true, true, false, false, 0⟩
    (s.x 1 + ofI 0).toNat % 8 = 0 ∧ (s.x 1 + ofI 0).toNat / 2 ^ 52 = 0 ∧ (s.x 1 + ofI 0).getLsbD 51 = false ∧
    aliasOf s.k (s.x 1) = none ∧ s.space s.k = some sp0 ∧ s.translate sp0 (s.x 2) = .none 1 ∧
    s.translate sp0 (s.x 1) = .page 0x500008 ⟨true, true, true, false, false, 0⟩ ∧ s.phys 0x500008 = .key 0x500008 ∧
    (mapped ⟨true, false, true, false, false, 0⟩).translate sp0 (s.x 1) = .page 0x500008 ⟨true, false, true, false, false, 0⟩ ∧
    (mapped ⟨false, true, false, false, false, 0⟩).translate sp0 (s.x 1) = .page 0x500008 ⟨false, true, false, false, false, 0⟩ ∧
    s.ctx.pend = [] ∧ s.core.tileq = [] ∧ s.ctx.wait = .none ∧ s.powered [0x500008] = true ∧
    s.readsAfter s.nextId ((List.range 8).map (0x500008 + ·)) = false ∧
    s.powered ((List.range 8).map (0x500008 + ·)) = true ∧ find s.core.l1 (0x500008 / 8) = none ∧ s.ctx.prv = 0 := by
  intros
  repeat' apply And.intro
  all_goals decide +kernel

/-- A load from CLM; one through a gather window whose index words nothing earlier comes before, and one that an earlier store of
the context to the index list comes before. -/
def windowed (s : State := base) : State := { s with tlb :=
  [(.core 0, .window 1 0 ⟨0x40000, 0x300000, 0x301000, 0x8000000010000001⟩),
   (.core 0, .page 1 0x300000 13 0x300000 ⟨true, true, true, false, false, 0⟩)] }
def indexStore : Pend := ⟨0, .store .gwin [cellsOf 0x300000 8 5], [(.gwin, homeOf 0x300000)], false⟩

def word0 : LaneSrc := .mem (clm + 0x1000) (homeOf (clm + 0x1000))

theorem meets_ScalarAccesses_out :
    (base.loadCheck (va 0x1000) 8).toOption = some word0 ∧ (base.loadCheck (va 0x1000) 4).toOption = some word0 ∧
    ((windowed).loadCheck 0x40000 4).toOption.map (windowed).indexFree = some true ∧
    ((windowed).loadCheck 0x40000 4).toOption.map (pends [indexStore] windowed).indexFree = some false ∧
    base.indexFree word0 = true ∧ base.powered word0.keys = true ∧
    (base.storeCheck (va 0x1000) 8 .w).toOption = some (clm + 0x1000) ∧ base.powered [clm + 0x1000] = true ∧
    base.ctx.bound false 3 = none ∧ base.ctx.ldc = 0 ∧ base.ctx.stc = 0 ∧
    (pends [⟨0, .store .core [], [], false⟩]).ctx.stc ≠ 0 := by decide +kernel

def loadOp : PendOp := .load .core false (.x 5 4 false) [⟨0, 4, word0⟩]

/-- Two outstanding accesses, the older a load; a CLM word; an HBM word in the L1, and one not in it; the context's own earlier store
with its load after it. -/
theorem meets_ScalarAccesses_back :
    let s := pends [⟨0, loadOp, [], false⟩, ⟨1, loadOp, [], false⟩]
    let own := pends [⟨0, .store .core [cellsOf (clm + 0x1000) 4 7], [], false⟩, ⟨1, loadOp, [], false⟩]
    s.ctx.pend.map (·.id) = [0, 1] ∧ own.ctx.pend.map (·.id) = [0, 1] ∧ (clm + 0x1000) % 4 = 0 ∧
    s.readsAfter 0 ((List.range 4).map (clm + 0x1000 + ·)) = false ∧ base.readsAfter 0 ((List.range 8).map (0x10000 + ·)) = false ∧
    cachedKey (clm + 0x1000) = false ∧ cachedKey 0x10000 = true ∧ find [(0x2000, (7 : Word))] (0x10000 / 8) = some 7 ∧
    ctlOf (clm + 0x1000) = none ∧ s.powered ((List.range 4).map (clm + 0x1000 + ·)) = true ∧
    base.powered ((List.range 8).map (0x10000 + ·)) = true ∧ base.powered [0x10000] = true ∧ s.ctx.wait = .none := by decide +kernel

theorem meets_StoreAcks :
    let cells := cellsOf (clm + 0x1000) 8 5
    let p : Pend := ⟨0, .store .core [cells], [], false⟩
    (pends [p]).ctx.pend = p :: [] ∧ ({ base with orphans := [(3, p)] } : State).orphans = (3, p) :: [] ∧
    base.powered (cells.map (·.1)) = true ∧ (∀ e ∈ cells, ctlOf e.1 = none) ∧ base.readBefore 0 (cells.map (·.1)) = false ∧
    Memory.wf base.mem = true := by decide +kernel

/-! ## Operands that are supplied -/

/-- The conditions of `Supplied`, place by place. -/
def suppliedAt (s : State) (us : List Use) (v : List VWord) (n : Nat) : Bool :=
  match us[n]? with
  | none => true
  | some u =>
    let p := us.take n
    (u.role != .src || v[(p.filter (·.role == .src)).length]? == some (s.delivered p u)) &&
      (u.role != .dst || match s.ctx.bound u.isV u.reg with
        | none => true
        | some k =>
          let m := (s.stream k).spos.toNat + pushesOf s.ctx k p
          decide (m < (s.stream k).act.total) && (s.pushPlace (s.stream k).act m).toOption.isSome)

def suppliedNow (s : State) (us : List Use) (v : List VWord) : Bool :=
  ([0, 1, 2, 3] : List (BitVec 2)).all (fun k =>
    let n := popsOf s.ctx k us
    decide (n ≤ (s.stream k).got.length) && (n == 0 || decide ((s.stream k).spos.toNat + n ≤ (s.stream k).act.total))) &&
  v.length == (us.filter (·.role == .src)).length && (List.range us.length).all (suppliedAt s us v) && s.pushesReady us

/-- A read pattern of two 8-byte elements in CLM, and its stream in progress; the same of two 64-byte elements for v registers. -/
def pat (dir : Bool) : Pattern := { Pattern.reset with wid := 3, dir := dir, base := va 0x1000, bnd := #v[2, 1, 1, 1], stride := #v[8, 0, 0, 0] }
def stm (dir : Bool) : Stream := { Stream.reset with act := pat dir, active := true, breg := 4 }
def wide (t : Stream) : Stream := { t with act := { t.act with wid := 4, stride := #v[64, 0, 0, 0] }, bv := true }

/-- Register 4 is bound to a read stream whose two elements have arrived, register 5 to a write stream with a place left: f registers in
one state, v registers in the other. -/
def flowing (f : Stream → Stream) : State :=
  (base.setStream 1 (f { stm false with got := [0x3F800000, 0x40000000] })).setStream 2 (f { stm true with breg := 5 })

theorem take_before {us p q : List Use} {u : Use} (h : us = p ++ u :: q) : us[p.length]? = some u ∧ us.take p.length = p ∧
    p.length < us.length := by
  subst h; simp

theorem supplied_of_now {s : State} {us : List Use} {v : List VWord} (h : suppliedNow s us v = true) : Supplied s us v := by
  simp only [suppliedNow, Bool.and_eq_true, List.all_eq_true, decide_eq_true_eq, Bool.or_eq_true, beq_iff_eq, List.mem_range] at h
  obtain ⟨⟨⟨hk, hv⟩, hp⟩, hr⟩ := h
  refine ⟨fun k => ?_, hv, fun p q u e hu => ?_, fun p q u k e hu hb => ?_, hr⟩
  · have := hk k (by revert k; decide)
    exact ⟨this.1, fun hn => this.2.resolve_left hn⟩
  · obtain ⟨h1, h2, h3⟩ := take_before e
    have := hp p.length h3
    simp only [suppliedAt, h1, h2, hu] at this
    simpa using this
  · obtain ⟨h1, h2, h3⟩ := take_before e
    have := hp p.length h3
    simp only [suppliedAt, h1, h2, hu, hb] at this
    simp at this
    obtain ⟨hlt, hs⟩ := this
    refine ⟨hlt, ?_⟩
    cases hx : s.pushPlace (s.stream k).act ((s.stream k).spos.toNat + pushesOf s.ctx k p) with
    | ok x => exact ⟨x, rfl⟩
    | error e => rw [hx] at hs; simp [Except.toOption] at hs

/-! ## Floating point -/

def k32 : FCtl := ⟨.s, .rne, 0⟩
def one : Word := 0x3F800000

def uses (isV : Bool) (d a b : Reg) : List Use := [⟨isV, d, .dst⟩, ⟨isV, a, .src⟩, ⟨isV, b, .src⟩]

/-- Plain registers; a sum of two elements of one stream that goes to another; a division that raises NV, which may be enabled. -/
theorem meets_FpResults :
    let i : Instr := .fdiv (rd 1) (rd 2) (rd 3) k32
    let j : Instr := .fadd (rd 5) (rd 4) (rd 4) k32
    Supplied base (uses false 1 2 3) [0, 0] ∧ Supplied (flowing id) (uses false 5 4 4) [0x3F800000, 0x40000000] ∧
    ((fpOp base i).map fun o => (o.rimm, o.ops, (o.res [0, 0]).fl)) = some (0, [fD (rd 1), fS (rd 2), fS (rd 3)], flagNV) ∧
    ((fpOp (flowing id) j).map fun o => (o.rimm, o.ops, (o.res [0x3F800000, 0x40000000]).bits)) =
      some (0, [fD (rd 5), fS (rd 4), fS (rd 4)], 0x40400000) ∧
    (openUses i base.ctx 0 [fD (rd 1), fS (rd 2), fS (rd 3)]).toOption = some (uses false 1 2 3) ∧
    (openUses j (flowing id).ctx 0 [fD (rd 5), fS (rd 4), fS (rd 4)]).toOption = some (uses false 5 4 4) ∧
    base.fpTraps flagNV = false ∧ flagNV &&& (ctx fun c => { c with te := 31 }).ctx.te ≠ 0 :=
  ⟨supplied_of_now (by decide +kernel), supplied_of_now (by decide +kernel), by decide +kernel⟩

/-- Relative f registers 0 and 31, and the first number outside at each end; the last v register of 32 and the first that is none; of
two relative operands the first good and the second not; a v register named directly past VALLOC.N. -/
theorem meets_RelativeOperands :
    let s := xs [(6, 31)]
    let i : Instr := .vadd (rd 1) (rr 6) (rr 7) ⟨.dyn, 1, .i32, false, 0⟩
    let few := ctx fun c => { c with valloc := 8 }
    (s.x 6 + ofI 0).toInt = 31 ∧ (s.x 6 + ofI 1).toInt = 32 ∧ (base.x 6 + ofI 0).toInt = 0 ∧ (base.x 6 + ofI (-1)).toInt < 0 ∧
    s.ctx.bound false 31 = none ∧ i.wf = true ∧ relOps base i = some (1, vD (rd 1) :: [vS (rr 6), vS (rr 7)]) ∧
    (Machine.relIdx (xs [(6, 30), (7, 31)]) 1 (vS (rr 6))).toInt = 31 ∧ (Machine.relIdx (xs [(6, 30), (7, 31)]) 1 (vS (rr 7))).toInt = 32 ∧
    base.ctx.bound true 1 = none ∧ (1 : Reg).toNat < base.ctx.valloc.toNat ∧ few.ctx.valloc.toNat ≤ (8 : Reg).toNat ∧
    (Instr.vadd (rd 8) (rd 1) (rd 2) (vk .i32 .dyn 0)).wf = true := by
  intros
  repeat' apply And.intro
  all_goals decide +kernel

/-- Finite numbers of both formats, whose sums are not negative and are; a tie. -/
theorem meets_SumsRounded : (fpInt (.ofIeee .s one)).isSome = true ∧ (fpInt (.ofIeee .d 1)).isSome = true ∧
    (fpInt (.ofIeee .s 0xBF800000)).isSome = true ∧ (fpInt (.ofIeee .s 0x4B800001)).isSome = true := by decide +kernel

/-- A divisor that is not zero, a radicand that is not negative, a product that is. -/
theorem meets_ProductsRounded : (fpQ .s one = some 1) ∧ (fpQ .d 0 = some 0) ∧ (fpQ .s 0xBF800000 = some (-1)) := by
  refine ⟨?_, ?_, ?_⟩ <;> (simp only [fpQ, fpInt]; decide +kernel)

theorem meets_NanOperands : isNaN .s 0x7F800001 = true ∧ isNaN .d 0x7FF8000000000000 = true ∧ isNaN .s one = false := by decide +kernel

/-! ## The vector unit -/

def vals (n : Nat) : List VWord := List.replicate n 0

/-- Plain registers; a sum of two elements of one stream that goes to another. -/
theorem meets_VectorLanes :
    let i : Instr := .vadd (rd 1) (rd 2) (rd 3) (vk .i32 .dyn 0)
    let j : Instr := .vadd (rd 5) (rd 4) (rd 4) (vk .i32 .dyn 0)
    let v : List VWord := [0x3F800000, 0x40000000]
    Supplied base (uses true 1 2 3) (vals 2) ∧ Supplied (flowing wide) (uses true 5 4 4) v ∧
    i.wf = true ∧ j.wf = true ∧
    ((vOp base i).map fun o => (o.srcs, o.flags base (vals 2))) = some ([vS (rd 2), vS (rd 3)], 0) ∧
    ((vOp (flowing wide) j).map fun o => (o.srcs, o.flags (flowing wide) v)) = some ([vS (rd 4), vS (rd 4)], 0) ∧
    (openUses i base.ctx 0 (vD (rd 1) :: [vS (rd 2), vS (rd 3)])).toOption = some (uses true 1 2 3) ∧
    (openUses j (flowing wide).ctx 0 (vD (rd 5) :: [vS (rd 4), vS (rd 4)])).toOption = some (uses true 5 4 4) ∧
    base.fpTraps 0 = false :=
  ⟨supplied_of_now (by decide +kernel), supplied_of_now (by decide +kernel), by decide +kernel⟩

/-- A vector division of zeros raises NV, which a context may have enabled. -/
theorem meets_FlagTraps :
    let i : Instr := .vdiv (rd 1) (rd 2) (rd 3) (vk .s .rne 0)
    ((vOp base i).map fun o => o.flags base (vals 2)) = some flagNV ∧
    (openUses i base.ctx 0 (vD (rd 1) :: [vS (rd 2), vS (rd 3)])).toOption = some (uses true 1 2 3) := by decide +kernel

/-- The operands of an instruction open to the uses listed, which are supplied. -/
def opens (s : State) (i : Instr) (ops : List Opnd) (us : List Use) (v : List VWord) : Bool :=
  (openUses i s.ctx 0 ops).toOption == some us && suppliedNow s us v

theorem opened {s : State} {i : Instr} {ops : List Opnd} {us : List Use} {v : List VWord} (h : opens s i ops us v = true) :
    openUses i s.ctx 0 ops = .ok us ∧ Supplied s us v := by
  simp only [opens, Bool.and_eq_true, beq_iff_eq] at h
  obtain ⟨h1, h2⟩ := h
  refine ⟨?_, supplied_of_now h2⟩
  cases e : openUses i s.ctx 0 ops with
  | ok x => simp only [e, Except.toOption, Option.some.injEq] at h1; rw [h1]
  | error t => rw [e] at h1; simp [Except.toOption] at h1

/-- Plain registers, and a popped one in each shape. -/
theorem meets_VectorSingles :
    (Instr.vcmp 1 (rd 2) (rd 3) .lt (vk .s .dyn 0)).wf = true ∧
    opens base (.vcmp 1 (rd 2) (rd 3) .lt (vk .s .dyn 0)) [vS (rd 2), vS (rd 3)] [⟨true, 2, .src⟩, ⟨true, 3, .src⟩] (vals 2) ∧
    opens (flowing wide) (.vcmp 1 (rd 4) (rd 4) .lt (vk .s .dyn 0)) [vS (rd 4), vS (rd 4)] [⟨true, 4, .src⟩, ⟨true, 4, .src⟩]
      [0x3F800000, 0x40000000] ∧
    opens base (.vins (rd 1) (rd 2) 3 (vk .i8 .dyn 0)) (⟨true, rd 1, .both⟩ :: scalarOps .i8 (rd 2)) [⟨true, 1, .both⟩] [] ∧
    opens base (.vext (rd 1) (rd 2) 3 (vk .s .dyn 0)) [fD (rd 1), vS (rd 2)] [⟨false, 1, .dst⟩, ⟨true, 2, .src⟩] (vals 1) ∧
    opens base (.vext (rd 1) (rd 2) 3 (vk .i8 .dyn 0)) [vS (rd 2)] [⟨true, 2, .src⟩] (vals 1) ∧ base.fpTraps 0 = false := by
  decide +kernel

theorem meets_VectorReductions :
    opens base (.vredsum (rd 1) (rd 2) (rd 3) (vk .i8 .dyn 0)) [vS (rd 2)] [⟨true, 2, .src⟩] (vals 1) ∧
    opens base (.vredmax (rd 1) (rd 2) (rd 3) (vk .s .dyn 0)) [fD (rd 1), vS (rd 2), fS (rd 3)]
      [⟨false, 1, .dst⟩, ⟨true, 2, .src⟩, ⟨false, 3, .src⟩] (vals 2) ∧ ewFmt .s = some .s ∧ Ew.i8.isInt = true := by decide +kernel

/-- k of 1 and 16, and the first refused at each end. -/
theorem meets_VectorSelection :
    opens base (.vtopk (rd 1) (rd 2) 3 (rd 4) (vk .s .dyn 0)) [vD (rd 1), vS (rd 2), vD (rd 4)]
      [⟨true, 1, .dst⟩, ⟨true, 2, .src⟩, ⟨true, 4, .dst⟩] (vals 1) ∧
    opens base (.vtopkm (rd 1) (rd 2) 3 (rd 4) (vk .s .dyn 0)) [⟨true, rd 1, .both⟩, vS (rd 2), ⟨true, rd 4, .both⟩]
      [⟨true, 1, .both⟩, ⟨true, 2, .src⟩, ⟨true, 4, .both⟩] (vals 1) ∧
    opens (flowing wide) (.vsortk (rd 1) (rd 4) (rd 5) (vk .s .dyn 0)) [vD (rd 1), vS (rd 4), vD (rd 5)]
      [⟨true, 1, .dst⟩, ⟨true, 4, .src⟩, ⟨true, 5, .dst⟩] [0x3F800000] ∧
    ((xs [(3, 16)]).x 3).toNat % 256 = 16 ∧ ((xs [(3, 17)]).x 3).toNat % 256 = 17 ∧ (base.x 3).toNat % 256 = 0 := by decide +kernel

def k64 : VMCtl := ⟨0, 0, .d, false, 0⟩

def lane64 (j : Nat) : LaneSrc := .mem (clm + 0x1000 + 8 * j) (homeOf (clm + 0x1000 + 8 * j))

/-- All eight lanes of an 8-byte load and store pass; a misaligned first lane fails; mask 1, all zero, leaves no lane; an index register
is popped. -/
theorem meets_VectorMemory :
    let s := xs [(10, va 0x1000)]
    let b := xs [(10, va 0x1001)]
    let g := pends [indexStore] (windowed (State.setM (xs [(10, 0x40000)]) 1 0xF))
    let part : Instr := .vld (rd 1) 10 ⟨0, 0, .d, false, 1⟩
    let one : Instr := .vld (rd 1) 10 ⟨0, 0, .i32, false, 1⟩
    ((vLoadOf s (.vld (rd 1) 10 k64)).map fun o => (o.lanes s, (o.lanes s).map fun j => (s.loadCheck (o.addr [] j) 8).toOption)) =
      some (List.range 8, (List.range 8).map fun j => some (lane64 j)) ∧
    ((vStoreOf s (.vst (rd 1) 10 k64)).map fun o => (o.lanes s).map fun j => (s.storeCheck (o.addr [] j) 8 .w).toOption) =
      some ((List.range 8).map fun j => some (clm + 0x1000 + 8 * j)) ∧
    ((vLoadOf b (.vld (rd 1) 10 k64)).map fun o => ((b.loadCheck (o.addr [] 0) 8).toOption, (b.storeCheck (o.addr [] 0) 8 .w).toOption)) =
      some (none, none) ∧
    ((vLoadOf s part).map fun o => o.lanes s) = some [] ∧
    ((vLoadOf g one).map fun o => (o.lanes g, (g.loadCheck (o.addr [] 0) 4).toOption.map g.indexFree)) = some ([0], some false) ∧
    opens s (.vld (rd 1) 10 k64) [⟨true, rd 1, .load⟩] [⟨true, 1, .load⟩] [] ∧
    opens s (.vst (rd 1) 10 k64) [vS (rd 1)] [⟨true, 1, .src⟩] (vals 1) ∧
    opens (flowing wide) (.vgath (rd 1) 10 (rd 4) k64) [⟨true, rd 1, .load⟩, vS (rd 4)] [⟨true, 1, .load⟩, ⟨true, 4, .src⟩]
      [0x3F800000] ∧
    s.powered (keys 0x1000 8) = true := by
  intros
  repeat' apply And.intro
  all_goals decide +kernel
/-! ## Streams and replays -/

/-- Stream 1 of the current context. -/
def streaming (t : Stream) (s : State := base) : State := s.setStream 1 t

/-- Every stream register from SCTL to SIDX; the widest and the first reserved WID; a pattern of 2 elements, and one of 2^48; a fault
held for the next element. -/
theorem meets_StreamSetup :
    (10 : BitVec 4).toNat ≤ 10 ∧ (0x20 : Word).toNat / 8 % 8 = 4 ∧ (0x28 : Word).toNat / 8 % 8 = 5 ∧
    (pat false).total = 2 ∧ { pat false with bnd := #v[0x1000000, 0x1000000, 1, 1], dims := 1 }.total = 2 ^ 48 ∧
    (base.stream 1).flt = none ∧ (⟨1, 0x2000, 1⟩ : StreamFault).n < 2 ^ 48 ∧ base.ctx.bound false 4 = none ∧
    (5 : Reg).toNat < base.ctx.valloc.toNat := by decide +kernel

/-- A pop of a fetched element, of one that is not fetched, past the end, and of one in the fault slot; a push to the last place, past
the end, and to a place that may not be written. -/
theorem meets_StreamOperands :
    let r := streaming { stm false with got := [7], spos := 1 }
    let w := streaming { stm true with spos := 1 }
    let keys := (List.range 8).map (clm + 0x1008 + ·)
    r.ctx.bound false 4 = some 1 ∧ (r.stream 1).spos.toNat < (pat false).total ∧
    ((streaming (stm false)).elemRead (pat false) .none 0).toOption.map (fun e => (e.1, e.2.keys, (streaming (stm false)).streamHeld e.2)) =
      some (0, (List.range 8).map (clm + 0x1000 + ·), false) ∧
    base.powered keys = true ∧ (pat false).total ≤ (2 : Word).toNat ∧
    ({ stm false with flt := some ⟨1, 0x2000, 1⟩, spos := 1, sflt := 0x2000 } : Stream).flt = some ⟨1, 0x2000, 1⟩ ∧
    w.ctx.bound false 4 = some 1 ∧ (w.pushPlace (pat true) 1).toOption.map (fun e => (e.1, e.2.1, e.2.2.keys)) = some (va 0x1008, keys, []) ∧
    w.streamHeld .none = false ∧ (w.pushPlace { pat true with base := 1 } 1).toOption = none ∧ (pat true).ind = false ∧
    w.ctx.allPushes = [] ∧ w.streamHeld (w.indexRead 1 1) = false ∧ w.powered (w.indexRead 1 1).keys = true := by decide +kernel

/-- Two MAND instructions as a body. -/
def bodied (cnt : BitVec 32) (r : Replay := .reset) : State :=
  ctx fun c => { c with rep := { r with act := true, len := 2, cnt := cnt, body := [.mand 1 2 3, .mand 2 1 3] } }


theorem meets_StreamMoves :
    let push (id : Nat) (off : Nat) : Push := ⟨id, cellsOf (clm + off) 8 5, [homeOf (clm + off)]⟩
    let s := streaming { stm true with pushes := [push 3 8, push 4 16] }
    (stm false).active = true ∧ ((streaming (stm false)).elemRead (pat false) .none 1).toOption.map
      (fun e => (e.2.keys, (streaming (stm false)).streamHeld e.2)) = some ((List.range 8).map (clm + 0x1008 + ·), false) ∧
    ((streaming (stm false)).elemRead { pat false with base := 1 } .none 0).toOption = none ∧
    (gotOf ((streaming (stm false)).elemRead { pat false with base := 1 } .none 0)).keys = [] ∧
    base.cmdBefore 3 0 ((cellsOf clm 8 5).map (·.1)) = false ∧
    (streaming (stm false)).ctx.allPushes = [] ∧ (s.stream 1).pushes = push 3 8 :: [push 4 16] ∧ s.pushFree (push 3 8) = true ∧
    s.powered ((cellsOf clm 8 5).map (·.1)) = true ∧ s.powered ((List.range 8).map (clm + 0x1008 + ·)) = true := by decide +kernel

/-- FREPI 2 of one instruction, and that instruction, a MAND, or none that may stand in a body, in the words after it. -/
def repeatsOf (i : Instr) : State := State.withFetchWord .reset 128 (leNat ((encode (.frepi 2 0) ++ encode i).flatMap fun g => leBytes 4 g.toNat))
def repeats : State := repeatsOf (.mand 1 2 3)

/-- Counts 0 and 2^32; a replay in progress; the first and the last iteration of a replay of two instructions. -/
theorem meets_Replays :
    (repeats.capture 64 1 (repeats.ctx.pc + 8) [] 0).toOption = some ([.mand 1 2 3], 8, 16) ∧
    (match (repeatsOf .wfi).capture 64 1 (repeats.ctx.pc + 8) [] 0 with | .error (.trap t) => t.code | _ => 0) = 1 ∧
    (bodied 2).ctx.rep.held = false ∧ (bodied 2).ctx.rep.issuing = false ∧ inBody (.mand 1 2 3) = true ∧ (bodied 2).ctx.wait = .none ∧
    repeats.ctx.rep.act = false ∧ (0 : BitVec 12).toNat < 2 ^ 32 ∧ 2 ^ 32 ≤ ((xs [(5, 0x100000000)]).x 5).toNat ∧
    (bodied 2).ctx.rep.act = true ∧ (bodied 2).ctx.rep.body[0]? = some (.mand 1 2 3) ∧
    (bodied 2 { Replay.reset with slot := 1, iter := 1 }).ctx.rep.body[1]? = some (.mand 2 1 3) ∧
    (bodied 2).ctx.rep.loads = [] ∧ (bodied 2).ctx.rep.ends = [] ∧ (bodied 2).ctx.fma = [] ∧
    fmaDest (bodied 2).ctx (.mand 1 2 3) = none ∧ (bodied 2).ctx.pend = [] := by decide +kernel

/-- A body instruction that runs and leaves no load out, and one that leaves one. -/
theorem meets_ReplayBody :
    let v : Instr := .vld (rd 1) 10 ⟨0, 0, .d, false, 0⟩
    let s (i : Instr) : State := xs [(10, va 0x1000)] (ctx fun c => { c with rep := { Replay.reset with
      act := true, issuing := true, len := 1, cnt := 2, body := [i] } })
    let out (i : Instr) : Option (Replay × Wait × Nat × List Nat) :=
      match exec i (s i) with | .next t => some (t.ctx.rep, t.ctx.wait, t.ctx.fma.length, t.ctx.loadsFrom (s i).nextId) | _ => none
    inBody v = true ∧ out v = some ((s v).ctx.rep, .none, 0, [(s v).nextId]) ∧
    out (.mand 1 2 3) = some ((s (.mand 1 2 3)).ctx.rep, .none, 0, []) ∧ fmaDest (s v).ctx v = none := by decide +kernel

/-- A load of a body instruction that is out, and one that is back; iterations left to issue, and none. -/
theorem meets_ReplayEnds :
    let r (l : List Nat) (n : BitVec 32) : State := pends [⟨7, loadOp, [], false⟩] (bodied 2 { Replay.reset with loads := l, iter := n })
    (r [7] 2).ctx.rep.act = true ∧ (r [7] 2).ctx.rep.held = false ∧ (r [7] 2).replayWrites 4 = true ∧ (r [6] 2).replayWrites 3 = false ∧
    (r [6] 1).replayWrites 4 = false ∧ (r [6] 1).ctx.rep.iter.toNat < (r [6] 1).ctx.rep.cnt.toNat := by decide +kernel

/-! ## The matrix unit -/

/-- Context 0 holds the claim of core 0, with these counted operations. -/
def claimed (ops : List TileOp := []) (s : State := base) : State :=
  { s with core := { s.core with claim := some 0, tileq := ops.zipIdx.map fun e => ⟨e.2, e.1, []⟩ } }

/-- The same context on core 8, the data core of cluster 0. -/
def dataCore : State := { base with cur := 64 }

/-- A free claim, one for which context 3 waits, one that context 1 holds, one that the context holds; a body instruction waits for none. -/
theorem meets_TileClaims :
    let others := { base with core := { base.core with claim := some 1 } }
    let queued := { base with core := { base.core with tacqs := [3] } }
    isCompute dataCore.k = false ∧ isCompute base.k = true ∧ base.tclm = false ∧ (claimed).tclm = true ∧
    (claimed [.zero 7]).core.tileq.isEmpty = false ∧ base.core.claim = none ∧ base.core.tacqs = [] ∧ others.tclm = false ∧
    others.core.claim = some 1 ∧ others.c ∉ others.core.tacqs ∧ queued.core.claim = none ∧ queued.core.tacqs = 3 :: [] ∧
    queued.tclm = false ∧ (0 : Nat) ∉ queued.core.tacqs ∧ (0 : Nat) ∈ [3, 0] ∧ (31 : Reg).toNat < base.ctx.valloc.toNat ∧
    base.ctx.bound true 31 = none ∧ (base.getCtx (base.k * 8 + 3)).rep.issuing = false := by decide +kernel

/-- The shape of one element of 8 bytes in tile 7, and FP32 tiles. -/
def shaped (sh : TShape) (s : State := claimed) : State := s.setTshape 7 sh

/-- A load and a store of one element at the last bytes of the CLM; the widths TMMA.S asks for, which reset gives. -/
theorem meets_TileInstructions :
    let s := xs [(1, va 0x1FFFF8)] (shaped ⟨0, 0, 4⟩)
    (s.tileLoad (.tld 7 1 0 0 0 false) 7 1 0 0 0 false false).toOption =
      some (.load 7 8 1 1 false false [⟨0, 0, (List.range 8).map (clm + 0x1FFFF8 + ·)⟩] []) ∧
    (s.tileLoad (.ttld 7 1 0 0 0 false) 7 1 0 0 0 false true).toOption =
      some (.load 7 8 1 1 false false [⟨0, 0, (List.range 8).map (clm + 0x1FFFF8 + ·)⟩] []) ∧
    (s.tileStore 7 1 0 0).toOption = some (.store 7 8 [⟨0, 0, (List.range 8).map (clm + 0x1FFFF8 + ·)⟩]) ∧
    ((claimed).tshape 1).wid = 3 ∧ ((claimed).tshape 2).wid = 3 ∧ ((claimed).tshape 3).wid = 3 ∧ s.ctx.bound true 31 = none ∧
    (31 : Reg).toNat < s.ctx.valloc.toNat ∧
    opens s (.tmovTo 31 7 .ts) [vS (direct 31)] [⟨true, 31, .src⟩] (vals 1) ∧
    opens (claimed [] (flowing wide)) (.tmovTo 4 7 .ts) [vS (direct 4)] [⟨true, 4, .src⟩] [0x3F800000] ∧
    (claimed [] (flowing wide)).tclm = true ∧ ((flowing wide).ctx.bound true 4).isSome = true := by decide +kernel

/-- Core `k` with counted operations, its claim held by its context `c`. -/
def holding (k c : Nat) (ops : List TileOp) : State :=
  base.setCore k { base.getCore k with claim := some c, tileq := ops.zipIdx.map fun e => ⟨e.2, e.1, []⟩ }

/-- The first of these operations is next. -/
theorem tile_next {k c : Nat} {o : TileOp} {l : List TileOp} (hq : ((holding k c (o :: l)).getCore k).tileq.take 1 = [⟨0, o, []⟩])
    (hp : (holding k c (o :: l)).powered o.keys = true) (hc : ((holding k c (o :: l)).getCore k).claim = some c)
    (hb : c < 8 ∧ ((holding k c (o :: l)).select (k * 8 + c)).tileBlocked ⟨0, o, []⟩ = false)
    (hw : ((holding k c (o :: l)).getCtx (k * 8 + c)).wait = .none) :
    ∃ rest, TileNext (holding k c (o :: l)) k 0 o [] rest := by
  refine ⟨((holding k c (o :: l)).getCore k).tileq.drop 1, ?_, hp, fun d hd => ?_⟩
  · exact ((List.take_append_drop 1 _).symm.trans (by rw [hq]; rfl))
  · rw [hc] at hd
    cases hd
    exact ⟨hb.1, hb.2, by rw [hw]; decide, fun b => by rw [hw]; exact Wait.noConfusion⟩

/-- An element in the last row and the last 8 bytes of a row; an element of two planes of a plane page; the holder is context 0 of
core 0, which is current, and context 3 of core 1. -/
theorem meets_TileCompletes :
    let e : TileElem := ⟨31, 15, (List.range 8).map (clm + ·)⟩
    let p : TileElem := ⟨31, 63, [clm, clm + 0x2000]⟩
    let o : TileOp := .load 7 8 1 1 false false [e, { e with row := 0 }] []
    let q : TileOp := .load 7 2 2 2 true true [p] [(31, clm + 0x4000)]
    (∀ k ∈ [0, 1], ∃ rest, TileNext (holding k 3 [o, q]) k 0 o [] rest) ∧
    (∃ rest, TileNext (holding 0 0 [q]) 0 0 q [] rest) ∧ (∃ rest, TileNext (holding 1 3 [.zero 7]) 1 0 (.zero 7) [] rest) ∧
    (∃ rest, TileNext (holding 1 3 [.store 7 8 [e]]) 1 0 (.store 7 8 [e]) [] rest) ∧
    (e.addrs.length = 8 ∧ (e.col + 1) * 8 ≤ 128) ∧ (e.row, e.col) ≠ (0, e.col) ∧ (p.addrs.length = 2 ∧ (p.col + 1) * 2 ≤ 128) := by
  refine ⟨?_, ?_, ?_, ?_, by decide⟩
  · intro k hk
    fin_cases hk
    all_goals apply tile_next
    all_goals decide +kernel
  all_goals apply tile_next
  all_goals decide +kernel

/-- A plain page and a plane page of two planes and one block of 128 elements, for a tile of 2 rows of 2 elements. -/
def pages : State := { base with tlb :=
  [(.core 0, .page 1 0x300000 13 0x300000 ⟨true, true, true, false, false, 0⟩),
   (.core 0, .page 1 0x200000 13 0x200000 ⟨true, true, true, false, false, 1⟩),
   (.core 0, .page 1 0x202000 12 0x202000 ⟨true, true, true, false, false, 0⟩),
   (.core 0, .fd 1 1 ⟨(1 <<< 32) + (2 <<< 4) + 3, (1 <<< 32) + 128, 0x200000, 0x202000⟩)] }

theorem meets_TileAddresses :
    let plain := State.setTshape (xs [(1, 0x300000), (2, 64)] pages) 7 ⟨1, 1, 3⟩
    let two := State.setTshape (xs [(1, 0x200000), (2, 64)] pages) 7 ⟨1, 1, 2⟩
    let fd : Fd := ⟨2, false, false, 1, 128, 4096, 0x200000, 0x202000⟩
    let all := [(0, 0), (0, 1), (1, 0), (1, 1)]
    let keys (r c : Nat) : List Nat := [0x200000 + r * 64 + c, 0x201000 + r * 64 + c]
    (plain.tileBase true 0x300000).toOption.map (fun b => (b.fdi, b.fd)) = some (0, none) ∧
    (plain.tileBase false 0x300000).toOption.map (fun b => (b.fdi, b.fd)) = some (0, none) ∧
    (∀ e ∈ all, (plain.tileSite true (0x300000 + ofN e.1 * 64 + ofN (e.2 * 4))).toOption = some (0x300000 + e.1 * 64 + e.2 * 4, 0)) ∧
    (∀ e ∈ all, (plain.tileSite false (0x300000 + ofN e.1 * 64 + ofN (e.2 * 4))).toOption = some (0x300000 + e.1 * 64 + e.2 * 4, 0)) ∧
    (two.tileBase true 0x200000).toOption.map (fun b => (b.fdi, b.fd)) = some (1, some fd) ∧
    (∀ e ∈ all, (two.tileElem true ⟨1, some fd⟩ 1 2 (0x200000 + ofN e.1 * 64 + ofN (e.2 * 1))).toOption =
      some (keys e.1 e.2, some (0, 0x202000))) ∧
    (blockRule false false (all.map fun e => ⟨e.1, e.2, 0x200000 + ofN (e.1 * 64 + e.2), keys e.1 e.2, some (0, 0x202000)⟩)).toOption =
      some () ∧
    (let bytes := State.setTshape two 7 ⟨1, 1, 0⟩
     (bytes.tileBase false 0x200000).toOption.map (fun b => (b.fdi, b.fd)) = some (1, some fd) ∧
     (∀ e ∈ all, (bytes.tileSite false (0x200000 + ofN e.1 * 64 + ofN (e.2 * 1))).toOption = some (0x200000 + e.1 * 64 + e.2, 1) ∧
       (fd.elem (0x200000 + ofN e.1 * 64 + ofN (e.2 * 1))).map (·.1) = some 0) ∧
     (two.tileBase false 0x200000).toOption.map (fun b => (b.fdi, b.fd)) = some (1, some fd)) := by decide +kernel

/-- A multiplication of each format, TMMA.I8's among them, held by a context that is current and by one that is not. -/
theorem meets_TileProducts : ∀ f : TFmt, (∃ rest, TileNext (holding 0 0 [.mma 0 1 2 f]) 0 0 (.mma 0 1 2 f) [] rest) ∧
    ∃ rest, TileNext (holding 1 3 [.mma 0 1 2 f]) 1 0 (.mma 0 1 2 f) [] rest := by
  intro f
  constructor
  all_goals apply tile_next
  all_goals first | rfl | (cases f <;> decide +kernel)

theorem meets_TileI8Product : ((0 : Tile) ≠ 1 ∧ (0 : Tile) ≠ 2) ∧
    ∃ rest, TileNext (holding 1 3 [.mma 0 1 2 .i8]) 1 0 (.mma 0 1 2 .i8) [] rest := ⟨by decide, (meets_TileProducts .i8).2⟩

/-- Cores 0 and 7 of a cluster are mirrored; both offer a tile. -/
theorem meets_TileSwaps :
    let s : State := { base with core := { base.core with offer := some (0, 7) }, cores := [(7, { Core.reset with offer := some (5, 0) })] }
    mirrorOf s.k = 7 ∧ s.core.offer = some (0, 7) ∧ (s.getCore (mirrorOf s.k)).offer = some (5, 0) ∧
    isCompute base.k = true ∧ (claimed).tclm = true := by decide +kernel

/-! ## Plane operations -/



def row : Fd := ⟨2, false, false, 1, 128, 4096, 0x200000, 0x202000⟩

/-- The last slice and the one block of the row; registers that are bound to streams, and ones that are not. -/
theorem meets_PlaneOperations :
    let s := xs [(1, 0x200070), (2, 0x200000)] pages
    let slice := (List.range 16).map fun j => ([0x200070 + j, 0x201070 + j], 0x202000)
    (s.planeAt true (s.x 1 + ofI 0)).toOption = some ⟨row, 112⟩ ∧ (s.planeAt false (s.x 1 + ofI 0)).toOption = some ⟨row, 112⟩ ∧
    (s.sliceKeys true .r .r row 2 ((List.range 16).map (112 + ·))).toOption = some slice ∧
    (s.sliceKeys false .w .r row 2 ((List.range 16).map (112 + ·))).toOption = some slice ∧
    (s.slice16 (s.x 1)).toOption = some (⟨row, 112⟩, slice) ∧
    s.tileOrder (s.sliceHomes row ((List.range 16).map (112 + ·)) slice) = false ∧ s.readsAfter s.nextId (allKeys slice) = false ∧
    s.readsAfter s.nextId (scaleKeys slice) = false ∧ s.powered (scaleKeys slice) = true ∧ s.fpTraps flagNV = false ∧
    ((flowing wide).ctx.bound true 4).isSome = true ∧ ((flowing id).ctx.bound false 4).isSome = true ∧
    opens s (.stp 1 1 0 0) [vS (direct 1)] [⟨true, 1, .src⟩] (vals 1) ∧
    opens (flowing wide) (.stp 4 1 0 0) [vS (direct 4)] [⟨true, 4, .src⟩] [0x3F800000] ∧
    opens s (.paxpy 1 1 0 3) [fS (direct 1), vS (direct 3)] [⟨false, 1, .src⟩, ⟨true, 3, .src⟩] (vals 2) ∧
    opens (flowing wide) (.psgdm 1 1 0 4 2) [fS (direct 1), vS (direct 4)] [⟨false, 1, .src⟩, ⟨true, 4, .src⟩]
      [(vals 1).getD 0 0, 0x3F800000] ∧
    (s.baddqAt false (s.x 2)).toOption = some ⟨row, 0⟩ ∧ (s.baddqAt true (s.x 2)).toOption = some ⟨row, 0⟩ ∧
    (s.sliceKeys false .w .w row 2 (row.blockElems 0)).toOption.map List.length = some 128 ∧
    (s.sliceKeys true .r .r row 1 (row.blockElems 0)).toOption.map List.length = some 128 ∧
    (s.planeKey true .r (row.scaleAddr 112)).toOption = some 0x202000 ∧ s.powered [0x202000] = true ∧
    s.powered (allKeys slice) = true ∧ s.tileConflict [s.homeAt (row.scaleAddr 112) 0x202000] = false ∧
    (31 : Reg).toNat < s.ctx.valloc.toNat := by decide +kernel

/-- A slice of two planes whose bytes are apart, with the scale 1.0 or the scale 0. -/
def sliced : Slice := ⟨(List.range 16).map fun j => [0x200000 + j, 0x201000 + j], 0x202000⟩
def scaled (g : Nat) (s : State := base) : State := { s with mem := Mem.setAll s.mem (cellsOf 0x202000 4 g) }

/-- Every NEAR operation, of the current context and of one that has ended; PSGDM with a momentum scale that is valid and one that is
not, and its second step. -/
theorem meets_NearAcks :
    let m : Slice := { sliced with scale := 0x203000 }
    let ops : List PendOp := [.prescale 5 1 sliced, .paxpy 0x3F800000 0 sliced, .psgdm 0 0 0 sliced m none, .psgdm 0 0 0 sliced m (some []),
      .baddq sliced m, .nearAmo .add 8 0x10000 1 0]
    (∀ op ∈ ops, base.cmdBefore 3 0 op.writes = false ∧ base.powered (nearKeys op) = true ∧ base.readsAfter 0 (nearKeys op) = false) ∧ base.ctx.wait = .none ∧
    (psgdmStep1 base.mem 0 0 sliced).isNone = true ∧ (psgdmStep1 (scaled 0x3F800000).mem 0 0 sliced).isSome = true ∧
    (∀ op ∈ ops, (pends [⟨0, op, [], false⟩]).ctx.pend = ⟨0, op, [], false⟩ :: [] ∧
      ({ base with orphans := [(3, ⟨0, op, [], false⟩)] } : State).orphans = (3, ⟨0, op, [], false⟩) :: []) := by decide +kernel

/-- The same slice: 1.0 is a scale with a value, 0 is none; word 0 is a number, 0x7F00 a NaN; 1.0 and 2.0 have a product. -/
theorem meets_PlaneArithmetic :
    let g (n : Nat) : Word := ofN (leNat (Mem.bytes (scaled n).mem sliced.scale 4))
    Memory.wf (scaled 0x3F800000).mem = true ∧ (sliced.elems.flatten ++ (List.range 4).map (sliced.scale + ·)).Nodup ∧
    (∀ ks ∈ sliced.elems, 1 ≤ ks.length ∧ ks.length ≤ 4) ∧ scaleOk ((g 0).extractLsb' 0 32) = false ∧
    scaleOk ((g 0x3F800000).extractLsb' 0 32) = true ∧ (fpInt (.ofIeee .s (g 0x3F800000))).isSome = true ∧
    pkNaN 2 0 = false ∧ pkNaN 2 0x7F00 = true ∧ sliced.elems.length ≤ 16 ∧ isNaN .s 0x3F800000 = false ∧ isNaN .s 0x7FC00000 = true ∧
    (fpInt (.ofIeee .s 0x40000000)).isSome = true := by decide +kernel

/-! ## Tasks -/

/-- A record of zero words is well-formed; one whose word 7 is 1 is not. The current context in a message handler. -/
def recs : State := xs [(1, va 0x1000), (2, 1), (3, va 0x2000), (4, 0x100000000)] (poke 0x2038 [1])
def busy : State := pends [⟨0, loadOp, [], false⟩]
def handling (s : State := base) : State := ctx (fun c => { c with hnd := true, kind := .msg false }) s

theorem meets_TaskRecords :
    (recs.x 1).toNat % 128 = 0 ∧ (recs.x 3).toNat % 64 = 0 ∧ (recs.loadBlock (recs.x 1) 8).toOption = some (srcs 0x1000 8) ∧
    (recs.loadBlock (recs.x 3) 8).toOption = some (srcs 0x2000 8) ∧ (∀ k ∈ keys 0x1000 8, cachedKey k = false) ∧
    recs.powered (keys 0x1000 16) = true ∧ (recs.storeBlock (recs.x 1) 16).toOption = some (keys 0x1000 16) ∧
    taskOk ((keys 0x1000 8).map (Mem.word recs.mem)) = true ∧ taskOk ((keys 0x2000 8).map (Mem.word recs.mem)) = false ∧
    (∀ k ∈ keys 0x1000 8, ctlOf k = none) ∧ recs.readsAfter recs.nextId (keys 0x1000 16) = false ∧
    ({ recs with core := { recs.core with deque := List.replicate 64 (TaskRec.ofWords []) } } : State).core.deque =
      TaskRec.ofWords [] :: List.replicate 63 (TaskRec.ofWords []) ∧ recs.core.siding.length < Config.dequeSidingSize ∧
    recs.core.dqAt = none ∧ (let p := clm + 0x8000
      ({ recs with core := { recs.core with dqAt := some p } } : State).core.dqAt = some p ∧
      recs.powered ((cellsAt (p + 64 * (recs.core.dqIn % 2 ^ 20)) ((TaskRec.ofWords []).words.flatMap fun w => leBytes 8 w.toNat)).map (·.1)) = true) ∧
    recs.ctx.pend = [] ∧ (recs.x 2).toInt = 1 ∧ (recs.x 0).toInt < 1 ∧ 2 ^ 32 ≤ (recs.x 4).toInt ∧
    recs.core.deque.length < 64 ∧ (handling recs).ctx.hnd = true ∧ heldForks (handling recs).ctx.heldq < 4 ∧
    heldForks (List.replicate 4 (Held.fork (TaskRec.ofWords []))) = 4 ∧ busy.ctx.ldc ≠ 0 := by decide +kernel

/-- Gateway core 0, whose queue has one number left, and none. -/
def gateway (next count : BitVec 32) : State := { base with cur := 2880 * 8, core := { base.core with gqNext := next, gqCount := count } }

/-- A partition with a collection round at core 0, and at its last core; a record in tile queue 63, and 16 of them. -/
def rounds (pos : Nat) (mark : Bool) : State := base.setPart 0 { part0 with round := some ⟨clm + 0x1000, 7, pos, mark⟩ }
def tiled : List (Nat × Word) := [(0x1008, 0x100010001), (0x1018, 1), (0x1060, 8), (0x1070, 1)]

theorem meets_TaskQueries :
    isGateway base.k = false ∧ isGateway (gateway 0 1).k = true ∧ (gateway 0 1).core.gqNext.toNat < (gateway 0 1).core.gqCount.toNat ∧
    (gateway 1 1).core.gqCount.toNat ≤ (gateway 1 1).core.gqNext.toNat ∧
    ((xs [(1, va 0x1000)]).storeCheck ((xs [(1, va 0x1000)]).x 1) 8 .w).toOption = some (clm + 0x1000) ∧
    base.partOf base.k = some (0, part0) ∧ ({ base with parts := [] } : State).partOf 0 = none ∧ part0.round = none ∧
    (handling).ctx.hnd = true ∧ busy.ctx.ldc ≠ 0 ∧ ((rounds 0 false).part 0).map (·.round.isSome) = some true ∧
    (let s := tiled.foldl (fun s e => poke e.1 [e.2] s) (xs [(1, va 0x1000), (2, 63), (3, 64)])
     let ws := (keys 0x1000 16).map (Mem.word s.mem)
     (s.loadBlock (s.x 1) 16).toOption = some (srcs 0x1000 16) ∧ s.readsAfter s.nextId (keys 0x1000 16) = false ∧
     (∀ k ∈ keys 0x1000 16, cachedKey k = false ∧ ctlOf k = none) ∧ tileOk ws = true ∧ tileOk (1 :: ws) = false ∧ (s.tileq 63).length < 16 ∧
     s.powered (keys 0x1000 16) = true ∧ (s.x 2).toNat = 63 ∧ 64 ≤ (s.x 3).toNat ∧
     16 ≤ ((s.setTileq 63 (List.replicate 16 ⟨ws, 0, 0, none, 0, 0, 0⟩)).tileq 63).length) := by decide +kernel

/-- A context that may end; one with a load outstanding; in a callout; with the claim, and counted operations; one that holds region 3,
and the tag 0x13 that names it, 0 and 0x14 that do not. -/
theorem meets_ContextEnds :
    MayEnd base ∧ base.ctx.hnd = false ∧ base.ctx.wd.wdm = false ∧ (handling).ctx.hnd = true ∧
    busy.ctx.ldc ≠ 0 ∧
    (let w : Train := { Train.reset with wdm := true, state := 3 }
     w.wdm = true ∧ w.state = 3) ∧
    ((claimed).tclm = true ∧ (claimed).ctx.eng = [] ∧ (claimed).core.tileq = [] ∧ (claimed [.zero 0]).core.tileq.isEmpty = false) ∧
    (let s := xs [(1, 0x13), (2, 0x14)] (ctx fun c => { c with region := some 3 })
     let tag : BitVec 16 := (s.x 1).extractLsb' 0 16
     s.ctx.ldc = 0 ∧ s.tclm = false ∧ s.ctx.eng = [] ∧ s.ctx.region = some 3 ∧ isMesh s.k = true ∧ tag ≠ 0 ∧ tag.toNat % 16 = 3 ∧
     ((s.cluster 0).region 3).tag = 0 ∧ (∀ r ∈ (s.cluster 0).regions.toList, r.tag ≠ tag) ∧ (s.x 0).extractLsb' 0 16 = 0#16 ∧
     ((s.x 2).extractLsb' 0 16).toNat % 16 ≠ 3) ∧
    (let s := xs [(1, va 0x1000), (2, va 0x1008)] (poke 0x1000 [1])
     (s.storeCheck (s.x 1) 8 .w).toOption = some (clm + 0x1000) ∧ s.powered [clm + 0x1000] = true ∧ s.core.deque.length < 64 ∧
     Memory.wf s.mem = true ∧ (s.x 2).toNat % 128 ≠ 0 ∧ (s.storeCheck (s.x 2) 8 .w).toOption = some (clm + 0x1008) ∧
     let asleep := s.setCluster 0 (Cluster.reset.setRegion 0 ⟨false, false, 0, [], true⟩)
     let word := byteKeys (clm + 0x1000) 8
     let both := word ++ byteKeys (clm + 0x1040) 64
     (s.x 1).toNat % 128 = 0 ∧ Mem.word s.mem (clm + 0x1000) = 1 ∧ s.ctx.stc = 0 ∧ s.mayReadNow word = true ∧ s.mayReadNow both = true ∧
     MayEnd asleep ∧ asleep.mayReadNow word = false ∧ asleep.mayReadNow both = false) := by
  repeat' apply And.intro
  all_goals decide +kernel

/-- Core 1 has a record and its context 0 is free; core 0 has none. -/
def one1 : TaskRec := TaskRec.ofWords [0x4000, 1, 2, 3, 4, 0, 0x300, 0]
def two (l : List TaskRec) : State := { base with cores := [(1, { Core.reset with deque := l, siding := [] })] }

/-- Core 12, of another cluster than its thief, core 0, with these records: one that may not leave its cluster, and one that may. -/
def stolen (siding deque : List TaskRec) (th : Thief := ⟨0, 0, false⟩) : State :=
  { two deque with core := { base.core with stealing := some 12, thief := th }, cores := [(12, { Core.reset with deque := deque, siding := siding })] }
def stays : TaskRec := TaskRec.ofWords [0x4000, 1, 2, 3, 4, 0, 0, 0]

/-- Records that reach the thief behind one that does not, in the deque and in the siding; none that does; the fourth failure of a level,
and that of the package. -/
theorem meets_Steals :
    let r (x : TaskRec) : Bool := sameGroup x.dom.toNat 12 0
    r stays = false ∧ r one1 = true ∧
    ∀ s ∈ [stolen [] [stays, one1, stays], stolen [stays, one1] [one1], stolen [stays] [stays] ⟨0, 3, false⟩, stolen [] [stays] ⟨3, 3, false⟩,
        stolen [] [] ⟨1, 2, false⟩],
      s.thievesOf 12 = 0 :: [] ∧ s.isThief 0 = true ∧ s.dormant 0 = some 1 := by decide +kernel

/-- A record for one core of a partition that runs, and 15 records with a siding; a request for the last 112 registers; a thief
with a victim of its cluster, alone, with one failure left at a level, pausing. -/
theorem meets_Activations :
    let s := two [one1]
    let t : State := { s with core := { s.core with stealing := some 1 } }
    s.running 1 = true ∧ s.hasRoom 1 = true ∧ s.before 1 = false ∧ s.dormant 1 = some 8 ∧ (s.getCore 1).deque = [] ++ [one1] ∧
    ({ Core.reset with siding := [one1], deque := List.replicate 15 one1 } : Core).deque.length < 16 ∧
    ({ base with core := { base.core with regReqs := [1] } } : State).regsFit 0 (base.getCtx 1).valloc.toNat = true ∧
    base.withinLimits 0 = true ∧ ({ base with core := { base.core with hres := 7 } } : State).withinLimits 0 = true ∧
    (let full : Ctx := { Ctx.reset with phase := .active, valloc := 32 }
     ({ base with core := { base.core with hres := 7 }, ctxs := [(1, full), (2, full), (3, full)] } : State).withinLimits 0 = false) ∧
    s.isThief 0 = true ∧ s.core.thief.pause = false ∧ s.core.stealing = none ∧ 1 ∈ s.victims 0 0 ∧
    ({ base with cur := 2880 * 8, parts := [(0, { part0 with gws := [0] })] } : State).victims 2880 0 = [] ∧
    t.thievesOf 1 = 0 :: [] ∧ t.isThief 0 = true ∧ t.dormant 0 = some 1 ∧ (t.getCore 1).siding = [] ∧
    (t.getCore 1).deque = one1 :: [] ∧ s.running 0 = true ∧ s.running 200 = false ∧ ({ base with core := { base.core with regReqs := [1] } } : State).running 0 = true ∧
    (rounds 0 true).part 0 = some { part0 with round := some ⟨clm + 0x1000, 7, 0, true⟩ } ∧ part0.cores[0]? = some 0 ∧
    part0.cores[180]? = some 2880 ∧ part0.cores.length = 181 ∧ (rounds 0 false).tokenFree 0 = true ∧
    (rounds 180 false).tokenMark 2880 = false ∧ (rounds 180 false).tokenFree 2880 = true ∧
    ({ base with core := { base.core with injected := true } } : State).tokenMark 0 = true ∧
    ({ base with orphans := [(0, ⟨0, .store .core [[(clm, 1)]], [], false⟩)] } : State).tokenFree 0 = false := by decide +kernel

/-! ## Messages -/

/-- A message header for context 0 of core 1 on VN0, at 0x4000. -/
def w0 : Word := ofN (cidOf 8).toNat
def sending : State := xs [(1, w0), (2, 0x4000), (3, w0 ||| 0x1FF0000), (4, 1 <<< 63), (5, va 0x1000)] (poke 0x1000 [w0, 0x4000])

/-- A destination of this device, one that is none, a header with a reserved bit; a full network; a misaligned PADR; a handler of a
reply, and one whose network is full. -/
theorem meets_MessagesOut :
    let s := sending
    let full (n : Bool) : Core := if n then { s.core with out1 := List.replicate 16 s.reply } else { s.core with out0 := List.replicate 16 s.reply }
    hdrOk w0 (s.x 2) = true ∧ msgVn w0 = false ∧ msgPlen w0 = 0 ∧ msgFmt w0 = 0 ∧ s.canReceive w0 = true ∧ s.canReceive (s.x 3) = false ∧
    hdrOk (s.x 3) (s.x 2) = true ∧ hdrOk (s.x 4) (s.x 2) = false ∧ 0 < s.core.freeSlots false ∧ (full false).freeSlots false = 0 ∧
    (full true).freeSlots true = 0 ∧ s.ctx.hvn = false ∧ (ctx fun c => { c with hnd := true, hvn := true }).ctx.hvn = true ∧
    (handling).ctx.hnd = true ∧ busy.ctx.ldc ≠ 0 ∧ (s.x 0).toNat % 4 = 0 ∧ (1 : Word).toNat % 4 ≠ 0 ∧
    (s.loadBlock (s.x 5) 8).toOption = some (srcs 0x1000 8) ∧ (s.payloadAt 0 0).toOption = some [] ∧
    (∀ k ∈ keys 0x1000 8 ++ [], cachedKey k = false ∧ ctlOf k = none) ∧ s.readsAfter s.nextId (keys 0x1000 8) = false ∧
    s.powered (keys 0x1000 8 ++ []) = true ∧ s.core.l1 = [] ∧
    (keys 0x1000 8).map (Mem.word s.mem) = [w0, 0x4000, 0, 0, 0, 0, 0, 0] ∧
    hdrOk (Mem.word (poke 0x1000 [1 <<< 63]).mem (clm + 0x1000)) 0 = false := by decide +kernel

/-- A slot whose MID names context 0 of core 1 as the sender; a handler that holds nothing, a message, a FORK. -/
theorem meets_MessageEnds :
    let s := handling (pends [])
    let t : TaskRec := TaskRec.ofWords []
    let many : List Held := [.send base.reply, .fork t, .send base.reply, .fork { t with pc := 0x40 }]
    let slot := aliasKey base.k (slotAddr base.cur)
    let mid := Mem.word ({ base with mem := Mem.setAll base.mem (cellsOf (slot + 0x38) 8 (cidOf 8).toNat) } : State).mem (slot + 0x38)
    MayEnd s ∧ s.ctx.heldq = [] ∧ s.ctx.phase = .active ∧ base.ctx.hnd = false ∧ base.ctx.hvn = false ∧ base.ctx.stc = 0 ∧
    base.canReceive (ofN (2 ^ 32 + mid.toNat % 2 ^ 25)) = true ∧ 0 < base.core.freeSlots true ∧
    (handling busy).ctx.ldc ≠ 0 ∧
    MayEnd (handling (ctx fun c => { c with heldq := many })) ∧ s.core.deque.length + many.length ≤ 64 := by
  repeat' apply And.intro
  all_goals decide +kernel

def msg (w : Word) (call : Bool) : Msg := base.mkMsg w 0x4000 0 [1, 2, 3, 4] [] call
def arrived (l0 l1 : List InEntry) : State := { base with cores := [(1, { Core.reset with inq0 := l0, inq1 := l1 })] }

/-- A message of this device and one for device 3; an input queue with room and one without; a VN0 message, a call and a reply. -/
theorem meets_MessageEvents :
    (let j : Job := (base.jobOr 1)
     j.siding.length < j.entries ∧ j.ring = none ∧ { j with entries := 0 }.entries ≤ j.siding.length ∧
     ({ base with jobs := [j] } : State).job (msg w0 false).asid = some j ∧ { part0 with idle := true }.idle = true) ∧
    (msg w0 false).w0.extractLsb' 16 9 = base.dev.devnum ∧ base.sidedWith (msg w0 false) = none ∧
    (msg (w0 ||| 0x30000) false).w0.extractLsb' 16 9 ≠ base.dev.devnum ∧ destCore (msg w0 false).w0 = some 1 ∧
    base.partOf 1 = some (0, part0) ∧ part0.asid = (msg w0 false).asid ∧ part0.idle = false ∧
    (Core.reset.inq (msgVn w0)).length < Config.inQueueSize ∧
    Config.inQueueSize ≤ (List.replicate 32 (InEntry.mk (msg w0 false) none false)).length ∧
    (arrived [⟨msg w0 false, none, false⟩] []).running 1 = true ∧ (arrived [] [⟨msg (w0 ||| 0x100000000) false, none, false⟩]).vn1Ready 1 =
      some (8, msg (w0 ||| 0x100000000) false) ∧ msgVn (msg (w0 ||| 0x100000000) false).w0 = true ∧
    (arrived [⟨msg w0 false, none, false⟩] []).vn1Ready 1 = none ∧
    (arrived [⟨msg w0 false, none, false⟩] []).vn0Ready 1 = some (8, msg w0 false) ∧
    (arrived [⟨msg w0 true, none, false⟩] []).vn0Ready 1 = some (8, msg w0 true) ∧ base.dev.trAct = false ∧ base.linked = true ∧
    ({ base with dev := { base.dev with down := List.range 18 } } : State).linked = false := by decide +kernel

/-! ## Atomics, barriers and ordering -/

def shared : State := { xs [(1, 0x300008), (2, 5), (3, 4)] base with tlb := [(.die 0, .page 1 0x300000 12 0x300000 ⟨true, true, true, false, false, 0⟩)] }

theorem meets_Atomics :
    (shared.storeCheck (shared.x 1 + ofI 0) 8 .rw).toOption = some 0x300008 ∧ (shared.storeCheck (shared.x 1 + ofI 4) 4 .rw).toOption = some 0x30000C ∧
    shared.powered [0x300008] = true ∧ aliasOf shared.k (shared.x 1 + ofI 0) = none ∧ (aliasOf base.k (va 0x1000)).isSome = true ∧
    (base.storeCheck (va 0x1000) 8 .rw).toOption = some (clm + 0x1000) ∧ busy.ctx.ldc ≠ 0 ∧
    (shared.storeCheck (shared.x 1 + ofI 0) 8 .rw).toOption = some 0x300008 ∧ shared.core.tileq = [] ∧ shared.ctx.wait = .none ∧
    (pends [⟨0, .amo .cas 4 0x30000C 1 2 0 false, [], false⟩] shared).ctx.pend = ⟨0, .amo .cas 4 0x30000C 1 2 0 false, [], false⟩ :: [] ∧
    shared.readsAfter 0 ((List.range 4).map (0x30000C + ·)) = false ∧ (5 : Nat) < 2 ^ (8 * 4) := by decide +kernel

/-- Targets reached by equality and missed by one; an arrival that is done; each path with and without an access; a releasing
instruction that waits. -/
theorem meets_Synchronization :
    let s : State := { shared with mem := Mem.setAll shared.mem (cellsOf 0x300008 8 4) }
    let at' : Nat := s.homeAt (s.x 1 + ofI 0) 0x300008
    let arr : Wait := .arrival 0x300008 at' 5
    let aw : Wait := .await 0x300008 at' 5 true
    let on (op : PendOp) (p : Path) : Bool := (pends [⟨0, op, [(p, 0)], false⟩]).pathDone p
    (s.storeCheck (s.x 1 + ofI 0) 8 .rw).toOption = some 0x300008 ∧ s.coreBusy 0x300008 at' = false ∧ s.powered [0x300008] = true ∧
    (s.x 3).toInt ≤ (Mem.word s.mem 0x300008).toInt ∧ (Mem.word s.mem 0x300008).toInt < (s.x 2).toInt ∧ s.ctx.arrv = false ∧
    Memory.wf s.mem = true ∧ (ctx fun c => { c with arrv := true }).ctx.arrv = true ∧ (handling).ctx.hnd = true ∧
    (ctx fun c => { c with wait := arr }).ctx.wait = arr ∧
    (pends [⟨0, .arrival 0x300008, [], false⟩]).ctx.pend = [⟨0, .arrival 0x300008, [], false⟩] ∧
    busy.ctx.ldc ≠ 0 ∧ base.ctx.ldc = 0 ∧ base.ctx.stc = 0 ∧ base.ctx.pushes = 0 ∧ base.tlc = 0 ∧
    base.ctx.pend = [] ∧ base.ctx.cpc = 0 ∧ base.payloadsLeft base.cur = false ∧ base.pathDone .core = true ∧
    on loadOp .core = false ∧ on (.load .gwin false (.x 5 4 false) []) .gwin = false ∧
    (streaming { stm true with pushes := [⟨3, [], []⟩] }).pathDone .strm = false ∧ (claimed [.zero 0]).pathDone .tile = false ∧
    (ctx fun c => { c with cpc := 1 }).pathDone .copy = false ∧
    (ctx fun c => { c with wait := aw }).ctx.wait = aw ∧
    (ctx fun c => { c with wait := .release (.stl 1 2 0 .d) }).ctx.wait = .release (.stl 1 2 0 .d) ∧
    (releaseMeaning (.stl 1 2 0 .d)).isSome = true ∧ (base.storeCheck (base.x 2 + ofI 0) 8 .w).toOption = none ∧
    (base.storeCheck (va 0x1000) 8 .w).toOption = some (clm + 0x1000) := by decide +kernel

/-! ## Engines, gather windows and trains -/

/-- A DCOPY descriptor of one byte from 0x1800 to 0x1900, and a SORTC descriptor of one key and one bucket. -/
def dwords : List Word := [va 0x1800, va 0x1900, 0x0001000100000001, 0, 0, 0, 0, 0]
def swords : List Word := [va 0x1800, 0, 0, va 0x1900, va 0x1940, va 0x1980, 0x0000000101000001, 1]
def engine : State := xs [(1, va 0x1000), (2, 0xFFFFFF), (3, 0x1000000), (4, va 0x1004)] (poke 0x1000 dwords)
def dcmd : EngCmd := ⟨0, 0, 0, 7, va 0x1000, dwords, 0, 0x10000, 1, none, false, true, none⟩

/-- The station master has no copy engine and gateway core 0 no decode engine; counts of 1, 2^24 − 1 and 2^24 bytes; 255 commands
counted; request slots that are free, that trains hold and that commands hold. -/
theorem meets_EngineIssue :
    let ea := engine.x 1 + ofI 0
    isMaster ({ base with cur := 2898 * 8 } : State).k = true ∧ isMaster engine.k = false ∧
    isMesh ({ base with cur := 2880 * 8 } : State).k = false ∧ isMesh engine.k = true ∧ ea.toNat % 64 = 0 ∧
    (engine.x 1 + ofI 4).toNat % 64 ≠ 0 ∧ (engine.loadBlock ea 8).toOption = some (srcs 0x1000 8) ∧
    ((keys 0x1000 8).all fun k => !cachedKey k && (ctlOf k).isNone) = true ∧ engine.powered (keys 0x1000 8) = true ∧
    engine.ctx.pend = [] ∧ engine.readsAfter engine.nextId (keys 0x1000 8) = false ∧
    (keys 0x1000 8).map (Mem.word engine.mem) = dwords ∧ dcopyOk dwords = true ∧ sortcOk dwords = false ∧
    dcopyOk (0 :: dwords) = false ∧ engine.ctx.cpc < 255 ∧ (ctx fun c => { c with cpc := 255 }).ctx.cpc = 255 ∧
    (engine.x 2).toNat < 2 ^ 24 ∧ 2 ^ 24 ≤ (engine.x 3).toNat ∧ (engine.x 0).toNat = 0 ∧ (engine.x 4).toNat % 4 = 0 ∧
    (engine.x 2).toNat % 4 ≠ 0 ∧
    (let free (c : Cluster) : Prop := c.decodes.length < 3 ∧ c.decodes.length + c.reqs.length < 4
     free (engine.cluster 0) ∧ ¬free { Cluster.reset with reqs := List.replicate 4 ⟨8, 1, 0⟩ } ∧
     ¬free { Cluster.reset with decodes := List.replicate 3 dcmd }) := by decide +kernel

/-- A copy of one byte that nothing fails, and one from an address that is none; no earlier access stands in its way. -/
theorem meets_EngineEnds :
    let s := engine.setCluster 0 { Cluster.reset with copies := [dcmd] }
    (s.cluster 0).cmd 0 = some dcmd ∧ (s.cluster 0).cmdReady 0 = true ∧ dcmd.failed = none ∧ dcmd.ended = false ∧
    dcmd.counted = true ∧ s.cmdFree 0 dcmd (runCmd dcmd s) = true ∧
    s.powered (runCmd dcmd s).keys = true ∧ (runCmd dcmd s).fault = none ∧ (s.getCtx dcmd.ctx).eng.length < 16 ∧
    ((s.setCtx 0 { s.ctx with eng := List.replicate 16 s.ctx.latched }).getCtx dcmd.ctx).eng.length = 16 ∧ dcmd.cmd = 0 ∧ dcmd.at' = none ∧ dcopyConv dcmd.desc = 0 ∧
    dcmd.w 2 = 0x0001000100000001 ∧ (s.engKey dcmd .r (dcmd.w 0)).toOption = some (clm + 0x1800) ∧
    (s.engKey dcmd .w (dcmd.w 1)).toOption = some (clm + 0x1900) ∧
    (runCmd { dcmd with desc := 1 <<< 51 :: dwords.drop 1 } s).fault = some ⟨7, 1 <<< 51⟩ := by decide +kernel

theorem meets_EnginesSort : sortcOk swords = true ∧ (sortcAlign swords).toOption = some () ∧
    (sortcAlign (va 0x1801 :: swords.drop 1)).toOption = none := by decide +kernel

/-- Counts of 0 and 1 lanes; the first and a misaligned address; a window that stands, and one that another meets. -/
theorem meets_WindowsAndStatus :
    let sp := sp0
    let s := xs [(1, va 0), (2, va 4), (3, 0x10000001), (4, 0x40000), (5, va 2)]
    base.space base.k = some sp ∧ ({ base with parts := [] } : State).space base.k = none ∧ (s.x 0).toNat % 2 ^ 28 = 0 ∧
    (s.x 3).toNat < 2 ^ 56 ∧ (s.x 3).toNat % 2 ^ 28 = 1 ∧ (s.x 3).toNat / 2 ^ 28 = 1 ∧ (s.x 1).toNat % 4 = 0 ∧
    ((s.x 3 + 1).toNat % 4 ≠ 0) ∧ (s.x 2).toNat % min (sizeCode 0) 8 = 0 ∧ (s.x 5).toNat % min (sizeCode 2) 8 ≠ 0 ∧ s.badWindow sp (s.x 4) (1 * sizeCode 0) 15 = false ∧
    s.badWindow sp (s.x 4 + 1) (1 * sizeCode 0) 15 = true ∧ s.windowRec sp 15 = none ∧
    (({ s with tlb := [(.core 0, .window 1 15 ⟨0x40000, 0, 0, 0x8000000010000001⟩)] } : State).windowRec sp 15).isSome = true ∧
    Memory.wf s.mem = true ∧ s.ctx.cpc < 256 := by decide +kernel

/-- Context 0 of core 0 with the claim, at a train's block at 0x40000 of a page that only trains may read; the page of its code. -/
def train (w : Train) : State :=
  { claimed [] (xs [(1, 0x40000), (2, 0x40010), (3, va 0x8000), (4, 0x60000)] (ctx fun c => { c with wd := w })) with
    tlb := [(.die 0, .page 1 0x40000 13 0x40000 ⟨true, false, false, false, true, 0⟩),
      (.die 0, .page 1 0x1000 12 0x1000 ⟨true, false, false, true, false, 0⟩)] }
def under (state : BitVec 3) : Train :=
  { Train.reset with wdm := true, state := state, base := va 0, out := va 0x2000, cond := va 0x4000, blk := 0x40000, rpc := 0x1000 }

/-- A callout whose block has the coupling 0, and −1; the WDRUN that an interrupted run goes back to; a claim that the context lacks. -/
theorem meets_Trains :
    let s := train .reset
    let may (s : State) : Bool := isCompute s.k && !s.ctx.hnd && !s.ctx.wd.wdm
    let out (s : State) : Bool := s.ctx.wd.wdm && s.ctx.wd.state == 3
    let cpl (s : State) : Option (BitVec 32) := s.calloutCpl.toOption.map (·.2)
    may s = true ∧ s.tclm = true ∧ may base = true ∧ base.tclm = false ∧ may dataCore = false ∧ (s.x 1).toNat % 32 = 0 ∧
    (s.x 2).toNat % 32 ≠ 0 ∧ s.ctx.ldc = 0 ∧ s.ctx.stc = 0 ∧ s.core.tileq = [] ∧ s.ctx.pc.toNat % 4 = 0 ∧
    (claimed [.zero 0] base).core.tileq.isEmpty = false ∧ (claimed [.zero 0] base).tclm = true ∧ may (claimed [.zero 0] base) = true ∧
    out (train (under 3)) = true ∧ (train (under 3)).tclm = true ∧ out (ctx fun c => { c with wd := under 3 }) = true ∧
    (claimed [.zero 0] (train (under 3))).core.tileq.isEmpty = false ∧ out s = false ∧
    cpl (train (under 3)) = some 0 ∧ cpl { train (under 3) with mem := Mem.setAll base.mem (cellsOf 0x40008 4 0xFFFFFFFF) } = some 0xFFFFFFFF ∧
    (train (under 3)).calloutCpl.toOption.map (fun e => (train (under 3)).mayReadNow e.1) = some true ∧
    (train { under 1 with ending := some 5 }).trainDrained = true ∧ (under 1).reread = false ∧ (under 1).ending = none := by
  decide +kernel

/-- A callout whose block lies in a region that sleeps. -/
theorem meets_Trains_asleep :
    let w := { under 3 with blk := va 0 }
    let s := { train w with tlb := [(.die 0, .page 1 0x60000 13 0x40000020000 ⟨true, false, false, false, true, 0⟩)] }
    let s := (State.setCluster { s with ctx := { s.ctx with wd := { w with blk := 0x60000 } } } 0
      (Cluster.reset.setRegion 1 ⟨false, false, 0, [], true⟩))
    s.calloutCpl.toOption.map (fun e => s.mayReadNow e.1) = some false := by decide +kernel

/-- The train's status goes to the register the WDRUN at WDRPC names when it is read again. -/
theorem meets_Trains_reread :
    let s := { train { under 1 with ending := some 5, reread := true } with
      mem := Mem.setAll base.mem (cellsOf 0x1000 8 ((encode (.wdrun 5 1)).foldr (fun (g : BitVec 32) n => g.toNat + 2 ^ 32 * n) 0)) }
    s.trainDrained = true ∧ (∃ n, s.fetchAt s.ctx.wd.rpc = .instr (.wdrun 5 1) n) ∧ s.ctx.wd.reread = true :=
  ⟨by decide +kernel, ⟨8, by decide +kernel⟩, rfl⟩

/-- A header without its CRC, with it. -/
def blk (w0 w1 w2 w3 w4 w5 w6 : BitVec 32) (p : List Byte := []) : BlkHdr :=
  let h : BlkHdr := ⟨w0, w1, w2, w3, w4, w5, w6, 0⟩
  { h with w7 := crc32c (h.bytes ++ p) }

/-- The payload with which a block starts, if it passes the checks of its fields, its payload's bytes and its CRC. -/
def started (s : State) (i : Instr) (h : BlkHdr) : Option (List Byte) :=
  match s.trainKeys (s.ctx.wd.blk + 32) h.plen with
  | .ok pk =>
    let p := pk.map (Mem.get s.mem)
    if s.ctx.wd.block.isNone && fieldsOk i && s.mayReadNow pk && crc32c (h.bytes ++ p) == h.w7 then some p else none
  | .error _ => none

/-- Whether a block starts and may then read keys. -/
def readyFor (s : State) (i : Instr) (h : BlkHdr) (ks : List Nat) : Bool :=
  match s.trainKeys (s.ctx.wd.blk + 32) h.plen with
  | .ok pk =>
    let p := pk.map (Mem.get s.mem)
    let t := State.touch s.k s pk
    started s i h == some p && State.mayReadNow { t with ctx := { s.ctx with wd := { s.ctx.wd with block := some (i, p) } } } ks
  | .error _ => false

/-- Blocks of every opcode but MMA start; one whose CRC is wrong, and one whose fields are, do not; a POST that has started holds its
block. -/
theorem meets_TrainBlocks_starts :
    let s := train (under 1)
    let ok (f : BlkHdr → Instr) (w0 w1 w2 w3 w5 w6 : BitVec 32) : Bool :=
      started s (f (blk w0 w1 w2 w3 0 w5 w6)) (blk w0 w1 w2 w3 0 w5 w6) == some []
    let post : BlkHdr := blk 0xFF000000 0x50E03 0 8 0 0 9
    s.trainRuns = true ∧ ok .loada 0xFF000000 8 1 0 0 0 ∧ ok .zeroc 0xFF000000 7 0 0 0 0 ∧ ok .storec 0xFF000000 7 0 0 0 0 ∧
    ok .post 0xFF000000 0x50E03 0 8 0 9 ∧ ok .act 0xFF300000 7 0 0 0x3F800000 0 ∧ ok .calli 0xFF000000 0 1 8 0 0 ∧
    ok .brc 0xFF000000 0 1 0xFFFFFFFF 0 0 ∧ ok .skipz 0xFF000000 0 1 0 0 0 ∧ ok .link 0xFF000000 0 0 0xFFFFFFFF 0 0 ∧
    ok .exit 0xFF000000 0 0 0 0 0 ∧
    (train { under 1 with block := some (.post post, []) }).ctx.wd.block = some (.post post, []) ∧
    (s.trainKeys (s.ctx.wd.blk + 32) 0).toOption = some [] ∧ crc32c (⟨0xFF000000, 0, 0, 0, 0, 0, 0, 0⟩ : BlkHdr).bytes ≠ 0 ∧
    fieldsOk (.exit ⟨0xFF000000, 0, 0, 0, 0, 0, 0, 0⟩) = true ∧ fieldsOk (.exit ⟨0xFF000000, 1, 0, 0, 0, 0, 0, 0⟩) = false := by
  decide +kernel

/-- Block rows and columns 0; the condition word 0 and not 0. -/
theorem meets_TrainBlocks :
    let s := train (under 1)
    (s.dataRange .r (s.ctx.wd.base + ofN (0 * 0x1080)) 128 528).toOption = some (keys 0 528) ∧
    (s.dataRange .w (s.ctx.wd.out + ofN (0 * 4096)) 64 512).toOption = some (keys 0x2000 512) ∧
    readyFor s (.loada (blk 0xFF000000 8 1 0 0 0 0)) (blk 0xFF000000 8 1 0 0 0 0) (keys 0 528) = true ∧
    s.powered (keys 0x2000 512) = true ∧
    readyFor s (.calli (blk 0xFF000000 0 1 8 0 0 0)) (blk 0xFF000000 0 1 8 0 0 0) [clm + 0x8008] = true ∧
    readyFor s (.brc (blk 0xFF000000 0 1 0xFFFFFFFF 0 0 0)) (blk 0xFF000000 0 1 0xFFFFFFFF 0 0 0) (byteKeys (clm + 0x4000) 4) = true ∧
    readyFor s (.skipz (blk 0xFF000000 0 1 0 0 0 0)) (blk 0xFF000000 0 1 0 0 0 0)
      (byteKeys (clm + 0x4000) 4 ++ (List.range 32).map (0x40020 + ·)) = true ∧
    (train { under 1 with block := some (.post (blk 0 0 0 0 0 0 0), []) }).mayReadNow [clm + 0x8008] = true ∧
    (s.wordKey (s.x 3 + ofN 8) 8).toOption = some (clm + 0x8008) ∧ pcOk (Mem.word s.mem (clm + 0x8008)) = true ∧
    (s.wordKey s.ctx.wd.cond 4).toOption = some (clm + 0x4000) ∧
    Mem.bytes s.mem (clm + 0x4000) 4 = [0, 0, 0, 0] ∧ leNat (Mem.bytes (poke 0x4000 [1]).mem (clm + 0x4000) 4) ≠ 0 ∧
    (s.trainKeys (0x40000 + ofI ((1 : BitVec 32).toInt * 32)) 32).toOption = some ((List.range 32).map (0x40020 + ·)) ∧
    (s.tshape 7).wid = 3 ∧ s.ctx.wd.posts = 0 ∧ s.core.out0 = [] ∧ s.core.resv0 = [] ∧ s.core.tileq = [] := by
  decide +kernel

/-- The fault of a check, if it fails. -/
def faultOf {α : Type} : BChk α → Option BlkFault
  | .ok _ => none
  | .error f => some f

/-- Blocks that fail: a payload, a train word and a skipped block on no page, a misaligned GOT word, data range and condition word, a
PC no context can start at, a tile of another width; POST with send slots short; a payload in a region that sleeps. -/
theorem meets_TrainBlocks_fails :
    let s := train (under 1)
    let wd (f : Train → Train) : State := train (f (under 1))
    let deep := State.setCluster { wd (fun w => { w with blk := 0x60000 }) with
      tlb := [(.die 0, .page 1 0x60000 13 0x40000020000 ⟨true, false, false, false, true, 0⟩)] } 0
      (Cluster.reset.setRegion 1 ⟨false, false, 0, [], true⟩)
    (faultOf (s.trainKeys (0x50000 + 32) 8)).isSome = true ∧
    (deep.trainKeys (deep.ctx.wd.blk + 32) 8).toOption.map deep.mayReadNow = some false ∧
    faultOf (s.trainKeys (0x40000 + ofI ((1000 : BitVec 32).toInt * 32)) 32) ≠ none ∧ (1000 : BitVec 32) ≠ 0 ∧
    faultOf (s.wordKey (s.x 3 + ofN 4) 8) = some ⟨9, va 0x8004⟩ ∧
    faultOf ((wd fun w => { w with base := va 8 }).dataRange .r (va 8 + ofN (0 * 0x1080)) 128 528) = some ⟨9, va 8⟩ ∧
    faultOf ((wd fun w => { w with out := va 8 }).dataRange .w (va 8 + ofN (0 * 4096)) 64 512) = some ⟨9, va 8⟩ ∧
    faultOf ((wd fun w => { w with cond := va 2 }).wordKey (va 2) 4) = some ⟨9, va 2⟩ ∧
    faultOf ((wd fun w => { w with cond := va 2 }).wordKey (va 2 + ofN (4 * 0)) 4) = some ⟨9, va 2⟩ ∧
    pcOk 2 = false ∧ ((s.setTshape 7 ⟨63, 31, 2⟩).tshape 7).wid ≠ 3 ∧
    (let t := { s with core := { s.core with resv0 := List.replicate 20 1 } }
     t.ctx.wd.posts + t.core.freeSlots false < 16) := by decide +kernel

/-- What a train finds at its block: no page, a region that sleeps, bytes that are no block, the first opcodes that are none, an EXIT. -/
theorem meets_TrainBlocks_first :
    let s := train (under 1)
    let ks := (List.range 32).map (0x40000 + ·)
    let at' (n : Nat) : Byte × Nat :=
      let h := ks.map (Mem.get (Mem.setAll base.mem (cellsOf 0x40000 2 n)))
      (h.getD 0 0, (h.getD 1 0).toNat)
    let deep := State.setCluster { train { under 1 with blk := 0x60000 } with
      tlb := [(.die 0, .page 1 0x60000 13 0x40000020000 ⟨true, false, false, false, true, 0⟩)] } 0
      (Cluster.reset.setRegion 1 ⟨false, false, 0, [], true⟩)
    s.trainRuns = true ∧ s.ctx.wd.block = none ∧ (s.trainKeys s.ctx.wd.blk 32).toOption = some ks ∧ s.mayReadNow ks = true ∧
    faultOf ((train { under 1 with blk := 0x50000 }).trainKeys 0x50000 32) = some ⟨1, 0x50000⟩ ∧
    (deep.trainKeys deep.ctx.wd.blk 32).toOption.map deep.mayReadNow = some false ∧
    at' 0 = (0, 0) ∧ at' 0xB7 = (0xB7, 0) ∧ at' 0x0EB7 = (0xB7, 14) ∧ at' 0x0DB7 = (0xB7, 13) := by decide +kernel

theorem meets_TrainBlocksTable :
    let p : List Byte := [1, 0, 0, 0, 0, 0, 0, 0]
    let h := blk 0x00000000 0 0 0 8 0 0 p
    let s := { train (under 1) with mem := Mem.setAll base.mem [(0x40020, 1)] }
    let busy := s.setCluster 0 { Cluster.reset with reqs := [⟨8, 1, 0⟩] }
    started s (.table h) h = some p ∧ (tableOf p).isSome = true ∧ s.tableBusy h.slot.toNat = false ∧
    started busy (.table h) h = some p ∧ busy.tableBusy h.slot.toNat = true := by decide +kernel

/-- A payload that is no table, and one that its empty table does not decode; the decode engine serves the block. -/
theorem meets_TrainBlocks_undecoded :
    let s := train (under 1)
    let h := blk 0 0 0 0 8 0 0 (List.replicate 8 0)
    let m := blk 0x00030000 0x88 0 0 0x1000001 0 0 [0]
    started s (.table h) h = some (List.replicate 8 0) ∧ tableOf (List.replicate 8 0) = none ∧
    started s (.mma m) m = some [0] ∧ m.slot = 0 ∧ s.decodes = true ∧ s.mmaPayload m [0] = none := by decide +kernel

/-- A payload of zeros: the one plane of a P2 MMA block, uncoded. -/
def mmaAt : State := (train (under 1)).setTshape 1 ⟨63, 31, 2⟩
def mmaKeys : List Nat := (List.range 2048).map (0x40020 + ·)
def mmaBlk : BlkHdr := blk 0xFF030000 0x88 0 0 0x1000800 0 0 (bytesOf mmaAt mmaKeys)

set_option maxRecDepth 100000 in
theorem mma_keys : mmaAt.trainKeys 0x40020 2048 = .ok mmaKeys := by decide +kernel

/-- A block made with its CRC has it. -/
theorem blk_crc (w0 w1 w2 w3 w4 w5 w6 : BitVec 32) (p : List Byte) :
    crc32c ((blk w0 w1 w2 w3 w4 w5 w6 p).bytes ++ p) = (blk w0 w1 w2 w3 w4 w5 w6 p).w7 := rfl

theorem mma_payload : crc32c (mmaBlk.bytes ++ bytesOf mmaAt mmaKeys) = mmaBlk.w7 := blk_crc ..

theorem meets_TrainBlocksMma :
    mmaAt.mmaPayload mmaBlk (bytesOf mmaAt mmaKeys) = some (bytesOf mmaAt mmaKeys) ∧ mmaAt.ctx.wd.block = none ∧
    fieldsOk (.mma mmaBlk) = true ∧ mmaAt.powered mmaKeys = true ∧ mmaAt.ctx.wd.blk + 32 = 0x40020 ∧ mmaBlk.plen = 2048 ∧
    (mmaAt.tshape mmaBlk.at').wid = (mmaWids (blkFmt mmaBlk)).1 ∧ (mmaAt.tshape mmaBlk.ct).wid = (mmaWids (blkFmt mmaBlk)).2 := by
  constructor
  · rfl
  · decide +kernel

/-- The same block with tile AT of another width. -/
theorem meets_TrainBlocksMma_shape :
    ((train (under 1)).setTshape 1 ⟨31, 31, 3⟩ |>.tshape mmaBlk.at').wid ≠ (mmaWids (blkFmt mmaBlk)).1 := by decide +kernel

/-! ## Traps, events, system instructions and CSRs -/

/-- A handler at 0x9000; without one; on the station master; in the aborted handler of a message; in S mode. -/
def hooked (s : State := base) : State := { s with core := { s.core with tvec := 0x9000 } }
def inS (f : Ctx → Ctx) : State := ctx (fun c => f { c with prv := 1, epc := 0x2000 }) hooked
def master : State := { base with cur := 2898 * 8 }

theorem meets_SyscallTraps :
    (hooked).ctx.rep.issuing = false ∧ Handled (hooked) ∧ (hooked).ctx.wd.wdm = false ∧ (hooked).ctx.abt = false ∧
    (hooked).ctx.pc.toNat % 4 = 0 ∧ isMaster (hooked (handling)).k = false ∧ (hooked (handling)).ctx.hnd = true ∧
    32 ≤ (hooked (handling)).core.tvec.toNat := by
  repeat' apply And.intro
  all_goals decide +kernel

theorem meets_Exceptions :
    Handled hooked ∧ (ctx (fun c => { c with rep := { c.rep with act := true } }) hooked).ctx.rep.act = true ∧ isMaster master.k = true ∧
    base.core.tvec.toNat < 32 ∧ base.partOf base.k = some (0, part0) ∧ base.ctx.prv ≠ 1 ∧ (inS id).ctx.prv = 1 ∧
    ¬((inS id).ctx.abt = true ∧ (inS id).ctx.pprv = 0) ∧ (inS id).ctx.epc.toNat % 4 = 0 ∧
    (inS fun c => { c with epc := 2 }).ctx.epc.toNat % 4 ≠ 0 ∧ ¬((inS id).ctx.wd.wdm = true ∧ (inS id).ctx.wd.state = 2) ∧
    (under 2).wdm = true ∧ (under 2).state = 2 ∧ (under 2).blk ≠ 0 ∧ { under 2 with blk := 0 }.blk = 0 ∧
    (inS fun c => { c with abt := true }).ctx.pprv = 0 ∧ MayEnd (inS fun c => { c with abt := true }) ∧
    (inS fun c => { c with abt := true }).ctx.hnd = false ∧
    (inS fun c => { c with abt := true, pend := [⟨0, loadOp, [], false⟩] }).ctx.ldc ≠ 0 := by
  repeat' apply And.intro
  all_goals decide +kernel

/-- What fetch meets at PC 0: the first granules of a block, or those of its end. -/
def fetching (pc : Word) (n w : Nat) : State :=
  let s := State.withFetchWord .reset n w
  { s with ctx := { s.ctx with pc := pc }, core := { s.core with tvec := 0x9000 } }

/-- No page; a pad granule at the start of a block and not there; the length code 00; an instruction across the end of its block; the
granule of all ones; a major opcode that is none; a cycle in which one context acts, to take its trap. -/
theorem meets_FetchFails :
    let at' (s : State) : Option Nat := (s.site .x s.ctx.pc).toOption.bind fun e => match e with | .key k _ _ => some k | _ => none
    let g (pc : Word) (w : Nat) : BitVec 32 := (fetching pc 64 w).granule (0x10000 + pc.toNat)
    (hooked.site .x hooked.ctx.pc).toOption = none ∧ at' (fetching 0 64 0) = some 0x10000 ∧ at' (fetching 0x1C 64 0) = some 0x1001C ∧
    (fetching 0 64 0).powered [0x10000] = true ∧ g 0 0 = 0 ∧ g 0x1C 0 = 0 ∧ g 0 4 = 4 ∧ lenGranules (g 0 3) = 4 ∧
    (0x1C : Word).toNat % 32 + 4 * lenGranules (3 : BitVec 32) > 32 ∧ g 0 0xFFFFFFFF = 0xFFFFFFFF ∧
    (0 : Word).toNat % 32 + 4 * lenGranules (g 0 0x1D) ≤ 32 ∧
    (decode ((fetching 0 64 0x1D).granules 0x10000 (lenGranules (g 0 0x1D)))).toOption = none ∧
    (let s := hooked
     let q := (s.beginTurn s.k).raiseTimers.settleReplays
     s.agenda = [] ∧ (s.parts.all fun e => !s.overdue e.2 && !s.mustStop e.2) = true ∧ s.core.aside < 16 ∧
     (s.beginTurn s.k).raiseTimers.checks = [] ∧ q.freeList false = [q.cur] ∧ (q.takesEvents && q.hasEvent q.cur) = false ∧
     q.ctx.wait = .none ∧ q.ctx.wd.wdm = false ∧ q.ctx.rep.act = false ∧ Handled q ∧
     (match q.fetchAt q.ctx.pc with | .trap t => some t.code | _ => none) = some 3) := by
  intros
  repeat' apply And.intro
  all_goals decide +kernel

/-- An event due at the time of the timer and one tick before it; an instruction page with a pad granule, and without. -/
theorem meets_SystemInstructions :
    (handling).ctx.hnd = true ∧ base.hasEvent base.cur = false ∧ base.timeUp base.cur = false ∧
    (ctx fun c => { c with tcmp := 0 }).timeUp 0 = true ∧
    (ctx fun c => { c with tcmp := 1 }).timeUp 0 = false ∧
    (bodied 2).ctx.rep.act = true ∧ (bodied 2).ctx.rep.held = false ∧ base.ctx.rep.act = false ∧ base.ctx.prv = 0 ∧
    (inS id).ctx.prv ≠ 0 ∧ (ctx fun c => { c with wait := .tlbi 1 0 0 }).ctx.wait = .tlbi 1 0 0 ∧
    ready.ctx.fetches = true ∧ (ctx fun c => { c with wait := .wfi }).ctx.fetches = false ∧
    (ready.site .x ready.ctx.pc).toOption = some (.key 0x10000 0 false) ∧ find ready.core.l1i (0x10000 / 4) = none ∧ ready.granule 0x10000 ≠ 0 ∧
    ready.powered [0x10000] = true ∧
    (let s : State := { ready with ctx := { ready.ctx with pc := 0x1C } }
     s.ctx.fetches = true ∧ (s.site .x s.ctx.pc).toOption = some (.key 0x1001C 0 false) ∧ s.granule 0x1001C = 0 ∧ s.ctx.pc.toNat % 32 ≠ 0) ∧
    (let s : State := { ready.setCluster 0 (Cluster.reset.setRegion 0 ⟨false, false, 0, [], true⟩) with
       tlb := [(.die 0, .page 0 0 12 clm ⟨true, true, false, true, false, 0⟩)] }
     s.ctx.fetches = true ∧ (s.site .x s.ctx.pc).toOption = some (.key clm 0 false) ∧ s.powered [clm] = false) := by decide +kernel

/-- Each kind of event, and none; bit 7 of DEBUG alone. -/
theorem meets_Events :
    (hooked).takesEvents = true ∧ Handled hooked ∧ (inS id).takesEvents = true ∧ (inS fun c => { c with ie := false }).takesEvents = false ∧
    (base.getCtx 0).phase = .active ∧ ((ctx fun c => { c with tcmp := 0 }).getCtx 0).tcmp.toNat ≤ (base.timeOf 0).toNat ∧
    (base.timeOf 0).toNat < (base.getCtx 0).tcmp.toNat ∧ (hooked).hasEvent (hooked).cur = false ∧
    (let d : BitVec 8 := 128; d.getLsbD 7 = true ∧ ∀ j < 7, d.getLsbD j = false) ∧
    (let s : State := { hooked with core := { (hooked).core with ecc := [5] } }
     s.eccTarget s.k = some s.cur ∧ s.core.ecc = 5 :: [] ∧ s.ctx.debug = 0 ∧ s.ctx.eng = [] ∧ s.ctx.ipi = none ∧
     s.ctx.timer = false ∧ s.takesEvents = true) := by
  repeat' apply And.intro
  all_goals decide +kernel

/-- A register that is none, one that only S mode reads, one that none writes, SCRATCH in S mode, a tile shape. -/
theorem meets_CsrAccesses :
    csrAccess 0 0xFFF = none ∧ csrAccess 0 0x408 = some (1, some 1) ∧ (csrAccess 0 1).map (·.2) = some none ∧ base.ctx.prv.toNat < 1 ∧
    (1 : BitVec 2).toNat ≤ (inS id).ctx.prv.toNat ∧ isTshape 0x408 = false ∧ isTshape 0x17 = true ∧ (claimed).tclm = true ∧
    isCompute base.k = true ∧ base.tclm = false ∧ isCompute dataCore.k = false ∧ csrAccess 64 0x17 = some (0, some 0) ∧
    (csrPut 0x408 5 true (refuseOf (.csrw 1 0x408 2)) (inS id)).isOk = true ∧
    (csrPut 0x408 5 false (refuseOf (.csrs 1 0x408 2)) (inS id)).isOk = true := by decide +kernel

/-- A context of a mesh core, of gateway core 13 and of the station master; each reserved value and the last that is none; a DRPTH that
nobody has written. -/
theorem meets_SpecialRegisters :
    let bits (v : Word) (lo w : Nat) : Nat := v.toNat / 2 ^ lo % 2 ^ w
    base.ctx.ldc < 256 ∧ base.core.tileq.length < 256 ∧ (claimed [.zero 7]).core.claim = some (claimed [.zero 7]).c ∧ base.core.claim = none ∧
    base.cur = ((0 * 80 + 0 * 20 + 0) * 9 + 0) * 8 + 0 ∧ (2879 * 8 + 7 : Nat) = ((3 * 80 + 3 * 20 + 19) * 9 + 8) * 8 + 7 ∧
    (2897 * 8 + 7 : Nat) = (2880 + 14 + 3) * 8 + 7 ∧ isMaster master.k = true ∧ isMaster base.k = false ∧
    bits 0x20 4 2 = 2 ∧ bits 0x30 4 2 = 3 ∧ bits 0x10 4 2 = 1 ∧ bits 0x80 5 3 = 4 ∧ bits 0x60 5 3 = 3 ∧ bits 17 0 8 = 17 ∧
    bits 16 0 8 = 16 ∧ bits 0x20 0 5 = 0 ∧ bits 0x1F 0 5 = 31 ∧ (base.island (islandOf base.k)).stepBy = none := by decide +kernel

/-- Both ends of each range that a write is refused outside of. -/
theorem meets_CsrWriteSteps :
    (8 : Word).toNat % 8 = 0 ∧ (7 : Word).toNat % 8 ≠ 0 ∧ 4 < ((5 : Word).extractLsb' 0 3).toNat ∧ ((4 : Word).extractLsb' 0 3).toNat ≤ 4 ∧
    ((0xF0004 : Word).extractLsb' 16 7).toNat = 15 ∧ (15 + 1) * tileBytes 4 ≤ 128 ∧ 128 < (16 + 1) * tileBytes 4 ∧
    (base.island (islandOf base.k)).fell = 0 ∧
    ((base.setIsland 0 { base.island 0 with fell := 1 }).island (islandOf base.k)).fell = 1 ∧
    ((base.setIsland 0 { base.island 0 with fell := 2 }).island (islandOf base.k)).fell = 2 ∧
    (base.island (islandOf base.k)).stBy = none ∧
    (let s := base.setIsland 0 { base.island 0 with stBy := some 5 }
     (s.island 0).stBy = some 5 ∧ s.k < 5 ∧ (5 : Nat) ≤ ({ s with cur := 40 } : State).k) ∧
    (base.stream 0).active = false ∧ ((streaming (stm false)).stream 1).active = true ∧ (bodied 2).ctx.rep.act = true ∧
    (bodied 2).ctx.rep.len.toNat ≤ ((0x200000000 : Word).extractLsb' 32 4).toNat ∧
    ((0x100000000 : Word).extractLsb' 32 4).toNat < (bodied 2).ctx.rep.len.toNat ∧
    8 < ((0x90000000 : Word).extractLsb' 28 4).toNat ∧ ((0x80000000 : Word).extractLsb' 28 4).toNat ≤ 8 ∧
    5 < ((0xC00 : Word).extractLsb' 9 3).toNat ∧ ((0xA00 : Word).extractLsb' 9 3).toNat ≤ 5 ∧
    csrAccess 0 0x408 = some (1, some 1) ∧ (csrPut 0x408 5 true (inS id).refuse (inS id)).isOk = true := by decide +kernel

/-! ## Partitions, the host, the mailbox, the device -/

/-- A page for the signal box and the station master: DEP at 0x300000, DONE at 0x300008, one shape of 33 × 17 at 0x300010. -/
def boxed (t : TileRec) : State :=
  (State.setTileq { base with
    tlb := [(.die 0, .page 1 0x300000 12 0x300000 ⟨true, true, true, false, false, 0⟩)]
    mem := Mem.setAll base.mem (cellsOf 0x300010 4 33 ++ cellsOf 0x300014 4 17) } 63 [t])
def tileRec (dep : Word) (ready : Bool) : TileRec :=
  ⟨[0x4000, 0x100010, 0x300010, 1, 0, 0, 0, 0, 0, 0, dep, 0, 0x300008, 0, 1, 0], 0x1000, 0, if ready then some [(33, 17)] else none, 0, 0, 0⟩

/-- Queue 63 of quadrant 0: no DEP, a DEP that is met, a DEP that cannot be read; a record that is read; a delivered tile; aging at
63 and 64 cycles. -/
theorem meets_SignalBox :
    let s := boxed (tileRec 0 false)
    let head (t : TileRec) : Bool := (boxed t).tileq 63 == [t] && t.ready.isNone && t.g == 0
    s.quadPart 0 = some (0, part0) ∧ part0.idle = false ∧ part0.stopping = false ∧ part0.asid ∉ s.dev.dstops ∧
    head (tileRec 0 false) = true ∧ head (tileRec 0x300000 false) = true ∧ s.boxKey part0 0 .r 0 0x300000 = some 0x300000 ∧
    Mem.word s.mem 0x300000 = 0 ∧ s.boxKey part0 0 .r 0 0x301000 = none ∧ s.shapeKeys part0 0 0 0x300010 1 = some [0x300010] ∧
    s.boxKey part0 0 .rw 0 0x300008 = some 0x300008 ∧ s.powered [0x300008, 0x300010] = true ∧
    (tileRec 0x300000 false).words.getD 11 0 ≠ 5 ∧ s.shapeKeys part0 0 0 0x301010 1 = none ∧ s.boxKey part0 0 .rw 0 0x301008 = none ∧
    (let a : TileAct := ⟨8, 0x4000, 0, 0, 0, 0x1000, 0, 0, 63⟩
     let s : State := { base with cores := [(1, { Core.reset with tileActs := [a] })], ctxs := [(8, { Ctx.reset with phase := .waiting })] }
     s.running 1 = true ∧ s.vn1Ready 1 = none ∧ s.vn0Ready 1 = none ∧ (s.getCore 1).tileActs = a :: [] ∧ a.ctx / 8 = 1 ∧ s.withinLimits 1 = true ∧
     (({ base with
        cores := [(1, { Core.reset with hres := 7, tileActs := [a] })]
        ctxs := [(8, { Ctx.reset with phase := .waiting }), (9, { Ctx.reset with phase := .active })] } : State).withinLimits 1) = false) ∧
    64 ≤ ((ctx fun c => { c with aging := 64 }).getCtx 0).aging ∧ ((ctx fun c => { c with aging := 63 }).getCtx 0).aging < 64 := by
  intros
  repeat' apply And.intro
  all_goals decide +kernel

/-- Queues 63 and 5 with records of one PRIO, and queue 2 with one below it: queue 5 gives its next tile to core 1, which holds nothing,
while context 0 of core 0 is active. Of a record of two shapes, 33 × 17 and none, in tiles of 16 × 16: tiles of the same row, of the next
and the last are up. -/
theorem meets_SignalBox_dispatch :
    let t : TileRec := { tileRec 0 true with ready := some [(33, 17), (0, 5)] }
    let low : TileRec := { t with words := t.words.set 13 0 }
    let high : TileRec := { t with words := t.words.set 13 1 }
    let s : State := ((boxed high).setTileq 5 [high]).setTileq 2 [low]
    let held (k : Nat) : Nat := ((List.range 8).filter fun c => (s.getCtx (8 * k + c)).phase != .dormant).length
    let may (k : Nat) : Bool := s.running k && s.hasRoom k
    let up (a b : Nat) : Nat := (a + b - 1) / b
    s.tileq 5 = high :: [] ∧ s.tileq 63 = high :: [] ∧ s.tileq 2 = low :: [] ∧ (high.words.getD 14 0) = 1 ∧
    (high.words.getD 13 0).toNat % 128 = 1 ∧ (low.words.getD 13 0).toNat % 128 = 0 ∧
    ([3, 4] ++ List.range 3 ++ (List.range 57).map (· + 6)).all (fun q => s.tileq q = [] || q == 2) = true ∧ may 1 = true ∧ held 0 = 1 ∧
    (∀ j < 8, held 1 ≤ held j) ∧ s.dormant 1 = some 8 ∧ t.ready = some [(33, 17), (0, 5)] ∧
    (t.n + 1 < up 17 16) ∧ (up 17 16 ≤ { t with n := 1 }.n + 1 ∧ t.m + 1 < up 33 16) ∧ up 33 16 ≤ { t with m := 2 }.m + 1 ∧
    up 0 16 * up 5 16 = 0 := by
  intros
  repeat' apply And.intro
  all_goals decide +kernel

/-- Another job with an open queue; a slice that has ended and one that has not; a stopped partition, an idle one, one late for a
switch, and one tick before that; a remote access. -/
def queue : HostQueue := ⟨1, 1, 5, 4, 4, 1, 0, [], []⟩
def job2 : Job := ⟨2, 0x20000, [], [], [], [], [], [], [], none, 1087, none, 1, 0⟩
def hosted (h : HostQueue := queue) (asid : BitVec 16 := 2) : State :=
  { base with
    mem := Mem.setAll base.mem [(0x20020, 2)]
    dev := { base.dev with mode := 1 }
    vfs := [(1, { Vf.reset with bound := true, asid := asid, qhaddr := [(1, 0x100)], window := 0x40000000 })]
    hqueues := [h], jobs := [job2] }

/-- A record whose DEP lies on device 1 of two. -/
def far : State := { boxed (tileRec 0x300000 false) with
  dev := { base.dev with domsize := 2 }
  tlb := [(.die 0, .page 1 0x300000 12 (2 ^ 43 + 0x300000) ⟨true, true, true, false, false, 0⟩)] }

theorem meets_Partitions :
    let s := hosted
    s.part 0 = some part0 ∧ part0.idle = false ∧ part0.switch = none ∧ part0.slice ≤ s.time.toNat ∧ s.job 2 = some job2 ∧
    s.runnable job2 = true ∧ s.placed 2 = false ∧ s.promised 0 2 = false ∧
    ({ s with parts := s.parts ++ [(1, { part0 with quads := [1], gws := [1], switch := some (20000, 2) })] } : State).promised 0 2 = true ∧
    job2.fits part0 = true ∧ s.crowded = true ∧ part0.stopping = false ∧
    (s.jobs.all fun x => !(s.runnable x && !s.placed x.asid && !s.promised 0 x.asid && x.fits part0) || s.beats part0 2 x.asid) = true ∧
    s.time.toNat < { part0 with slice := 1 }.slice ∧ s.mustStop part0 = false ∧ s.overdue part0 = false ∧
    part0.holds 0 = true ∧ (pends [⟨0, .store .core [cellsOf 0 1 0], [(.core, 0x1000000)], false⟩]).remoteWork 0 = true ∧
    (pends [⟨0, .store .core [cellsOf 0 1 0], [(.core, 0xFFFFFF)], false⟩]).remoteWork 0 = false ∧ s.remoteWork 0 = false ∧ s.boxRemote part0 0 = false ∧
    far.boxRemote part0 0 = true ∧ far.remoteWork 0 = false := by
  intros
  repeat' apply And.intro
  all_goals decide +kernel

/-- Partition 0 late for its switch, and one tick before that. -/
theorem meets_Partitions_late :
    let p := { part0 with switch := some (0, 2) }
    let s (n : Word) : State := { hosted with time := n, parts := [(0, p)] }
    (s 1000000).part 0 = some p ∧ (s 1000000).overdue p = true ∧ (s 999999).overdue p = false ∧ p.idle = false ∧
    (0 : Word).toNat + 1000000 ≤ ((s 1000000).time).toNat ∧ ((s 999999).time).toNat < (0 : Word).toNat + 1000000 := by decide +kernel

/-- A stopped partition whose context is at rest, and one with an outstanding load. -/
def stopped (c : Ctx) : State := { base with parts := [(0, { part0 with stopping := true })], ctx := c }

theorem meets_Partitions_stopped :
    let p := { part0 with stopping := true }
    let s := stopped { Ctx.reset with phase := .active }
    let v := s.stopCtxs p
    s.overdue p = false ∧ s.mustStop p = false ∧ v.part 0 = some p ∧ v.partQuiet p = true ∧ v.saveOk 0x1000000 p = true ∧
    (v.getCtx 0).phase = .active := by decide +kernel

/-- The same with a record in queue 3 of the signal box, and a context that holds region 5. -/
theorem meets_Partitions_held :
    let p := { part0 with stopping := true }
    let c : Cluster := Cluster.reset.setRegion 5 { Region.reset with managed := true, tag := 1, holders := [.ctx 0] }
    let s := (stopped { Ctx.reset with phase := .active, region := some 5 }).setTileq 3 [tileRec 0 false] |>.setCluster 0 c
    let v := s.stopCtxs p
    v.part 0 = some p ∧ v.partQuiet p = true ∧ v.saveOk 0x1000000 p = true ∧ v.tileq (0 * 64 + 3) ≠ [] ∧
    (v.getCtx 0).phase = .active ∧ (v.getCtx 0).region = some 5 ∧ .ctx 0 ∈ ((v.cluster (clusterOf 0)).region 5).holders := by decide +kernel

theorem meets_Partitions_busy :
    let p := { part0 with stopping := true }
    ((stopped { Ctx.reset with phase := .active, pend := [⟨0, loadOp, [], false⟩] }).stopCtxs p).partQuiet p = false := by decide +kernel

/-- An idle partition, a job with a context saved on a core of it, and one on a core it has not. -/
theorem meets_Partitions_resumed :
    let p := { part0 with idle := true }
    let j (r : Nat) : Job := { job2 with
      tiles := [⟨0, 3, [tileRec 0 false]⟩, ⟨0, 5, []⟩], saved := [⟨r, 0x100000, none, { Ctx.reset with phase := .active }⟩] }
    let s : State := { base with parts := [(0, p)], jobs := [j 0] }
    s.part 0 = some p ∧ p.switch = none ∧ s.placed 2 = false ∧ s.promised 0 2 = false ∧ s.job 2 = some (j 0) ∧ (j 0).fits p = true ∧ (j 20000).fits p = false ∧
    ((j 0).saved.map (·.ref)).Nodup ∧
    ((j 0).tiles.map fun t => t.quad * 64 + t.queue).Nodup := by decide +kernel

/-- A record of a queue at host address 0x1000, slot 1 of 2. -/
def posted (ws : List Word) : State :=
  { hosted with hostMem := Mem.setAll [] (wordCells 0x1040 ws ++ cellsOf 0x100 8 0x1000 ++ cellsOf 0x108 8 1) }
def cmd (opc : Word) (ws : List Word) : HostCmd :=
  ⟨5, opc.extractLsb' 0 8, true, false, (5 + opc * 0x100000000 + 0x20000000000) :: (ws ++ List.replicate (7 - ws.length) 0)⟩

/-- The commands NOP, WRITE64, WAITVAL and BARRIER; addresses aligned, misaligned and unmapped. -/
theorem meets_HostQueues :
    Caught queue ∧ (posted (cmd 0 []).words).queue 1 1 = some queue ∧ (posted (cmd 0 []).words).vfUp 1 = true ∧
    (posted (cmd 0 []).words).header 1 1 ≠ 0 ∧ queue.state = 1 ∧ queue.q < 64 ∧
    Next1 (posted (cmd 0 []).words) queue (cmd 0 []) ∧ Next1 (posted (cmd 4 []).words) queue (cmd 4 []) ∧
    (let s : State := { posted (cmd 2 [0x300008, 7]).words with tlb := [(.die 0, .page 2 0x300000 12 0x300000 ⟨true, true, true, false, false, 0⟩)] }
     Next1 s queue (cmd 2 [0x300008, 7]) ∧ s.hostKey (s.jobSpace 1) .w 0x300008 = some 0x300008 ∧ s.powered [0x300008] = true ∧
     s.hostKey (s.jobSpace 1) .w 0x400000 = none ∧ s.hostKey (s.jobSpace 1) .r 0x300008 = some 0x300008) := by
  repeat' apply And.intro
  all_goals decide +kernel

/-- A WRITE64 to a misaligned address and an opcode that is none; doorbells of a queue that is active, of one that is stopped and
whose STATE the host has or has not written, of one without a header, and of a function that is not bound; the word of a WAITVAL at
the value that it waits for, and one below it. -/
theorem meets_HostQueues_stops :
    Next1 (posted (cmd 2 [4]).words) queue (cmd 2 [4]) ∧ ((cmd 2 [4]).words.getD 1 0).toNat % 8 ≠ 0 ∧
    Next1 (posted (cmd 5 []).words) queue (cmd 5 []) ∧ 5 ≤ (cmd 5 []).opc.toNat := by
  repeat' apply And.intro
  all_goals decide +kernel

/-- A record whose SEQ is not the next, and ones with a bit above FLAGS set. -/
theorem meets_HostQueues_records :
    let w0 (s : State) : Word := (s.recordOf 1 1 5).getD 0 0
    let head (s : State) : Bool := s.queue 1 1 == some queue && s.vfUp 1 && s.first queue
    let high (o : Word) : Bool :=
      let s := posted [5 + o * 0x100000000 + 0x40000000000]
      head s && (w0 s).extractLsb' 0 32 == queue.cons + 1 && (w0 s).getLsbD 42 && (w0 s).extractLsb' 32 8 == BitVec.ofNat 8 o.toNat
    queue.open = true ∧ head (posted [4]) = true ∧ ((w0 (posted [4])).extractLsb' 0 32 == queue.cons + 1) = false ∧
    high 0 = true ∧ high 1 = true ∧ high 2 = true ∧ high 3 = true ∧ high 4 = true := by
  intros
  repeat' apply And.intro
  all_goals decide +kernel

theorem meets_HostQueues_doorbell :
    let s := posted (cmd 0 []).words
    let t : State := { s with hqueues := [{ queue with state := 2 }] }
    let rung (u : State) : BitVec 8 := (u.headerWord 1 1 0x28).extractLsb' 0 8
    let w : State := { t with hostMem := Mem.setAll t.hostMem (cellsOf 0x128 8 1) }
    s.vfUp 1 = true ∧ s.header 1 1 ≠ 0 ∧ (s.queueOr 1 1).state = 1 ∧ Memory.wf s.hostMem = true ∧ (t.queueOr 1 1).state = 2 ∧
    rung t ≠ 1 ∧ rung w = 1 ∧ (w.queueOr 1 1).state = 2 ∧ s.header 1 2 = 0 ∧ s.vfUp 2 = false := by decide +kernel

theorem meets_HostQueues_waits :
    let c := cmd 3 [0x300008, 7]
    let h := { queue with cons := 5, cmds := [c] }
    let s (v : Nat) : State := { posted c.words with
      tlb := [(.die 0, .page 2 0x300000 12 0x300000 ⟨true, true, true, false, false, 0⟩)], hqueues := [h]
      mem := Mem.setAll hosted.mem (cellsOf 0x300008 1 v) }
    (s 7).queue h.vf h.q = some h ∧ h.done = [] ∧ c.seq = h.comp + 1 ∧ (s 7).powered [0x300008] = true ∧
    (s 7).hostKey ((s 7).jobSpace h.vf) .r (c.words.getD 1 0) = some 0x300008 ∧
    (c.words.getD 2 0).toInt ≤ (Mem.word (s 7).mem 0x300008).toInt ∧
    (Mem.word (s 6).mem 0x300008).toInt < (c.words.getD 2 0).toInt := by decide +kernel

/-- A LAUNCH of one seed of the record of zero words at 0x300000, in the job of the partition; its completion word. -/
def launch : HostCmd := cmd 1 [0x300000, 1, 0x300048, 0]
def launched : State := { posted launch.words with
  vfs := [(1, { Vf.reset with bound := true, asid := 1, qhaddr := [(1, 0x100)] })]
  tlb := [(.die 0, .page 1 0x300000 12 0x300000 ⟨true, true, true, false, false, 0⟩)] }

def jobSp (asd : Nat) : Space := ⟨asd, 1, Config.masterCore, .die⟩

/-- What each check of a LAUNCH refuses: w6, a misaligned template, no seed, an ASD outside HBM. A LAUNCH of three seeds over the cores
of quadrant 0. -/
theorem meets_HostQueuesLaunch_checks :
    let l (ws : List Word) : List Word := (cmd 1 ws).words
    let clear (ws : List Word) : Bool := (l ws).getD 6 0 == 0 && (l ws).getD 7 0 == 0
    let placed (ws : List Word) : Bool := clear ws && ((l ws).getD 1 0).toNat % 64 == 0 && ((l ws).getD 3 0).toNat % 8 == 0 &&
      ((l ws).getD 5 0).toNat % 1024 == 0
    let named (ws : List Word) : Bool := placed ws && ((l ws).getD 2 0).toNat % 2 ^ 16 != 0 &&
      decide ((((l ws).getD 2 0).extractLsb' 16 16).toNat < 2 ^ part0.quads.length)
    clear [0x300000, 1, 0x300048, 0, 0, 1] = false ∧ (clear [0x300020, 1, 0x300048] = true ∧ placed [0x300020, 1, 0x300048] = false) ∧
    (placed [0x300000, 0, 0x300048] = true ∧ named [0x300000, 0, 0x300048] = false ∧ named [0x300000, 0x20001, 0x300048] = false) ∧
    (named [0x300000, 0x10003, 0x300048] = true ∧ named [0x300000, 1, 0x300048, 0, 0x8000000000] = true) ∧
    isHbmKey (0x8000000000 : Word).toNat = false ∧ isHbmKey (0 : Word).toNat = true ∧ (seedCores part0 1).length = 160 ∧
    (seedCores part0 1).Nodup ∧ (seedCores part0 1).all launched.runsJob = true ∧
    ((seedCores part0 1).all fun k => (launched.getCore k).deque.length + 1 ≤ 64) = true ∧
    (launched.hostKeys (jobSp 0x10000) 0x400000 8 = none ∧ launched.hostKey (jobSp 0x10000) .r 0x400000 = none ∧
      taskOk [0, 0, 0, 0, 0, 0, 0x80, 0] = false) := by
  intros
  repeat' apply And.intro
  all_goals decide +kernel

theorem meets_HostQueuesLaunch :
    Next1 launched queue launch ∧ launch.opc = 1 ∧ launched.jobPart 1 = some (0, part0) ∧ (launch.words.getD 3 0).toNat % 8 = 0 ∧
    launched.hostKeys (jobSp 0x10000) 0x300000 8 = some ((List.range 8).map fun i => 0x300000 + 8 * i) ∧
    launched.powered ((List.range 8).map fun i => 0x300000 + 8 * i) = true ∧
    taskOk (((List.range 8).map fun i => 0x300000 + 8 * i).map (Mem.word launched.mem)) = true ∧
    launched.hostKey (jobSp 0x10000) .r 0x300048 = some 0x300048 ∧ (seedCores part0 0).head? = some 0 ∧ launched.runsJob 0 = true ∧
    (launched.getCore 0).deque.length < 64 ∧
    ({ launched with hqueues := [{ queue with cons := 5, cmds := [launch] }] } : State).queue 1 1 = some { queue with cons := 5, cmds := [launch] } ∧
    launch.seq = queue.comp + 1 ∧ Mem.word launched.mem 0x300048 = launch.words.getD 4 0 := by
  repeat' apply And.intro
  all_goals decide +kernel

/-- An event ring with room and a full one; the last bytes of the BAR2 window. -/
theorem meets_HostAccesses :
    let e : HostEvent := ⟨1, 1, 1, 5, 0⟩
    let s : State := { hosted with events := [e] }
    s.events = e :: [] ∧ e.vf = 1 ∧ ((s.vf 1).evprod - (s.vf 1).evcons).toNat ≠ 2 ^ (s.vf 1).log2n.toNat ∧
    ({ Vf.reset with evprod := 16 }.evprod - Vf.reset.evcons).toNat = 2 ^ Vf.reset.log2n.toNat ∧ s.vfUp 1 = true ∧
    2 ^ 36 - 1 + [(0 : Byte)].length ≤ 2 ^ 36 ∧ isHbmKey ((s.vf 1).window + (2 ^ 36 - 1) + 1 - 1) = true ∧ (s.vf 1).bound = true ∧
    (s.vf 2).bound = false ∧ s.dev.mode ≠ 2 := by decide +kernel

/-- The mailbox in mode `m`, with `w` at 0x10 of MBDATA. -/
def mailbox (m w : BitVec 8) : State := { hosted with dev := { Device.reset with mode := m, mbdata := Device.reset.mbdata.set 16 w } }

/-- A boot without a failure, and with one in BIST; the least object, of one empty table of relocations. -/
def sound : BootResult := ⟨none, [], 0, 1, [], []⟩
def object : List Byte :=
  leBytes 4 0x44524947 ++ leBytes 4 2 ++ leBytes 4 0 ++ leBytes 4 1 ++ leBytes 8 0x500000 ++ leBytes 8 0x40 ++ leBytes 8 96 ++
    List.replicate 24 0 ++ (7 :: List.replicate 31 0)
def request : LoadReq := ⟨object, 0, 0x10000, 0, 0x600000, [0x700000, 0x701000, 0x702000], [], 0, 0x9000⟩

theorem meets_MailboxAndBoot :
    (mailbox 1 1).dev.mbBusy = false ∧ (mailbox 1 1).dev.mode = 1 ∧ ((mailbox 1 1).mbWord 0x10).toNat = 1 ∧
    ((mailbox 1 16).mbWord 0x10).toNat = 16 ∧ ((mailbox 1 17).mbWord 0x10).toNat = 17 ∧ 0x40000000 % 2 ^ 30 = 0 ∧
    isHbmKey 0x40000000 = true ∧ (mailbox 1 2).job 2 = some job2 ∧ (mailbox 1 1).job 1 = none ∧ (mailbox 1 2).jobStopped 2 = true ∧
    (mailbox 2 0).dev.mode = 2 ∧ (mailbox 2 0).bootFault sound = none ∧
    (mailbox 2 0).bootFault { sound with fail := some (5, 1, 0) } = some (5, 1, 0) ∧
    base.dev.mode = 0 ∧ base.part request.part = some part0 ∧ request.status % 8 = 0 ∧ isHbmKey request.status = true ∧
    (headerCheck object).isOk = true ∧ (headerCheck (1 :: object)).isOk = false ∧
    (base.loadChecks (girad object) (base.loadSpace request) 0x500000 []).toOption = some [] ∧
    (base.loadChecks (girad object) (base.loadSpace request) 0x500001 []).toOption = none ∧
    (base.loadMem (girad object) part0 request 0x500000 [] []).isSome = true ∧
    base.loadMem (girad object) part0 { request with pa := 1 } 0x500000 [] [] = none ∧ request.asd % 1024 = 0 ∧
    inHbm request.asd 1024 = true ∧ base.asidAt request.asd = 1 ∧ base.bootFault sound = none ∧
    base.bootFault { sound with fail := some (5, 1, 0) } = some (5, 1, 0) ∧ (mailbox 1 2).dev.mbBusy = false ∧
    (let s : State := { mailbox 1 1 with dev := { (mailbox 1 1).dev with mbBusy := true, mbCmd := 1 } }
     s.dev.mbBusy = true ∧ s.dev.mbCmd = 1) := by decide +kernel

/-- DOMSIZE 1 and 320 and the values past both ends; FREQ at and past its bound; a bank error count of 16; a region that may power
down. -/
theorem meets_DeviceRegisters :
    let d := base.dev
    (1 ≤ (BitVec.ofNat 9 (320 : Word).toNat).toNat ∧ (BitVec.ofNat 9 (320 : Word).toNat).toNat ≤ 320 ∧ d.devnum.toNat < 1) ∧
    320 < (BitVec.ofNat 9 (321 : Word).toNat).toNat ∧ BitVec.ofNat 9 (0 : Word).toNat = 0 ∧ (BitVec.ofNat 9 (0 : Word).toNat).toNat < d.domsize.toNat ∧
    d.domsize.toNat ≤ (BitVec.ofNat 9 (1 : Word).toNat).toNat ∧
    (base.island 0).rdy = true ∧ 81 ≤ 600 * (450 + 5 * 60) / 5500 ∧ ¬82 ≤ 600 * (450 + 5 * 60) / 5500 ∧
    ipiCtx ((0x500000000 : Word).extractLsb' 0 16) = some 0 ∧ (base.getCtx 0).phase ≠ .dormant ∧
    16 ≤ (0x1000000000 : Word).toNat / 2 ^ 32 % 256 ∧ (0x2200000000 : Word).toNat / 2 ^ 32 % 256 ≤ 34 ∧ d.cinvGo = false ∧
    base.time ≠ d.pulse ∧ base.time = { d with pulse := 0 }.pulse ∧ base.tracing = false ∧
    (base.island 0).stretch = 0 ∧ (base.island 0).acted = [] ∧ (base.island 0).fell = 0 ∧ (base.island 0).settled.stretch = 0 ∧
    { base.island 0 with stretch := 7 }.settled.stretch ≠ 0 ∧ { base.island 0 with fell := 1 }.fell ≠ 0 ∧ base.late = [] ∧
    { base.island 0 with window := some 64 }.window = some 64 ∧ { base.island 0 with stretch := 1 }.stretch = 1 ∧
    65 ∈ { Cluster.reset with fb0 := 65 }.failed ∧ { Cluster.reset with fb0 := 65, fb1 := 3 }.failed.length = 2 ∧ (0 : Nat) ≠ 31 ∧ (base.island 0).cycle.toNat % 2 ^ 20 = 0 ∧
    16 ≤ look 0 [(65, 16)] 65 ∧ look 0 [(65, 15)] 65 < 16 ∧ (base.cluster 0).fb0 = 0x7F ∧ (base.cluster 0).fb1 = 0x7F ∧
    ((base.cluster 0).region 14).on = true ∧ ((base.cluster 0).region 14).holders = [] ∧ ((base.cluster 0).region 14).tag = 0 ∧
    (let m : Word := 1 + 1 <<< 7 + 5 <<< 28 + 1 <<< 32
     m.getLsbD 0 = true ∧ m.getLsbD 1 = false ∧ m.extractLsb' 28 4 = 5 ∧ m.extractLsb' 7 2 = 1) := by decide +kernel

/-- The ring of 64 KiB at 0x1000000, which takes records; a core's monitor of each source, whose invariant holds and does not. -/
def ringed (pos : Word) : State := { base with dev := { base.dev with trEn := true, trbase := 0x1000000, trLog := 16, trpos := pos } }
def watching (src act : Nat) (bound : Word) : Word := ofN (1 + act <<< 7 + src <<< 28) + bound <<< 32

theorem meets_ControlAndDroop :
    ipiCtx 0xFFFF = some (2898 * 8) ∧ ipiCtx 0xFFFE = none ∧ (base.getCtx 1).phase = .dormant ∧ ipiCtx ((0x100000001 : Word).extractLsb' 0 16) = some 1 ∧
    (ringed 0).tracing = true ∧ (ringed 0xFFE8).tracing = true ∧ (0xFFE8 : Word).toNat + 24 ≤ 2 ^ 16 ∧
    (base.dev.trWrap = true ∨ (0 : Word).toNat + 3000 ≤ 2 ^ 16) ∧ (ringed 0).dev.trbase.toNat + 2 ^ 16 ≤ 0x8000000000 ∧
    (ringed 0).time = { (ringed 0).dev with pulse := 0 }.pulse ∧ base.clock < (base.island 0).now + (base.island 0).period ∧
    (let cl : Cluster := { Cluster.reset with fb0 := 65, counts := [(3, 16)] }
     16 ≤ look 0 cl.counts 3 ∧ cl.fb0 ≠ 0x7F ∧ cl.fb0.toNat ≠ 3 ∧ cl.fb1 = 0x7F) ∧
    ((List.range 4).all fun a => (watching 5 a 0).getLsbD 0 && !(watching 5 a 0).getLsbD 1 && ((watching 5 a 0).extractLsb' 7 2).toNat == a) = true ∧
    ([1, 2, 3, 4, 5, 7, 8].all fun c => ((watching c 0 0).extractLsb' 28 4).toNat == c) = true ∧
    (watching 5 0 0).extractLsb' 9 3 = 0 ∧ ((watching 5 0 0).extractLsb' 32 32).toInt = ((base.getCore 0).deque.length : Int) ∧
    ((watching 5 0 1).extractLsb' 32 32).toInt ≠ ((base.getCore 0).deque.length : Int) ∧ isMesh 0 = true ∧
    base.powered (monWord 0 (watching 7 0 0)) = true ∧ base.partOf 0 = some (0, part0) ∧ part0.idle = false ∧ (0 : Nat) ∈ ctxsOf 0 ∧
    (base.getCtx 0).phase ≠ .dormant ∧ (base.getCtx 0).wd.wdm = false := by
  repeat' apply And.intro
  all_goals decide +kernel

/-! ## Worked examples of the spec -/

/-- 03 R74, 05 R119: 3.3 under the scale 0.5 as P2 is 0x4D33, which reads back as 3.2998046875; infinity, 1,024 and a NaN. -/
theorem test_planes_of_a_number :
    [0x40533333, 0x7F800000, 0x44800000, 0x7FC00000].map (fun x => ((toPk 2 x 0x3F000000).w, (toPk 2 x 0x3F000000).fl)) =
      [(0x4D33, flagNX), (0x7EFF, flagNV), (0x7EFF, flagOF ||| flagNX), (0x7F00, 0)] ∧
    (fromPk 2 0x4D33 0x3F000000).bits = 0x40533000 := by decide +kernel

/-- Lanes of 4 bytes as a v register. -/
def lanes (l : List Nat) : VWord := BitVec.ofNat 512 (leNat (l.flatMap (leBytes 4)))

/-- The state an instruction leaves. -/
def after (i : Instr) (s : State) : State := match exec i s with | .next t => t | _ => s

/-- 05 R113: vrcp.s of 3.0 is 0x3EAA_A800 with NX. -/
theorem test_vrcp :
    let t := after (.vrcp (rd 1) (rd 2) (vk .s .dyn 0)) (base.setV 2 (lanes (List.replicate 16 0x40400000)))
    t.v 1 = lanes (List.replicate 16 0x3EAAA800) ∧ t.ctx.flags = flagNX := by decide +kernel

/-- 05, the example after R127: the top eight of six active lanes, and one more candidate merged. -/
theorem test_vtopk :
    let s := xs [(9, 0x6400000008)] ((base.setV 1 (lanes ([0x40000000, 0x3F800000, 0x7FC00000, 0x40400000, 0x40000000, 0xFF800000,
      0x40800000] ++ List.replicate 9 0x41200000))).setM 2 0xFFFFFF)
    let t := after (.vtopk (rd 5) (rd 1) 9 (rd 6) ⟨.dyn, 0, .s, false, 2⟩) s
    let u := after (.vtopkm (rd 5) (rd 11) 9 (rd 6) ⟨.dyn, 0, .s, false, 3⟩)
      (xs [(9, 0x7400000008)] ((t.setV 11 (lanes [0x40000000])).setM 3 0xF))
    t.v 5 = lanes [0x40400000, 0x40000000, 0x40000000, 0x3F800000, 0xFF800000, 0x7FC00000, 0xFF800000, 0xFF800000] ∧
    t.v 6 = lanes [0x67, 0x64, 0x68, 0x65, 0x69, 0x66, 0xFFFFFFFF, 0xFFFFFFFF] ∧
    u.v 5 = lanes [0x40400000, 0x40000000, 0x40000000, 0x40000000, 0x3F800000, 0xFF800000, 0x7FC00000, 0xFF800000] ∧
    u.v 6 = lanes [0x67, 0x64, 0x68, 0x74, 0x65, 0x69, 0x66, 0xFFFFFFFF] := by decide +kernel

/-- 10, the example after R277: element (5, 17) of a P2 tensor of 64 × 128 elements. -/
theorem test_plane_addresses :
    let d : Fd := ⟨2, false, false, 64, 128, 0x2000, 0x200000000, 0x200010000⟩
    d.planeAddr 657 0 = 0x200000291 ∧ d.planeAddr 657 1 = 0x200002291 ∧ d.scaleAddr 657 = 0x200010014 ∧
    d.elem 0x200002291 = some (1, 657) ∧ homeOf 0x40000291 % 64 = 2 ∧ homeOf 0x40000291 / 64 = 1 ∧ homeOf 0x40002291 % 64 = 10 := by
  decide +kernel

/-- 09, the hand-decoded payload: two lanes of four steps. -/
theorem test_decode_payload :
    let tab : List (BitVec 32) := [0x100, 0x238, 0x2B8, 0x240]
    let p : List Byte := [2, 0, 1, 0, 5, 0, 0, 0, 0, 0, 5, 0, 0, 0, 0x1C, 5]
    (decodePayload tab (fun o => .ok (p.getD o 0)) (some 16) 8).1 = [0x38, 0, 0, 0x38, 0x38, 0xB8, 0x40, 0] ∧
    (decodePayload tab (fun o => .ok (p.getD o 0)) (some 16) 8).2 = none := by decide +kernel

/-- 14, ten tokens to four experts: what one SORTC, of rows of one byte, leaves in counts, offsets, dest_index and slots; and its
first variant. -/
def tokens (keys : List Nat) : State :=
  let rows := (List.range 10).map fun t => BitVec.ofNat 8 (0xA0 + t)
  let cmd : EngCmd := ⟨0, 0, 1, 4, va 0x380, [va 0, va 0x100, va 0x200, va 0x300, va 0x310, va 0x320, 0x40100000A, 1], 0, 0x10000, 1, none, false, true, none⟩
  State.setCluster { (ctx fun c => { c with cpc := 1 }) with
    mem := Mem.setAll base.mem (cellsAt clm (keys.flatMap (leBytes 2)) ++ cellsAt (clm + 0x100) rows) } 0 { Cluster.reset with copies := [cmd] }

theorem test_sortc :
    let t := after (.engineComplete 0 0) (tokens [2, 0, 2, 0xFFFF, 1, 2, 0, 1, 2, 0])
    let w (o : Nat) : Nat := leNat (Mem.bytes t.mem (clm + o) 4)
    (List.range 4).map (fun i => w (0x300 + 4 * i)) = [3, 2, 4, 0] ∧ (List.range 4).map (fun i => w (0x310 + 4 * i)) = [0, 3, 5, 9] ∧
    (List.range 10).map (fun i => w (0x320 + 4 * i)) = [5, 0, 6, 0xFFFFFFFF, 3, 7, 1, 4, 8, 2] ∧
    (List.range 9).map (fun i => Mem.get t.mem (clm + 0x200 + i)) = [0xA1, 0xA6, 0xA9, 0xA4, 0xA7, 0xA0, 0xA2, 0xA5, 0xA8] ∧
    t.ctx.cpc = 0 := by decide +kernel

theorem test_sortc_key :
    let t := after .takeEvent (hooked (after (.engineFail 0 0) (tokens [2, 0, 2, 4, 1, 2, 0, 1, 2, 0])))
    t.ctx.cause = 0x8000000000000C23 ∧ t.ctx.tval = 0x0400000000000000 ∧ (after (.dstat 5 1) t).x 5 = 0x1000000006 ∧
    (after (.dstat 5 2) t).x 5 = 0x040000000000010C ∧ Mem.get t.mem (clm + 0x300) = 0 := by decide +kernel

/-- 13, the run after R324: SQFULL in a VN0 handler of context 2 of core 3 of cluster 1. -/
theorem test_abort :
    let s : State := { hooked (ctx fun c => { c with hnd := true, trigger := some 0x700000088 }) with cur := 98 }
    let t := s.trap ⟨10, 1, 5⟩
    t.csr 0x403 = 0x10A ∧ t.csr 0x404 = 0x700000088 ∧ t.csr 0x402 = 0 ∧ t.csr 0x400 = 0x806 ∧
    slotAddr 98 = 0x10001F5C00 := by decide +kernel

/-- 13, the example after R340: TIMER before `trap 17` at 0x403000, ERET, SYSCALL. -/
theorem test_timer_before_syscall :
    let s : State := { hooked (ctx fun c => { c with pc := 0x403000, timer := true }) with time := 7 }
    let t := after .takeEvent s
    let u := after .eret t
    let v := after (.trap 17) u
    [t, v].map (fun s => (s.csr 0x402, s.csr 0x403, s.csr 0x404, s.csr 0x400)) =
      [(0x403000, 0x8000000000000020, 7, 6), (0x403008, 15, 17, 6)] ∧ u.csr 0x400 = 3 ∧ u.ctx.pc = 0x403000 := by decide +kernel

/-- 10, the example after R282: a load through a gather window of four indices, and one whose index reaches its bound. -/
def gathers (index : List Nat) : State :=
  xs [(5, 0x100040000), (6, 0x100001000), (7, 0x100000000), (8, 0x80000004), (10, 0x100040000)] (({ base with
    tlb := [(.die 0, .page 1 0x100000000 16 0x100000 ⟨true, true, true, false, false, 0⟩)]
    mem := Mem.setAll base.mem (cellsAt 0x100000 ((List.range 8).flatMap fun k => leBytes 4 (0x100 + k)) ++ cellsAt 0x101000 (index.flatMap (leBytes 4))) }
    ).setM 1 0xFFFF)

theorem test_gather :
    let t := after (.bindw 5 6 7 8 2 3) (gathers [5, 2, 7, 0])
    let u := after (.vld (rd 1) 10 ⟨0, 0, .i32, false, 1⟩) t
    let v := after (.loadReturn 0 0) u
    u.ctx.pend.length = 1 ∧ v.ctx.pend = [] ∧
    [0, 1, 2, 3].map (fun i => ((v.v 1).extractLsb' (32 * i) 32).toNat) = [0x105, 0x102, 0x107, 0x100] := by decide +kernel

theorem test_gather_bound :
    let t := hooked (after (.bindw 5 6 7 8 2 3) (gathers [1, 3, 9, 0]))
    let u := after (.vld (rd 1) 10 ⟨0, 0, .i32, false, 1⟩) t
    u.ctx.cause.toNat % 256 = 16 ∧ u.ctx.tval = 0x100040008 ∧ u.ctx.pend = [] := by decide +kernel

/-- 19, the object `girex`, its tables read: the granules its relocations patch, sections, symbols, relocations. -/
def girex : Girad :=
  ⟨[0x6216, 1, 0x3000, 0x7216, 1, 0x1FF4, 0x5011, 0x10001000, 0xA5009, 0x800000].flatMap (leBytes 4),
   [⟨1, 0, 0, 0, 0xA8, 0x28⟩, ⟨2, 0, 0, 0x1000, 0x40, 0⟩, ⟨3, 0, 0, 0x2000, 0x18, 0⟩, ⟨5, 0, 0, 0x3000, 8, 0⟩],
   [⟨0, 0, 1, 2, noIndex, [1]⟩, ⟨0x68, 0, 1, 2, 0, [2]⟩, ⟨0, 1, 0, 0, noIndex, [3]⟩, ⟨0, 2, 0, 0, noIndex, [4]⟩],
   [⟨0, 1, 6, 0, 0⟩, ⟨0xC, 3, 5, 0, 0⟩, ⟨0x18, 2, 3, 0, 8⟩, ⟨0x20, 2, 4, 0, 8⟩, ⟨0x2008, 2, 1, 0, 0⟩, ⟨0x2010, 2, 2, 0, 0⟩]⟩

/-- Its relocations at 0x2345_0000, and the load at 0x7FFF_F000 that RANGE refuses. -/
theorem test_girex :
    ((girex.patches 0x23450000 [] 0 girex.rels).toOption.map fun l => l.map fun p => (p.site, p.val)) =
      some [(0, 0x3000), (0xC, 0x1FF4), (0x18, 0x23451), (0x20, 8), (0x2008, 0x23451000), (0x2010, 0x23451000)] ∧
    (match girex.patches 0x7FFFF000 [] 0 girex.rels with | .error e => e.1 + 256 * e.2 | .ok _ => 0) = 0x209 := by
  decide +kernel

end Sys2Proof.Tests
end

section
/-! The mirror exchange (07 R174): a keyed list after an entry is set, contexts and cores after another context has been current,
and the exchange between two cores. -/

namespace Sys2Proof.Machine

open Sys2Proof

/-! ## Keyed lists -/

/-- Holds of every list, sorted by key or not. -/
theorem look_put {α : Type} (d : α) (l : List (Nat × α)) (a b : Nat) (v : α) :
    look d (put l a v) b = if b = a then v else look d l b := by
  induction l with
  | nil => rfl
  | cons e r ih =>
    obtain ⟨k, w⟩ := e
    by_cases hlt : a < k
    · simp only [put, if_pos hlt, look]
    · by_cases hk : a = k
      · subst hk
        by_cases hb : b = a <;> simp [put, look, hb]
      · by_cases hb : b = k
        · subst hb
          simp [put, look, hlt, hk, Ne.symm hk]
        · simp [put, look, hlt, hk, hb, ih]

/-! ## Contexts and cores by number -/

@[simp] theorem State.getCtx_cur (s : State) : s.getCtx s.cur = s.ctx := if_pos rfl

@[simp] theorem State.getCore_k (s : State) : s.getCore s.k = s.core := if_pos rfl

@[simp] theorem State.select_k (s : State) (r : Nat) : (s.select r).k = r / 8 := by simp [State.k]

theorem State.select_of_ne {s : State} {r : Nat} (h : r ≠ s.cur) : s.select r =
    { s with
      cur := r
      ctx := look .reset (Machine.put s.ctxs s.cur s.ctx) r
      core := look .reset (Machine.put s.cores s.k s.core) (r / 8)
      ctxs := Machine.put s.ctxs s.cur s.ctx
      cores := Machine.put s.cores s.k s.core } := if_neg h

@[simp] theorem State.getCore_select (s : State) (r j : Nat) : (s.select r).getCore j = s.getCore j := by
  by_cases hr : r = s.cur
  · rw [hr, State.select_self]
  · have hput : (s.select r).getCore j = look .reset (Machine.put s.cores s.k s.core) j := by
      rw [State.getCore, State.select_k, State.select_of_ne hr]
      split <;> simp [*]
    rw [hput, look_put, State.getCore]

@[simp] theorem State.getCtx_select (s : State) (r q : Nat) : (s.select r).getCtx q = s.getCtx q := by
  by_cases hr : r = s.cur
  · rw [hr, State.select_self]
  · have hput : (s.select r).getCtx q = look .reset (Machine.put s.ctxs s.cur s.ctx) q := by
      rw [State.getCtx, State.select_cur, State.select_of_ne hr]
      split <;> simp [*]
    rw [hput, look_put, State.getCtx]

theorem State.select_ctx (s : State) (r : Nat) : (s.select r).ctx = s.getCtx r := by
  rw [← State.getCtx_cur, State.select_cur, State.getCtx_select]

@[simp] theorem State.setCore_cur (s : State) (k : Nat) (c : Core) : (s.setCore k c).cur = s.cur := by
  unfold State.setCore; split <;> rfl

@[simp] theorem State.setCore_k (s : State) (k : Nat) (c : Core) : (s.setCore k c).k = s.k := by simp [State.k]

@[simp] theorem State.getCtx_setCore (s : State) (k r : Nat) (c : Core) : (s.setCore k c).getCtx r = s.getCtx r := by
  unfold State.setCore; split <;> rfl

theorem State.getCore_setCore (s : State) (k j : Nat) (c : Core) :
    (s.setCore k c).getCore j = if j = k then c else s.getCore j := by
  rw [State.getCore, State.setCore_k]
  by_cases hk : k = s.k
  · by_cases hj : j = s.k <;> simp [State.setCore, State.getCore, hk, hj]
  · by_cases hj : j = s.k
    · simp [State.setCore, State.getCore, hk, hj, Ne.symm hk]
    · simp [State.setCore, State.getCore, hk, hj, look_put]

/-! ## Retiring the instruction of another context -/

@[simp] theorem State.retire_k (s : State) (len : Nat) : (State.retire len s).k = s.k := by simp [State.k]

@[simp] theorem State.getCore_retire (s : State) (len j : Nat) : (State.retire len s).getCore j = s.getCore j := by
  simp [State.getCore]

/-- A context whose instruction of `len` bytes has completed (04 R85), no replay issuing it. -/
def Ctx.retired (len : Nat) (c : Ctx) : Ctx :=
  { c with pc := c.pc + BitVec.ofNat 64 len, instret := c.instret + 1, wait := .none }

theorem State.retire_ctx (s : State) (len : Nat) (h : s.ctx.rep.issuing = false) :
    (State.retire len s).ctx = s.ctx.retired len := by
  simp [State.retire_eq, h, Ctx.retired]

@[simp] theorem State.as_cur (s : State) (r : Nat) (f : State → State) : (s.as r f).cur = s.cur := State.select_cur ..

@[simp] theorem State.asRetire_mem (s : State) (r len : Nat) : (s.as r (State.retire len)).mem = s.mem := by
  simp [State.as]

@[simp] theorem State.getCore_asRetire (s : State) (r len j : Nat) : (s.as r (State.retire len)).getCore j = s.getCore j := by
  simp [State.as]

theorem State.getCtx_asRetire_same (s : State) (r len : Nat) (h : (s.getCtx r).rep.issuing = false) :
    (s.as r (State.retire len)).getCtx r = (s.getCtx r).retired len := by
  have hcur : (State.retire len (s.select r)).getCtx r = (State.retire len (s.select r)).ctx := by simp [State.getCtx]
  rw [State.as, State.getCtx_select, hcur, State.retire_ctx _ _ (by rwa [State.select_ctx]), State.select_ctx]

theorem State.getCtx_asRetire_ne (s : State) {r q : Nat} (len : Nat) (h : q ≠ r) :
    (s.as r (State.retire len)).getCtx q = s.getCtx q := by
  have hret : (State.retire len (s.select r)).getCtx q = (s.select r).getCtx q := by simp [State.getCtx, h]
  rw [State.as, State.getCtx_select, hret, State.getCtx_select]

/-! ## The exchange -/

/-- A core whose offer is met: its tile `t` has become `r`, of shape `h`. -/
def Core.receive (c : Core) (t : Tile) (r : TileReg) (h : TShape) : Core :=
  { c with tiles := c.tiles.set t.toNat r t.isLt, tshape := c.tshape.set t.toNat h t.isLt, offer := none }

/-- Cores `k` and `m` become `a` and `b`, and their contexts `ca` and `cb` retire. -/
def State.exchanged (s : State) (k m ca cb : Nat) (a b : Core) : State :=
  (((s.setCore k a).setCore m b).as (k * 8 + ca) (State.retire 8)).as (m * 8 + cb) (State.retire 8)

/-- With both offers made, each core receives the other's tile. -/
theorem execTswapExchange_offered {s : State} {k ca cb : Nat} {ta tb : Tile} (hk : isCompute k = true)
    (ha : (s.getCore k).offer = some (ca, ta)) (hb : (s.getCore (mirrorOf k)).offer = some (cb, tb)) :
    execTswapExchange k s =
      let a := s.getCore k
      let b := s.getCore (mirrorOf k)
      .next (s.exchanged k (mirrorOf k) ca cb
        (a.receive ta (b.tiles[tb.toNat]'(tb.isLt)) (b.tshape[tb.toNat]'(tb.isLt)))
        (b.receive tb (a.tiles[ta.toNat]'(ta.isLt)) (a.tshape[ta.toNat]'(ta.isLt)))) := by
  simp only [execTswapExchange, hk, ha, hb]
  rfl

section
variable {s : State} {k m ca cb : Nat} {a b : Core}

@[simp] theorem State.exchanged_mem : (s.exchanged k m ca cb a b).mem = s.mem := by simp [State.exchanged]

@[simp] theorem State.exchanged_k : (s.exchanged k m ca cb a b).k = s.k := by simp [State.exchanged, State.k]

theorem State.exchanged_getCore (j : Nat) :
    (s.exchanged k m ca cb a b).getCore j = if j = m then b else if j = k then a else s.getCore j := by
  simp [State.exchanged, State.getCore_setCore]

/-- Seen from its current core, the exchange leaves that core as `a`. -/
theorem State.exchanged_core (hm : m ≠ s.k) : (s.exchanged s.k m ca cb a b).core = a := by
  rw [← State.getCore_k, State.exchanged_k, State.exchanged_getCore, if_neg hm.symm, if_pos rfl]

theorem State.exchanged_getCtx_first (h : k * 8 + ca ≠ m * 8 + cb) (hr : (s.getCtx (k * 8 + ca)).rep.issuing = false) :
    (s.exchanged k m ca cb a b).getCtx (k * 8 + ca) = (s.getCtx (k * 8 + ca)).retired 8 := by
  rw [State.exchanged, State.getCtx_asRetire_ne _ 8 h, State.getCtx_asRetire_same _ _ _ (by simpa using hr)]
  simp

theorem State.exchanged_getCtx_second (h : k * 8 + ca ≠ m * 8 + cb) (hr : (s.getCtx (m * 8 + cb)).rep.issuing = false) :
    (s.exchanged k m ca cb a b).getCtx (m * 8 + cb) = (s.getCtx (m * 8 + cb)).retired 8 := by
  rw [State.exchanged, State.getCtx_asRetire_same _ _ _ (by simpa [State.getCtx_asRetire_ne _ 8 h.symm] using hr),
    State.getCtx_asRetire_ne _ 8 h.symm]
  simp

end

/-- Past its gate TSWAP makes its offer when no counted operation is left, and waits for the counters until then. -/
theorem execTswap_claimed {s : State} {t : Tile} (hk : isCompute s.k = true) (hc : s.tclm = true) :
    execTswap t s = .next (if s.core.tileq.isEmpty then
      State.stall .tswap { s with core := { s.core with offer := some (s.c, t) } } else s.stall .counters) := by
  have hgate : s.tileGate (.tswap t) = .ok () := by simp [State.tileGate, hk, hc]
  rw [execTswap, hgate, checked_ok]

/-- Settles O25: the two cores differ, and so do the two contexts, so that no write of the exchange meets another. -/
theorem tileSwaps : Obligations.TileSwaps := by
  intro s t hk
  refine ⟨fun hc hq => ?_, fun hc hq => ?_, ?_⟩
  · exact (execTswap_claimed hk hc).trans (by rw [hq]; rfl)
  · exact (execTswap_claimed hk hc).trans (by rw [if_neg (by simpa using hq)])
  · intro ca cb ta tb hca hcb m b ra rb after ha hb hm hra hrb
    have hne : ra ≠ rb := by omega
    have hex := execTswapExchange_offered hk (by rwa [State.getCore_k]) hb
    rw [State.getCore_k] at hex
    refine ⟨_, hex, ?_⟩
    rw [State.exchanged_core hm, State.exchanged_getCore, if_pos rfl]
    exact ⟨rfl, rfl, fun _ => by rw [State.exchanged_mem], State.exchanged_getCtx_first hne hra,
      State.exchanged_getCtx_second hne hrb, rfl, rfl, rfl, rfl⟩

end Sys2Proof.Machine
end

section
/-! The state after device reset (01 R14 to R26, 12 R302, 16 R366 to R370). -/

namespace Sys2Proof.Machine

open Sys2Proof

/-- Settles O7: every context and core of the state after reset is a reset one, the current one and those no list names. -/
theorem resetState : Obligations.ResetState := by
  unfold Obligations.ResetState
  refine ⟨rfl, fun r => ?_, fun k => ?_, fun n => ⟨rfl, rfl, rfl, rfl, rfl⟩, rfl, rfl, rfl, rfl, rfl, rfl, rfl, rfl, rfl, rfl, rfl,
    rfl, fun v => ⟨rfl, rfl⟩⟩
  · rw [State.getCtx]
    split <;> rfl
  · rw [State.getCore]
    split <;> exact ⟨rfl, rfl, rfl, rfl, rfl⟩

end Sys2Proof.Machine
end

section
/-! Operands that are supplied (06 R141, R142): nothing of R142 fails, and an instruction that uses f and v registers comes to its
operation. -/

namespace Sys2Proof.Machine

open Sys2Proof

/-! ## Completing -/

/-- What retiring an instruction reads of its context is as before. -/
def SameControl (s u : State) : Prop :=
  u.ctx.rep = s.ctx.rep ∧ u.ctx.pc = s.ctx.pc ∧ u.ctx.instret = s.ctx.instret

theorem SameControl.refl (s : State) : SameControl s s := ⟨rfl, rfl, rfl⟩

theorem SameControl.trans {s t u : State} (h : SameControl s t) (g : SameControl t u) : SameControl s u :=
  ⟨g.1.trans h.1, g.2.1.trans h.2.1, g.2.2.trans h.2.2⟩

/-- An instruction that answers its effect retired completes. -/
theorem done_of_retire {i : Instr} {s u : State} {len : Nat} (hk : SameControl s u)
    (h : exec i s = .next (State.retire len u)) : Done i s u len := by
  obtain ⟨hrep, hpc, hret⟩ := hk
  rw [Done, h, State.retire_eq, hrep, hpc, hret, nextPc]

theorem SameControl.setX (s : State) (r : Reg) (v : Word) : SameControl s (s.setX r v) := by simp [SameControl]

theorem SameControl.setF (s : State) (r : Reg) (v : Word) : SameControl s (s.setF r v) := ⟨rfl, rfl, rfl⟩

theorem SameControl.setStream (s : State) (k : BitVec 2) (t : Stream) : SameControl s (s.setStream k t) := ⟨rfl, rfl, rfl⟩

theorem SameControl.orFlags (s : State) (fl : Flags) : SameControl s (s.orFlags fl) := ⟨rfl, rfl, rfl⟩

theorem SameControl.popAll (s : State) (us : List Use) : SameControl s (s.popAll us) := ⟨rfl, rfl, rfl⟩

/-! ## Copies dropped -/

@[simp] theorem State.setCore_ctx (s : State) (k : Nat) (c : Core) : (s.setCore k c).ctx = s.ctx := by
  unfold State.setCore; split <;> rfl

@[simp] theorem State.noteAs_ctx (strm : Bool) (s : State) (keys : List Nat) : (s.noteAs strm keys).ctx = s.ctx := by
  unfold State.noteAs; split
  · rfl
  · split <;> rfl

@[simp] theorem State.dropCopies_ctx (k : Nat) : ∀ (keys : List Nat) (s : State), (State.dropCopies k s keys).ctx = s.ctx
  | [], _ => rfl
  | a :: r, s => by
    rw [State.dropCopies, State.dropCopies_ctx k r]
    split <;> simp [State.modCore]

@[simp] theorem State.touchStream_ctx (k : Nat) (s : State) (keys : List Nat) : (State.touchStream k s keys).ctx = s.ctx := by
  simp [State.touchStream]

/-- Reading no key drops no copy. -/
@[simp] theorem State.touch_nil (k : Nat) (s : State) : State.touch k s [] = s := rfl

theorem SameControl.push (s : State) (k : BitVec 2) (v : VWord) : SameControl s (s.push k v) := by
  unfold State.push
  dsimp only
  split
  · exact .refl s
  · simp [SameControl]

theorem SameControl.writeF (s : State) (r : Reg) (w : Word) : SameControl s (s.writeF r w) := by
  unfold State.writeF
  split
  · exact .setF ..
  · exact .push ..

/-! ## Pops and pushes counted -/

theorem popsOf_append (c : Ctx) (k : BitVec 2) (p q : List Use) : popsOf c k (p ++ q) = popsOf c k p + popsOf c k q := by
  simp [popsOf]

theorem pushesOf_append (c : Ctx) (k : BitVec 2) (p q : List Use) : pushesOf c k (p ++ q) = pushesOf c k p + pushesOf c k q := by
  simp [pushesOf]

theorem popsOf_singleton (c : Ctx) (k : BitVec 2) (u : Use) :
    popsOf c k [u] = if u.role = .src ∧ c.bound u.isV u.reg = some k then 1 else 0 := by
  by_cases h : u.role = .src ∧ c.bound u.isV u.reg = some k <;> simp [popsOf, h]

theorem pushesOf_singleton (c : Ctx) (k : BitVec 2) (u : Use) :
    pushesOf c k [u] = if u.role = .dst ∧ c.bound u.isV u.reg = some k then 1 else 0 := by
  by_cases h : u.role = .dst ∧ c.bound u.isV u.reg = some k <;> simp [pushesOf, h]

/-- A source bound to a stream pops it once more than the operands before it. -/
theorem popsOf_lt {c : Ctx} {k : BitVec 2} {p q us : List Use} {u : Use} (hus : us = p ++ u :: q) (hr : u.role = .src)
    (hb : c.bound u.isV u.reg = some k) : popsOf c k p < popsOf c k us := by
  have hu : popsOf c k [u] = 1 := by rw [popsOf_singleton, if_pos ⟨hr, hb⟩]
  rw [hus, ← List.singleton_append, popsOf_append, popsOf_append, hu]
  omega

/-! ## The rows of R142 -/

theorem State.fetchUpTo_of_le {s : State} {k : BitVec 2} : ∀ {n : Nat}, n ≤ (s.stream k).got.length → State.fetchUpTo k n s = s
  | 0, _ => rfl
  | n + 1, h => by
    rw [State.fetchUpTo, State.fetchUpTo_of_le (by omega : n ≤ _)]
    exact if_neg (by omega)

section
variable {s : State} {us : List Use} {v : List VWord} (h : Supplied s us v)
include h

theorem Supplied.pops_le (k : BitVec 2) : popsOf s.ctx k us ≤ (s.stream k).got.length := (h.1 k).1

theorem Supplied.pushesReady : s.pushesReady us = true := h.2.2.2.2

/-- Every element has arrived, so that nothing is fetched. -/
theorem Supplied.fetchUses : s.fetchUses us = s :=
  List.foldl_fixed' (fun k => State.fetchUpTo_of_le (h.pops_le k)) _

theorem Supplied.usesArrived : s.usesArrived us = true := by
  simp [State.usesArrived, State.arrived, h.pops_le]

/-- The index words of the pushes can be read, so that nothing is drained or woken. -/
theorem Supplied.readyPushes : s.readyPushes us = s := by
  have hready := h.pushesReady
  simp only [State.pushesReady, List.all_eq_true, Bool.and_eq_true, Bool.not_eq_true'] at hready
  refine List.foldlRecOn (motive := (· = s)) _ _ rfl fun t ht k hk => ?_
  obtain ⟨hheld, hpow⟩ := hready k hk
  subst ht
  rw [hheld, if_neg (by decide), State.wakeFor_powered _ _ hpow]

/-- Each source operand delivers its value. -/
theorem Supplied.readUses : s.readUses [] us = .ok v := by
  obtain ⟨hpops, hlen, hval, -, -⟩ := h
  suffices hgen : ∀ (q p seen : List Use), us = p ++ q → (∀ k, popsOf s.ctx k seen = popsOf s.ctx k p) →
      s.readUses seen q = .ok (v.drop (p.filter (·.role == .src)).length) from hgen us [] [] rfl fun _ => rfl
  intro q
  induction q with
  | nil =>
    intro p seen hus _
    rw [State.readUses, List.drop_eq_nil_of_le (by rw [hlen, hus, List.append_nil])]
  | cons u q ih =>
    intro p seen hus hseen
    have hus' : us = (p ++ [u]) ++ q := by simpa using hus
    rw [State.readUses]
    by_cases hr : u.role = .src
    · have hdrop : v.drop (p.filter (·.role == .src)).length =
          s.delivered p u :: v.drop ((p ++ [u]).filter (·.role == .src)).length := by
        obtain ⟨hlt, hget⟩ := List.getElem?_eq_some_iff.mp (hval p q u hus hr)
        rw [List.drop_eq_getElem_cons hlt, hget]
        simp [hr]
      have hrest := ih (p ++ [u]) (seen ++ [u]) hus' fun k => by rw [popsOf_append, popsOf_append, hseen]
      rw [if_neg (by simp [hr]), hdrop]
      cases hb : s.ctx.bound u.isV u.reg with
      | none => simp only [hrest, State.delivered, hb]
      | some k =>
        have hlt := popsOf_lt hus hr hb
        obtain ⟨hgot, htotal⟩ := hpops k
        specialize htotal (by omega)
        have hp : popsOf s.ctx k p < (s.stream k).got.length := by omega
        simp only [hrest, State.delivered, hb, hseen]
        rw [if_neg (by omega), List.getElem?_eq_getElem hp]
        simp [hp]
    · rw [if_pos (by simpa using hr), ih (p ++ [u]) seen hus' fun k => by simp [popsOf_append, popsOf_singleton, hr, hseen]]
      simp [hr]

/-- Each bound destination finds an element left whose place passes its checks. -/
theorem Supplied.checkPushes : s.checkPushes [] us = .ok () := by
  obtain ⟨-, -, -, hpush, -⟩ := h
  suffices hgen : ∀ (q p seen : List Use), us = p ++ q → (∀ k, pushesOf s.ctx k seen = pushesOf s.ctx k p) →
      s.checkPushes seen q = .ok () from hgen us [] [] rfl fun _ => rfl
  intro q
  induction q with
  | nil => intros; rfl
  | cons u q ih =>
    intro p seen hus hseen
    have hus' : us = (p ++ [u]) ++ q := by simpa using hus
    rw [State.checkPushes]
    by_cases hr : u.role = .dst
    · have hrest := ih (p ++ [u]) (seen ++ [u]) hus' fun k => by rw [pushesOf_append, pushesOf_append, hseen]
      rw [if_neg (by simp [hr])]
      cases hb : s.ctx.bound u.isV u.reg with
      | none => exact hrest
      | some k =>
        obtain ⟨hn, x, hx⟩ := hpush p q u k hus hr hb
        simp only [hseen, hx]
        rw [if_neg (by omega)]
        exact hrest
    · rw [if_pos (by simpa using hr)]
      exact ih (p ++ [u]) seen hus' fun k => by simp [pushesOf_append, pushesOf_singleton, hr, hseen]

end

/-! ## The pops of an instruction -/

/-- A stream after `n` pops of one instruction. -/
def Stream.popped (t : Stream) (n : Nat) : Stream := if n = 0 then t else t.advance n

@[simp] theorem Stream.popped_active (t : Stream) (n : Nat) : (t.popped n).active = t.active := by unfold Stream.popped; split <;> rfl
@[simp] theorem Stream.popped_bv (t : Stream) (n : Nat) : (t.popped n).bv = t.bv := by unfold Stream.popped; split <;> rfl
@[simp] theorem Stream.popped_breg (t : Stream) (n : Nat) : (t.popped n).breg = t.breg := by unfold Stream.popped; split <;> rfl

theorem Ctx.bound_eq (s : State) (isV : Bool) (r : Reg) : s.ctx.bound isV r =
    ([0, 1, 2, 3] : List (BitVec 2)).find? fun k =>
      (s.stream k).active && (s.stream k).bv == isV && (s.stream k).breg == r := rfl

/-- Pops do not change what a register is bound to. -/
theorem State.setStream_popped_bound (s : State) (k : BitVec 2) (n : Nat) :
    (s.setStream k ((s.stream k).popped n)).ctx.bound = s.ctx.bound := by
  funext isV r
  rw [Ctx.bound_eq, Ctx.bound_eq]
  congr 1
  funext j
  by_cases hj : j = k
  · subst hj; simp [State.setStream_stream]
  · simp [State.setStream_stream, hj]

theorem popsOf_congr {c d : Ctx} (h : c.bound = d.bound) (k : BitVec 2) (us : List Use) : popsOf c k us = popsOf d k us := by
  simp [popsOf, h]

/-- Stream `k` after the pops of an instruction. -/
def State.popStream (us : List Use) (s : State) (k : BitVec 2) : State :=
  s.setStream k ((s.stream k).popped (popsOf s.ctx k us))

theorem State.setStream_self (s : State) (k : BitVec 2) : s.setStream k (s.stream k) = s := by
  simp [State.setStream, State.stream]

theorem State.commitPops_eq (s : State) (us : List Use) :
    s.commitPops us = ([0, 1, 2, 3] : List (BitVec 2)).foldl (State.popStream us) s := by
  unfold State.commitPops
  congr 1
  funext s k
  rw [State.popStream, Stream.popped]
  split <;> simp [*, State.setStream_self]

/-- Each stream popped is popped once, and nothing else changes. -/
theorem State.foldl_popStream (us : List Use) : ∀ (l : List (BitVec 2)) (s : State), l.Nodup →
    (∃ x, l.foldl (State.popStream us) s = { s with ctx := { s.ctx with streams := x } }) ∧
    ∀ j, (l.foldl (State.popStream us) s).stream j =
      if j ∈ l then (s.stream j).popped (popsOf s.ctx j us) else s.stream j
  | [], s, _ => ⟨⟨s.ctx.streams, rfl⟩, fun _ => rfl⟩
  | k :: l, s, hl => by
    obtain ⟨hk, hl⟩ := List.nodup_cons.mp hl
    obtain ⟨⟨x, hx⟩, hj⟩ := State.foldl_popStream us l (s.popStream us k) hl
    refine ⟨⟨x, hx⟩, fun j => ?_⟩
    rw [List.foldl_cons, hj, State.popStream, popsOf_congr (State.setStream_popped_bound ..), State.setStream_stream]
    by_cases h : j = k
    · subst h; simp [hk]
    · simp [h]

/-- Committing the pops moves every stream past the elements it delivered. -/
theorem State.commitPops_popAll (s : State) (us : List Use) : s.commitPops us = s.popAll us := by
  obtain ⟨⟨x, hx⟩, hj⟩ := State.foldl_popStream us [0, 1, 2, 3] s (by decide)
  rw [State.commitPops_eq, hx, State.popAll]
  have hstreams : x = Vector.ofFn fun j : Fin 4 => (s.ctx.streams[j]).popped (popsOf s.ctx (BitVec.ofFin j) us) := by
    ext n hn
    have := hj (BitVec.ofFin ⟨n, hn⟩)
    rw [hx, if_pos ((by decide : ∀ k : BitVec 2, k ∈ ([0, 1, 2, 3] : List (BitVec 2))) _)] at this
    simpa [State.stream] using this
  rw [hstreams]
  rfl

/-! ## Coming to the operation -/

/-- With its operands supplied an instruction comes to its operation, and when that raises no enabled flag to the pops, the flags, its
effect and its retirement. -/
theorem State.operate_supplied {s : State} {i : Instr} {rimm : BitVec 6} {ops : List Opnd} {us : List Use} {v : List VWord}
    {op : List Reg → List VWord → Effect} {fl : Flags} {eff : State → State} (ho : openUses i s.ctx rimm ops = .ok us)
    (h : Supplied s us v) (hop : op (us.map (·.reg)) v = .ok (fl, eff)) (hfl : s.fpTraps fl = false) :
    s.operate i rimm ops op = .next (State.retire 8 (eff ((s.orFlags fl).popAll us))) := by
  simp only [State.operate, State.operateWhen, ho, h.fetchUses, h.readyPushes, h.usesArrived, h.pushesReady, h.readUses,
    h.checkPushes, State.whenIndexed, List.all_nil, List.flatMap_nil, State.touch_nil, hop, hfl, State.raising]
  simp [State.commitPops_popAll, hfl]

/-! ## Scalar floating point (04 R105 to R111) -/

/-- The result of a scalar floating-point instruction written where it goes, by the registers its operands name. -/
def FOp.effect (o : FOp) (rs : List Reg) (w : Word) (s : State) : State :=
  match o.dst with
  | .f => s.writeF (rg rs 0) w
  | .x d => s.setX d w

theorem SameControl.effect (o : FOp) (rs : List Reg) (w : Word) (s : State) : SameControl s (o.effect rs w s) := by
  unfold FOp.effect
  split
  · exact .writeF ..
  · exact .setX ..

/-- Every scalar floating-point instruction is its row of the table, operated. -/
theorem exec_fpOp {s : State} {i : Instr} {o : FOp} (h : fpOp s i = some o) :
    exec i s = s.operate i o.rimm o.ops fun rs v => .ok ((o.res v).fl, o.effect rs (o.res v).bits) := by
  unfold fpOp at h
  split at h <;> cases h <;> rfl

/-- Settles O12: the operands supplied bring the instruction to its operation, which is its row of the table. -/
theorem fpResults : Obligations.FpResults := by
  intro s i o us v ho hus hv r hfl
  refine done_of_retire ?_ ((exec_fpOp ho).trans (State.operate_supplied hus hv rfl hfl))
  exact ((SameControl.orFlags s r.fl).trans (.popAll _ us)).trans (.effect o _ r.bits _)

end Sys2Proof.Machine
end

section
/-! Relative operands (01 R29, R30, 06 R142): what rows 1 and 2 of R142 answer, for every scalar and lane-wise instruction. -/

namespace Sys2Proof.Machine

open Sys2Proof

/-! ## Rows 1 and 2 of R142 -/

/-- A use that fails its check is ILLEGAL. -/
theorem checkUse_cases (i : Instr) (c : Ctx) (u : Use) : checkUse i c u = .ok () ∨ checkUse i c u = .error (illegal i) := by
  unfold checkUse
  cases c.bound u.isV u.reg with
  | none => exact .inl rfl
  | some k =>
    cases hd : (c.streams[k.toNat]'(k.isLt)).act.dir <;> cases u.role <;> simp [require, hd]

theorem checkUse_unbound {i : Instr} {c : Ctx} {u : Use} (h : c.bound u.isV u.reg = none) : checkUse i c u = .ok () := by
  simp [checkUse, h]

/-- A v register named directly at or above VALLOC.N is ILLEGAL, whatever stands before it. -/
theorem checkDirect_beyond {i : Instr} {c : Ctx} : ∀ {ops : List Opnd},
    (∃ o ∈ ops, o.op.rel = false ∧ o.isV = true ∧ c.valloc.toNat ≤ o.op.n.toNat) → checkDirect i c ops = .error (illegal i)
  | [], h => by simp at h
  | o :: r, h => by
    rw [checkDirect]
    obtain ⟨q, hq, hrel, hv, hn⟩ := h
    rcases List.mem_cons.mp hq with rfl | hq
    · simp [hrel, hv, hn]
    · have ih := checkDirect_beyond (i := i) ⟨q, hq, hrel, hv, hn⟩
      split
      · exact ih
      · split
        · rfl
        · rcases checkUse_cases i c ⟨o.isV, o.op.n, o.role⟩ with hu | hu <;> simp [hu, ih]

/-- Registers named directly that are allocated and unbound pass row 1. -/
theorem checkDirect_ok {i : Instr} {c : Ctx} : ∀ {ops : List Opnd},
    (∀ o ∈ ops, o.op.rel = false → (o.isV = true → o.op.n.toNat < c.valloc.toNat) ∧ c.bound o.isV o.op.n = none) →
    checkDirect i c ops = .ok ()
  | [], _ => rfl
  | o :: r, h => by
    obtain ⟨ho, hr⟩ := List.forall_mem_cons.mp h
    rw [checkDirect, checkDirect_ok hr]
    cases hrel : o.op.rel with
    | true => rfl
    | false =>
      obtain ⟨hlim, hfree⟩ := ho hrel
      rw [checkUse_unbound hfree, if_neg (by simp), if_neg]
      simpa using hlim

/-- What a relative operand selects (R29). -/
theorem relIndex_eq (s : State) (rimm : BitVec 6) (o : Opnd) [Decidable (relGood s rimm o)] : relIndex s.ctx rimm o =
    if relGood s rimm o then .ok (BitVec.ofNat 5 (relIdx s rimm o).toNat) else .error ⟨7, 0, relIdx s rimm o⟩ := by
  let lim : Int := if o.isV then s.ctx.valloc.toNat else 32
  have hdef : relIndex s.ctx rimm o = if (relIdx s rimm o).toInt < 0 || lim ≤ (relIdx s rimm o).toInt
      then .error ⟨7, 0, relIdx s rimm o⟩ else .ok (BitVec.ofNat 5 (relIdx s rimm o).toNat) := rfl
  have hbad : (decide ((relIdx s rimm o).toInt < 0) || decide (lim ≤ (relIdx s rimm o).toInt)) = true ↔ ¬relGood s rimm o := by
    simp only [relGood, Bool.or_eq_true, decide_eq_true_eq, not_and_or, not_le, not_lt]
    rfl
  rw [hdef]
  by_cases h : relGood s rimm o
  · rw [if_pos h, if_neg (by rwa [hbad, not_not])]
  · rw [if_neg h, if_pos (hbad.mpr h)]

/-- The register that an operand names or selects. -/
def Opnd.use (s : State) (rimm : BitVec 6) (o : Opnd) : Use :=
  ⟨o.isV, if o.op.rel then BitVec.ofNat 5 (relIdx s rimm o).toNat else o.op.n, o.role⟩

/-- Relative operands that select a register are resolved to it. -/
theorem resolveOps_ok {s : State} {rimm : BitVec 6} : ∀ {ops : List Opnd},
    (∀ o ∈ ops, o.op.rel = true → relGood s rimm o) → resolveOps s.ctx rimm ops = .ok (ops.map (·.use s rimm))
  | [], _ => rfl
  | o :: r, h => by
    classical
    obtain ⟨ho, hr⟩ := List.forall_mem_cons.mp h
    have hn : (if o.op.rel then relIndex s.ctx rimm o else .ok o.op.n) = .ok (o.use s rimm).reg := by
      cases hrel : o.op.rel <;> simp [Opnd.use, hrel, relIndex_eq, ho]
    rw [resolveOps, hn, resolveOps_ok hr]
    rfl

/-- The first relative operand that selects no register raises REGIDX with the number it computes. -/
theorem resolveOps_regidx {s : State} {rimm : BitVec 6} {o : Opnd} (hrel : o.op.rel = true) (ho : ¬relGood s rimm o) (q : List Opnd) :
    ∀ {p : List Opnd}, (∀ y ∈ p, y.op.rel = true → relGood s rimm y) →
      resolveOps s.ctx rimm (p ++ o :: q) = .error ⟨7, 0, relIdx s rimm o⟩
  | [], _ => by
    classical
    simp [resolveOps, hrel, relIndex_eq, ho]
  | y :: p, h => by
    classical
    obtain ⟨hy, hp⟩ := List.forall_mem_cons.mp h
    have hn : (if y.op.rel then relIndex s.ctx rimm y else .ok y.op.n) = .ok (y.use s rimm).reg := by
      cases hr : y.op.rel <;> simp [Opnd.use, hr, relIndex_eq, hy]
    rw [List.cons_append, resolveOps, hn, resolveOps_regidx hrel ho q hp]

theorem checkUses_unbound {i : Instr} {c : Ctx} : ∀ {us : List Use}, (∀ u ∈ us, c.bound u.isV u.reg = none) →
    checkUses i c us = .ok ()
  | [], _ => rfl
  | u :: r, h => by
    obtain ⟨hu, hr⟩ := List.forall_mem_cons.mp h
    rw [checkUses, checkUse_unbound hu, checkUses_unbound hr]

/-- Unbound operands that all name or select a register pass both rows. -/
theorem openUses_ok {s : State} {i : Instr} {rimm : BitVec 6} {ops : List Opnd}
    (hd : ∀ o ∈ ops, o.op.rel = false → (o.isV = true → o.op.n.toNat < s.ctx.valloc.toNat) ∧ s.ctx.bound o.isV o.op.n = none)
    (hr : ∀ o ∈ ops, o.op.rel = true →
      relGood s rimm o ∧ s.ctx.bound o.isV (BitVec.ofNat 5 (relIdx s rimm o).toNat) = none) :
    openUses i s.ctx rimm ops = .ok (ops.map (·.use s rimm)) := by
  have hfree : ∀ u ∈ ops.map (·.use s rimm), s.ctx.bound u.isV u.reg = none := by
    simp only [List.forall_mem_map]
    intro o ho
    cases hrel : o.op.rel
    · simpa [Opnd.use, hrel] using (hd o ho hrel).2
    · simpa [Opnd.use, hrel] using (hr o ho hrel).2
  rw [openUses, checkDirect_ok hd, resolveOps_ok fun o ho hrel => (hr o ho hrel).1]
  simp only [checkUses_unbound hfree]

/-- With the operands named directly in order, the first relative operand that selects no register decides. -/
theorem openUses_regidx {s : State} {i : Instr} {rimm : BitVec 6} {p q : List Opnd} {o : Opnd}
    (hd : ∀ y ∈ p ++ o :: q, y.op.rel = false →
      (y.isV = true → y.op.n.toNat < s.ctx.valloc.toNat) ∧ s.ctx.bound y.isV y.op.n = none)
    (hp : ∀ y ∈ p, y.op.rel = true → relGood s rimm y) (hrel : o.op.rel = true) (ho : ¬relGood s rimm o) :
    openUses i s.ctx rimm (p ++ o :: q) = .error ⟨7, 0, relIdx s rimm o⟩ := by
  rw [openUses, checkDirect_ok hd, resolveOps_regidx hrel ho q hp]

/-! ## Coming to the operands -/

/-- An instruction whose operands fail a check takes its trap. -/
theorem State.operate_error {s : State} {i : Instr} {rimm : BitVec 6} {ops : List Opnd} {op : List Reg → List VWord → Effect}
    {t : Trap} (h : openUses i s.ctx rimm ops = .error t) : s.operate i rimm ops op = .next (s.trap t) := by
  simp [State.operate, State.operateWhen, h]

theorem State.vPart_operates (s : State) (i : Instr) (k : VCtl) (d : ROp) (srcs : List Opnd) (n lo cnt : Nat)
    (extra : List VWord → Flags) (f : List VWord → Nat → FRes) :
    ∃ op, s.vPart i k d srcs n lo cnt extra f = s.operate i k.rimm (vD d :: srcs) op := ⟨_, rfl⟩

theorem execVcvt_operates {s : State} {c : Reg} {d a b : ROp} {k : VCtl} {o : VOp} (h : vOp s (.vcvt c d a b k) = some o) :
    ∃ op, execVcvt c d a b k s = s.operate (.vcvt c d a b k) o.k.rimm (vD o.d :: o.srcs) op := by
  obtain ⟨⟨n, hn⟩⟩ := c
  obtain rfl := Option.some.inj h
  interval_cases n
  all_goals exact State.vPart_operates ..

/-- Every lane-wise instruction is an operation on the operands of its row of the table. -/
theorem exec_vOp {s : State} {i : Instr} {o : VOp} (h : vOp s i = some o) :
    ∃ op, exec i s = s.operate i o.k.rimm (vD o.d :: o.srcs) op := by
  by_cases hc : ∃ c d a b k, i = .vcvt c d a b k
  · obtain ⟨c, d, a, b, k, rfl⟩ := hc
    exact execVcvt_operates h
  · unfold vOp at h
    split at h
    case h_25 => exact absurd ⟨_, _, _, _, _, rfl⟩ hc
    all_goals cases h
    all_goals exact State.vPart_operates ..

theorem exec_relOps {s : State} {i : Instr} {off : BitVec 6} {ops : List Opnd} (h : relOps s i = some (off, ops)) :
    ∃ op, exec i s = s.operate i off ops op := by
  unfold relOps at h
  split at h
  next o ho =>
    cases h
    exact ⟨_, exec_fpOp ho⟩
  next =>
    split at h
    next o ho =>
      cases h
      exact exec_vOp ho
    next => cases h

/-! ## FMV.X -/

theorem popsOf_unbound {c : Ctx} {us : List Use} (h : ∀ u ∈ us, c.bound u.isV u.reg = none) (k : BitVec 2) : popsOf c k us = 0 := by
  simp only [popsOf, List.length_eq_zero_iff, List.filter_eq_nil_iff]
  intro u hu
  simp [h u hu]

theorem State.popAll_of_noPops {s : State} {us : List Use} (h : ∀ k, popsOf s.ctx k us = 0) : s.popAll us = s := by
  simp only [State.popAll, h, if_pos]
  congr 2
  ext n hn
  simp

@[simp] theorem State.orFlags_zero (s : State) : s.orFlags 0#5 = s := by simp [State.orFlags]

/-- An f source that no stream is bound to is supplied, by its register. -/
theorem supplied_unbound {s : State} {r : Reg} (h : s.ctx.bound false r = none) :
    Supplied s [⟨false, r, .src⟩] [(s.f r).zeroExtend 512] := by
  have hpops := popsOf_unbound (c := s.ctx) (us := [⟨false, r, .src⟩]) (by simpa using h)
  refine ⟨fun k => by simp [hpops], rfl, fun p q u hus _ => ?_, fun p q u k hus hr _ => ?_, ?_⟩
  · cases p with
    | nil =>
      obtain ⟨rfl, rfl⟩ := List.cons.inj hus
      simp [State.delivered, h]
    | cons x p => simp at hus
  · have hu : u ∈ ([⟨false, r, .src⟩] : List Use) := by simp [hus]
    simp at hu
    simp [hu] at hr
  · simp [State.pushesReady, pushed, pushesOf]

/-- FMV.X of a register that it selects and no stream is bound to. -/
theorem execFmvX_done {s : State} {d : Reg} {a : ROp} {f : Fmt} {rimm : BitVec 6} {r : Reg}
    (ho : openUses (.fmvX d a f rimm) s.ctx rimm [fS a] = .ok [⟨false, r, .src⟩]) (hb : s.ctx.bound false r = none) :
    Done (.fmvX d a f rimm) s (s.setX d (fmtBits f (s.f r))) 8 := by
  have h := fpResults s (.fmvX d a f rimm) _ _ _ rfl ho (supplied_unbound hb) (by simp [plainRes, State.fpTraps])
  have hpops := popsOf_unbound (c := s.ctx) (us := [⟨false, r, .src⟩]) (by simpa using hb)
  have hf : fv [(s.f r).zeroExtend 512] 0 = s.f r := by
    ext i hi
    simp [fv, sf, hi, Nat.lt_trans hi]
  simpa [plainRes, FOp.put, State.popAll_of_noPops hpops, hf] using h

/-- Settles O13: the rows of the operand checks, through which every such instruction comes to its operation. -/
theorem relativeOperands : Obligations.RelativeOperands := by
  intro s d n f rimm idx
  let o : Opnd := fS ⟨n, true⟩
  refine ⟨fun hlo hhi hb => ?_, fun hbad => ?_, fun i off ops _ hops => ?_⟩
  · have hgood : relGood s rimm o := ⟨hlo, hhi⟩
    exact execFmvX_done (openUses_ok (ops := [o]) (by simp [o, fS]) (by simpa [o, fS] using ⟨hgood, hb⟩)) hb
  · have hgood : ¬relGood s rimm o := fun ⟨hlo, hhi⟩ => by
      change idx.toInt < 32 at hhi
      change 0 ≤ idx.toInt at hlo
      omega
    exact (exec_fpOp (i := .fmvX d ⟨n, true⟩ f rimm) rfl).trans
      (State.operate_error (openUses_regidx (o := o) (p := []) (q := []) (by simp [o, fS]) (by simp) rfl hgood))
  · obtain ⟨op, hexec⟩ := exec_relOps hops
    refine ⟨fun hv => ?_, fun hd => ⟨fun p q o hsplit hp hrel ho => ?_, fun hr => openUses_ok hd hr⟩⟩
    · refine hexec.trans (State.operate_error ?_)
      rw [openUses, checkDirect_beyond hv]
      rfl
    · subst hsplit
      exact hexec.trans (State.operate_error (openUses_regidx hd hp hrel ho))

end Sys2Proof.Machine
end

section
/-! Words put together from fields, and the stream instructions that set up, start, stop and read streams (06 R135 to R140). -/

namespace Sys2Proof.Machine

open Sys2Proof

/-! ## Words from fields -/

/-- A word that holds the number `n`, in its low `k` bits. -/
def Spells (w : Word) (n k : Nat) : Prop := w.toNat = n ∧ n < 2 ^ k

theorem Spells.eq {w : Word} {n k : Nat} (h : Spells w n k) : w = ofN n := by
  rw [← h.1, ofN, BitVec.ofNat_toNat, BitVec.setWidth_eq]

theorem Spells.widen {w : Word} {n k : Nat} (h : Spells w n k) {m : Nat} (hkm : k ≤ m) : Spells w n m :=
  ⟨h.1, h.2.trans_le (Nat.pow_le_pow_right (by decide) hkm)⟩

/-- A field of `m` bits above `k` bits. -/
theorem Spells.above {w : Word} {n k : Nat} (h : Spells w n k) {m : Nat} (b : BitVec m) (hm : k + m ≤ 64) :
    Spells (n64 b <<< k ||| w) (n + b.toNat * 2 ^ k) (k + m) := by
  obtain ⟨hw, hn⟩ := h
  have hlt : n + b.toNat * 2 ^ k < 2 ^ (k + m) := by
    have := b.isLt
    rw [Nat.pow_add]
    nlinarith [Nat.two_pow_pos k]
  have h64 : 2 ^ (k + m) ≤ 2 ^ 64 := Nat.pow_le_pow_right (by decide) hm
  refine ⟨?_, hlt⟩
  have hb : b.toNat < 2 ^ 64 := b.isLt.trans_le (Nat.pow_le_pow_right (by decide) (by omega))
  rw [BitVec.toNat_or, BitVec.toNat_shiftLeft, n64, BitVec.toNat_setWidth, Nat.mod_eq_of_lt hb, Nat.shiftLeft_eq,
    Nat.mod_eq_of_lt (by omega), hw, Nat.mul_comm, ← Nat.two_pow_add_eq_or_of_lt hn, Nat.add_comm]

theorem bitAt_eq (b : Bool) (i : Nat) : bitAt b i = n64 (BitVec.ofBool b) <<< i := by cases b <;> simp [bitAt, n64]

/-- One bit above `k` bits. -/
theorem Spells.bit {w : Word} {n k : Nat} (h : Spells w n k) (b : Bool) (hk : k < 64) :
    Spells (bitAt b k ||| w) (n + b.toNat * 2 ^ k) (k + 1) := by
  rw [bitAt_eq]
  simpa using h.above (BitVec.ofBool b) hk

theorem spells_bit (b : Bool) : Spells (bitAt b 0) b.toNat 1 := by cases b <;> exact ⟨rfl, by decide⟩

theorem spells_field {m : Nat} (b : BitVec m) (hm : m ≤ 64) : Spells (n64 b) b.toNat m :=
  ⟨BitVec.toNat_setWidth_of_le hm, b.isLt⟩

/-- The low `n` bits of a word. -/
theorem and_low (v : Word) {n : Nat} (h : n ≤ 64) : v &&& BitVec.ofNat 64 (2 ^ n - 1) = ofN (v.toNat % 2 ^ n) := by
  have h64 : 2 ^ n ≤ 2 ^ 64 := Nat.pow_le_pow_right (by decide) h
  have hpos : 0 < 2 ^ n := Nat.two_pow_pos n
  apply BitVec.eq_of_toNat_eq
  rw [BitVec.toNat_and, BitVec.toNat_ofNat, Nat.mod_eq_of_lt (by omega), Nat.and_two_pow_sub_one_eq_mod, ofN, BitVec.toNat_ofNat,
    Nat.mod_eq_of_lt ((Nat.mod_lt _ hpos).trans_le h64)]

/-- A word without its low `n` bits. -/
theorem and_high (v : Word) (n : Nat) : v &&& BitVec.allOnes 64 <<< n = ofN (v.toNat / 2 ^ n * 2 ^ n) := by
  rw [← BitVec.shiftLeft_ushiftRight]
  apply BitVec.eq_of_toNat_eq
  rw [BitVec.toNat_shiftLeft, BitVec.toNat_ushiftRight, Nat.shiftLeft_eq, Nat.shiftRight_eq_div_pow, ofN, BitVec.toNat_ofNat]

theorem extractLsb'_zero (v : Word) (n : Nat) : v.extractLsb' 0 n = BitVec.ofNat n v.toNat := by
  rw [BitVec.extractLsb', Nat.shiftRight_zero]

/-! ## SCFG (R137) -/

/-- A pattern with the register at an offset written. -/
def Pattern.written (p : Pattern) (off : Nat) (v : Word) : Pattern :=
  match off with
  | 0 => { p with dims := v.extractLsb' 7 2, ind := v.getLsbD 6, wid := v.extractLsb' 3 3, dir := v.getLsbD 2 }
  | 1 => { p with base := v }
  | 2 => { p with bnd := p.bnd.set 0 (v.extractLsb' 0 32) }
  | 3 => { p with bnd := p.bnd.set 1 (v.extractLsb' 0 32) }
  | 4 => { p with bnd := p.bnd.set 2 (v.extractLsb' 0 32) }
  | 5 => { p with bnd := p.bnd.set 3 (v.extractLsb' 0 32) }
  | 6 => { p with stride := p.stride.set 0 (v.extractLsb' 0 32) }
  | 7 => { p with stride := p.stride.set 1 (v.extractLsb' 0 32) }
  | 8 => { p with stride := p.stride.set 2 (v.extractLsb' 0 32) }
  | 9 => { p with stride := p.stride.set 3 (v.extractLsb' 0 32) }
  | _ => { p with idx := v }

theorem writePattern_eq (k : BitVec 2) (off : Nat) (v : Word) (s : State) : writePattern k off v s =
    s.setStream k { s.stream k with pending := (s.stream k).pending.written off v } := by
  unfold writePattern Pattern.written; rfl

theorem badSctl_iff (off : Nat) (v : Word) : badSctl off v = true ↔ off = 0 ∧ 4 < v.toNat / 8 % 8 := by
  simp [badSctl, Nat.shiftRight_eq_div_pow]

/-- Each field is the value written at its own offset and what it was at the others. -/
theorem Pattern.written_fields (p : Pattern) {off : Nat} (v : Word) (h : off ≤ 10) :
    let q := p.written off v
    (q.dims, q.ind, q.wid, q.dir) =
      (if off = 0 then (v.extractLsb' 7 2, v.getLsbD 6, v.extractLsb' 3 3, v.getLsbD 2) else (p.dims, p.ind, p.wid, p.dir)) ∧
    q.base = (if off = 1 then v else p.base) ∧ q.idx = (if off = 10 then v else p.idx) ∧
    (∀ n : Fin 4, q.bnd[n] = if off = 2 + n then v.extractLsb' 0 32 else p.bnd[n]) ∧
    (∀ n : Fin 4, q.stride[n] = if off = 6 + n then v.extractLsb' 0 32 else p.stride[n]) := by
  interval_cases off
  all_goals refine ⟨rfl, rfl, rfl, fun n => ?_, fun n => ?_⟩
  all_goals fin_cases n <;> simp [Pattern.written]

theorem streamConfig : Claim.StreamConfig := by
  intro s k r a hr v p i
  have hr0 : r = 0 ↔ r.toNat = 0 := by rw [← BitVec.toNat_inj]; rfl
  have hr1 : r = 1 ↔ r.toNat = 1 := by rw [← BitVec.toNat_inj]; rfl
  have hr10 : r = 10 ↔ r.toNat = 10 := by rw [← BitVec.toNat_inj]; rfl
  have hexec : exec i s = checked s (require (!badSctl r.toNat v) (illegal i)) fun _ =>
      State.retire 8 (s.setStream k { s.stream k with pending := p.written r.toNat v }) := by
    simp only [p, ← writePattern_eq]; rfl
  refine ⟨fun h0 hw => ?_, fun hok => ⟨p.written r.toNat v, ?_, ?_⟩⟩
  · rw [Traps, hexec, (badSctl_iff ..).mpr ⟨hr0.mp h0, hw⟩]
    rfl
  · have hgood : badSctl r.toNat v = false := by
      rw [Bool.eq_false_iff]
      exact fun h => hok ((badSctl_iff ..).mp h |>.imp_left hr0.mpr)
    refine done_of_retire (.setStream ..) (hexec.trans ?_)
    rw [hgood]
    rfl
  · simp only [hr0, hr1, hr10]
    exact p.written_fields v hr

/-! ## SSTART, SSTOP, SSTAT -/

/-- The element that SSTAT names: the one in the fault slot, else the next one (R140). -/
def Stream.statElem (t : Stream) : Nat :=
  match t.flt with
  | some e => e.n
  | none => t.spos.toNat % 2 ^ 48

theorem sstat_word (t : Stream) (h : ∀ e, t.flt = some e → e.n < 2 ^ 48) : t.stat = ofN (
    t.statElem + t.active.toNat * 2 ^ 56 + t.ended.toNat * 2 ^ 57 + t.flt.isSome.toNat * 2 ^ 58 + t.act.dir.toNat * 2 ^ 59) := by
  have hlow : Spells (match t.flt with | some f => BitVec.ofNat 64 f.n | none => t.spos &&& 0xFFFFFFFFFFFF) t.statElem 48 := by
    unfold Stream.statElem
    cases hf : t.flt with
    | some e =>
      have := h e hf
      exact ⟨by simp; omega, this⟩
    | none =>
      have hmask : t.spos &&& 0xFFFFFFFFFFFF = ofN (t.spos.toNat % 2 ^ 48) := and_low t.spos (by decide : 48 ≤ 64)
      have hlt : t.spos.toNat % 2 ^ 48 < 2 ^ 48 := Nat.mod_lt _ (by decide)
      refine ⟨?_, hlt⟩
      change (t.spos &&& 0xFFFFFFFFFFFF).toNat = _
      rw [hmask, ofN, BitVec.toNat_ofNat, Nat.mod_eq_of_lt (hlt.trans (by decide))]
  have hall := ((((hlow.widen (by decide : 48 ≤ 56)).bit t.active (by decide)).bit t.ended (by decide)).bit t.flt.isSome
    (by decide)).bit t.act.dir (by decide)
  refine Eq.trans ?_ hall.eq
  simp only [Stream.stat, BitVec.or_assoc] <;> rfl

theorem Stream.stop_of_active {t : Stream} (h : t.active = true) :
    t.stop = { t with active := false, bv := false, breg := 0, flt := none, got := [], part := .none } := if_pos h

theorem Stream.stop_of_ended {t : Stream} (h : t.active = false) : t.stop = t := by simp [Stream.stop, h]

@[simp] theorem Stream.stop_pending (t : Stream) : t.stop.pending = t.pending := by unfold Stream.stop; split <;> rfl
@[simp] theorem Stream.stop_pushes (t : Stream) : t.stop.pushes = t.pushes := by unfold Stream.stop; split <;> rfl

/-- A stream that SSTART has started on a register (R138). -/
def Stream.started (t : Stream) (bv : Bool) (d : Reg) : Stream where
  act := t.pending
  pending := t.pending
  active := true
  ended := decide (t.pending.total = 0)
  flt := none
  bv := bv
  breg := d
  spos := 0
  sflt := 0
  got := []
  pushes := t.pushes
  part := .none

/-- What SSTART asks of the register, of the pattern and of the other streams, as the model computes it (R135, R136, R138). -/
def State.mayStart (s : State) (k : BitVec 2) (d : Reg) (bv : Bool) : Bool :=
  !(bv && decide (s.ctx.valloc.toNat ≤ d.toNat)) && (s.stream k).pending.matchesFile bv &&
    (match s.ctx.bound bv d with | none => true | some j => j == k) && decide ((s.stream k).pending.total < 2 ^ 48)

theorem exec_sstart (s : State) (k : BitVec 2) (d : Reg) (bv : Bool) : exec (.sstart k d bv) s =
    checked s (require (s.mayStart k d bv) (illegal (.sstart k d bv))) fun _ =>
      State.retire 8 (s.setStream k ((s.stream k).started bv d)) := by
  have hstart : (s.stream k).started bv d =
      { (s.stream k).stop with
        act := (s.stream k).pending, active := true, ended := decide ((s.stream k).pending.total = 0), flt := none, bv := bv,
        breg := d, spos := 0, sflt := 0, got := [], part := .none } := by
    simp [Stream.started]
  rw [hstart]
  rfl

theorem Pattern.matchesFile_iff (p : Pattern) (bv : Bool) :
    p.matchesFile bv = true ↔ if bv then p.wid.toNat = 4 else p.wid.toNat ≤ 3 := by
  cases bv
  · simp [Pattern.matchesFile]
  · simp only [Pattern.matchesFile, if_true, beq_iff_eq, ← BitVec.toNat_inj]
    rfl

theorem State.mayStart_iff (s : State) (k : BitVec 2) (d : Reg) (bv : Bool) : s.mayStart k d bv = true ↔
    (bv = true → d.toNat < s.ctx.valloc.toNat) ∧
      (if bv then (s.stream k).pending.wid.toNat = 4 else (s.stream k).pending.wid.toNat ≤ 3) ∧
      (∀ j, s.ctx.bound bv d = some j → j = k) ∧ (s.stream k).pending.total < 2 ^ 48 := by
  have hbound : (match s.ctx.bound bv d with | none => true | some j => j == k) = true ↔
      ∀ j, s.ctx.bound bv d = some j → j = k := by
    cases s.ctx.bound bv d <;> simp
  simp only [State.mayStart, Bool.and_eq_true, hbound, Pattern.matchesFile_iff, decide_eq_true_eq, and_assoc]
  cases bv <;> simp

theorem streamControl : Claim.StreamControl := by
  intro s k d bv t hflt w ok
  have hok : s.mayStart k d bv = true ↔ ok := s.mayStart_iff k d bv
  refine ⟨fun h => done_of_retire (.setStream ..) ((exec_sstart ..).trans ?_), fun h => (exec_sstart ..).trans ?_,
    fun h => done_of_retire (.setStream ..) ?_, fun h => done_of_retire (.refl s) ?_, done_of_retire (.setX ..) ?_⟩
  · rw [hok.mpr h]
    rfl
  · rw [Bool.eq_false_iff.mpr (mt hok.mp h)]
    rfl
  · rw [← Stream.stop_of_active h]
    rfl
  · change Host.Outcome.next (State.retire 8 (s.setStream k t.stop)) = _
    rw [Stream.stop_of_ended h, State.setStream_self]
  · exact congrArg (fun v => Host.Outcome.next (State.retire 8 (s.setX d v))) (sstat_word t hflt)

/-- Settles O43: the pattern registers are written apart, and the other stream instructions are their stream's update. -/
theorem streamSetup : Obligations.StreamSetup := ⟨streamConfig, streamControl⟩

end Sys2Proof.Machine
end

section
/-! The writes of CSRs that are steps of their own (01 R21, R25, R26, 06 R148, R152, 09 R231, 15 R364, 16 R367, R368, R376 to R378). -/

namespace Sys2Proof.Machine

open Sys2Proof

/-- A refused write of the CSR at PC traps. -/
theorem put_error {s : State} {r : Except Trap State} {t : Trap} (h : r = .error t) : s.put r = .next (s.trap t) := by rw [h]; rfl

theorem put_ok {s t : State} {r : Except Trap State} (h : r = .ok t) : s.put r = .next t := by rw [h]; rfl

/-! ## Values refused and accepted -/

theorem writeHres_zero {v : Word} (h : v.toNat % 8 = 0) (r : Refuse) (s : State) : writeHres v r s = .error r.enc := by
  rw [writeHres, extractLsb'_zero, if_pos]
  exact BitVec.eq_of_toNat_eq h

theorem writeHres_ne_zero {v : Word} (h : v.toNat % 8 ≠ 0) (r : Refuse) (s : State) :
    writeHres v r s = .ok { s with core := { s.core with hres := BitVec.ofNat 3 v.toNat } } := by
  rw [writeHres, extractLsb'_zero, if_neg]
  exact fun he => h (congrArg BitVec.toNat he)

theorem writePrio_eq (v : Word) (s : State) : writePrio v s =
    { s with ctx := { s.ctx with lvl := BitVec.ofNat 7 v.toNat, eff := BitVec.ofNat 7 v.toNat, aging := 0 } } := by
  rw [writePrio, extractLsb'_zero]

/-- After a write of CYCLE its next value is the one written. -/
theorem writeCycle_cycle (v : Word) (s : State) : (writeCycle v s).cycle + 1 = v := by
  change (s.island (islandOf s.k)).cycle + (v - ((s.island (islandOf s.k)).cycle + 1)) + 1 = v
  bv_omega

theorem writeSpos_inactive {s : State} {k : BitVec 2} (v : Word) (h : (s.stream k).active = false) :
    writeSpos k v s = s.setStream k { s.stream k with spos := ofN (v.toNat % 2 ^ 48) } := by
  have hp : v &&& 0xFFFFFFFFFFFF = ofN (v.toNat % 2 ^ 48) := and_low v (by decide : 48 ≤ 64)
  rw [← hp]
  exact if_neg (by simp [h])

theorem writeSpos_active {s : State} {k : BitVec 2} (v : Word) (h : (s.stream k).active = true) :
    writeSpos k v s = s.setStream k { s.stream k with
      spos := ofN (v.toNat % 2 ^ 48), got := [], part := .none, flt := none
      ended := decide ((s.stream k).act.total ≤ (ofN (v.toNat % 2 ^ 48)).toNat) } := by
  have hp : v &&& 0xFFFFFFFFFFFF = ofN (v.toNat % 2 ^ 48) := and_low v (by decide : 48 ≤ 64)
  rw [← hp]
  exact if_pos h

theorem writeWdrpc_eq (v : Word) (s : State) :
    writeWdrpc v s = { s with ctx := { s.ctx with wd := { s.ctx.wd with rpc := ofN (v.toNat / 4 * 4) } } } := by
  have hp : v &&& 0xFFFFFFFFFFFFFFFC = ofN (v.toNat / 4 * 4) := and_high v 2
  rw [← hp]
  rfl

/-! ## Monitors -/

/-- The fields of a monitor after a write: the value's, but FIRED, which a 1 clears. -/
theorem writeMon_fields (v : Word) (fired : Bool) :
    let m := v &&& csrRw 0x410 ||| bitAt fired 1
    m.extractLsb' 7 57 = v.extractLsb' 7 57 ∧ m.getLsbD 0 = v.getLsbD 0 ∧ m.getLsbD 1 = fired := by
  have hrw : csrRw 0x410 = BitVec.allOnes 64 <<< 7 ||| 1#64 := by decide
  simp only [hrw, bitAt_eq, n64]
  refine ⟨?_, by simp, by simp⟩
  ext i hi
  have h64 : 7 + i < 64 := by omega
  have hne : ¬7 + i = 0 := by omega
  simp only [BitVec.getElem_extractLsb', BitVec.getLsbD_or, BitVec.getLsbD_and, BitVec.getLsbD_shiftLeft, BitVec.getLsbD_allOnes,
    BitVec.getLsbD_one, BitVec.getLsbD_setWidth]
  simp [h64, show ¬7 + i < 1 by omega, show i < 64 by omega]

/-! ## DRPST (16 R368) -/

theorem Island.writeSt_later {x : Island} {k j : Nat} (hj : x.stBy = some j) (h : k < j) (n : BitVec 16) (m : BitVec 8) :
    x.writeSt k n m = x := by
  rw [Island.writeSt, if_neg]
  simp [stands, hj, h]

/-- A write that stands; what the detector did in the cycle is counted after it. -/
theorem Island.writeSt_stands {x : Island} {k : Nat} (h : ∀ j, x.stBy = some j → j ≤ k) (n : BitVec 16) (m : BitVec 8) :
    x.writeSt k n m = Island.detect { x with cnt0 := n, mrg0 := m, stBy := some k } := by
  rw [Island.writeSt, if_pos]
  cases hb : x.stBy with
  | none => rfl
  | some j => simpa [stands] using h j hb

/-! ## Shapes, replays, counters -/

theorem writeTshape_cases (t : Tile) (v : Word) (r : Refuse) (s : State) :
    let sh : TShape := ⟨v.extractLsb' 16 7, v.extractLsb' 8 5, v.extractLsb' 0 3⟩
    (4 < sh.wid.toNat → writeTshape t v r s = .error r.enc) ∧
    (sh.wid.toNat ≤ 4 → 128 < (sh.cols.toNat + 1) * tileBytes sh.wid → writeTshape t v r s = .error r.own) ∧
    (sh.wid.toNat ≤ 4 → (sh.cols.toNat + 1) * tileBytes sh.wid ≤ 128 → writeTshape t v r s = .ok (s.setTshape t sh)) := by
  intro sh
  have hdef : writeTshape t v r s =
      if 4 < sh.wid.toNat then .error r.enc else if !sh.fits then .error r.own else .ok (s.setTshape t sh) := rfl
  rw [hdef, TShape.fits]
  refine ⟨fun h => if_pos h, fun h hf => ?_, fun h hf => ?_⟩
  · rw [if_neg (by omega), if_pos (by simpa using hf)]
  · rw [if_neg (by omega), if_neg (by simpa using hf)]

theorem writeFrepit_count (v : Word) (r : Refuse) (s : State) : writeFrepit true v r s =
    .ok { s with ctx := { s.ctx with rep := { s.ctx.rep with cnt := BitVec.ofNat 32 v.toNat } } } := by
  rw [← extractLsb'_zero]
  rfl

theorem writeFrepit_refused {v : Word} {s : State} (h : s.ctx.rep.act = true)
    (hs : s.ctx.rep.len.toNat ≤ (v.extractLsb' 32 4).toNat) (r : Refuse) : writeFrepit false v r s = .error r.own :=
  if_pos (by simp only [h, decide_eq_true hs, Bool.and_self])

theorem writeFrepit_place {v : Word} {s : State} (h : s.ctx.rep.act = false ∨ (v.extractLsb' 32 4).toNat < s.ctx.rep.len.toNat)
    (r : Refuse) : writeFrepit false v r s = .ok { s with ctx := { s.ctx with rep := { s.ctx.rep with
      bt := v.getLsbD 63, slot := v.extractLsb' 32 4, iter := BitVec.ofNat 32 v.toNat } } } := by
  rw [← extractLsb'_zero]
  refine if_neg ?_
  rw [Bool.and_eq_true, decide_eq_true_eq]
  rintro ⟨hact, hs⟩
  rcases h with h | h
  · rw [h] at hact
    cases hact
  · omega

theorem writePsat_eq (v : Word) (s : State) : writePsat v s = { s with ctx := { s.ctx with psat := BitVec.ofNat 32 v.toNat } } := by
  rw [writePsat, extractLsb'_zero]

theorem writePmc_eq (n : BitVec 3) (v : Word) (s : State) : writePmc n v s =
    { s with core := { s.core with pmc := s.core.pmc.set n.toNat (BitVec.ofNat 48 v.toNat) n.isLt } } := by
  rw [writePmc, extractLsb'_zero]

theorem writeGqjob_eq (v : Word) (s : State) :
    writeGqjob v s = { s with core := { s.core with gqCount := BitVec.ofNat 32 v.toNat, gqNext := 0 } } := by
  rw [writeGqjob, extractLsb'_zero]

/-- A counter at its maximum that counts starts again at 0 and sets its bit of PMCOVF. -/
theorem Core.pmcBump_wraps {c : Core} {n : Fin 8} (h : c.pmc[n] = BitVec.allOnes 48) :
    c.pmcBump n = { c with pmc := c.pmc.set n.val 0 n.isLt, pmcovf := c.pmcovf ||| ((1 : BitVec 8) <<< n.val) } := if_pos h

theorem writeMon_refused {v : Word} (h : 8 < (v.extractLsb' 28 4).toNat ∨ 5 < (v.extractLsb' 9 3).toNat) (n : BitVec 3)
    (w1c : Bool) (r : Refuse) (s : State) : writeMon n v w1c r s = .error r.enc :=
  if_pos (by rw [Bool.or_eq_true, decide_eq_true_eq, decide_eq_true_eq]; exact h)

theorem writeMon_ok {v : Word} (ha : (v.extractLsb' 28 4).toNat ≤ 8) (hb : (v.extractLsb' 9 3).toNat ≤ 5) (n : BitVec 3)
    (w1c : Bool) (r : Refuse) (s : State) : writeMon n v w1c r s =
      let fired := (s.core.mon[n.toNat]'(n.isLt)).getLsbD 1 && !(w1c && v.getLsbD 1)
      .ok { s with core := { s.core with mon := s.core.mon.set n.toNat (v &&& csrRw 0x410 ||| bitAt fired 1) n.isLt } } :=
  if_neg (by rw [Bool.or_eq_true, decide_eq_true_eq, decide_eq_true_eq]; omega)

/-! ## The steps -/

theorem next_congr {s t : State} (h : s = t) : (Host.Outcome.next s : Out) = .next t := congrArg _ h

theorem pmcOverflow_gives (s : State) (n : BitVec 3) : ∃ u, Gives (.pmcOverflow s.k n) s u ∧ u.ctx = s.ctx ∧
    (s.core.pmc[n.toNat]'(n.isLt) = BitVec.allOnes 48 →
      u.core.pmc[n.toNat]'(n.isLt) = 0 ∧ u.core.pmcovf = s.core.pmcovf ||| ((1 : BitVec 8) <<< n.toNat)) := by
  refine ⟨_, rfl, ?_, fun h => ?_⟩
  · split
    · rw [State.modCore, State.setCore_ctx]
    · rfl
  · have hcore : (s.modCore s.k (·.pmcBump ⟨n.toNat, n.isLt⟩)).core = s.core.pmcBump ⟨n.toNat, n.isLt⟩ := by
      simp [State.modCore, State.setCore]
    rw [if_pos (by simpa using h), hcore, Core.pmcBump_wraps (n := ⟨n.toNat, n.isLt⟩) h]
    simp

theorem monWrite_gives {v : Word} (ha : (v.extractLsb' 28 4).toNat ≤ 8) (hb : (v.extractLsb' 9 3).toNat ≤ 5) (n : BitVec 3)
    (s : State) : ∃ u, Gives (.monWrite n v) s u ∧ u.ctx = s.ctx ∧
      let m := u.core.mon[n.toNat]'(n.isLt)
      m.extractLsb' 7 57 = v.extractLsb' 7 57 ∧ m.getLsbD 0 = v.getLsbD 0 ∧
      m.getLsbD 1 = ((s.core.mon[n.toNat]'(n.isLt)).getLsbD 1 && !v.getLsbD 1) := by
  refine ⟨_, put_ok (writeMon_ok ha hb n true s.refuse s), rfl, ?_⟩
  simpa using writeMon_fields v ((s.core.mon[n.toNat]'(n.isLt)).getLsbD 1 && !v.getLsbD 1)

/-- Counting stops at the greatest value. -/
theorem saturating {w : Nat} (n : BitVec w) (hw : 0 < w) :
    (if n != BitVec.allOnes w then n + 1 else n) = BitVec.ofNat w (min (n.toNat + 1) (2 ^ w - 1)) := by
  have hn := n.isLt
  have h1 : 1 < 2 ^ w := Nat.one_lt_two_pow hw.ne'
  by_cases h : n = BitVec.allOnes w
  · subst h
    rw [if_neg (by simp), BitVec.toNat_allOnes, min_eq_right (by omega)]
    apply BitVec.eq_of_toNat_eq
    rw [BitVec.toNat_allOnes, BitVec.toNat_ofNat, Nat.mod_eq_of_lt (by omega)]
  · have hlt : n.toNat ≠ 2 ^ w - 1 := fun he => h (BitVec.eq_of_toNat_eq (by rw [he, BitVec.toNat_allOnes]))
    rw [if_pos (by simpa using h), min_eq_left (by omega), BitVec.ofNat_add, BitVec.ofNat_toNat, BitVec.setWidth_eq]
    rfl

/-- A write of DRPST that stands, by what the detector did in the cycle. -/
theorem writeDrpst_stands {s : State} (v : Word) (h : ∀ j, (s.island (islandOf s.k)).stBy = some j → j ≤ s.k) :
    let x := s.island (islandOf s.k)
    let n := v.extractLsb' 16 16
    let m := v.extractLsb' 8 8
    let wrote (cnt : BitVec 16) (mrg : BitVec 8) : Prop := writeDrpst v s = s.setIsland (islandOf s.k) { x with
      cnt0 := n, mrg0 := m, stBy := some s.k, cnt := cnt, mrg := mrg }
    (x.fell = 0 → wrote n m) ∧ (x.fell = 1 → wrote (BitVec.ofNat 16 (min (n.toNat + 1) 0xFFFF)) m) ∧
    (x.fell = 2 → wrote n (BitVec.ofNat 8 (min (m.toNat + 1) 0xFF))) := by
  intro x n m wrote
  have hw (c : BitVec 16) (g : BitVec 8) (hc : (if x.fell = 1 && n != 0xFFFF then n + 1 else n) = c)
      (hg : (if x.fell = 2 && m != 0xFF then m + 1 else m) = g) : wrote c g := by
    subst hc hg
    exact congrArg (s.setIsland (islandOf s.k)) (Island.writeSt_stands h n m)
  refine ⟨fun h0 => hw _ _ ?_ ?_, fun h1 => hw _ _ ?_ ?_, fun h2 => hw _ _ ?_ ?_⟩
  · simp [h0]
  · simp [h0]
  · simpa [h1] using saturating n (by decide)
  · simp [h1]
  · simp [h2]
  · simpa [h2] using saturating m (by decide)

/-- Settles O37: each step is its write, whose value is refused, or accepted and written as its rule says. -/
theorem csrWriteSteps : Obligations.CsrWriteSteps := by
  intro s v t k n csr bad ctx isl
  obtain ⟨hwid, hbig, hfits⟩ := writeTshape_cases t v s.refuse s
  refine ⟨fun h => put_error (writeHres_zero h ..), fun h => put_ok (writeHres_ne_zero h ..), next_congr (writePrio_eq v s),
    ⟨_, rfl, writeCycle_cycle v s, rfl, rfl⟩,
    ⟨fun h => put_error (hwid h), fun h hb => put_error (hbig h hb), fun h hf => put_ok (hfits h hf)⟩,
    ⟨fun h => next_congr (writeSpos_inactive v h), fun h => next_congr (writeSpos_active v h)⟩,
    ⟨put_ok (s := s) (writeFrepit_count v s.refuse s), fun ha hs => put_error (writeFrepit_refused ha hs _), fun h => put_ok (writeFrepit_place h _)⟩,
    next_congr (writeWdrpc_eq v s), next_congr (writePsat_eq v s), next_congr (writePmc_eq n v s), pmcOverflow_gives s n,
    fun h => put_error (writeMon_refused h ..), fun ha hb => monWrite_gives ha hb n s,
    ⟨fun j hj hlt => next_congr (congrArg _ (Island.writeSt_later hj hlt ..)), fun h => ?_⟩, next_congr (writeGqjob_eq v s),
    fun r w u hacc hput => ?_⟩
  · obtain ⟨h0, h1, h2⟩ := writeDrpst_stands v h
    exact ⟨fun h => next_congr (h0 h), fun h => next_congr (h1 h), fun h => next_congr (h2 h)⟩
  · change execCsrWrite csr v s = _
    rw [execCsrWrite, hacc]
    exact put_ok hput

end Sys2Proof.Machine
end

section
/-! Reading and writing CSRs (01 R17 to R26, 13 R334): who may, what is written, and what every write leaves as it was. -/

namespace Sys2Proof.Machine

open Sys2Proof

/-! ## The checks of R334 -/

theorem csrCheck_unallocated {s : State} {a : Nat} (h : csrAccess s.k a = none) (i : Instr) (rd wr : Bool) :
    csrCheck i a rd wr s = .error (illegalPriv i) := by
  rw [csrCheck, h]

section
variable {s : State} {a : Nat} {r : BitVec 2} {w : Option (BitVec 2)} (h : csrAccess s.k a = some (r, w)) (i : Instr)
include h

/-- A read above the privilege is refused. -/
theorem csrCheck_read (hp : s.ctx.prv.toNat < r.toNat) (wr : Bool) : csrCheck i a true wr s = .error (illegalPriv i) := by
  simp [csrCheck, h, hp]

/-- A write that nothing may make, or of a register above the privilege, is refused. -/
theorem csrCheck_write (hw : ∀ p, w = some p → s.ctx.prv.toNat < p.toNat) (rd : Bool) :
    csrCheck i a rd true s = .error (illegalPriv i) := by
  cases w with
  | none => simp [csrCheck, h]
  | some p => simp [csrCheck, h, hw p rfl]

/-- An access within the privilege is refused only of the matrix unit's registers. -/
theorem csrCheck_allowed {rd wr : Bool} (hr : r.toNat ≤ s.ctx.prv.toNat)
    (hw : wr = true → ∃ p, w = some p ∧ p.toNat ≤ s.ctx.prv.toNat) : csrCheck i a rd wr s =
      if isTshape a && !isCompute s.k then .error (illegalMode i)
      else if isTshape a && !s.tclm then .error (tilebusy i) else .ok () := by
  have hrd : ¬s.ctx.prv.toNat < r.toNat := by omega
  cases wr with
  | false => simp [csrCheck, h, hrd]
  | true =>
    obtain ⟨p, rfl, hp⟩ := hw rfl
    simp [csrCheck, h, hrd, hp]

end

/-- The registers of the matrix unit may be read and written in every mode. -/
theorem csrAccess_tshape {k a : Nat} (h : isTshape a = true) : csrAccess k a = some (0, some 0) := by
  simp only [isTshape, Bool.and_eq_true, decide_eq_true_eq] at h
  obtain ⟨hlo, hhi⟩ := h
  interval_cases a <;> rfl

/-! ## The instructions -/

/-- A CSR instruction answers `out` when its checks let it. -/
def csrRun (s : State) (i : Instr) (a : Nat) (rd wr : Bool) (out : Out) : Out :=
  match csrCheck i a rd wr s with
  | .error t => .next (s.trap t)
  | .ok _ => out

theorem csrRun_error {s : State} {i : Instr} {a : Nat} {rd wr : Bool} {t : Trap} (h : csrCheck i a rd wr s = .error t) (out : Out) :
    csrRun s i a rd wr out = .next (s.trap t) := by rw [csrRun, h]

theorem csrRun_ok {s : State} {i : Instr} {a : Nat} {rd wr : Bool} (h : csrCheck i a rd wr s = .ok ()) (out : Out) :
    csrRun s i a rd wr out = out := by rw [csrRun, h]

theorem exec_csrr (s : State) (d : Reg) (n : BitVec 12) : exec (.csrr d n) s =
    csrRun s (.csrr d n) n.toNat true false (.next (State.retire 8 (s.setX d (s.csr n.toNat)))) := by
  change checked s (csrCheck (.csrr d n) n.toNat true false s) _ = _
  rw [csrRun]
  cases csrCheck (.csrr d n) n.toNat true false s <;> rfl

theorem exec_csrw (s : State) (d a : Reg) (n : BitVec 12) : exec (.csrw d n a) s =
    csrRun s (.csrw d n a) n.toNat (d != 0) true (s.csrWrite (.csrw d n a) n.toNat (s.x a) true d) := rfl

theorem exec_csrs (s : State) (d a : Reg) (n : BitVec 12) : exec (.csrs d n a) s =
    csrRun s (.csrs d n a) n.toNat (d != 0) true
      (s.csrWrite (.csrs d n a) n.toNat (s.csrBits n.toNat true (s.x a)) false d) := rfl

theorem exec_csrc (s : State) (d a : Reg) (n : BitVec 12) : exec (.csrc d n a) s =
    csrRun s (.csrc d n a) n.toNat (d != 0) true
      (s.csrWrite (.csrc d n a) n.toNat (s.csrBits n.toNat false (s.x a)) false d) := rfl

/-- A write that answers a state has moved no PC and neither started nor stopped the issue of a body instruction. -/
def KeepsControl (s : State) (r : Except Trap State) : Prop :=
  ∀ t, r = .ok t → t.ctx.pc = s.ctx.pc ∧ t.ctx.rep.issuing = s.ctx.rep.issuing

theorem KeepsControl.ite {s : State} {c : Prop} [Decidable c] {a b : Except Trap State} (ha : KeepsControl s a)
    (hb : KeepsControl s b) : KeepsControl s (if c then a else b) := by
  split
  · exact ha
  · exact hb

theorem writeSpos_setStream (k : BitVec 2) (v : Word) (s : State) : ∃ x, writeSpos k v s = s.setStream k x := by
  unfold writeSpos
  dsimp only
  split <;> exact ⟨_, rfl⟩

theorem csrPut_control (a : Nat) (v : Word) (w1c : Bool) (r : Refuse) (s : State) : KeepsControl s (csrPut a v w1c r s) := by
  have hspos (k : BitVec 2) : KeepsControl s (.ok (writeSpos k v s)) := by
    obtain ⟨x, hx⟩ := writeSpos_setStream k v s
    rw [hx]
    rintro _ ⟨⟩
    exact ⟨rfl, rfl⟩
  unfold csrPut
  repeat' apply KeepsControl.ite
  all_goals try exact hspos _
  all_goals rintro _ ⟨⟩
  all_goals exact ⟨rfl, rfl⟩

theorem csrWrite_done {s t : State} {i : Instr} {a : Nat} {v : Word} {w1c : Bool} {d : Reg} (hexec : exec i s = s.csrWrite i a v w1c d)
    (h : csrPut a v w1c (refuseOf i) s = .ok t) : CsrDone i s t d (s.csr a) := by
  obtain ⟨hpc, hissue⟩ := csrPut_control _ _ _ _ _ _ h
  rw [CsrDone, hexec, State.csrWrite, h, checked_ok, State.retire_eq]
  simp [nextPc, hpc, hissue]

theorem csrWrite_traps {s : State} {i : Instr} {a : Nat} {v : Word} {w1c : Bool} {d : Reg} {t : Trap}
    (hexec : exec i s = s.csrWrite i a v w1c d) (h : csrPut a v w1c (refuseOf i) s = .error t) : Traps i s t := by
  rw [Traps, hexec, State.csrWrite, h, checked_error]

/-- The end of a stretch or of a window leaves the counts. -/
theorem Island.settled_cnt (x : Island) : x.settled.cnt = x.cnt ∧ x.settled.mrg = x.mrg := by
  unfold Island.settled Island.endWindow Island.endStretch
  split <;> split <;> exact ⟨rfl, rfl⟩

theorem Island.drpst_word (x : Island) : x.drpst = ofN ((x.settled.stretch != 0).toNat + x.settled.window.isSome.toNat * 2 ^ 1 +
    x.mrg.toNat * 2 ^ 8 + x.cnt.toNat * 2 ^ 16 + x.settled.ltime.toNat * 2 ^ 32) := by
  obtain ⟨hn, hm⟩ := x.settled_cnt
  have hall := ((((spells_bit (x.settled.stretch != 0)).bit x.settled.window.isSome (by decide)).widen
    (by decide : 1 + 1 ≤ 8)).above x.settled.mrg (by decide)).above x.settled.cnt (by decide) |>.above x.settled.ltime (by decide)
  rw [← hn, ← hm]
  refine Eq.trans ?_ hall.eq
  simp only [Island.drpst, BitVec.or_assoc]

/-- Of DRPST the RW fields are the counts. -/
theorem Island.drpst_and_rw (x : Island) : x.drpst &&& csrRw 0x40A = ofN (x.cnt.toNat * 2 ^ 16 + x.mrg.toNat * 2 ^ 8) := by
  have hrw : csrRw 0x40A = BitVec.ofNat 64 (2 ^ 32 - 1) &&& BitVec.allOnes 64 <<< 8 := by decide
  rw [x.drpst_word, hrw, ← BitVec.and_assoc, and_low _ (by decide), and_high]
  have hcnt := x.cnt.isLt
  have hmrg := x.mrg.isLt
  have hlow := (x.settled.stretch != 0).toNat_le
  have hbit := x.settled.window.isSome.toNat_le
  have hlt := x.settled.ltime.isLt
  apply BitVec.eq_of_toNat_eq
  simp only [ofN, BitVec.toNat_ofNat]
  omega

/-- What CSRS and CSRC work on: of DRPST what it held before the detector counted in the cycle. -/
theorem csrHeld_and_rw (s : State) (q : Nat) :
    s.csrHeld q &&& csrRw q = if q = 0x40A
      then ofN ((s.island (islandOf s.k)).cnt0.toNat * 2 ^ 16 + (s.island (islandOf s.k)).mrg0.toNat * 2 ^ 8)
      else s.csr q &&& csrRw q := by
  by_cases hq : q = 0x40A
  · subst hq
    rw [if_pos rfl, State.csrHeld, if_pos rfl]
    exact Island.drpst_and_rw _
  · rw [if_neg hq, State.csrHeld, if_neg hq]

/-- In any mode a matrix unit's register is ILLEGAL, SUB 2, on a core without one and TILEBUSY without the claim. -/
theorem csrCheck_tshape {s : State} {a : Nat} (ht : isTshape a = true) (i : Instr) (rd wr : Bool) :
    (isCompute s.k = false → csrCheck i a rd wr s = .error ⟨1, 2, low64 i⟩) ∧
    (isCompute s.k = true → s.tclm = false → csrCheck i a rd wr s = .error ⟨12, 0, low64 i⟩) := by
  rw [csrCheck_allowed (csrAccess_tshape ht) i (Nat.zero_le _) fun _ => ⟨0, rfl, Nat.zero_le _⟩, ht]
  exact ⟨fun hc => by rw [hc]; rfl, fun hc hclaim => by rw [hc, hclaim]; rfl⟩

theorem csrInstructions : Claim.CsrInstructions := by
  intro s d a n q bad rw old x held
  have refused {t : Trap} (hr : csrCheck (.csrr d n) q true false s = .error t) : Traps (.csrr d n) s t :=
    (exec_csrr s d n).trans (csrRun_error hr _)
  have wrefused (t : Instr → Trap) (hr : ∀ i rd, csrCheck i q rd true s = .error (t i)) : Traps (.csrw d n a) s (t (.csrw d n a)) ∧
      Traps (.csrs d n a) s (t (.csrs d n a)) ∧ Traps (.csrc d n a) s (t (.csrc d n a)) :=
    ⟨(exec_csrw s d a n).trans (csrRun_error (hr ..) _), (exec_csrs s d a n).trans (csrRun_error (hr ..) _),
      (exec_csrc s d a n).trans (csrRun_error (hr ..) _)⟩
  refine ⟨fun h => ⟨refused (csrCheck_unallocated h ..), wrefused illegalPriv fun i rd => csrCheck_unallocated h ..⟩,
    fun r w h => ⟨fun hp => refused (csrCheck_read h _ hp _), fun ht i hi => ⟨fun hc => ?_, fun hc hclaim => ?_⟩,
      fun hw => wrefused illegalPriv fun i rd => csrCheck_write h i (by simp [hw]) rd,
      fun p hw hp => wrefused illegalPriv fun i rd => csrCheck_write h i (by rintro _ rfl; cases hw; exact hp) rd,
      fun hr hq => ?_, fun p hw hr hp hq => ?_⟩⟩
  · obtain ⟨hw, hs, hc'⟩ := wrefused illegalMode fun i rd => (csrCheck_tshape ht i rd true).1 hc
    have hr := refused ((csrCheck_tshape ht (.csrr d n) true false).1 hc)
    simp only [List.mem_cons, List.not_mem_nil, or_false] at hi
    rcases hi with rfl | rfl | rfl | rfl <;> assumption
  · obtain ⟨hw, hs, hc'⟩ := wrefused tilebusy fun i rd => (csrCheck_tshape ht i rd true).2 hc hclaim
    have hr := refused ((csrCheck_tshape ht (.csrr d n) true false).2 hc hclaim)
    simp only [List.mem_cons, List.not_mem_nil, or_false] at hi
    rcases hi with rfl | rfl | rfl | rfl <;> assumption
  · have hok : csrCheck (.csrr d n) q true false s = .ok () := by
      rw [csrCheck_allowed h _ hr (by simp)]
      rcases hq with hq | ⟨hclaim, hcomp⟩
      · simp [hq]
      · simp [hclaim, hcomp]
    exact done_of_retire (.setX ..) ((exec_csrr ..).trans (csrRun_ok hok _))
  · have hok (i : Instr) (rd : Bool) : csrCheck i q rd true s = .ok () := by
      rw [csrCheck_allowed h i hr fun _ => ⟨p, hw, hp⟩]
      rcases hq with hq | ⟨hclaim, hcomp⟩
      · simp [hq]
      · simp [hclaim, hcomp]
    have hbits (b : Bool) (y : Word) : s.csrBits q b y = if b then held ||| (y &&& rw) else held &&& ~~~y := by
      simp only [State.csrBits, csrHeld_and_rw]
      rfl
    have hw := (exec_csrw s d a n).trans (csrRun_ok (hok _ _) _)
    have hs := (exec_csrs s d a n).trans (csrRun_ok (hok _ _) _)
    have hc := (exec_csrc s d a n).trans (csrRun_ok (hok _ _) _)
    rw [hbits] at hs hc
    exact ⟨fun t => csrWrite_done hw, fun t => csrWrite_done hs, fun t => csrWrite_done hc, fun t => csrWrite_traps hw,
      fun t => csrWrite_traps hs, fun t => csrWrite_traps hc⟩

end Sys2Proof.Machine
end

section
/-! The CSRs that hold what is written, and those of several fields (01 R19 to R26, 09 R230, R231, 13 R320, 16 R367, R376, R377). -/

namespace Sys2Proof.Machine

open Sys2Proof

/-! ## Plain registers -/

/-- Of the addresses from 0x418 on only the station master's registers are allocated. -/
theorem csrAccess_high {k a : Nat} (h : (csrAccess k a).isSome = true) (ha : 0x418 ≤ a) : 0x800 ≤ a ∧ a ≤ 0x804 := by
  simp only [csrAccess, Bool.or_eq_true, Bool.and_eq_true, decide_eq_true_eq] at h
  by_contra hno
  simp (disch := omega) only [if_neg] at h
  simp at h

theorem n64_low (v : Word) : n64 (v.extractLsb' 0 32) = v &&& 0xFFFFFFFF := by
  have hmask : v &&& 0xFFFFFFFF = ofN (v.toNat % 2 ^ 32) := and_low v (by decide : 32 ≤ 64)
  have hfield := (spells_field (v.extractLsb' 0 32) (by decide)).eq
  rw [hmask, hfield, extractLsb'_zero, BitVec.toNat_ofNat]

/-- MSCRATCH, the last of the station master's registers, is read at no other allocated address. -/
theorem State.csr_ne_mscratch {s t : State} {j : Nat} (hacc : (csrAccess s.k j).isSome = true) (hj : j ≠ 0x804)
    (ht : t = { s with core := { s.core with mscratch := t.core.mscratch } }) : t.csr j = s.csr j := by
  rw [ht]
  by_cases hlow : j < 0x418
  · simp only [State.csr, if_pos hlow]
    rfl
  · obtain ⟨hlo, hhi⟩ := csrAccess_high hacc (by omega)
    have hlt : j < 0x804 := by omega
    clear hacc hj hlow hhi
    interval_cases j <;> rfl

theorem csrHoldWrites : Claim.CsrHoldWrites := by
  intro s n v r hn
  by_cases hlast : n = 0x804
  · subst hlast
    exact ⟨_, rfl, BitVec.and_allOnes.symm, fun _ => rfl, fun j hacc hj => State.csr_ne_mscratch hacc hj rfl⟩
  simp only [List.mem_cons, List.not_mem_nil, or_false, hlast] at hn
  rcases hn with rfl | rfl | rfl | rfl | rfl | rfl | rfl | rfl | rfl | rfl | rfl | rfl | rfl | rfl | rfl | rfl | rfl | rfl
  all_goals refine ⟨_, rfl, ?_, fun _ => rfl, fun j _ hj => by simp only [State.csr, if_neg hj] <;> rfl⟩
  any_goals exact n64_low v
  any_goals exact BitVec.and_allOnes.symm
  all_goals rfl

/-! ## What the registers of several fields read -/

theorem toNat_eq_ite (b : Bool) : b.toNat = if b then 1 else 0 := by cases b <;> rfl

theorem status_word (s : State) : s.csr 0x400 = ofN (s.ctx.ie.toNat + s.ctx.pie.toNat * 2 ^ 1 + s.ctx.prv.toNat * 2 ^ 2 +
    s.ctx.pprv.toNat * 2 ^ 4 + s.ctx.arrv.toNat * 2 ^ 6 + s.ctx.wd.wdm.toNat * 2 ^ 7 + s.tclm.toNat * 2 ^ 8 +
    s.ctx.hnd.toNat * 2 ^ 9 + s.ctx.hvn.toNat * 2 ^ 10 + s.ctx.abt.toNat * 2 ^ 11) := by
  have hlow := ((spells_bit s.ctx.ie).bit s.ctx.pie (by decide)).above s.ctx.prv (by decide) |>.above s.ctx.pprv (by decide)
  have hall := ((((((hlow.bit s.ctx.arrv (by decide)).bit s.ctx.wd.wdm (by decide)).bit s.tclm (by decide)).bit s.ctx.hnd
    (by decide)).bit s.ctx.hvn (by decide)).bit s.ctx.abt (by decide))
  refine Eq.trans ?_ hall.eq
  change s.status = _
  simp only [State.status, BitVec.or_assoc]

theorem fcsr_word (s : State) :
    s.csr 0x000 = ofN (s.ctx.flags.toNat + s.ctx.rm.toNat * 2 ^ 5 + s.ctx.te.toNat * 2 ^ 8) := by
  have hall := ((spells_field s.ctx.flags (by decide)).above s.ctx.rm (by decide)).above s.ctx.te (by decide)
  refine Eq.trans ?_ hall.eq
  change s.ctx.fcsr = _
  simp only [Ctx.fcsr, BitVec.or_assoc]

theorem prio_word (s : State) : s.csr 0x003 = ofN (s.ctx.lvl.toNat + s.ctx.eff.toNat * 2 ^ 8) :=
  (((spells_field s.ctx.lvl (by decide)).widen (by decide : 7 ≤ 8)).above s.ctx.eff (by decide)).eq

theorem opcnt_word {s : State} (hl : s.ctx.ldc < 256) (hs : s.ctx.stc < 256) (hc : s.ctx.cpc < 256)
    (ht : s.core.tileq.length < 256) : s.csr 0x004 = ofN (s.ctx.ldc + 256 * s.ctx.stc + 65536 * s.ctx.cpc +
      if s.core.claim = some s.c then 16777216 * s.core.tileq.length else 0) := by
  have htlc : s.tlc * 2 ^ 24 = if s.core.claim = some s.c then 16777216 * s.core.tileq.length else 0 := by
    unfold State.tlc
    split
    · omega
    · rfl
  have hlt : s.tlc < 256 := by
    unfold State.tlc
    split
    · exact ht
    · decide
  change s.opcnt = _
  rw [← htlc, State.opcnt, Nat.mod_eq_of_lt hl, Nat.mod_eq_of_lt hs, Nat.mod_eq_of_lt hc, Nat.mod_eq_of_lt hlt]
  exact congrArg ofN (by ring)

/-- CID is the number of the device above the number of the context in it. -/
theorem cid_word {s : State} {n : Nat} (h : (cidOf s.cur).toNat = n) : s.csr 0x001 = ofN (s.dev.devnum.toNat * 2 ^ 16 + n) := by
  have hall := (spells_field (cidOf s.cur) (by decide)).above s.dev.devnum (by decide)
  rw [h, Nat.add_comm] at hall
  exact hall.eq

theorem cidOf_mesh {die quad clus core ctx : Nat} (hd : die < 4) (hq : quad < 4) (hc : clus < 20) (hk : core < 9) (hx : ctx < 8) :
    (cidOf (((die * 80 + quad * 20 + clus) * 9 + core) * 8 + ctx)).toNat =
      die * 2 ^ 14 + quad * 2 ^ 12 + clus * 2 ^ 7 + core * 8 + ctx := by
  have hcore : (((die * 80 + quad * 20 + clus) * 9 + core) * 8 + ctx) / 8 = (die * 80 + quad * 20 + clus) * 9 + core := by omega
  have hmesh : isMesh ((die * 80 + quad * 20 + clus) * 9 + core) = true := decide_eq_true (show _ < 2880 by omega)
  have hclus : ((die * 80 + quad * 20 + clus) * 9 + core) / 9 = die * 80 + quad * 20 + clus := by omega
  have hctx : (((die * 80 + quad * 20 + clus) * 9 + core) * 8 + ctx) % 8 = ctx := by omega
  have hown : ((die * 80 + quad * 20 + clus) * 9 + core) % 9 = core := by omega
  rw [cidOf, hcore, if_pos hmesh, BitVec.toNat_ofNat, clusterOf, hclus, hctx, hown,
    show (die * 80 + quad * 20 + clus) / 80 = die by omega, show (die * 80 + quad * 20 + clus) / 20 % 4 = quad by omega,
    show (die * 80 + quad * 20 + clus) % 20 = clus by omega]
  omega

/-- The gateways of die 0 come first, five a die on dies 0 and 1 (R4). -/
theorem gateway_place {die port : Nat} (hd : die < 4) (hp : port < if die < 2 then 5 else 4) :
    let k := 2880 + (if die < 3 then 5 * die else 14) + port
    isMesh k = false ∧ isGateway k = true ∧ gwDie (gwOf k) = die ∧ gwPort (gwOf k) = port := by
  have hport : port < 5 := by split at hp <;> omega
  interval_cases die <;> simp only [Nat.reduceLT, if_true, if_false] at hp <;> interval_cases port
  all_goals exact ⟨rfl, rfl, rfl, rfl⟩

theorem cidOf_gateway {die port ctx : Nat} (hd : die < 4) (hp : port < if die < 2 then 5 else 4) (hx : ctx < 8) :
    (cidOf ((2880 + (if die < 3 then 5 * die else 14) + port) * 8 + ctx)).toNat =
      die * 2 ^ 14 + 31 * 2 ^ 7 + port * 8 + ctx := by
  obtain ⟨hmesh, hgate, hdie, hgport⟩ := gateway_place hd hp
  have hcore (g : Nat) : (g * 8 + ctx) / 8 = g := by omega
  have hctx (g : Nat) : (g * 8 + ctx) % 8 = ctx := by omega
  have hport : port < 5 := by split at hp <;> omega
  rw [cidOf, hcore, hctx]
  simp only [hmesh, hgate, hdie, hgport, if_true, Bool.false_eq_true, if_false, BitVec.toNat_ofNat]
  omega

theorem cidOf_master {r : Nat} (h : isMaster (r / 8) = true) : (cidOf r).toNat = 0xFFFF := by
  have hr : r / 8 = 2898 := by simpa [isMaster, Config.masterCore] using h
  rw [cidOf, hr]
  rfl

/-! ## Writes of the registers of several fields -/

/-- The field at a place of a word, and 0 elsewhere. -/
theorem and_field (v : Word) (k m : Nat) :
    v &&& n64 (BitVec.allOnes m) <<< k = n64 (v.extractLsb' k m) <<< k := by
  ext i hi
  simp only [n64, BitVec.getElem_and, BitVec.getElem_shiftLeft, BitVec.getElem_setWidth, BitVec.getLsbD_allOnes,
    BitVec.getLsbD_extractLsb']
  by_cases hlow : i < k
  · simp [hlow]
  · simp only [hlow, decide_false, Bool.not_false, Bool.true_and]
    rw [show k + (i - k) = i by omega, BitVec.getLsbD_eq_getElem hi, Bool.and_comm]

/-- The fields of an event selection: KEV, the select bit and EV. -/
theorem pmcsel_fields (v : Word) : (v &&& 0xFF80FF).toNat =
    v.toNat / 2 ^ 16 % 2 ^ 8 * 2 ^ 16 + v.toNat / 2 ^ 15 % 2 ^ 1 * 2 ^ 15 + v.toNat / 2 ^ 0 % 2 ^ 8 := by
  have hmask : (0xFF80FF : Word) = n64 (BitVec.allOnes 8) <<< 16 ||| (n64 (BitVec.allOnes 1) <<< 15 ||| n64 (BitVec.allOnes 8) <<< 0) := by
    decide
  have hspell := ((((spells_field (v.extractLsb' 0 8) (by decide)).widen (by decide : 8 ≤ 15)).above (v.extractLsb' 15 1)
    (by decide)).above (v.extractLsb' 16 8) (by decide)).1
  rw [hmask, BitVec.and_or_distrib_left, BitVec.and_or_distrib_left, and_field v 16 8, and_field v 15 1, and_field v 0 8, BitVec.shiftLeft_zero, hspell]
  simp only [BitVec.extractLsb'_toNat, Nat.shiftRight_eq_div_pow]
  omega

/-- A field by its number. -/
theorem field_eq (v : Word) (k m : Nat) : v.extractLsb' k m = BitVec.ofNat m (v.toNat / 2 ^ k % 2 ^ m) := by
  apply BitVec.eq_of_toNat_eq
  rw [BitVec.extractLsb'_toNat, Nat.shiftRight_eq_div_pow, BitVec.toNat_ofNat, Nat.mod_mod]

theorem field_toNat (v : Word) (k m : Nat) : (v.extractLsb' k m).toNat = v.toNat / 2 ^ k % 2 ^ m := by
  rw [BitVec.extractLsb'_toNat, Nat.shiftRight_eq_div_pow]

/-- The PPRV of a value is reserved: 0b10, and 0b11 but on the station master (R19, R24). -/
theorem pprv_reserved_iff (v : Word) (s : State) :
    (v.extractLsb' 4 2 = 2 || (v.extractLsb' 4 2 = 3 && !isMaster s.k)) = true ↔
      (v.toNat / 2 ^ 4 % 2 ^ 2 = 2 ∨ v.toNat / 2 ^ 4 % 2 ^ 2 = 3 ∧ isMaster s.k = false) := by
  rw [← field_toNat]
  simp [← BitVec.toNat_inj]

theorem writeStatus_refused {v : Word} {s : State}
    (h : v.toNat / 2 ^ 4 % 2 ^ 2 = 2 ∨ v.toNat / 2 ^ 4 % 2 ^ 2 = 3 ∧ isMaster s.k = false) (r : Refuse) :
    writeStatus v r s = .error r.enc :=
  if_pos ((pprv_reserved_iff v s).mpr h)

theorem writeStatus_accepted {v : Word} {s : State}
    (h : ¬(v.toNat / 2 ^ 4 % 2 ^ 2 = 2 ∨ v.toNat / 2 ^ 4 % 2 ^ 2 = 3 ∧ isMaster s.k = false)) (r : Refuse) :
    writeStatus v r s = .ok { s with ctx := { s.ctx with
      arrv := v.getLsbD 6, pprv := BitVec.ofNat 2 (v.toNat / 2 ^ 4 % 2 ^ 2), pie := v.getLsbD 1, ie := v.getLsbD 0 } } := by
  rw [← field_eq]
  exact if_neg (mt (pprv_reserved_iff v s).mp h)

theorem csrPut_fcsr (v : Word) (w1c : Bool) (r : Refuse) (s : State) : csrPut 0x000 v w1c r s =
    if 3 < v.toNat / 2 ^ 5 % 2 ^ 3 then .error r.enc else .ok { s with ctx := { s.ctx with
      te := BitVec.ofNat 5 (v.toNat / 2 ^ 8 % 2 ^ 5), rm := BitVec.ofNat 3 (v.toNat / 2 ^ 5 % 2 ^ 3)
      flags := BitVec.ofNat 5 (v.toNat / 2 ^ 0 % 2 ^ 5) } } := by
  rw [← field_eq v 8 5, ← field_eq v 5 3, ← field_eq v 0 5, ← field_toNat]
  rfl

/-- The write of an event selection. -/
theorem csrPut_pmcsel (n : Fin 8) (v : Word) (w1c : Bool) (r : Refuse) (s : State) : csrPut (0x188 + n) v w1c r s =
    if 16 < v.toNat / 2 ^ 0 % 2 ^ 8 then .error r.enc else .ok { s with core := { s.core with
      pmcsel := s.core.pmcsel.set n (v &&& 0xFF80FF) n.isLt } } := by
  rw [← field_toNat]
  fin_cases n <;> rfl

theorem csrPut_pmcovf (v : Word) (w1c : Bool) (r : Refuse) (s : State) : csrPut 0x190 v w1c r s =
    .ok { s with core := { s.core with
      pmcovf := if w1c then s.core.pmcovf &&& ~~~(BitVec.ofNat 8 (v.toNat / 2 ^ 0 % 2 ^ 8)) else s.core.pmcovf } } := by
  rw [← field_eq]
  rfl

theorem csrPut_drpth_refused {v : Word} (h : v.toNat / 2 ^ 0 % 2 ^ 5 = 0) (w1c : Bool) (r : Refuse) (s : State) :
    csrPut 0x409 v w1c r s = .error r.enc := by
  have hv : v.extractLsb' 0 5 = 0 := by rw [field_eq, h]; rfl
  exact if_pos hv

/-- Where no core of the island has written STEP in the cycle, this write stands. -/
theorem csrPut_drpth {v : Word} {s : State} (h : v.toNat / 2 ^ 0 % 2 ^ 5 ≠ 0) (hby : (s.island (islandOf s.k)).stepBy = none)
    (w1c : Bool) (r : Refuse) : csrPut 0x409 v w1c r s = .ok (s.setIsland (islandOf s.k) { s.island (islandOf s.k) with
      step := BitVec.ofNat 5 (v.toNat / 2 ^ 0 % 2 ^ 5), stepBy := some s.k }) := by
  have hv : v.extractLsb' 0 5 ≠ 0 := fun hv => h (by rw [← field_toNat, hv]; rfl)
  have hstep : (s.island (islandOf s.k)).writeStep s.k (v.extractLsb' 0 5) =
      { s.island (islandOf s.k) with step := v.extractLsb' 0 5, stepBy := some s.k } :=
    if_pos (by rw [hby]; rfl)
  rw [← field_eq, ← hstep]
  exact if_neg hv

theorem State.island_setIsland (s : State) (i j : Nat) (x : Island) :
    (s.setIsland i x).island j = if j = i then x else s.island j := look_put ..

theorem specialRegisters : Claim.SpecialRegisters := by
  intro s v w1c r n c b bits refused puts isl
  have hb (x : Bool) : b x = x.toNat := (toNat_eq_ite x).symm
  refine ⟨?_, ?_, ?_, opcnt_word, fun die quad clus core ctx hd hq hc hk hx hcur => ?_, fun die port ctx hd hp hx hcur => ?_,
    fun hm => cid_word (cidOf_master hm), ⟨fun h => writeStatus_refused h r, fun h => writeStatus_accepted h r⟩,
    fun h => (csrPut_fcsr ..).trans (if_pos h), fun h => (csrPut_fcsr ..).trans (if_neg (Nat.not_lt.mpr h)),
    fun h => (csrPut_pmcsel ..).trans (if_pos h), fun h => ⟨_, (csrPut_pmcsel ..).trans (if_neg (Nat.not_lt.mpr h)), rfl, fun _ => rfl, ?_, ?_⟩,
    csrPut_pmcovf .., fun h => csrPut_drpth_refused h w1c r s, fun h hby => ⟨_, csrPut_drpth h hby w1c r, rfl, fun _ => rfl, ?_, ?_⟩⟩
  · rw [status_word]
    simp only [hb]
    exact congrArg ofN (by ring)
  · rw [fcsr_word]
    exact congrArg ofN (by ring)
  · rw [prio_word]
    exact congrArg ofN (by ring)
  · rw [cid_word (hcur ▸ cidOf_mesh hd hq hc hk hx)]
    exact congrArg ofN (by ring)
  · rw [cid_word (hcur ▸ cidOf_gateway hd hp hx)]
    exact congrArg ofN (by ring)
  · rw [← pmcsel_fields]
    exact congrArg BitVec.toNat (Vector.getElem_set_self ..)
  · intro j hj
    exact Vector.getElem_set_ne n.isLt j.isLt (fun he => hj (Fin.ext he.symm))
  · rw [State.island_setIsland, if_pos rfl]
  · intro j hj
    rw [State.island_setIsland, if_neg hj]

/-- Settles O56: the accesses by their checks, the plain registers by their fields, and the composite ones field by field. -/
theorem csrAccesses : Obligations.CsrAccesses := ⟨csrInstructions, csrHoldWrites, specialRegisters⟩

end Sys2Proof.Machine
end

section
/-! A trap during a replay whose last iteration has issued (06 R155, R158, 13 R320). -/

namespace Sys2Proof.Machine

open Sys2Proof

/-- A replay whose iterations have all issued ends at a trap on the integer side, and is not held. -/
theorem Replay.hold_done {r : Replay} (hact : r.act = true) (hissue : r.issuing = false) (hdone : r.cnt.toNat ≤ r.iter.toNat) :
    r.hold.held = false := by
  simp [Replay.hold, Replay.settle, hact, hissue, hdone]

/-- A context whose replay has issued its only iteration; its core has a handler at 32. -/
def replayIssued : State :=
  { State.reset with
    cur := 0
    ctx := { Ctx.reset with rep := { Ctx.reset.rep with act := true, len := 1, cnt := 1, iter := 1, issuing := false } }
    core := { Core.reset with tvec := 32 } }

theorem replayIssued_handled : Handled replayIssued := ⟨rfl, rfl, by decide⟩

/-- Refutes O55: TrapEntry has every replay in progress held by a trap, but one whose last iteration has issued ends. -/
theorem not_exceptions : ¬ Obligations.Exceptions := by
  intro h
  obtain ⟨hentry, -, -⟩ := h
  obtain ⟨-, hhandled, -⟩ := hentry replayIssued 0 ⟨14, 0, 0⟩
  obtain ⟨-, -, -, -, -, -, -, -, hheld⟩ := hhandled replayIssued_handled
  have hends : (replayIssued.trap ⟨14, 0, 0⟩).ctx.rep.held = false := Replay.hold_done rfl rfl (by decide)
  exact Bool.false_ne_true (hends.symm.trans (hheld rfl).1)

end Sys2Proof.Machine
end

section
/-! Starting a context (01 R13, R14, R16): what it leaves of the other contexts and cores, and what the context it starts holds. -/

namespace Sys2Proof.Machine

open Sys2Proof

/-! ## Contexts and cores after a context is set -/

theorem State.getCtx_setCtx (s : State) (r q : Nat) (c : Ctx) : (s.setCtx r c).getCtx q = if q = r then c else s.getCtx q := by
  by_cases hr : r = s.cur
  · by_cases hq : q = r <;> simp_all [State.setCtx, State.getCtx]
  · rw [State.setCtx, if_neg hr]
    by_cases hq : q = s.cur
    · simp [State.getCtx, hq, Ne.symm hr]
    · simp [State.getCtx, hq, look_put]

@[simp] theorem State.setCtx_cur (s : State) (r : Nat) (c : Ctx) : (s.setCtx r c).cur = s.cur := by unfold State.setCtx; split <;> rfl

@[simp] theorem State.setCtx_k (s : State) (r : Nat) (c : Ctx) : (s.setCtx r c).k = s.k := by simp [State.k]

@[simp] theorem State.getCore_setCtx (s : State) (r j : Nat) (c : Ctx) : (s.setCtx r c).getCore j = s.getCore j := by
  unfold State.setCtx; split <;> rfl

@[simp] theorem State.getCtx_modCore (s : State) (k q : Nat) (f : Core → Core) : (s.modCore k f).getCtx q = s.getCtx q :=
  State.getCtx_setCore ..

theorem State.getCore_modCore (s : State) (k j : Nat) (f : Core → Core) :
    (s.modCore k f).getCore j = if j = k then f (s.getCore k) else s.getCore j :=
  State.getCore_setCore ..

@[simp] theorem State.getCore_modCore_same (s : State) (k : Nat) (f : Core → Core) : (s.modCore k f).getCore k = f (s.getCore k) := by
  rw [State.getCore_modCore, if_pos rfl]

theorem State.getCore_modCore_ne (s : State) {k j : Nat} (h : j ≠ k) (f : Core → Core) : (s.modCore k f).getCore j = s.getCore j := by
  rw [State.getCore_modCore, if_neg h]

theorem State.getCtx_modCtx (s : State) (r q : Nat) (f : Ctx → Ctx) :
    (s.modCtx r f).getCtx q = if q = r then f (s.getCtx r) else s.getCtx q :=
  State.getCtx_setCtx ..

@[simp] theorem State.getCore_modCtx (s : State) (r j : Nat) (f : Ctx → Ctx) : (s.modCtx r f).getCore j = s.getCore j :=
  State.getCore_setCtx ..

/-! ## Steps that leave every context and core alone -/

/-- No context and no core differs. -/
structure SameUnits (s t : State) : Prop where
  cur : t.cur = s.cur
  ctx : t.ctx = s.ctx
  core : t.core = s.core
  ctxs : t.ctxs = s.ctxs
  cores : t.cores = s.cores

theorem SameUnits.refl (s : State) : SameUnits s s := ⟨rfl, rfl, rfl, rfl, rfl⟩

theorem SameUnits.trans {s t u : State} (h : SameUnits s t) (g : SameUnits t u) : SameUnits s u :=
  ⟨g.cur.trans h.cur, g.ctx.trans h.ctx, g.core.trans h.core, g.ctxs.trans h.ctxs, g.cores.trans h.cores⟩

theorem SameUnits.getCtx {s t : State} (h : SameUnits s t) (r : Nat) : t.getCtx r = s.getCtx r := by
  rw [State.getCtx, h.cur, h.ctx, h.ctxs, State.getCtx]

theorem SameUnits.getCore {s t : State} (h : SameUnits s t) (k : Nat) : t.getCore k = s.getCore k := by
  rw [State.getCore, State.k, h.cur, h.core, h.cores, State.getCore, State.k]

theorem SameUnits.homeStore : ∀ (l : List Host.Cell) (s : State), SameUnits s (State.homeStore s l)
  | [], s => .refl s
  | (_, _) :: l, s => by
    rw [State.homeStore]
    refine SameUnits.trans ?_ (SameUnits.homeStore l _)
    exact ⟨rfl, rfl, rfl, rfl, rfl⟩

theorem SameUnits.record (s : State) (type : Nat) (ws : List Word) : SameUnits s (s.record type ws) := by
  unfold State.record
  dsimp only
  split
  · exact .refl s
  · split
    · exact ⟨rfl, rfl, rfl, rfl, rfl⟩
    · exact SameUnits.trans (SameUnits.homeStore _ s) ⟨rfl, rfl, rfl, rfl, rfl⟩

theorem SameUnits.recordActivation (s : State) (r : Nat) (kind : Kind) (tag : BitVec 16) (pc : Word) :
    SameUnits s (s.recordActivation r kind tag pc) := by
  unfold State.recordActivation
  split
  · exact SameUnits.record ..
  · exact .refl s

/-! ## Bytes that no write names -/

theorem Mem.get_set_of_ne {a b : Nat} (v : Byte) (h : b ≠ a) : ∀ m : List Host.Cell, Mem.get (Mem.set m a v) b = Mem.get m b
  | [] => by
    unfold Mem.set
    split
    · rfl
    · simp [Mem.get, h]
  | (k, w) :: m => by
    unfold Mem.set
    split
    · split
      · rfl
      · simp [Mem.get, h]
    · split
      next hk => split <;> simp [Mem.get, ← hk, h]
      · simp [Mem.get, Mem.get_set_of_ne v h m]

theorem Mem.get_setAll_of_forall_ne {b : Nat} : ∀ (l : List Host.Cell) (m : List Host.Cell), (∀ e ∈ l, e.1 ≠ b) →
    Mem.get (Mem.setAll m l) b = Mem.get m b
  | [], _, _ => rfl
  | (a, v) :: l, m, h => by
    rw [Mem.setAll, Mem.get_setAll_of_forall_ne l _ fun e he => h e (List.mem_cons_of_mem _ he),
      Mem.get_set_of_ne v (h (a, v) List.mem_cons_self).symm]

/-- Trace records lie in HBM. -/
theorem State.record_get (s : State) (type : Nat) (ws : List Word) {a : Nat} (h : isHbmKey a = false) :
    Mem.get (s.record type ws).mem a = Mem.get s.mem a := by
  unfold State.record
  dsimp only
  split
  · rfl
  · split
    · rfl
    · rw [State.homeStore_mem]
      refine Mem.get_setAll_of_forall_ne _ _ fun e he hea => ?_
      have hhbm : isHbmKey e.1 = true := (List.mem_filter.mp he).2
      rw [hea, h] at hhbm
      exact Bool.false_ne_true hhbm

theorem State.recordActivation_get (s : State) (r : Nat) (kind : Kind) (tag : BitVec 16) (pc : Word) {a : Nat} (h : isHbmKey a = false) :
    Mem.get (s.recordActivation r kind tag pc).mem a = Mem.get s.mem a := by
  unfold State.recordActivation
  split
  · exact State.record_get s _ _ h
  · rfl

theorem Mem.word_congr {m l : List Host.Cell} {a : Nat} (h : ∀ i < 8, Mem.get m (a + i) = Mem.get l (a + i)) :
    Mem.word m a = Mem.word l a := by
  have hb : Mem.bytes m a 8 = Mem.bytes l a 8 := List.map_congr_left fun i hi => h i (List.mem_range.mp hi)
  rw [Mem.word, hb, Mem.word]

/-- Context blocks lie in CLM and in gateway memory, above HBM. -/
theorem aliasKey_not_hbm (k a i : Nat) : isHbmKey (aliasKey k a + i) = false := by
  unfold isHbmKey aliasKey gwKey clmKey
  split <;> exact decide_eq_false (by omega)

/-! ## Limits -/

theorem State.coreCtxs_congr {s t : State} (h : ∀ r, t.getCtx r = s.getCtx r) (k : Nat) : t.coreCtxs k = s.coreCtxs k :=
  List.map_congr_left fun r _ => by rw [h r]

theorem State.withinLimits_congr {s t : State} {k : Nat} (h : ∀ r, t.getCtx r = s.getCtx r)
    (hres : (t.getCore k).hres = (s.getCore k).hres) : t.withinLimits k = s.withinLimits k := by
  unfold State.withinLimits State.nonReplies State.nonReplyRegs
  rw [State.coreCtxs_congr h, hres]

theorem State.regsFit_congr {s t : State} {k : Nat} (h : ∀ r, t.getCtx r = s.getCtx r)
    (hres : (t.getCore k).hres = (s.getCore k).hres) (n : Nat) : t.regsFit k n = s.regsFit k n := by
  unfold State.regsFit State.regsUsed State.nonReplyRegs
  rw [State.coreCtxs_congr h, hres]

/-! ## The activation -/

/-- Whether an activation is granted its registers at once (01 R16). -/
def State.grantsNow (s : State) (r : Nat) (a : Activation) : Bool :=
  a.kind == .msg true || ((s.getCore (r / 8)).regReqs.isEmpty && s.withinLimits (r / 8) && s.regsFit (r / 8) a.regs)

/-- The started context joins a region, or none. -/
theorem State.joinRegion_units (s : State) (r : Nat) (t : BitVec 16) :
    (s.joinRegion r t).mem = s.mem ∧ (∀ k, (s.joinRegion r t).getCore k = s.getCore k) ∧
    (∀ q ≠ r, (s.joinRegion r t).getCtx q = s.getCtx q) ∧
    ∃ region, (s.joinRegion r t).getCtx r = { s.getCtx r with region := region } := by
  unfold State.joinRegion
  dsimp only
  split
  · exact ⟨rfl, fun _ => rfl, fun _ _ => rfl, _, rfl⟩
  · refine ⟨State.modCtx_mem .., fun k => State.getCore_modCtx .., fun q hq => ?_, _, (State.getCtx_modCtx ..).trans (if_pos rfl)⟩
    exact (State.getCtx_modCtx ..).trans (if_neg hq)

@[simp] theorem State.acquire_mem (k : Nat) (s : State) : (State.acquire k s).mem = s.mem := State.modCore_mem ..

@[simp] theorem State.getCtx_acquire (k q : Nat) (s : State) : (State.acquire k s).getCtx q = s.getCtx q := State.getCtx_modCore ..

/-- An acquire touches the L1 of its core, and nothing else. -/
theorem State.getCore_acquire (k j : Nat) (s : State) : ∃ l1, (State.acquire k s).getCore j = { s.getCore j with l1 := l1 } := by
  by_cases hj : j = k
  · subst hj
    exact ⟨_, State.getCore_modCore_same ..⟩
  · exact ⟨(s.getCore j).l1, State.getCore_modCore_ne s hj _⟩

section
variable (s : State) (r : Nat) (a : Activation)

/-- The state of an activation before its acquire: the context started, waiting in arrival order where it is granted nothing. -/
def State.seat : State :=
  let t := s.setCtx r { startCtx s r a with phase := if s.grantsNow r a then .active else .waiting }
  if s.grantsNow r a then t else t.modCore (r / 8) fun co => { co with regReqs := co.regReqs ++ [r] }

theorem State.activate_eq : s.activate r a =
    (State.acquire (r / 8) (((s.seat r a).joinRegion r a.rtag).modCore (r / 8) Core.endThief)).recordActivation r a.kind a.tag a.pc := rfl

@[simp] theorem State.seat_mem : (s.seat r a).mem = s.mem := by
  have hset (c : Ctx) : (s.setCtx r c).mem = s.mem := State.modCtx_mem s r fun _ => c
  unfold State.seat
  dsimp only
  split
  · exact hset _
  · exact (State.modCore_mem ..).trans (hset _)

theorem State.getCtx_seat (q : Nat) : (s.seat r a).getCtx q =
    if q = r then { startCtx s r a with phase := if s.grantsNow r a then .active else .waiting } else s.getCtx q := by
  unfold State.seat
  dsimp only
  split
  · exact State.getCtx_setCtx ..
  · exact (State.getCtx_modCore ..).trans (State.getCtx_setCtx ..)

theorem State.getCore_seat (k : Nat) : ∃ l, (s.seat r a).getCore k = { s.getCore k with regReqs := l } := by
  unfold State.seat
  dsimp only
  split
  · exact ⟨_, State.getCore_setCtx ..⟩
  · by_cases hk : k = r / 8
    · exact ⟨_, by rw [hk, State.getCore_modCore_same, State.getCore_setCtx]⟩
    · exact ⟨_, by rw [State.getCore_modCore_ne _ hk, State.getCore_setCtx]⟩

end

section
variable (s : State) (r : Nat) (a : Activation)

/-- The context started: granted or waiting, in a region or in none. -/
theorem State.getCtx_activate_same : ∃ region, (s.activate r a).getCtx r =
    { startCtx s r a with phase := if s.grantsNow r a then .active else .waiting, region := region } := by
  obtain ⟨-, -, -, region, hregion⟩ := State.joinRegion_units (s.seat r a) r a.rtag
  refine ⟨region, ?_⟩
  rw [State.activate_eq, (SameUnits.recordActivation ..).getCtx, State.getCtx_acquire, State.getCtx_modCore, hregion, State.getCtx_seat,
    if_pos rfl]

theorem State.getCtx_activate_ne {q : Nat} (h : q ≠ r) : (s.activate r a).getCtx q = s.getCtx q := by
  obtain ⟨-, -, hother, -⟩ := State.joinRegion_units (s.seat r a) r a.rtag
  rw [State.activate_eq, (SameUnits.recordActivation ..).getCtx, State.getCtx_acquire, State.getCtx_modCore, hother q h, State.getCtx_seat,
    if_neg h]

/-- The core that starts a context: its requests, its L1, and its search for work, which ends. -/
theorem State.getCore_activate_same : ∃ l l1, (s.activate r a).getCore (r / 8) =
    { (s.getCore (r / 8)).endThief with regReqs := l, l1 := l1 } := by
  obtain ⟨-, hcore, -⟩ := State.joinRegion_units (s.seat r a) r a.rtag
  obtain ⟨l, hseat⟩ := State.getCore_seat s r a (r / 8)
  obtain ⟨l1, hacquire⟩ := State.getCore_acquire (r / 8) (r / 8) (((s.seat r a).joinRegion r a.rtag).modCore (r / 8) Core.endThief)
  refine ⟨l, l1, ?_⟩
  rw [State.activate_eq, (SameUnits.recordActivation ..).getCore, hacquire, State.getCore_modCore_same, hcore, hseat]
  rfl

theorem State.getCore_activate_ne {k : Nat} (h : k ≠ r / 8) : ∃ l l1, (s.activate r a).getCore k =
    { s.getCore k with regReqs := l, l1 := l1 } := by
  obtain ⟨-, hcore, -⟩ := State.joinRegion_units (s.seat r a) r a.rtag
  obtain ⟨l, hseat⟩ := State.getCore_seat s r a k
  obtain ⟨l1, hacquire⟩ := State.getCore_acquire (r / 8) k (((s.seat r a).joinRegion r a.rtag).modCore (r / 8) Core.endThief)
  refine ⟨l, l1, ?_⟩
  rw [State.activate_eq, (SameUnits.recordActivation ..).getCore, hacquire, State.getCore_modCore_ne _ h, hcore, hseat]

/-- No byte beyond HBM changes: the trace record lies in HBM. -/
theorem State.activate_get {b : Nat} (h : isHbmKey b = false) : Mem.get (s.activate r a).mem b = Mem.get s.mem b := by
  obtain ⟨hmem, -⟩ := State.joinRegion_units (s.seat r a) r a.rtag
  rw [State.activate_eq, State.recordActivation_get _ _ _ _ _ h, State.acquire_mem, State.modCore_mem, hmem, State.seat_mem]

/-- The words of the context's block, as they were. -/
theorem State.activate_word (off : Nat) : Mem.word (s.activate r a).mem (aliasKey (r / 8) (blockAddr r) + off) =
    Mem.word s.mem (aliasKey (r / 8) (blockAddr r) + off) :=
  Mem.word_congr fun i _ => s.activate_get r a (by rw [Nat.add_assoc]; exact aliasKey_not_hbm ..)

theorem startX_get (cx sp gp : Word) (i : Fin 32) : (startX cx sp gp a)[i] = match i.val with
    | 2 => sp
    | 3 => gp
    | 4 => cx
    | 10 => a.a0
    | 11 => a.a1
    | 12 => a.a2
    | 13 => a.a3
    | _ => 0 := by
  fin_cases i <;> simp [startX]

/-- An activation of a state in whose place one with the same contexts and limits stands. -/
theorem started_activate {s t : State} (r : Nat) (a : Activation) (hctx : ∀ q, t.getCtx q = s.getCtx q)
    (hres : (t.getCore (r / 8)).hres = (s.getCore (r / 8)).hres) (hreq : (t.getCore (r / 8)).regReqs = (s.getCore (r / 8)).regReqs) :
    Started s (t.activate r a) r a := by
  obtain ⟨region, hc⟩ := t.getCtx_activate_same r a
  have hnow : t.grantsNow r a = s.grantsNow r a := by
    unfold State.grantsNow
    rw [hreq, State.withinLimits_congr hctx hres, State.regsFit_congr hctx hres]
  have hphase : (if t.grantsNow r a = true then Phase.active else Phase.waiting) =
      if a.kind = .msg true ∨ ((s.getCore (r / 8)).regReqs = [] ∧ s.withinLimits (r / 8) = true ∧ s.regsFit (r / 8) a.regs = true) then
        Phase.active else Phase.waiting := by
    refine if_congr ?_ rfl rfl
    rw [hnow]
    simp [State.grantsNow, and_assoc]
  rw [hnow] at hphase
  unfold Started
  dsimp only
  rw [hc]
  refine ⟨hnow ▸ hphase, rfl, rfl, fun i => ?_, rfl, rfl, rfl, rfl, rfl, rfl, rfl, rfl, rfl, rfl, rfl, rfl, rfl, rfl, rfl, fun _ => ?_, rfl,
    rfl, rfl, rfl, rfl, rfl, rfl, rfl, rfl, rfl, rfl, rfl, rfl, rfl, rfl, rfl, rfl⟩
  · have hsp : Mem.word (t.activate r a).mem (aliasKey (r / 8) (blockAddr r)) = Mem.word t.mem (aliasKey (r / 8) (blockAddr r)) :=
      t.activate_word r a 0
    rw [hsp, t.activate_word r a 8]
    exact startX_get a _ _ _ i
  · exact Vector.getElem_replicate _

end

end Sys2Proof.Machine
end

section
/-! Tasks start and are stolen (01 R14, R16, R25, 12 R308 to R311). -/

namespace Sys2Proof.Machine

open Sys2Proof

/-! ## Dormant contexts and deques -/

theorem ctxsOf_core {k r : Nat} (h : r ∈ ctxsOf k) : r / 8 = k := by
  unfold ctxsOf at h
  split at h
  · rw [List.mem_singleton.mp h]
    omega
  · obtain ⟨c, hc, rfl⟩ := List.mem_map.mp h
    have := List.mem_range.mp hc
    omega

/-- The dormant context of a core is one of its own. -/
theorem State.dormant_core {s : State} {k r : Nat} (h : s.dormant k = some r) : r / 8 = k := by
  obtain ⟨e, he, rfl⟩ := Option.map_eq_some_iff.mp h
  obtain ⟨q, hq, rfl⟩ := List.mem_map.mp (List.mem_of_find?_eq_some he)
  exact ctxsOf_core hq

theorem Core.popTask_deque {c : Core} {l : List TaskRec} {t : TaskRec} (h : c.deque = l ++ [t]) :
    c.popTask = some (t, { c with deque := l }) := by
  simp [Core.popTask, h]

theorem takeFirst_none {p : TaskRec → Bool} : ∀ {l : List TaskRec}, (∀ x ∈ l, p x = false) → takeFirst p l = none
  | [], _ => rfl
  | x :: l, h => by
    rw [takeFirst, h x List.mem_cons_self, takeFirst_none fun y hy => h y (List.mem_cons_of_mem _ hy)]
    rfl

theorem takeFirst_append {p : TaskRec → Bool} {t : TaskRec} {m : List TaskRec} (ht : p t = true) :
    ∀ {l : List TaskRec}, (∀ x ∈ l, p x = false) → takeFirst p (l ++ t :: m) = some (t, l ++ m)
  | [], _ => by simp [takeFirst, ht]
  | x :: l, h => by
    have hl := takeFirst_append (m := m) ht fun y hy => h y (List.mem_cons_of_mem _ hy)
    simp [takeFirst, h x List.mem_cons_self, hl]

theorem Core.steal_none {c : Core} {p : TaskRec → Bool} (h : ∀ x ∈ c.siding ++ c.deque, p x = false) : c.steal p = none := by
  rw [Core.steal, takeFirst_none fun x hx => h x (List.mem_append_left _ hx), takeFirst_none fun x hx => h x (List.mem_append_right _ hx)]

/-- The oldest record that a predicate accepts is taken, from the siding or from the hardware, and the rest stay in their order. -/
theorem Core.steal_first {c : Core} {p : TaskRec → Bool} {l m : List TaskRec} {t : TaskRec} (h : c.siding ++ c.deque = l ++ t :: m)
    (hl : ∀ x ∈ l, p x = false) (ht : p t = true) : ∃ a b, c.steal p = some (t, { c with siding := a, deque := b }) ∧
      a ++ b = l ++ m ∧ a.length = if l.length < c.siding.length then c.siding.length - 1 else c.siding.length := by
  have hdeque {l' : List TaskRec} (hls : l = c.siding ++ l') (hd : c.deque = l' ++ t :: m) :
      ∃ a b, c.steal p = some (t, { c with siding := a, deque := b }) ∧
      a ++ b = l ++ m ∧ a.length = if l.length < c.siding.length then c.siding.length - 1 else c.siding.length := by
    have hs : takeFirst p c.siding = none := takeFirst_none fun x hx => hl x (hls ▸ List.mem_append_left _ hx)
    have htake : takeFirst p c.deque = some (t, l' ++ m) :=
      hd ▸ takeFirst_append ht fun x hx => hl x (hls ▸ List.mem_append_right _ hx)
    refine ⟨c.siding, l' ++ m, by rw [Core.steal, hs, htake], by simp [hls], (if_neg ?_).symm⟩
    simp [hls]
  rcases List.append_eq_append_iff.mp h with ⟨l', hls, hd⟩ | ⟨m', hs, hm⟩
  · exact hdeque hls hd
  · cases m' with
    | nil => exact hdeque (l' := []) (by simpa using hs.symm) hm.symm
    | cons x m' =>
      obtain ⟨rfl, hrest⟩ : t = x ∧ m = m' ++ c.deque := by simpa using hm
      have htake : takeFirst p c.siding = some (t, l ++ m') := hs ▸ takeFirst_append ht hl
      refine ⟨l ++ m', c.deque, by rw [Core.steal, htake], by simp [hrest], ?_⟩
      rw [hs, if_pos (by simp)]
      simp

/-! ## Task activation, refill and grants -/

theorem execTaskActivation_starts {s : State} {k r : Nat} {t : TaskRec} {c : Core} (hrun : s.running k = true)
    (hroom : s.hasRoom k = true) (hbefore : s.before k = false) (hdorm : s.dormant k = some r)
    (hpop : (s.getCore k).popTask = some (t, c)) :
    execTaskActivation k s = .next ((s.setCore k c).activate r t.activation) := by
  simp [execTaskActivation, hrun, hroom, hbefore, hdorm, hpop]

theorem execDequeRefill_refills {s : State} {k : Nat} {t : TaskRec} {l : List TaskRec} (hside : (s.getCore k).siding = l ++ [t])
    (hlen : (s.getCore k).deque.length < 16) : execDequeRefill k s =
      .next (s.setCore k { s.getCore k with siding := l, deque := t :: (s.getCore k).deque }) := by
  simp [execDequeRefill, hside, hlen]

theorem execVregGrant_grants {s : State} {k r : Nat} {q : List Nat} (hreq : (s.getCore k).regReqs = r :: q) (hrun : s.running k = true)
    (hlim : s.withinLimits k = true) (hfit : s.regsFit k (s.getCtx r).valloc.toNat = true) : execVregGrant k s =
      .next (State.acquire k ((s.modCore k fun c => { c with regReqs := q }).modCtx r fun c => { c with phase := .active })) := by
  simp [execVregGrant, hreq, hrun, hlim, hfit]

theorem execVregGrant_refuses {s : State} {k : Nat} (h : s.withinLimits k = false ∨ s.running k = false) :
    execVregGrant k s = .next s := by
  unfold execVregGrant
  split
  · rfl
  · rcases h with h | h <;> simp [h]

theorem taskStarts : Claim.TaskStarts := by
  intro s k r t l q hk c
  refine ⟨fun hrun hroom hbefore hdorm hdeque => ?_, fun hside hlen => execDequeRefill_refills hside hlen,
    fun hreq hrk hrun hfit hlim => ⟨_, execVregGrant_grants hreq hrun hlim hfit, ?_, fun a => ?_, ?_⟩, execVregGrant_refuses⟩
  · obtain rfl := State.dormant_core hdorm
    refine ⟨_, execTaskActivation_starts hrun hroom hbefore hdorm (Core.popTask_deque hdeque), ?_, ?_⟩
    · refine started_activate r _ (fun q => State.getCtx_setCore ..) ?_ ?_ <;> rw [State.getCore_setCore, if_pos rfl]
    · obtain ⟨_, _, hcore⟩ := State.getCore_activate_same (s.setCore (r / 8) { c with deque := l }) r t.activation
      rw [hcore, State.getCore_setCore, if_pos rfl]
      rfl
  · obtain ⟨l1, hcore⟩ := State.getCore_acquire k k ((s.modCore k fun c => { c with regReqs := q }).modCtx r fun c => { c with phase := .active })
    rw [hcore, State.getCore_modCtx, State.getCore_modCore_same]
  · rw [State.acquire_mem, State.modCtx_mem, State.modCore_mem]
  · rw [State.getCtx_acquire, State.getCtx_modCtx, if_pos rfl, State.getCtx_modCore]

/-! ## Stealing -/

@[simp] theorem State.getCtx_pmc (s : State) (k e q : Nat) (c : Option Nat) : (s.pmc k e c).getCtx q = s.getCtx q :=
  State.getCtx_modCore ..

/-- An event counted changes what its core has to count, and nothing else. -/
theorem State.getCore_pmc (s : State) (k e j : Nat) (c : Option Nat) : ∃ d, (s.pmc k e c).getCore j = { s.getCore j with due := d } := by
  by_cases hj : j = k
  · subst hj
    exact ⟨_, State.getCore_modCore_same ..⟩
  · exact ⟨(s.getCore j).due, State.getCore_modCore_ne s hj _⟩

theorem execSteal_asks {s : State} {k v : Nat} (ht : s.isThief k = true) (hp : (s.getCore k).thief.pause = false)
    (hs : (s.getCore k).stealing = none) (hv : v ∈ s.victims k (s.getCore k).thief.level) :
    execSteal k v s = .next (s.setCore k { s.getCore k with stealing := some v }) := by
  simp [execSteal, ht, hp, hs, hv, List.ne_nil_of_mem hv]

theorem execSteal_widens {s : State} {k : Nat} (v : Nat) (ht : s.isThief k = true) (hp : (s.getCore k).thief.pause = false)
    (hs : (s.getCore k).stealing = none) (hv : s.victims k (s.getCore k).thief.level = []) :
    execSteal k v s = .next (s.setCore k { s.getCore k with thief := (s.getCore k).thief.widen }) := by
  simp [execSteal, ht, hp, hs, hv]

theorem Thief.widen_eq (t : Thief) : t.widen = if t.level < 3 then ⟨t.level + 1, 0, false⟩ else ⟨0, 0, true⟩ := by
  unfold Thief.widen
  by_cases h : t.level < 3
  · rw [if_neg (by omega), if_pos h]
  · rw [if_pos (by omega), if_neg h]

theorem Thief.fail_fourth {t : Thief} (h : t.fails = 3) : t.fail = t.widen := by simp [Thief.fail, h]

theorem Thief.fail_early {t : Thief} (h : t.fails < 3) : t.fail = { t with fails := t.fails + 1 } := if_neg (by omega)

theorem execStealPauseEnd_eq {s : State} {k : Nat} (h : (s.getCore k).thief.pause = true) :
    execStealPauseEnd k s = .next (s.setCore k { s.getCore k with thief := ⟨0, 0, false⟩ }) := by
  simp [execStealPauseEnd, State.modCore, h]

theorem execStealServe_gives {s : State} {k v r : Nat} {q : List Nat} {t : TaskRec} {b : Core} (hask : s.thievesOf v = k :: q)
    (ht : s.isThief k = true) (hdorm : s.dormant k = some r)
    (hsteal : (s.getCore v).steal (fun r => domReaches r.dom v k) = some (t, b)) :
    execStealServe v s = .next (((s.setCore v b).pmc k 13 (some (r % 8))).activate r t.activation) := by
  simp [execStealServe, hask, ht, hdorm, hsteal]

theorem execStealServe_fails {s : State} {k v : Nat} {q : List Nat} (hask : s.thievesOf v = k :: q)
    (ht : s.isThief k = true) (hsteal : (s.getCore v).steal (fun r => domReaches r.dom v k) = none) :
    execStealServe v s =
      .next ((s.setCore k { s.getCore k with thief := (s.getCore k).thief.fail, stealing := none }).pmc k 14 none) := by
  simp [execStealServe, hask, ht, hsteal]

theorem steals : Claim.Steals := by
  intro s k v r q t l m hk c b reaches
  refine ⟨fun ht hp hs hv => execSteal_asks ht hp hs hv, fun ht hp hs hv => ⟨_, execSteal_widens v ht hp hs hv, ?_⟩,
    fun hp => execStealPauseEnd_eq hp, fun hask hvk ht hdorm hrecs hl hreach => ?_, fun hask hvk ht hdorm hnone => ?_⟩
  · rw [State.getCore_setCore, if_pos rfl]
    exact Thief.widen_eq _
  · obtain rfl := State.dormant_core hdorm
    obtain ⟨x, y, hsteal, hxy, hlen⟩ := Core.steal_first hrecs hl hreach
    obtain ⟨d, hvictim⟩ := State.getCore_pmc (s.setCore v { b with siding := x, deque := y }) (r / 8) 13 v (some (r % 8))
    obtain ⟨e, hthief⟩ := State.getCore_pmc (s.setCore v { b with siding := x, deque := y }) (r / 8) 13 (r / 8) (some (r % 8))
    rw [State.getCore_setCore, if_pos rfl] at hvictim
    rw [State.getCore_setCore, if_neg hvk.symm] at hthief
    obtain ⟨_, _, hself⟩ := State.getCore_activate_same ((s.setCore v { b with siding := x, deque := y }).pmc (r / 8) 13 (some (r % 8)))
      r t.activation
    obtain ⟨_, _, hother⟩ := State.getCore_activate_ne ((s.setCore v { b with siding := x, deque := y }).pmc (r / 8) 13 (some (r % 8)))
      r t.activation hvk
    refine ⟨_, execStealServe_gives hask ht hdorm hsteal, ?_, ?_, ?_, ?_⟩
    · refine started_activate r _ (fun q => ?_) ?_ ?_
      · rw [State.getCtx_pmc, State.getCtx_setCore]
      · rw [hthief]
      · rw [hthief]
    · rw [hself]
      rfl
    · rw [hother, hvictim]
      exact hxy
    · rw [hother, hvictim]
      exact hlen
  · have hsteal : b.steal (fun r => domReaches r.dom v k) = none := Core.steal_none hnone
    obtain ⟨d, hvictim⟩ := State.getCore_pmc (s.setCore k { c with thief := c.thief.fail, stealing := none }) k 14 v none
    obtain ⟨e, hthief⟩ := State.getCore_pmc (s.setCore k { c with thief := c.thief.fail, stealing := none }) k 14 k none
    rw [State.getCore_setCore, if_neg hvk] at hvictim
    rw [State.getCore_setCore, if_pos rfl] at hthief
    refine ⟨_, execStealServe_fails hask ht hsteal, ?_, ?_, ?_, fun hf => ?_, fun hf => ?_⟩
    · rw [hthief]
    · rw [hvictim]
    · rw [hvictim]
    · rw [hthief]
      exact Thief.fail_early hf
    · rw [hthief]
      exact (Thief.fail_fourth hf).trans (Thief.widen_eq _)

/-- Settles O51: an activation starts its context as R14 says, and leaves of the cores what the statements name. -/
theorem activations : Obligations.Activations := ⟨taskStarts, steals⟩

end Sys2Proof.Machine
end

section
/-! The signal box and aging (08 R209, 12 R311 to R313). -/

namespace Sys2Proof.Machine

open Sys2Proof

/-! ## A faulted partition -/

theorem find_put {α : Type} (l : List (Nat × α)) (a b : Nat) (v : α) : find (put l a v) b = if b = a then some v else find l b := by
  induction l with
  | nil => rfl
  | cons e r ih =>
    obtain ⟨k, w⟩ := e
    by_cases hlt : a < k
    · simp only [put, if_pos hlt, find]
    · by_cases hk : a = k
      · subst hk
        by_cases hb : b = a <;> simp [put, find, hb]
      · by_cases hb : b = k
        · subst hb
          simp [put, find, hlt, hk, Ne.symm hk]
        · simp [put, find, hlt, hk, hb, ih]

theorem State.part_setPart (s : State) (i j : Nat) (p : Part) : (s.setPart i p).part j = if j = i then some p else s.part j := find_put ..

@[simp] theorem State.writeHeader_parts (s : State) (vf q off n v : Nat) : (s.writeHeader vf q off n v).parts = s.parts := by
  unfold State.writeHeader
  dsimp only
  split <;> rfl

@[simp] theorem State.stopQueue_parts (s : State) (h : HostQueue) : (s.stopQueue h).parts = s.parts := by
  rw [State.stopQueue, State.writeHeader_parts, State.writeHeader_parts]
  rfl

theorem State.stopQueues_parts : ∀ (l : List HostQueue) (s : State), (l.foldl State.stopQueue s).parts = s.parts
  | [], _ => rfl
  | h :: l, s => (State.stopQueues_parts l (s.stopQueue h)).trans (s.stopQueue_parts h)

/-- A faulted partition is idle, and no switch is announced to it. -/
theorem State.partFault_part (s : State) (i : Nat) (p : Part) (code : BitVec 8) (cid : BitVec 16) :
    (s.partFault i p code cid).part i = some { p with idle := true, round := none, switch := none, stopping := false } := by
  have hparts : (s.partFault i p code cid).parts =
      ((s.discardJob p).setPart i { p with idle := true, round := none, switch := none, stopping := false }).parts :=
    State.stopQueues_parts ..
  rw [State.part, hparts]
  exact (State.part_setPart ..).trans (if_pos rfl)

/-! ## DEP, the shapes and DONE -/

@[simp] theorem State.note_mem (s : State) (keys : List Nat) : (s.note keys).mem = s.mem := by
  unfold State.note State.noteAs
  split
  · rfl
  · split <;> rfl

@[simp] theorem State.homeStore_ctx (l : List Host.Cell) (s : State) : (State.homeStore s l).ctx = s.ctx := (SameUnits.homeStore l s).ctx

/-- The key of DEP: none where its access fails, and no key where DEP is 0. -/
def State.depKey (s : State) (p : Part) (quad : Nat) (t : TileRec) : Option (Option Nat) :=
  if tileWord t.words 0x50 = 0 then some none else (s.boxKey p t.prv .r quad (tileWord t.words 0x50)).map some

/-- What the signal box may look at: the record at the head of a queue of a partition that runs. -/
structure BoxHead (s : State) (quad q i : Nat) (p : Part) (t : TileRec) (rest : List TileRec) : Prop where
  queue : q < 64
  part : s.quadPart quad = some (i, p)
  idle : p.idle = false
  stopping : p.stopping = false
  stop : p.asid ∉ s.dev.dstops
  head : s.tileq (quad * 64 + q) = t :: rest
  ready : t.ready = none

section
variable {s : State} {quad q i : Nat} {p : Part} {t : TileRec} {rest : List TileRec} (h : BoxHead s quad q i p t rest)
include h

theorem BoxHead.goes : (p.idle || s.dev.dstops.contains p.asid || p.stopping || t.ready.isSome || decide (64 ≤ q)) = false := by
  have hq := h.queue
  simp [h.idle, h.stopping, h.stop, h.ready, hq]

theorem execSboxDepRead_noDep (hdep : s.depKey p quad t = none) : execSboxDepRead quad q s = .next (s.partFault i p 8 0xFFFF) := by
  unfold State.depKey at hdep
  simp only [execSboxDepRead, h.part, h.head, h.goes, hdep, Bool.false_eq_true, if_false]

theorem execSboxDepRead_waits {k : Nat} (hdep : s.depKey p quad t = some (some k)) (hpow : s.powered [k] = true)
    (hne : Mem.word s.mem k ≠ tileWord t.words 0x58) : execSboxDepRead quad q s = .next (s.note (byteKeys k 8)) := by
  have hany : (Option.toList (some k)).any (fun a => Mem.word s.mem a != tileWord t.words 0x58) = true := by simpa using hne
  have hnote : ((some k).toList.flatMap fun a => byteKeys a 8) = byteKeys k 8 := List.append_nil _
  unfold State.depKey at hdep
  have hp : s.powered (some k).toList = true := hpow
  simp only [execSboxDepRead, h.part, h.head, h.goes, hdep, Bool.false_eq_true, if_false, hp, hany, hnote, Bool.not_true, if_true]

section
variable {dep : Option Nat} (hdep : s.depKey p quad t = some dep) (hpow : s.powered dep.toList = true)
  (heq : ∀ k, dep = some k → Mem.word s.mem k = tileWord t.words 0x58)

include heq in
omit h in
theorem depHolds : (dep.toList.any fun a => Mem.word s.mem a != tileWord t.words 0x58) = false := by
  cases dep with
  | none => rfl
  | some k => simp [heq k rfl]

include hdep hpow heq

theorem execSboxDepRead_noKey (hkey : s.shapeKeys p t.prv quad (tileWord t.words 0x10) (tileWord t.words 0x18).toNat = none ∨
    s.boxKey p t.prv .rw quad (tileWord t.words 0x60) = none) : execSboxDepRead quad q s = .next (s.partFault i p 8 0xFFFF) := by
  have hholds := depHolds heq
  unfold State.depKey at hdep
  simp only [execSboxDepRead, h.part, h.head, h.goes, hdep, hpow, hholds, Bool.false_eq_true, if_false, Bool.not_true]
  rcases hkey with hkey | hkey
  · rw [hkey]
  · rw [hkey]
    cases s.shapeKeys p t.prv quad (tileWord t.words 0x10) (tileWord t.words 0x18).toNat <;> rfl

/-- The shapes of a record as they are read. -/
def shapesAt (s : State) (shs : List Nat) : List (BitVec 32 × BitVec 32) :=
  shs.map fun a => ((Mem.word s.mem a).extractLsb' 0 32, (Mem.word s.mem a).extractLsb' 32 32)

theorem execSboxDepRead_reads {shs : List Nat} {done : Nat}
    (hshapes : s.shapeKeys p t.prv quad (tileWord t.words 0x10) (tileWord t.words 0x18).toNat = some shs)
    (hdone : s.boxKey p t.prv .rw quad (tileWord t.words 0x60) = some done) (hpow' : s.powered (done :: shs) = true) :
    let l := shapesAt s shs
    let t' := TileRec.skip { t with ready := some l } l.length
    execSboxDepRead quad q s = .next (((s.note ((dep.toList ++ done :: shs).flatMap fun a => byteKeys a 8)).homeStore
      (cellsOf done 8 (Mem.word s.mem done + BitVec.ofNat 64 (l.map t'.tilesOf).sum - 1).toNat)).setTileq (quad * 64 + q)
        (if t'.done then rest else t' :: rest)) := by
  have hholds := depHolds heq
  unfold State.depKey at hdep
  simp only [execSboxDepRead, h.part, h.head, h.goes, hdep, hpow, hholds, hshapes, hdone, hpow', Bool.false_eq_true, if_false,
    Bool.not_true, State.note_mem] <;> rfl

end
end

/-! ## The tiles of a record (R207) -/

@[simp] theorem TileRec.skip_words : ∀ (fuel : Nat) (t : TileRec), (t.skip fuel).words = t.words
  | 0, _ => rfl
  | fuel + 1, t => by
    unfold TileRec.skip
    split
    · split
      · split
        · exact TileRec.skip_words fuel _
        · rfl
      · rfl
    · rfl

@[simp] theorem TileRec.skip_ready : ∀ (fuel : Nat) (t : TileRec), (t.skip fuel).ready = t.ready
  | 0, _ => rfl
  | fuel + 1, t => by
    unfold TileRec.skip
    split
    · split
      · split
        · exact TileRec.skip_ready fuel _
        · rfl
      · rfl
    · rfl

theorem TileRec.tilesOf_congr {t u : TileRec} (h : u.words = t.words) : u.tilesOf = t.tilesOf := by
  funext sh
  unfold TileRec.tilesOf TileRec.counts
  rw [h]

/-- A group without tiles, or a place past the last group. -/
def TileRec.emptyAt (t : TileRec) (l : List (BitVec 32 × BitVec 32)) (j : Nat) : Prop := ∀ sh, l[j]? = some sh → t.tilesOf sh = 0

section
variable {l : List (BitVec 32 × BitVec 32)} {sh : BitVec 32 × BitVec 32}

theorem TileRec.skip_empty {t : TileRec} (hl : t.ready = some l) (hsh : l[t.g]? = some sh) (h0 : t.tilesOf sh = 0) (fuel : Nat) :
    t.skip (fuel + 1) = TileRec.skip { t with g := t.g + 1, m := 0, n := 0 } fuel := by
  simp only [TileRec.skip, hl, hsh, h0, if_true]

theorem TileRec.skip_stays {t : TileRec} (hl : t.ready = some l) (hsh : l[t.g]? = some sh) (h0 : t.tilesOf sh ≠ 0) (fuel : Nat) :
    t.skip fuel = t := by
  cases fuel with
  | zero => rfl
  | succ fuel => simp only [TileRec.skip, hl, hsh, h0, if_false]

theorem TileRec.skip_past {t : TileRec} (hl : t.ready = some l) (hsh : l[t.g]? = none) (fuel : Nat) : t.skip fuel = t := by
  cases fuel with
  | zero => rfl
  | succ fuel => simp only [TileRec.skip, hl, hsh]

/-- From the first tile of a group on, the record comes to the next group with tiles. -/
theorem TileRec.skip_reaches {t : TileRec} {g : Nat} (hl : t.ready = some l) (hg : l[g]? = some sh) (h0 : t.tilesOf sh ≠ 0) :
    ∀ (fuel a : Nat), a ≤ g → g ≤ a + fuel → (∀ j, a ≤ j → j < g → t.emptyAt l j) →
      TileRec.skip { t with g := a, m := 0, n := 0 } fuel = { t with g := g, m := 0, n := 0 } := by
  intro fuel
  induction fuel with
  | zero =>
    intro a hle hf _
    obtain rfl : a = g := by omega
    rfl
  | succ fuel ih =>
    intro a hle hf hempty
    by_cases ha : a = g
    · subst ha
      exact TileRec.skip_stays (t := { t with g := a, m := 0, n := 0 }) hl hg h0 _
    · have hlt : a < l.length := by
        have := (List.getElem?_eq_some_iff.mp hg).1
        omega
      have hsh : l[a]? = some l[a] := List.getElem?_eq_getElem hlt
      rw [TileRec.skip_empty (t := { t with g := a, m := 0, n := 0 }) hl hsh (hempty a (le_refl _) (by omega) _ hsh)]
      exact ih (a + 1) (by omega) (by omega) fun j hj => hempty j (by omega)

/-- Where no group with tiles is left, the record is done. -/
theorem TileRec.skip_exhausts : ∀ (fuel : Nat) (t : TileRec), t.ready = some l → (∀ j, t.g ≤ j → t.emptyAt l j) →
    l.length ≤ t.g + fuel → (t.skip fuel).done = true
  | 0, t, hl, _, hf => by
    simp only [TileRec.skip, TileRec.done, hl]
    exact decide_eq_true hf
  | fuel + 1, t, hl, hempty, hf => by
    cases hsh : l[t.g]? with
    | none =>
      rw [TileRec.skip_past hl hsh]
      simp only [TileRec.done, hl]
      exact decide_eq_true (List.getElem?_eq_none_iff.mp hsh)
    | some sh =>
      rw [TileRec.skip_empty hl hsh (hempty _ (le_refl _) sh hsh)]
      exact TileRec.skip_exhausts fuel _ hl (fun j hj => hempty j (Nat.le_of_succ_le hj)) (by dsimp only; omega)

/-- A group with tiles is not passed. -/
theorem TileRec.skip_le {g : Nat} (hg : l[g]? = some sh) : ∀ (fuel : Nat) (t : TileRec), t.ready = some l → t.g ≤ g → t.tilesOf sh ≠ 0 →
    (t.skip fuel).g ≤ g
  | 0, _, _, hle, _ => hle
  | fuel + 1, t, hl, hle, h0 => by
    cases hsh : l[t.g]? with
    | none => rwa [TileRec.skip_past hl hsh]
    | some x =>
      by_cases hx : t.tilesOf x = 0
      · have hne : t.g ≠ g := by
          rintro rfl
          exact h0 (Option.some.inj (hsh.symm.trans hg) ▸ hx)
        rw [TileRec.skip_empty hl hsh hx]
        exact TileRec.skip_le hg fuel _ hl (by dsimp only; omega) h0
      · rwa [TileRec.skip_stays hl hsh hx]

end

/-! ## The shapes in memory -/

theorem leNat_append : ∀ a b : List Byte, leNat (a ++ b) = leNat a + 256 ^ a.length * leNat b
  | [], _ => by simp [leNat]
  | x :: a, b => by
    rw [List.cons_append, leNat, leNat_append a b, leNat, List.length_cons, Nat.pow_succ]
    ring

theorem leNat_lt : ∀ l : List Byte, leNat l < 256 ^ l.length
  | [] => by simp [leNat]
  | x :: l => by
    have hx := x.isLt
    have hl := leNat_lt l
    rw [leNat, List.length_cons, Nat.pow_succ]
    omega

theorem Mem.bytes_append (m : List Host.Cell) (a i j : Nat) : Mem.bytes m a (i + j) = Mem.bytes m a i ++ Mem.bytes m (a + i) j := by
  simp only [Mem.bytes, List.range_add, List.map_append, List.map_map]
  congr 1
  exact List.map_congr_left fun x _ => by simp [Nat.add_assoc]

/-- The halves of a word are the four bytes at its address and the four after them. -/
theorem Mem.word_halves (m : List Host.Cell) (a : Nat) : ((Mem.word m a).extractLsb' 0 32).toNat = leNat (Mem.bytes m a 4) ∧
    ((Mem.word m a).extractLsb' 32 32).toNat = leNat (Mem.bytes m (a + 4) 4) := by
  have hlen (b : Nat) : (Mem.bytes m b 4).length = 4 := by simp [Mem.bytes]
  have hlo := leNat_lt (Mem.bytes m a 4)
  have hhi := leNat_lt (Mem.bytes m (a + 4) 4)
  rw [hlen] at hlo hhi
  have hword : (Mem.word m a).toNat = leNat (Mem.bytes m a 4) + 256 ^ 4 * leNat (Mem.bytes m (a + 4) 4) := by
    rw [Mem.word, Mem.bytes_append m a 4 4, leNat_append, hlen, BitVec.toNat_ofNat, Nat.mod_eq_of_lt (by omega)]
  rw [field_toNat, field_toNat, hword]
  omega

/-! ## The record whose DEP has come -/

/-- Its tiles in number: of the groups whose entries lie at keys. -/
theorem shapesAt_tiles (s : State) (t : TileRec) (shs : List Nat) : (shapesAt s shs).map t.tilesOf = shs.map fun k =>
    let m := leNat (Mem.bytes s.mem k 4)
    let n := leNat (Mem.bytes s.mem (k + 4) 4)
    let mt := (t.words.getD 1 0).toNat % 2 ^ 16
    let nt := (t.words.getD 1 0).toNat / 2 ^ 16 % 2 ^ 16
    (m + mt - 1) / mt * ((n + nt - 1) / nt) := by
  rw [shapesAt, List.map_map]
  refine List.map_congr_left fun k _ => ?_
  obtain ⟨hm, hn⟩ := Mem.word_halves s.mem k
  have hshp : tileWord t.words 0x08 = t.words.getD 1 0 := rfl
  simp only [Function.comp, TileRec.tilesOf, TileRec.counts, ceilDiv, hshp, hm, hn, field_toNat, pow_zero, Nat.div_one]

/-- With no tile in any group the record is done; with one it stays, its shapes read. -/
theorem TileRec.skip_done {t : TileRec} {l : List (BitVec 32 × BitVec 32)} (hl : t.ready = some l) (hg : t.g = 0) :
    ((l.map t.tilesOf).sum = 0 → (t.skip l.length).done = true) ∧ ((l.map t.tilesOf).sum ≠ 0 → (t.skip l.length).done = false) := by
  refine ⟨fun h => TileRec.skip_exhausts _ t hl (fun j _ sh hsh => ?_) (by omega), fun h => ?_⟩
  · exact List.sum_eq_zero_iff.mp h _ (List.mem_map_of_mem (List.mem_of_getElem? hsh))
  · obtain ⟨n, hn, hne⟩ : ∃ n ∈ l.map t.tilesOf, n ≠ 0 := by
      by_contra hall
      exact h (List.sum_eq_zero_iff.mpr fun n hn => by_contra fun hne => hall ⟨n, hn, hne⟩)
    obtain ⟨sh, hsh, rfl⟩ := List.mem_map.mp hn
    obtain ⟨j, hj⟩ := List.mem_iff_getElem?.mp hsh
    have hle := TileRec.skip_le hj l.length t hl (by omega) hne
    have hlt := (List.getElem?_eq_some_iff.mp hj).1
    simp only [TileRec.done, TileRec.skip_ready, hl]
    exact decide_eq_false (by omega)

end Sys2Proof.Machine
end

section
/-! The signal box's choice of a tile and of its core (12 R312), and the statement of its family. -/

namespace Sys2Proof.Machine

open Sys2Proof

/-! ## The least-loaded core -/

theorem State.leastLoaded_none {s : State} : ∀ {l : List Nat}, s.leastLoaded l = none → l = []
  | [], _ => rfl
  | k :: l, h => by
    rw [State.leastLoaded] at h
    split at h
    · exact absurd h (by simp)
    · split at h <;> exact absurd h (by simp)

/-- The chosen core is on the list, loaded no more than any other there, and the first of those loaded as little. -/
theorem State.leastLoaded_spec {s : State} : ∀ {l : List Nat} {k : Nat}, s.leastLoaded l = some k → l.Pairwise (· < ·) →
    k ∈ l ∧ ∀ j ∈ l, s.load k ≤ s.load j ∧ (s.load j = s.load k → k ≤ j)
  | x :: l, k, h, hsort => by
    obtain ⟨hx, hsort⟩ := List.pairwise_cons.mp hsort
    rw [State.leastLoaded] at h
    split at h
    next hnone =>
      obtain rfl := State.leastLoaded_none hnone
      obtain rfl := Option.some.inj h
      simp
    next y hy =>
      obtain ⟨hmem, hmin⟩ := State.leastLoaded_spec hy hsort
      split at h
      next hlt =>
        obtain rfl := Option.some.inj h
        refine ⟨List.mem_cons_of_mem _ hmem, fun j hj => ?_⟩
        rcases List.mem_cons.mp hj with rfl | hj
        · exact ⟨hlt.le, fun he => absurd he hlt.ne'⟩
        · exact hmin j hj
      next hle =>
        obtain rfl := Option.some.inj h
        refine ⟨List.mem_cons_self, fun j hj => ?_⟩
        rcases List.mem_cons.mp hj with rfl | hj
        · exact ⟨le_refl _, fun _ => le_refl _⟩
        · exact ⟨(Nat.not_lt.mp hle).trans (hmin j hj).1, fun _ => (hx j hj).le⟩

theorem State.leastLoaded_eq {s : State} {l : List Nat} {k : Nat} (hsort : l.Pairwise (· < ·)) (hk : k ∈ l)
    (hmin : ∀ j ∈ l, s.load k ≤ s.load j ∧ (s.load j = s.load k → k ≤ j)) : s.leastLoaded l = some k := by
  cases h : s.leastLoaded l with
  | none => exact absurd (State.leastLoaded_none h ▸ hk) List.not_mem_nil
  | some j =>
    obtain ⟨hj, hjmin⟩ := State.leastLoaded_spec h hsort
    have hload : s.load j = s.load k := le_antisymm (hjmin k hk).1 (hmin j hj).1
    exact congrArg some (le_antisymm ((hjmin k hk).2 hload.symm) ((hmin j hj).2 hload))

/-! ## The cores of a mask -/

theorem mem_maskCores {quad k : Nat} {mask : Word} :
    k ∈ maskCores quad mask ↔ ∃ clus < 20, ∃ j < 8, mask.getLsbD clus = true ∧ k = (quad * 20 + clus) * 9 + j := by
  unfold maskCores
  rw [List.mem_flatMap]
  constructor
  · rintro ⟨clus, hclus, hk⟩
    split at hk
    next hbit =>
      obtain ⟨j, hj, rfl⟩ := List.mem_map.mp hk
      exact ⟨clus, List.mem_range.mp hclus, j, List.mem_range.mp hj, hbit, rfl⟩
    next => exact absurd hk List.not_mem_nil
  · rintro ⟨clus, hclus, j, hj, hbit, rfl⟩
    refine ⟨clus, List.mem_range.mpr hclus, ?_⟩
    rw [if_pos hbit]
    exact List.mem_map_of_mem (List.mem_range.mpr hj)

theorem maskCores_sorted (quad : Nat) (mask : Word) : (maskCores quad mask).Pairwise (· < ·) := by
  unfold maskCores
  rw [List.pairwise_flatMap]
  refine ⟨fun clus _ => ?_, List.pairwise_lt_range.imp fun {a b} hab x hx y hy => ?_⟩
  · split
    · exact List.pairwise_lt_range.map _ fun a b hab => by omega
    · exact List.Pairwise.nil
  · have hcore {c z : Nat} (hz : z ∈ if mask.getLsbD c = true then (List.range 8).map ((quad * 20 + c) * 9 + ·) else []) :
        ∃ j < 8, z = (quad * 20 + c) * 9 + j := by
      split at hz
      · obtain ⟨j, hj, rfl⟩ := List.mem_map.mp hz
        exact ⟨j, List.mem_range.mp hj, rfl⟩
      · exact absurd hz List.not_mem_nil
    obtain ⟨i, hi, rfl⟩ := hcore hx
    obtain ⟨j, hj, rfl⟩ := hcore hy
    omega

/-- The contexts that a core of the mesh holds. -/
theorem State.load_eq (s : State) {k : Nat} (h : isMaster k = false) :
    s.load k = ((List.range 8).filter fun c => (s.getCtx (8 * k + c)).phase != .dormant).length := by
  have hctxs : ctxsOf k = (List.range 8).map (k * 8 + ·) := by simp [ctxsOf, h]
  rw [State.load, State.coreCtxs, hctxs, List.map_map, List.filter_map, List.length_map, Nat.mul_comm k 8]
  rfl

/-! ## The queue whose turn it is -/

/-- A queue with its core, its head and the rest. -/
abbrev BoxTurn := Nat × Nat × TileRec × List TileRec

theorem bestTile_none : ∀ {l : List BoxTurn}, bestTile l = none → l = []
  | [], _ => rfl
  | x :: l, h => by
    rw [bestTile] at h
    split at h
    · exact absurd h (by simp)
    · split at h <;> exact absurd h (by simp)

/-- The chosen queue has the highest PRIO, and is the first of those that have it. -/
theorem bestTile_spec : ∀ {l : List BoxTurn} {x : BoxTurn}, bestTile l = some x → l.Pairwise (fun a b => a.2.1 < b.2.1) →
    x ∈ l ∧ ∀ y ∈ l, y.2.2.1.prio.toNat ≤ x.2.2.1.prio.toNat ∧ (y.2.2.1.prio.toNat = x.2.2.1.prio.toNat → x.2.1 ≤ y.2.1)
  | z :: l, x, h, hsort => by
    obtain ⟨hz, hsort⟩ := List.pairwise_cons.mp hsort
    rw [bestTile] at h
    split at h
    next hnone =>
      obtain rfl := bestTile_none hnone
      obtain rfl := Option.some.inj h
      simp
    next y hy =>
      obtain ⟨hmem, hmax⟩ := bestTile_spec hy hsort
      split at h
      next hlt =>
        obtain rfl := Option.some.inj h
        refine ⟨List.mem_cons_of_mem _ hmem, fun j hj => ?_⟩
        rcases List.mem_cons.mp hj with rfl | hj
        · exact ⟨hlt.le, fun he => absurd he hlt.ne⟩
        · exact hmax j hj
      next hle =>
        obtain rfl := Option.some.inj h
        refine ⟨List.mem_cons_self, fun j hj => ?_⟩
        rcases List.mem_cons.mp hj with rfl | hj
        · exact ⟨le_refl _, fun _ => le_refl _⟩
        · exact ⟨(hmax j hj).1.trans (Nat.not_lt.mp hle), fun _ => (hz j hj).le⟩

theorem State.dispatchable_eq_some {s : State} {quad q : Nat} {x : BoxTurn} (h : s.dispatchable quad q = some x) :
    x.2.1 = q ∧ s.tileq (quad * 64 + q) = x.2.2.1 :: x.2.2.2 ∧ x.2.2.1.ready.isSome = true ∧
    s.leastLoaded ((maskCores quad (tileWord x.2.2.1.words 0x70)).filter fun k => s.running k && s.hasRoom k) = some x.1 := by
  unfold State.dispatchable at h
  split at h
  next t rest hq =>
    split at h
    next hready =>
      split at h
      next k hk =>
        obtain rfl := Option.some.inj h
        exact ⟨rfl, hq, hready, hk⟩
      next => exact absurd h (by simp)
    next => exact absurd h (by simp)
  next => exact absurd h (by simp)

theorem State.dispatchable_of {s : State} {quad q k : Nat} {t : TileRec} {rest : List TileRec}
    (hq : s.tileq (quad * 64 + q) = t :: rest) (hready : t.ready.isSome = true)
    (hk : s.leastLoaded ((maskCores quad (tileWord t.words 0x70)).filter fun k => s.running k && s.hasRoom k) = some k) :
    s.dispatchable quad q = some (k, q, t, rest) := by
  simp only [State.dispatchable, hq, hready, hk, if_true]

/-- The turns of a quadrant's queues, in the order of the queues. -/
def State.turns (s : State) (quad : Nat) : List BoxTurn := (List.range 64).filterMap (s.dispatchable quad)

theorem State.turns_sorted (s : State) (quad : Nat) : (s.turns quad).Pairwise fun a b => a.2.1 < b.2.1 := by
  refine List.pairwise_lt_range.filterMap _ fun a b hab x hx y hy => ?_
  rw [(State.dispatchable_eq_some hx).1, (State.dispatchable_eq_some hy).1]
  exact hab

theorem State.bestTile_eq {s : State} {quad q : Nat} {x : BoxTurn} (hq : q < 64) (hx : s.dispatchable quad q = some x)
    (hmax : ∀ y ∈ s.turns quad, y.2.2.1.prio.toNat ≤ x.2.2.1.prio.toNat ∧ (y.2.2.1.prio.toNat = x.2.2.1.prio.toNat → q ≤ y.2.1)) :
    bestTile (s.turns quad) = some x := by
  have hmem : x ∈ s.turns quad := List.mem_filterMap.mpr ⟨q, List.mem_range.mpr hq, hx⟩
  cases h : bestTile (s.turns quad) with
  | none => exact absurd (bestTile_none h ▸ hmem) List.not_mem_nil
  | some y =>
    obtain ⟨hy, hymax⟩ := bestTile_spec h (s.turns_sorted quad)
    have hprio := le_antisymm (hmax y hy).1 (hymax x hmem).1
    have hle : y.2.1 ≤ q := (State.dispatchable_eq_some hx).1 ▸ (hymax x hmem).2 hprio.symm
    have hqueue : y.2.1 = q := le_antisymm hle ((hmax y hy).2 hprio)
    obtain ⟨q', -, hq'⟩ := List.mem_filterMap.mp hy
    obtain rfl : q' = q := (State.dispatchable_eq_some hq').1.symm.trans hqueue
    exact hq'.symm.trans hx

/-! ## The tile that is dispatched -/

@[simp] theorem State.tileq_modCore (s : State) (k q : Nat) (f : Core → Core) : (s.modCore k f).tileq q = s.tileq q := by
  unfold State.modCore State.setCore; split <;> rfl

@[simp] theorem State.tileq_modCtx (s : State) (r q : Nat) (f : Ctx → Ctx) : (s.modCtx r f).tileq q = s.tileq q := by
  unfold State.modCtx State.setCtx; split <;> rfl

theorem State.tileq_setTileq (s : State) (q j : Nat) (l : List TileRec) : (s.setTileq q l).tileq j = if j = q then l else s.tileq j :=
  look_put ..

/-- A tile as its core takes delivery of it. -/
def TileRec.act (t : TileRec) (r q : Nat) : TileAct :=
  ⟨r, tileWord t.words 0, BitVec.ofNat 64 t.g, BitVec.ofNat 64 t.m, BitVec.ofNat 64 t.n, t.addr, (tileWord t.words 0x68).extractLsb' 10 2,
    t.prio, q⟩

theorem execTileDispatch_dispatches {s : State} {quad k q r : Nat} {t : TileRec} {rest : List TileRec}
    (hbest : bestTile (s.turns quad) = some (k, q, t, rest)) (hdorm : s.dormant k = some r) :
    execTileDispatch quad s = .next (((s.setTileq (quad * 64 + q) (if t.next.done then rest else t.next :: rest)).modCtx r fun c =>
      { c with phase := .waiting, kind := .tile }).modCore k fun c => { c.endThief with tileActs := c.tileActs ++ [t.act r q] }) := by
  unfold State.turns at hbest
  simp only [execTileDispatch, hbest, hdorm] <;> rfl

section
variable {t : TileRec} {l : List (BitVec 32 × BitVec 32)} {sh : BitVec 32 × BitVec 32} (hl : t.ready = some l) (hsh : l[t.g]? = some sh)
include hl hsh

theorem TileRec.next_n (h : t.n + 1 < (t.counts sh).2) : t.next = { t with n := t.n + 1 } := by
  simp only [TileRec.next, hl, hsh, h, if_true]

theorem TileRec.next_m (hn : (t.counts sh).2 ≤ t.n + 1) (hm : t.m + 1 < (t.counts sh).1) : t.next = { t with m := t.m + 1, n := 0 } := by
  simp only [TileRec.next, hl, hsh, hm, if_neg (Nat.not_lt.mpr hn), if_true]

theorem TileRec.next_g (hn : (t.counts sh).2 ≤ t.n + 1) (hm : (t.counts sh).1 ≤ t.m + 1) :
    t.next = TileRec.skip { t with g := t.g + 1, m := 0, n := 0 } l.length := by
  simp only [TileRec.next, hl, hsh, if_neg (Nat.not_lt.mpr hn), if_neg (Nat.not_lt.mpr hm)]

end

/-- A record at one of its groups is not done. -/
theorem TileRec.done_eq_false {t : TileRec} {l : List (BitVec 32 × BitVec 32)} {sh : BitVec 32 × BitVec 32} (hl : t.ready = some l)
    (hsh : l[t.g]? = some sh) : t.done = false := by
  have hlt := (List.getElem?_eq_some_iff.mp hsh).1
  simp only [TileRec.done, hl]
  exact decide_eq_false (by omega)

theorem TileRec.counts_eq (t : TileRec) (sh : BitVec 32 × BitVec 32) :
    let up (a b : Nat) : Nat := (a + b - 1) / b
    t.counts sh = (up sh.1.toNat ((t.words.getD 1 0).toNat % 2 ^ 16), up sh.2.toNat ((t.words.getD 1 0).toNat / 2 ^ 16 % 2 ^ 16)) := by
  have hshp : tileWord t.words 0x08 = t.words.getD 1 0 := rfl
  simp only [TileRec.counts, ceilDiv, hshp, field_toNat, pow_zero, Nat.div_one]

/-- What is left of a record after a tile: the next n, then m, then the next group with tiles, else nothing. -/
theorem TileRec.next_cases {t : TileRec} {l : List (BitVec 32 × BitVec 32)} {sh : BitVec 32 × BitVec 32} (hl : t.ready = some l)
    (hsh : l[t.g]? = some sh) (rest : List TileRec) :
    let left := if t.next.done then rest else t.next :: rest
    (t.n + 1 < (t.counts sh).2 → left = { t with n := t.n + 1 } :: rest) ∧
    ((t.counts sh).2 ≤ t.n + 1 → t.m + 1 < (t.counts sh).1 → left = { t with m := t.m + 1, n := 0 } :: rest) ∧
    ((t.counts sh).2 ≤ t.n + 1 → (t.counts sh).1 ≤ t.m + 1 →
      (∀ g, t.g < g → (∀ j, t.g < j → j < g → t.emptyAt l j) → ¬t.emptyAt l g → left = { t with g := g, m := 0, n := 0 } :: rest) ∧
      ((∀ j, t.g < j → t.emptyAt l j) → left = rest)) := by
  intro left
  have hstays {u : TileRec} (hu : t.next = u) (hdone : u.done = false) : left = u :: rest := by
    simp only [left, hu, hdone, Bool.false_eq_true, if_false]
  refine ⟨fun hn => hstays (TileRec.next_n hl hsh hn) (TileRec.done_eq_false hl hsh),
    fun hn hm => hstays (TileRec.next_m hl hsh hn hm) (TileRec.done_eq_false hl hsh), fun hn hm => ⟨fun g hg hempty hne => ?_, fun hempty => ?_⟩⟩
  · obtain ⟨x, hx, h0⟩ : ∃ x, l[g]? = some x ∧ t.tilesOf x ≠ 0 := by
      by_contra hno
      exact hne fun x hx => by_contra fun h0 => hno ⟨x, hx, h0⟩
    have hlt := (List.getElem?_eq_some_iff.mp hx).1
    refine hstays ?_ (TileRec.done_eq_false (t := { t with g := g, m := 0, n := 0 }) hl hx)
    rw [TileRec.next_g hl hsh hn hm]
    exact TileRec.skip_reaches hl hx h0 _ _ hg (by omega) hempty
  · have hdone : t.next.done = true := by
      rw [TileRec.next_g hl hsh hn hm]
      exact TileRec.skip_exhausts _ { t with g := t.g + 1, m := 0, n := 0 } hl hempty (by dsimp only; omega)
    simp only [left, hdone, if_true]

/-! ## Delivered tiles and aging -/

theorem execTileActivation_starts {s : State} {k : Nat} {a : TileAct} {l : List TileAct} (hrun : s.running k = true)
    (h1 : s.vn1Ready k = none) (h0 : s.vn0Ready k = none) (hacts : (s.getCore k).tileActs = a :: l) (hlim : s.withinLimits k = true) :
    execTileActivation k s = .next ((s.modCore k fun c => { c with tileActs := l }).activate a.ctx a.activation) := by
  simp [execTileActivation, hrun, h1, h0, hacts, hlim]

theorem execTileActivation_refuses {s : State} {k : Nat} (hlim : s.withinLimits k = false) : execTileActivation k s = .next s := by
  simp [execTileActivation, hlim]

theorem execPrioAging_rises {s : State} {c : Nat} (h : 64 ≤ (s.getCtx c).aging) : execPrioAging c s =
    .next (s.setCtx c { s.getCtx c with aging := 0, eff := BitVec.ofNat 7 (min ((s.getCtx c).eff.toNat + 1) 127) }) := by
  have heff (e : BitVec 7) : (if e = 127 then 127 else e + 1) = BitVec.ofNat 7 (min (e.toNat + 1) 127) := by
    revert e
    decide
  simp only [execPrioAging, State.modCtx, h, if_true, heff]

theorem execPrioAging_stays {s : State} {c : Nat} (h : (s.getCtx c).aging < 64) : execPrioAging c s =
    .next (s.setCtx c (s.getCtx c)) := by
  simp only [execPrioAging, State.modCtx, if_neg (Nat.not_le.mpr h)]

/-! ## The statement -/

theorem State.partFault_idle (s : State) (i : Nat) (p : Part) (code : BitVec 8) (cid : BitVec 16) :
    ∃ p', (s.partFault i p code cid).part i = some p' ∧ p'.idle = true :=
  ⟨_, State.partFault_part .., rfl⟩

theorem State.depKey_eq {s : State} {p : Part} {quad : Nat} {t : TileRec} {dep : Option Nat}
    (h : match dep with | none => t.words.getD 10 0 = 0 | some k => t.words.getD 10 0 ≠ 0 ∧ s.boxKey p t.prv .r quad (t.words.getD 10 0) = some k) :
    s.depKey p quad t = some dep := by
  cases dep with
  | none => exact if_pos h
  | some k => exact (if_neg h.1).trans (congrArg (Option.map some) h.2)

/-- The read of DEP, and of the shapes once it has come. -/
theorem boxRead_gives {s : State} {quad q i : Nat} {p : Part} {t : TileRec} {rest : List TileRec} (h : BoxHead s quad q i p t rest)
    (hg : t.g = 0) {dep : Option Nat} (hdep : s.depKey p quad t = some dep) (hpow : s.powered dep.toList = true)
    (heq : ∀ k, dep = some k → Mem.word s.mem k = tileWord t.words 0x58) {shs : List Nat} {done : Nat}
    (hshapes : s.shapeKeys p t.prv quad (tileWord t.words 0x10) (tileWord t.words 0x18).toNat = some shs)
    (hdone : s.boxKey p t.prv .rw quad (tileWord t.words 0x60) = some done) (hpow' : s.powered (done :: shs) = true) :
    let total := ((shapesAt s shs).map t.tilesOf).sum
    ∃ u, execSboxDepRead quad q s = .next u ∧ u.ctx = s.ctx ∧ Stored s u (cellsOf done 8 (Mem.word s.mem done + ofN total - 1).toNat) ∧
      (total = 0 → u.tileq (quad * 64 + q) = rest) ∧
      (total ≠ 0 → ∃ t', u.tileq (quad * 64 + q) = t' :: rest ∧ t'.ready.isSome = true ∧ t'.words = t.words) := by
  intro total
  obtain ⟨hempty, hsome⟩ := TileRec.skip_done (t := { t with ready := some (shapesAt s shs) }) rfl hg
  have htiles : (TileRec.skip { t with ready := some (shapesAt s shs) } (shapesAt s shs).length).tilesOf = t.tilesOf :=
    TileRec.tilesOf_congr (TileRec.skip_words ..)
  have hreads := execSboxDepRead_reads h hdep hpow heq hshapes hdone hpow'
  dsimp only at hreads
  rw [htiles] at hreads
  refine ⟨_, hreads, ?_, ?_, fun h0 => ?_, fun h0 => ?_⟩
  · change (State.homeStore _ _).ctx = s.ctx
    rw [State.homeStore_ctx, State.note, State.noteAs_ctx]
  · have hstored := State.homeStore_stored (cellsOf done 8 (Mem.word s.mem done + ofN total - 1).toNat)
      (s.note ((dep.toList ++ done :: shs).flatMap fun a => byteKeys a 8))
    intro hwf a
    have hbyte := hstored (by rwa [State.note_mem]) a
    rw [State.note_mem] at hbyte
    exact hbyte
  · rw [State.tileq_setTileq, if_pos rfl, hempty h0, if_pos rfl]
  · rw [State.tileq_setTileq, if_pos rfl, hsome h0]
    exact ⟨_, rfl, by rw [TileRec.skip_ready]; rfl, TileRec.skip_words ..⟩

/-- The quadrant's compute cores are cores of the mesh. -/
theorem maskCore_not_master {quad clus j : Nat} (hquad : quad < 16) (hclus : clus < 20) (hj : j < 8) :
    isMaster ((quad * 20 + clus) * 9 + j) = false :=
  beq_false_of_ne (show _ ≠ 2898 by omega)

theorem TileRec.prio_toNat (t : TileRec) : t.prio.toNat = (t.words.getD 13 0).toNat % 128 := by
  have hw : tileWord t.words 0x68 = t.words.getD 13 0 := rfl
  have hfield := field_toNat (t.words.getD 13 0) 0 7
  rw [TileRec.prio, hw]
  omega

/-- A core that a record's mask allows and that may take a tile. -/
def State.mayTake (s : State) (quad : Nat) (t : TileRec) (k : Nat) : Prop :=
  ∃ clus < 20, ∃ j < 8, (t.words.getD 14 0).getLsbD clus = true ∧
    k = (quad * 20 + clus) * 9 + j ∧ s.running k = true ∧ s.hasRoom k = true

theorem State.mem_takers {s : State} {quad k : Nat} {t : TileRec} :
    k ∈ (maskCores quad (tileWord t.words 0x70)).filter (fun k => s.running k && s.hasRoom k) ↔ s.mayTake quad t k := by
  have hw : tileWord t.words 0x70 = t.words.getD 14 0 := rfl
  rw [List.mem_filter, mem_maskCores, Bool.and_eq_true, hw]
  constructor
  · rintro ⟨⟨clus, hclus, j, hj, hbit, rfl⟩, hrun, hroom⟩
    exact ⟨clus, hclus, j, hj, hbit, rfl, hrun, hroom⟩
  · rintro ⟨clus, hclus, j, hj, hbit, rfl, hrun, hroom⟩
    exact ⟨⟨clus, hclus, j, hj, hbit, rfl⟩, hrun, hroom⟩

/-- The queue that the statement names is the one whose turn it is, with its core. -/
theorem State.turn_of {s : State} {quad q k : Nat} {t : TileRec} {rest : List TileRec}
    (held : Nat → Nat) (hheld : ∀ j, isMaster j = false → s.load j = held j) (hquad : quad < 16) (hq : q < 64)
    (hhead : s.tileq (quad * 64 + q) = t :: rest) (hready : t.ready.isSome = true) (hmay : s.mayTake quad t k)
    (hleast : ∀ j, s.mayTake quad t j → held k ≤ held j ∧ (held j = held k → k ≤ j))
    (hturn : ∀ q' t' rest', q' < 64 → s.tileq (quad * 64 + q') = t' :: rest' → t'.ready.isSome = true → (∃ j, s.mayTake quad t' j) →
      (t'.words.getD 13 0).toNat % 128 ≤ (t.words.getD 13 0).toNat % 128 ∧
        ((t'.words.getD 13 0).toNat % 128 = (t.words.getD 13 0).toNat % 128 → q ≤ q')) :
    bestTile (s.turns quad) = some (k, q, t, rest) := by
  have hload {j : Nat} (hj : s.mayTake quad t j) : s.load j = held j := by
    obtain ⟨clus, hclus, n, hn, -, rfl, -⟩ := hj
    exact hheld _ (maskCore_not_master hquad hclus hn)
  have hcore := State.leastLoaded_eq ((maskCores_sorted quad (tileWord t.words 0x70)).filter _) (State.mem_takers.mpr hmay) fun j hj => by
    have hj := State.mem_takers.mp hj
    rw [hload hmay, hload hj]
    exact hleast j hj
  refine State.bestTile_eq hq (State.dispatchable_of hhead hready hcore) fun y hy => ?_
  obtain ⟨q', hq', hy⟩ := List.mem_filterMap.mp hy
  obtain ⟨rfl, hhead', hready', hcore'⟩ := State.dispatchable_eq_some hy
  obtain ⟨htaker, -⟩ := State.leastLoaded_spec hcore' ((maskCores_sorted quad _).filter _)
  rw [TileRec.prio_toNat, TileRec.prio_toNat]
  exact hturn _ _ _ (List.mem_range.mp hq') hhead' hready' ⟨_, State.mem_takers.mp htaker⟩

/-- Settles O38: what the signal box reads and stores, which tile it gives to which core, and how the core starts it. -/
theorem signalBox : Obligations.SignalBox := by
  intro s quad q i c p t rest w faults head
  have hbox (h : head) : BoxHead s quad q i p t rest ∧ t.g = 0 := by
    obtain ⟨hq, hpart, hidle, hstopping, hstop, hhead, hready, hg⟩ := h
    exact ⟨⟨hq, hpart, hidle, hstopping, hstop, hhead, hready⟩, hg⟩
  refine ⟨fun shs done dep h hdep hpow => ⟨?_, fun heq hkey => ?_, fun heq hshapes hdone hpow' => ?_⟩, fun h h10 hkey => ?_, ?_,
    fun k a l hrun h1 h0 hacts hk _ => ⟨fun hlim => ?_, execTileActivation_refuses⟩, execPrioAging_rises, execPrioAging_stays⟩
  · rintro k rfl hne
    exact execSboxDepRead_waits (hbox h).1 (State.depKey_eq hdep) hpow hne
  · exact ⟨_, execSboxDepRead_noKey (hbox h).1 (State.depKey_eq hdep) hpow heq hkey, State.partFault_idle ..⟩
  · have hgives := boxRead_gives (hbox h).1 (hbox h).2 (State.depKey_eq hdep) hpow heq hshapes hdone hpow'
    rw [shapesAt_tiles] at hgives
    exact hgives
  · refine ⟨_, execSboxDepRead_noDep (hbox h).1 ((if_neg h10).trans ?_), State.partFault_idle ..⟩
    exact congrArg (Option.map some) hkey
  · intro may prio held up mt nt k r l sh hquad hq hhead hready hsh hmay hdorm hleast hturn
    have hbest := State.turn_of held (fun _ => s.load_eq) hquad hq hhead (by rw [hready]; rfl) hmay hleast hturn
    have hcounts : t.counts sh = (up sh.1.toNat mt, up sh.2.toNat nt) := t.counts_eq sh
    have hempty (j : Nat) : (∀ x, l[j]? = some x → up x.1.toNat mt * up x.2.toNat nt = 0) ↔ t.emptyAt l j := by
      refine forall₂_congr fun x _ => ?_
      rw [TileRec.tilesOf, t.counts_eq x]
    have hleft := TileRec.next_cases hready hsh rest
    rw [hcounts] at hleft
    refine ⟨_, execTileDispatch_dispatches hbest hdorm, fun a => ?_, ?_, ?_, ?_⟩
    · rw [State.modCore_mem, State.modCtx_mem]
      rfl
    · rw [State.getCtx_modCore, State.getCtx_modCtx, if_pos rfl]
    · rw [State.getCore_modCore_same, State.getCore_modCtx]
      rfl
    · simp only [hempty]
      rw [State.tileq_modCore, State.tileq_modCtx, State.tileq_setTileq, if_pos rfl]
      exact hleft
  · subst hk
    refine ⟨_, execTileActivation_starts hrun h1 h0 hacts hlim, ?_, ?_⟩
    · refine started_activate _ _ (fun q => State.getCtx_modCore ..) ?_ ?_ <;> rw [State.getCore_modCore_same]
    · obtain ⟨_, _, hcore⟩ := State.getCore_activate_same (s.modCore (a.ctx / 8) fun c => { c with tileActs := l }) a.ctx a.activation
      rw [hcore, State.getCore_modCore_same]
      rfl

end Sys2Proof.Machine
end

section
/-! A gang switch that finds a delivered tile for a context that runs (12 R305, 10 R261). -/

namespace Sys2Proof.Machine

open Sys2Proof

/-- A partition of the first gateway core, 2880, which has stopped for a switch. -/
def stoppedPart : Part :=
  { quads := [], gws := [0], asd := 0, asid := 7, idle := false, round := none, switch := none, stopping := true, slice := 0, length := 0 }

/-- Context 23040, the lowest of core 2880, runs and holds region 0 of its unit, and the core has a tile for that same context. -/
def tileForRunning : State :=
  { State.reset with
    ctxs := [(23040, { Ctx.reset with phase := .active, region := some 0 })]
    cores := [(2880, { Core.reset with
      tileActs := [{ ctx := 23040, pc := 0, g := 0, m := 0, n := 0, addr := 0, vreq := 0, prio := 0, tag := 0 }] })]
    clusters := [(320, Cluster.reset.setRegion 0 { Region.reset with holders := [.ctx 23040] })]
    parts := [(0, stoppedPart)] }

/-- The state is one that the clause about saving speaks of: the partition has stopped, is quiet and can be saved. -/
theorem tileForRunning_saves :
    let v := tileForRunning.stopCtxs stoppedPart
    tileForRunning.overdue stoppedPart = false ∧ tileForRunning.mustStop stoppedPart = false ∧ v.part 0 = some stoppedPart ∧
      v.partQuiet stoppedPart = true ∧ v.saveOk 0 stoppedPart = true := by decide +kernel

theorem tileForRunning_holds :
    let v := tileForRunning.stopCtxs stoppedPart
    (v.getCtx 23040).phase = .active ∧ (v.getCtx 23040).region = some 0 ∧ .ctx 23040 ∈ ((v.cluster 320).region 0).holders := by
  decide +kernel

/-- The tile starts in the context, whose region is then none: its holding of region 0 is not handed to the saved context. -/
theorem tileForRunning_loses :
    .saved 7 23040 ∉ ((((tileForRunning.stopCtxs stoppedPart).savePart 0 stoppedPart 0).cluster 320).region 0).holders := by
  decide +kernel

theorem tileForRunning_switch (hidle : stoppedPart.stopping = true) : execGangSwitch 0 0 tileForRunning =
    .next ((tileForRunning.stopCtxs stoppedPart).savePart 0 stoppedPart 0) := by
  obtain ⟨hdue, hmust, hpart, hquiet, hok⟩ := tileForRunning_saves
  have hpart0 : tileForRunning.part 0 = some stoppedPart := rfl
  simp only [execGangSwitch, hpart0, hdue, hmust, hidle, hpart, hquiet, hok, Bool.false_eq_true, if_false, if_true, Bool.and_self]

/-- Refutes O57: GangSwitches says of every context that runs when its partition is saved that the saved context keeps its region held,
and a context that a delivered tile names is started anew first, and holds none. -/
theorem not_partitions : ¬ Obligations.Partitions := by
  intro h
  obtain ⟨hswitches, -⟩ := h
  obtain ⟨-, -, -, -, hsave, -⟩ := hswitches tileForRunning 0 0 0 0 stoppedPart (tileForRunning.jobOr 7) rfl
  obtain ⟨hdue, hmust, hpart, hquiet, hok⟩ := tileForRunning_saves
  obtain ⟨hactive, hregion, hholds⟩ := tileForRunning_holds
  obtain ⟨u, hgives, -, -, -, -, hkept⟩ := (hsave hdue rfl hmust hpart).2 hquiet hok
  obtain rfl := Host.Outcome.next.inj (hgives.symm.trans (tileForRunning_switch rfl))
  exact tileForRunning_loses (hkept 23040 0 rfl hactive hregion hholds)

end Sys2Proof.Machine
end

section
/-! The granules of an instruction and their fields: putting a cut granule together again, the code of a named field that was decoded,
and the granules that each format of 02 R43 to R49 makes of its fields. -/

namespace Sys2Proof

/-! ## A granule put together from its fields -/

theorem append_extract {n k i j : Nat} (w : BitVec n) :
    w.extractLsb' (k + j) i ++ w.extractLsb' k j = w.extractLsb' k (i + j) := by
  ext p hp
  simp only [BitVec.getElem_append, BitVec.getElem_extractLsb']
  split
  · rfl
  · congr 1; omega

@[simp] theorem Lo.pack_unpack (w : BitVec 32) : (Lo.unpack w).pack = w := by
  simp only [Lo.pack, Lo.unpack]
  rw [append_extract (k := 22) (i := 5) (j := 5), append_extract (k := 17) (i := 10) (j := 5),
    append_extract (k := 12) (i := 15) (j := 5), append_extract (k := 9) (i := 20) (j := 3),
    append_extract (k := 2) (i := 23) (j := 7), append_extract (k := 0) (i := 30) (j := 2)]
  exact extract_all w

@[simp] theorem HiR.pack_unpack (w : BitVec 32) : (HiR.unpack w).pack = w := by
  simp only [HiR.pack, HiR.unpack]
  rw [append_extract (k := 17) (i := 12) (j := 3), append_extract (k := 11) (i := 15) (j := 6),
    append_extract (k := 10) (i := 21) (j := 1), append_extract (k := 9) (i := 22) (j := 1),
    append_extract (k := 8) (i := 23) (j := 1), append_extract (k := 7) (i := 24) (j := 1),
    append_extract (k := 4) (i := 25) (j := 3), append_extract (k := 3) (i := 28) (j := 1),
    append_extract (k := 0) (i := 29) (j := 3)]
  exact extract_all w

@[simp] theorem HiI.pack_unpack (w : BitVec 32) : (HiI.unpack w).pack = w := by
  simp only [HiI.pack, HiI.unpack]
  rw [append_extract (k := 0) (i := 12) (j := 20)]
  exact extract_all w

@[simp] theorem HiU.pack_unpack (w : BitVec 32) : (HiU.unpack w).pack = w := by
  simp only [HiU.pack, HiU.unpack]
  rw [append_extract (k := 0) (i := 20) (j := 12)]
  exact extract_all w

@[simp] theorem HiM.pack_unpack (w : BitVec 32) : (HiM.unpack w).pack = w := by
  simp only [HiM.pack, HiM.unpack]
  rw [append_extract (k := 16) (i := 12) (j := 4), append_extract (k := 13) (i := 16) (j := 3),
    append_extract (k := 12) (i := 19) (j := 1), append_extract (k := 9) (i := 20) (j := 3),
    append_extract (k := 8) (i := 23) (j := 1), append_extract (k := 4) (i := 24) (j := 4),
    append_extract (k := 3) (i := 28) (j := 1), append_extract (k := 0) (i := 29) (j := 3)]
  exact extract_all w

@[simp] theorem HiT.pack_unpack (w : BitVec 32) : (HiT.unpack w).pack = w := by
  simp only [HiT.pack, HiT.unpack]
  rw [append_extract (k := 17) (i := 12) (j := 3), append_extract (k := 14) (i := 15) (j := 3),
    append_extract (k := 11) (i := 18) (j := 3), append_extract (k := 8) (i := 21) (j := 3),
    append_extract (k := 5) (i := 24) (j := 3), append_extract (k := 4) (i := 27) (j := 1),
    append_extract (k := 3) (i := 28) (j := 1), append_extract (k := 0) (i := 29) (j := 3)]
  exact extract_all w

@[simp] theorem HiS.pack_unpack (w : BitVec 32) : (HiS.unpack w).pack = w := by
  simp only [HiS.pack, HiS.unpack]
  rw [append_extract (k := 19) (i := 12) (j := 1), append_extract (k := 18) (i := 13) (j := 1),
    append_extract (k := 16) (i := 14) (j := 2), append_extract (k := 12) (i := 16) (j := 4),
    append_extract (k := 8) (i := 20) (j := 4), append_extract (k := 4) (i := 24) (j := 4),
    append_extract (k := 0) (i := 28) (j := 4)]
  exact extract_all w

@[simp] theorem HiC.pack_unpack (w : BitVec 32) : (HiC.unpack w).pack = w := by
  simp only [HiC.pack, HiC.unpack]
  rw [append_extract (k := 0) (i := 8) (j := 24)]
  exact extract_all w

@[simp] theorem HiL.pack_unpack (w : BitVec 32) : (HiL.unpack w).pack = w := by
  simp only [HiL.pack, HiL.unpack]
  rw [append_extract (k := 0) (i := 31) (j := 1)]
  exact extract_all w

/-! ## Codes that were decoded -/

@[simp] theorem bit1_zero : bit1 0#1 = false := rfl

@[simp] theorem unbit1_bit1 (b : BitVec 1) : unbit1 (bit1 b) = b := by revert b; decide

theorem Frm.encode_of_decode {f : BitVec 3} {x : Frm} : Frm.decode f = some x → x.encode = f := by
  cases x <;> revert f <;> decide

theorem Ew.encode_of_decode {f : BitVec 3} {x : Ew} : Ew.decode f = some x → x.encode = f := by
  cases x <;> revert f <;> decide

theorem MemW.encode_of_decode {f : BitVec 3} {x : MemW} : MemW.decode f = some x → x.encode = f := by
  cases x <;> revert f <;> decide

theorem AmoOp.encode_of_decode {f : BitVec 4} {x : AmoOp} : AmoOp.decode f = some x → x.encode = f := by
  cases x <;> revert f <;> decide

theorem MemOrd.encode_of_decode {f : BitVec 3} {x : MemOrd} : MemOrd.decode f = some x → x.encode = f := by
  cases x <;> revert f <;> decide

theorem TFmt.encode_of_decode {f : BitVec 3} {x : TFmt} : TFmt.decode f = some x → x.encode = f := by
  cases x <;> revert f <;> decide

theorem VCond.encode_of_decode {f : BitVec 5} {x : VCond} : VCond.decode f = some x → x.encode = f := by
  cases x <;> revert f <;> decide

theorem SgnMode.encode_of_decode {f : BitVec 5} {x : SgnMode} : SgnMode.decode f = some x → x.encode = f := by
  cases x <;> revert f <;> decide

theorem FCvt.encode_of_decode {f : BitVec 5} {x : FCvt} : FCvt.decode f = some x → x.encode = f := by
  cases x <;> revert f <;> decide

theorem Path.encode_of_decode {f : BitVec 4} {x : Path} : Path.decode f = some x → x.encode = f := by
  cases x <;> revert f <;> decide

theorem Fmt.encode_of_fmtOf {f : BitVec 3} {x : Fmt} : fmtOf f = some x → x.encode = f := by
  cases x <;> revert f <;> decide

theorem mEnc_mField {f : BitVec 5} : mOk f = true → mEnc (mField f) = f := by revert f; decide

end Sys2Proof
end

section
/-! Decoding what was encoded (02 R37 to R55). -/

namespace Sys2Proof

/-! ## Fields of an immediate -/

@[simp] theorem imm_hi_10_1_1 (a : BitVec 10) (b c : BitVec 1) : BitVec.extractLsb' 2 10 (a ++ b ++ c : BitVec 12) = a :=
  (extract_hi (n := 11) (m := 1) (a ++ b) c (by decide)).trans (extract_append_hi (n := 10) (m := 1) a b)

@[simp] theorem imm_mid_10_1_1 (a : BitVec 10) (b c : BitVec 1) : BitVec.extractLsb' 1 1 (a ++ b ++ c : BitVec 12) = b :=
  (extract_hi (n := 11) (m := 1) (a ++ b) c (by decide)).trans (extract_append_lo (n := 10) (m := 1) a b)

@[simp] theorem imm_lo_10_1_1 (a : BitVec 10) (b c : BitVec 1) : BitVec.extractLsb' 0 1 (a ++ b ++ c : BitVec 12) = c :=
  extract_append_lo (n := 11) (m := 1) (a ++ b) c

@[simp] theorem imm_hi_4_4_4 (a b c : BitVec 4) : BitVec.extractLsb' 8 4 (a ++ b ++ c : BitVec 12) = a :=
  (extract_hi (n := 8) (m := 4) (a ++ b) c (by decide)).trans (extract_append_hi (n := 4) (m := 4) a b)

@[simp] theorem imm_mid_4_4_4 (a b c : BitVec 4) : BitVec.extractLsb' 4 4 (a ++ b ++ c : BitVec 12) = b :=
  (extract_hi (n := 8) (m := 4) (a ++ b) c (by decide)).trans (extract_append_lo (n := 4) (m := 4) a b)

@[simp] theorem imm_lo_4_4_4 (a b c : BitVec 4) : BitVec.extractLsb' 0 4 (a ++ b ++ c : BitVec 12) = c :=
  extract_append_lo (n := 8) (m := 4) (a ++ b) c

@[simp] theorem imm32_hi_30 (a : BitVec 30) (b : BitVec 2) : BitVec.extractLsb' 2 30 (a ++ b : BitVec 32) = a :=
  extract_append_hi (n := 30) (m := 2) a b

@[simp] theorem imm32_lo_2 (a : BitVec 30) (b : BitVec 2) : BitVec.extractLsb' 0 2 (a ++ b : BitVec 32) = b :=
  extract_append_lo (n := 30) (m := 2) a b

@[simp] theorem imm32_hi_29 (a : BitVec 29) (b : BitVec 3) : BitVec.extractLsb' 3 29 (a ++ b : BitVec 32) = a :=
  extract_append_hi (n := 29) (m := 3) a b

@[simp] theorem imm32_lo_3 (a : BitVec 29) (b : BitVec 3) : BitVec.extractLsb' 0 3 (a ++ b : BitVec 32) = b :=
  extract_append_lo (n := 29) (m := 3) a b

@[simp] theorem imm32_hi_28 (a : BitVec 28) (b : BitVec 4) : BitVec.extractLsb' 4 28 (a ++ b : BitVec 32) = a :=
  extract_append_hi (n := 28) (m := 4) a b

@[simp] theorem imm32_lo_4 (a : BitVec 28) (b : BitVec 4) : BitVec.extractLsb' 0 4 (a ++ b : BitVec 32) = b :=
  extract_append_lo (n := 28) (m := 4) a b

@[simp] theorem imm32_hi_25_3_4 (a : BitVec 25) (b : BitVec 3) (c : BitVec 4) :
    BitVec.extractLsb' 7 25 (a ++ b ++ c : BitVec 32) = a :=
  (extract_hi (n := 28) (m := 4) (a ++ b) c (by decide)).trans (extract_append_hi (n := 25) (m := 3) a b)

@[simp] theorem imm32_mid_25_3_4 (a : BitVec 25) (b : BitVec 3) (c : BitVec 4) :
    BitVec.extractLsb' 4 3 (a ++ b ++ c : BitVec 32) = b :=
  (extract_hi (n := 28) (m := 4) (a ++ b) c (by decide)).trans (extract_append_lo (n := 25) (m := 3) a b)

theorem halves_append (w : Word) : (w.extractLsb' 32 32 ++ w.extractLsb' 0 32 : BitVec 64) = w := by
  rw [append_extract (k := 0) (i := 32) (j := 32)]
  exact extract_all w

/-! ## The granules of a well-formed instruction decode -/

theorem decode_two {l : Lo} (g1 : BitVec 32) (rest : List (BitVec 32)) (hl : l.len = 1) :
    decode (l.pack :: g1 :: rest) = finish (decode64 l g1) rest := by
  obtain ⟨c, b, a, d, f, op, len⟩ := l
  subst hl
  simp [decode]

theorem decode_three {l : Lo} (g1 g2 : BitVec 32) (rest : List (BitVec 32)) (hl : l.len = 2) :
    decode (l.pack :: g1 :: g2 :: rest) = finish (decode96 l g1 g2) rest := by
  obtain ⟨c, b, a, d, f, op, len⟩ := l
  subst hl
  simp [decode]

theorem decode_four {l : Lo} (g1 g2 g3 : BitVec 32) (rest : List (BitVec 32)) (hl : l.len = 3) :
    decode (l.pack :: g1 :: g2 :: g3 :: rest) = finish (decode128 l g1 g2 g3) rest := by
  obtain ⟨c, b, a, d, f, op, len⟩ := l
  subst hl
  simp [decode]

/-- The granules of an instruction are read as this instruction, before the check of its value rules. -/
def RoundTrips (i : Instr) : Prop := ∀ rest, decode (encode i ++ rest) = finish (.ok i) rest

/-- The decoder `dec` of a 64-bit instruction's major opcode reads the fields that its encoding packs. -/
theorem roundTrips_of_dec {i : Instr} {H : Type} {dec : Lo → H → Except Reject Instr} {pack : H → BitVec 32}
    {unpack : BitVec 32 → H} {l : Lo} {h : H} (hd : dec l h = .ok i) (hu : unpack (pack h) = h)
    (he : encode i = [l.pack, pack h]) (hl : l.len = 1)
    (hop : decode64 l (pack h) = dec l (unpack (pack h))) : RoundTrips i := fun rest => by
  rw [he, List.cons_append, List.cons_append, List.nil_append, decode_two _ rest hl, hop, hu, hd]

theorem roundTrips_of_decode96 {i : Instr} {l : Lo} {g1 g2 : BitVec 32} (hd : decode96 l g1 g2 = .ok i)
    (he : encode i = [l.pack, g1, g2]) (hl : l.len = 2) : RoundTrips i := fun rest => by
  rw [he, List.cons_append, List.cons_append, List.cons_append, List.nil_append, decode_three _ _ rest hl, hd]

theorem roundTrips_of_decode128 {i : Instr} {l : Lo} {g1 g2 g3 : BitVec 32} (hd : decode128 l g1 g2 g3 = .ok i)
    (he : encode i = [l.pack, g1, g2, g3]) (hl : l.len = 3) : RoundTrips i := fun rest => by
  rw [he, List.cons_append, List.cons_append, List.cons_append, List.cons_append, List.nil_append,
    decode_four _ _ _ rest hl, hd]

theorem firstDefect_eq_none {l : List (Bool × Reject)} : firstDefect l = none ↔ ∀ p ∈ l, p.1 = true := by
  induction l with
  | nil => simp [firstDefect]
  | cons p l ih => cases h : p.1 <;> simp [firstDefect, h, ih]

theorem Instr.wf_iff {i : Instr} : i.wf = true ↔ i.defect = none := beq_iff_eq

/-- A VCVT code without an operand b leaves that field zero (05 R120). -/
theorem vcvt_unused {code : Reg} {d a b : ROp} {k : VCtl} (hwf : (Instr.vcvt code d a b k).wf = true)
    (hb : vcvtUsesB code = false) : b = .zero := by
  have hrule : vcvtUsesB code = true ∨ b = .zero := by
    simpa using firstDefect_eq_none.mp (Instr.wf_iff.mp hwf) (vcvtUsesB code || b == .zero, .unusedField) (by simp [ROp.zero])
  simpa [hb] using hrule

theorem roundTrips {i : Instr} (hwf : i.wf = true) : RoundTrips i := by
  cases i with
  | add | sub | and | or | xor | sll | srl | sra | slt | sltu | min | max | minu | maxu | sel | clz | ctz | popc =>
    exact roundTrips_of_dec (dec := decInt) rfl (HiR.unpack_pack _) rfl rfl rfl
  | mul | mulh | mulhu | div | divu | rem | remu =>
    exact roundTrips_of_dec (dec := decMul) rfl (HiR.unpack_pack _) rfl rfl rfl
  | addi | andi | ori | xori | slti => exact roundTrips_of_dec (dec := decImm) rfl (HiI.unpack_pack _) rfl rfl rfl
  | slli | srli | srai =>
    exact roundTrips_of_dec (dec := decImm) (by simp [decImm, need]) (HiI.unpack_pack _) rfl rfl rfl
  | bfx | bfi => exact roundTrips_of_dec (dec := decBf) (by simp [decBf, need]) (HiI.unpack_pack _) rfl rfl rfl
  | ldhi | addpc => exact roundTrips_of_dec (dec := decUpper) rfl (HiU.unpack_pack _) rfl rfl rfl
  | beq | bne | blt | bge | bltu | bgeu => exact roundTrips_of_dec (dec := decBranch) rfl (HiU.unpack_pack _) rfl rfl rfl
  | j | jal => exact roundTrips_of_dec (dec := decJump) rfl (HiU.unpack_pack _) rfl rfl rfl
  | jalr => exact roundTrips_of_dec (dec := decJalr) rfl (HiI.unpack_pack _) rfl rfl rfl
  | ld | st =>
    exact roundTrips_of_dec (dec := decScalarMem) (by simp [decScalarMem, need, HiM.mem]) (HiM.unpack_pack _) rfl rfl rfl
  | fld d a imm w | fst d a imm w =>
    cases w <;> exact roundTrips_of_dec (dec := decScalarMem) rfl (HiM.unpack_pack _) rfl rfl rfl
  | fadd | fsub | fmul | fdiv | fsqrt | fmin | fmax | feq | flt | fle | fclass | fsgn | fmvX | fmvF | fcvt =>
    exact roundTrips_of_dec (dec := decFp)
      (by simp [decFp, need, HiR.relOk, opD, opA, opB, ROp.zero, ROp.x]) (HiR.unpack_pack _) rfl rfl rfl
  | fma | fms | fnma | fnms =>
    exact roundTrips_of_dec (dec := decFma) (by simp [decFma, need, opD, opA, opB, opC]) (HiR.unpack_pack _) rfl rfl rfl
  | vadd | vsub | vmul | vdiv | vsqrt | vmin | vmax | vabs | vneg | vand | vor | vxor | vshl | vshr | vsra | vcmp | vsel | vexp2
  | vrcp | vrsq =>
    exact roundTrips_of_dec (dec := decVec)
      (by simp [decVec, need, HiR.vctl, HiR.relOk, opD, opA, opB, ROp.zero, ROp.x]) (HiR.unpack_pack _) rfl rfl rfl
  | vcvt code d a b k =>
    refine roundTrips_of_dec (dec := decVec) ?_ (HiR.unpack_pack _) rfl rfl rfl
    by_cases hb : vcvtUsesB code = true
    · simp [decVec, need, HiR.vctl, HiR.relOk, opD, opA, opB, ROp.x, hb]
    · rw [vcvt_unused hwf (by simpa using hb)]
      simp [decVec, need, HiR.vctl, HiR.relOk, opD, opA, opB, ROp.x, ROp.zero]
  | vfma | vfms | vbcast | vins | vext | vperm | vslide | vredsum | vredmax | vredmin | vtopk | vtopkm | vsortk =>
    exact roundTrips_of_dec (dec := decVecMore)
      (by simp [decVecMore, need, HiR.vctl, HiR.relOk, opD, opA, opB, opC, ROp.zero, ROp.x]) (HiR.unpack_pack _) rfl rfl rfl
  | vld | vst | vlds | vgath | vscat =>
    exact roundTrips_of_dec (dec := decVecMem)
      (by simp [decVecMem, need, HiR.relOk, opD, opB, ROp.zero, ROp.x]) (HiR.unpack_pack _) rfl rfl rfl
  | mand | mor | mxor | mnot | mpop | mfirst | mset | msetX =>
    exact roundTrips_of_dec (dec := decMask) (by simp [decMask, need, HiR.plain, HiR.relOk]) (HiR.unpack_pack _) rfl rfl rfl
  | scfg | sstart | sstop | sstat | frep | frepi =>
    exact roundTrips_of_dec (dec := decStream) (by simp [decStream, need]) (HiS.unpack_pack _) rfl rfl rfl
  | tcfg | tacq | trel | tzero | tmovFr | tmovTo | tswap | tld | ttld | tst | tmma =>
    exact roundTrips_of_dec (dec := decTile) (by simp [decTile, need]) (HiT.unpack_pack _) rfl rfl rfl
  | ldp | stp | pscl | prescale | paxpy | psgdm | baddq =>
    exact roundTrips_of_dec (dec := decPlane) (by simp [decPlane, need]) (HiM.unpack_pack _) rfl rfl rfl
  | fork | jrec | yield | mdone | tqput | tdone | qrnd | gqnext | halt | haltJ | haltK | haltM | send | sendr | callat | wdrun
  | wdret =>
    exact roundTrips_of_dec (dec := decTask) rfl (HiR.unpack_pack _) rfl rfl rfl
  | amo op ord near dbl d a b c imm =>
    cases dbl <;>
      exact roundTrips_of_dec (dec := decAtomic) (by simp [decAtomic, need]) (HiM.unpack_pack _) rfl rfl rfl
  | lda | stl | arrive | await | arrwait =>
    exact roundTrips_of_dec (dec := decAtomic) (by simp [decAtomic, need]) (HiM.unpack_pack _) rfl rfl rfl
  | fence | xfence | wait =>
    exact roundTrips_of_dec (dec := decFence) (by simp [decFence, need, HiS.bare]) (HiS.unpack_pack _) rfl rfl rfl
  | trap | eret | csrr | csrw | csrs | csrc | ifence | tlbi | brk | wfi | nop =>
    exact roundTrips_of_dec (dec := decSystem) (by simp [decSystem, need, HiS.bare]) (HiS.unpack_pack _) rfl rfl rfl
  | li | lea | leaPc | jl =>
    exact roundTrips_of_decode96 (by simp [decode96, need]) rfl rfl
  | dcopy | sortc | ddec | dtbl | bindw | unbindw | dstat =>
    exact roundTrips_of_decode96 (by simp [decode96, decEngine, need]) rfl rfl
  | brk96 => exact roundTrips_of_decode96 (by simp [decode96, decLongBrk, HiS.bare, need]) rfl rfl
  | li64 d imm => exact roundTrips_of_decode128 (by simp [decode128, need, halves_append imm]) rfl rfl
  | brk128 => exact roundTrips_of_decode128 (by simp [decode128, decLongBrk, HiS.bare, need]) rfl rfl
  | _ => exact absurd hwf Bool.false_ne_true

theorem finish_of_wf {i : Instr} (hwf : i.wf = true) (rest : List (BitVec 32)) : finish (.ok i) rest = .ok (i, rest) := by
  simp [finish, Instr.wf_iff.mp hwf]

/-- Settles O1: every encoding is read back before the check of the value rules, which a well-formed instruction passes. -/
theorem decodeEncode : Obligations.DecodeEncode := fun _ rest hwf =>
  (roundTrips hwf rest).trans (finish_of_wf hwf rest)

end Sys2Proof
end

section
/-! What decodes is its own encoding (02 R51, R55): for each format the granules of its fields, and for each decoder the
instruction that it read. -/

namespace Sys2Proof

/-! ## What a decoder reads -/

/-- The instruction that a decoder gives, if it gives one, has these granules. -/
def Reads (r : Except Reject Instr) (gs : List (BitVec 32)) : Prop := ∀ i, r = .ok i → encode i = gs

@[simp] theorem reads_ok {i : Instr} {gs : List (BitVec 32)} : Reads (.ok i) gs ↔ encode i = gs := by simp [Reads]

@[simp] theorem reads_error {e : Reject} {gs : List (BitVec 32)} : Reads (.error e) gs := by simp [Reads]

@[simp] theorem reads_need {ok : Bool} {e : Reject} {r : Except Reject Instr} {gs : List (BitVec 32)} :
    Reads (need ok e r) gs ↔ (ok = true → Reads r gs) := by
  cases ok <;> simp [need]

@[simp] theorem need_eq_ok {ok : Bool} {e : Reject} {r : Except Reject Instr} {i : Instr} :
    need ok e r = .ok i ↔ ok = true ∧ r = .ok i := by
  cases ok <;> simp [need]

/-- A field that was compared with a number. -/
theorem toNat_eq_iff {w n : Nat} {x : BitVec w} (hn : n < 2 ^ w) : x.toNat = n ↔ x = BitVec.ofNat w n := by
  rw [← BitVec.toNat_inj, BitVec.toNat_ofNat, Nat.mod_eq_of_lt hn]

/-- `toNat_eq_iff` from the equation alone, which bounds the number. -/
theorem eq_ofNat_of_toNat {w n : Nat} {x : BitVec w} (h : x.toNat = n) : x = BitVec.ofNat w n := by
  rw [← h, BitVec.ofNat_toNat, BitVec.setWidth_eq]

theorem zero_append_extract {i j : Nat} {w : BitVec (i + j)} (h : w.extractLsb' j i = 0) : 0#i ++ w.extractLsb' 0 j = w := by
  have hw : w.extractLsb' (0 + j) i ++ w.extractLsb' 0 j = w := (append_extract w).trans (extract_all w)
  rwa [Nat.zero_add, h] at hw

theorem zero_append_extract_extract {i j k : Nat} {w : BitVec (i + j + k)} (h : w.extractLsb' (k + j) i = 0) :
    0#i ++ w.extractLsb' k j ++ w.extractLsb' 0 k = w := by
  have hhi : 0#i ++ w.extractLsb' k j = w.extractLsb' (0 + k) (i + j) := by
    rw [Nat.zero_add, ← append_extract (k := k) w, h]
    rfl
  rw [hhi, append_extract]
  exact extract_all w

/-- The last function code. -/
theorem fn3_eq_seven {f : BitVec 3} (h0 : f.toNat ≠ 0) (h1 : f.toNat ≠ 1) (h2 : f.toNat ≠ 2) (h3 : f.toNat ≠ 3)
    (h4 : f.toNat ≠ 4) (h5 : f.toNat ≠ 5) (h6 : f.toNat ≠ 6) : f = 7 := by
  bv_omega

/-! ## The granules of each format -/

theorem Lo.pack_eq (l : Lo) {n : BitVec 2} (hl : l.len = n) : l.pack = Lo.pack ⟨l.c, l.b, l.a, l.d, l.fn3, l.op, n⟩ := by
  rw [← hl]

section
variable {l : Lo} (hl : l.len = 1)
include hl

theorem lo64_fields : lo64 l.op l.fn3 l.d l.a l.b l.c = l.pack := (l.pack_eq hl).symm

theorem encR_fields {h : HiR} (hp : h.plain = true) : encR l.op l.fn3 h.fn12 l.d l.a l.b l.c = [l.pack, h.pack] := by
  simp [HiR.plain, HiR.relOk] at hp
  simp [encR, lo64_fields hl, HiR.pack, hp]

theorem encI_fields {h : HiI} (hr : h.rsv = 0) (hb : l.b = 0) (hc : l.c = 0) :
    encI l.op l.fn3 l.d l.a h.imm = [l.pack, h.pack] := by
  simp [encI, ← lo64_fields hl, HiI.pack, hr, hb, hc]

theorem encU_fields {h : HiU} (hr : h.rsv = 0) (hc : l.c = 0) : encU l.op l.fn3 l.d l.a l.b h.imm = [l.pack, h.pack] := by
  simp [encU, ← lo64_fields hl, HiU.pack, hr, hc]

theorem encM_fields (h : HiM) : encM l.op l.fn3 l.d l.a l.b l.c h = [l.pack, h.pack] := by rw [encM, lo64_fields hl]

theorem encS_fields (h : HiS) (hb : l.b = 0) : encS l.op l.fn3 l.d l.a l.c h = [l.pack, h.pack] := by
  rw [encS, ← lo64_fields hl, hb]

theorem encT_fields (h : HiT) (hc : l.c = 0) : encT l.op l.fn3 l.d l.a l.b h = [l.pack, h.pack] := by
  rw [encT, ← lo64_fields hl, hc]

theorem encF_fields {h : HiR} {k : FCtl} (hfmt : fmtOf l.fn3 = some k.fmt) (hfrm : Frm.decode h.frm = some k.frm)
    (hrimm : h.rimm = k.rimm) (hew : h.ew = 0) (hz : h.z = 0) (hmsk : h.msk = 0) :
    encF l.op h.fn12 (opD l h) (opA l h) (opB l h) (opC l h) k = [l.pack, h.pack] := by
  simp [encF, ← lo64_fields hl, opD, opA, opB, opC, HiR.pack, Fmt.encode_of_fmtOf hfmt, Frm.encode_of_decode hfrm, hrimm, hew, hz,
    hmsk]

theorem encV_fields {h : HiR} {k : VCtl} (hk : h.vctl = some k) (hfn3 : l.fn3 = 0) :
    encV l.op h.fn12 (opD l h) (opA l h) (opB l h) (opC l h) k = [l.pack, h.pack] := by
  rw [HiR.vctl] at hk
  split at hk
  case h_1 f e hfrm hew =>
    cases hk
    simp [encV, ← lo64_fields hl, opD, opA, opB, opC, HiR.pack, Frm.encode_of_decode hfrm, Ew.encode_of_decode hew, hfn3]
  case h_2 => cases hk

theorem vectorMemory_fields {h : HiR} {e : Ew} (hew : Ew.decode h.ew = some e) (hop : l.op = 0x38) (hfrm : h.frm = 0) :
    [l.pack, h.pack] = [lo64 0x38 l.fn3 l.d l.a l.b l.c,
      HiR.pack ⟨h.fn12, 0, h.rimm, h.relD, h.relA, h.relB, h.relC, e.encode, h.z, h.msk⟩] := by
  rw [← lo64_fields hl, hop, Ew.encode_of_decode hew, ← hfrm]

end

/-! ## The decoders of 64-bit instructions

Each passes the rules of its format, which leave no field but those that `encode` packs, and then a code names the instruction.
`encode` is rewritten by its one equation `encode.eq_def`: it has hundreds of equations by case, dear to generate. -/

theorem reads_decInt {l : Lo} {h : HiR} (hl : l.len = 1) (hop : l.op = 0x00) : Reads (decInt l h) [l.pack, h.pack] := by
  simp only [decInt, reads_need, beq_iff_eq]
  intro hfn3 hp
  rw [← encR_fields hl hp, hop, hfn3]
  split
  case h_19 => exact reads_error
  all_goals simp_all [encode.eq_def, toNat_eq_iff]

theorem reads_decMul {l : Lo} {h : HiR} (hl : l.len = 1) (hop : l.op = 0x01) : Reads (decMul l h) [l.pack, h.pack] := by
  simp only [decMul, reads_need, beq_iff_eq]
  intro hfn3 hp hc
  rw [← encR_fields hl hp, hop, hfn3, hc]
  split <;> simp_all [encode.eq_def, toNat_eq_iff]

theorem reads_decImm {l : Lo} {h : HiI} (hl : l.len = 1) (hop : l.op = 0x02) : Reads (decImm l h) [l.pack, h.pack] := by
  simp only [decImm, reads_need, beq_iff_eq, Bool.and_eq_true]
  rintro hr ⟨hb, hc⟩
  rw [← encI_fields hl hr hb hc, hop]
  have hsh : h.imm.extractLsb' 6 6 = 0 → (0 : BitVec 6) ++ h.imm.extractLsb' 0 6 = h.imm :=
    zero_append_extract (i := 6) (j := 6)
  split
  case h_8 h0 h1 h2 h3 h4 h5 h6 => simp_all [encode.eq_def, fn3_eq_seven h0 h1 h2 h3 h4 h5 h6]
  all_goals simp_all [encode.eq_def, toNat_eq_iff]

theorem reads_decBf {l : Lo} {h : HiI} (hl : l.len = 1) (hop : l.op = 0x03) : Reads (decBf l h) [l.pack, h.pack] := by
  simp only [decBf, reads_need, beq_iff_eq, Bool.and_eq_true]
  rintro hr ⟨hb, hc⟩
  rw [← encI_fields hl hr hb hc, hop]
  have himm : h.imm.extractLsb' 6 6 ++ h.imm.extractLsb' 0 6 = h.imm :=
    (append_extract (k := 0) (i := 6) (j := 6) h.imm).trans (extract_all _)
  split <;> simp_all [encode.eq_def, toNat_eq_iff]

theorem reads_decUpper {l : Lo} {h : HiU} (hl : l.len = 1) (hop : l.op = 0x04) : Reads (decUpper l h) [l.pack, h.pack] := by
  simp only [decUpper, reads_need, beq_iff_eq, Bool.and_eq_true]
  rintro hr ⟨⟨ha, hb⟩, hc⟩
  rw [← encU_fields hl hr hc, hop, ha, hb]
  split <;> simp_all [encode.eq_def, toNat_eq_iff]

theorem reads_decBranch {l : Lo} {h : HiU} (hl : l.len = 1) (hop : l.op = 0x10) : Reads (decBranch l h) [l.pack, h.pack] := by
  simp only [decBranch, reads_need, beq_iff_eq, Bool.and_eq_true]
  rintro hr ⟨hd, hc⟩
  rw [← encU_fields hl hr hc, hop, hd]
  split <;> simp_all [encode.eq_def, toNat_eq_iff]

theorem reads_decJump {l : Lo} {h : HiU} (hl : l.len = 1) (hop : l.op = 0x11) : Reads (decJump l h) [l.pack, h.pack] := by
  simp only [decJump, reads_need, beq_iff_eq, Bool.and_eq_true]
  rintro hr ⟨⟨ha, hb⟩, hc⟩
  rw [← encU_fields hl hr hc, hop, ha, hb]
  split <;> simp_all [encode.eq_def, toNat_eq_iff]

theorem reads_decJalr {l : Lo} {h : HiI} (hl : l.len = 1) (hop : l.op = 0x12) : Reads (decJalr l h) [l.pack, h.pack] := by
  simp only [decJalr, reads_need, reads_ok, beq_iff_eq, Bool.and_eq_true]
  rintro hf hr ⟨hb, hc⟩
  rw [← encI_fields hl hr hb hc, hop, hf]
  rfl

theorem reads_decFp {l : Lo} {h : HiR} (hl : l.len = 1) (hop : l.op = 0x20) : Reads (decFp l h) [l.pack, h.pack] := by
  simp only [decFp, reads_need, beq_iff_eq, Bool.and_eq_true]
  rintro ⟨⟨hew, hz⟩, hmsk⟩
  split
  case h_3 fmt frm hfmt hfrm =>
    rw [← encF_fields (k := ⟨fmt, frm, h.rimm⟩) hl hfmt hfrm rfl hew hz hmsk, hop]
    split
    case h_12 =>
      split
      case h_1 => simp
      case h_2 m hm => simp_all [encode.eq_def, toNat_eq_iff, opD, opA, opB, opC, ROp.x, HiR.relOk, SgnMode.encode_of_decode hm]
    case h_15 =>
      split
      case h_1 => simp
      case h_2 c hc => simp_all [encode.eq_def, toNat_eq_iff, opD, opA, opB, opC, ROp.zero, ROp.x, HiR.relOk, FCvt.encode_of_decode hc]
    all_goals simp_all [encode.eq_def, toNat_eq_iff, opD, opA, opB, opC, ROp.zero, ROp.x, HiR.relOk]
  all_goals simp

theorem reads_decFma {l : Lo} {h : HiR} (hl : l.len = 1) (hop : l.op = 0x21) : Reads (decFma l h) [l.pack, h.pack] := by
  simp only [decFma, reads_need, beq_iff_eq, Bool.and_eq_true]
  rintro ⟨⟨hew, hz⟩, hmsk⟩
  split
  case h_3 fmt frm hfmt hfrm =>
    rw [← encF_fields (k := ⟨fmt, frm, h.rimm⟩) hl hfmt hfrm rfl hew hz hmsk, hop]
    split <;> simp_all [encode.eq_def, toNat_eq_iff]
  all_goals simp

theorem reads_decScalarMem {l : Lo} {h : HiM} (hl : l.len = 1)
    (hop : l.op = 0x18 ∨ l.op = 0x19 ∨ l.op = 0x1A ∨ l.op = 0x1B) : Reads (decScalarMem l h) [l.pack, h.pack] := by
  obtain ⟨imm, aop, pln, prnd, ord, nr, rsv, u, wid⟩ := h
  simp only [decScalarMem, reads_need, beq_iff_eq, Bool.and_eq_true, HiM.mem]
  rintro hfn3 ⟨⟨⟨⟨⟨haop, hpln⟩, hprnd⟩, hord⟩, hnr⟩, hrsv⟩ ⟨hb, hc⟩
  rw [← encM_fields hl, hfn3, hb, hc, haop, hpln, hprnd, hord, hnr, hrsv]
  split
  case h_1 => simp
  case h_2 wd hwd =>
    rw [← MemW.encode_of_decode hwd]
    rcases hop with hop | hop | hop | hop
    · simp [hop, encode.eq_def]
    · simp +contextual [hop, encode.eq_def]
    all_goals cases wd <;> simp +contextual [hop, encode.eq_def, encM, MemW.encode]

theorem reads_decVec {l : Lo} {h : HiR} (hl : l.len = 1) (hop : l.op = 0x30) : Reads (decVec l h) [l.pack, h.pack] := by
  simp only [decVec, reads_need, beq_iff_eq]
  intro hfn3
  split
  case h_1 => simp
  case h_2 k hk =>
    rw [← encV_fields hl hk hfn3, hop]
    split
    case h_16 =>
      split
      case h_1 => simp
      case h_2 c hc => simp_all [encode.eq_def, toNat_eq_iff, opD, opA, opB, opC, ROp.x, HiR.relOk, VCond.encode_of_decode hc, mEnc_mField]
    all_goals simp_all [encode.eq_def, toNat_eq_iff, opD, opA, opB, opC, ROp.zero, ROp.x, HiR.relOk, mEnc_mField]

theorem reads_decVecMore {l : Lo} {h : HiR} (hl : l.len = 1) : Reads (decVecMore l h) [l.pack, h.pack] := by
  simp only [decVecMore, reads_need, beq_iff_eq]
  intro hfn3
  split
  case h_1 => simp
  case h_2 k hk =>
    rw [← encV_fields hl hk hfn3]
    split <;> simp_all [encode.eq_def, toNat_eq_iff, opD, opA, opB, opC, ROp.zero, ROp.x, HiR.relOk]

theorem reads_decVecMem {l : Lo} {h : HiR} (hl : l.len = 1) (hop : l.op = 0x38) : Reads (decVecMem l h) [l.pack, h.pack] := by
  simp only [decVecMem, reads_need, beq_iff_eq]
  intro hfrm
  split
  case h_1 => simp
  case h_2 e he =>
    rw [vectorMemory_fields hl he hop hfrm]
    split <;> simp_all [encode.eq_def, encVM, toNat_eq_iff, opD, opB, ROp.zero, ROp.x, HiR.relOk]

theorem reads_decMask {l : Lo} {h : HiR} (hl : l.len = 1) (hop : l.op = 0x3C) : Reads (decMask l h) [l.pack, h.pack] := by
  simp only [decMask, reads_need]
  intro hp
  rw [← encR_fields hl hp, hop]
  split <;> simp_all [encode.eq_def, toNat_eq_iff, mEnc_mField]

theorem reads_decStream {l : Lo} {h : HiS} (hl : l.len = 1) : Reads (decStream l h) [l.pack, h.pack] := by
  obtain ⟨imm, top, bv, sid, n3, n2, n1, n0⟩ := h
  simp only [decStream, reads_need, beq_iff_eq, Bool.and_eq_true]
  rintro ⟨⟨⟨htop, h3⟩, h2⟩, h1⟩ ⟨hb, hc⟩
  rw [← encS_fields hl _ hb, hc, htop, h3, h2, h1]
  have himm : imm.extractLsb' 4 8 = 0 → (0 : BitVec 8) ++ imm.extractLsb' 0 4 = imm :=
    zero_append_extract (i := 8) (j := 4)
  split <;> simp_all [encode.eq_def, toNat_eq_iff]

theorem reads_decTask {l : Lo} {h : HiR} (hl : l.len = 1) : Reads (decTask l h) [l.pack, h.pack] := by
  simp only [decTask, reads_need, beq_iff_eq, Bool.and_eq_true]
  rintro ⟨hp, hfn12⟩
  rw [← encR_fields hl hp, hfn12]
  split <;> simp_all [encode.eq_def, toNat_eq_iff]

theorem reads_decPlane {l : Lo} {h : HiM} (hl : l.len = 1) : Reads (decPlane l h) [l.pack, h.pack] := by
  obtain ⟨imm, aop, pln, prnd, ord, nr, rsv, u, wid⟩ := h
  simp only [decPlane, reads_need, beq_iff_eq, Bool.and_eq_true]
  rintro ⟨⟨⟨⟨⟨haop, hord⟩, hnr⟩, hrsv⟩, hu⟩, hwid⟩
  rw [← encM_fields hl, haop, hord, hnr, hrsv, hu, hwid]
  split <;> simp_all [encode.eq_def, toNat_eq_iff]

theorem reads_decFence {l : Lo} {h : HiS} (hl : l.len = 1) : Reads (decFence l h) [l.pack, h.pack] := by
  obtain ⟨imm, top, bv, sid, n3, n2, n1, n0⟩ := h
  simp only [decFence, reads_need, beq_iff_eq, Bool.and_eq_true]
  rintro ⟨⟨⟨hd, ha⟩, hb⟩, hc⟩
  rw [← encS_fields hl _ hb, hd, ha, hc]
  have hfence : imm.extractLsb' 2 10 = 0 → (0 : BitVec 10) ++ imm.extractLsb' 1 1 ++ imm.extractLsb' 0 1 = imm :=
    zero_append_extract_extract (i := 10) (j := 1) (k := 1)
  have hpaths : imm.extractLsb' 8 4 = 0 → (0 : BitVec 4) ++ imm.extractLsb' 4 4 ++ imm.extractLsb' 0 4 = imm :=
    zero_append_extract_extract (i := 4) (j := 4) (k := 4)
  split
  case h_2 =>
    simp only [reads_need]
    intro hbare
    split
    case h_1 p q hp hq =>
      simp_all [encode.eq_def, toNat_eq_iff, HiS.bare, Path.encode_of_decode hp, Path.encode_of_decode hq]
    case h_2 => simp
  all_goals simp_all [encode.eq_def, toNat_eq_iff, HiS.bare]

theorem reads_decSystem {l : Lo} {h : HiS} (hl : l.len = 1) (hop : l.op = 0x7E) : Reads (decSystem l h) [l.pack, h.pack] := by
  obtain ⟨imm, top, bv, sid, n3, n2, n1, n0⟩ := h
  simp only [decSystem, reads_need, beq_iff_eq, Bool.and_eq_true, HiS.bare]
  rintro ⟨⟨⟨⟨⟨⟨htop, hbv⟩, hsid⟩, h3⟩, h2⟩, h1⟩, h0⟩ hb
  rw [← encS_fields hl _ hb, hop, htop, hbv, hsid, h3, h2, h1, h0]
  have hscope : imm.extractLsb' 2 10 = 0 → (0 : BitVec 10) ++ imm.extractLsb' 0 2 = imm :=
    zero_append_extract (i := 10) (j := 2)
  split
  case h_8 h0 h1 h2 h3 h4 h5 h6 =>
    simp only [reads_need, beq_iff_eq]
    intro hd
    rw [fn3_eq_seven h0 h1 h2 h3 h4 h5 h6, hd]
    split <;> simp_all [encode.eq_def, toNat_eq_iff]
  all_goals simp_all [encode.eq_def, toNat_eq_iff]

theorem TSel.encode_of_decode {imm : BitVec 12} {t : TSel} (h : TSel.decode imm = some t) : t.encode = imm := by
  have himm : imm.extractLsb' 6 6 ++ imm.extractLsb' 5 1 ++ imm.extractLsb' 0 5 = imm := by
    rw [append_extract (k := 5) (i := 6) (j := 1), append_extract (k := 0) (i := 7) (j := 5)]
    exact extract_all imm
  simp only [TSel.decode] at h
  split at h
  case h_1 hn =>
    rw [toNat_eq_iff (by decide)] at hn
    rw [← himm, hn, ← Option.some.inj h]
    simp [TSel.encode]
  case h_2 hn =>
    rw [toNat_eq_iff (by decide)] at hn
    split at h
    case isTrue hrow =>
      rw [← himm, hn, beq_iff_eq.mp hrow, ← Option.some.inj h]
      simp [TSel.encode]
    case isFalse => cases h
  case h_3 hn =>
    rw [toNat_eq_iff (by decide)] at hn
    split at h
    case isTrue hrow =>
      obtain ⟨hrow, hh⟩ : imm.extractLsb' 0 5 = 0 ∧ bit1 (imm.extractLsb' 5 1) = false := by simpa using hrow
      rw [← himm, hn, hrow, ← unbit1_bit1 (imm.extractLsb' 5 1), hh, ← Option.some.inj h]
      rfl
    case isFalse => cases h
  case h_4 => cases h

theorem bit_eq (b : BitVec 1) : b = 0 ∨ b = 1 := by revert b; decide

theorem reads_decTile {l : Lo} {h : HiT} (hl : l.len = 1) : Reads (decTile l h) [l.pack, h.pack] := by
  obtain ⟨imm, tt, ta, tb, fmt, pln, prnd, dir, rsv⟩ := h
  simp only [decTile, reads_need, beq_iff_eq, Bool.and_eq_true]
  rintro ⟨hr, hc⟩
  rw [← encT_fields hl _ hc, hr]
  have hshape : imm.extractLsb' 5 7 ++ imm.extractLsb' 0 5 = imm :=
    (append_extract (k := 0) (i := 7) (j := 5) imm).trans (extract_all _)
  split
  case h_5 hop hfn3 =>
    split
    case h_1 => simp
    case h_2 t ht =>
      rw [toNat_eq_iff (by decide)] at hop hfn3
      simp only [reads_need, beq_iff_eq, Bool.and_eq_true]
      rintro ⟨⟨⟨ha, hb⟩, ⟨⟨hta, htb⟩, hpln⟩, hprnd⟩, hfmt⟩
      rw [hop, hfn3, ha, hb, hta, htb, hpln, hprnd, hfmt, ← TSel.encode_of_decode ht]
      rcases bit_eq dir with rfl | rfl <;> simp [encode]
  case h_10 =>
    split
    case h_1 => simp
    case h_2 f hf => simp_all [encode.eq_def, toNat_eq_iff, TFmt.encode_of_decode hf]
  all_goals simp_all [encode.eq_def, toNat_eq_iff]

theorem reads_decAtomic {l : Lo} {h : HiM} (hl : l.len = 1) : Reads (decAtomic l h) [l.pack, h.pack] := by
  obtain ⟨imm, aop, pln, prnd, ord, nr, rsv, u, wid⟩ := h
  simp only [decAtomic, reads_need, beq_iff_eq, Bool.and_eq_true]
  rintro ⟨⟨hpln, hprnd⟩, hrsv⟩
  rw [← encM_fields hl, hpln, hprnd, hrsv]
  split
  case h_1 =>
    simp only [reads_need]
    intro hwid
    split
    case h_1 op o hop' ho =>
      obtain ⟨hu, rfl | rfl⟩ : u = 0 ∧ (wid = 2 ∨ wid = 3) := by simpa using hwid
      all_goals simp_all [encode.eq_def, toNat_eq_iff, AmoOp.encode_of_decode hop', MemOrd.encode_of_decode ho]
    case h_2 => simp
  case h_2 | h_3 =>
    simp only [reads_need]
    intro hord hbc
    split
    case h_1 wd hwd => simp_all [encode.eq_def, toNat_eq_iff, MemW.encode_of_decode hwd]
    case h_2 => simp
  case h_4 =>
    simp only [reads_need]
    intro hord hwid
    split <;> simp_all [encode.eq_def, toNat_eq_iff]
  case h_5 => simp

/-! ## The lengths -/

theorem reads_decode64 {l : Lo} {g1 : BitVec 32} (hl : l.len = 1) : Reads (decode64 l g1) [l.pack, g1] := by
  rw [decode64]
  split
  case h_1 hop => simpa using reads_decInt (h := HiR.unpack g1) hl (eq_ofNat_of_toNat hop)
  case h_2 hop => simpa using reads_decMul (h := HiR.unpack g1) hl (eq_ofNat_of_toNat hop)
  case h_3 hop => simpa using reads_decImm (h := HiI.unpack g1) hl (eq_ofNat_of_toNat hop)
  case h_4 hop => simpa using reads_decBf (h := HiI.unpack g1) hl (eq_ofNat_of_toNat hop)
  case h_5 hop => simpa using reads_decUpper (h := HiU.unpack g1) hl (eq_ofNat_of_toNat hop)
  case h_6 hop => simpa using reads_decBranch (h := HiU.unpack g1) hl (eq_ofNat_of_toNat hop)
  case h_7 hop => simpa using reads_decJump (h := HiU.unpack g1) hl (eq_ofNat_of_toNat hop)
  case h_8 hop => simpa using reads_decJalr (h := HiI.unpack g1) hl (eq_ofNat_of_toNat hop)
  case h_9 hop => simpa using reads_decScalarMem (h := HiM.unpack g1) hl (.inl (eq_ofNat_of_toNat hop))
  case h_10 hop => simpa using reads_decScalarMem (h := HiM.unpack g1) hl (.inr (.inl (eq_ofNat_of_toNat hop)))
  case h_11 hop => simpa using reads_decScalarMem (h := HiM.unpack g1) hl (.inr (.inr (.inl (eq_ofNat_of_toNat hop))))
  case h_12 hop => simpa using reads_decScalarMem (h := HiM.unpack g1) hl (.inr (.inr (.inr (eq_ofNat_of_toNat hop))))
  case h_13 hop => simpa using reads_decFp (h := HiR.unpack g1) hl (eq_ofNat_of_toNat hop)
  case h_14 hop => simpa using reads_decFma (h := HiR.unpack g1) hl (eq_ofNat_of_toNat hop)
  case h_15 hop => simpa using reads_decVec (h := HiR.unpack g1) hl (eq_ofNat_of_toNat hop)
  case h_16 | h_17 | h_18 | h_19 => simpa using reads_decVecMore (h := HiR.unpack g1) hl
  case h_20 hop => simpa using reads_decVecMem (h := HiR.unpack g1) hl (eq_ofNat_of_toNat hop)
  case h_21 hop => simpa using reads_decMask (h := HiR.unpack g1) hl (eq_ofNat_of_toNat hop)
  case h_22 | h_23 => simpa using reads_decStream (h := HiS.unpack g1) hl
  case h_24 | h_25 | h_26 => simpa using reads_decTile (h := HiT.unpack g1) hl
  case h_27 | h_28 => simpa using reads_decPlane (h := HiM.unpack g1) hl
  case h_29 | h_30 | h_31 | h_37 => simpa using reads_decTask (h := HiR.unpack g1) hl
  case h_32 | h_33 | h_36 => simpa using reads_decAtomic (h := HiM.unpack g1) hl
  case h_34 | h_35 => simpa using reads_decFence (h := HiS.unpack g1) hl
  case h_38 hop => simpa using reads_decSystem (h := HiS.unpack g1) hl (eq_ofNat_of_toNat hop)
  case h_39 => exact reads_error

theorem encC_fields {l : Lo} {h : HiC} (hl : l.len = 2) (hop : l.op = 0x78) (hr : h.rsv = 0) (imm : BitVec 32) :
    encC l.fn3 l.d l.a l.b l.c h.tag imm = [l.pack, h.pack, imm] := by
  rw [encC, l.pack_eq hl, hop, ← hr]

theorem reads_decEngine {l : Lo} {h : HiC} {imm : BitVec 32} (hl : l.len = 2) (hop : l.op = 0x78) :
    Reads (decEngine l h imm) [l.pack, h.pack, imm] := by
  simp only [decEngine, reads_need, beq_iff_eq]
  intro hr
  rw [← encC_fields hl hop hr]
  have hslot : imm.extractLsb' 2 30 = 0 → (0 : BitVec 30) ++ imm.extractLsb' 0 2 = imm :=
    zero_append_extract (i := 30) (j := 2)
  have hwin : imm.extractLsb' 4 28 = 0 → (0 : BitVec 28) ++ imm.extractLsb' 0 4 = imm :=
    zero_append_extract (i := 28) (j := 4)
  have hsel : imm.extractLsb' 3 29 = 0 → (0 : BitVec 29) ++ imm.extractLsb' 0 3 = imm :=
    zero_append_extract (i := 29) (j := 3)
  have hbind : imm.extractLsb' 7 25 = 0 → (0 : BitVec 25) ++ imm.extractLsb' 4 3 ++ imm.extractLsb' 0 4 = imm :=
    zero_append_extract_extract (i := 25) (j := 3) (k := 4)
  split <;> simp_all [encode.eq_def, toNat_eq_iff]

theorem decLongBrk_eq_ok {l : Lo} {h : HiS} {f : BitVec 12 → Instr} {i : Instr} (hd : decLongBrk l h f = .ok i) : i = f h.imm := by
  simp only [decLongBrk, need_eq_ok, Except.ok.injEq] at hd
  obtain ⟨-, -, -, hi⟩ := hd
  exact hi.symm

theorem reads_decode96 {l : Lo} {g1 g2 : BitVec 32} (hl : l.len = 2) (hbrk : l.op.toNat ≠ 0x7E) :
    Reads (decode96 l g1 g2) [l.pack, g1, g2] := by
  rw [decode96]
  split
  case h_1 hop =>
    obtain ⟨⟨rsv, pcb⟩, rfl⟩ : ∃ h : HiL, h.pack = g1 := ⟨_, HiL.pack_unpack g1⟩
    simp only [HiL.unpack_pack, reads_need, beq_iff_eq, Bool.and_eq_true]
    rintro hr ⟨hb, hc⟩
    rw [l.pack_eq hl, eq_ofNat_of_toNat hop, hr, hb, hc]
    split
    case h_2 => rcases bit_eq pcb with rfl | rfl <;> simp_all [encode.eq_def, toNat_eq_iff]
    all_goals simp_all [encode.eq_def, toNat_eq_iff]
  case h_2 hop =>
    simp only [reads_need, reads_ok, beq_iff_eq, Bool.and_eq_true]
    rintro hfn3 hg ⟨⟨ha, hb⟩, hc⟩
    rw [l.pack_eq hl, eq_ofNat_of_toNat hop, hfn3, hg, ha, hb, hc]
    rfl
  case h_3 hop => simpa using reads_decEngine (h := HiC.unpack g1) (imm := g2) hl (eq_ofNat_of_toNat hop)
  case h_4 hop => exact absurd hop hbrk
  case h_5 => exact reads_error

theorem reads_decode128 {l : Lo} {g1 g2 g3 : BitVec 32} (hl : l.len = 3) (hbrk : l.op.toNat ≠ 0x7E) :
    Reads (decode128 l g1 g2 g3) [l.pack, g1, g2, g3] := by
  rw [decode128]
  split
  case h_1 hop =>
    simp only [reads_need, reads_ok, beq_iff_eq, Bool.and_eq_true]
    rintro hfn3 hg ⟨⟨ha, hb⟩, hc⟩
    rw [l.pack_eq hl, eq_ofNat_of_toNat hop, hfn3, hg, ha, hb, hc]
    have hlo : (g3 ++ g2 : BitVec 64).extractLsb' 0 32 = g2 := extract_append_lo (n := 32) (m := 32) g3 g2
    have hhi : (g3 ++ g2 : BitVec 64).extractLsb' 32 32 = g3 := extract_append_hi (n := 32) (m := 32) g3 g2
    simp [encode.eq_def, hlo, hhi]
  case h_2 hop => exact absurd hop hbrk
  case h_3 => exact reads_error

theorem decode96_brk {l : Lo} {g1 g2 : BitVec 32} {i : Instr} (hop : l.op.toNat = 0x7E) (hd : decode96 l g1 g2 = .ok i) :
    ∃ n, i = .brk96 n := by
  rw [decode96, hop] at hd
  exact ⟨_, decLongBrk_eq_ok hd⟩

theorem decode128_brk {l : Lo} {g1 g2 g3 : BitVec 32} {i : Instr} (hop : l.op.toNat = 0x7E)
    (hd : decode128 l g1 g2 g3 = .ok i) : ∃ n, i = .brk128 n := by
  rw [decode128, hop] at hd
  exact ⟨_, decLongBrk_eq_ok hd⟩

/-! ## The statement -/

theorem finish_eq_ok {r : Except Reject Instr} {gs rest : List (BitVec 32)} {i : Instr} :
    finish r gs = .ok (i, rest) ↔ r = .ok i ∧ i.wf = true ∧ gs = rest := by
  rw [Instr.wf_iff]
  cases r with
  | error e => simp [finish]
  | ok j =>
    cases hj : j.defect with
    | none =>
      simp only [finish, hj, Except.ok.injEq, Prod.mk.injEq]
      exact ⟨fun ⟨hi, hr⟩ => ⟨hi, hi ▸ hj, hr⟩, fun ⟨hi, _, hr⟩ => ⟨hi, hr⟩⟩
    | some e =>
      simp only [finish, hj, reduceCtorEq, Except.ok.injEq, false_iff, not_and]
      rintro rfl hnone
      exact absurd (hj.symm.trans hnone) (Option.some_ne_none e)

/-- Settles O2, by what the decoder of each length reads. -/
theorem decodeInverse : Obligations.DecodeInverse := by
  intro gs rest i hd
  cases gs with
  | nil => cases hd
  | cons g0 gs =>
    simp only [decode] at hd
    split at hd
    case h_2 hl =>
      obtain ⟨hread, hwf, rfl⟩ := finish_eq_ok.mp hd
      refine ⟨hwf, fun _ => ?_⟩
      rw [reads_decode64 (eq_ofNat_of_toNat hl) i hread, Lo.pack_unpack]
      rfl
    case h_3 hl =>
      obtain ⟨hread, hwf, rfl⟩ := finish_eq_ok.mp hd
      refine ⟨hwf, fun hbrk => ?_⟩
      have hop : (Lo.unpack g0).op.toNat ≠ 0x7E := fun h => (decode96_brk h hread).elim fun n hn => (hbrk n).1 hn
      rw [reads_decode96 (eq_ofNat_of_toNat hl) hop i hread, Lo.pack_unpack]
      rfl
    case h_4 hl =>
      obtain ⟨hread, hwf, rfl⟩ := finish_eq_ok.mp hd
      refine ⟨hwf, fun hbrk => ?_⟩
      have hop : (Lo.unpack g0).op.toNat ≠ 0x7E := fun h => (decode128_brk h hread).elim fun n hn => (hbrk n).2 hn
      rw [reads_decode128 (eq_ofNat_of_toNat hl) hop i hread, Lo.pack_unpack]
      rfl
    all_goals cases hd

end Sys2Proof
end

section
/-! Words the spec writes out (02 R39, R51; the encoding tables). -/

namespace Sys2Proof

/-- Settles O3: a word that is the encoding of its instruction decodes to it; the other four are read as they stand. -/
theorem decodeWords : Obligations.DecodeWords :=
  ⟨decodeEncode (.add 5 6 7) [] rfl, decodeEncode (.addi 10 10 0xFF8) [] rfl, decodeEncode (.li64 7 0x0123456789ABCDEF) [] rfl,
    decodeEncode (.beq 5 0 6) [] rfl, decodeEncode (.jl 1 0x400) [] rfl,
    decodeEncode (.vadd ⟨7, true⟩ ⟨1, false⟩ ⟨2, false⟩ ⟨.dyn, 2, .s, true, 2⟩) [] rfl, decodeEncode (.msetX 7 5) [] rfl,
    decodeEncode (.sstart 3 7 true) [] rfl, decodeEncode (.tmma 3 1 2 .p1) [] rfl, decodeEncode (.ldp 3 10 0 1 true) [] rfl,
    decodeEncode (.jrec 10 6 19) [] rfl, decodeEncode (.amo .add .rel false true 5 10 6 0 0) [] rfl,
    decodeEncode (.wdrun 5 10) [] rfl, decodeEncode (.ddec 5 10 11 12 1 7) [] rfl, decodeEncode (.csrw 0 0x402 6) [] rfl,
    rfl, rfl, rfl, rfl⟩

end Sys2Proof
end

section
/-! Counting, field and mask instructions, conditional branches and jumps (04 R87, R90, R94 to R96, 05 R131). -/

namespace Sys2Proof.Machine

open Sys2Proof

/-! ## Counting bits (04 R87) -/

/-- The zero bits of a word from the top, as CLZ counts them. -/
def leadingZeros (a : Word) : Nat := if a = 0 then 64 else 63 - Nat.log2 a.toNat

theorem leadingZeros_le (a : Word) : leadingZeros a ≤ 64 := by unfold leadingZeros; split <;> omega

theorem log2_lt {a : Word} (h : a ≠ 0) : Nat.log2 a.toNat < 64 := by
  have hne : a.toNat ≠ 0 := fun e => h (BitVec.eq_of_toNat_eq e)
  exact (Nat.log2_lt hne).mpr a.isLt

theorem leadingZeros_above {a : Word} {j : Nat} (h : 64 - leadingZeros a ≤ j) : a.getLsbD j = false := by
  by_cases ha : a = 0
  · simp [ha]
  · have hlog := log2_lt ha
    rw [leadingZeros, if_neg ha] at h
    exact Nat.testBit_lt_two_pow (Nat.lt_log2_self.trans_le (Nat.pow_le_pow_right (by decide) (by omega)))

theorem leadingZeros_top {a : Word} (h : leadingZeros a < 64) : a.getLsbD (63 - leadingZeros a) = true := by
  have ha : a ≠ 0 := fun e => by simp [leadingZeros, e] at h
  have hlog := log2_lt ha
  have htop : 63 - leadingZeros a = Nat.log2 a.toNat := by rw [leadingZeros, if_neg ha]; omega
  rw [htop]
  exact Nat.testBit_log2 fun e => ha (BitVec.eq_of_toNat_eq e)

theorem ctzFrom_le (a : Word) : ∀ fuel i, ctzFrom a fuel i ≤ i + fuel
  | 0, i => Nat.le_refl i
  | fuel + 1, i => by
    rw [ctzFrom]
    have ih := ctzFrom_le a fuel (i + 1)
    split <;> omega

theorem ctzFrom_below (a : Word) : ∀ fuel i j, i ≤ j → j < ctzFrom a fuel i → a.getLsbD j = false
  | 0, i, j, hij, hj => absurd hij (Nat.not_le.mpr hj)
  | fuel + 1, i, j, hij, hj => by
    rw [ctzFrom] at hj
    split at hj
    · omega
    · rcases Nat.eq_or_lt_of_le hij with rfl | hlt
      · exact Bool.eq_false_iff.mpr ‹_›
      · exact ctzFrom_below a fuel (i + 1) j hlt hj

theorem ctzFrom_at (a : Word) : ∀ fuel i, ctzFrom a fuel i < i + fuel → a.getLsbD (ctzFrom a fuel i) = true
  | 0, i, h => absurd h (Nat.lt_irrefl i)
  | fuel + 1, i, h => by
    rw [ctzFrom] at h ⊢
    split
    · assumption
    · rw [if_neg ‹_›] at h
      exact ctzFrom_at a fuel (i + 1) (by omega)

/-- A count of trailing zeros: at most 64, zeros below it, and a one at it. -/
theorem ctz64_spec (a : Word) : ∃ n ≤ 64, ctz64 a = ofN n ∧ (∀ j < n, a.getLsbD j = false) ∧ (n < 64 → a.getLsbD n = true) :=
  ⟨ctzFrom a 64 0, ctzFrom_le a 64 0, rfl, fun j hj => ctzFrom_below a 64 0 j (Nat.zero_le j) hj, ctzFrom_at a 64 0⟩

theorem popc64_eq (a : Word) : popc64 a = ofN ((List.range 64).countP fun j => a.getLsbD j) := by
  rw [popc64, List.countP_eq_length_filter, ofN]

theorem done_alu {i : Instr} {s : State} {len : Nat} {d : Reg} {v : Word} (h : exec i s = s.alu len d v) :
    Done i s (s.setX d v) len := done_of_retire (.setX s d v) h

theorem bitCounts : Claim.BitCounts := fun s _ a =>
  ⟨⟨leadingZeros (s.x a), leadingZeros_le _, done_alu rfl, fun _ _ h => leadingZeros_above h, leadingZeros_top⟩,
    let ⟨n, hn, heq, hbelow, hat⟩ := ctz64_spec (s.x a)
    ⟨n, hn, done_alu (heq ▸ rfl), hbelow, hat⟩,
    done_alu (popc64_eq (s.x a) ▸ rfl)⟩

/-! ## Bit fields (04 R90) -/

theorem fieldOnes_getLsbD (l : BitVec 6) (j : Nat) : (fieldOnes l).getLsbD j = decide (j ≤ l.toNat) := by
  have := l.isLt
  simp only [fieldOnes, BitVec.getLsbD_ushiftRight, BitVec.getLsbD_allOnes, decide_eq_decide]
  omega

theorem fieldOnes_eq (l : BitVec 6) : fieldOnes l = BitVec.ofNat 64 (2 ^ (l.toNat + 1) - 1) := by
  ext j hj
  rw [← BitVec.getLsbD_eq_getElem, fieldOnes_getLsbD, ← BitVec.getLsbD_eq_getElem, BitVec.getLsbD_ofNat, Nat.testBit_two_pow_sub_one]
  simp [hj]

theorem bitFields : Claim.BitFields := by
  intro s d a l p hlp
  refine ⟨done_alu ?_, _, done_alu rfl, fun j hj => ?_⟩
  · have hfield : (s.x a >>> p.toNat) &&& fieldOnes l = ofN ((s.x a).toNat / 2 ^ p.toNat % 2 ^ (l.toNat + 1)) := by
      rw [fieldOnes_eq, and_low _ (by omega), BitVec.toNat_ushiftRight, Nat.shiftRight_eq_div_pow]
    rw [← hfield]
    rfl
  · simp only [BitVec.getLsbD_or, BitVec.getLsbD_and, BitVec.getLsbD_not, BitVec.getLsbD_shiftLeft, fieldOnes_getLsbD, hj]
    by_cases hp : p.toNat ≤ j
    · by_cases hl : j ≤ p.toNat + l.toNat
      · have hin : j ≤ l.toNat + p.toNat := by omega
        simp [hp, hl, hin, Nat.not_lt.mpr hp]
      · have hout : ¬j ≤ l.toNat + p.toNat := by omega
        simp [hl, hout]
    · simp [hp, Nat.lt_of_not_le hp]

/-! ## Masks (05 R131) -/

theorem SameControl.setM (s : State) (r : MReg) (v : Word) : SameControl s (s.setM r v) := ⟨rfl, rfl, rfl⟩

theorem maskResults : Claim.MaskResults := fun s _ a _ _ =>
  ⟨done_of_retire (.setM ..) rfl, done_of_retire (.setM ..) rfl, done_of_retire (.setM ..) rfl, done_of_retire (.setM ..) rfl,
    done_of_retire (.setM ..) rfl, done_of_retire (.setX ..) rfl, done_of_retire (.setX ..) (popc64_eq (s.m a) ▸ rfl),
    let ⟨n, hn, heq, hbelow, hat⟩ := ctz64_spec (s.m a)
    ⟨n, hn, done_of_retire (.setX ..) (heq ▸ rfl), hbelow, hat⟩⟩

/-! ## Branches and jumps (04 R94, R95) -/

/-- An offset counts granules of four bytes. -/
theorem offset_eq {n : Nat} (off : BitVec n) : off.signExtend 64 <<< 2 = ofI (off.toInt * 4) := by
  rw [ofI, BitVec.ofInt_mul, BitVec.shiftLeft_eq_mul_twoPow]
  rfl

/-- The condition of a branch, compared as the machine compares words. -/
theorem exec_of_branchOf {s : State} {i : Instr} {taken : Bool} {off : BitVec 20} (h : branchOf s i = some (taken, off)) :
    exec i s = s.branch taken off := by
  cases i with
  | beq a b o =>
    obtain ⟨rfl, rfl⟩ := Prod.mk.inj (Option.some.inj h)
    rw [decide_eq_decide.mpr BitVec.toNat_inj, ← beq_eq_decide]
    rfl
  | bne a b o =>
    obtain ⟨rfl, rfl⟩ := Prod.mk.inj (Option.some.inj h)
    rw [decide_eq_decide.mpr (not_congr BitVec.toNat_inj), decide_not, ← beq_eq_decide]
    rfl
  | blt | bltu =>
    obtain ⟨rfl, rfl⟩ := Prod.mk.inj (Option.some.inj h)
    rfl
  | bge | bgeu =>
    obtain ⟨rfl, rfl⟩ := Prod.mk.inj (Option.some.inj h)
    rw [← decide_eq_decide.mpr not_lt, decide_not]
    rfl
  | _ => cases h

theorem branches : Claim.Branches := fun s i taken off h => by
  rw [Goes, exec_of_branchOf h, State.branch, State.target, offset_eq]
  cases taken <;> rfl

theorem goes_of_jump {i : Instr} {s u : State} {pc : Word} (hret : u.ctx.instret = s.ctx.instret)
    (h : exec i s = .next (State.jump pc u)) : Goes i s u pc := by
  rw [Goes, h, ← hret]
  rfl

theorem aligned_eq (t : Word) : (t.extractLsb' 0 2 == 0) = decide (t.toNat % 4 = 0) := by
  rw [beq_eq_decide, decide_eq_decide, ← BitVec.toNat_inj]
  simp

theorem exec_jalr (s : State) (d a : Reg) (imm : BitVec 12) : exec (.jalr d a imm) s =
    if (s.x a + ofI imm.toInt).toNat % 4 = 0 then .next ((s.setX d (s.ctx.pc + 8)).jump (s.x a + ofI imm.toInt))
    else .next (s.trap ⟨6, 0, s.x a + ofI imm.toInt⟩) := by
  change checked s (require ((s.x a + ofI imm.toInt).extractLsb' 0 2 == 0) (alignTrap (s.x a + ofI imm.toInt))) _ = _
  rw [aligned_eq, require]
  by_cases h : (s.x a + ofI imm.toInt).toNat % 4 = 0
  · simp only [if_pos h, decide_eq_true h, ite_true]; rfl
  · simp only [if_neg h, decide_eq_false h, Bool.false_eq_true, ite_false]; rfl

theorem jumps : Claim.Jumps := by
  intro s d a off imm far
  refine ⟨goes_of_jump rfl ?_, goes_of_jump (by simp) ?_, goes_of_jump (by simp) ?_, fun h => goes_of_jump (by simp) ?_, fun h => ?_⟩
  · rw [← offset_eq]; rfl
  · rw [← offset_eq]; rfl
  · rw [← offset_eq]; rfl
  · rw [exec_jalr, if_pos h]
  · rw [Traps, exec_jalr, if_neg h]

/-- Settles O39, a part for each of its rules. -/
theorem bitMaskBranchResults : Obligations.BitMaskBranchResults := ⟨bitCounts, bitFields, maskResults, branches, jumps⟩

end Sys2Proof.Machine
end

section
/-! IFENCE and the contexts that the station master does not have (13 R335). -/

namespace Sys2Proof.Machine

open Sys2Proof

/-- The station master, which has one context (01 R19), runs; a context of its second number holds a fetched instruction. -/
def strayFetched : State :=
  { State.reset with cur := 23184, ctxs := [(23185, { Ctx.reset with fetched := some .nop })] }

theorem strayFetched_ifence : exec .ifence strayFetched =
    .next (State.retire 8 { strayFetched with core := { strayFetched.core with l1i := [] } }) := rfl

/-- Refutes O35: IFENCE empties the fetch buffers of the contexts that the core has, and the statement asks it of all eight numbers, of
which the station master's core has one context only (01 R19). -/
theorem not_systemInstructions : ¬ Obligations.SystemInstructions := by
  intro h
  obtain ⟨-, -, -, -, -, -, -, hifence, -⟩ := h strayFetched 0 0
  obtain ⟨u, hdone, -, -, hbuffers⟩ := hifence (.inl rfl)
  have hnext := Host.Outcome.next.inj (strayFetched_ifence.symm.trans hdone)
  have hcur : u.cur = 23184 := (congrArg State.cur hnext).symm
  have hctxs : u.ctxs = strayFetched.ctxs := (congrArg State.ctxs hnext).symm
  have hstray : (u.getCtx 23185).fetched = some .nop := by
    rw [State.getCtx, if_neg (by rw [hcur]; decide), hctxs]
    rfl
  have hnone : (u.getCtx 23185).fetched = none := by rw [hbuffers 23185 rfl]
  exact Option.some_ne_none _ (hstray.symm.trans hnone)

end Sys2Proof.Machine
end

section
/-! A cycle in which an instruction issues (02 R37 to R41, 12 R313). -/

namespace Sys2Proof.Machine

open Sys2Proof

/-! ## What the granules at PC lead to -/

theorem State.fetchKey_instr {s : State} {pc : Word} {key : Nat} {i : Instr} {rest : List (BitVec 32)} (hpad : s.granule key ≠ 0)
    (hstart : (s.granule key).extractLsb' 0 2 ≠ 0) (hones : s.granule key ≠ 0xFFFFFFFF)
    (hblock : pc.toNat % 32 + 4 * lenGranules (s.granule key) ≤ 32)
    (hdec : decode (s.granules key (lenGranules (s.granule key))) = .ok (i, rest)) (hv : vallocOk s.ctx i = true) :
    s.fetchKey pc key = .instr i (4 * lenGranules (s.granule key)) := by
  simp only [State.fetchKey, if_neg hpad, if_neg hstart, if_neg (Nat.not_lt.mpr hblock), if_neg hones, hdec, if_pos hv]

theorem State.fetchAt_key {s : State} {pc : Word} {key : Nat} {fdi : BitVec 6} {al : Bool} (hsite : s.site .x pc = .ok (.key key fdi al))
    (hpow : s.powered [key] = true) : s.fetchAt pc = s.fetchKey pc key := by
  simp only [State.fetchAt, hsite, if_pos hpow]

/-- A context that is free of events, waits, trains and replays does what fetch at PC leads to. -/
theorem State.nextAct_fetch {s : State} (hactive : s.ctx.phase = .active) (hevent : (s.takesEvents && s.hasEvent s.cur) = false)
    (hwait : s.ctx.wait = .none) (htrain : s.ctx.wd.wdm = false) (hrep : s.ctx.rep.act = false) : s.nextAct false = s.fetchAct := by
  simp [State.nextAct, hactive, hevent, hwait, htrain, State.bodyReady, hrep]

theorem State.fetchAct_instr {s : State} {i : Instr} {len : Nat} (hwait : s.ctx.wait = .none) (hrep : s.ctx.rep.act = false)
    (hgate : s.gate i = true) (hfetch : s.fetchAt s.ctx.pc = .instr i len) : s.fetchAct = .instr i := by
  simp [State.fetchAct, hwait, hfetch, State.instrAct, State.replaying, hrep, hgate]

/-! ## The cycle -/

/-- With nothing on the agenda, no switch due and no codeword to decode, a step is a cycle of the current core. -/
theorem step_eq_coreCycle {s : State} (hagenda : s.agenda = []) (hparts : ∀ e ∈ s.parts, s.overdue e.2 = false ∧ s.mustStop e.2 = false)
    (haside : s.core.aside < 16) (hchecks : (s.beginTurn s.k).raiseTimers.checks = []) :
    step s = (s.beginTurn s.k).raiseTimers.coreCycle false false := by
  have hdue : (s.parts.any fun e => s.overdue e.2) = false := by simpa using fun e he => (hparts e he).1
  have hstop : (s.parts.find? fun e => s.mustStop e.2) = none := by simpa using fun e he => (hparts e he).2
  simp [step, hagenda, State.cycleStep, hdue, hstop, Nat.not_le.mpr haside, State.misread, hchecks]

theorem State.coreCycle_issue {s : State} {side quiet : Bool} (hfree : s.settleReplays.freeList side = []) :
    s.coreCycle side quiet = State.issueCycle side quiet 8 [] s.settleReplays := by
  simp only [State.coreCycle, hfree, List.foldl_nil]

/-- Settles O6: the arbiter's context fetches the instruction, and the cycle performs it. -/
theorem stepRunsInstruction : Obligations.StepRunsInstruction := by
  intro s r key fdi al i rest q p t hagenda hparts haside hchecks hfree harb hactive hevent hwait htrain hrep _ hgate hsite hpow hpad
    hstart hones hblock hdec hv
  have hact : (q.select r).nextAct false = .instr i :=
    (State.nextAct_fetch hactive hevent hwait htrain hrep).trans <| State.fetchAct_instr hwait hrep hgate <|
      (State.fetchAt_key hsite hpow).trans <| State.fetchKey_instr hpad hstart hones hblock hdec hv
  have hstep : step s = State.issueCycle false false 8 [] q :=
    (step_eq_coreCycle hagenda hparts haside hchecks).trans (State.coreCycle_issue hfree)
  have hfetch : State.fetchFor { p with ctx := { p.ctx with drain := false } } (.instr i) = t := if_neg (by simp [hwait])
  have hperform : t.perform (.instr i) = exec i t := rfl
  rw [hstep, State.issueCycle, harb]
  simp only [hact]
  rw [hfetch, hperform]
  refine ⟨fun f hf => ?_, fun u hu => ⟨fun hheld => ?_, fun hheld => ?_⟩⟩
  · rw [hf]
  · simp only [hu, hheld]; rfl
  · simp only [hu, hheld]; rfl

end Sys2Proof.Machine
end

section
/-! The integer instructions (04 R87 to R93): each machine operation as the exact integers of its operands, cut to 64 bits. -/

namespace Sys2Proof.Machine

open Sys2Proof

/-! ## Sums, products and shifts -/

@[simp] theorem ofN_toNat (x : Word) : ofN x.toNat = x := by simp [ofN]

@[simp] theorem ofI_toInt (x : Word) : ofI x.toInt = x := BitVec.ofInt_toInt

theorem ofN_add_toNat (x y : Word) : ofN (x.toNat + y.toNat) = x + y := by simp [ofN, BitVec.ofNat_add]

theorem ofI_sub_toInt (x y : Word) : ofI (x.toInt - y.toInt) = x - y := by
  rw [ofI, Int.sub_eq_add_neg, BitVec.ofInt_add, BitVec.ofInt_neg, BitVec.ofInt_toInt, BitVec.ofInt_toInt, BitVec.sub_eq_add_neg]

theorem ofI_mul_toInt (x y : Word) : ofI (x.toInt * y.toInt) = x * y := by simp [ofI, BitVec.ofInt_mul]

theorem shamt_eq (y : Word) : shamt y = y.toNat % 64 := by simp [shamt]

theorem ofN_shiftLeft (x : Word) (n : Nat) : ofN (x.toNat * 2 ^ n) = x <<< n := by
  rw [ofN, ← BitVec.toNat_inj, BitVec.toNat_ofNat, BitVec.toNat_shiftLeft, Nat.shiftLeft_eq]

theorem ofN_shiftRight (x : Word) (n : Nat) : ofN (x.toNat / 2 ^ n) = x >>> n := by
  rw [← Nat.shiftRight_eq_div_pow, ← BitVec.toNat_ushiftRight, ofN_toNat]

theorem ofI_shiftRight (x : Word) (n : Nat) : ofI (x.toInt / 2 ^ n) = x.sshiftRight n := by
  have h : x.toInt / 2 ^ n = (x.sshiftRight n).toInt := by rw [BitVec.toInt_sshiftRight, Int.shiftRight_eq_div_pow]; rfl
  rw [h, ofI_toInt]

/-! ## Comparisons -/

theorem flagOf_slt (x y : Word) : flagOf (x.toInt < y.toInt) = truth (x.slt y) := by
  simp [flagOf, truth, BitVec.slt]

theorem flagOf_ult (x y : Word) : flagOf (x.toNat < y.toNat) = truth (x.ult y) := by
  simp [flagOf, truth, BitVec.ult]

theorem ofI_min (x y : Word) : ofI (min x.toInt y.toInt) = if y.slt x then y else x := by
  rw [min_comm, min_def_lt, apply_ite ofI, ofI_toInt, ofI_toInt]
  simp [BitVec.slt]

theorem ofI_max (x y : Word) : ofI (max x.toInt y.toInt) = if x.slt y then y else x := by
  rw [max_def_lt, apply_ite ofI, ofI_toInt, ofI_toInt]
  simp [BitVec.slt]

theorem ofN_min (x y : Word) : ofN (min x.toNat y.toNat) = if y.ult x then y else x := by
  rw [min_comm, min_def_lt, apply_ite ofN, ofN_toNat, ofN_toNat]
  simp [BitVec.ult]

theorem ofN_max (x y : Word) : ofN (max x.toNat y.toNat) = if x.ult y then y else x := by
  rw [max_def_lt, apply_ite ofN, ofN_toNat, ofN_toNat]
  simp [BitVec.ult]

/-! ## The high halves of products -/

theorem extractLsb'_high (p : BitVec 128) : p.extractLsb' 64 64 = ofN (p.toNat / 2 ^ 64) := by
  rw [← BitVec.toNat_inj, BitVec.extractLsb'_toNat, ofN, BitVec.toNat_ofNat, Nat.shiftRight_eq_div_pow]

theorem ofN_mulhu (x y : Word) : ofN (x.toNat * y.toNat / 2 ^ 64) = ((x.zeroExtend 128) * (y.zeroExtend 128)).extractLsb' 64 64 := by
  have hlt := Nat.mul_lt_mul'' x.isLt y.isLt
  rw [extractLsb'_high, BitVec.toNat_mul]
  simp only [BitVec.toNat_setWidth]
  rw [Nat.mod_eq_of_lt (x.isLt.trans (by decide)), Nat.mod_eq_of_lt (y.isLt.trans (by decide)), Nat.mod_eq_of_lt (hlt.trans_eq (by decide))]

/-- The high half of a product of signed words: its 128 bits spell it but for multiples of 2^128. -/
theorem ofI_mulh (x y : Word) : ofI (x.toInt * y.toInt / 2 ^ 64) = ((x.signExtend 128) * (y.signExtend 128)).extractLsb' 64 64 := by
  have hprod : (x.signExtend 128) * (y.signExtend 128) = BitVec.ofInt 128 (x.toInt * y.toInt) := by
    rw [BitVec.ofInt_mul]; rfl
  rw [extractLsb'_high, hprod, ← BitVec.toNat_inj, ofI, ofN, BitVec.toNat_ofInt, BitVec.toNat_ofInt, BitVec.toNat_ofNat]
  generalize x.toInt * y.toInt = p
  omega

/-! ## Quotients and remainders (03 R61) -/

theorem ofI_quotS (x y : Word) : ofI (quotS x.toInt y.toInt) = divS 64 x y := by
  by_cases hy : y = 0
  · simp [hy, quotS, divS, ofI]
  · have hi : y.toInt ≠ 0 := fun h => hy (BitVec.toInt_inj.mp h)
    rw [quotS, if_neg hi, divS, if_neg hy, ofI]

theorem ofI_remainS (x y : Word) : ofI (remainS x.toInt y.toInt) = remS 64 x y := by
  by_cases hy : y = 0
  · simp [hy, remainS, remS]
  · have hi : y.toInt ≠ 0 := fun h => hy (BitVec.toInt_inj.mp h)
    rw [remainS, if_neg hi, remS, if_neg hy, ofI]

theorem ofN_quotU (x y : Word) : ofN (quotU x.toNat y.toNat) = divU 64 x y := by
  by_cases hy : y = 0
  · simp [hy, quotU, divU, ofN]
  · have hi : y.toNat ≠ 0 := fun h => hy (BitVec.toNat_inj.mp h)
    rw [quotU, if_neg hi, divU, if_neg hy, ofN]

theorem ofN_remainU (x y : Word) : ofN (remainU x.toNat y.toNat) = remU 64 x y := by
  by_cases hy : y = 0
  · simp [hy, remainU, remU]
  · have hi : y.toNat ≠ 0 := fun h => hy (BitVec.toNat_inj.mp h)
    rw [remainU, if_neg hi, remU, if_neg hy, ofN]

/-! ## Immediates -/

theorem ofI_add_immediate (x : Word) (i : BitVec 12) : ofI (x.toInt + i.toInt) = x + sx12 i := by
  rw [ofI, BitVec.ofInt_add, BitVec.ofInt_toInt]
  rfl

theorem flagOf_slt_immediate (x : Word) (i : BitVec 12) : flagOf (x.toInt < i.toInt) = truth (x.slt (sx12 i)) := by
  rw [← flagOf_slt, sx12, BitVec.toInt_signExtend_of_le (by decide)]

theorem ofI_upper (i : BitVec 20) : ofI (i.toInt * 4096) = i.signExtend 64 <<< 12 := by
  rw [ofI, BitVec.ofInt_mul, BitVec.shiftLeft_eq_mul_twoPow]
  rfl

/-! ## The instructions -/

/-- Every integer instruction of the table writes its result and retires. -/
theorem exec_of_intResult {s : State} {i : Instr} {len : Nat} {d : Reg} {v : Word} (h : intResult s i = some (len, d, v)) :
    exec i s = s.alu len d v := by
  cases i with
  | and | or | xor | andi | ori | xori | li | lea | leaPc | li64 => cases h; rfl
  | sel d a b c =>
    cases h
    have hc : ((s.x c).toNat ≠ 0) = ((s.x c != 0) = true) := by rw [bne_iff_ne, ne_eq, ne_eq, ← BitVec.toNat_inj]; rfl
    simp only [hc]
    rfl
  | add | sub | mul | mulh | mulhu | div | divu | rem | remu | sll | srl | sra | slt | sltu | min | max | minu | maxu | addi | slti | slli
  | srli | srai | ldhi | addpc =>
    cases h
    simp only [ofN_add_toNat, ofI_sub_toInt, ofI_mul_toInt, ← shamt_eq, ofN_shiftLeft, ofN_shiftRight, ofI_shiftRight, flagOf_slt,
      flagOf_ult, ofI_min, ofI_max, ofN_min, ofN_max, ofN_mulhu, ofI_mulh, ofI_quotS, ofI_remainS, ofN_quotU, ofN_remainU,
      ofI_add_immediate, flagOf_slt_immediate, ofI_upper]
    rfl
  | _ => cases h

/-- Settles O8: the row of the table is what the instruction writes, and x0 keeps its value whatever is written to it. -/
theorem integerResults : Obligations.IntegerResults := fun s _ _ d v h =>
  ⟨done_alu (exec_of_intResult h), fun r => s.setX_x d r v, rfl⟩

end Sys2Proof.Machine
end

section
/-! What the instructions on x and m registers leave unchanged (04 R85). -/

namespace Sys2Proof.Machine

open Sys2Proof

/-- State `t` differs from `s` in the destination of `i`, PC, INSTRET and the wait at most. -/
def KeepsAllBut (i : Instr) (s t : State) : Prop :=
  (∀ r, xDest i ≠ some r → t.x r = s.x r) ∧ (∀ r, mDest i ≠ some r → t.m r = s.m r) ∧ SameMemory s t ∧
  t = { s with ctx := { s.ctx with x := t.ctx.x, m := t.ctx.m, pc := t.ctx.pc, instret := s.ctx.instret + 1, wait := .none } }

section
variable {i : Instr} (s : State)

theorem State.setX_x_of_ne {d r : Reg} (v : Word) (h : some d ≠ some r) : (s.setX d v).x r = s.x r := by
  rw [State.setX_x, if_neg]
  rintro ⟨rfl, -⟩
  exact h rfl

theorem State.setX_eq (d : Reg) (v : Word) : s.setX d v = { s with ctx := { s.ctx with x := (s.setX d v).ctx.x } } := by
  unfold State.setX
  split <;> rfl

theorem keepsAllBut_setX_retire {d : Reg} (h : xDest i = some d) (v : Word) (len : Nat) :
    KeepsAllBut i s (State.retire len (s.setX d v)) := by
  refine ⟨fun r hr => ?_, fun r _ => ?_, fun a => ?_, ?_⟩
  · rw [State.retire_x, s.setX_x_of_ne v (h ▸ hr)]
  · simp [State.m]
  · simp
  · rw [State.retire_eq, State.setX_eq]

theorem keepsAllBut_setX_jump {d : Reg} (h : xDest i = some d) (v pc : Word) : KeepsAllBut i s (State.jump pc (s.setX d v)) :=
  ⟨fun _ hr => s.setX_x_of_ne v (h ▸ hr), fun r _ => by simp [State.m], fun a => by simp,
    by rw [State.setX_eq]; rfl⟩

theorem keepsAllBut_setM_retire {d : MReg} (h : mDest i = some d) (v : Word) (len : Nat) :
    KeepsAllBut i s (State.retire len (s.setM d v)) := by
  refine ⟨fun r _ => State.retire_x .., fun r hr => ?_, fun a => ?_, ?_⟩
  · rw [State.retire_m, State.setM_m, if_neg]
    rintro rfl
    exact hr h
  · simp
  · rw [State.retire_eq]
    rfl

theorem keepsAllBut_retire (len : Nat) : KeepsAllBut i s (State.retire len s) :=
  ⟨fun _ _ => State.retire_x .., fun _ _ => State.retire_m .., fun a => by simp, by rw [State.retire_eq]⟩

theorem keepsAllBut_jump (pc : Word) : KeepsAllBut i s (State.jump pc s) := ⟨fun _ _ => rfl, fun _ _ => rfl, fun _ => rfl, rfl⟩

end

/-- Settles O9: each instruction writes one x or m register, or none, and retires or jumps. -/
theorem frameRegisterOnly : Obligations.FrameRegisterOnly := by
  intro i s t hi h
  change KeepsAllBut i s t
  cases i with
  | add | sub | and | or | xor | sll | srl | sra | slt | sltu | min | max | minu | maxu | sel | clz | ctz | popc | mul | mulh | mulhu | div
  | divu | rem | remu | addi | andi | ori | xori | slti | slli | srli | srai | bfx | bfi | ldhi | addpc | li | lea | leaPc | li64 | mpop
  | mfirst | msetX | sstat | dstat =>
    obtain rfl := Host.Outcome.next.inj h
    exact keepsAllBut_setX_retire s rfl ..
  | mand | mor | mxor | mnot | mset =>
    obtain rfl := Host.Outcome.next.inj h
    exact keepsAllBut_setM_retire s rfl ..
  | jal | jl =>
    obtain rfl := Host.Outcome.next.inj h
    exact keepsAllBut_setX_jump s rfl ..
  | beq | bne | blt | bge | bltu | bgeu =>
    obtain rfl := Host.Outcome.next.inj h
    split <;> exact keepsAllBut_jump ..
  | j =>
    obtain rfl := Host.Outcome.next.inj h
    exact keepsAllBut_jump ..
  | nop =>
    obtain rfl := Host.Outcome.next.inj h
    exact keepsAllBut_retire ..
  | _ => cases hi

end Sys2Proof.Machine
end

section
/-! What translation and checks read of the state: updates that leave it alone change no check, no home and no command's reads. -/

namespace Sys2Proof.Machine

open Sys2Proof

/-- What the translation of addresses and the reads of engine commands depend on is as before. -/
structure SameSpaces (s t : State) : Prop where
  cur : t.cur = s.cur
  mem : t.mem = s.mem
  tlb : t.tlb = s.tlb
  dev : t.dev = s.dev
  parts : t.parts = s.parts
  clusters : t.clusters = s.clusters
  free : t.free = s.free
  prv : t.ctx.prv = s.ctx.prv
  early : t.ctx.early = s.ctx.early

namespace SameSpaces

variable {s t : State} (h : SameSpaces s t)
include h

theorem k : t.k = s.k := by rw [State.k, h.cur, State.k]

/-! ## Tables and translation (10 R266 to R274) -/

theorem phys : t.phys = s.phys := by
  funext pa
  simp only [State.phys, h.dev]

theorem tableWord : t.tableWord = s.tableWord := by
  funext pa
  simp only [State.tableWord, h.phys, h.mem]

theorem words4 : t.words4 = s.words4 := by
  funext a
  simp only [State.words4, h.mem]

theorem groupEntry : t.groupEntry = s.groupEntry := by
  funext a idx own
  simp only [State.groupEntry, h.tableWord, h.free]

theorem walk (va : Word) : ∀ lvl e, t.walk va lvl e = s.walk va lvl e
  | 0, e => by rw [State.walk, State.walk]
  | l + 1, e => by simp only [State.walk, h.tableWord, h.groupEntry, walk va l]

theorem pageWalk : t.pageWalk = s.pageWalk := by
  funext asd va
  simp only [State.pageWalk, h.mem, h.walk]

theorem tlbOf : t.tlbOf = s.tlbOf := by
  funext sp
  simp only [State.tlbOf, h.tlb]

theorem rangeCount : t.rangeCount = s.rangeCount := by
  funext sp
  simp only [State.rangeCount, h.mem]

theorem rangeEnt : t.rangeEnt = s.rangeEnt := by
  funext sp i
  simp only [State.rangeEnt, h.tlbOf, h.rangeCount, h.words4, h.mem]

theorem rangeFind (sp : Space) (va : Word) : ∀ n i, t.rangeFind sp va n i = s.rangeFind sp va n i
  | 0, _ => rfl
  | n + 1, i => by simp only [State.rangeFind, h.rangeEnt, rangeFind sp va n]

theorem windowRec : t.windowRec = s.windowRec := by
  funext sp i
  simp only [State.windowRec, h.tlbOf, h.words4]

theorem windowAt : t.windowAt = s.windowAt := by
  funext sp va
  simp only [State.windowAt, h.windowRec]

theorem translate : t.translate = s.translate := by
  funext sp va
  simp only [State.translate, State.rangeEnd, h.windowAt, h.rangeFind, h.rangeCount, h.tlbOf, h.pageWalk]

theorem asidAt : t.asidAt = s.asidAt := by
  funext asd
  simp only [State.asidAt, h.mem]

theorem space : t.space = s.space := by
  funext k
  simp only [State.space, State.partOf, h.parts, h.asidAt]

theorem resolveIn : t.resolveIn = s.resolveIn := by
  funext k sp va
  simp only [State.resolveIn, h.translate]

/-! ## Checks and homes (04 R99, 10 R264) -/

theorem siteIn : t.siteIn = s.siteIn := by
  funext k sp prv a va
  simp only [State.siteIn, h.resolveIn, h.phys]

theorem site : t.site = s.site := by
  funext a va
  simp only [State.site, h.siteIn, h.k, h.space, h.prv]

theorem plainKey : t.plainKey = s.plainKey := by
  funext va
  simp only [State.plainKey, h.site]

theorem plainKeys : ∀ l, t.plainKeys l = s.plainKeys l
  | [] => rfl
  | a :: r => by simp only [State.plainKeys, h.plainKey, plainKeys r]

theorem unitAt : t.unitAt = s.unitAt := by
  funext key n
  simp only [State.unitAt, h.early, h.mem]

theorem windowElem : t.windowElem = s.windowElem := by
  funext w known j o n
  simp only [State.windowElem, h.plainKeys, h.unitAt]

theorem windowRead (w : Window) (known : List (Word × Nat)) :
    ∀ fuel off n, t.windowRead w known fuel off n = s.windowRead w known fuel off n
  | 0, _, _ => rfl
  | fuel + 1, off, n => by simp only [State.windowRead, h.windowElem, windowRead w known fuel]

theorem fdEntry : t.fdEntry = s.fdEntry := by
  funext sp fdi
  simp only [State.fdEntry, h.tlbOf, h.words4, h.mem]

theorem fd : t.fd = s.fd := by
  funext sp fdi
  simp only [State.fd, h.fdEntry]

theorem homeAt : t.homeAt = s.homeAt := by
  funext va key
  simp only [State.homeAt, State.homeIn, h.k, h.space, h.resolveIn, h.fd, h.phys]

theorem loadCheck : t.loadCheck = s.loadCheck := by
  funext va n
  simp only [State.loadCheck, h.site, h.homeAt, h.windowRead]

theorem storeCheck : t.storeCheck = s.storeCheck := by
  funext va n acc
  simp only [State.storeCheck, h.site]

theorem powered : t.powered = s.powered := by
  funext keys
  simp only [State.powered, State.cluster, State.linked, h.clusters, h.dev]

/-! ## What commands have still to read (11 R293) -/

theorem engSpace : t.engSpace = s.engSpace := by
  funext e
  simp only [State.engSpace, h.asidAt]

theorem engSite : t.engSite = s.engSite := by
  funext e acc va
  simp only [State.engSite, h.engSpace, h.siteIn]

theorem engKey : t.engKey = s.engKey := by
  funext e acc va
  simp only [State.engKey, h.engSite]

theorem fdMissing : t.fdMissing = s.fdMissing := by
  funext sp fdi
  simp only [State.fdMissing, h.tlbOf, h.mem]

theorem engElem : t.engElem = s.engElem := by
  funext e acc va
  simp only [State.engElem, h.engSite, h.engSpace, h.fdMissing, h.fd]

theorem engReads : t.engReads = s.engReads := by
  funext e base n
  simp only [State.engReads, h.engKey]

theorem engByte : t.engByte = s.engByte := by
  funext e base o
  simp only [State.engByte, h.engKey, h.mem]

theorem elemReads : t.elemReads = s.elemReads := by
  funext e acc va
  simp only [State.elemReads, h.engElem, h.engReads]

theorem dcopyReads : t.dcopyReads = s.dcopyReads := by
  funext e j
  simp only [State.dcopyReads, h.engReads, h.elemReads]

theorem cmdBehind : t.cmdBehind = s.cmdBehind := by
  funext e
  simp only [State.cmdBehind, State.cluster, h.clusters]

theorem cmdReads : t.cmdReads = s.cmdReads := by
  funext e
  simp only [State.cmdReads, State.imageLen, h.dcopyReads, h.engReads, h.engByte, h.cmdBehind]

theorem cmdBefore : t.cmdBefore = s.cmdBefore := by
  funext r id keys
  simp only [State.cmdBefore, State.cmdOpen, State.cluster, h.clusters, h.cmdBehind, h.cmdReads]

end SameSpaces

end Sys2Proof.Machine
end

section
/-! Page walks and the order of translation (10 R266 to R274). -/

namespace Sys2Proof.Machine

open Sys2Proof

/-! ## Entries of page tables (10 R268) -/

theorem pte_bad_iff (e : Word) : (!e.getLsbD 0 || pteReserved e) = true ↔ ¬pteValid e := by
  simp only [pteValid, pteReserved, Bool.or_eq_true, Bool.not_eq_true', bne_iff_ne, not_and_or, Bool.not_eq_true, ne_eq]

theorem pte_leaf_iff (e : Word) : (e.getLsbD 3 || e.getLsbD 4 || e.getLsbD 5 || e.getLsbD 6) = true ↔ pteLeaf e := by
  simp only [pteLeaf, Bool.or_eq_true, or_assoc]

theorem permOf_eq (e : Word) : permOf e (e.extractLsb' 58 6) = ptePerm e := by
  rw [BitVec.extractLsb', Nat.shiftRight_eq_div_pow]
  rfl

section
variable {s : State} {va e : Word}

theorem walk_invalid (h : ¬pteValid e) (lvl : Nat) : s.walk va lvl e = .error 1 := by
  rw [State.walk.eq_def]
  exact if_pos ((pte_bad_iff e).mpr h)

/-- A leaf in the root table translates nothing. -/
theorem walk_root_leaf (h : pteLeaf e) : s.walk va 3 e = .error 1 := by
  by_cases hv : pteValid e
  · rw [State.walk, if_neg (by rwa [pte_bad_iff, not_not]), if_pos ((pte_leaf_iff e).mpr h)]
    rfl
  · exact walk_invalid hv 3

/-- A leaf that maps a page: 64 KiB by C64 in the last table, else what its table says. -/
theorem walk_page {sh base lvl : Nat} {c64 : Bool} (h : ptePage e sh base) (h9 : e.getLsbD 9 = c64) (hlvl : lvl ≠ 3)
    (hc64 : c64 = true → lvl = 0) (hsh : sh = if c64 then 16 else 12 + 9 * lvl) : s.walk va lvl e = .ok (sh, base, ptePerm e) := by
  obtain ⟨hv, hl, hbase, haligned⟩ := h
  have hplace : (lvl = 3 || c64 && lvl != 0) = false := by
    cases c64 <;> simp [hlvl, hc64]
  rw [State.walk.eq_def]
  dsimp only
  rw [if_neg (by rwa [pte_bad_iff, not_not]), if_pos ((pte_leaf_iff e).mpr hl), h9, if_neg (by simp [hplace]), field_toNat, ← hbase, ← hsh,
    if_neg (by simp [haligned]), permOf_eq]

/-- A pointer whose table, or whose entry of it, lies outside HBM leads nowhere. -/
theorem walk_pointer_none {t l : Nat} (h : ptePointer e t) (hw : s.tableWord (t + 8 * (va.toNat / 2 ^ (12 + 9 * l) % 512)) = none) :
    s.walk va (l + 1) e = .error 1 := by
  obtain ⟨hv, hl, hhigh, h7, h9, rfl⟩ := h
  rw [State.walk, if_neg (by rwa [pte_bad_iff, not_not]), if_neg (by rwa [pte_leaf_iff])]
  dsimp only
  rw [field_toNat, hw]
  exact ite_self _

/-- A pointer leads to the entry of the next table at the address, or, in the last table, to the one that its group gives. -/
theorem walk_pointer_some {t l : Nat} {e' : Word} (h : ptePointer e t)
    (hw : s.tableWord (t + 8 * (va.toNat / 2 ^ (12 + 9 * l) % 512)) = some e') :
    s.walk va (l + 1) e = s.walk va l (if l = 0 then s.groupEntry t (va.toNat / 2 ^ (12 + 9 * l) % 512) e' else e') := by
  obtain ⟨hv, hl, hhigh, h7, h9, rfl⟩ := h
  have hfdi : e.extractLsb' 58 6 = 0 := by rw [field_eq, hhigh]; rfl
  rw [State.walk, if_neg (by rwa [pte_bad_iff, not_not]), if_neg (by rwa [pte_leaf_iff])]
  dsimp only
  rw [hfdi, h7, h9, if_neg (by decide), field_toNat, hw]

/-- An entry with C64 translates itself, and so does one in whose group none has it. -/
theorem groupEntry_own {t idx : Nat} {own : Word} (h : own.getLsbD 9 = true ∨
    ∀ n < 16, ∀ e, s.tableWord (t + 8 * (idx / 16 * 16 + n)) = some e → e.getLsbD 9 = false) : s.groupEntry t idx own = own := by
  rw [State.groupEntry]
  split
  · rfl
  · next h9 =>
    have hnone := h.resolve_left h9
    have hnil : (((List.range 16).filterMap fun i => s.tableWord (t + 8 * (idx / 16 * 16 + i))).filter fun e => e.getLsbD 9) = [] := by
      rw [List.filter_eq_nil_iff]
      intro e he
      obtain ⟨n, hn, hen⟩ := List.mem_filterMap.mp he
      rw [hnone n (List.mem_range.mp hn) e hen]
      decide
    simp only [hnil, List.getD_nil]

end

theorem pteIndex_eq (va : Word) {l : Nat} (h : l < 3) : va.toNat / 2 ^ (12 + 9 * l) % 512 = pteIndex va l := by
  rw [pteIndex, if_neg (by omega)]

theorem pageWalks : Claim.PageWalks := by
  intro s asd va e3 e2 e1 e0 t2 t1 t0 base root hroot he3
  have hwalk : s.pageWalk asd va = s.walk va 3 e3 := by
    have hindex : (va.extractLsb' 39 13).toNat = pteIndex va 3 := field_toNat va 39 13
    rw [State.pageWalk, hindex]
    exact (if_pos (decide_eq_true hroot)).trans (by rw [he3])
  have hstep {e e' : Word} {t l : Nat} (hl : l < 3) (hp : ptePointer e t) (hw : s.tableWord (t + 8 * pteIndex va l) = some e') :
      s.walk va (l + 1) e = s.walk va l (if l = 0 then s.groupEntry t (pteIndex va l) e' else e') := by
    rw [walk_pointer_some hp (by rwa [pteIndex_eq va hl]), pteIndex_eq va hl]
  rw [hwalk]
  refine ⟨?_, fun hp hw => ?_, fun hp hw => ?_⟩
  · rintro (h | h)
    · exact walk_invalid h 3
    · exact walk_root_leaf h
  · exact walk_pointer_none hp (by rwa [pteIndex_eq va (by decide)])
  rw [hstep (by decide) hp hw, if_neg (by decide)]
  refine ⟨fun h => walk_invalid h 2, fun h h9 => ?_, fun hp hw => ?_⟩
  · exact walk_page h h9 (by decide) (by decide) rfl
  rw [hstep (by decide) hp hw, if_neg (by decide)]
  refine ⟨fun h => walk_invalid h 1, fun h h9 => ?_, fun hp hw => ?_⟩
  · exact walk_page h h9 (by decide) (by decide) rfl
  rw [hstep (by decide) hp hw, if_pos rfl]
  refine ⟨fun h h9 => ?_, fun hgroup => ?_⟩
  · rw [groupEntry_own (.inl h9)]
    exact walk_page h h9 (by decide) (by decide) rfl
  · have h9 : e0.getLsbD 9 = false := hgroup (pteIndex va 0 % 16) (Nat.mod_lt _ (by decide)) e0 (by rw [Nat.div_add_mod', hw])
    rw [groupEntry_own (.inr hgroup)]
    exact ⟨fun h => walk_invalid h 0, fun h => walk_page h h9 (by decide) (by decide) rfl⟩

/-! ## The Range Table (10 R271, R274) -/

section
variable {s : State} {sp : Space} {va : Word}

/-- The number of entries that the table has, when it is neither malformed nor beyond HBM. -/
theorem rangeCount_eq (s : State) (sp : Space) : s.rangeCount sp =
    if (Mem.word s.mem (sp.asd + 16)).toNat % 512 ≤ 256 ∧
      (Mem.word s.mem (sp.asd + 8)).toNat + 32 * ((Mem.word s.mem (sp.asd + 16)).toNat % 512) ≤ 0x8000000000
    then some ((Mem.word s.mem (sp.asd + 16)).toNat % 512) else none := by
  rw [State.rangeCount, field_toNat, Nat.pow_zero, Nat.div_one, ← ite_not]
  refine if_congr ?_ rfl rfl
  simp [inHbm]

theorem rangeMatches_zero (va : Word) : rangeMatches ⟨0, 0, 0, 0⟩ va = false := rfl

theorem rangeEnt_cached {i : Nat} {e : FdWords} (h : tlbRange sp.asid i (s.tlbOf sp) = some e) : s.rangeEnt sp i = e := by
  rw [State.rangeEnt, h]

theorem rangeEnt_uncached {i : Nat} (h : tlbRange sp.asid i (s.tlbOf sp) = none) : s.rangeEnt sp i =
    if i < (s.rangeCount sp).getD 0 then s.words4 ((Mem.word s.mem (sp.asd + 8)).toNat + 32 * i) else ⟨0, 0, 0, 0⟩ := by
  rw [State.rangeEnt, h]

theorem mem_cachedRanges {asid i : Nat} : ∀ {l : List TlbEnt} {e : FdWords}, tlbRange asid i l = some e → i ∈ cachedRanges asid l
  | [], _, h => by cases h
  | x :: l, e, h => by
    cases x with
    | range a j w =>
      have hcons : cachedRanges asid (.range a j w :: l) = (if a = asid then some j else none).toList ++ cachedRanges asid l := by
        by_cases ha : a = asid <;> simp [cachedRanges, ha]
      rw [hcons, List.mem_append]
      rw [tlbRange] at h
      split at h
      · next hij => exact .inl (by simp [hij])
      · exact .inr (mem_cachedRanges h)
    | _ => exact mem_cachedRanges (l := l) h

theorem le_foldl_max (l : List Nat) : ∀ n, n ≤ l.foldl (fun n i => max n (i + 1)) n ∧ ∀ i ∈ l, i < l.foldl (fun n i => max n (i + 1)) n := by
  induction l with
  | nil => exact fun n => ⟨le_rfl, by simp⟩
  | cons j l ih =>
    intro n
    obtain ⟨hn, hl⟩ := ih (max n (j + 1))
    rw [List.foldl_cons]
    refine ⟨by omega, List.forall_mem_cons.mpr ⟨by omega, hl⟩⟩

/-- The search comes to every entry that matches. -/
theorem lt_rangeEnd {i : Nat} (h : rangeMatches (s.rangeEnt sp i) va = true) : i < s.rangeEnd sp := by
  obtain ⟨htable, hcached⟩ := le_foldl_max (cachedRanges sp.asid (s.tlbOf sp)) ((s.rangeCount sp).getD 0)
  cases hc : tlbRange sp.asid i (s.tlbOf sp) with
  | some e => exact hcached i (mem_cachedRanges hc)
  | none =>
    rw [rangeEnt_uncached hc] at h
    split at h
    · next hi => exact hi.trans_le htable
    · rw [rangeMatches_zero] at h
      cases h

theorem rangeFind_first {i : Nat} (hi : rangeMatches (s.rangeEnt sp i) va = true) :
    ∀ (n j : Nat), i < j + n → j ≤ i → (∀ q < i, j ≤ q → rangeMatches (s.rangeEnt sp q) va = false) →
      s.rangeFind sp va n j = some (s.rangeEnt sp i)
  | 0, j, hn, hj, _ => by omega
  | n + 1, j, hn, hj, hfirst => by
    rw [State.rangeFind]
    by_cases hij : j = i
    · subst hij
      exact if_pos hi
    · rw [hfirst j (by omega) le_rfl, if_neg (by decide)]
      exact rangeFind_first hi n (j + 1) (by omega) (by omega) fun q hq _ => hfirst q hq (by omega)

theorem rangeFind_none (h : ∀ i, rangeMatches (s.rangeEnt sp i) va = false) : ∀ n j, s.rangeFind sp va n j = none
  | 0, _ => rfl
  | n + 1, j => by
    rw [State.rangeFind]
    rw [h j, if_neg (by decide)]
    exact rangeFind_none h n (j + 1)

/-! ## The order of translation (10 R272) -/

theorem translate_window {w : Window} (h : s.windowAt sp va = some w) : s.translate sp va = .window w := by
  rw [State.translate, h]

/-- The place that a matching range entry gives: its offset added, when that is a physical address. -/
theorem translate_range {i : Nat} (hwin : s.windowAt sp va = none) (hi : rangeMatches (s.rangeEnt sp i) va = true)
    (hfirst : ∀ j < i, rangeMatches (s.rangeEnt sp j) va = false) : s.translate sp va =
      let e := s.rangeEnt sp i
      let pa := (va.toNat + e.w2.toNat / 4096 * 4096) % 2 ^ 64
      if pa < 2 ^ 52 then .page pa (permOf e.w3 (BitVec.ofNat 6 (e.w3.toNat / 2 ^ 10))) else .none 1 := by
  have hfind : s.rangeFind sp va (s.rangeEnd sp) 0 = some (s.rangeEnt sp i) :=
    rangeFind_first hi _ 0 (by simpa using lt_rangeEnd hi) (Nat.zero_le i) fun q hq _ => hfirst q hq
  rw [State.translate, hwin, hfind]
  dsimp only
  generalize s.rangeEnt sp i = e
  have hpa : (va + (e.w2 &&& 0xFFFFFFFFFFFFF000)).toNat = (va.toNat + e.w2.toNat / 4096 * 4096) % 2 ^ 64 := by
    have hmask : e.w2 &&& 0xFFFFFFFFFFFFF000 = ofN (e.w2.toNat / 2 ^ 12 * 2 ^ 12) := and_high e.w2 12
    rw [hmask, BitVec.toNat_add, ofN, BitVec.toNat_ofNat]
    omega
  have hfdi : e.w3.extractLsb' 10 6 = BitVec.ofNat 6 (e.w3.toNat / 2 ^ 10) := by rw [BitVec.extractLsb', Nat.shiftRight_eq_div_pow]
  have hphys : ((va + (e.w2 &&& 0xFFFFFFFFFFFFF000)).extractLsb' 52 12 != 0) = true ↔
      ¬(va.toNat + e.w2.toNat / 4096 * 4096) % 2 ^ 64 < 2 ^ 52 := by
    rw [bne_iff_ne, ne_eq, ← BitVec.toNat_inj, field_toNat, hpa]
    exact not_congr ⟨fun h => by change _ = 0 at h; omega, fun h => by change _ = 0; omega⟩
  rw [← hpa, hfdi]
  rw [← hpa] at hphys
  by_cases hlt : (va + (e.w2 &&& 0xFFFFFFFFFFFFF000)).toNat < 2 ^ 52
  · rw [if_pos hlt, if_neg (by rwa [hphys, not_not])]
  · rw [if_neg hlt, if_pos (hphys.mpr hlt)]

section
variable (hwin : s.windowAt sp va = none) (hno : ∀ i, rangeMatches (s.rangeEnt sp i) va = false)
include hwin hno

theorem translate_cached {sh base : Nat} {p : Perm} (h : tlbPage sp.asid va.toNat (s.tlbOf sp) = some (sh, base, p)) :
    s.translate sp va = .page (base + va.toNat % 2 ^ sh) p := by
  rw [State.translate, hwin, rangeFind_none hno, h]

variable (hpage : tlbPage sp.asid va.toNat (s.tlbOf sp) = none)
include hpage

theorem translate_malformed (h : s.rangeCount sp = none) : s.translate sp va = .none 1 := by
  rw [State.translate, hwin, rangeFind_none hno, hpage, h]
  rfl

variable {cnt : Nat} (hcount : s.rangeCount sp = some cnt)
include hcount

theorem translate_walk_error {sub : BitVec 8} (h : s.pageWalk sp.asd va = .error sub) : s.translate sp va = .none sub := by
  rw [State.translate, hwin, rangeFind_none hno, hpage, hcount, h]
  rfl

theorem translate_walk_ok {sh base : Nat} {p : Perm} (h : s.pageWalk sp.asd va = .ok (sh, base, p)) :
    s.translate sp va = .page (base + va.toNat % 2 ^ sh) p := by
  rw [State.translate, hwin, rangeFind_none hno, hpage, hcount, h]
  rfl

end

end

theorem translationOrder : Claim.TranslationOrder := by
  intro s sp va cnt table hit
  have hcount (hc : cnt ≤ 256) (ht : table + 32 * cnt ≤ 0x8000000000) : s.rangeCount sp = some cnt :=
    (rangeCount_eq s sp).trans (if_pos ⟨hc, ht⟩)
  refine ⟨fun w => translate_window, fun i e => rangeEnt_cached, fun i hcached hc ht => ?_,
    fun hwin => ⟨fun i hi hfirst => translate_range hwin hi hfirst, fun hno => ?_⟩⟩
  · have hent := rangeEnt_uncached hcached
    rw [hcount hc ht] at hent
    refine ⟨fun hi => hent.trans (if_pos hi), fun hi => ?_⟩
    change rangeMatches (s.rangeEnt sp i) va = false
    rw [hent, if_neg (by simpa using hi), rangeMatches_zero]
  · refine ⟨fun sh base p => translate_cached hwin hno, fun hpage => ⟨fun hc => ?_, fun hc ht => ?_⟩⟩
    · refine translate_malformed hwin hno hpage ((rangeCount_eq s sp).trans (if_neg ?_))
      exact fun h => absurd h.1 (Nat.not_le.mpr hc)
    · exact ⟨fun sub => translate_walk_error hwin hno hpage (hcount hc ht),
        fun sh base p => translate_walk_ok hwin hno hpage (hcount hc ht)⟩

end Sys2Proof.Machine
end

section
/-! Scalar loads and stores at issue: where an address leads, the checks of 04 R99, and the access that is outstanding then (04 R100,
R101, 08 R214). -/

namespace Sys2Proof.Machine

open Sys2Proof

/-! ## Where an address leads (10 R252, R254, R255) -/

theorem canonical_iff (va : Word) : canonical va = true ↔ va.toNat / 2 ^ 52 = if va.getLsbD 51 then 4095 else 0 := by
  have hva : va.toNat / 2 ^ 52 % 2 ^ 12 = va.toNat / 2 ^ 52 := Nat.mod_eq_of_lt (by have := va.isLt; omega)
  rw [canonical, beq_iff_eq, ← BitVec.toNat_inj, field_toNat, hva]
  cases va.getLsbD 51 <;> rfl

section
variable {s : State} {a : Acc} {va : Word}

theorem site_noncanonical (h : canonical va = false) : s.site a va = .error 3 := by
  simp [State.site, State.siteIn, h]

variable (ha : a = .r ∨ a = .w) (hc : canonical va = true)
include ha hc

theorem site_of_none {sub : BitVec 8} (h : s.resolve va = .none sub) : s.site a va = .error sub := by
  rw [State.resolve] at h
  rcases ha with rfl | rfl <;> simp [State.site, State.siteIn, hc, h]

theorem site_of_aliased {key : Nat} (h : s.resolve va = .aliased key) : s.site a va = .ok (.key key 0 true) := by
  rw [State.resolve] at h
  rcases ha with rfl | rfl <;> simp [State.site, State.siteIn, hc, h]

/-- A page of memory, and what its entry permits. -/
theorem site_of_page {pa key : Nat} {p : Perm} (h : s.resolve va = .page pa p) (hp : s.phys pa = .key key) :
    s.site a va = if p.allows a s.ctx.prv then .ok (.key key p.fdi false) else .error 2 := by
  rw [State.resolve] at h
  cases hallow : p.allows a s.ctx.prv <;> rcases ha with rfl | rfl <;> simp [State.site, State.siteIn, hc, h, hp, hallow]

end

/-! ## The checks (04 R99) -/

section
variable {s : State} {va : Word} {n : Nat}

theorem loadCheck_misaligned (h : va.toNat % n ≠ 0) : s.loadCheck va n = .error (alignTrap va) := if_pos h

theorem storeCheck_misaligned (h : va.toNat % n ≠ 0) (a : Acc) : s.storeCheck va n a = .error (alignTrap va) := if_pos h

variable (hn : va.toNat % n = 0)
include hn

theorem loadCheck_error {sub : BitVec 8} (h : s.site .r va = .error sub) : s.loadCheck va n = .error (lfault sub va) := by
  rw [State.loadCheck, if_neg (not_not.mpr hn), h]

theorem loadCheck_key {key : Nat} {fdi : BitVec 6} {al : Bool} (h : s.site .r va = .ok (.key key fdi al)) :
    s.loadCheck va n = .ok (.mem key (s.homeAt va key)) := by
  rw [State.loadCheck, if_neg (not_not.mpr hn), h]

theorem storeCheck_error {a : Acc} {sub : BitVec 8} (h : s.site a va = .error sub) : s.storeCheck va n a = .error (sfault sub va) := by
  rw [State.storeCheck, if_neg (not_not.mpr hn), h]

theorem storeCheck_key {a : Acc} {key : Nat} {fdi : BitVec 6} {al : Bool} (h : s.site a va = .ok (.key key fdi al)) :
    s.storeCheck va n a = .ok key := by
  rw [State.storeCheck, if_neg (not_not.mpr hn), h]

end

/-! ## Index words of windows (10 R281, 11 R287) -/

theorem meetsWords_nil (l : List Nat) : meetsWords l [] = false := by simp [meetsWords]

/-- Reading no key waits for nothing. -/
theorem readsAfter_nil (s : State) (id : Nat) : s.readsAfter id [] = false := by
  have hseen : s.seenBefore id [] = false := by
    rw [State.seenBefore, List.any_eq_false]
    intro p _
    split <;> simp [meetsWords_nil]
  simp [State.readsAfter, State.readBefore, State.cmdBefore, meetsWords_nil, hseen]

/-- The index words of an address that reads none. -/
def LaneSrc.Idle (l : LaneSrc) : Prop := l = .val 0 ∨ l = .gather [] [] [] 1

section
variable {s : State} {va : Word} {n : Nat}

theorem whenIndexed_idle {l : LaneSrc} (h : l.Idle) (f : State → Out) : s.whenIndexed [l] f = f s := by
  have hfree : s.indexFree l = true := by
    rcases h with rfl | rfl
    · rfl
    · simp [State.indexFree, State.mayReadNow, State.powered, readsAfter_nil, Pend.at]
  have hkeys : l.indexKeys = [] := by rcases h with rfl | rfl <;> rfl
  simp [State.whenIndexed, hfree, hkeys]

theorem indexWords_misaligned (h : va.toNat % n ≠ 0) : (s.indexWords va n).Idle := by
  rw [State.indexWords]
  split
  · simp [h, LaneSrc.Idle]
  · exact .inl rfl

theorem indexWords_error {sub : BitVec 8} (h : s.site .r va = .error sub) : (s.indexWords va n).Idle := by
  rw [State.indexWords, h]
  exact .inl rfl

/-- A load whose checks pass reads the index words that its lane names. -/
theorem indexWords_ok {src : LaneSrc} (h : s.loadCheck va n = .ok src) :
    (s.indexWords va n).indexKeys = src.indexKeys ∧ s.indexFree (s.indexWords va n) = s.indexFree src := by
  have hn : va.toNat % n = 0 := by
    by_contra hne
    rw [loadCheck_misaligned hne] at h
    cases h
  rw [State.loadCheck, if_neg (not_not.mpr hn)] at h
  rw [State.indexWords]
  split at h
  · cases h
  · next hs => cases h; rw [hs]; exact ⟨rfl, rfl⟩
  · next hs => cases h; rw [hs]; exact ⟨rfl, rfl⟩
  · next w hs =>
    rw [hs]
    dsimp only at h ⊢
    split at h
    · cases h
    · cases h
    · cases h
      rw [if_neg (not_not.mpr hn)]
      refine ⟨rfl, ?_⟩
      simp only [State.indexFree, List.map_append]
      rw [List.take_append_of_le_length (by simp)]

theorem whenIndexed_ok {src : LaneSrc} (h : s.loadCheck va n = .ok src) (f : State → Out) : s.whenIndexed [s.indexWords va n] f =
    if s.indexFree src then f (State.touch s.k s src.indexKeys)
    else .next (State.stall s.ctx.wait.reading (s.wakeFor src.indexKeys)) := by
  obtain ⟨hkeys, hfree⟩ := indexWords_ok h
  simp [State.whenIndexed, hkeys, hfree]

end

/-! ## What reading index words leaves alone -/

theorem SameSpaces.refl (s : State) : SameSpaces s s := ⟨rfl, rfl, rfl, rfl, rfl, rfl, rfl, rfl, rfl⟩

theorem SameSpaces.trans {s t u : State} (h : SameSpaces s t) (g : SameSpaces t u) : SameSpaces s u :=
  ⟨g.cur.trans h.cur, g.mem.trans h.mem, g.tlb.trans h.tlb, g.dev.trans h.dev, g.parts.trans h.parts, g.clusters.trans h.clusters,
    g.free.trans h.free, g.prv.trans h.prv, g.early.trans h.early⟩

theorem SameSpaces.modCore (s : State) (k : Nat) (f : Core → Core) : SameSpaces s (s.modCore k f) := by
  unfold State.modCore State.setCore
  split <;> exact ⟨rfl, rfl, rfl, rfl, rfl, rfl, rfl, rfl, rfl⟩

theorem SameSpaces.note (s : State) (keys : List Nat) : SameSpaces s (s.note keys) := by
  unfold State.note State.noteAs
  split
  · exact .refl s
  · split <;> exact ⟨rfl, rfl, rfl, rfl, rfl, rfl, rfl, rfl, rfl⟩

theorem SameSpaces.dropCopies (k : Nat) : ∀ (keys : List Nat) (s : State), SameSpaces s (State.dropCopies k s keys)
  | [], s => .refl s
  | a :: r, s => by
    rw [State.dropCopies]
    refine SameSpaces.trans ?_ (SameSpaces.dropCopies k r _)
    split
    · exact .modCore ..
    · exact .refl s

theorem SameSpaces.touch (k : Nat) (s : State) (keys : List Nat) : SameSpaces s (State.touch k s keys) :=
  (SameSpaces.note s keys).trans (.dropCopies k keys _)

theorem SameSpaces.popAll (s : State) (us : List Use) : SameSpaces s (s.popAll us) := ⟨rfl, rfl, rfl, rfl, rfl, rfl, rfl, rfl, rfl⟩

@[simp] theorem State.touch_ctx (k : Nat) (s : State) (keys : List Nat) : (State.touch k s keys).ctx = s.ctx := by
  simp [State.touch, State.note]

/-! ## Loads at issue -/

/-- Every checked load comes to its place in the program order. -/
theorem State.issueLoad_powered {s : State} {src : LaneSrc} (h : s.powered src.keys = true) (n : Nat) (acq : Bool) (dst : Dst) :
    s.issueLoad n src acq dst = s.issuingAt (.load src.path acq dst [⟨0, n, src⟩]) (src.sitesOn .core) := by
  rw [State.issueLoad, State.wakeFor_powered _ _ h]
  rfl

section
variable {s : State} {va : Word} {n : Nat} {src : LaneSrc} {k : LaneSrc → State → State}

theorem State.loading_error {t : Trap} (hidle : (s.indexWords va n).Idle) (h : s.loadCheck va n = .error t) :
    s.loading va n k = .next (s.trap t) := by
  rw [State.loading, whenIndexed_idle hidle, h]
  rfl

theorem State.loading_ok (h : s.loadCheck va n = .ok src) (hfree : s.indexFree src = true) :
    s.loading va n k = .next (k src (State.touch s.k s src.indexKeys)) := by
  rw [State.loading, whenIndexed_ok h, if_pos hfree, (SameSpaces.touch s.k s src.indexKeys).loadCheck, h]
  rfl

theorem State.loading_early (h : s.loadCheck va n = .ok src) (hfree : s.indexFree src = false) :
    s.loading va n k = .next (State.stall s.ctx.wait.reading (s.wakeFor src.indexKeys)) := by
  rw [State.loading, whenIndexed_ok h, hfree, if_neg (by decide)]

end

theorem SameControl.issuingTouched (s : State) (keys : List Nat) (op : PendOp) (sites : List (Path × Nat)) :
    SameControl s ((State.touch s.k s keys).issuingAt op sites) := by
  simp [SameControl, State.issuingAt]

theorem exec_ld (d a : Reg) (imm : BitVec 12) (w : MemW) (u : Bool) (s : State) : exec (.ld d a imm w u) s =
    s.loading (s.x a + ofI imm.toInt) (memBytes w) fun src s => (s.issueLoad (memBytes w) src false (.x d (memBytes w) u)).retire 8 := rfl

theorem exec_lda (d a : Reg) (imm : BitVec 12) (w : MemW) (u : Bool) (s : State) : exec (.lda d a imm w u) s =
    s.loading (s.x a + ofI imm.toInt) (memBytes w) fun src s => (s.issueLoad (memBytes w) src true (.x d (memBytes w) u)).retire 8 := rfl

/-- What a load of an instruction comes to when its checks pass and its index words may be read. -/
theorem done_of_loading {i : Instr} {s : State} {va : Word} {n : Nat} {acq : Bool} {dst : Dst} {src : LaneSrc}
    (hexec : exec i s = s.loading va n fun src s => (s.issueLoad n src acq dst).retire 8) (h : s.loadCheck va n = .ok src)
    (hfree : s.indexFree src = true) (hpow : s.powered src.keys = true) :
    Done i s ((State.touch s.k s src.indexKeys).issuingAt (.load src.path acq dst [⟨0, n, src⟩]) (src.sitesOn .core)) 8 := by
  have hpow' : (State.touch s.k s src.indexKeys).powered src.keys = true := by rwa [(SameSpaces.touch ..).powered]
  refine done_of_retire (.issuingTouched ..) ?_
  rw [hexec, State.loading_ok h hfree, State.issueLoad_powered hpow']

/-! ## FLD -/

theorem checkUse_load_bound {i : Instr} {c : Ctx} {isV : Bool} {r : Reg} (h : (c.bound isV r).isSome = true) :
    checkUse i c ⟨isV, r, .load⟩ = .error (illegal i) := by
  obtain ⟨k, hk⟩ := Option.isSome_iff_exists.mp h
  simp [checkUse, hk]

/-- The operation of FLD on its operands: its checks, and the access they allow. -/
def State.fldEffect (s : State) (va : Word) (n : Nat) (d : Reg) : Effect :=
  match s.loadCheck va n with
  | .error t => .error t
  | .ok src => .ok (0, fun s => s.issueLoad n src false (.f d))

theorem State.fldEffect_ok {s : State} {va : Word} {n : Nat} {src : LaneSrc} (h : s.loadCheck va n = .ok src) (d : Reg) :
    s.fldEffect va n d = .ok (0, fun s => s.issueLoad n src false (.f d)) := by rw [State.fldEffect, h]

theorem exec_fld (d a : Reg) (imm : BitVec 12) (f : Fmt) (s : State) : exec (.fld d a imm f) s =
    s.operateWhen (.fld d a imm f) 0 [⟨false, direct d, .load⟩] (fun _ => [s.indexWords (s.x a + ofI imm.toInt) (fmtBytes f)])
      fun _ _ => s.fldEffect (s.x a + ofI imm.toInt) (fmtBytes f) d := rfl

theorem fld_bound {s : State} {d a : Reg} {imm : BitVec 12} {f : Fmt} (h : (s.ctx.bound false d).isSome = true) :
    Traps (.fld d a imm f) s (illegal (.fld d a imm f)) := by
  have hopen : openUses (.fld d a imm f) s.ctx 0 [⟨false, direct d, .load⟩] = .error (illegal (.fld d a imm f)) := by
    simp [openUses, checkDirect, direct, checkUse_load_bound h]
  rw [Traps, exec_fld, State.operateWhen, hopen]

/-- A destination that data return to neither pops nor pushes. -/
theorem supplied_load (s : State) (d : Reg) : Supplied s [⟨false, d, .load⟩] [] := by
  have hpops (k : BitVec 2) : popsOf s.ctx k [⟨false, d, .load⟩] = 0 := rfl
  have hpushes (k : BitVec 2) : pushesOf s.ctx k [⟨false, d, .load⟩] = 0 := rfl
  have honly {p q : List Use} {u : Use} (hus : [⟨false, d, .load⟩] = p ++ u :: q) : u.role = .load := by
    have hu : u ∈ ([⟨false, d, .load⟩] : List Use) := by simp [hus]
    rw [List.mem_singleton.mp hu]
  refine ⟨fun k => by simp [hpops], rfl, fun p q u hus hr => ?_, fun p q u k hus hr => ?_, ?_⟩
  · cases (honly hus).symm.trans hr
  · cases (honly hus).symm.trans hr
  · simp [State.pushesReady, pushed, hpushes]

/-- FLD into a register that no stream is bound to, its checks passed. -/
theorem exec_fld_ok {s : State} {d a : Reg} {imm : BitVec 12} {f : Fmt} {src : LaneSrc}
    (h : s.loadCheck (s.x a + ofI imm.toInt) (fmtBytes f) = .ok src) (hb : s.ctx.bound false d = none) : exec (.fld d a imm f) s =
      s.whenIndexed [s.indexWords (s.x a + ofI imm.toInt) (fmtBytes f)] fun t =>
        .next (State.retire 8 (t.issueLoad (fmtBytes f) src false (.f d))) := by
  have huse : checkUse (.fld d a imm f) s.ctx ⟨false, d, .load⟩ = .ok () := checkUse_unbound hb
  have hopen : openUses (.fld d a imm f) s.ctx 0 [⟨false, direct d, .load⟩] = .ok [⟨false, d, .load⟩] := by
    simp [openUses, checkDirect, resolveOps, checkUses, direct, huse]
  have hsup := supplied_load s d
  have hpops (t : State) : t.commitPops [⟨false, d, .load⟩] = t := by
    rw [State.commitPops_popAll]
    exact State.popAll_of_noPops fun k => rfl
  have hquiet (t : State) : t.fpTraps 0#5 = false := by simp [State.fpTraps]
  rw [exec_fld, State.fldEffect_ok h, State.operateWhen, hopen]
  simp [hsup.fetchUses, hsup.readyPushes, hsup.usesArrived, hsup.pushesReady, hsup.readUses, hsup.checkPushes, State.raising, hquiet, hpops]

theorem loadIssue : Claim.LoadIssue := by
  intro s d a imm w u f src va out
  refine ⟨fld_bound, fun h => ⟨fun hfree hpow => ⟨?_, ?_⟩, fun hfree => ⟨?_, ?_⟩⟩, fun h hb => ⟨fun hfree hpow => ?_, fun hfree => ?_⟩⟩
  · exact done_of_loading (exec_ld ..) h hfree hpow
  · exact done_of_loading (exec_lda ..) h hfree hpow
  · exact (exec_ld ..).trans (State.loading_early h hfree)
  · exact (exec_lda ..).trans (State.loading_early h hfree)
  · have hpow' : (State.touch s.k s src.indexKeys).powered src.keys = true := by rwa [(SameSpaces.touch ..).powered]
    refine done_of_retire (.issuingTouched ..) ?_
    rw [exec_fld_ok h hb, whenIndexed_ok h, if_pos hfree, State.issueLoad_powered hpow']
  · rw [Gives, exec_fld_ok h hb, whenIndexed_ok h, hfree, if_neg (by decide)]

/-! ## Stores at issue -/

theorem State.issueStore_powered {s : State} {key : Nat} (h : s.powered [key] = true) (va : Word) (n : Nat) (v : Word) :
    s.issueStore va n key v = s.issuing (.store .core [cellsOf key n v.toNat]) [s.homeAt va key] := by
  rw [State.issueStore, State.wakeFor_powered _ _ h]
  rfl

theorem exec_st (d a : Reg) (imm : BitVec 12) (w : MemW) (s : State) : exec (.st d a imm w) s =
    checked s (s.storeCheck (s.x a + ofI imm.toInt) (memBytes w) .w) fun key =>
      (s.issueStore (s.x a + ofI imm.toInt) (memBytes w) key (s.x d)).retire 8 := rfl

/-- A store whose checks pass comes to its place in the program order and retires. -/
theorem done_st {d a : Reg} {imm : BitVec 12} {w : MemW} {s : State} {key : Nat}
    (h : s.storeCheck (s.x a + ofI imm.toInt) (memBytes w) .w = .ok key) (hpow : s.powered [key] = true) : Done (.st d a imm w) s
      (s.issuing (.store .core [cellsOf key (memBytes w) (s.x d).toNat]) [s.homeAt (s.x a + ofI imm.toInt) key]) 8 := by
  refine done_of_retire ⟨rfl, rfl, rfl⟩ ?_
  rw [exec_st, h, checked_ok, State.issueStore_powered hpow]

theorem exec_stl_ok {d a : Reg} {imm : BitVec 12} {w : MemW} {s : State} {key : Nat}
    (h : s.storeCheck (s.x a + ofI imm.toInt) (memBytes w) .w = .ok key) : exec (.stl d a imm w) s =
      s.releasing (.stl d a imm w) fun s' => .next ((s'.issueStore (s.x a + ofI imm.toInt) (memBytes w) key (s'.x d)).retire 8) := by
  change s.storeCheck (s.ea a imm) (memBytes w) .w = .ok key at h
  change execStl d a imm w s = _
  rw [execStl, h]
  rfl

theorem exec_stl_error {d a : Reg} {imm : BitVec 12} {w : MemW} {s : State} {t : Trap}
    (h : s.storeCheck (s.x a + ofI imm.toInt) (memBytes w) .w = .error t) : Traps (.stl d a imm w) s t := by
  change s.storeCheck (s.ea a imm) (memBytes w) .w = .error t at h
  change execStl d a imm w s = _
  rw [execStl, h]

/-- The operation of FST on its operands: its checks, and the access they allow. -/
def State.fstEffect (s : State) (va : Word) (n : Nat) (v : List VWord) : Effect :=
  match s.storeCheck va n .w with
  | .error t => .error t
  | .ok key => .ok (0, fun s => s.issueStore va n key (sf v 0))

theorem State.fstEffect_ok {s : State} {va : Word} {n key : Nat} (h : s.storeCheck va n .w = .ok key) (v : List VWord) :
    s.fstEffect va n v = .ok (0, fun s => s.issueStore va n key (sf v 0)) := by rw [State.fstEffect, h]

theorem exec_fst (d a : Reg) (imm : BitVec 12) (f : Fmt) (s : State) : exec (.fst d a imm f) s =
    s.operate (.fst d a imm f) 0 [fS (direct d)] fun _ v => s.fstEffect (s.x a + ofI imm.toInt) (fmtBytes f) v := rfl

theorem Ctx.drained_iff (c : Ctx) : c.drained = true ↔ c.ldc = 0 ∧ c.stc = 0 := by simp [Ctx.drained]

theorem storeIssue : Claim.StoreIssue := by
  intro s d a imm w f key va hpow
  refine ⟨fun h => ⟨?_, fun hl hs => ?_, fun hdrain => ?_⟩, fun us v hus hv h => ?_⟩
  · exact done_st h hpow
  · refine done_of_retire ⟨rfl, rfl, rfl⟩ ?_
    rw [exec_stl_ok h, State.releasing_drained _ _ _ ((Ctx.drained_iff _).mpr ⟨hl, hs⟩), State.issueStore_powered hpow]
  · have hwaits : s.ctx.drained = false := by
      rw [Bool.eq_false_iff, ne_eq, Ctx.drained_iff]
      tauto
    rw [Waits, exec_stl_ok h, State.releasing_waits _ _ _ hwaits]
  · have hspaces := SameSpaces.popAll s us
    have hquiet : s.fpTraps 0#5 = false := by simp [State.fpTraps]
    refine done_of_retire ⟨rfl, rfl, rfl⟩ ?_
    rw [exec_fst, State.operate_supplied hus hv (State.fstEffect_ok h v) hquiet, State.orFlags_zero,
      State.issueStore_powered (by rwa [hspaces.powered]), hspaces.homeAt]

/-! ## The checks of scalar accesses -/

section
variable {s : State} {d a : Reg} {imm : BitVec 12} {w : MemW}

theorem traps_of_loadCheck {t : Trap} (u : Bool) (hidle : (s.indexWords (s.x a + ofI imm.toInt) (memBytes w)).Idle)
    (h : s.loadCheck (s.x a + ofI imm.toInt) (memBytes w) = .error t) : Traps (.ld d a imm w u) s t ∧ Traps (.lda d a imm w u) s t :=
  ⟨(exec_ld ..).trans (State.loading_error hidle h), (exec_lda ..).trans (State.loading_error hidle h)⟩

theorem traps_of_storeCheck {t : Trap} (h : s.storeCheck (s.x a + ofI imm.toInt) (memBytes w) .w = .error t) :
    Traps (.st d a imm w) s t ∧ Traps (.stl d a imm w) s t :=
  ⟨by rw [Traps, exec_st, h, checked_error], exec_stl_error h⟩

end

/-- The local range of a compute or data core leads to its own cluster's CLM (10 R252). -/
theorem resolve_localAlias {s : State} {va : Word} (hk : s.k < 2880) (hlo : 0x1000000000 ≤ va.toNat) (hhi : va.toNat < 0x1000200000) :
    s.resolve va = .aliased (0x40000000000 + s.k / 9 * 0x200000 + (va.toNat - 0x1000000000)) := by
  have halias : aliasOf s.k va = some (.aliased (clmKey (clusterOf s.k) (va.toNat - 0x1000000000))) := by
    have hmesh : isMesh s.k = true := decide_eq_true hk
    rw [aliasOf, if_pos ⟨hlo, hhi⟩, if_pos hmesh]
  simp only [State.resolve, State.resolveIn, halias]
  rfl

theorem scalarChecks : Claim.ScalarChecks := by
  intro s d a imm w u va
  refine ⟨fun h => ?_, fun hn hbad => ?_, fun hn hk hlo hhi => ?_⟩
  · obtain ⟨hld, hlda⟩ := traps_of_loadCheck (d := d) u (indexWords_misaligned h) (loadCheck_misaligned h)
    obtain ⟨hst, hstl⟩ := traps_of_storeCheck (d := d) (storeCheck_misaligned h .w)
    exact ⟨hld, hst, hlda, hstl⟩
  · have hsite (acc : Acc) : s.site acc va = .error 3 := site_noncanonical (by rw [Bool.eq_false_iff, ne_eq, canonical_iff]; exact hbad)
    obtain ⟨hld, hlda⟩ := traps_of_loadCheck (d := d) u (indexWords_error (hsite .r)) (loadCheck_error hn (hsite .r))
    obtain ⟨hst, hstl⟩ := traps_of_storeCheck (d := d) (storeCheck_error hn (hsite .w))
    exact ⟨hld, hst, hlda, hstl⟩
  · have hcanon : canonical va = true := by
      have hbit : va.getLsbD 51 = false := Nat.testBit_lt_two_pow (hhi.trans (by decide))
      rw [canonical_iff, hbit, if_neg (by decide)]
      omega
    have hres := resolve_localAlias hk hlo hhi
    exact ⟨loadCheck_key hn (site_of_aliased (.inl rfl) hcanon hres), storeCheck_key hn (site_of_aliased (.inr rfl) hcanon hres)⟩

end Sys2Proof.Machine
end

section
/-! Loads return and stores are performed (04 R100, R101, 10 R263, 11 R284 to R287, R293). -/

namespace Sys2Proof.Machine

open Sys2Proof

/-! ## Bytes of a value -/

@[simp] theorem length_leBytes : ∀ n v, (leBytes n v).length = n
  | 0, _ => rfl
  | n + 1, v => by rw [leBytes, List.length_cons, length_leBytes n]

/-- The bytes of a value spell its low bytes. -/
theorem leNat_leBytes : ∀ n v, leNat (leBytes n v) = v % 2 ^ (8 * n)
  | 0, v => by simp [leBytes, leNat, Nat.mod_one]
  | n + 1, v => by
    have hpow : 2 ^ (8 * (n + 1)) = 256 * 2 ^ (8 * n) := by rw [Nat.mul_succ, Nat.pow_add, Nat.mul_comm]
    rw [leBytes, leNat, leNat_leBytes n, BitVec.toNat_ofNat, hpow, Nat.mod_mul]

theorem cellsAt_keys : ∀ (l : List Byte) (a : Nat), (cellsAt a l).map (·.1) = (List.range l.length).map (a + ·)
  | [], _ => rfl
  | b :: r, a => by
    rw [cellsAt, List.map_cons, cellsAt_keys r, List.length_cons, List.range_succ_eq_map, List.map_cons, List.map_map]
    simp [Function.comp_def, Nat.add_right_comm, Nat.add_assoc]

/-- The cells of a value of `n` bytes lie at `n` keys from its own on. -/
theorem cellsOf_keys (a n v : Nat) : (cellsOf a n v).map (·.1) = (List.range n).map (a + ·) := by
  rw [cellsOf, cellsAt_keys, length_leBytes]

theorem cellsGet_cellsAt : ∀ (l : List Byte) (a b : Nat), cellsGet (cellsAt a l) b = if a ≤ b then l[b - a]? else none
  | [], _, _ => by simp [cellsAt, cellsGet]
  | x :: r, a, b => by
    rw [cellsAt, cellsGet, cellsGet_cellsAt r]
    rcases Nat.lt_trichotomy b a with h | rfl | h
    · rw [if_neg (show ¬a + 1 ≤ b by omega), if_neg (show ¬b = a by omega), if_neg (show ¬a ≤ b by omega)]
    · simp
    · have hsub : b - a = (b - (a + 1)) + 1 := by omega
      rw [if_pos (show a + 1 ≤ b from h), if_pos h.le, if_neg (show ¬b = a by omega), hsub, List.getElem?_cons_succ]
      cases r[b - (a + 1)]? <;> rfl

/-- Byte `i` of a stored value. -/
theorem cellsGet_cellsOf (a v : Nat) {n i : Nat} (h : i < n) :
    cellsGet (cellsOf a n v) (a + i) = some ((leBytes n v)[i]'(by rwa [length_leBytes])) := by
  rw [cellsOf, cellsGet_cellsAt, if_pos (Nat.le_add_right a i), Nat.add_sub_cancel_left, List.getElem?_eq_getElem]

theorem head_cellsOf (a v : Nat) {n : Nat} (h : 0 < n) : ∃ b, (cellsOf a n v).head? = some (a, b) := by
  obtain ⟨m, rfl⟩ := Nat.exists_eq_succ_of_ne_zero h.ne'
  exact ⟨_, rfl⟩

/-! ## The current context's own steps -/

/-- A step of the current context that leaves it current. -/
theorem State.as_self {s : State} {f : State → State} (h : (f s).cur = s.cur) : s.as s.cur f = f s := by
  rw [State.as, State.select_self, ← h, State.select_self]

theorem State.settleHere_none {s : State} (h : s.ctx.wait = .none) : s.settleHere = s := by rw [State.settleHere, h]

/-- The oldest access is gone. -/
theorem Ctx.unpend_first {c : Ctx} {p : Pend} {rest : List Pend} (hp : c.pend = p :: rest) (hrest : ∀ q ∈ rest, q.id ≠ p.id) :
    c.unpend p.id = { c with pend := rest } := by
  have hkeep : rest.filter (·.id != p.id) = rest := List.filter_eq_self.mpr fun q hq => by simp [hrest q hq]
  rw [Ctx.unpend, hp, List.filter_cons_of_neg (by simp), hkeep]

@[simp] theorem State.modCore_ctx (s : State) (k : Nat) (f : Core → Core) : (s.modCore k f).ctx = s.ctx := State.setCore_ctx ..
@[simp] theorem State.modCore_cur (s : State) (k : Nat) (f : Core → Core) : (s.modCore k f).cur = s.cur := State.setCore_cur ..

@[simp] theorem State.performByte_ctx (k : Nat) (p : Bool) (s : State) (a : Nat) (b : Byte) : (s.performByte k p a b).ctx = s.ctx := by
  unfold State.performByte
  cases cachedKey a <;> cases p <;> simp [State.setMem]

@[simp] theorem State.performStore_ctx (k : Nat) (p : Bool) : ∀ (l : List Host.Cell) (s : State), (State.performStore k p s l).ctx = s.ctx
  | [], _ => rfl
  | (a, b) :: r, s => by rw [State.performStore, State.performStore_ctx k p r, State.performByte_ctx]

@[simp] theorem State.performByte_cur (k : Nat) (p : Bool) (s : State) (a : Nat) (b : Byte) : (s.performByte k p a b).cur = s.cur := by
  unfold State.performByte
  cases cachedKey a <;> cases p <;> simp [State.setMem]

@[simp] theorem State.performStore_cur (k : Nat) (p : Bool) : ∀ (l : List Host.Cell) (s : State), (State.performStore k p s l).cur = s.cur
  | [], _ => rfl
  | (a, b) :: r, s => by rw [State.performStore, State.performStore_cur k p r, State.performByte_cur]

/-! ## A read on the CORE path (10 R263, 11 R287) -/

section
variable {s : State} {k a n : Nat}

theorem coreRead_uncached (hctl : ctlOf a = none) (hc : cachedKey a = false) (acq : Bool) :
    s.coreRead k acq a n = (leNat (Mem.bytes s.mem a n), s.note (byteKeys a n)) := by
  simp [State.coreRead, hctl, hc]

theorem coreRead_hit {w : Word} (hctl : ctlOf a = none) (hc : cachedKey a = true) (hw : find (s.getCore k).l1 (a / 8) = some w) :
    s.coreRead k false a n = (w.toNat / 2 ^ (8 * (a % 8)) % 2 ^ (8 * n), s) := by
  simp [State.coreRead, hctl, hc, hw]

theorem coreRead_miss (hctl : ctlOf a = none) (hc : cachedKey a = true) (hw : find (s.getCore k).l1 (a / 8) = none) (acq : Bool) :
    s.coreRead k acq a n = (leNat (Mem.bytes s.mem a n), (s.l1Fill k (a / 8)).pmc k 5 (some s.c)) := by
  simp [State.coreRead, hctl, hc, hw]

/-- A fill puts the word in the L1, where another line may make room for it. -/
theorem State.l1Fill_eq (s : State) (k w : Nat) : ∃ (free : Nat) (room : Core → List (Nat × Word)), s.l1Fill k w =
    State.modCore { s with free := free } k fun c => { c with l1 := Machine.put (room c) w (Mem.word s.mem (w * 8)) } := by
  rw [State.l1Fill]
  dsimp only
  split
  · exact ⟨s.free, fun c => c.l1, rfl⟩
  · exact ⟨_, fun c => c.l1.filter _, rfl⟩

/-- A miss changes no context and no memory, and leaves the word in the L1. -/
theorem State.miss_spec (s : State) (w e : Nat) (c : Option Nat) :
    let t := (s.l1Fill s.k w).pmc s.k e c
    t.ctx = s.ctx ∧ t.mem = s.mem ∧ t.cur = s.cur ∧ find t.core.l1 w = some (Mem.word s.mem (w * 8)) := by
  obtain ⟨free, room, h⟩ := s.l1Fill_eq s.k w
  intro t
  have hcur : t.cur = s.cur := by simp [t, h, State.pmc]
  have hk : t.k = s.k := congrArg (· / 8) hcur
  refine ⟨by simp [t, h, State.pmc], by simp [t, h, State.pmc], hcur, ?_⟩
  rw [← State.getCore_k, hk]
  simp [t, h, State.pmc, find_put]

end

/-! ## Loads return -/

/-- Without an earlier store nothing is forwarded. -/
theorem laneForward_nil (p : Sys2Proof.Path) {bit n key home : Nat} (hn : 0 < n) : laneForward p [] ⟨bit, n, .mem key home⟩ = none := by
  have hall : ((List.range n).map fun i => storedByte p (key + i) []).all (·.isSome) = false := by
    rw [List.all_eq_false]
    exact ⟨none, List.mem_map.mpr ⟨0, List.mem_range.mpr hn, rfl⟩, by decide⟩
  simp [laneForward, hall]

section
variable {s : State} {id : Nat} {path : Sys2Proof.Path} {acq sn : Bool} {dst : Dst} {lanes : List LoadLane}
  {sites : List (Sys2Proof.Path × Nat)} {rest : List Pend}

/-- The oldest access of a context, a load that may read, reads its lanes. -/
theorem State.loadDone_first (hp : s.ctx.pend = ⟨id, .load path acq dst lanes, sites, sn⟩ :: rest)
    (hfwd : ∃ l ∈ lanes, laneForward path [] l = none) (hread : s.readsAfter id (lanes.flatMap (·.reads)) = false)
    (hpow : s.powered (lanes.flatMap (·.reads)) = true) : s.loadDone 0 =
      (State.readLanes s.k path acq s lanes).2.loadFin id acq dst lanes (State.readLanes s.k path acq s lanes).1 := by
  obtain ⟨l, hl, hnone⟩ := hfwd
  have hsome : (lanes.map (laneForward path [])).all (·.isSome) = false := by
    rw [List.all_eq_false]
    exact ⟨none, List.mem_map.mpr ⟨l, hl, hnone⟩, by decide⟩
  simp [State.loadDone, hp, hsome, State.mayRead, State.mayReach, hread, hpow]

theorem State.loadFin_x (hw : s.ctx.wait = .none) (r : Reg) (n : Nat) (u : Bool) (vals : List Nat) :
    s.loadFin id false (.x r n u) lanes vals = State.setX { s with ctx := s.ctx.unpend id } r (extended n u (laneSum lanes vals)) := by
  have hwait : (State.setX { s with ctx := s.ctx.unpend id } r (extended n u (laneSum lanes vals))).ctx.wait = .none :=
    (State.setX_ctx_wait ..).trans hw
  exact State.settleHere_none hwait

end

section
variable {s : State} {id : Nat} {sn : Bool} {r : Reg} {n key home : Nat} {u : Bool} {sites : List (Sys2Proof.Path × Nat)} {rest : List Pend}
  (hp : s.ctx.pend = ⟨id, .load .core false (.x r n u) [⟨0, n, .mem key home⟩], sites, sn⟩ :: rest) (hrest : ∀ p ∈ rest, id < p.id)
  (hread : s.readsAfter id ((List.range n).map (key + ·)) = false) (hn : 0 < n)
  (hpow : s.powered ((List.range n).map (key + ·)) = true) (hwait : s.ctx.wait = .none)
include hp hrest hread hn hpow hwait

/-- A scalar load returns what its read gives, and is gone. -/
theorem loadReturn_gives {x : Nat} {t : State} (hr : s.coreRead s.k false key n = (x, t)) (hctx : t.ctx = s.ctx) (hcur : t.cur = s.cur) :
    Gives (.loadReturn s.cur 0) s (State.setX { t with ctx := { s.ctx with pend := rest } } r (extended n u x)) := by
  have hkeys : [(⟨0, n, .mem key home⟩ : LoadLane)].flatMap (·.reads) = (List.range n).map (key + ·) := by simp [LoadLane.reads]
  have hlanes : State.readLanes s.k .core false s [⟨0, n, .mem key home⟩] = ([x], t) := by
    simp [State.readLanes, State.readLane, hr]
  have hgone : t.ctx.unpend id = { s.ctx with pend := rest } := by
    rw [hctx]
    exact Ctx.unpend_first hp fun q hq => (hrest q hq).ne'
  have hdone : s.loadDone 0 = State.setX { t with ctx := { s.ctx with pend := rest } } r (extended n u x) := by
    rw [State.loadDone_first hp ⟨_, List.mem_singleton_self _, laneForward_nil .core hn⟩ (by rwa [hkeys]) (by rwa [hkeys]), hlanes,
      State.loadFin_x (by rwa [hctx]), hgone]
    simp [laneSum]
  change Host.Outcome.next (s.as s.cur fun s => s.loadDone 0) = _
  rw [State.as_self (by rw [hdone, State.setX_cur, hcur]), hdone]

/-- A word that the L1 does not hold comes from memory; one of HBM enters the L1. -/
theorem loadReturn_memory (hctl : ctlOf key = none) (hfind : find s.core.l1 (key / 8) = none) :
    ∃ t, Gives (.loadReturn s.cur 0) s t ∧ XHolds s t r (extended n u (leNat (Mem.bytes s.mem key n))) ∧ t.ctx.pend = rest ∧
      SameMemory s t ∧ (cachedKey key = true → find t.core.l1 (key / 8) = some (Mem.word s.mem (key / 8 * 8))) := by
  have hx (t : State) : XHolds s (State.setX { t with ctx := { s.ctx with pend := rest } } r
      (extended n u (leNat (Mem.bytes s.mem key n)))) r (extended n u (leNat (Mem.bytes s.mem key n))) := fun q => State.setX_x ..
  rw [← State.getCore_k] at hfind
  cases hc : cachedKey key with
  | false =>
    refine ⟨_, loadReturn_gives hp hrest hread hn hpow hwait (coreRead_uncached hctl hc false) (State.noteAs_ctx ..)
      (SameSpaces.note ..).cur, hx _, by simp, fun a => by simp, fun h => by cases h⟩
  | true =>
    obtain ⟨hctx, hmem, hcur, hin⟩ := s.miss_spec (key / 8) 5 (some s.c)
    refine ⟨_, loadReturn_gives hp hrest hread hn hpow hwait (coreRead_miss hctl hc hfind false) hctx hcur, hx _, by simp,
      fun a => by simp [hmem], fun _ => ?_⟩
    rw [State.setX_core, ← hin]

end

theorem loadReturns : Claim.LoadReturns := by
  intro s r n id key home u sn sites rest hp hrest hread hn _ hctl _ hpow hwait ext here
  have hpos : 0 < n := by
    simp only [List.mem_cons, List.not_mem_nil, or_false] at hn
    omega
  refine ⟨fun hc => ?_, fun w hc hw => ?_, fun hc hw => ?_⟩
  · exact loadReturn_gives hp hrest hread hpos hpow hwait (coreRead_uncached hctl hc false) (State.noteAs_ctx ..) (SameSpaces.note ..).cur
  · exact loadReturn_gives hp hrest hread hpos hpow hwait (coreRead_hit hctl hc (by rwa [State.getCore_k])) rfl rfl
  · obtain ⟨t, hgives, hx, hpend, hmem, hin⟩ := loadReturn_memory hp hrest hread hpos hpow hwait hctl hw
    exact ⟨t, hgives, hx, hpend, hmem, hin hc⟩

/-! ## Own stores (11 R286, R293) -/

/-- A store of the bytes a load reads gives them. -/
theorem laneForward_store {id n v key home bit : Nat} {sn : Bool} {sites : List (Sys2Proof.Path × Nat)} (hctl : ctlOf key = none) :
    laneForward .core [⟨id, .store .core [cellsOf key n v], sites, sn⟩] ⟨bit, n, .mem key home⟩ = some (v % 2 ^ (8 * n)) := by
  have hbytes : (List.range n).map (fun i => storedByte .core (key + i) [⟨id, .store .core [cellsOf key n v], sites, sn⟩]) =
      (leBytes n v).map some := by
    refine List.ext_getElem (by simp) fun i hi _ => ?_
    have hin : i < n := by simpa using hi
    simp [storedByte, cellsGet_cellsOf key v hin]
  simp [laneForward, hbytes, hctl, Function.comp_def, leNat_leBytes]

/-- A store is seen by a load of its bytes. -/
theorem markSeen_store {id n v key home bit : Nat} {sn : Bool} {sites : List (Sys2Proof.Path × Nat)} (hn : 0 < n) (l : List Pend) :
    markSeen .core 1 [⟨bit, n, .mem key home⟩] (⟨id, .store .core [cellsOf key n v], sites, sn⟩ :: l) =
      ⟨id, .store .core [cellsOf key n v], sites, true⟩ :: l := by
  obtain ⟨b, hb⟩ := head_cellsOf key v hn
  have hread : ([cellsOf key n v].flatten.any fun e => ([⟨bit, n, .mem key home⟩] : List LoadLane).flatMap (·.reads) |>.contains e.1) = true := by
    rw [List.any_eq_true]
    exact ⟨(key, b), by simpa using List.mem_of_head? hb, by simpa [LoadLane.reads] using hn⟩
  simp only [markSeen, List.take_succ_cons, List.take_zero, List.map_cons, List.map_nil, hread]
  rfl

theorem ownStores : Claim.OwnStores := by
  intro s r n v i j key home sn tn hs ht rest hp hij hrest hn _ hctl hwait
  have hkeep : rest.filter (·.id != j) = rest := List.filter_eq_self.mpr fun q hq => by simp [hrest q hq]
  have hdone : s.loadDone 1 = State.setX { s with ctx := { s.ctx with
      pend := ⟨i, .store .core [cellsOf key n v], hs, true⟩ :: rest } } r (ofN (v % 2 ^ (8 * n))) := by
    simp only [State.loadDone, hp, List.getElem?_cons_succ, List.getElem?_cons_zero, List.take_succ_cons, List.take_zero, List.map_cons,
      List.map_nil, laneForward_store hctl, markSeen_store hn]
    refine (if_pos rfl).trans ((State.loadFin_x (by exact hwait) ..).trans ?_)
    simp [Ctx.unpend, hij, hkeep, laneSum, extended, ofN]
  change Host.Outcome.next (s.as s.cur fun s => s.loadDone 1) = _
  rw [State.as_self (by rw [hdone, State.setX_cur]), hdone]

/-- Settles O40: accesses go out as their checks find them, and loads come back from the context's own stores, the L1 or memory. -/
theorem scalarAccesses : Obligations.ScalarAccesses := ⟨loadIssue, storeIssue, loadReturns, ownStores⟩

end Sys2Proof.Machine
end

section
/-! Scalar accesses through a translated address: their faults, and what a load returns and a store leaves (04 R99, R100, 10 R268, R272,
11 R284). -/

namespace Sys2Proof.Machine

open Sys2Proof

theorem memBytes_pos (w : MemW) : 0 < memBytes w := by cases w <;> decide

/-- No physical address leads to a key of device control space. -/
theorem ctlOf_of_phys {s : State} {pa key : Nat} (h : s.phys pa = .key key) : ctlOf key = none := by
  have hkey : key < 2 ^ 51 ∨ 2 ^ 53 ≤ key := by
    have hmod : pa % 2 ^ 43 < 2 ^ 43 := Nat.mod_lt _ (by decide)
    unfold State.phys at h
    grind
  exact if_neg (by omega)

/-! ## The state after an access is issued -/

/-- The state a completed instruction leaves whose effect is an access of the current context. -/
def State.afterIssue (s : State) (op : PendOp) (sites : List (Sys2Proof.Path × Nat)) : State :=
  { s.issuingAt op sites with ctx :=
    { (s.issuingAt op sites).ctx with pc := nextPc s 8, instret := s.ctx.instret + 1, wait := .none } }

section
variable (s : State) (op : PendOp) (sites : List (Sys2Proof.Path × Nat))

theorem SameSpaces.afterIssue : SameSpaces s (s.afterIssue op sites) := ⟨rfl, rfl, rfl, rfl, rfl, rfl, rfl, rfl, rfl⟩

theorem State.afterIssue_pend (h : s.ctx.pend = []) : (s.afterIssue op sites).ctx.pend = [⟨s.nextId, op, sites, false⟩] := by
  change s.ctx.pend ++ _ = _
  rw [h, List.nil_append]

/-- An access waits for none of its own reads. -/
theorem State.afterIssue_readsAfter : (s.afterIssue op sites).readsAfter s.nextId = s.readsAfter s.nextId := by
  have hcmd := (SameSpaces.afterIssue s op sites).cmdBefore
  have hpend : (s.afterIssue op sites).ctx.pend = s.ctx.pend ++ [⟨s.nextId, op, sites, false⟩] := rfl
  have hcore : (s.afterIssue op sites).core = s.core := rfl
  have hc : (s.afterIssue op sites).c = s.c := rfl
  have hcur : (s.afterIssue op sites).cur = s.cur := rfl
  funext keys
  simp [State.readsAfter, State.readBefore, State.seenBefore, hcmd, hpend, hcore, hc, hcur]

end

/-! ## Stores are performed -/

/-- The oldest access of a context, a store of one batch of memory bytes that nothing comes before, is performed and gone. -/
theorem State.storeDone_first {s : State} {id : Nat} {path : Sys2Proof.Path} {cells : List Host.Cell} {sn : Bool}
    {sites : List (Sys2Proof.Path × Nat)} {rest : List Pend} (hp : s.ctx.pend = ⟨id, .store path [cells], sites, sn⟩ :: rest)
    (hrest : ∀ q ∈ rest, q.id ≠ id) (hctl : (cells.head?.bind fun e => ctlOf e.1) = none)
    (hread : s.readBefore id (cells.map (·.1)) = false) (hpow : s.powered (cells.map (·.1)) = true) :
    s.storeDone 0 = { State.performStore s.k (path == .core) s cells with ctx := { s.ctx with pend := rest } } := by
  have hgone : s.ctx.unpend id = { s.ctx with pend := rest } := Ctx.unpend_first hp hrest
  simp [State.storeDone, hp, State.mayWrite, State.mayReach, hread, hpow, State.storeBatch, State.performCells, hctl, hgone]

/-! ## Accesses through a translated address -/

theorem resolve_translate {s : State} {va : Word} {sp : Space} (halias : aliasOf s.k va = none) (hsp : s.space s.k = some sp) :
    s.resolve va = s.translate sp va := by
  simp only [State.resolve, State.resolveIn, halias, hsp]

section
variable {s : State} {d a : Reg} {imm : BitVec 12} {w : MemW}

/-- A load of bytes that lie at one key is issued and returns them. -/
theorem load_key_returns (u : Bool) {key home : Nat}
    (hcheck : s.loadCheck (s.x a + ofI imm.toInt) (memBytes w) = .ok (.mem key home)) (hctl : ctlOf key = none) (hpend : s.ctx.pend = [])
    (hread : s.readsAfter s.nextId ((List.range (memBytes w)).map (key + ·)) = false) (hpow1 : s.powered [key] = true)
    (hpow : s.powered ((List.range (memBytes w)).map (key + ·)) = true) (hmiss : find s.core.l1 (key / 8) = none) :
    ∃ t v, Gives (.ld d a imm w u) s t ∧ Gives (.loadReturn t.cur 0) t v ∧
      XHolds s v d (extended (memBytes w) u (leNat (Mem.bytes s.mem key (memBytes w)))) ∧ v.ctx.pend = [] ∧ SameMemory s v := by
  let op : PendOp := .load .core false (.x d (memBytes w) u) [⟨0, memBytes w, .mem key home⟩]
  have hissue : Gives (.ld d a imm w u) s (s.afterIssue op [(.core, home)]) := done_of_loading (exec_ld ..) hcheck rfl hpow1
  have hsame := SameSpaces.afterIssue s op [(.core, home)]
  obtain ⟨v, hret, hx, hgone, hmem, _⟩ := loadReturn_memory (s.afterIssue_pend op [(.core, home)] hpend) (by simp)
    (by rw [s.afterIssue_readsAfter, hread]) (memBytes_pos w) (by rw [hsame.powered, hpow]) rfl hctl hmiss
  exact ⟨_, v, hissue, hret, hx, hgone, hmem⟩

/-- A store of bytes that lie at one key is issued and, performed, leaves them there. -/
theorem store_key_performed {key : Nat}
    (hcheck : s.storeCheck (s.x a + ofI imm.toInt) (memBytes w) .w = .ok key) (hctl : ctlOf key = none) (hpend : s.ctx.pend = [])
    (hread : s.readsAfter s.nextId ((List.range (memBytes w)).map (key + ·)) = false) (hpow1 : s.powered [key] = true)
    (hpow : s.powered ((List.range (memBytes w)).map (key + ·)) = true) :
    ∃ t v, Gives (.st d a imm w) s t ∧ Gives (.storeAck (some t.cur) 0) t v ∧ SameMemory s t ∧
      Stored s v (cellsOf key (memBytes w) (s.x d).toNat) ∧ v.ctx.pend = [] := by
  let cells := cellsOf key (memBytes w) (s.x d).toNat
  let t := s.afterIssue (.store .core [cells]) [(.core, s.homeAt (s.x a + ofI imm.toInt) key)]
  have hsame : SameSpaces s t := SameSpaces.afterIssue ..
  have hissue : Gives (.st d a imm w) s t := done_st hcheck hpow1
  have hkeys : cells.map (·.1) = (List.range (memBytes w)).map (key + ·) := cellsOf_keys ..
  have hplain : (cells.head?.bind fun e => ctlOf e.1) = none := by
    obtain ⟨b, hb⟩ := head_cellsOf key (s.x d).toNat (memBytes_pos w)
    rw [hb]
    exact hctl
  have hfree : t.readBefore s.nextId (cells.map (·.1)) = false := by
    have hafter : t.readsAfter s.nextId (cells.map (·.1)) = false := by rw [s.afterIssue_readsAfter, hkeys, hread]
    exact (Bool.or_eq_false_iff.mp hafter).1
  have hdone := State.storeDone_first (s.afterIssue_pend _ _ hpend) (by simp) hplain hfree (by rw [hsame.powered, hkeys, hpow])
  have hack : Gives (.storeAck (some t.cur) 0) t
      { State.performStore t.k (Sys2Proof.Path.core == .core) t cells with ctx := { t.ctx with pend := [] } } := by
    change Host.Outcome.next (t.as t.cur fun t => t.storeDone 0) = _
    rw [State.as_self (by rw [hdone, State.performStore_cur]), hdone]
  exact ⟨t, _, hissue, hack, fun _ => rfl, State.performStore_stored t.k _ cells t, rfl⟩

end

theorem Perm.allows_read (p : Perm) (prv : BitVec 2) : p.allows .r prv = ((p.u || decide (prv ≠ 0)) && p.rd) := by
  rw [Perm.allows, bne, Bool.beq_eq_decide_eq, ← decide_not]

theorem Perm.allows_write (p : Perm) (prv : BitVec 2) : p.allows .w prv = ((p.u || decide (prv ≠ 0)) && p.w) := by
  rw [Perm.allows, bne, Bool.beq_eq_decide_eq, ← decide_not]

theorem translatedAccess : Claim.TranslatedAccess := by
  intro s d a imm w u sp va n hn hcanon halias hsp
  have hc : canonical va = true := (canonical_iff va).mpr hcanon
  have hres : s.resolve va = s.translate sp va := resolve_translate halias hsp
  have hld {sub : BitVec 8} (h : s.site .r va = .error sub) : Traps (.ld d a imm w u) s ⟨4, sub, va⟩ :=
    (traps_of_loadCheck u (indexWords_error h) (loadCheck_error hn h)).1
  have hst {sub : BitVec 8} (h : s.site .w va = .error sub) : Traps (.st d a imm w) s ⟨5, sub, va⟩ :=
    (traps_of_storeCheck (storeCheck_error hn h)).1
  refine ⟨fun sub hnone => ?_, fun pa p key hpage hphys => ?_⟩
  · rw [← hres] at hnone
    exact ⟨hld (site_of_none (.inl rfl) hc hnone), hst (site_of_none (.inr rfl) hc hnone)⟩
  · intro usable
    rw [← hres] at hpage
    have hr : s.site .r va = if usable && p.rd then .ok (.key key p.fdi false) else .error 2 := by
      rw [site_of_page (.inl rfl) hc hpage hphys, Perm.allows_read]
    have hw : s.site .w va = if usable && p.w then .ok (.key key p.fdi false) else .error 2 := by
      rw [site_of_page (.inr rfl) hc hpage hphys, Perm.allows_write]
    have hctl : ctlOf key = none := ctlOf_of_phys hphys
    refine ⟨fun hno => hld ?_, fun hno => hst ?_, fun hpend hread _ hpow1 hpow => ⟨fun hu hrd hmiss => ?_, fun hu hwr => ?_⟩⟩
    · rw [hr, if_neg (by rcases hno with h | h <;> simp [h])]
    · rw [hw, if_neg (by rcases hno with h | h <;> simp [h])]
    · have hsite : s.site .r va = .ok (.key key p.fdi false) := by rw [hr, hu, hrd]; rfl
      exact load_key_returns u (loadCheck_key hn hsite) hctl hpend hread hpow1 hpow hmiss
    · have hsite : s.site .w va = .ok (.key key p.fdi false) := by rw [hw, hu, hwr]; rfl
      exact store_key_performed (storeCheck_key hn hsite) hctl hpend hread hpow1 hpow

/-- Settles O10: the checks of an access, the page walk, the order of translation, and what an access through a page does. -/
theorem accessChecks : Obligations.AccessChecks := ⟨scalarChecks, pageWalks, translationOrder, translatedAccess⟩

end Sys2Proof.Machine
end

section
/-! Elements of streams come and go (06 R141 to R147, 08 R193, 11 R286): what a fetch, a pop and a push of one element leave, and the
rows of R142 for an instruction with one operand. -/

namespace Sys2Proof.Machine

open Sys2Proof

/-! ## What reading for a stream leaves alone -/

theorem SameSpaces.noteAs (strm : Bool) (s : State) (keys : List Nat) : SameSpaces s (s.noteAs strm keys) := by
  unfold State.noteAs
  split
  · exact .refl s
  · split <;> exact ⟨rfl, rfl, rfl, rfl, rfl, rfl, rfl, rfl, rfl⟩

theorem SameSpaces.touchStream (k : Nat) (s : State) (keys : List Nat) : SameSpaces s (State.touchStream k s keys) :=
  (SameSpaces.noteAs true s keys).trans (.dropCopies k keys _)

@[simp] theorem State.touchStream_cur (k : Nat) (s : State) (keys : List Nat) : (State.touchStream k s keys).cur = s.cur :=
  (SameSpaces.touchStream k s keys).cur

@[simp] theorem State.touchStream_mem (k : Nat) (s : State) (keys : List Nat) : (State.touchStream k s keys).mem = s.mem :=
  (SameSpaces.touchStream k s keys).mem

/-! ## A fetch (R143, R145) -/

/-- The next element of a stream has arrived, or its fault is held. -/
def Stream.fetched (t : Stream) (n : Nat) (r : Except ElemFault (VWord × StreamGot)) : Stream :=
  match r with
  | .error e => { t with flt := some ⟨n, e.addr, e.sub⟩, sflt := e.addr, part := .none }
  | .ok (v, _) => { t with got := t.got ++ [v], part := .none }

section
variable {s : State} {k : BitVec 2} {r : Except ElemFault (VWord × StreamGot)}

/-- With nothing before it, the next element of an active read stream is read. -/
theorem State.fetchElem_free (hact : (s.stream k).active = true) (hdir : (s.stream k).act.dir = false) (hflt : (s.stream k).flt = none)
    (hn : (s.stream k).spos.toNat + (s.stream k).got.length < (s.stream k).act.total)
    (hr : s.elemRead (s.stream k).act (s.stream k).part ((s.stream k).spos.toNat + (s.stream k).got.length) = r)
    (hheld : s.streamHeld (gotOf r) = false) (hpow : s.powered (gotOf r).keys = true) : s.fetchElem k = State.touchStream s.k
      (s.setStream k ((s.stream k).fetched ((s.stream k).spos.toNat + (s.stream k).got.length) r)) (gotOf r).keys := by
  subst hr
  have hfault (n : Nat) : (s.stream k).faultAt n = false := by rw [Stream.faultAt, hflt]
  have hnext : (!(s.stream k).active || (s.stream k).act.dir || (s.stream k).faultAt ((s.stream k).spos.toNat + (s.stream k).got.length) ||
      decide ((s.stream k).act.total ≤ (s.stream k).spos.toNat + (s.stream k).got.length)) = false := by
    simp [hact, hdir, hfault, hn]
  simp only [State.fetchElem, hnext, hheld, hpow, Bool.false_eq_true, if_false, Bool.not_true]
  cases s.elemRead (s.stream k).act (s.stream k).part ((s.stream k).spos.toNat + (s.stream k).got.length) <;> rfl

/-- STREAM_FETCH of the current context is that fetch. -/
theorem streamFetch_gives {u : State} (hlen : (s.stream k).got.length < 16) (h : s.fetchElem k = u) (hcur : u.cur = s.cur) :
    Gives (.streamFetch s.cur k.toNat) s u := by
  subst h
  change execStreamFetch s.cur k.toNat s = _
  simp only [execStreamFetch, BitVec.ofNat_toNat, BitVec.setWidth_eq]
  rw [State.as_self (by rw [if_pos hlen, hcur]), if_pos hlen]

end

/-! ## Pushes performed (R144) -/

/-- Bytes performed read so from every state with the memory they were written to. -/
theorem Stored.of_mem {s t u : State} {cells : List Host.Cell} (h : Stored t u cells) (hmem : t.mem = s.mem) : Stored s u cells :=
  fun hwf a => hmem ▸ h (hmem ▸ hwf) a

/-- The oldest push of a stream, which nothing holds back, is performed. -/
theorem streamWrite_gives {s : State} {k : BitVec 2} {e : Push} {r : List Push} (hp : (s.stream k).pushes = e :: r)
    (hfree : s.pushFree e = true) : Gives (.streamWrite (some s.cur) k.toNat) s (s.performPush e) := by
  change execStreamWrite (some s.cur) k.toNat s = _
  have hw : s.writePush k = s.performPush e := by rw [State.writePush, hp]
  simp only [execStreamWrite, BitVec.ofNat_toNat, BitVec.setWidth_eq]
  rw [State.as_self (by rw [hw, State.performPush, if_pos hfree, State.performStore_cur]), hw]

@[simp] theorem State.modCore_orphans (s : State) (k : Nat) (f : Core → Core) : (s.modCore k f).orphans = s.orphans := by
  unfold State.modCore State.setCore
  split <;> rfl

@[simp] theorem State.performStore_orphans (k : Nat) (p : Bool) : ∀ (l : List Host.Cell) (s : State),
    (State.performStore k p s l).orphans = s.orphans
  | [], _ => rfl
  | (a, b) :: r, s => by
    rw [State.performStore, State.performStore_orphans k p r, State.performByte]
    cases cachedKey a <;> cases p <;> simp [State.setMem]

/-- A push that an ended context left is performed when no earlier command of it reads its words. -/
theorem streamWrite_orphan {s : State} {c id : Nat} {cells : List Host.Cell} {sn : Bool} {hs : List (Sys2Proof.Path × Nat)}
    {r : List (Nat × Pend)} (ho : s.orphans = (c, ⟨id, .store .strm [cells], hs, sn⟩) :: r)
    (hpow : s.powered (cells.map (·.1)) = true) (hcmd : s.cmdBefore c id (cells.map (·.1)) = false) :
    Gives (.streamWrite none 0) s (State.performStore (c / 8) false { s with orphans := r } cells) := by
  have hfree : s.orphanFree 0 = true := by simp [State.orphanFree, ho, PendOp.writes, hcmd]
  change execStreamWrite none 0 s = _
  simp [execStreamWrite, ho, hfree, hpow, removeAt]

/-- Settles O22: a fetch, a push and a left push that nothing comes before are each their one step. -/
theorem streamMoves : Obligations.StreamMoves := by
  intro s k t n
  refine ⟨fun hact hdir hflt hn hlen => ⟨fun v g hread hheld hpow => ?_, fun e hread hheld hpow => ?_⟩, fun e r hp hfree => ?_,
    fun c id cells sn hs r ho hpow hcmd => ?_⟩
  · exact streamFetch_gives hlen (State.fetchElem_free hact hdir hflt hn hread hheld hpow) (by simp)
  · exact streamFetch_gives hlen (State.fetchElem_free hact hdir hflt hn hread hheld hpow) (by simp)
  · refine ⟨_, streamWrite_gives hp hfree, ?_⟩
    rw [State.performPush, if_pos hfree]
    exact ⟨(State.performStore_stored _ _ e.cells _).of_mem rfl, State.performStore_ctx ..⟩
  · exact ⟨_, streamWrite_orphan ho hpow hcmd, (State.performStore_stored _ _ cells _).of_mem rfl, State.performStore_orphans ..⟩

end Sys2Proof.Machine
end

section
/-! An instruction with one operand that is bound to a stream: the rows of R142, the pop of an element and the push to its place (06
R141, R142, R145 to R147). -/

namespace Sys2Proof.Machine

open Sys2Proof

/-! ## One use of a bound register -/

/-- A fold whose steps change nothing but at one member, which comes once, is that one step. -/
theorem foldl_eq_step {α β : Type} {f : α → β → α} {k : β} {a b : α} {l : List β} (hl : l.Nodup) (hk : k ∈ l) (hstep : f a k = b)
    (ha : ∀ j ≠ k, f a j = a) (hb : ∀ j ≠ k, f b j = b) : l.foldl f a = b := by
  obtain ⟨p, q, rfl⟩ := List.append_of_mem hk
  obtain ⟨-, hkq, hpq⟩ := List.nodup_append.mp hl
  obtain ⟨hkq, -⟩ := List.nodup_cons.mp hkq
  have hfix {c : α} {m : List β} (hm : ∀ j ∈ m, f c j = c) : m.foldl f c = c :=
    List.foldlRecOn (motive := (· = c)) _ _ rfl fun t ht j hj => by rw [ht, hm j hj]
  have hp : p.foldl f a = a := hfix fun j hj => ha j (hpq j hj k (by simp))
  have hq : q.foldl f b = b := hfix fun j hj => hb j fun h => hkq (h ▸ hj)
  rw [List.foldl_append, hp, List.foldl_cons, hstep, hq]

/-- A stream that keeps its activity and its register keeps every binding. -/
theorem State.setStream_bound {s : State} {k : BitVec 2} {t : Stream} (hact : t.active = (s.stream k).active)
    (hbv : t.bv = (s.stream k).bv) (hreg : t.breg = (s.stream k).breg) : (s.setStream k t).ctx.bound = s.ctx.bound := by
  funext isV r
  rw [Ctx.bound_eq, Ctx.bound_eq]
  congr 1
  funext j
  by_cases hj : j = k
  · subst hj; simp [State.setStream_stream, hact, hbv, hreg]
  · simp [State.setStream_stream, hj]

/-- The state once an element has been fetched. -/
def State.withElement (s : State) (k : BitVec 2) (v : VWord) (g : StreamGot) : State :=
  State.touchStream s.k (s.setStream k { s.stream k with got := (s.stream k).got ++ [v], part := .none }) g.keys

section
variable (s : State) (k : BitVec 2) (v : VWord) (g : StreamGot)

theorem State.withElement_ctx : (s.withElement k v g).ctx =
    (s.setStream k { s.stream k with got := (s.stream k).got ++ [v], part := .none }).ctx := State.touchStream_ctx ..

theorem State.withElement_stream : (s.withElement k v g).stream k = { s.stream k with got := (s.stream k).got ++ [v], part := .none } := by
  rw [State.stream, State.withElement_ctx]
  exact (State.setStream_stream ..).trans (if_pos rfl)

theorem State.withElement_bound : (s.withElement k v g).ctx.bound = s.ctx.bound := by
  rw [State.withElement_ctx]
  exact State.setStream_bound rfl rfl rfl

theorem SameControl.withElement : SameControl s (s.withElement k v g) := by
  rw [SameControl, State.withElement_ctx]
  exact ⟨rfl, rfl, rfl⟩

theorem State.withElement_x (q : Reg) : (s.withElement k v g).x q = s.x q := by
  rw [State.x, State.withElement_ctx]
  rfl

theorem State.withElement_mem : (s.withElement k v g).mem = s.mem := State.touchStream_mem ..

end

/-- Every stream is one of the four. -/
theorem mem_streams (k : BitVec 2) : k ∈ ([0, 1, 2, 3] : List (BitVec 2)) := by revert k; decide

theorem eq_of_singleton_eq {α : Type} {a b : α} {p q : List α} (h : [a] = p ++ b :: q) : p = [] ∧ b = a ∧ q = [] := by
  cases p with
  | nil => simpa [eq_comm] using h
  | cons x p => simp at h

/-- A register named directly: row 1 decides. -/
theorem openUses_direct {i : Instr} {c : Ctx} {isV : Bool} {r : Reg} {role : Role} (hv : isV = true → r.toNat < c.valloc.toNat)
    (rimm : BitVec 6) :
    openUses i c rimm [⟨isV, direct r, role⟩] = (checkUse i c ⟨isV, r, role⟩).map fun _ => [⟨isV, r, role⟩] := by
  have hlim : ¬((isV && decide (c.valloc.toNat ≤ r.toNat)) = true) := by simpa using hv
  have hrow1 : checkDirect i c [⟨isV, direct r, role⟩] = checkUse i c ⟨isV, r, role⟩ := by
    rw [checkDirect]
    refine (if_neg (by simp [direct])).trans ((if_neg hlim).trans ?_)
    cases h : checkUse i c ⟨isV, r, role⟩ <;> simp [direct, h, checkDirect]
  rw [openUses, hrow1]
  cases h : checkUse i c ⟨isV, r, role⟩ <;> simp [resolveOps, checkUses, direct, h, Except.map]

section
variable {s : State} {u : Use} {k : BitVec 2} (hb : s.ctx.bound u.isV u.reg = some k)
include hb

theorem bound_active : (s.stream k).active = true := by
  have h := List.find?_some hb
  simp only [Bool.and_eq_true] at h
  exact h.1.1

theorem checkUse_source (hr : u.role = .src) (i : Instr) : checkUse i s.ctx u = require (!(s.stream k).act.dir) (illegal i) := by
  simp only [checkUse, hb, hr]
  rfl

theorem checkUse_destination (hr : u.role = .dst) (i : Instr) : checkUse i s.ctx u = require (s.stream k).act.dir (illegal i) := by
  simp only [checkUse, hb, hr]
  rfl

theorem popsOf_source (hr : u.role = .src) (j : BitVec 2) : popsOf s.ctx j [u] = if j = k then 1 else 0 := by
  simp [popsOf_singleton, hr, hb, eq_comm]

theorem pushesOf_destination (hr : u.role = .dst) (j : BitVec 2) : pushesOf s.ctx j [u] = if j = k then 1 else 0 := by
  simp [pushesOf_singleton, hr, hb, eq_comm]

end

/-! ## The rows of R142 -/

section
variable {s : State} {i : Instr} {rimm : BitVec 6} {ops : List Opnd} {us : List Use} {op : List Reg → List VWord → Effect}
  (ho : openUses i s.ctx rimm ops = .ok us)
include ho

/-- An instruction whose operands are supplied once its elements are fetched comes to its operation. -/
theorem State.operate_fetched {t : State} {v : List VWord} {fl : Flags} {eff : State → State} (hf : s.fetchUses us = t)
    (h : Supplied t us v) (hop : op (us.map (·.reg)) v = .ok (fl, eff)) (hfl : t.fpTraps fl = false) :
    s.operate i rimm ops op = .next (State.retire 8 (eff ((t.orFlags fl).popAll us))) := by
  simp only [State.operate, State.operateWhen, ho, hf, h.readyPushes, h.usesArrived, h.pushesReady, h.readUses, h.checkPushes,
    State.whenIndexed, List.all_nil, List.flatMap_nil, State.touch_nil, hop, hfl, State.raising]
  simp [State.commitPops_popAll, hfl]

/-- Row 3 fails: nothing has been popped. -/
theorem State.operate_popFails {t : Trap} (hf : s.fetchUses us = s) (hp : pushed s.ctx us = []) (ha : s.usesArrived us = true)
    (hr : s.readUses [] us = .error t) : s.operate i rimm ops op = .next (s.trap t) := by
  simp [State.operate, State.operateWhen, ho, hf, State.readyPushes, State.pushesReady, hp, ha, hr]

/-- Row 4 fails: of the places, index words alone have been read. -/
theorem State.operate_pushFails {t : Trap} {v : List VWord} (hf : s.fetchUses us = s) (hp : s.readyPushes us = s)
    (ha : s.usesArrived us = true) (hready : s.pushesReady us = true) (hr : s.readUses [] us = .ok v)
    (hc : s.checkPushes [] us = .error t) : s.operate i rimm ops op = .next ((s.touchPushes us).trap t) := by
  simp [State.operate, State.operateWhen, ho, hf, hp, ha, hready, hr, hc]

end

/-! ## A source that a read stream is bound to -/

section
variable {s : State} {u : Use} {k : BitVec 2} (hr : u.role = .src)
include hr

theorem pushed_source (c : Ctx) : pushed c [u] = [] := by simp [pushed, pushesOf_singleton, hr]

variable (hb : s.ctx.bound u.isV u.reg = some k)
include hb

theorem State.fetchUses_source {t : State} (ht : State.fetchUpTo k 1 s = t) (hbound : t.ctx.bound = s.ctx.bound) :
    s.fetchUses [u] = t := by
  refine foldl_eq_step (by decide) (mem_streams k) ?_ (fun j hj => ?_) fun j hj => ?_
  · rw [popsOf_source hb hr, if_pos rfl, ht]
  · rw [popsOf_source hb hr, if_neg hj, State.fetchUpTo]
  · rw [popsOf_congr hbound, popsOf_source hb hr, if_neg hj, State.fetchUpTo]

/-- Its pop moves the stream past one element. -/
theorem State.popAll_source : s.popAll [u] = s.setStream k ((s.stream k).advance 1) := by
  have hpop (j : BitVec 2) : s.popStream [u] j = s.setStream j ((s.stream j).popped (if j = k then 1 else 0)) := by
    rw [State.popStream, popsOf_source hb hr]
  rw [← State.commitPops_popAll, State.commitPops_eq]
  refine foldl_eq_step (by decide) (mem_streams k) ?_ (fun j hj => ?_) fun j hj => ?_
  · rw [hpop, if_pos rfl]; rfl
  · rw [hpop, if_neg hj]; exact State.setStream_self s j
  · have hbound : (s.setStream k ((s.stream k).advance 1)).ctx.bound = s.ctx.bound := State.setStream_popped_bound s k 1
    rw [State.popStream, popsOf_congr hbound, popsOf_source hb hr, if_neg hj]
    exact State.setStream_self _ j

/-- An element that has arrived supplies it. -/
theorem supplied_pop {v : VWord} {l : List VWord} (hgot : (s.stream k).got = v :: l)
    (hn : (s.stream k).spos.toNat < (s.stream k).act.total) : Supplied s [u] [v] := by
  refine ⟨fun j => ?_, by simp [hr], fun p q x hus _ => ?_, fun p q x j hus hx => ?_, ?_⟩
  · rw [popsOf_source hb hr]
    by_cases hj : j = k
    · subst hj
      simp only [if_pos, hgot, List.length_cons]
      exact ⟨by omega, fun _ => hn⟩
    · simp [hj]
  · obtain ⟨rfl, rfl, rfl⟩ := eq_of_singleton_eq hus
    simp [State.delivered, hb, hgot, popsOf]
  · obtain ⟨-, rfl, -⟩ := eq_of_singleton_eq hus
    rw [hr] at hx
    cases hx
  · simp [State.pushesReady, pushed_source hr]

end

/-! ## No element to pop (R142, R145) -/

/-- The next element of a stream will not be fetched: it has none, or a fault is held for it. -/
def Stream.Barren (t : Stream) : Prop :=
  t.faultAt (t.spos.toNat + t.got.length) = true ∨ t.act.total ≤ t.spos.toNat + t.got.length

section
variable {s : State} {k : BitVec 2} (h : (s.stream k).Barren)
include h

theorem State.fetchElem_barren : s.fetchElem k = s := by
  rw [State.fetchElem]
  rcases h with h | h <;> simp [h]

theorem State.arrived_barren (n : Nat) : s.arrived k n = true := by
  rcases h with h | h <;> simp [State.arrived, h]

/-- Row 3 of an instruction that pops such a stream. -/
theorem State.operate_barren {i : Instr} {rimm : BitVec 6} {ops : List Opnd} {u : Use} {op : List Reg → List VWord → Effect} {t : Trap}
    (hr : u.role = .src) (hb : s.ctx.bound u.isV u.reg = some k) (ho : openUses i s.ctx rimm ops = .ok [u])
    (hread : s.readUses [] [u] = .error t) : s.operate i rimm ops op = .next (s.trap t) := by
  have hfetch : State.fetchUpTo k 1 s = s := by
    rw [State.fetchUpTo, State.fetchUpTo, State.fetchElem_barren h, ite_self]
  have harrived : s.usesArrived [u] = true := by
    rw [State.usesArrived, List.all_eq_true]
    intro j _
    rw [popsOf_source hb hr]
    by_cases hj : j = k
    · subst hj; exact State.arrived_barren h _
    · simp [State.arrived, hj]
  exact State.operate_popFails ho (State.fetchUses_source hr hb hfetch rfl) (pushed_source hr _) harrived hread

end

/-! ## A destination that a write stream is bound to -/

section
variable {s : State} {u : Use} {k : BitVec 2} (hr : u.role = .dst)
include hr

theorem popsOf_destination (c : Ctx) (j : BitVec 2) : popsOf c j [u] = 0 := by simp [popsOf_singleton, hr]

/-- Nothing is fetched for it. -/
theorem State.fetchUses_destination : s.fetchUses [u] = s :=
  List.foldlRecOn (motive := (· = s)) _ _ rfl fun t ht j _ => by rw [popsOf_destination hr, ht, State.fetchUpTo]

theorem State.usesArrived_destination : s.usesArrived [u] = true := by simp [State.usesArrived, State.arrived, popsOf_destination hr]

theorem State.readUses_destination : s.readUses [] [u] = .ok [] := by simp [State.readUses, hr]

variable (hb : s.ctx.bound u.isV u.reg = some k)
include hb

theorem pushed_destination : pushed s.ctx [u] = if (s.stream k).spos.toNat < (s.stream k).act.total then [k] else [] := by
  have hkeep : (fun j : BitVec 2 => pushesOf s.ctx j [u] != 0 && decide ((s.stream j).spos.toNat < (s.stream j).act.total)) =
      fun j => j == k && decide ((s.stream k).spos.toNat < (s.stream k).act.total) := by
    funext j
    rw [pushesOf_destination hb hr]
    by_cases hj : j = k
    · subst hj; simp
    · simp [hj]
  have hone (k : BitVec 2) : ([0, 1, 2, 3] : List (BitVec 2)).filter (· == k) = [k] := by revert k; decide
  change List.filter (fun j => pushesOf s.ctx j [u] != 0 && decide ((s.stream j).spos.toNat < (s.stream j).act.total)) _ = _
  rw [hkeep]
  split
  · simpa [*] using hone k
  · simp [*]

/-- Nothing is drained or woken when its index word can be read, or none is left. -/
theorem State.readyPushes_destination (hready : (s.stream k).spos.toNat < (s.stream k).act.total →
      s.streamHeld (s.indexRead k 1) = false ∧ s.powered (s.indexRead k 1).keys = true) :
    s.readyPushes [u] = s ∧ s.pushesReady [u] = true := by
  rw [State.readyPushes, State.pushesReady, pushed_destination hr hb]
  split
  · next hn =>
    obtain ⟨hheld, hpow⟩ := hready hn
    simp [pushesOf_destination hb hr, hheld, hpow, State.wakeFor_powered]
  · exact ⟨rfl, rfl⟩

/-- Row 4 of an instruction whose push finds no place. -/
theorem State.operate_noPlace {i : Instr} {rimm : BitVec 6} {ops : List Opnd} {op : List Reg → List VWord → Effect} {t : Trap}
    (ho : openUses i s.ctx rimm ops = .ok [u]) (hready : (s.stream k).spos.toNat < (s.stream k).act.total →
      s.streamHeld (s.indexRead k 1) = false ∧ s.powered (s.indexRead k 1).keys = true)
    (hc : s.checkPushes [] [u] = .error t) : s.operate i rimm ops op = .next ((s.touchPushes [u]).trap t) := by
  obtain ⟨hsame, hpr⟩ := State.readyPushes_destination hr hb hready
  exact State.operate_pushFails ho (State.fetchUses_destination hr) hsame (State.usesArrived_destination hr) hpr
    (State.readUses_destination hr) hc

/-- An element left, whose index word can be read and whose place passes its checks, takes it. -/
theorem supplied_push {x : Word × List Nat × StreamGot} (hn : (s.stream k).spos.toNat < (s.stream k).act.total)
    (hplace : s.pushPlace (s.stream k).act (s.stream k).spos.toNat = .ok x) (hready : s.pushesReady [u] = true) : Supplied s [u] [] := by
  refine ⟨fun j => by simp [popsOf_destination hr], by simp [hr], fun p q y hus hy => ?_, fun p q y j hus _ hj => ?_, hready⟩
  · obtain ⟨-, rfl, -⟩ := eq_of_singleton_eq hus
    rw [hr] at hy
    cases hy
  · obtain ⟨rfl, rfl, rfl⟩ := eq_of_singleton_eq hus
    obtain rfl := Option.some.inj (hb.symm.trans hj)
    exact ⟨hn, x, hplace⟩

/-- The index word of its place is read, if it has one left. -/
theorem State.touchPushes_destination : s.touchPushes [u] =
    if (s.stream k).spos.toNat < (s.stream k).act.total then State.touchStream s.k s (s.indexRead k 1).keys else s := by
  rw [State.touchPushes, pushed_destination hr hb]
  split <;> simp [pushesOf_destination hb hr]

end

/-! ## Places (R134, R146) -/

theorem State.indexRead_one (s : State) (k : BitVec 2) :
    s.indexRead k 1 = gotOf (s.elemAddr (s.stream k).act .none (s.stream k).spos.toNat) := by
  simp [State.indexRead, StreamGot.add, StreamGot.none]

/-- A pattern without indices reads no index word. -/
theorem State.indexRead_keys_of_direct {s : State} {k : BitVec 2} (h : (s.stream k).act.ind = false) : (s.indexRead k 1).keys = [] := by
  rw [State.indexRead_one, State.elemAddr, h]
  rfl

/-- A place is found through the element's address. -/
theorem State.elemAddr_of_pushPlace {s : State} {p : Pattern} {n : Nat} {va : Word} {keys : List Nat} {g : StreamGot}
    (h : s.pushPlace p n = .ok (va, keys, g)) : s.elemAddr p .none n = .ok (va, g) := by
  rw [State.pushPlace] at h
  split at h
  · cases h
  · next ha =>
    rw [ha]
    split at h
    · cases h
    · split at h <;> cases h
      rfl

theorem State.push_ok {s : State} {k : BitVec 2} {va : Word} {keys : List Nat} {g : StreamGot}
    (h : s.pushPlace (s.stream k).act (s.stream k).spos.toNat = .ok (va, keys, g)) (v : VWord) :
    s.push k v = State.touchStream s.k { s.setStream k { (s.stream k).advance 1 with
      pushes := (s.stream k).pushes ++ [⟨s.nextId, keys.zip (leBytes (s.stream k).act.bytes v.toNat),
        keys.zipIdx.map fun e => s.homeAt (va + ofN e.2) e.1⟩] } with nextId := s.nextId + 1 } g.keys := by
  rw [State.push, h]
  rfl

/-! ## FMV.X pops, FMV.F pushes -/

/-- A stream that has moved past one element, with the elements it holds. -/
def Stream.passed (t : Stream) : Stream :=
  { t with spos := t.spos + 1, part := .none, ended := decide (t.act.total ≤ t.spos.toNat + 1) }

theorem Stream.advance_one (t : Stream) : t.advance 1 = { t.passed with got := t.got.drop 1 } := rfl

theorem Stream.advance_empty {t : Stream} (h : t.got = []) : t.advance 1 = t.passed := by
  rw [Stream.advance_one, h, List.drop_nil, ← h]
  rfl

/-- The one element that has arrived is popped. -/
theorem Stream.advance_arrived {t : Stream} {v : VWord} (h : t.got = []) :
    ({ t with got := [v], part := .none } : Stream).advance 1 = t.passed := by
  rw [← Stream.advance_empty h, Stream.advance_one, Stream.advance_one, h]
  rfl

section
variable {s : State} {d r : Reg} {f : Fmt} {k : BitVec 2} (hb : s.ctx.bound false r = some k)
include hb

theorem openUses_fmvX : openUses (.fmvX d ⟨r, false⟩ f 0) s.ctx 0 [fS ⟨r, false⟩] =
    (require (!(s.stream k).act.dir) (illegal (.fmvX d ⟨r, false⟩ f 0))).map fun _ => [⟨false, r, .src⟩] := by
  rw [← checkUse_source (u := ⟨false, r, .src⟩) hb rfl]
  exact openUses_direct (by simp) 0

theorem openUses_fmvF : openUses (.fmvF ⟨r, false⟩ d f 0) s.ctx 0 [fD ⟨r, false⟩] =
    (require (s.stream k).act.dir (illegal (.fmvF ⟨r, false⟩ d f 0))).map fun _ => [⟨false, r, .dst⟩] := by
  rw [← checkUse_destination (u := ⟨false, r, .dst⟩) hb rfl]
  exact openUses_direct (by simp) 0

/-- FMV.X takes the element that has arrived once its fetch is made. -/
theorem fmvX_pops {t : State} {v : VWord} {l : List VWord} (hdir : (s.stream k).act.dir = false) (hfetch : State.fetchUpTo k 1 s = t)
    (hctl : SameControl s t) (hbound : t.ctx.bound = s.ctx.bound) (hgot : (t.stream k).got = v :: l)
    (hn : (t.stream k).spos.toNat < (t.stream k).act.total) : Done (.fmvX d ⟨r, false⟩ f 0) s
      (State.setX (t.setStream k ((t.stream k).advance 1)) d (fmtBits f (v.extractLsb' 0 64))) 8 := by
  have ho := openUses_fmvX (d := d) (f := f) hb
  rw [hdir] at ho
  have hb' : t.ctx.bound false r = some k := by rw [hbound, hb]
  refine done_of_retire ((hctl.trans (.setStream ..)).trans (.setX ..)) ?_
  rw [exec_fpOp rfl, State.operate_fetched ho (State.fetchUses_source rfl hb hfetch hbound) (supplied_pop rfl hb' hgot hn) rfl
    (by simp [plainRes, State.fpTraps])]
  have hquiet : t.orFlags (plainRes (fmtBits f (fv [v] 0))).fl = t := t.orFlags_zero
  rw [hquiet, State.popAll_source rfl hb']
  rfl

/-- FMV.X fetches the element that it takes. -/
theorem fmvX_fetches {v : VWord} {g : StreamGot} (hdir : (s.stream k).act.dir = false) (hgot : (s.stream k).got = [])
    (hflt : (s.stream k).flt = none) (hn : (s.stream k).spos.toNat < (s.stream k).act.total)
    (hread : s.elemRead (s.stream k).act (s.stream k).part (s.stream k).spos.toNat = .ok (v, g)) (hheld : s.streamHeld g = false)
    (hpow : s.powered g.keys = true) :
    ∃ u, Done (.fmvX d ⟨r, false⟩ f 0) s u 8 ∧ XHolds s u d (fmtBits f (v.extractLsb' 0 64)) ∧
      u.stream k = (s.stream k).passed ∧
      SameMemory s u := by
  have hnext : (s.stream k).spos.toNat + (s.stream k).got.length = (s.stream k).spos.toNat := by simp [hgot]
  have hfetch : State.fetchUpTo k 1 s = s.withElement k v g := by
    have hone : State.fetchUpTo k 1 s = s.fetchElem k := if_pos (by simp [State.fetchUpTo, hgot])
    rw [hone]
    exact State.fetchElem_free (r := .ok (v, g)) (bound_active (u := ⟨false, r, .src⟩) hb) hdir hflt (by rwa [hnext]) (by rwa [hnext])
      hheld hpow
  have hstream := s.withElement_stream k v g
  rw [hgot, List.nil_append] at hstream
  refine ⟨_, fmvX_pops hb hdir hfetch (.withElement ..) (State.withElement_bound ..) (by rw [hstream]) (by rwa [hstream]), fun q => ?_, ?_,
    fun a => ?_⟩
  · rw [State.setX_x]
    exact congrArg _ (State.withElement_x s k v g q)
  · rw [hstream, Stream.advance_arrived hgot, State.stream, State.setX_ctx_streams]
    exact (State.setStream_stream ..).trans (if_pos rfl)
  · simp [State.withElement_mem]

/-- Row 3 of FMV.X. -/
theorem fmvX_barren {t : Trap} (hdir : (s.stream k).act.dir = false) (h : (s.stream k).Barren)
    (hread : s.readUses [] [⟨false, r, .src⟩] = .error t) : Traps (.fmvX d ⟨r, false⟩ f 0) s t := by
  have ho := openUses_fmvX (d := d) (f := f) hb
  rw [hdir] at ho
  exact (exec_fpOp rfl).trans (State.operate_barren h rfl hb ho hread)

/-- FMV.F pushes to the place it finds. -/
theorem fmvF_pushes {va : Word} {keys : List Nat} {g : StreamGot} (hdir : (s.stream k).act.dir = true) (hgot : (s.stream k).got = [])
    (hn : (s.stream k).spos.toNat < (s.stream k).act.total)
    (hplace : s.pushPlace (s.stream k).act (s.stream k).spos.toNat = .ok (va, keys, g)) (hheld : s.streamHeld g = false)
    (hpow : s.powered g.keys = true) : Done (.fmvF ⟨r, false⟩ d f 0) s
      (State.touchStream s.k { s.setStream k { (s.stream k).passed with
        pushes := (s.stream k).pushes ++ [⟨s.nextId, keys.zip (leBytes (s.stream k).act.bytes (fmtBits f (s.x d)).toNat),
          keys.zipIdx.map fun e => s.homeAt (va + ofN e.2) e.1⟩] } with nextId := s.nextId + 1 } g.keys) 8 := by
  have hindex : s.indexRead k 1 = g := by rw [State.indexRead_one, State.elemAddr_of_pushPlace hplace]; rfl
  have hready := (State.readyPushes_destination (u := ⟨false, r, .dst⟩) rfl hb fun _ => by rw [hindex]; exact ⟨hheld, hpow⟩).2
  have ho := openUses_fmvF (d := d) (f := f) hb
  rw [hdir] at ho
  have h := fpResults s (.fmvF ⟨r, false⟩ d f 0) _ _ _ rfl ho (supplied_push rfl hb hn hplace hready) (by simp [plainRes, State.fpTraps])
  have hpops : s.popAll [⟨false, r, .dst⟩] = s := State.popAll_of_noPops (popsOf_destination rfl _)
  have hput : FOp.put ⟨0, [fD ⟨r, false⟩], fun _ => plainRes (fmtBits f (s.x d)), .f⟩ [⟨false, r, .dst⟩] (fmtBits f (s.x d)) s =
      s.push k ((fmtBits f (s.x d)).zeroExtend 512) := by
    change s.writeF r _ = _
    rw [State.writeF, hb]
  have hcut : ((fmtBits f (s.x d)).zeroExtend 512).toNat = (fmtBits f (s.x d)).toNat := BitVec.toNat_setWidth_of_le (by decide)
  have hflags : s.orFlags (plainRes (fmtBits f (s.x d))).fl = s := s.orFlags_zero
  rw [hflags, hpops] at h
  rw [← Stream.advance_empty hgot, ← hcut, ← State.push_ok hplace, ← hput]
  exact h

/-- Row 4 of FMV.F. -/
theorem fmvF_fails {t : Trap} (hdir : (s.stream k).act.dir = true)
    (hready : (s.stream k).spos.toNat < (s.stream k).act.total →
      s.streamHeld (s.indexRead k 1) = false ∧ s.powered (s.indexRead k 1).keys = true)
    (hc : s.checkPushes [] [⟨false, r, .dst⟩] = .error t) :
    Gives (.fmvF ⟨r, false⟩ d f 0) s ((s.touchPushes [⟨false, r, .dst⟩]).trap t) := by
  have ho := openUses_fmvF (d := d) (f := f) hb
  rw [hdir] at ho
  exact (exec_fpOp rfl).trans (State.operate_noPlace rfl hb ho hready hc)

end

/-- Settles O21: FMV.X by the element that has arrived, is fetched or is missing, FMV.F by the place that its push finds. -/
theorem streamOperands : Obligations.StreamOperands := by
  intro s d r f k t rest pop push hb
  refine ⟨fun hdir => ⟨fun v l hgot hn => ?_, fun v g hgot hflt hn hread hheld hpow => ?_, fun hend => ?_, fun e hgot hflt he hn => ?_,
    ?_⟩, fun hdir => ⟨fun va keys g hgot hn hplace hheld hpow => ?_, fun hend => ?_, fun e hn hplace => ?_, ?_⟩⟩
  · have hrest : { rest t with got := l } = t.advance 1 := by rw [Stream.advance_one, hgot]; rfl
    rw [hrest]
    exact fmvX_pops hb hdir (State.fetchUpTo_of_le (by simp [t, hgot])) (.refl s) rfl hgot hn
  · exact fmvX_fetches hb hdir hgot hflt hn hread hheld hpow
  · exact fmvX_barren hb hdir (.inr (Nat.le_add_right_of_le hend)) (by simp [State.readUses, hb, popsOf, hend, strend, t])
  · have hbarren : t.Barren := .inl (by simp [Stream.faultAt, hgot, hflt, he])
    exact fmvX_barren hb hdir hbarren (by simp [State.readUses, hb, popsOf, hn, hgot, hflt, strfault, t])
  · refine (exec_fpOp rfl).trans (State.operate_error ?_)
    rw [openUses_fmvF hb, hdir]
    rfl
  · exact fmvF_pushes hb hdir hgot hn hplace hheld hpow
  · have h := fmvF_fails (d := d) (f := f) hb hdir (fun hn => absurd hn (Nat.not_lt.mpr hend)) (t := strend k t.spos)
      (by simp [State.checkPushes, hb, pushesOf, hend, t])
    rwa [State.touchPushes_destination rfl hb, if_neg (Nat.not_lt.mpr hend)] at h
  · refine ⟨State.indexRead_keys_of_direct, fun hheld hpow => ?_⟩
    have h := fmvF_fails (d := d) (f := f) hb hdir (fun _ => ⟨hheld, hpow⟩) (t := strfault k e.sub e.addr)
      (by simp [State.checkPushes, hb, pushesOf, hn, hplace, t])
    rwa [State.touchPushes_destination rfl hb, if_pos hn] at h
  · refine (exec_fpOp rfl).trans (State.operate_error ?_)
    rw [openUses_fmvX hb, hdir]
    rfl

end Sys2Proof.Machine
end

section
/-! The instructions of the matrix unit (07 R164 to R172): its gate, the operations that are counted, and the moves between v registers
and tiles. -/

namespace Sys2Proof.Machine

open Sys2Proof

/-! ## Past the gate (R164) -/

section
variable {s : State} (hk : isCompute s.k = true) (hc : s.tclm = true)
include hk hc

theorem tileGate_ok (i : Instr) : s.tileGate i = .ok () := by simp [State.tileGate, hk, hc]

end

/-- An instruction whose checks pass and that queues an operation is counted. -/
theorem done_counted {s : State} {i : Instr} {o : TileOp} {homes : List Nat} (h : exec i s = .next (s.queueTile o homes)) :
    Done i s (s.addTile o homes) 8 := done_of_retire ⟨rfl, rfl, rfl⟩ h

theorem tileIssue : Claim.TileIssue := by
  intro s t ta tb a b w pln c r imm rnd fmt hk hc counted ab cw fits
  have hgate := tileGate_ok hk hc
  have hmma : exec (.tmma t ta tb fmt) s = checked s (require
      ((s.tshape ta).wid == (mmaWids fmt).1 && (s.tshape tb).wid == (mmaWids fmt).1 && (s.tshape t).wid == (mmaWids fmt).2)
      (illegal (.tmma t ta tb fmt))) fun _ => s.queueTile (.mma t ta tb fmt) [] := by
    change execTmma t ta tb fmt s = _
    simp only [execTmma, hgate]
  have hfits : ((s.tshape ta).wid == (mmaWids fmt).1 && (s.tshape tb).wid == (mmaWids fmt).1 &&
      (s.tshape t).wid == (mmaWids fmt).2) = true ↔ fits := by
    cases fmt <;> simp [mmaWids, fits, ab, cw, and_assoc]
  refine ⟨?_, ?_, fun h => ?_, fun h => ?_, fun o h => ?_, fun o h => ?_, fun o h => ?_⟩
  · refine done_of_retire ⟨rfl, rfl, rfl⟩ ?_
    change execTcfg t w c r s = _
    rw [execTcfg, hgate, checked_ok]
  · refine done_counted ?_
    change execTzero t s = _
    rw [execTzero, hgate, checked_ok]
  · refine done_counted ?_
    rw [hmma, hfits.mpr h]
    rfl
  · rw [Traps, hmma, Bool.eq_false_iff.mpr fun hf => h (hfits.mp hf)]
    rfl
  · refine done_counted ?_
    change execTld t a b imm pln rnd s = _
    simp only [execTld, hgate, h, checked_ok]
  · refine done_counted ?_
    change execTtld t a b imm pln rnd s = _
    simp only [execTtld, hgate, h, checked_ok]
  · refine done_counted ?_
    change execTst t a b imm s = _
    simp only [execTst, hgate, h, checked_ok]

/-! ## Halves, lanes and scales (R167) -/

/-- A half of a row is the bits it stands at. -/
theorem halfOf_eq (row : BitVec 1024) (h : Bool) : halfOf row h = row.extractLsb' (if h then 512 else 0) 512 := by cases h <;> rfl

/-- A half written holds the value. -/
theorem setHalf_same (row : BitVec 1024) (h : Bool) (v : VWord) : (setHalf row h v).extractLsb' (if h then 512 else 0) 512 = v := by
  cases h
  · exact BitVec.extractLsb'_append_eq_right
  · exact BitVec.extractLsb'_append_eq_left

/-- The other half keeps its own. -/
theorem setHalf_other (row : BitVec 1024) (h : Bool) (v : VWord) :
    (setHalf row h v).extractLsb' (512 - if h then 512 else 0) 512 = row.extractLsb' (512 - if h then 512 else 0) 512 := by
  cases h
  · exact BitVec.extractLsb'_append_eq_left
  · exact BitVec.extractLsb'_append_eq_right

theorem low32_lane (v : VWord) (j : Nat) : low32 (lane v 4 j) = v.extractLsb' (32 * j) 32 := by
  apply BitVec.eq_of_toNat_eq
  simp [low32, lane, Nat.shiftRight_eq_div_pow]

/-- The lanes of a list stand in its order. -/
theorem lanesNat_lane (n : Nat) : ∀ (l : List Word) (j : Nat),
    lanesNat n l / 2 ^ (8 * n * j) % 2 ^ (8 * n) = (l.getD j 0).toNat % 2 ^ (8 * n)
  | [], j => by simp [lanesNat]
  | x :: r, 0 => by simp [lanesNat]
  | x :: r, j + 1 => by
    have hpow : 2 ^ (8 * n * (j + 1)) = 2 ^ (8 * n) * 2 ^ (8 * n * j) := by rw [← Nat.pow_add]; ring_nf
    have hrest : lanesNat n (x :: r) / 2 ^ (8 * n) = lanesNat n r := by
      rw [lanesNat, Nat.add_mul_div_left _ _ (Nat.two_pow_pos _), Nat.div_eq_of_lt (Nat.mod_lt _ (Nat.two_pow_pos _)), Nat.zero_add]
    rw [hpow, ← Nat.div_div_eq_div_mul, hrest, lanesNat_lane n r j, List.getD_cons_succ]

/-- A field below bit `n` of a number cut to `n` bits. -/
theorem mod_div_mod {a n k m : Nat} (h : k + m ≤ n) : a % 2 ^ n / 2 ^ k % 2 ^ m = a / 2 ^ k % 2 ^ m := by
  obtain ⟨c, rfl⟩ := Nat.exists_eq_add_of_le h
  rw [Nat.add_assoc, Nat.pow_add, Nat.mod_mul_right_div_self, Nat.pow_add, Nat.mod_mul_right_mod]

/-- Word `j` of a register made of words. -/
theorem ofLanes_word (l : List (BitVec 32)) {j : Nat} (h : j < 16) :
    (ofLanes 4 (l.map (·.zeroExtend 64))).extractLsb' (32 * j) 32 = l.getD j 0 := by
  apply BitVec.eq_of_toNat_eq
  have hfit : 32 * j + 32 ≤ 512 := by omega
  have hcut := mod_div_mod (a := lanesNat 4 (l.map (·.zeroExtend 64))) hfit
  have hlane := lanesNat_lane 4 (l.map (·.zeroExtend 64)) j
  rw [BitVec.extractLsb'_toNat, ofLanes, BitVec.toNat_ofNat, Nat.shiftRight_eq_div_pow, hcut, hlane]
  have hget : (l.map (·.zeroExtend 64)).getD j 0 = (l.getD j 0).zeroExtend 64 := List.getD_map (d := 0) ..
  rw [hget, BitVec.toNat_setWidth_of_le (by decide)]
  exact Nat.mod_eq_of_lt (BitVec.isLt _)

/-- Half of the row scales are written with the words of the register, and the others stay. -/
theorem TileReg.write_scale (T : TileReg) (h : Bool) (v : VWord) (j : Fin 32) : (T.write (.rs h) v).sr[j] =
    if decide (j.val < 16) = !h then v.extractLsb' (32 * (j.val % 16)) 32 else T.sr[j] := by
  simp only [TileReg.write, Fin.getElem_fin, Vector.getElem_ofFn, low32_lane]
  cases h
  · by_cases hj : j.val < 16
    · simp [hj, Nat.mod_eq_of_lt]
    · simp [hj]
  · by_cases hj : j.val < 16
    · simp [hj]
    · have hmod : j.val % 16 = j.val - 16 := by omega
      simp [hj, hmod]

/-! ## TMOV (R167) -/

section
variable {s : State} {i : Instr} {o : Opnd} {us : List Use} {k : Out} (ho : openUses i s.ctx 0 [o] = .ok us) 
  (hgate : s.tileGate i = .ok ())
include ho hgate

theorem tmovGate_counted (h : s.core.tileq ≠ []) : s.tmovGate i o k = .next (s.stall .counters) := by
  rw [State.tmovGate, ho, hgate]
  exact if_neg (by simpa using h)

theorem tmovGate_free (h : s.core.tileq = []) : s.tmovGate i o k = k := by
  rw [State.tmovGate, ho, hgate]
  exact if_pos (by simp [h])

end

section
variable {s : State} {d : Reg} {t : Tile} {sel : TSel} (hk : isCompute s.k = true) (hc : s.tclm = true)
  (hv : d.toNat < s.ctx.valloc.toNat)

include hv in
/-- TMOV to a v register that no stream is bound to. -/
theorem openUses_tmovFr (hb : s.ctx.bound true d = none) :
    openUses (.tmovFr d t sel) s.ctx 0 [⟨true, direct d, .load⟩] = .ok [⟨true, d, .load⟩] := by
  rw [openUses_direct fun _ => hv, checkUse_unbound hb]
  rfl

include hv in
theorem tmovFr_bound (hb : (s.ctx.bound true d).isSome = true) : Traps (.tmovFr d t sel) s (illegal (.tmovFr d t sel)) := by
  have ho : openUses (.tmovFr d t sel) s.ctx 0 [⟨true, direct d, .load⟩] = .error (illegal (.tmovFr d t sel)) := by
    rw [openUses_direct fun _ => hv, checkUse_load_bound hb]
    rfl
  change execTmovFr d t sel s = _
  rw [execTmovFr, State.tmovGate, ho]

include hk hc

include hv in
theorem tmovFr_waits (hb : s.ctx.bound true d = none) (hq : s.core.tileq ≠ []) : Waits (.tmovFr d t sel) s .counters :=
  tmovGate_counted (openUses_tmovFr hv hb) (tileGate_ok hk hc _) hq

include hv in
/-- TMOV reads its part of the tile. -/
theorem tmovFr_done (hb : s.ctx.bound true d = none) (hq : s.core.tileq = []) :
    Done (.tmovFr d t sel) s (s.setV d ((s.tile t).read sel)) 8 :=
  done_of_retire ⟨rfl, rfl, rfl⟩ (tmovGate_free (openUses_tmovFr hv hb) (tileGate_ok hk hc _) hq)

variable {us : List Use} {l : List VWord} (ho : openUses (.tmovTo d t sel) s.ctx 0 [vS (direct d)] = .ok us)
include ho

theorem tmovTo_waits (hq : s.core.tileq ≠ []) : Waits (.tmovTo d t sel) s .counters :=
  tmovGate_counted ho (tileGate_ok hk hc _) hq

/-- TMOV writes its part of the tile with the value of its register, or of the element that it pops. -/
theorem tmovTo_done (hsup : Supplied s us l) (hq : s.core.tileq = []) :
    Done (.tmovTo d t sel) s ((s.popAll us).setTile t ((s.tile t).write sel (sv l 0))) 8 := by
  have hop := State.operate_supplied (op := fun _ vs => .ok (0, fun s => s.setTile t ((s.tile t).write sel (sv vs 0)))) ho hsup rfl
    (by simp [State.fpTraps])
  refine done_of_retire ⟨rfl, rfl, rfl⟩ ((tmovGate_free ho (tileGate_ok hk hc _) hq).trans (hop.trans ?_))
  have hquiet : s.orFlags 0 = s := s.orFlags_zero
  rw [hquiet]
  rfl

end

theorem tileMoves : Claim.TileMoves := by
  intro s d t r h sel us l hk hc v fr into T row h0
  refine ⟨tmovFr_bound, fun hq => ⟨fun ⟨hv, hb⟩ => tmovFr_waits hk hc hv hb hq, fun ⟨ho, _⟩ => tmovTo_waits hk hc ho hq⟩,
    fun hq ⟨hv, hb⟩ => ⟨?_, tmovFr_done hk hc hv hb hq, _, tmovFr_done hk hc hv hb hq, fun j => ?_⟩,
    fun hq => ⟨fun ⟨ho, hsup⟩ => ⟨_, tmovTo_done hk hc ho hsup hq, setHalf_same row h v, setHalf_other row h v⟩,
      fun ⟨ho, hsup⟩ => ?_, fun ⟨ho, hsup⟩ => ⟨_, tmovTo_done hk hc ho hsup hq, fun j => ?_⟩⟩⟩
  · have hread : T.read (.row r h) = row.extractLsb' h0 512 := halfOf_eq row h
    rw [← hread]
    exact tmovFr_done hk hc hv hb hq
  · have hscales : T.read (.rs h) =
        ofLanes 4 (((List.range 16).map fun i => T.sr.toList.getD ((if h then 16 else 0) + i) 0).map (·.zeroExtend 64)) := by
      rw [List.map_map]
      rfl
    rw [hscales, ofLanes_word _ j.isLt]
    simp
  · have hst : v.extractLsb' 0 32 = low32 (lane v 4 0) := (low32_lane v 0).symm
    rw [hst]
    exact tmovTo_done hk hc ho hsup hq
  · exact T.write_scale h v j

/-- Settles O46: the gate passed, each instruction is its effect or its wait. -/
theorem tileInstructions : Obligations.TileInstructions := ⟨tileIssue, tileMoves⟩

end Sys2Proof.Machine
end

section
/-! Plane instructions at issue (07 R175 to R183): what their checks find, what they read, and the access that is outstanding then. -/

namespace Sys2Proof.Machine

open Sys2Proof

/-! ## An operation with reads of its own -/

/-- A state with another context in the place of the current one. -/
def State.withCtx (s : State) (c : Ctx) : State := { s with ctx := c }

theorem State.modCore_withCtx (s : State) (c : Ctx) (k : Nat) (f : Core → Core) : (s.withCtx c).modCore k f = (s.modCore k f).withCtx c := by
  have hget : (s.withCtx c).getCore k = s.getCore k := rfl
  have hk : (s.withCtx c).k = s.k := rfl
  rw [State.modCore, State.modCore, hget, State.setCore, State.setCore, hk]
  split <;> rfl

/-- Dropping copies reads and writes nothing of the context. -/
theorem State.dropCopies_withCtx (k : Nat) (c : Ctx) : ∀ (keys : List Nat) (s : State),
    State.dropCopies k (s.withCtx c) keys = (State.dropCopies k s keys).withCtx c
  | [], _ => rfl
  | a :: r, s => by
    rw [State.dropCopies, State.dropCopies, ← State.dropCopies_withCtx k c r, State.modCore_withCtx]
    congr 1
    by_cases h : (find (s.getCore k).l1 (a / 8)).isSome && !s.owns k (a / 8)
    · rw [if_pos h]; exact if_pos h
    · rw [if_neg h]; exact if_neg h

theorem State.touch_withCtx (k : Nat) (s : State) (c : Ctx) (keys : List Nat) :
    State.touch k (s.withCtx c) keys = (State.touch k s keys).withCtx c := by
  have hnote : (s.withCtx c).note keys = (s.note keys).withCtx c := by
    unfold State.note State.noteAs
    split
    · rfl
    · by_cases h : s.checks.isEmpty
      · rw [if_pos h]; exact if_pos h
      · rw [if_neg h]; exact if_neg h
  rw [State.touch, hnote, State.dropCopies_withCtx, State.touch]

/-- Flags and pops come to the same before a read as after it. -/
theorem State.touch_orFlags_popAll (s : State) (fl : Flags) (us : List Use) (keys : List Nat) :
    ((State.touch s.k s keys).orFlags fl).popAll us = State.touch s.k ((s.orFlags fl).popAll us) keys := by
  have hmake (t : State) : (t.orFlags fl).popAll us = t.withCtx ((t.orFlags fl).popAll us).ctx := rfl
  have hctx : (((State.touch s.k s keys).orFlags fl).popAll us).ctx = ((s.orFlags fl).popAll us).ctx := by
    simp only [State.orFlags, State.popAll, State.touch_ctx]
    rfl
  rw [hmake, hctx, ← State.touch_withCtx, ← hmake]

theorem indexFree_readNow {s : State} {keys : List Nat} (hpow : s.powered keys = true) (hread : s.readsAfter s.nextId keys = false) :
    s.indexFree (readNow keys) = true := by
  simp [readNow, State.indexFree, State.mayReadNow, hpow, hread, Pend.at]

/-- With its operands supplied and its words free to read, an instruction comes to its operation. -/
theorem State.operateWhen_supplied {s : State} {i : Instr} {rimm : BitVec 6} {ops : List Opnd} {us : List Use} {v : List VWord}
    {keys : List Nat} {op : List Reg → List VWord → Effect} {fl : Flags} {eff : State → State} (ho : openUses i s.ctx rimm ops = .ok us)
    (h : Supplied s us v) (hpow : s.powered keys = true) (hread : s.readsAfter s.nextId keys = false)
    (hop : op (us.map (·.reg)) v = .ok (fl, eff)) (hfl : s.fpTraps fl = false) :
    s.operateWhen i rimm ops (fun _ => [readNow keys]) op =
      .next (State.retire 8 (eff (State.touch s.k ((s.orFlags fl).popAll us) keys))) := by
  have hquiet : (State.touch s.k s keys).fpTraps fl = false := by rwa [State.fpTraps, State.touch_ctx]
  have hkeys : (readNow keys).indexKeys = keys := rfl
  simp only [State.operateWhen, ho, h.fetchUses, h.readyPushes, h.usesArrived, h.pushesReady, h.readUses, h.checkPushes,
    State.whenIndexed, List.all_cons, List.all_nil, indexFree_readNow hpow hread, List.flatMap_cons, List.flatMap_nil, List.append_nil,
    hkeys, hop, State.raising, hquiet]
  simp [State.commitPops_popAll, State.touch_orFlags_popAll, hquiet]

/-! ## Accesses that go out -/

theorem SameSpaces.orFlags (s : State) (fl : Flags) : SameSpaces s (s.orFlags fl) := ⟨rfl, rfl, rfl, rfl, rfl, rfl, rfl, rfl, rfl⟩

/-- No region has to wake for an access whose keys are powered. -/
theorem State.issue_powered {s : State} {keys : List Nat} (h : s.powered keys = true) (op : PendOp) (homes : List Nat) :
    (s.wakeFor keys).issue op homes = s.issuing op homes := by
  rw [State.wakeFor_powered _ _ h]
  rfl

theorem State.powered_append (s : State) (a b : List Nat) : s.powered (a ++ b) = (s.powered a && s.powered b) := List.all_append

/-- A destination that data return to neither pops nor pushes. -/
theorem supplied_return (s : State) {u : Use} (hr : u.role = .load) : Supplied s [u] [] := by
  have honly {p q : List Use} {x : Use} (hus : [u] = p ++ x :: q) : x.role = .load := by
    obtain ⟨-, rfl, -⟩ := eq_of_singleton_eq hus
    exact hr
  refine ⟨fun k => by simp [popsOf_singleton, hr], by simp [hr], fun p q x hus hx => ?_, fun p q x k hus hx => ?_, ?_⟩
  · cases (honly hus).symm.trans hx
  · cases (honly hus).symm.trans hx
  · simp [State.pushesReady, pushed, pushesOf_singleton, hr]

/-! ## Checked elements (R175) -/

theorem elemKeys_length {s : State} {ld : Bool} {acc : Acc} {d : Fd} {i : Nat} : ∀ {ps l : List Nat},
    s.elemKeys ld acc d i ps = .ok l → l.length = ps.length
  | [], l, h => by
    cases h
    rfl
  | p :: r, l, h => by
    simp only [State.elemKeys] at h
    split at h
    · cases h
    · split at h
      · cases h
      · split at h
        · cases h
        · split at h
          · cases h
          · next ks hr =>
            cases h
            rw [List.length_cons, elemKeys_length hr, List.length_cons]

/-- Each element has the keys of the planes asked for. -/
theorem sliceKeys_length {s : State} {ld : Bool} {acc sacc : Acc} {d : Fd} {np : Nat} : ∀ {els : List Nat} {l : List (List Nat × Nat)},
    s.sliceKeys ld acc sacc d np els = .ok l → ∀ e ∈ l, e.1.length = np
  | [], l, h => by
    cases h
    simp
  | i :: r, l, h => by
    simp only [State.sliceKeys] at h
    split at h
    · cases h
    · next ks hks =>
      split at h
      · cases h
      · split at h
        · cases h
        · next rest hrest =>
          cases h
          refine List.forall_mem_cons.mpr ⟨?_, sliceKeys_length hrest⟩
          rw [elemKeys_length hks, List.length_range]

theorem scalesFlag_eq (s : State) (l : List (List Nat × Nat)) :
    s.scalesFlag l = if l.all fun e => scaleOk (s.word32 e.2) then 0 else flagNV := by
  rw [State.scalesFlag, List.all_eq_not_any_not]
  cases l.any fun e => !scaleOk (s.word32 e.2) <;> rfl

theorem laneFlags_map {α : Type} (f : α → FRes) (l : List α) : laneFlags (l.map f) = l.foldl (fun fl e => fl ||| (f e).fl) 0 := by
  rw [laneFlags, List.foldl_map, List.foldl_map]

theorem tileReady_ok {s : State} {homes keys : List Nat} (hord : s.tileOrder homes = false) (hread : s.readsAfter s.nextId keys = false)
    (hpow : s.powered keys = true) : s.tileReady homes keys = true := by simp [State.tileReady, hord, hread, hpow]

/-! ## LDP (R177) -/

section
variable {s : State} {d a : Reg} {imm : BitVec 12} {pln : BitVec 3} {rnd : Bool}

theorem ldp_bound (hv : d.toNat < s.ctx.valloc.toNat) (hb : (s.ctx.bound true d).isSome = true) :
    Traps (.ldp d a imm pln rnd) s (illegal (.ldp d a imm pln rnd)) := by
  have ho : openUses (.ldp d a imm pln rnd) s.ctx 0 [⟨true, direct d, .load⟩] = .error (illegal (.ldp d a imm pln rnd)) := by
    rw [openUses_direct fun _ => hv, checkUse_load_bound hb]
    rfl
  change execLdp d a imm pln rnd s = _
  simp only [execLdp, ho]
  exact State.operate_error ho

theorem ldpSlice_ok {p : PlaneAt} {l : List (List Nat × Nat)} (hp : s.planeAt true (s.ea a imm) = .ok p)
    (hl : s.sliceKeys true .r .r p.fd (if rnd && decide (planesOf pln p.fd.npl < p.fd.npl) then p.fd.npl
      else min (planesOf pln p.fd.npl) p.fd.npl) (sixteen p.i) = .ok l) :
    s.ldpSlice a imm pln rnd = .ok (p, planesOf pln p.fd.npl, l) := by simp only [State.ldpSlice, hp, hl]

/-- LDP whose checks pass, with what its elements are read as. -/
theorem ldp_done {p : PlaneAt} {k : Nat} {l : List (List Nat × Nat)} {r : List Nat × Nat → FRes} {fl : Flags}
    (hv : d.toNat < s.ctx.valloc.toNat) (hb : s.ctx.bound true d = none) (hslice : s.ldpSlice a imm pln rnd = .ok (p, k, l))
    (hr : l.map (s.ldpLane k rnd) = l.map r) (hfl : laneFlags (l.map r) ||| s.scalesFlag l = fl)
    (hord : s.tileOrder (s.sliceHomes p.fd (sixteen p.i) l) = false) (hread : s.readsAfter s.nextId (allKeys l) = false)
    (hpow : s.powered (allKeys l) = true) (hquiet : s.fpTraps fl = false) :
    Done (.ldp d a imm pln rnd) s ((State.touch s.k (s.orFlags fl) (allKeys l)).issuing (.load .tile false (.v d)
      ((List.range 16).map fun j => ⟨32 * j, 4, .val ((l.map fun e => (r e).bits).getD j 0)⟩)) (s.sliceHomes p.fd (sixteen p.i) l)) 8 := by
  have ho : openUses (.ldp d a imm pln rnd) s.ctx 0 [⟨true, direct d, .load⟩] = .ok [⟨true, d, .load⟩] := by
    rw [openUses_direct fun _ => hv, checkUse_unbound hb]
    rfl
  have hbits (j : Nat) : ((l.map r).getD j ⟨0, 0⟩).bits = (l.map fun e => (r e).bits).getD j 0 := by
    rw [← Function.comp_def, ← List.map_map]
    exact (List.getD_map (f := FRes.bits) (d := ⟨0, 0⟩) ..).symm
  have hpops : (s.orFlags fl).popAll [⟨true, d, .load⟩] = s.orFlags fl := State.popAll_of_noPops fun k => rfl
  refine done_of_retire (by simp [SameControl, State.issuing, State.issuingAt]) ?_
  change execLdp d a imm pln rnd s = _
  simp only [execLdp, ho, hslice, tileReady_ok hord hread hpow, Bool.not_true, Bool.false_eq_true, if_false, hr, hfl, hbits]
  rw [State.operateWhen_supplied ho (supplied_return s rfl) hpow hread rfl hquiet, hpops]
  rfl

end

/-! ## STP (R178) -/

section
variable {s : State} {d a : Reg} {imm : BitVec 12} {pln : BitVec 3}

theorem stpSlice_ok {p : PlaneAt} {l : List (List Nat × Nat)} (hp : s.planeAt false (s.ea a imm) = .ok p)
    (hl : s.sliceKeys false .w .r p.fd p.fd.npl (sixteen p.i) = .ok l) :
    s.stpSlice a imm pln = .ok (p, min (planesOf pln p.fd.npl) p.fd.npl, l) := by simp only [State.stpSlice, hp, hl]

/-- STP whose checks pass, with the bytes that it rounds its elements to. -/
theorem stp_done {p : PlaneAt} {k : Nat} {l : List (List Nat × Nat)} {us : List Use} {v : List VWord} {fl : Flags}
    {cells : List (List Host.Cell)} (ho : openUses (.stp d a imm pln) s.ctx 0 [vS (direct d)] = .ok us) (hsup : Supplied s us v)
    (hslice : s.stpSlice a imm pln = .ok (p, k, l))
    (hfl : (((List.range 16).zip l).map fun e => (toPk k (low32 (lane (sv v 0) 4 e.1)) (s.word32 e.2.2)).fl).foldl (· ||| ·)
      (s.scalesFlag l) = fl)
    (hcells : ((List.range 16).zip l).flatMap (fun e => stpBatches k (low32 (lane (sv v 0) 4 e.1)) (s.word32 e.2.2) e.2.1) = cells)
    (hord : s.tileOrder (s.sliceHomes p.fd (sixteen p.i) l) = false) (hread : s.readsAfter s.nextId (scaleKeys l) = false)
    (hscales : s.powered (scaleKeys l) = true) (hpow : s.powered (allKeys l) = true) (hquiet : s.fpTraps fl = false) :
    Done (.stp d a imm pln) s ((State.touch s.k ((s.orFlags fl).popAll us) (scaleKeys l)).issuing (.store .tile cells)
      (s.sliceHomes p.fd (sixteen p.i) l)) 8 := by
  have hspaces : SameSpaces s (State.touch s.k ((s.orFlags fl).popAll us) (scaleKeys l)) :=
    ((SameSpaces.orFlags s fl).trans (.popAll _ us)).trans (.touch ..)
  refine done_of_retire (by simp [SameControl, State.issuing, State.issuingAt, State.popAll]) ?_
  change execStp d a imm pln s = _
  simp only [execStp, ho, hslice, tileReady_ok hord hread hscales, Bool.not_true, Bool.false_eq_true, if_false]
  rw [State.operateWhen_supplied ho hsup hscales hread rfl (by rwa [hfl]), hfl, State.issue_powered (by rwa [hspaces.powered]), hcells]

end

/-! ## PSCL (R179) -/

section
variable {s : State} {d a : Reg} {imm : BitVec 12}

theorem pscl_bound (hb : (s.ctx.bound false d).isSome = true) : Traps (.pscl d a imm) s (illegal (.pscl d a imm)) := by
  have ho : openUses (.pscl d a imm) s.ctx 0 [⟨false, direct d, .load⟩] = .error (illegal (.pscl d a imm)) := by
    rw [openUses_direct (by simp), checkUse_load_bound hb]
    rfl
  change execPscl d a imm s = _
  simp only [execPscl, ho]

theorem psclScale_ok {p : PlaneAt} {key : Nat} (hp : s.planeAt true (s.ea a imm) = .ok p)
    (hkey : s.planeKey true .r (p.fd.scaleAddr p.i) = .ok key) :
    s.psclScale a imm = .ok (key, s.homeAt (p.fd.scaleAddr p.i) key) := by simp only [State.psclScale, hp, hkey]

theorem pscl_done {key home : Nat} (hb : s.ctx.bound false d = none) (hscale : s.psclScale a imm = .ok (key, home))
    (hpow : s.powered [key] = true) (hconf : s.tileConflict [home] = false) :
    Done (.pscl d a imm) s (s.issuing (.load .tile false (.f d) [⟨0, 4, .mem key home⟩]) [home]) 8 := by
  have ho : openUses (.pscl d a imm) s.ctx 0 [⟨false, direct d, .load⟩] = .ok [⟨false, d, .load⟩] := by
    rw [openUses_direct (by simp), checkUse_unbound hb]
    rfl
  refine done_of_retire ⟨rfl, rfl, rfl⟩ ?_
  change execPscl d a imm s = _
  simp only [execPscl, ho, hscale, hconf, Bool.false_eq_true, if_false, State.issue_powered hpow]

end

/-! ## LDP, STP and PSCL together -/

theorem planeMoves : Claim.PlaneMoves := by
  intro s d a imm pln rnd p l us v
  refine ⟨ldp_bound, pscl_bound, ?_⟩
  intro va n k sixteen g inv scales keys homes hkeys hscales hord hread hreadScales
  refine ⟨?_, ?_, ?_⟩
  · intro np r fl hv hb hp hl hquiet
    have hnp : (if rnd && decide (k < n) then n else min k n) = np := by simp [np]
    have hslice : s.ldpSlice a imm pln rnd = .ok (p, k, l) := ldpSlice_ok hp (by rw [← hl, ← hnp]; rfl)
    have hr : l.map (s.ldpLane k rnd) = l.map r := List.map_congr_left fun e he => by
      have hlen : (e.1.map (Mem.get s.mem)).length = np := by rw [List.length_map, sliceKeys_length hl e he]
      simp only [State.ldpLane, hlen]
      rfl
    have hfl : laneFlags (l.map r) ||| s.scalesFlag l = fl := by
      rw [laneFlags_map, scalesFlag_eq]
      rfl
    exact ldp_done hv hb hslice hr hfl hord hread hkeys hquiet
  · intro kk x js fl planes ho hsup hp hl hquiet
    refine stp_done ho hsup (stpSlice_ok hp hl) ?_ ?_ hord hreadScales hscales hkeys hquiet
    · rw [List.foldl_map, scalesFlag_eq]
      simp only [low32_lane]
      rfl
    · refine List.flatMap_congr fun e he => ?_
      have hlen : e.2.1.length = n := sliceKeys_length hl e.2 (List.of_mem_zip he).2
      rw [stpBatches, hlen, low32_lane]
      rfl
  · intro key hp hkey hpow hb home hconf
    exact pscl_done hb (psclScale_ok hp hkey) hpow hconf

/-! ## The operations performed at the home (R180 to R183) -/

section
variable {s : State} {d a b c : Reg} {imm : BitVec 12} {l m : List (List Nat × Nat)} {us : List Use} {v : List VWord} {p q : PlaneAt}

theorem prescale_done (hp : s.planeAt false (s.ea a imm) = .ok p)
    (hl : s.sliceKeys false .w .w p.fd p.fd.npl (p.fd.blockElems p.i) = .ok l) (hpow : s.powered (allKeys l) = true) :
    Done (.prescale d a imm b) s (s.issuing (.prescale d (s.x b) (mkSlice l)) (s.blockHomesOf (p, l))) 8 := by
  refine done_of_retire ⟨rfl, rfl, rfl⟩ ?_
  change execPrescale d a imm b s = _
  simp only [execPrescale, hp, hl, checked_ok, State.issue_powered hpow]

/-- Accesses go out after the pops as before them. -/
theorem State.issue_popped {keys : List Nat} (hpow : s.powered keys = true) (us : List Use) (op : PendOp) (homes : List Nat) :
    (((s.orFlags 0).popAll us).wakeFor keys).issue op homes = (s.popAll us).issuing op homes := by
  have hquiet : s.orFlags 0 = s := s.orFlags_zero
  rw [hquiet, State.issue_powered (by rwa [(SameSpaces.popAll s us).powered])]

theorem paxpy_done (ho : openUses (.paxpy d a imm b) s.ctx 0 [fS (direct d), vS (direct b)] = .ok us) (hsup : Supplied s us v)
    (hl : s.slice16 (s.ea a imm) = .ok (p, l)) (hpow : s.powered (allKeys l) = true) :
    Done (.paxpy d a imm b) s
      ((s.popAll us).issuing (.paxpy (low32 (sf v 0)) (sv v 1) (mkSlice l)) (s.homes16 (p, l))) 8 := by
  refine done_of_retire ⟨rfl, rfl, rfl⟩ ?_
  change execPaxpy d a imm b s = _
  rw [execPaxpy, hl, State.operate_supplied ho hsup rfl (by simp [State.fpTraps]), State.issue_popped hpow]

theorem psgdm_done (ho : openUses (.psgdm d a imm b c) s.ctx 0 [fS (direct d), vS (direct b)] = .ok us) (hsup : Supplied s us v)
    (hl : s.slice16 (s.ea a imm) = .ok (p, l)) (hm : s.slice16 (s.x c) = .ok (q, m)) (hlpow : s.powered (allKeys l) = true)
    (hmpow : s.powered (allKeys m) = true) :
    Done (.psgdm d a imm b c) s ((s.popAll us).issuing (.psgdm ((sf v 0).extractLsb' 0 32) ((sf v 0).extractLsb' 32 32) (sv v 1)
      (mkSlice m) (mkSlice l) none) (s.homes16 (q, m) ++ s.homes16 (p, l))) 8 := by
  have hpow : s.powered (allKeys m ++ allKeys l) = true := by rw [State.powered_append, hmpow, hlpow, Bool.and_self]
  refine done_of_retire ⟨rfl, rfl, rfl⟩ ?_
  change execPsgdm d a imm b c s = _
  rw [execPsgdm, hl, hm, State.operate_supplied ho hsup rfl (by simp [State.fpTraps]), State.issue_popped hpow]

theorem baddqBlocks_ok (hp : s.baddqAt false (s.ea a imm) = .ok p)
    (hl : s.sliceKeys false .w .w p.fd p.fd.npl (p.fd.blockElems p.i) = .ok l) (hq : s.baddqAt true (s.x b) = .ok q)
    (hlen : (q.fd.blockElems q.i).length = (p.fd.blockElems p.i).length)
    (hm : s.sliceKeys true .r .r q.fd 1 (q.fd.blockElems q.i) = .ok m) : s.baddqBlocks a imm b = .ok ((p, l), q, m) := by
  simp only [State.baddqBlocks, hp, hl, hq, hlen, hm, ne_eq, not_true_eq_false, if_false]

theorem baddq_done (hblocks : s.baddqBlocks a imm b = .ok ((p, l), q, m)) (hlpow : s.powered (allKeys l) = true)
    (hmpow : s.powered (allKeys m) = true) :
    Done (.baddq a imm b) s (s.issuing (.baddq (mkSlice l) (mkSlice m)) (s.blockHomesOf (p, l) ++ s.blockHomesOf (q, m))) 8 := by
  have hpow : s.powered (allKeys l ++ allKeys m) = true := by rw [State.powered_append, hlpow, hmpow, Bool.and_self]
  refine done_of_retire ⟨rfl, rfl, rfl⟩ ?_
  change execBaddq a imm b s = _
  simp only [execBaddq, hblocks, checked_ok, State.issue_powered hpow]

end

theorem planeNear : Claim.PlaneNear := by
  intro s d a b c imm l m us v va keys sixteen pops hlpow hmpow
  refine ⟨fun p hp hl => prescale_done hp hl hlpow, ?_, ?_, ?_⟩
  · rintro p ⟨ho, hsup⟩ hl
    exact paxpy_done ho hsup hl hlpow
  · rintro p q ⟨ho, hsup⟩ hl hm
    exact psgdm_done ho hsup hl hm hlpow hmpow
  · intro p q hp hl hq hlen hm
    exact baddq_done (baddqBlocks_ok hp hl hq hlen hm) hlpow hmpow

/-- Settles O47: an instruction that is done comes to the access that its checks, its operands and the words it reads give. -/
theorem planeOperations : Obligations.PlaneOperations := ⟨planeMoves, planeNear⟩

end Sys2Proof.Machine
end

section
/-! The claim of the matrix unit (07 R161, R164): what the gate refuses, and how the claim is taken, granted and given up. -/

namespace Sys2Proof.Machine

open Sys2Proof

/-! ## The gate (R164) -/

section
variable {s : State}

theorem tileGate_noCompute (hk : isCompute s.k = false) (i : Instr) : s.tileGate i = .error (illegalMode i) := by
  simp [State.tileGate, hk]

theorem tileGate_noClaim (hk : isCompute s.k = true) (hc : s.tclm = false) (i : Instr) : s.tileGate i = .error (tilebusy i) := by
  simp [State.tileGate, hk, hc]

variable {e : Trap}

theorem tmovGate_error {i : Instr} {o : Opnd} {us : List Use} {k : Out} (ho : openUses i s.ctx 0 [o] = .ok us)
    (hgate : s.tileGate i = .error e) : s.tmovGate i o k = .next (s.trap e) := by rw [State.tmovGate, ho, hgate]

/-- An instruction of the matrix unit takes the trap of its gate. -/
theorem traps_of_tileGate {t ta tb : Tile} {a b : Reg} {w pln : BitVec 3} {c : BitVec 7} {r : BitVec 5} {imm : BitVec 12} {rnd : Bool}
    {fmt : TFmt} {i : Instr}
    (hi : i ∈ [.trel, .tcfg t w c r, .tzero t, .tswap t, .tld t a b imm pln rnd, .ttld t a b imm pln rnd, .tst t a b imm,
      .tmma t ta tb fmt]) (hgate : s.tileGate i = .error e) : Traps i s e := by
  simp only [List.mem_cons, List.not_mem_nil, or_false] at hi
  rcases hi with rfl | rfl | rfl | rfl | rfl | rfl | rfl | rfl
  · exact show execTrel s = _ by rw [execTrel, hgate, checked_error]
  · exact show execTcfg t w c r s = _ by rw [execTcfg, hgate, checked_error]
  · exact show execTzero t s = _ by rw [execTzero, hgate, checked_error]
  · exact show execTswap t s = _ by rw [execTswap, hgate, checked_error]
  · exact show execTld t a b imm pln rnd s = _ by simp only [execTld, hgate]
  · exact show execTtld t a b imm pln rnd s = _ by simp only [execTtld, hgate]
  · exact show execTst t a b imm s = _ by simp only [execTst, hgate]
  · exact show execTmma t ta tb fmt s = _ by simp only [execTmma, hgate]

/-- TMOV takes the trap of its gate when its v register has passed its own checks. -/
theorem tmov_traps_of_tileGate {d : Reg} {t : Tile} {sel : TSel} {i : Instr} (hi : i ∈ [.tmovFr d t sel, .tmovTo d t sel])
    (hv : d.toNat < s.ctx.valloc.toNat) (hb : s.ctx.bound true d = none) (hgate : s.tileGate i = .error e) : Traps i s e := by
  simp only [List.mem_cons, List.not_mem_nil, or_false] at hi
  rcases hi with rfl | rfl
  · exact tmovGate_error (openUses_tmovFr hv hb) hgate
  · have ho : openUses (.tmovTo d t sel) s.ctx 0 [vS (direct d)] = .ok [⟨true, d, .src⟩] := by
      refine (openUses_direct (fun _ => hv) 0).trans ?_
      rw [checkUse_unbound hb]
      rfl
    exact tmovGate_error ho hgate

end

theorem tileGates : Claim.TileGates := by
  intro s t ta tb a b d w pln c r imm rnd fmt sel i hi
  have htraps {e : Trap} (hgate : s.tileGate i = .error e) : Traps i s e := by
    rcases hi with hi | ⟨hi, hv, hb⟩
    · exact traps_of_tileGate hi hgate
    · exact tmov_traps_of_tileGate hi hv hb hgate
  refine ⟨fun hk => ⟨htraps (tileGate_noCompute hk i), ?_⟩, fun hk hc => htraps (tileGate_noClaim hk hc i)⟩
  change execTacq s = _
  rw [execTacq, hk]
  rfl

/-! ## The claim (R161) -/

section
variable {s : State} (hk : isCompute s.k = true)

include hk in
/-- TACQ on a compute core. -/
theorem execTacq_compute : execTacq s = .next (
    if s.tclm then s.retire 8
    else if s.core.claim = none ∧ s.core.tacqs = [] then State.retire 8 { s with core := { s.core with claim := some s.c } }
    else if s.core.tacqs.contains s.c then s.stall .tacq
    else State.stall .tacq { s with core := { s.core with tacqs := s.core.tacqs ++ [s.c] } }) := by
  rw [execTacq, hk]
  rfl

theorem tclm_of_free (h : s.core.claim = none) : s.tclm = false := by simp [State.tclm, h]

include hk in
/-- A TACQ that finds the claim taken, or others waiting for it, waits; it joins the waiting order once. -/
theorem execTacq_busy (hc : s.tclm = false) (hbusy : s.core.claim ≠ none ∨ s.core.tacqs ≠ []) :
    execTacq s = .next (if s.core.tacqs.contains s.c then s.stall .tacq
      else State.stall .tacq { s with core := { s.core with tacqs := s.core.tacqs ++ [s.c] } }) := by
  have hnot : ¬(s.core.claim = none ∧ s.core.tacqs = []) := by tauto
  rw [execTacq_compute hk, hc, if_neg Bool.false_ne_true, if_neg hnot]

/-- The first waiting context receives a free claim, and its TACQ retires. -/
theorem tacqGrant_first {c : Nat} {r : List Nat} (hfree : s.core.claim = none) (hq : s.core.tacqs = c :: r)
    (hrep : (s.getCtx (s.k * 8 + c)).rep.issuing = false) :
    ∃ t, Gives (.tacqGrant s.k) s t ∧ t.core.claim = some c ∧ t.core.tacqs = r ∧ t.cur = s.cur ∧ SameMemory s t ∧
      t.getCtx (s.k * 8 + c) = (s.getCtx (s.k * 8 + c)).retired 8 := by
  let co : Core := { s.core with claim := some c, tacqs := r }
  let t := (s.setCore s.k co).as (s.k * 8 + c) (State.retire 8)
  have hgives : Gives (.tacqGrant s.k) s t := by
    change execTacqGrant s.k s = _
    simp only [execTacqGrant, State.getCore_k, hfree, hq]
    rfl
  have hcur : t.cur = s.cur := by simp [t]
  have hcore : t.core = co := by
    have hkk : t.k = s.k := by rw [State.k, hcur, State.k]
    rw [← State.getCore_k, hkk, State.getCore_asRetire, State.getCore_setCore, if_pos rfl]
  refine ⟨t, hgives, by rw [hcore], by rw [hcore], hcur, fun a => by simp [t], ?_⟩
  rw [State.getCtx_asRetire_same _ _ _ (by simpa using hrep), State.getCtx_setCore]

include hk in
/-- TREL of the holder. -/
theorem execTrel_claimed (hc : s.tclm = true) : execTrel s = .next (
    if s.core.tileq.isEmpty then State.retire 8 { s with core := { s.core with claim := none, release := false } }
    else s.stall .counters) := by rw [execTrel, tileGate_ok hk hc, checked_ok]

end

theorem tileClaim : Claim.TileClaim := by
  intro s hk
  refine ⟨fun hc => ?_, fun hfree hq => ?_, fun hc hbusy => ⟨fun hnew => ?_, fun hin => ?_⟩, fun c r => tacqGrant_first,
    fun hc hq => ?_, fun hc hq => ?_⟩
  · exact done_of_retire (.refl s) ((execTacq_compute hk).trans (by rw [if_pos hc]))
  · refine done_of_retire ⟨rfl, rfl, rfl⟩ ((execTacq_compute hk).trans ?_)
    rw [tclm_of_free hfree, if_neg Bool.false_ne_true, if_pos ⟨hfree, hq⟩]
  · exact (execTacq_busy hk hc hbusy).trans (by rw [if_neg (by simpa using hnew)])
  · exact (execTacq_busy hk hc hbusy).trans (by rw [if_pos (by simpa using hin)])
  · exact done_of_retire ⟨rfl, rfl, rfl⟩ ((execTrel_claimed hk hc).trans (by rw [if_pos (by simp [hq])]))
  · exact (execTrel_claimed hk hc).trans (by rw [if_neg (by simpa using hq)])

/-- Settles O45: the gate decides for every instruction but TACQ, whose cases are the holder, a free claim and a busy one. -/
theorem tileClaims : Obligations.TileClaims := ⟨tileGates, tileClaim⟩

end Sys2Proof.Machine
end

section
/-! NEAR operations are performed (07 R180 to R184, 08 R213): what one that nothing comes before leaves, of the current context and of
one that has ended. -/

namespace Sys2Proof.Machine

open Sys2Proof

/-! ## Writes at the home -/

theorem State.setX_zero (s : State) (v : Word) : s.setX 0 v = s := if_pos rfl

@[simp] theorem State.noteAs_orphans (strm : Bool) (s : State) (keys : List Nat) : (s.noteAs strm keys).orphans = s.orphans := by
  unfold State.noteAs
  split
  · rfl
  · split <;> rfl

@[simp] theorem State.dropCopies_orphans (k : Nat) : ∀ (keys : List Nat) (s : State), (State.dropCopies k s keys).orphans = s.orphans
  | [], _ => rfl
  | a :: r, s => by
    rw [State.dropCopies, State.dropCopies_orphans k r]
    split <;> simp

/-- The bytes of a NEAR operation that core `k` has sent are written. -/
def State.nearWritten (s : State) (k : Nat) (op : PendOp) : State :=
  State.performStore k false (State.touch k s (nearKeys op)) (nearEffect s.mem op).cells

section
variable (s : State) (k : Nat) (op : PendOp)

@[simp] theorem State.nearWritten_ctx : (s.nearWritten k op).ctx = s.ctx := by simp [State.nearWritten]

@[simp] theorem State.nearWritten_cur : (s.nearWritten k op).cur = s.cur := by
  rw [State.nearWritten, State.performStore_cur, (SameSpaces.touch k s _).cur]

@[simp] theorem State.nearWritten_orphans : (s.nearWritten k op).orphans = s.orphans := by
  simp [State.nearWritten, State.touch, State.note]

theorem State.nearWritten_stored : Stored s (s.nearWritten k op) (nearEffect s.mem op).cells :=
  (State.performStore_stored k false _ _).of_mem (SameSpaces.touch k s _).mem

end

theorem Slice.keys_ne_nil (l : Slice) : l.keys ≠ [] := List.append_ne_nil_of_left_ne_nil (by simp [byteKeys]) _

/-! ## The effect on the context -/

/-- The register that a status goes to; where there is none, x0 takes it. -/
def NearEffect.status (e : NearEffect) : Reg × Word := e.reg.getD (0, 0)

/-- What is left of an access when its operation has had an effect. -/
def NearEffect.left (e : NearEffect) (id : Nat) (sites : List (Sys2Proof.Path × Nat)) (sn : Bool) : List Pend :=
  (e.rest.map fun o => (⟨id, o, sites, sn⟩ : Pend)).toList

/-- The current context once its NEAR operation is performed: its saturations counted, its status written, `pend` outstanding. -/
def State.nearLeft (s : State) (op : PendOp) (pend : List Pend) : State :=
  let e := nearEffect s.mem op
  State.setX { s.nearWritten s.k op with ctx := { s.ctx.addPsat e.sat with pend := pend } } e.status.1 e.status.2

theorem Ctx.addPsat_toNat (c : Ctx) (n : Nat) : (c.addPsat n).psat.toNat = min (c.psat.toNat + n) (2 ^ 32 - 1) :=
  Nat.mod_eq_of_lt (by omega)

theorem Ctx.setOp_first {c : Ctx} {id : Nat} {p op : PendOp} {sites : List (Sys2Proof.Path × Nat)} {sn : Bool} {rest : List Pend}
    (hp : c.pend = ⟨id, p, sites, sn⟩ :: rest) (hrest : ∀ q ∈ rest, q.id ≠ id) :
    c.setOp id op = { c with pend := ⟨id, op, sites, sn⟩ :: rest } := by
  have hkeep : rest.map (fun q => if q.id = id then { q with op := op } else q) = rest :=
    (List.map_congr_left fun q hq => if_neg (hrest q hq)).trans (List.map_id' rest)
  rw [Ctx.setOp, hp, List.map_cons, if_pos rfl, hkeep]

/-- Only a performed operation answers a status: none goes with an operation that is left. -/
theorem nearEffect_status_of_rest {m : List Host.Cell} {op o : PendOp} (h : (nearEffect m op).rest = some o) :
    (nearEffect m op).status = (0, 0) := by
  cases op with
  | prescale => cases h
  | psgdm lr mu g mo w mr =>
    cases mr with
    | none =>
      simp only [nearEffect]
      split <;> rfl
    | some => rfl
  | _ => rfl

section
variable {s : State} {id : Nat} {op : PendOp} {sites : List (Sys2Proof.Path × Nat)} {sn : Bool} (hkeys : nearKeys op ≠ [])
  (hpow : s.powered (nearKeys op) = true)
include hkeys hpow

/-- The oldest access of the current context, a NEAR operation that nothing comes before, is performed. -/
theorem State.nearDone_first {rest : List Pend} (hp : s.ctx.pend = ⟨id, op, sites, sn⟩ :: rest) (hrest : ∀ q ∈ rest, q.id ≠ id)
    (hread : s.readsAfter id (nearKeys op) = false) (hwait : s.ctx.wait = .none) :
    s.nearDone 0 = s.nearLeft op ((nearEffect s.mem op).left id sites sn ++ rest) := by
  have hfree : ((nearKeys op).isEmpty ||
      !s.mayRead 0 ⟨id, op, sites, sn⟩ (Pend.sitesOf ⟨id, op, sites, sn⟩) (nearKeys op)) = false := by
    simp [hkeys, State.mayRead, State.mayReach, hread]
  have hcount : (s.ctx.addPsat (nearEffect s.mem op).sat).pend = ⟨id, op, sites, sn⟩ :: rest := hp
  have hgone := Ctx.unpend_first hcount hrest
  simp only [State.nearDone, hp, List.getElem?_cons_zero, hfree, hpow, Bool.not_true, Bool.false_eq_true, if_false]
  rw [← State.nearWritten, State.nearWritten_ctx]
  cases he : (nearEffect s.mem op).rest with
  | some o =>
    rw [State.nearLeft, nearEffect_status_of_rest he, State.setX_zero, NearEffect.left, he]
    exact congrArg (fun c => { s.nearWritten s.k op with ctx := c }) (Ctx.setOp_first hcount hrest)
  | none =>
    rw [State.nearLeft, NearEffect.status, NearEffect.left, he, hgone]
    cases (nearEffect s.mem op).reg with
    | none =>
      rw [State.settleHere_none (by exact hwait)]
      exact (State.setX_zero ..).symm
    | some e => exact State.settleHere_none (by rw [State.setX_ctx_wait]; exact hwait)

/-- NEAR_ACK of the oldest access of the current context, when nothing comes before it. -/
theorem nearAck_own {rest : List Pend} (hp : s.ctx.pend = ⟨id, op, sites, sn⟩ :: rest) (hrest : ∀ q ∈ rest, id < q.id)
    (hread : s.readsAfter id (nearKeys op) = false) (hwait : s.ctx.wait = .none) :
    let e := nearEffect s.mem op
    ∃ t, Gives (.nearAck (some s.cur) 0) s t ∧ Stored s t e.cells ∧ t.ctx.pend = e.left id sites sn ++ rest ∧
      t.ctx.psat.toNat = min (s.ctx.psat.toNat + e.sat) (2 ^ 32 - 1) ∧ XHolds s t e.status.1 e.status.2 := by
  intro e
  have hdone := State.nearDone_first hkeys hpow hp (fun q hq => (hrest q hq).ne') hread hwait
  refine ⟨s.nearLeft op (e.left id sites sn ++ rest), ?_, ?_, ?_, ?_, fun r => State.setX_x ..⟩
  · change Host.Outcome.next (s.as s.cur fun s => s.nearDone 0) = _
    rw [State.as_self (by rw [hdone, State.nearLeft, State.setX_cur, State.nearWritten_cur]), hdone]
  · intro hwf a
    rw [State.nearLeft, State.setX_mem]
    exact s.nearWritten_stored s.k op hwf a
  · exact State.setX_ctx_pend ..
  · rw [State.nearLeft, State.setX_ctx_psat]
    exact Ctx.addPsat_toNat ..

/-- A NEAR operation that an ended context left is performed when no earlier command of it reads the words it writes. -/
theorem nearAck_orphan {k : Nat} {left : List (Nat × Pend)} (ho : s.orphans = (k, ⟨id, op, sites, sn⟩) :: left)
    (hcmd : s.cmdBefore k id op.writes = false) :
    let e := nearEffect s.mem op
    ∃ t, Gives (.nearAck none 0) s t ∧ Stored s t e.cells ∧ t.orphans = (e.left id sites sn).map (k, ·) ++ left ∧
      t.ctx.x = s.ctx.x := by
  intro e
  have hfree : ((nearKeys op).isEmpty || !s.orphanFree 0) = false := by simp [hkeys, State.orphanFree, ho, hcmd]
  refine ⟨{ s.nearWritten (k / 8) op with orphans := (e.left id sites sn).map (k, ·) ++ left }, ?_, s.nearWritten_stored _ op, rfl,
    congrArg Ctx.x (s.nearWritten_ctx ..)⟩
  change Host.Outcome.next (s.orphanNear 0) = _
  simp only [State.orphanNear, ho, List.getElem?_cons_zero, hfree, hpow, Bool.not_true, Bool.false_eq_true, if_false]
  rw [← State.nearWritten, State.nearWritten_orphans, ho]
  cases he : (nearEffect s.mem op).rest <;> simp [e, NearEffect.left, he, replaceAt, removeAt]

end

/-- Settles O26: each operation is its effect at the home, which the oldest access of its context has, and the first of those left. -/
theorem nearAcks : Obligations.NearAcks := by
  intro s id k hs sn rest left op hpow hwait hrest hread made
  have hmade {o : PendOp} (e : NearEffect) (hop : op = o) (hkeys : nearKeys o ≠ []) (he : nearEffect s.mem o = e) :
      made e.cells e.sat e.status.1 e.status.2 e.rest := by
    subst hop he
    refine ⟨fun hp => nearAck_own hkeys hpow hp hrest hread hwait, fun ho hcmd => ?_⟩
    obtain ⟨t, hgives, hstored, hleft, hx⟩ := nearAck_orphan hkeys hpow ho hcmd
    refine ⟨t, hgives, hstored, hleft.trans ?_, hx⟩
    cases h : (nearEffect s.mem op).rest <;> simp [NearEffect.left, h]
  refine ⟨fun d f b hop => hmade ⟨_, 0, some (d, _), none⟩ hop b.keys_ne_nil rfl,
    fun w x b hop => hmade ⟨_, _, none, none⟩ hop b.keys_ne_nil rfl, fun lr mu g m w hop => ?_, fun lr mu g m w mr hop => ?_,
    fun d r hop => ?_, fun o n pa x c hop hn => ?_⟩
  · have hkeys : m.keys ++ w.keys ≠ [] := List.append_ne_nil_of_left_ne_nil m.keys_ne_nil _
    refine ⟨fun hnone => hmade ⟨[], 0, none, none⟩ hop hkeys ?_,
      fun cells sat mr hsome => hmade ⟨cells, sat, none, some _⟩ hop hkeys ?_⟩
    · simp only [nearEffect, hnone]
    · simp only [nearEffect, hsome]
  · exact hmade ⟨_, _, none, none⟩ hop (List.append_ne_nil_of_left_ne_nil m.keys_ne_nil _) rfl
  · exact hmade ⟨_, 0, none, none⟩ hop (List.append_ne_nil_of_left_ne_nil d.keys_ne_nil _) rfl
  · exact hmade ⟨_, 0, none, none⟩ hop (by simpa [nearKeys, byteKeys] using hn.ne') rfl

end Sys2Proof.Machine
end

section
/-! Stores are acknowledged (08 R193, 11 R284, R287): the current context's own, and those that ended contexts left. -/

namespace Sys2Proof.Machine

open Sys2Proof

/-! ## The current core -/

theorem State.getCore_current (s : State) : s.getCore s.k = s.core := if_pos rfl

theorem State.setCore_current (s : State) (c : Core) : s.setCore s.k c = { s with core := c } := if_pos rfl

theorem State.modCore_current (s : State) (f : Core → Core) : s.modCore s.k f = { s with core := f s.core } := by
  rw [State.modCore, State.setCore_current, State.getCore_current]

/-! ## The registry (R287) -/

@[simp] theorem State.modCore_owners (s : State) (k : Nat) (f : Core → Core) : (s.modCore k f).owners = s.owners := by
  unfold State.modCore State.setCore
  split <;> rfl

theorem State.performByte_owners (k : Nat) (s : State) (a : Nat) (b : Byte) :
    (s.performByte k true a b).owners = if cachedKey a then Machine.put s.owners (a / 8) k else s.owners := by
  unfold State.performByte
  cases cachedKey a <;> simp [State.setMem]

/-- A core that stores on the CORE path owns the cached words it writes, and loses none. -/
theorem State.performStore_owners {k w : Nat} : ∀ (l : List Host.Cell) (s : State),
    (find s.owners w = some k ∨ ∃ e ∈ l, cachedKey e.1 = true ∧ e.1 / 8 = w) → find (State.performStore k true s l).owners w = some k
  | [], _, h => h.resolve_right (by simp)
  | (a, b) :: l, s, h => by
    refine State.performStore_owners l _ ?_
    rw [State.performByte_owners]
    rcases h with hown | ⟨e, he, hc, hw⟩
    · refine .inl ?_
      split
      · rw [find_put, hown, ite_self]
      · exact hown
    · rcases List.mem_cons.mp he with rfl | he
      · exact .inl (by rw [if_pos hc, find_put, if_pos hw.symm])
      · exact .inr ⟨e, he, hc, hw⟩

/-! ## Acknowledgements -/

section
variable {s : State} {id : Nat} {path : Sys2Proof.Path} {cells : List Host.Cell} {sn : Bool} {sites : List (Sys2Proof.Path × Nat)}
  (hctl : (cells.head?.bind fun e => ctlOf e.1) = none) (hpow : s.powered (cells.map (·.1)) = true)
include hctl hpow

theorem storeAck_own {rest : List Pend} (hp : s.ctx.pend = ⟨id, .store path [cells], sites, sn⟩ :: rest) (hrest : ∀ q ∈ rest, id < q.id)
    (hread : s.readBefore id (cells.map (·.1)) = false) : Gives (.storeAck (some s.cur) 0) s
      { State.performStore s.k (path == .core) s cells with ctx := { s.ctx with pend := rest } } := by
  have hdone := State.storeDone_first hp (fun q hq => (hrest q hq).ne') hctl hread hpow
  change Host.Outcome.next (s.as s.cur fun t => t.storeDone 0) = _
  rw [State.as_self (by rw [hdone, State.performStore_cur]), hdone]

theorem storeAck_orphan {k : Nat} {left : List (Nat × Pend)} (ho : s.orphans = (k, ⟨id, .store path [cells], sites, sn⟩) :: left)
    (hcmd : s.cmdBefore k id (cells.map (·.1)) = false) : Gives (.storeAck none 0) s
      { State.performStore (k / 8) (path == .core) s cells with orphans := left } := by
  have hfree : s.orphanFree 0 = true := by simp [State.orphanFree, ho, PendOp.writes, hcmd]
  change Host.Outcome.next (s.orphanStore 0) = _
  simp [State.orphanStore, ho, hfree, hpow, State.storeBatch, State.performCells, hctl, removeAt]

end

/-- Settles O11: the store's cells are performed, which on the CORE path also makes their words the core's. -/
theorem storeAcks : Obligations.StoreAcks := by
  intro s id k path cells sn sites rest left hpow hplain
  have hctl : (cells.head?.bind fun e => ctlOf e.1) = none := by
    cases cells with
    | nil => rfl
    | cons e l => exact hplain e List.mem_cons_self
  refine ⟨fun hp hrest hread => ⟨_, storeAck_own hctl hpow hp hrest hread, ?_, rfl, ?_⟩,
    fun ho hcmd => ⟨_, storeAck_orphan hctl hpow ho hcmd, ?_, State.performStore_ctx .., rfl⟩⟩
  · exact State.performStore_stored _ _ cells s
  · rintro rfl e he hc
    exact State.performStore_owners cells s (.inr ⟨e, he, hc, rfl⟩)
  · exact State.performStore_stored _ _ cells s

end Sys2Proof.Machine
end

section
/-! Records that an instruction reads in the middle of its effect (08 R191, R197, R207): their checks, and their words in memory that no
L1 holds. -/

namespace Sys2Proof.Machine

open Sys2Proof

/-! ## What a read notes (10 R257) -/

/-- The state with other reads noted. -/
def State.withRead (s : State) (l : List (Bool × Nat × Nat × Nat)) : State := { s with read := l }

theorem State.note_eq (s : State) (keys : List Nat) : ∃ l, s.note keys = s.withRead l := by
  unfold State.note State.noteAs
  split
  · exact ⟨s.read, rfl⟩
  · split
    · exact ⟨s.read, rfl⟩
    · exact ⟨_, rfl⟩

theorem State.readingWords_eq : ∀ (keys : List Nat) (s : State), ∃ l, s.readingWords keys = s.withRead l
  | [], s => ⟨s.read, rfl⟩
  | k :: keys, s => by
    obtain ⟨l, hl⟩ := s.note_eq (byteKeys k 8)
    obtain ⟨m, hm⟩ := State.readingWords_eq keys (s.withRead l)
    refine ⟨m, ?_⟩
    change (s.note (byteKeys k 8)).readingWords keys = _
    rw [hl, hm]
    rfl

theorem SameSpaces.withRead (s : State) (l : List (Bool × Nat × Nat × Nat)) : SameSpaces s (s.withRead l) :=
  ⟨rfl, rfl, rfl, rfl, rfl, rfl, rfl, rfl, rfl⟩

theorem SameSpaces.readingWords (s : State) (keys : List Nat) : SameSpaces s (s.readingWords keys) := by
  obtain ⟨l, hl⟩ := State.readingWords_eq keys s
  rw [hl]
  exact .withRead s l

@[simp] theorem State.readingWords_ctx (s : State) (keys : List Nat) : (s.readingWords keys).ctx = s.ctx := by
  obtain ⟨l, hl⟩ := State.readingWords_eq keys s
  rw [hl]
  rfl

@[simp] theorem State.readingWords_x (s : State) (keys : List Nat) (r : Reg) : (s.readingWords keys).x r = s.x r := by
  rw [State.x, State.readingWords_ctx, State.x]

theorem SameControl.readingWords (s : State) (keys : List Nat) : SameControl s (s.readingWords keys) := by simp [SameControl]

theorem SameControl.issuing (s : State) (op : PendOp) (homes : List Nat) : SameControl s (s.issuing op homes) := ⟨rfl, rfl, rfl⟩

/-! ## Checked addresses -/

theorem aligned_ok {v : Word} {n : Nat} (h : v.toNat % 2 ^ n = 0) : aligned v n = .ok () := by simp [aligned, require, h]

theorem aligned_error {v : Word} {n : Nat} (h : v.toNat % 2 ^ n ≠ 0) : aligned v n = .error (alignTrap v) := by
  simp [aligned, require, h]

theorem addrsFrom_succ (va : Word) (n c : Nat) :
    addrsFrom va n (c + 1) = va :: addrsFrom (va + BitVec.ofNat 64 n) n c := by
  rw [addrsFrom, List.range_succ_eq_map, List.map_cons, List.map_map]
  refine congrArg₂ List.cons (by simp) (List.map_congr_left fun i _ => ?_)
  rw [Function.comp_apply, Nat.succ_eq_add_one, Nat.mul_add_one, Nat.add_comm, BitVec.ofNat_add, BitVec.add_assoc]

/-- The loads of `c` pieces of `n` bytes from an address on, checked in order: `State.loadBlock` of words and `State.payloadAt` of
bytes. -/
def State.loadsFrom (s : State) (n : Nat) (va : Word) : Nat → Except Trap (List LaneSrc)
  | 0 => .ok []
  | c + 1 =>
    match s.loadCheck va n with
    | .error t => .error t
    | .ok a =>
      match s.loadsFrom n (va + BitVec.ofNat 64 n) c with
      | .error t => .error t
      | .ok r => .ok (a :: r)

theorem State.loadBlock_eq (s : State) : ∀ (c : Nat) (va : Word), s.loadBlock va c = s.loadsFrom 8 va c
  | 0, _ => rfl
  | c + 1, va => by
    rw [State.loadBlock, State.loadsFrom, State.loadBlock_eq s c]
    rfl

theorem State.payloadAt_eq (s : State) : ∀ (c : Nat) (va : Word), s.payloadAt va c = s.loadsFrom 1 va c
  | 0, _ => rfl
  | c + 1, va => by
    rw [State.payloadAt, State.loadsFrom, State.payloadAt_eq s c]
    rfl

theorem SameSpaces.loadsFrom {s t : State} (h : SameSpaces s t) (n : Nat) : ∀ (c : Nat) (va : Word),
    t.loadsFrom n va c = s.loadsFrom n va c
  | 0, _ => rfl
  | c + 1, va => by rw [State.loadsFrom, State.loadsFrom, h.loadCheck, h.loadsFrom n c]

theorem mem_sources {keys homes : List Nat} {l : LaneSrc} (h : l ∈ sources keys homes) : ∃ k home, l = .mem k home := by
  obtain ⟨e, -, rfl⟩ := List.mem_map.mp h
  exact ⟨_, _, rfl⟩

theorem srcKeys_sources : ∀ {keys homes : List Nat}, homes.length = keys.length → srcKeys (sources keys homes) = keys
  | [], _, _ => rfl
  | _ :: keys, _ :: homes, h => congrArg (List.cons _) (srcKeys_sources (keys := keys) (homes := homes) (Nat.succ_injective h))

theorem indexWords_mem {s : State} {va : Word} {n key home : Nat} (h : s.loadCheck va n = .ok (.mem key home)) : s.indexWords va n = .val 0 := by
  rw [State.loadCheck] at h
  split at h
  · cases h
  · rw [State.indexWords]
    grind

/-- Loads that lead to memory addresses read no index words. -/
theorem State.indexesOf_sources {s : State} {n : Nat} : ∀ {c : Nat} {va : Word} {r : List LaneSrc}, s.loadsFrom n va c = .ok r →
    (∀ l ∈ r, ∃ k home, l = .mem k home) → ∀ l ∈ s.indexesOf n (addrsFrom va n c), l = .val 0
  | 0, _, _, _, _, l, hl => by cases hl
  | c + 1, va, r, h, hmem, l, hl => by
    rw [State.loadsFrom] at h
    split at h
    · cases h
    next a ha =>
    split at h
    · cases h
    next r hr =>
    cases h
    rw [addrsFrom_succ, State.indexesOf, ha] at hl
    rcases List.mem_cons.mp hl with rfl | hl
    · obtain ⟨k, home, rfl⟩ := hmem a List.mem_cons_self
      exact indexWords_mem ha
    · exact State.indexesOf_sources hr (fun l hl => hmem l (List.mem_cons_of_mem _ hl)) l hl

theorem State.whenIndexed_sources {s : State} {n c : Nat} {va : Word} {keys homes : List Nat}
    (h : s.loadsFrom n va c = .ok (sources keys homes)) (f : State → Out) : s.whenIndexed (s.indexesOf n (addrsFrom va n c)) f = f s := by
  have hval := State.indexesOf_sources h fun l hl => mem_sources hl
  have hfree : (s.indexesOf n (addrsFrom va n c)).all s.indexFree = true :=
    List.all_eq_true.mpr fun l hl => by rw [hval l hl]; rfl
  have hkeys : (s.indexesOf n (addrsFrom va n c)).flatMap (·.indexKeys) = [] :=
    List.flatMap_eq_nil_iff.mpr fun l hl => by rw [hval l hl]; rfl
  rw [State.whenIndexed, if_pos hfree, hkeys, State.touch_nil]

/-! ## The words of a record -/

/-- The `n` words from an address on lie at keys of memory that no L1 holds, and the context may read them now. -/
structure State.RecordAt (s : State) (va : Word) (n : Nat) (keys homes : List Nat) : Prop where
  length : homes.length = keys.length
  checks : s.loadBlock va n = .ok (sources keys homes)
  plain : ∀ k ∈ keys, cachedKey k = false ∧ ctlOf k = none
  powered : s.powered keys = true
  free : s.readsAfter s.nextId keys = false

theorem State.readWords_sources {keys : List Nat} : ∀ {homes : List Nat} (s : State), homes.length = keys.length →
    (∀ k ∈ keys, cachedKey k = false ∧ ctlOf k = none) →
    s.readWords (sources keys homes) = (keys.map (Mem.word s.mem), s.readingWords keys) := by
  induction keys with
  | nil => exact fun _ _ _ => rfl
  | cons k keys ih =>
    intro homes s hlen hplain
    obtain ⟨home, homes, rfl⟩ := List.exists_cons_of_length_eq_add_one hlen
    obtain ⟨hc, hctl⟩ := hplain k List.mem_cons_self
    obtain ⟨l, hl⟩ := s.note_eq (byteKeys k 8)
    have hrest : s.readingWords (k :: keys) = (s.note (byteKeys k 8)).readingWords keys := rfl
    have hmem : (s.note (byteKeys k 8)).mem = s.mem := by rw [hl]; rfl
    have hsrc : sources (k :: keys) (home :: homes) = .mem k home :: sources keys homes := rfl
    rw [hsrc, State.readWords, coreRead_uncached hctl hc, hrest]
    dsimp only
    rw [ih _ (Nat.succ_injective hlen) fun k hk => hplain k (List.mem_cons_of_mem _ hk), hmem]
    rfl

section
variable {s : State} {va : Word} {n : Nat} {keys homes : List Nat} (h : s.RecordAt va n keys homes)
include h

theorem State.checkedBlock_record (f : List LaneSrc → State → Out) : s.checkedBlock va n f = f (sources keys homes) s := by
  rw [State.checkedBlock, State.whenIndexed_sources (by rw [← State.loadBlock_eq]; exact h.checks), h.checks]

theorem State.withRecord_record (w : Wait) (f : List Word → State → Out) :
    s.withRecord (sources keys homes) w f = f (keys.map (Mem.word s.mem)) (s.readingWords keys) := by
  have hfree : (s.powered keys && !s.readsAfter s.nextId keys) = true := by simp [h.powered, h.free]
  rw [State.withRecord, srcKeys_sources h.length, if_pos hfree, State.readWords_sources s h.length h.plain]

end

end Sys2Proof.Machine
end

section
/-! Task, join and tile records (08 R188 to R192, R207, R208, 12 R308). -/

namespace Sys2Proof.Machine

open Sys2Proof

/-! ## Releasing -/

theorem Ctx.drained_of {c : Ctx} (hl : c.ldc = 0) (hs : c.stc = 0) : c.drained = true := (Ctx.drained_iff c).mpr ⟨hl, hs⟩

theorem Ctx.not_drained_of {c : Ctx} (h : c.ldc ≠ 0 ∨ c.stc ≠ 0) : c.drained = false := by
  rw [Bool.eq_false_iff, ne_eq, Ctx.drained_iff]
  omega

/-! ## The deque of the current core (R308) -/

theorem State.pushTask_room {s : State} (h : s.core.deque.length < 64) (t : TaskRec) :
    State.pushTask s.k s t = { s with core := { s.core.endThief with deque := s.core.deque ++ [t] } } := by
  rw [State.pushTask, State.getCore_current]
  exact (if_pos h).trans (State.setCore_current ..)

/-- A full deque gives its oldest record to its siding. -/
theorem State.pushTask_full {s : State} {old : TaskRec} {l : List TaskRec} (hdeque : s.core.deque = old :: l)
    (hfull : 64 ≤ s.core.deque.length) (hroom : s.core.siding.length < Config.dequeSidingSize) (t : TaskRec) :
    State.pushTask s.k s t = State.sideTask s.k { s with core := { s.core.endThief with deque := l ++ [t] } } old := by
  have hd : s.core.endThief.deque = old :: l := hdeque
  rw [State.pushTask, State.getCore_current]
  refine (if_neg (Nat.not_lt.mpr hfull)).trans ((if_neg (Nat.not_le.mpr hroom)).trans ?_)
  rw [hd, State.setCore_current]
  rfl

/-- A record in the siding of the current core, in no memory. -/
def State.sided (s : State) (r : TaskRec) : State :=
  { s with core := { s.core with siding := s.core.siding ++ [r], dqIn := s.core.dqIn + 1 } }

theorem State.sideTask_current (s : State) (r : TaskRec) : State.sideTask s.k s r =
    match s.core.dqAt with
    | some p => (s.sided r).homeWrite
        (cellsAt (p + 64 * (s.core.dqIn % Config.dequeSidingSize)) (r.words.flatMap fun w => leBytes 8 w.toNat))
    | none => s.sided r := by
  rw [State.sideTask, State.getCore_current, State.setCore_current]
  rfl

theorem State.homeWrite_powered {s : State} {cells : List Host.Cell} (h : s.powered (cells.map (·.1)) = true) :
    s.homeWrite cells = s.homeStore cells := by
  rw [State.homeWrite, h]
  rfl

/-! ## FORK (R188 to R191) -/

section
variable {s : State} {a : Reg} {keys homes : List Nat} (halign : (s.x a).toNat % 64 = 0) (hrec : s.RecordAt (s.x a) 8 keys homes)
include halign hrec

theorem exec_fork_record : exec (.fork a) s = s.releasing (.fork a) fun s =>
    s.withRecord (sources keys homes) (.release (.fork a)) (forkRecord a) := by
  change execFork a s = _
  rw [execFork, aligned_ok halign]
  exact State.checkedBlock_record hrec _

theorem exec_fork_drained (hd : s.ctx.drained = true) :
    exec (.fork a) s = forkRecord a (keys.map (Mem.word s.mem)) (s.readingWords keys) := by
  rw [exec_fork_record halign hrec, State.releasing_drained _ _ _ hd, State.withRecord_record hrec]

end

section
variable {s : State} {a : Reg} {ws : List Word}

theorem forkRecord_refused (h : taskOk ws = false) : forkRecord a ws s = .next (s.trap ⟨1, 1, s.x a⟩) := by
  rw [forkRecord, h]
  rfl

theorem forkRecord_pushes (h : taskOk ws = true) (hh : s.ctx.hnd = false) :
    forkRecord a ws s = .next (State.retire 8 (State.pushTask s.k s (.ofWords ws))) := by
  simp [forkRecord, h, hh, require, checked]

theorem forkRecord_held (h : taskOk ws = true) (hh : s.ctx.hnd = true) (h4 : heldForks s.ctx.heldq < 4) : forkRecord a ws s =
    .next (State.retire 8 { s with ctx := { s.ctx with heldq := s.ctx.heldq ++ [.fork (.ofWords ws)] } }) := by
  simp [forkRecord, h, hh, require, checked, Nat.not_le.mpr h4]

theorem forkRecord_full (h : taskOk ws = true) (hh : s.ctx.hnd = true) (h4 : 4 ≤ heldForks s.ctx.heldq) :
    forkRecord a ws s = .next (s.trapFull 4 0) := by
  simp [forkRecord, h, hh, require, checked, h4]

end

theorem forks : Claim.Forks := by
  intro s a keys homes hlen halign hchecks hplain hpow hfree ws rec' s' joins
  have hrec : s.RecordAt (s.x a) 8 keys homes := ⟨hlen, hchecks, hplain, hpow, hfree⟩
  refine ⟨fun h => ?_, fun hldc hstc => ?_⟩
  · rw [Waits, exec_fork_record halign hrec, State.releasing_waits _ _ _ (Ctx.not_drained_of h)]
  have hexec : exec (.fork a) s = forkRecord a ws s' := exec_fork_drained halign hrec (Ctx.drained_of hldc hstc)
  obtain ⟨l, hl⟩ : ∃ l, s' = s.withRead l := State.readingWords_eq keys s
  clear_value s'
  subst hl
  refine ⟨fun hbad => hexec.trans (forkRecord_refused hbad), fun hok hh => ?_, fun hok hh => ?_⟩
  · have hpush := hexec.trans (forkRecord_pushes hok hh)
    refine ⟨fun hroom => ?_, fun old m hdeque hfull hside => ?_⟩
    · rw [State.pushTask_room (s := s.withRead l) hroom] at hpush
      exact done_of_retire ⟨rfl, rfl, rfl⟩ hpush
    intro t
    have hfirst : State.pushTask (s.withRead l).k (s.withRead l) rec' =
        match s.core.dqAt with
        | some p => t.homeWrite (cellsAt (p + 64 * (s.core.dqIn % 2 ^ 20)) (old.words.flatMap fun w => leBytes 8 w.toNat))
        | none => t := (State.pushTask_full (s := s.withRead l) hdeque hfull hside rec').trans (State.sideTask_current ..)
    rw [hfirst] at hpush
    refine ⟨fun hat => ?_, fun p hat => ?_⟩
    · rw [hat] at hpush
      exact done_of_retire ⟨rfl, rfl, rfl⟩ hpush
    · intro cells hcells
      have ht : SameSpaces s t := ⟨rfl, rfl, rfl, rfl, rfl, rfl, rfl, rfl, rfl⟩
      have hunits := SameUnits.homeStore cells t
      have hctx : (t.homeStore cells).ctx = s.ctx := hunits.ctx
      simp only [hat] at hpush
      rw [State.homeWrite_powered (by rw [ht.powered]; exact hcells)] at hpush
      exact ⟨t.homeStore cells, done_of_retire (by rw [SameControl, hctx]; exact ⟨rfl, rfl, rfl⟩) hpush, hctx, hunits.core,
        State.homeStore_stored cells t⟩
  · exact ⟨fun h4 => done_of_retire ⟨rfl, rfl, rfl⟩ (hexec.trans (forkRecord_held hok hh h4)),
      fun h4 => hexec.trans (forkRecord_full hok hh h4)⟩

/-! ## JREC (R192) -/

theorem SameSpaces.blockHomes {s t : State} (h : SameSpaces s t) : t.blockHomes = s.blockHomes := by
  funext va ks
  rw [State.blockHomes, State.blockHomes, h.homeAt]

section
variable {s : State} {a b c : Reg} {ks keys homes : List Nat} (ha : (s.x a).toNat % 128 = 0) (hc : (s.x c).toNat % 64 = 0)
  (hstore : s.storeBlock (s.x a) 16 = .ok ks) (hrec : s.RecordAt (s.x c) 8 keys homes)
include ha hc hstore hrec

theorem exec_jrec_count (hb : ¬(1 ≤ (s.x b).toInt ∧ (s.x b).toInt < 2 ^ 32)) : Traps (.jrec a b c) s ⟨1, 1, s.x b⟩ := by
  have hbad : (s.x b).toInt < 1 ∨ 0xFFFFFFFF < (s.x b).toInt := by omega
  change execJrec a b c s = _
  simp only [execJrec, aligned_ok (n := 7) ha, aligned_ok (n := 6) hc, andThen, hstore, State.checkedBlock_record hrec, if_pos hbad]
  rfl

/-- With nothing outstanding and a count in its range, JREC comes to its template. -/
theorem exec_jrec_template (hb : 1 ≤ (s.x b).toInt ∧ (s.x b).toInt < 2 ^ 32) (hpend : s.ctx.pend = []) (hpows : s.powered ks = true) :
    exec (.jrec a b c) s = checked (s.readingWords keys) (require (taskOk (keys.map (Mem.word s.mem))) (illegalVal (s.x c))) fun _ =>
      State.retire 8 ((s.readingWords keys).issuing (.store .core [joinCells ks (s.x b) (keys.map (Mem.word s.mem))])
        (s.blockHomes (s.x a) ks)) := by
  have hgood : ¬((s.x b).toInt < 1 ∨ 0xFFFFFFFF < (s.x b).toInt) := by omega
  have hfirst : s.readsFirst (sources keys homes) = false := by simp [State.readsFirst, hpend, srcKeys_sources hrec.length, hrec.free]
  have hspaces : SameSpaces s (s.readingWords keys) := .readingWords s keys
  have hwake : (s.readingWords keys).wakeFor ks = s.readingWords keys :=
    State.wakeFor_powered ks _ (by rw [hspaces.powered, hpows])
  change execJrec a b c s = _
  simp only [execJrec, aligned_ok (n := 7) ha, aligned_ok (n := 6) hc, andThen, hstore, State.checkedBlock_record hrec, if_neg hgood,
    hfirst, State.withRecord_record hrec, Bool.false_eq_true, if_false, State.readingWords_x, hspaces.blockHomes, hwake]
  rfl

end

theorem joinRecords : Claim.JoinRecords := by
  intro s a b c ks keys homes hlen ha hc hstore hchecks hplain hpend hpow hpows hfree t s' counts
  have hrec : s.RecordAt (s.x c) 8 keys homes := ⟨hlen, hchecks, hplain, hpow, hfree⟩
  have hexec (hb : counts) := exec_jrec_template ha hc hstore hrec hb hpend hpows
  refine ⟨fun hb hok => ?_, fun hb hbad => ?_, exec_jrec_count ha hc hstore hrec⟩
  · have hdone := hexec hb
    rw [show taskOk (keys.map (Mem.word s.mem)) = true from hok] at hdone
    exact done_of_retire ((SameControl.readingWords s keys).trans (.issuing ..)) hdone
  · have htrap := hexec hb
    rw [show taskOk (keys.map (Mem.word s.mem)) = false from hbad] at htrap
    exact htrap

/-! ## TQPUT (R207, R208) -/

section
variable {s : State} {d a b : Reg} {ws : List Word}

theorem tqputRecord_refused (h : tileOk ws = false) : tqputRecord d a b ws s = .next (s.trap ⟨1, 1, s.x a⟩) := by
  rw [tqputRecord, h]
  rfl

theorem tqputRecord_full (h : tileOk ws = true) (hfull : 16 ≤ (s.tileq (boxOf s.k * 64 + (s.x b).toNat)).length) :
    tqputRecord d a b ws s = .next (State.retire 8 (s.setX d (ofI (-1)))) := by
  simp only [tqputRecord, h, require, checked, if_true, if_pos hfull]
  rfl

theorem tqputRecord_enters (h : tileOk ws = true) (hroom : (s.tileq (boxOf s.k * 64 + (s.x b).toNat)).length < 16) :
    let q := boxOf s.k * 64 + (s.x b).toNat
    tqputRecord d a b ws s = .next (State.retire 8
      (State.setX (s.setTileq q (s.tileq q ++ [⟨ws, s.x a, s.ctx.prv, none, 0, 0, 0⟩])) d 0)) := by
  simp only [tqputRecord, h, require, checked, if_true, if_neg (Nat.not_le.mpr hroom)]

end

section
variable {s : State} {d a b : Reg} {keys homes : List Nat} (hh : s.ctx.hnd = false) (ha : (s.x a).toNat % 128 = 0)
  (hrec : s.RecordAt (s.x a) 16 keys homes)
include hh ha hrec

theorem exec_tqput_beyond (hb : 64 ≤ (s.x b).toNat) : Traps (.tqput d a b) s ⟨1, 1, s.x b⟩ := by
  change execTqput d a b s = _
  simp only [execTqput, State.notHandler, hh, aligned_ok (n := 7) ha, andThen, State.checkedBlock_record hrec]
  exact if_pos hb

theorem exec_tqput_record (hb : (s.x b).toNat < 64) : exec (.tqput d a b) s = s.releasing (.tqput d a b) fun s =>
    s.withRecord (sources keys homes) (.release (.tqput d a b)) (tqputRecord d a b) := by
  change execTqput d a b s = _
  simp only [execTqput, State.notHandler, hh, aligned_ok (n := 7) ha, andThen, State.checkedBlock_record hrec]
  exact if_neg (by omega)

end

theorem tilePuts : Claim.TilePuts := by
  intro s d a b keys homes hlen hh ha hchecks hplain hpow hfree ws q s'
  have hrec : s.RecordAt (s.x a) 16 keys homes := ⟨hlen, hchecks, hplain, hpow, hfree⟩
  refine ⟨fun hb h => ?_, fun hb hldc hstc => ?_, exec_tqput_beyond hh ha hrec⟩
  · rw [Waits, exec_tqput_record hh ha hrec hb, State.releasing_waits _ _ _ (Ctx.not_drained_of h)]
  have hexec : exec (.tqput d a b) s = tqputRecord d a b ws s' := by
    rw [exec_tqput_record hh ha hrec hb, State.releasing_drained _ _ _ (Ctx.drained_of hldc hstc), State.withRecord_record hrec]
  obtain ⟨l, hl⟩ : ∃ l, s' = s.withRead l := State.readingWords_eq keys s
  clear_value s'
  subst hl
  exact ⟨fun hok hroom => done_of_retire (.setX (State.setTileq (s.withRead l) ..) d 0) (hexec.trans (tqputRecord_enters hok hroom)),
    fun hok hfull => done_of_retire (.setX (s.withRead l) d _) (hexec.trans (tqputRecord_full hok hfull)),
    fun hbad => hexec.trans (tqputRecord_refused hbad)⟩

/-- Settles O48: the record is read as it stands, and then FORK, JREC and TQPUT do with it what its words allow. -/
theorem taskRecords : Obligations.TaskRecords := ⟨forks, joinRecords, tilePuts⟩

end Sys2Proof.Machine
end

section
/-! YIELD, GQNEXT, QRND and the rounds that QRND starts (08 R196, R211, R212). -/

namespace Sys2Proof.Machine

open Sys2Proof

/-! ## YIELD and GQNEXT -/

theorem yield_done (s : State) : Done .yield s { s with
    ctx := { s.ctx with eff := s.ctx.lvl, aging := 0 }, core := { s.core with last := s.c } } 8 :=
  done_of_retire ⟨rfl, rfl, rfl⟩ rfl

section
variable {s : State} (d : Reg)

theorem gqnext_elsewhere (hk : isGateway s.k = false) : Traps (.gqnext d) s ⟨1, 2, low64 (.gqnext d)⟩ := by
  change execGqnext d s = _
  simp only [execGqnext, hk]
  rfl

theorem gqnext_hands (hk : isGateway s.k = true) (hn : s.core.gqNext.toNat < s.core.gqCount.toNat) : Done (.gqnext d) s
    (State.setX { s with core := { s.core with gqNext := s.core.gqNext + 1 } } d (ofN s.core.gqNext.toNat)) 8 := by
  refine done_of_retire (SameControl.trans ⟨rfl, rfl, rfl⟩ (.setX _ d _)) ?_
  change execGqnext d s = _
  have hword : s.core.gqNext.zeroExtend 64 = ofN s.core.gqNext.toNat := (BitVec.ofNat_toNat ..).symm
  simp only [execGqnext, hk, require, checked, if_true, if_pos hn, hword]

theorem gqnext_past (hk : isGateway s.k = true) (hn : s.core.gqCount.toNat ≤ s.core.gqNext.toNat) :
    Done (.gqnext d) s (s.setX d (ofI (-1))) 8 := by
  refine done_of_retire (.setX s d _) ?_
  change execGqnext d s = _
  simp only [execGqnext, hk, require, checked, if_true, if_neg (Nat.not_lt.mpr hn)]
  rfl

end

/-! ## QRND (R211) -/

section
variable {s : State} {a b : Reg} (d : Reg)

theorem qrnd_handler (hh : s.ctx.hnd = true) : Traps (.qrnd d a b) s ⟨1, 2, low64 (.qrnd d a b)⟩ := by
  change execQrnd d a b s = _
  simp only [execQrnd, State.notHandler, hh]
  rfl

section
variable {key : Nat} (hh : s.ctx.hnd = false) (ha : (s.x a).toNat % 8 = 0) (hkey : s.storeCheck (s.x a) 8 .w = .ok key)
include hh ha hkey

theorem qrnd_starts {n : Nat} {p : Part} (hpart : s.partOf s.k = some (n, p)) (hround : p.round = none) : Done (.qrnd d a b) s
    (State.setX (s.setPart n { p with round := some ⟨key, s.x b, 0, true⟩ }) d 0) 8 := by
  refine done_of_retire (SameControl.trans ⟨rfl, rfl, rfl⟩ (.setX _ d _)) ?_
  change execQrnd d a b s = _
  simp only [execQrnd, State.notHandler, hh, aligned_ok (n := 3) ha, andThen, hkey, checked, require, hpart, hround]
  rfl

theorem qrnd_refuses (hbusy : ∀ n p, s.partOf s.k = some (n, p) → p.round ≠ none) : Done (.qrnd d a b) s (s.setX d (ofI (-1))) 8 := by
  refine done_of_retire (.setX s d _) ?_
  change execQrnd d a b s = _
  simp only [execQrnd, State.notHandler, hh, aligned_ok (n := 3) ha, andThen, hkey, checked, require]
  cases hpart : s.partOf s.k with
  | none => rfl
  | some e =>
    obtain ⟨r, hr⟩ := Option.ne_none_iff_exists'.mp (hbusy e.1 e.2 hpart)
    simp only [hr]
    rfl

end

end

theorem taskStatus : Claim.TaskStatus := by
  intro s d a b
  refine ⟨yield_done s, gqnext_elsewhere d, gqnext_hands d, gqnext_past d, fun key hh ha hkey => ⟨fun n p hpart => ⟨?_, ?_⟩, ?_⟩,
    qrnd_handler d⟩
  · exact qrnd_starts d hh ha hkey hpart
  · intro hround
    refine qrnd_refuses d hh ha hkey fun m q hq => ?_
    rw [hpart] at hq
    cases hq
    exact hround
  · intro hnone
    exact qrnd_refuses d hh ha hkey fun n p hp => by rw [hnone] at hp; cases hp

/-! ## The token (R211) -/

theorem Ctx.writesLeft_eq_false {c : Ctx} (h : c.writesLeft = false) :
    c.pushes = 0 ∧ ∀ q ∈ c.pend, ∃ path acq dst lanes, q.op = .load path acq dst lanes := by
  simp only [Ctx.writesLeft, Bool.or_eq_false_iff, bne_eq_false_iff_eq, List.any_eq_false] at h
  obtain ⟨hpushes, hpend⟩ := h
  refine ⟨hpushes, fun q hq => ?_⟩
  have hop := hpend q hq
  cases hload : q.op with
  | load path acq dst lanes => exact ⟨path, acq, dst, lanes, rfl⟩
  | _ => simp [hload] at hop

theorem State.tokenFree_spec {s : State} {k : Nat} (h : s.tokenFree k = true) :
    (s.getCore k).out0 = [] ∧ (s.getCore k).out1 = [] ∧ (∀ o ∈ (s.getCore k).tileq, o.op.stores = false) ∧
    (∀ e ∈ s.orphans, e.1 / 8 ≠ k) ∧ ∀ c ∈ s.coreCtxs k, c.2.pushes = 0 ∧ c.2.wait.writes = false ∧
      ∀ q ∈ c.2.pend, ∃ path acq dst lanes, q.op = .load path acq dst lanes := by
  simp only [State.tokenFree, Bool.and_eq_true, Bool.not_eq_true', List.any_eq_false, List.isEmpty_iff, Bool.or_eq_true, not_or,
    Bool.not_eq_true, beq_iff_eq] at h
  obtain ⟨⟨⟨⟨⟨⟨hout0, hout1⟩, -⟩, -⟩, hctxs⟩, htiles⟩, horphans⟩ := h
  refine ⟨hout0, hout1, htiles, horphans, fun c hc => ?_⟩
  obtain ⟨hleft, hwait⟩ := hctxs c hc
  obtain ⟨hpushes, hpend⟩ := Ctx.writesLeft_eq_false hleft
  exact ⟨hpushes, hwait, hpend⟩

/-! ## A pass of the token -/

theorem State.part_setPart_same (s : State) (i : Nat) (p : Part) : (s.setPart i p).part i = some p :=
  (State.part_setPart ..).trans (if_pos rfl)

@[simp] theorem State.homeStore_parts : ∀ (l : List Host.Cell) (s : State), (State.homeStore s l).parts = s.parts
  | [], _ => rfl
  | (_, _) :: l, s => by rw [State.homeStore, State.homeStore_parts l]; rfl

/-- The core that the token leaves has its mark taken back. -/
def State.unmarked (s : State) (k : Nat) : State := s.modCore k fun c => { c with injected := false }

section
variable {s : State} {i k : Nat} {p : Part} {r : Round} (hpart : s.part i = some p) (hround : p.round = some r)
  (hcore : p.cores[r.pos]? = some k)
include hpart hround hcore

theorem collectionRoundPass_waits (hbusy : s.tokenFree k = false) : Gives (.collectionRoundPass i) s s := by
  change execCollectionRoundPass i s = _
  simp only [execCollectionRoundPass, hpart, hround, hcore, hbusy]
  rfl

theorem collectionRoundPass_free (hfree : s.tokenFree k = true) : exec (.collectionRoundPass i) s = .next (
    if r.pos + 1 < p.cores.length then
      (s.unmarked k).setPart i { p with round := some { r with pos := r.pos + 1, mark := r.mark || s.tokenMark k } }
    else if r.mark || s.tokenMark k then (s.unmarked k).setPart i { p with round := some { r with pos := 0, mark := false } }
    else if (s.unmarked k).powered [r.pa] then
      State.homeStore ((s.unmarked k).setPart i { p with round := none }) (cellsOf r.pa 8 r.value.toNat)
    else (s.unmarked k).wakeFor [r.pa]) := by
  change execCollectionRoundPass i s = _
  simp only [execCollectionRoundPass, hpart, hround, hcore, hfree]
  rfl

end

theorem collectionRounds : Claim.CollectionRounds := by
  intro s i k p r hpart hround hcore mark
  have hmem : (s.unmarked k).mem = s.mem := State.modCore_mem ..
  have hpass (hfree : s.tokenFree k = true) := collectionRoundPass_free hpart hround hcore hfree
  refine ⟨collectionRoundPass_waits hpart hround hcore, State.tokenFree_spec, fun hfree hpos => ?_, fun hfree hlast hmark => ?_,
    fun hfree hlast hmark hpow => ?_⟩
  · exact ⟨_, (hpass hfree).trans (next_congr (if_pos hpos)), fun a => by rw [← hmem]; rfl, State.part_setPart_same ..⟩
  · have hend : ¬r.pos + 1 < p.cores.length := by omega
    exact ⟨_, (hpass hfree).trans (next_congr ((if_neg hend).trans (if_pos hmark))), State.part_setPart_same ..⟩
  · have hend : ¬r.pos + 1 < p.cores.length := by omega
    have hpow' : (s.unmarked k).powered [r.pa] = true := by
      rw [State.unmarked, (SameSpaces.modCore s k _).powered, hpow]
    refine ⟨_, (hpass hfree).trans (next_congr ((if_neg hend).trans ((if_neg (Bool.eq_false_iff.mp hmark)).trans (if_pos hpow')))), ?_,
      (State.homeStore_stored _ _).of_mem hmem⟩
    rw [State.part, State.homeStore_parts]
    exact State.part_setPart_same ..

/-- Settles O49: each of the instructions by its cases, and the token by what keeps it at a core. -/
theorem taskQueries : Obligations.TaskQueries := ⟨taskStatus, collectionRounds⟩

end Sys2Proof.Machine
end

section
/-! What a context leaves when it ends (08 R193, 10 R261, 13 R325). -/

namespace Sys2Proof.Machine

open Sys2Proof

/-! ## The claim, the region and the commands of a context that ends -/

theorem State.releaseClaim_eq (s : State) : ∃ claim release offer, s.releaseClaim =
    { s with core := { s.core with claim := claim, release := release, offer := offer } } := by
  unfold State.releaseClaim
  split
  · split <;> exact ⟨_, _, _, rfl⟩
  · exact ⟨s.core.claim, s.core.release, s.core.offer, rfl⟩

theorem State.releaseClaim_free {s : State} (hc : s.tclm = true) (hq : s.core.tileq = []) : s.releaseClaim.core.claim = none := by
  simp [State.releaseClaim, hc, hq]

theorem State.leaveRegion_eq (s : State) : ∃ clusters, s.leaveRegion =
    { s with clusters := clusters, ctx := { s.ctx with region := none } } := by
  unfold State.leaveRegion
  split
  · next h => exact ⟨s.clusters, by rw [← h]⟩
  · exact ⟨_, rfl⟩

/-- The commands of the current context go on without it. -/
def State.disowned (s : State) : State :=
  let u := engineOf s.k
  let cl := s.cluster u
  if cl.copies.isEmpty && cl.decodes.isEmpty then s
  else s.setCluster u { cl with
    copies := disown s.cur (s.asidOf s.k) cl.copies, decodes := disown s.cur (s.asidOf s.k) cl.decodes }

theorem State.disowned_eq (s : State) : ∃ clusters, s.disowned = { s with clusters := clusters } := by
  unfold State.disowned
  dsimp only
  split
  · exact ⟨s.clusters, rfl⟩
  · exact ⟨_, rfl⟩

/-- The current context is gone, what it reserved with it; its writes are in the network. -/
def State.vacated (s : State) : State :=
  { s with orphans := s.orphans ++ s.leftWrites, core := s.core.freeResv s.c, ctx := s.ctx.ended }

/-- The state in which a context ends: its message has left the input queues. -/
def State.unserved (s : State) : State :=
  { s with core := { s.core with inq0 := dropMsgs s.c s.core.inq0, inq1 := dropMsgs s.c s.core.inq1 } }

theorem State.conclude_eq {s : State} (heng : s.ctx.eng = []) :
    s.conclude false = s.unserved.leaveWaits.releaseClaim.leaveRegion.disowned.vacated := by
  have hfatal : (!s.unserved.ctx.eng.isEmpty) = false := by simp [State.unserved, heng]
  change s.unserved.endContext = _
  simp only [State.endContext, hfatal, Bool.false_eq_true, if_false]
  rfl

/-! ## The state left -/

/-- The core that a context leaves when it ends. -/
def Core.vacated (c : Core) (n : Nat) (claim : Option Nat) (release : Bool) (offer : Option (Nat × Tile)) (tacqs : List Nat) : Core :=
  { c with
    inq0 := dropMsgs n c.inq0, inq1 := dropMsgs n c.inq1, resv0 := c.resv0.filter (· != n), resv1 := c.resv1.filter (· != n)
    claim := claim, release := release, offer := offer, tacqs := tacqs }

theorem State.conclude_spec {s : State} (heng : s.ctx.eng = []) : ∃ clusters claim release offer tacqs, s.conclude false =
    { s with ctx := s.ctx.ended, core := s.core.vacated s.c claim release offer tacqs
             clusters := clusters, orphans := s.orphans ++ s.leftWrites } := by
  obtain ⟨claim, release, offer, hclaim⟩ := s.unserved.leaveWaits.releaseClaim_eq
  obtain ⟨cl, hregion⟩ := s.unserved.leaveWaits.releaseClaim.leaveRegion_eq
  obtain ⟨cl', hdisown⟩ := s.unserved.leaveWaits.releaseClaim.leaveRegion.disowned_eq
  refine ⟨cl', claim, release, offer, s.unserved.leaveWaits.core.tacqs, ?_⟩
  rw [State.conclude_eq heng, hdisown, hregion, hclaim]
  rfl

theorem State.conclude_claim {s : State} (heng : s.ctx.eng = []) (hc : s.tclm = true) (hq : s.core.tileq = []) :
    (s.conclude false).core.claim = none := by
  obtain ⟨cl, hregion⟩ := s.unserved.leaveWaits.releaseClaim.leaveRegion_eq
  obtain ⟨cl', hdisown⟩ := s.unserved.leaveWaits.releaseClaim.leaveRegion.disowned_eq
  rw [State.conclude_eq heng, hdisown, hregion]
  exact State.releaseClaim_free (s := s.unserved.leaveWaits) hc hq

/-! ## Ending at once -/

theorem State.mayEnd_of {s : State} (hl : s.ctx.ldc = 0) (hc : s.tclm = false ∨ s.core.tileq = []) : s.mayEnd = true := by
  rcases hc with hc | hc <;> simp [State.mayEnd, hl, hc]

theorem State.finish_now {s : State} (h : s.mayEnd = true) : s.finish false = s.conclude false := if_pos h

theorem State.finish_waits {s : State} (h : s.mayEnd = false) : s.finish false = s.stall (.ending false) :=
  if_neg (by rw [h]; decide)

theorem Ctx.ended_ordinary {c : Ctx} (h : c.hnd = false) : c.ended = .reset := by rw [Ctx.ended, h]; rfl

/-- Outside a handler, and with no event of an engine waiting, the end of a context is what R193 says. -/
theorem State.conclude_ended {s : State} (heng : s.ctx.eng = []) (hh : s.ctx.hnd = false) :
    Ended s (s.conclude false) ∧ SameMemory s (s.conclude false) := by
  obtain ⟨clusters, claim, release, offer, tacqs, h⟩ := State.conclude_spec heng
  rw [h]
  exact ⟨⟨Ctx.ended_ordinary hh, rfl, rfl⟩, fun _ => rfl⟩

end Sys2Proof.Machine
end

section
/-! HALT, HALT.K, HALT.J and TDONE (08 R193 to R195, R210, 10 R261). -/

namespace Sys2Proof.Machine

open Sys2Proof

/-! ## The checks of HALT (R193) -/

section
variable {s : State}

theorem State.mayHalt_ok (hh : s.ctx.hnd = false) (hcall : ¬(s.ctx.wd.wdm = true ∧ s.ctx.wd.state = 3)) (i : Instr) :
    s.mayHalt i = .ok () := by
  simp only [State.mayHalt, require, hh]
  exact if_pos (by simpa [imp_iff_not_or] using hcall)

theorem State.mayHalt_error (h : s.ctx.hnd = true ∨ s.ctx.wd.wdm = true ∧ s.ctx.wd.state = 3) (i : Instr) :
    s.mayHalt i = .error (illegalMode i) := by
  simp only [State.mayHalt, require]
  exact if_neg (by rcases h with h | ⟨hw, hs⟩ <;> simp [*])

theorem State.notHandler_ok (hh : s.ctx.hnd = false) (i : Instr) : s.notHandler i = .ok () := by rw [State.notHandler, hh]; rfl

theorem State.notHandler_error (hh : s.ctx.hnd = true) (i : Instr) : s.notHandler i = .error (illegalMode i) := by
  rw [State.notHandler, hh]
  rfl

/-! ## HALT and HALT.K -/

theorem exec_halt (h : s.mayHalt .halt = .ok ()) : exec .halt s = .next (s.finish false) := by
  change execHalt s = _
  rw [execHalt, h]
  rfl

theorem exec_haltK {a : Reg} (h : s.mayHalt (.haltK a) = .ok ()) :
    exec (.haltK a) s = .next ((s.retain ((s.x a).extractLsb' 0 16)).finish false) := by
  change execHaltK a s = _
  rw [execHaltK, h]
  rfl

theorem State.retain_none (h : s.ctx.region = none) (t : BitVec 16) : s.retain t = s := by rw [State.retain, h]

theorem State.retain_eq (s : State) (t : BitVec 16) : ∃ clusters, s.retain t = { s with clusters := clusters } := by
  unfold State.retain
  split
  · exact ⟨s.clusters, rfl⟩
  · dsimp only
    split
    · exact ⟨_, rfl⟩
    · exact ⟨s.clusters, rfl⟩

theorem traps_of_mayHalt (h : s.ctx.hnd = true ∨ s.ctx.wd.wdm = true ∧ s.ctx.wd.state = 3) (a : Reg) :
    Traps .halt s ⟨1, 2, low64 .halt⟩ ∧ Traps (.haltK a) s ⟨1, 2, low64 (.haltK a)⟩ ∧
      Traps (.haltJ a) s ⟨1, 2, low64 (.haltJ a)⟩ ∧ Traps .haltM s ⟨1, 2, low64 .haltM⟩ := by
  refine ⟨?_, ?_, ?_, ?_⟩
  · change execHalt s = _
    rw [execHalt, State.mayHalt_error h]
    rfl
  · change execHaltK a s = _
    rw [execHaltK, State.mayHalt_error h]
    rfl
  · change execHaltJ a s = _
    simp only [execHaltJ, State.mayHalt_error h, andThen]
    rfl
  · change execHaltM s = _
    rw [execHaltM, State.mayHalt_error h]
    rfl

end

/-! ## Regions of a cluster (10 R261) -/

theorem State.cluster_setCluster (s : State) (i j : Nat) (c : Cluster) :
    (s.setCluster i c).cluster j = if j = i then c else s.cluster j :=
  look_put ..

theorem Cluster.region_eq (c : Cluster) {n : Nat} (h : n < 16) : c.region n = c.regions[n] := by
  rw [Cluster.region, List.getD_eq_getElem?_getD, List.getElem?_eq_getElem (by simpa using h), Option.getD_some]
  rfl

theorem Cluster.region_setRegion (c : Cluster) {n : Nat} (h : n < 16) (r : Region) : (c.setRegion n r).region n = r := by
  rw [Cluster.region_eq _ h]
  simp [Cluster.setRegion]

theorem State.disowned_regions (s : State) (j : Nat) : (s.disowned.cluster j).regions = (s.cluster j).regions := by
  unfold State.disowned
  dsimp only
  split
  · rfl
  · rw [State.cluster_setCluster]
    split
    · next h => rw [h]
    · rfl

theorem State.leaveRegion_region {s : State} {n : Nat} (h : s.ctx.region = some n) (hn : n < 16) :
    (s.leaveRegion.cluster (clusterOf s.k)).region n = { (s.cluster (clusterOf s.k)).region n with
      holders := ((s.cluster (clusterOf s.k)).region n).holders.filter (· != .ctx s.cur) } := by
  simp only [State.leaveRegion, h]
  rw [Cluster.region_eq _ hn]
  change ((s.setCluster _ _).cluster _).regions[n] = _
  rw [State.cluster_setCluster, if_pos rfl, Cluster.region_eq _ hn]
  simp [List.getD_eq_getElem?_getD]

/-- A context that ends leaves its region's holders, and nothing else of the region changes. -/
theorem State.conclude_region {s : State} {n : Nat} (heng : s.ctx.eng = []) (h : s.ctx.region = some n) (hn : n < 16) :
    ((s.conclude false).cluster (clusterOf s.k)).region n = { (s.cluster (clusterOf s.k)).region n with
      holders := ((s.cluster (clusterOf s.k)).region n).holders.filter (· != .ctx s.cur) } := by
  obtain ⟨claim, release, offer, hclaim⟩ := s.unserved.leaveWaits.releaseClaim_eq
  have hleft := State.leaveRegion_region (s := s.unserved.leaveWaits.releaseClaim) (n := n) (by rw [hclaim]; exact h) hn
  have hregions := s.unserved.leaveWaits.releaseClaim.leaveRegion.disowned_regions (clusterOf s.k)
  rw [hclaim] at hleft hregions
  rw [State.conclude_eq heng, hclaim, Cluster.region_eq _ hn]
  rw [Cluster.region_eq _ hn] at hleft
  exact (congrArg (·[n]) hregions).trans hleft

/-! ## HALT.K retains its region (R195) -/

section
variable {s : State} {t : BitVec 16} {n : Nat} (h : s.ctx.region = some n)
include h

theorem State.retain_tags (hn : n < 16) (ht : t ≠ 0) (hname : t.toNat % 16 = n) (hfree : ((s.cluster (clusterOf s.k)).region n).tag = 0)
    (hunused : ∀ r ∈ (s.cluster (clusterOf s.k)).regions.toList, r.tag ≠ t) :
    (((s.retain t).cluster (clusterOf s.k)).region n).tag = t := by
  have hlow : (t.extractLsb' 0 4).toNat = n := by simp [hname]
  have hcond : (t != 0 && (t.extractLsb' 0 4).toNat == n && ((s.cluster (clusterOf s.k)).region n).tag == 0 &&
      !((s.cluster (clusterOf s.k)).regions.toList.any fun r => r.tag == t)) = true := by
    rw [Bool.and_eq_true, Bool.and_eq_true, Bool.and_eq_true, Bool.not_eq_true', List.any_eq_false]
    exact ⟨⟨⟨bne_iff_ne.mpr ht, beq_iff_eq.mpr hlow⟩, beq_iff_eq.mpr hfree⟩, fun r hr => by simpa using hunused r hr⟩
  simp only [State.retain, h]
  rw [if_pos hcond, State.cluster_setCluster, if_pos rfl, Cluster.region_setRegion _ hn]

theorem State.retain_refuses (hbad : ¬(t ≠ 0 ∧ t.toNat % 16 = n ∧ ((s.cluster (clusterOf s.k)).region n).tag = 0 ∧
    ∀ r ∈ (s.cluster (clusterOf s.k)).regions.toList, r.tag ≠ t)) : s.retain t = s := by
  simp only [State.retain, h]
  refine if_neg fun hcond => hbad ?_
  rw [Bool.and_eq_true, Bool.and_eq_true, Bool.and_eq_true, Bool.not_eq_true', List.any_eq_false] at hcond
  obtain ⟨⟨⟨ht, hname⟩, hfree⟩, hunused⟩ := hcond
  exact ⟨bne_iff_ne.mp ht, by simpa using hname, beq_iff_eq.mp hfree, fun r hr => by simpa using hunused r hr⟩

end

theorem exec_tdone_handler {s : State} (hh : s.ctx.hnd = true) (a : Reg) : Traps (.tdone a) s ⟨1, 2, low64 (.tdone a)⟩ := by
  change execTdone a s = _
  simp only [execTdone, State.notHandler_error hh, andThen]
  rfl

theorem haltsAtOnce {s : State} {a : Reg} (hh : s.ctx.hnd = false) (hcall : ¬(s.ctx.wd.wdm = true ∧ s.ctx.wd.state = 3)) (hend : MayEnd s) :
    (∃ t, Gives .halt s t ∧ Ended s t ∧ SameMemory s t) ∧ (∃ t, Gives (.haltK a) s t ∧ Ended s t ∧ SameMemory s t) := by
  obtain ⟨hldc, hclaim, hregion, heng⟩ := hend
  have hnow : s.finish false = s.conclude false := State.finish_now (State.mayEnd_of hldc (.inl hclaim))
  refine ⟨⟨_, (exec_halt (State.mayHalt_ok hh hcall _)).trans (by rw [hnow]), State.conclude_ended heng hh⟩,
    ⟨_, (exec_haltK (State.mayHalt_ok hh hcall _)).trans (by rw [State.retain_none hregion, hnow]), State.conclude_ended heng hh⟩⟩

theorem haltWaits {s : State} {a : Reg} (hh : s.ctx.hnd = false) (hcall : ¬(s.ctx.wd.wdm = true ∧ s.ctx.wd.state = 3)) (hend : s.mayEnd = false) :
    Waits .halt s (.ending false) ∧ (s.ctx.region = none → Waits (.haltK a) s (.ending false)) := by
  refine ⟨(exec_halt (State.mayHalt_ok hh hcall _)).trans (by rw [State.finish_waits hend]), fun hregion => ?_⟩
  rw [Waits, exec_haltK (State.mayHalt_ok hh hcall _), State.retain_none hregion, State.finish_waits hend]

theorem haltRetains {s : State} {a : Reg} {n : Nat} (hn : n < 16) (hh : s.ctx.hnd = false)
    (hcall : ¬(s.ctx.wd.wdm = true ∧ s.ctx.wd.state = 3)) (hldc : s.ctx.ldc = 0) (hclaim : s.tclm = false) (heng : s.ctx.eng = [])
    (hregion : s.ctx.region = some n) : ∃ t, Gives (.haltK a) s t ∧ Ended s t ∧
      (t.cluster (clusterOf s.k)).region n = { ((s.retain ((s.x a).extractLsb' 0 16)).cluster (clusterOf s.k)).region n with
        holders := (((s.retain ((s.x a).extractLsb' 0 16)).cluster (clusterOf s.k)).region n).holders.filter (· != .ctx s.cur) } := by
  have hexec := exec_haltK (a := a) (State.mayHalt_ok hh hcall _)
  obtain ⟨clusters, hretain⟩ := s.retain_eq ((s.x a).extractLsb' 0 16)
  rw [hretain] at hexec ⊢
  exact ⟨_, hexec.trans (congrArg _ (State.finish_now (State.mayEnd_of hldc (.inl hclaim)))),
    (State.conclude_ended (s := { s with clusters := clusters }) heng hh).1,
    State.conclude_region (s := { s with clusters := clusters }) heng hregion hn⟩

theorem halts : Claim.Halts := by
  intro s a callout halt bare
  refine ⟨fun ⟨hh, hcall⟩ hend => haltsAtOnce hh hcall hend, fun ⟨hh, hcall⟩ hldc _ heng hclaim => ⟨fun hq => ?_, fun hq => ?_⟩,
    fun ⟨hh, hcall⟩ hldc => haltWaits hh hcall (by simp [State.mayEnd, hldc]), fun h => traps_of_mayHalt h a,
    fun hh => exec_tdone_handler hh a, ?_⟩
  · have hnow : s.finish false = s.conclude false := State.finish_now (State.mayEnd_of hldc (.inr hq))
    obtain ⟨hended, hmem⟩ := State.conclude_ended heng hh
    exact ⟨_, (exec_halt (State.mayHalt_ok hh hcall _)).trans (by rw [hnow]), hended, hmem, State.conclude_claim heng hclaim hq⟩
  · exact (haltWaits (a := a) hh hcall (by simp [State.mayEnd, hclaim, hq])).1
  · intro n hn ⟨hh, hcall⟩ ⟨hldc, hclaim, heng⟩ hregion _ tag cl free
    obtain ⟨t, hexec, hended, ht⟩ := haltRetains (a := a) (show n < 16 by omega) hh hcall hldc hclaim heng hregion
    refine ⟨t, hexec, hended, fun ⟨h0, hname, hfree, hunused⟩ => ?_, fun hbad => ?_, ?_⟩ <;> rw [ht]
    · exact State.retain_tags hregion (by omega) h0 hname hfree hunused
    · rw [State.retain_refuses hregion hbad]
    · simp

/-! ## HALT.J and TDONE (R194, R210) -/

theorem Core.l1Write_eq (c : Core) (w : Nat) (v : Word) : ∃ l1, c.l1Write w v = { c with l1 := l1 } := by
  unfold Core.l1Write
  split
  · exact ⟨_, rfl⟩
  · exact ⟨c.l1, rfl⟩

/-- What performing a store of the current core changes. -/
theorem State.performStore_eq (p : Bool) : ∀ (l : List Host.Cell) (s : State), ∃ mem owners checks upset l1, State.performStore s.k p s l =
    { s with mem := mem, owners := owners, checks := checks, upset := upset, core := { s.core with l1 := l1 } }
  | [], s => ⟨s.mem, s.owners, s.checks, s.upset, s.core.l1, rfl⟩
  | (a, b) :: l, s => by
    obtain ⟨mem, owners, checks, upset, l1, hbyte⟩ : ∃ mem owners checks upset l1, s.performByte s.k p a b =
        { s with mem := mem, owners := owners, checks := checks, upset := upset, core := { s.core with l1 := l1 } } := by
      unfold State.performByte
      split
      · split
        · obtain ⟨l1, hl1⟩ := s.core.l1Write_eq (a / 8) (Mem.word (s.setMem a b).mem (a / 8 * 8))
          exact ⟨_, _, _, _, l1, (State.modCore_current ..).trans
            (congrArg (fun c => { s.setMem a b with owners := Machine.put s.owners (a / 8) s.k, core := c }) hl1)⟩
        · exact ⟨_, _, _, _, _, State.modCore_current ..⟩
      · exact ⟨_, _, _, _, _, rfl⟩
    rw [State.performStore, hbyte]
    exact State.performStore_eq p l { s with mem := mem, owners := owners, checks := checks, upset := upset, core := { s.core with l1 := l1 } }

/-- The word at a key with another added, as a releasing AMO adds it. -/
def State.added (s : State) (key : Nat) (d : Word) : State := (s.homeAdd key d).2

theorem State.added_eq (s : State) (key : Nat) (d : Word) : ∃ mem owners checks upset read l1, s.added key d =
    { s with mem := mem, owners := owners, checks := checks, upset := upset, read := read, core := { s.core with l1 := l1 } } := by
  obtain ⟨read, hread⟩ := s.note_eq (byteKeys key 8)
  obtain ⟨mem, owners, checks, upset, l1, hstore⟩ :=
    State.performStore_eq true (cellsOf key 8 (Mem.word s.mem key + d).toNat) (s.withRead read)
  refine ⟨mem, owners, checks, upset, read, l1, ?_⟩
  rw [State.added, State.homeAdd, hread]
  exact hstore

theorem State.added_stored (s : State) (key : Nat) (d : Word) :
    Stored s (s.added key d) (cellsOf key 8 (Mem.word s.mem key + d).toNat) := by
  obtain ⟨read, hread⟩ := s.note_eq (byteKeys key 8)
  rw [State.added, State.homeAdd, hread]
  exact State.performStore_stored s.k true _ (s.withRead read)

/-- The word at a key has gone down by one. -/
def State.lessOne (s : State) (key : Nat) : State := s.added key (-1)

theorem State.lessOne_same (s : State) (key : Nat) : (s.lessOne key).ctx = s.ctx ∧ (s.lessOne key).k = s.k ∧
    (s.lessOne key).tclm = s.tclm ∧ (s.lessOne key).core.deque = s.core.deque := by
  obtain ⟨mem, owners, checks, upset, read, l1, hless⟩ := s.added_eq key (-1)
  rw [State.lessOne, hless]
  exact ⟨rfl, rfl, rfl, rfl⟩

theorem State.lessOne_stored (s : State) (key : Nat) :
    Stored s (s.lessOne key) (cellsOf key 8 (Mem.word s.mem key - 1).toNat) := by
  rw [sub_eq_add_neg]
  exact s.added_stored key (-1)

/-- A state that differs from the current one in its memory and its core ends as that one would. -/
theorem State.finish_of {s u : State} {cells : List Host.Cell} (hend : MayEnd s) (hh : s.ctx.hnd = false) (hctx : u.ctx = s.ctx)
    (hclaim : u.tclm = s.tclm) (hmem : Stored s u cells) :
    Stored s (u.finish false) cells ∧ (u.finish false).ctx = .reset ∧ (u.finish false).core.deque = u.core.deque := by
  obtain ⟨hldc, htclm, hregion, heng⟩ := hend
  rw [State.finish_now (State.mayEnd_of (by rw [hctx, hldc]) (.inl (by rw [hclaim, htclm])))]
  obtain ⟨clusters, claim, release, offer, tacqs, h⟩ := State.conclude_spec (s := u) (by rw [hctx, heng])
  rw [h]
  exact ⟨hmem, Ctx.ended_ordinary (by rw [hctx, hh]), rfl⟩

section
variable {s : State} {a : Reg} {key : Nat} (hh : s.ctx.hnd = false)
  (hcheck : s.storeCheck (s.x a) 8 .w = .ok key)
include hh hcheck

theorem exec_tdone (halign : (s.x a).toNat % 8 = 0) : exec (.tdone a) s = s.releasing (.tdone a) fun s =>
    .next (if s.mayReadNow (byteKeys key 8) then (s.lessOne key).finish false else (s.wakeFor [key]).stall (.release (.tdone a))) := by
  change execTdone a s = _
  simp only [execTdone, State.notHandler_ok hh, aligned_ok (n := 3) halign, andThen, hcheck]
  rfl

theorem exec_haltJ (hwdm : s.ctx.wd.wdm = false) (halign : (s.x a).toNat % 128 = 0) :
    exec (.haltJ a) s = s.releasing (.haltJ a) fun s =>
      .next (if s.mayReadNow (byteKeys key 8 ++ byteKeys (key + 64) 64) then (s.joinDown key).finish false
        else (s.wakeFor (byteKeys key 8 ++ byteKeys (key + 64) 64)).stall (.release (.haltJ a))) := by
  change execHaltJ a s = _
  simp only [execHaltJ, State.mayHalt_ok hh (by simp [hwdm]), aligned_ok (n := 7) halign, andThen, hcheck]

end

theorem exec_haltJ_misaligned {s : State} {a : Reg} (hh : s.ctx.hnd = false) (hwdm : s.ctx.wd.wdm = false)
    (halign : (s.x a).toNat % 128 ≠ 0) : Traps (.haltJ a) s ⟨6, 0, s.x a⟩ := by
  change execHaltJ a s = _
  simp only [execHaltJ, State.mayHalt_ok hh (by simp [hwdm]), aligned_error (n := 7) halign, andThen]
  rfl

/-- The continuation of the join record at a key. -/
def continuation (m : List Host.Cell) (key : Nat) : TaskRec :=
  { TaskRec.ofWords ((List.range 8).map fun i => Mem.word m (key + 64 + 8 * i)) with cont := true }

/-- The decrement of the count writes nothing of the continuation. -/
theorem continuation_lessOne {s : State} (hwf : Memory.wf s.mem = true) (key : Nat) :
    continuation (s.lessOne key).mem key = continuation s.mem key := by
  have hword : ∀ i, Mem.word (s.lessOne key).mem (key + 64 + 8 * i) = Mem.word s.mem (key + 64 + 8 * i) := fun i =>
    Mem.word_congr fun j hj => by
      rw [s.lessOne_stored key hwf, cellsOf, cellsGet_cellsAt, if_pos (by omega), List.getElem?_eq_none (by rw [length_leBytes]; omega)]
      rfl
  simp only [continuation, hword]

theorem State.joinDown_eq (s : State) (key : Nat) : s.joinDown key = if Mem.word s.mem key = 1 then
    State.pushTask s.k ((s.lessOne key).note (byteKeys (key + 64) 64)) (continuation (s.lessOne key).mem key) else s.lessOne key := rfl

theorem State.joinDown_spec {s : State} (hwf : Memory.wf s.mem = true) (hroom : s.core.deque.length < 64) (key : Nat) :
    (s.joinDown key).ctx = s.ctx ∧ (s.joinDown key).tclm = s.tclm ∧
      Stored s (s.joinDown key) (cellsOf key 8 (Mem.word s.mem key - 1).toNat) ∧
      (s.joinDown key).core.deque = if Mem.word s.mem key = 1 then s.core.deque ++ [continuation s.mem key] else s.core.deque := by
  obtain ⟨hctx, hk, hclaim, hdeque⟩ := s.lessOne_same key
  have hstored := s.lessOne_stored key
  rw [State.joinDown_eq, continuation_lessOne hwf, ← hk]
  generalize s.lessOne key = u at hctx hk hclaim hdeque hstored ⊢
  obtain ⟨read, hread⟩ := u.note_eq (byteKeys (key + 64) 64)
  split
  · rw [hread, show u.k = (u.withRead read).k from rfl,
      State.pushTask_room (s := u.withRead read) (by rw [← hdeque] at hroom; exact hroom)]
    exact ⟨hctx, hclaim, hstored, congrArg (· ++ _) hdeque⟩
  · exact ⟨hctx, hclaim, hstored, hdeque⟩

theorem joinEnds : Claim.JoinEnds := by
  intro s a key hh hwdm hcheck
  refine ⟨fun hbusy => ?_, ?_, exec_haltJ_misaligned hh hwdm⟩
  · have hd := Ctx.not_drained_of hbusy
    exact ⟨fun halign => (exec_tdone hh hcheck halign).trans (State.releasing_waits _ _ _ hd),
      fun halign => (exec_haltJ hh hcheck hwdm halign).trans (State.releasing_waits _ _ _ hd)⟩
  intro hend hstc hroom hwf old less both
  have hd := Ctx.drained_of hend.1 hstc
  have htdone := fun halign => (exec_tdone hh hcheck halign).trans (State.releasing_drained _ _ _ hd)
  have hhaltJ := fun halign => (exec_haltJ hh hcheck hwdm halign).trans (State.releasing_drained _ _ _ hd)
  refine ⟨fun halign hread => ?_, fun halign hread => ?_, fun halign hread => ?_, fun halign hread => ?_⟩
  · obtain ⟨hctx, -, hclaim, -⟩ := s.lessOne_same key
    obtain ⟨hstored, hctx, -⟩ := State.finish_of hend hh hctx hclaim (s.lessOne_stored key)
    exact ⟨_, (htdone halign).trans (by rw [if_pos hread]), hstored, hctx⟩
  · exact (htdone halign).trans (by rw [hread]; rfl)
  · exact (hhaltJ halign).trans (by rw [hread]; rfl)
  · obtain ⟨hctx, hclaim, hstored, hdeque⟩ := State.joinDown_spec hwf hroom key
    obtain ⟨hstored, hreset, hsame⟩ := State.finish_of hend hh hctx hclaim hstored
    exact ⟨_, (hhaltJ halign).trans (by rw [if_pos hread]), hstored, hreset, hsame.trans hdeque⟩

/-- Settles O50: a context that may end is concluded at once, and the decrement is one store of the current core before that. -/
theorem contextEnds : Obligations.ContextEnds := ⟨halts, joinEnds⟩

end Sys2Proof.Machine
end

section
/-! Messages out: SENDR, CALLAT and SEND (08 R197 to R202, R205). -/

namespace Sys2Proof.Machine

open Sys2Proof

/-! ## The send slots of a core (R198, R200) -/

/-- The sequence number of a virtual network. -/
def Core.seq (c : Core) (vn : Bool) : BitVec 16 := if vn then c.seq1 else c.seq0

/-- A message enters the send slots of its network with an identifier. -/
def Core.queued (c : Core) (m : Msg) (mid : Word) : Core :=
  let vn := msgVn m.w0
  { c.setOut vn (c.out vn ++ [{ m with mid := mid }]) with
    injected := true
    seq0 := if vn then c.seq0 else c.seq0 + 1
    seq1 := if vn then c.seq1 + 1 else c.seq1 }

/-- The core after context `n` of it has sent a message. -/
def Core.sending (c : Core) (n : Nat) (m : Msg) (mid : Word) : Core :=
  { c.queued m mid with due := (c.queued m mid).due ++ [(12, some n)] }

theorem State.inject_eq (s : State) (m : Msg) : s.inject m =
    { s with core := s.core.sending s.c m (midOf s s.cur (msgVn m.w0) (s.core.seq (msgVn m.w0))) } :=
  State.modCore_current { s with core := s.core.queued m (midOf s s.cur (msgVn m.w0) (s.core.seq (msgVn m.w0))) }
    fun c => { c with due := c.due ++ [(12, some s.c)] }

@[simp] theorem Core.sending_out (c : Core) (n : Nat) (m : Msg) (mid : Word) :
    (c.sending n m mid).out (msgVn m.w0) = c.out (msgVn m.w0) ++ [{ m with mid := mid }] := by
  cases h : msgVn m.w0 <;> simp [Core.sending, Core.queued, Core.out, Core.setOut, h]

@[simp] theorem Core.sending_seq (c : Core) (n : Nat) (m : Msg) (mid : Word) :
    (c.sending n m mid).seq (msgVn m.w0) = c.seq (msgVn m.w0) + 1 := by
  cases h : msgVn m.w0 <;> simp [Core.sending, Core.queued, Core.seq, h]

/-! ## The last steps of a send (R200) -/

section
variable {s : State} {m : Msg} {k : State → State}

theorem State.sendOff_unreachable (h : s.canReceive m.w0 = false) : s.sendOff m k = s.trapFull 3 m.w0 := by
  rw [State.sendOff, h]
  rfl

variable (h : s.canReceive m.w0 = true)
include h

theorem State.sendOff_notReply (hr : s.ctx.hvn = true) (hvn : msgVn m.w0 = false) : s.sendOff m k = s.trapFull 2 0 := by
  simp [State.sendOff, h, hr, hvn]

variable (hvn : s.ctx.hvn = false ∨ msgVn m.w0 = true)
include hvn

theorem State.sendOff_reply : s.sendOff m k =
    if s.ctx.hnd then
      if s.core.freeSlots (msgVn m.w0) = 0 then s.trapFull 1 0
      else
        k { s with
          ctx := { s.ctx with heldq := s.ctx.heldq ++ [.send m] }
          core := s.core.setResv (msgVn m.w0) (s.core.resv (msgVn m.w0) ++ [s.c]) }
    else if s.core.freeSlots (msgVn m.w0) = 0 then s.stall .slot
    else k (s.inject m) := by
  have hreply : (s.ctx.hvn && !msgVn m.w0) = false := by rcases hvn with hvn | hvn <;> simp [hvn]
  simp only [State.sendOff, h, hreply]
  rfl

theorem State.sendOff_sent (hh : s.ctx.hnd = false) (hfree : 0 < s.core.freeSlots (msgVn m.w0)) : s.sendOff m k = k (s.inject m) := by
  rw [State.sendOff_reply h hvn, hh, if_neg (by decide), if_neg hfree.ne']

theorem State.sendOff_waits (hh : s.ctx.hnd = false) (hfull : s.core.freeSlots (msgVn m.w0) = 0) : s.sendOff m k = s.stall .slot := by
  rw [State.sendOff_reply h hvn, hh, if_neg (by decide), if_pos hfull]

theorem State.sendOff_held (hh : s.ctx.hnd = true) (hfree : 0 < s.core.freeSlots (msgVn m.w0)) : s.sendOff m k = k { s with
    ctx := { s.ctx with heldq := s.ctx.heldq ++ [.send m] }
    core := s.core.setResv (msgVn m.w0) (s.core.resv (msgVn m.w0) ++ [s.c]) } := by
  rw [State.sendOff_reply h hvn, if_pos hh, if_neg hfree.ne']

theorem State.sendOff_full (hh : s.ctx.hnd = true) (hfull : s.core.freeSlots (msgVn m.w0) = 0) : s.sendOff m k = s.trapFull 1 0 := by
  rw [State.sendOff_reply h hvn, if_pos hh, if_pos hfull]

end

/-- An instruction that has sent its message. -/
theorem goes_of_inject {i : Instr} {s u : State} {m : Msg} (hu : SameMemory s u ∧ u.ctx.instret = s.ctx.instret ∧ u.core = s.core)
    (hmid : ∀ seq, midOf u u.cur (msgVn m.w0) seq = midOf s s.cur (msgVn m.w0) seq)
    (h : exec i s = .next (State.retire 8 (u.inject m))) : ∃ v, Gives i s v ∧ SameMemory s v ∧ v.ctx.instret = s.ctx.instret + 1 ∧
      v.core.out (msgVn m.w0) =
        s.core.out (msgVn m.w0) ++ [{ m with mid := midOf s s.cur (msgVn m.w0) (s.core.seq (msgVn m.w0)) }] ∧
      v.core.seq (msgVn m.w0) = s.core.seq (msgVn m.w0) + 1 := by
  obtain ⟨hmem, hret, hcore⟩ := hu
  refine ⟨_, h, ?_⟩
  rw [State.inject_eq, State.retire_eq, hcore, hmid]
  exact ⟨hmem, congrArg (· + 1) hret, Core.sending_out .., Core.sending_seq ..⟩

/-! ## SENDR and CALLAT -/

section
variable {s : State} {a b c : Reg}

/-- What SENDR asks of its header. -/
def State.sendrOk (s : State) (a b : Reg) : Bool := hdrOk (s.x a) (s.x b) && msgPlen (s.x a) == 0 && msgFmt (s.x a) == 0

/-- The message of SENDR. -/
def State.sendrMsg (s : State) (a b : Reg) : Msg := s.mkMsg (s.x a) (s.x b) 0 s.args [] false

/-- The message of CALLAT. -/
def State.callMsg (s : State) (a b c : Reg) : Msg := s.mkMsg (s.x a) (s.x b) (s.x c) s.args [] true

theorem exec_sendr : exec (.sendr a b) s = s.releasing (.sendr a b) fun s =>
    checked s (require (s.sendrOk a b) (illegalVal (s.x a))) fun _ => s.sendOff (s.sendrMsg a b) (State.retire 8) := rfl

theorem exec_sendr_refused (hd : s.ctx.drained = true) (hok : s.sendrOk a b = false) : Traps (.sendr a b) s ⟨1, 1, s.x a⟩ := by
  rw [Traps, exec_sendr, State.releasing_drained _ _ _ hd, hok]
  rfl

theorem exec_sendr_sends (hd : s.ctx.drained = true) (hok : s.sendrOk a b = true) :
    exec (.sendr a b) s = .next (s.sendOff (s.sendrMsg a b) (State.retire 8)) := by
  rw [exec_sendr, State.releasing_drained _ _ _ hd, hok]
  rfl

theorem exec_callat (hh : s.ctx.hnd = false) : exec (.callat a b c) s = s.releasing (.callat a b c) fun s =>
    checked s (require (s.sendrOk a b && !msgVn (s.x a) && (s.x c).extractLsb' 0 2 == 0) (illegalVal (s.x a))) fun _ =>
      s.sendOff (s.callMsg a b c) (State.retire 8) := by
  change execCallat a b c s = _
  rw [execCallat, State.notHandler_ok hh]
  rfl

theorem callatOk_iff : (s.sendrOk a b && !msgVn (s.x a) && (s.x c).extractLsb' 0 2 == 0) = true ↔
    s.sendrOk a b = true ∧ msgVn (s.x a) = false ∧ (s.x c).toNat % 4 = 0 := by
  rw [aligned_eq, Bool.and_eq_true, Bool.and_eq_true, Bool.not_eq_true', decide_eq_true_eq, and_assoc]

theorem exec_callat_sends (hd : s.ctx.drained = true) (hh : s.ctx.hnd = false)
    (hok : s.sendrOk a b = true ∧ msgVn (s.x a) = false ∧ (s.x c).toNat % 4 = 0) :
    exec (.callat a b c) s = .next (s.sendOff (s.callMsg a b c) (State.retire 8)) := by
  rw [exec_callat hh, State.releasing_drained _ _ _ hd, callatOk_iff.mpr hok]
  rfl

theorem exec_callat_refused (hd : s.ctx.drained = true) (hh : s.ctx.hnd = false)
    (hbad : ¬(s.sendrOk a b = true ∧ msgVn (s.x a) = false ∧ (s.x c).toNat % 4 = 0)) :
    Traps (.callat a b c) s ⟨1, 1, s.x a⟩ := by
  rw [Traps, exec_callat hh, State.releasing_drained _ _ _ hd, Bool.eq_false_iff.mpr (mt callatOk_iff.mp hbad)]
  rfl

theorem exec_callat_handler (hh : s.ctx.hnd = true) : Traps (.callat a b c) s ⟨1, 2, low64 (.callat a b c)⟩ := by
  change execCallat a b c s = _
  rw [execCallat, State.notHandler_error hh]
  rfl

end

theorem sends : Claim.Sends := by
  intro s a b c w0 vn ok okc m seq full goes
  have goes_of : ∀ i msg, msgVn msg.w0 = vn → exec i s = .next (State.retire 8 (s.inject msg)) → goes i msg := fun i msg hvn h => by
    have hsent := goes_of_inject (u := s) ⟨fun _ => rfl, rfl, rfl⟩ (fun _ => rfl) h
    rw [hvn] at hsent
    exact hsent
  refine ⟨exec_callat_handler, fun hbusy => ⟨exec_sendr.trans (State.releasing_waits _ _ _ (Ctx.not_drained_of hbusy)), fun hh =>
    (exec_callat hh).trans (State.releasing_waits _ _ _ (Ctx.not_drained_of hbusy))⟩, fun hldc hstc => ?_⟩
  have hd := Ctx.drained_of hldc hstc
  have hsendr : ok = true → exec (.sendr a b) s = .next (s.sendOff (m 0 false) (State.retire 8)) := exec_sendr_sends hd
  refine ⟨exec_sendr_refused hd, fun hok hcan => ?_, fun hok hcan hh hvn => ⟨fun hfree => ?_, fun hfull => ?_⟩,
    fun hok hcan hh => ⟨fun hvn hv => ?_, fun hvn hfull => ?_, fun hvn hfree => ?_⟩,
    fun hh => ⟨exec_callat_refused hd hh, fun hok hcan => ?_, fun hok hcan hvn => ⟨fun hfree => ?_, fun hfull => ?_⟩⟩⟩
  · exact (hsendr hok).trans (congrArg _ (State.sendOff_unreachable hcan))
  · exact goes_of _ _ rfl ((hsendr hok).trans (congrArg _ (State.sendOff_sent hcan (.inl hvn) hh hfree)))
  · exact (hsendr hok).trans (congrArg _ (State.sendOff_waits hcan (.inl hvn) hh hfull))
  · exact (hsendr hok).trans (congrArg _ (State.sendOff_notReply hcan hvn hv))
  · exact (hsendr hok).trans (congrArg _ (State.sendOff_full hcan hvn hh hfull))
  · exact done_of_retire ⟨rfl, rfl, rfl⟩ ((hsendr hok).trans (congrArg _ (State.sendOff_held hcan hvn hh hfree)))
  · exact (exec_callat_sends hd hh hok).trans (congrArg _ (State.sendOff_unreachable hcan))
  · exact goes_of _ _ rfl ((exec_callat_sends hd hh hok).trans (congrArg _ (State.sendOff_sent hcan (.inl hvn) hh hfree)))
  · exact (exec_callat_sends hd hh hok).trans (congrArg _ (State.sendOff_waits hcan (.inl hvn) hh hfull))

/-! ## SEND -/

/-- A core with no word in its L1 has no copy to drop. -/
theorem State.dropCopies_empty (k : Nat) : ∀ {s : State}, (s.getCore k).l1 = [] → ∀ keys : List Nat, State.dropCopies k s keys = s
  | _, _, [] => rfl
  | s, h, a :: r => by
    rw [State.dropCopies, h]
    exact State.dropCopies_empty k h r

theorem meetsWords_mono {a b c : List Nat} (hsub : ∀ k ∈ b, k ∈ c) (h : meetsWords a b = true) : meetsWords a c = true := by
  simp only [meetsWords, List.any_eq_true] at h ⊢
  obtain ⟨k, hk, q, hq, hword⟩ := h
  exact ⟨k, hk, q, hsub q hq, hword⟩

/-- What comes before a read of some keys comes before a read of more of them. -/
theorem State.readsAfter_mono {s : State} {id : Nat} {part ks : List Nat} (hsub : ∀ k ∈ part, k ∈ ks) (h : s.readsAfter id part = true) :
    s.readsAfter id ks = true := by
  have hmeets : ∀ a, meetsWords a part = true → meetsWords a ks = true := fun a => meetsWords_mono hsub
  have hkeys : part.isEmpty = false → ks.isEmpty = false := fun h => by
    obtain ⟨k, hk⟩ := List.exists_mem_of_ne_nil part (by simpa using h)
    exact List.isEmpty_eq_false_iff_exists_mem.mpr ⟨k, hsub k hk⟩
  simp only [State.readsAfter, State.readBefore, State.seenBefore, State.cmdBefore, Bool.or_eq_true, Bool.and_eq_true, List.any_eq_true,
    Bool.not_eq_true'] at h ⊢
  rcases h with ((⟨p, hp, hid, hm⟩ | ⟨hclaim, o, ho, hid, hm⟩) | ⟨hne, x, hx, hctx, hm⟩) | ⟨p, hp, hid, hm⟩
  · exact .inl (.inl (.inl ⟨p, hp, hid, hmeets _ hm⟩))
  · exact .inl (.inl (.inr ⟨hclaim, o, ho, hid, hmeets _ hm⟩))
  · exact .inl (.inr ⟨hkeys hne, x, hx, hctx, hm.imp_right (hmeets _)⟩)
  · refine .inr ⟨p, hp, hid, ?_⟩
    split at hm
    · exact hmeets _ hm
    · cases hm

/-- A context that may read some keys now may read a part of them. -/
theorem State.readsAfter_part {s : State} {id : Nat} {part ks : List Nat} (hsub : ∀ k ∈ part, k ∈ ks) (h : s.readsAfter id ks = false) :
    s.readsAfter id part = false := Bool.eq_false_iff.mpr fun hp => Bool.eq_false_iff.mp h (State.readsAfter_mono hsub hp)

theorem State.readsAfter_withRead (s : State) (l : List (Bool × Nat × Nat × Nat)) (id : Nat) (keys : List Nat) :
    (s.withRead l).readsAfter id keys = s.readsAfter id keys := by
  rw [State.readsAfter, State.readBefore, (SameSpaces.withRead s l).cmdBefore]
  rfl

theorem map_byteAt_sources (s : State) : ∀ {pay homes : List Nat}, homes.length = pay.length →
    (sources pay homes).map s.byteAt = pay.map (Mem.get s.mem)
  | [], _, _ => rfl
  | _ :: pay, _ :: homes, h =>
    congrArg (List.cons _) (map_byteAt_sources s (pay := pay) (homes := homes) (Nat.succ_injective h))

/-- The arguments of a descriptor are its words 2 to 5. -/
theorem State.mkMsg_words (s : State) (w0 hpc : Word) (ws : List Word) (payload : List Byte) :
    s.mkMsg w0 hpc 0 ((ws.drop 2).take 4) payload false =
      s.mkMsg w0 hpc 0 [ws.getD 2 0, ws.getD 3 0, ws.getD 4 0, ws.getD 5 0] payload false := by
  simp [State.mkMsg, List.getD_eq_getElem?_getD]

section
variable {s : State} {a : Reg} {ws : List Word} {pay homes : List Nat}

/-- The message of a descriptor. -/
def State.descriptorMsg (s : State) (ws : List Word) (pay : List Nat) : Msg :=
  s.mkMsg (ws.getD 0 0) (ws.getD 1 0) 0 [ws.getD 2 0, ws.getD 3 0, ws.getD 4 0, ws.getD 5 0] (pay.map (Mem.get s.mem)) false

theorem sendRecord_refused (h : hdrOk (ws.getD 0 0) (ws.getD 1 0) = false) : sendRecord a ws s = .next (s.trap ⟨1, 1, s.x a⟩) := by
  simp only [sendRecord, h]
  rfl

/-- SEND with a descriptor in order, whose payload lies at keys that it may read now. -/
theorem sendRecord_sends (h : hdrOk (ws.getD 0 0) (ws.getD 1 0) = true) (hlen : homes.length = pay.length)
    (hpay : s.payloadAt (ws.getD 6 0) (msgPlen (ws.getD 0 0)) = .ok (sources pay homes)) (hpow : s.powered pay = true)
    (hfree : s.readsAfter s.nextId pay = false) (hl1 : s.core.l1 = []) :
    sendRecord a ws s = .next ((s.note pay).sendOff (s.descriptorMsg ws pay) (State.retire 8)) := by
  have htouch : State.touch s.k s pay = s.note pay := by
    obtain ⟨l, hl⟩ := s.note_eq pay
    rw [State.touch, hl]
    exact State.dropCopies_empty _ ((congrArg Core.l1 (State.getCore_current (s.withRead l))).trans hl1) pay
  have hread : (s.powered pay && !s.readsAfter s.nextId pay) = true := by simp [hpow, hfree]
  simp only [sendRecord, h, Bool.not_true, Bool.false_eq_true, if_false]
  refine (State.whenIndexed_sources (by rw [← State.payloadAt_eq]; exact hpay) _).trans ?_
  simp only [hpay, srcKeys_sources hlen, hread, htouch, map_byteAt_sources s hlen, State.mkMsg_words]
  rfl

end

theorem sendsDescriptor : Claim.SendsDescriptor := by
  intro s a keys homes pay at' hlen hpaylen hldc hstc hh hvn halign hchecks hplain hpow hfree hl1 w vn s'
  obtain ⟨hpkeys, hppay⟩ := Bool.and_eq_true_iff.mp ((State.powered_append s keys pay).symm.trans hpow)
  have hrec : s.RecordAt (s.x a) 8 keys homes := ⟨hlen, hchecks, fun k hk => hplain k (List.mem_append_left _ hk), hpkeys,
    State.readsAfter_part (fun k => List.mem_append_left _) hfree⟩
  have hfpay : s.readsAfter s.nextId pay = false := State.readsAfter_part (fun k => List.mem_append_right _) hfree
  have hexec : exec (.send a) s = sendRecord a (keys.map (Mem.word s.mem)) s' := by
    change execSend a s = _
    rw [execSend, aligned_ok (n := 6) halign]
    refine (State.checkedBlock_record hrec _).trans ?_
    rw [State.releasing_drained _ _ _ (Ctx.drained_of hldc hstc), State.withRecord_record hrec]
  obtain ⟨l, hl⟩ : ∃ l, s' = s.withRead l := State.readingWords_eq keys s
  clear_value s'
  subst hl
  refine ⟨fun hbad => hexec.trans (sendRecord_refused hbad), fun hok hpay => ?_⟩
  have hpay' : (s.withRead l).payloadAt (w 6) (msgPlen (w 0)) = .ok (sources pay at') := by
    rw [State.payloadAt_eq, (SameSpaces.withRead s l).loadsFrom, ← State.payloadAt_eq, hpay]
  have hfpay' : (s.withRead l).readsAfter s.nextId pay = false := by rw [State.readsAfter_withRead, hfpay]
  have hsend := hexec.trans (sendRecord_sends (s := s.withRead l) (a := a) hok hpaylen hpay'
    (by rw [(SameSpaces.withRead s l).powered, hppay]) hfpay' hl1)
  obtain ⟨l', hnote⟩ := (s.withRead l).note_eq pay
  rw [hnote] at hsend ⊢
  refine ⟨fun hcan => ?_, fun hcan hfull => ?_, fun hcan hfree => ?_⟩
  · exact hsend.trans (congrArg _ (State.sendOff_unreachable hcan))
  · exact hsend.trans (congrArg _ (State.sendOff_waits hcan (.inl hvn) hh hfull))
  · obtain ⟨u, hgives, hmem, hret, hout, -⟩ :=
      goes_of_inject (s := s) (u := (s.withRead l).withRead l') ⟨fun _ => rfl, rfl, rfl⟩ (fun _ => rfl)
        (hsend.trans (congrArg _ (State.sendOff_sent hcan (.inl hvn) hh hfree)))
    exact ⟨u, hgives, hmem, hret, hout⟩

/-- Settles O52: every send ends in the steps of R200, `State.sendOff`. -/
theorem messagesOut : Obligations.MessagesOut := ⟨sends, sendsDescriptor⟩

end Sys2Proof.Machine
end

section
/-! HALT.M and MDONE (08 R201, R206). -/

namespace Sys2Proof.Machine

open Sys2Proof

/-- A state that may end does so at once; the same of a state with its control context. -/
theorem State.finish_spec {s : State} (h : MayEnd s) : ∃ clusters claim release offer tacqs, s.finish false =
    { s with ctx := s.ctx.ended, core := s.core.vacated s.c claim release offer tacqs
             clusters := clusters, orphans := s.orphans ++ s.leftWrites } := by
  obtain ⟨hldc, hclaim, -, heng⟩ := h
  rw [State.finish_now (State.mayEnd_of hldc (.inl hclaim))]
  exact State.conclude_spec heng

/-! ## HALT.M (R206) -/

/-- Two cores agree on what sending a message leaves alone. -/
structure Core.SameWork (c d : Core) : Prop where
  claim : d.claim = c.claim
  release : d.release = c.release
  inq0 : d.inq0 = c.inq0
  inq1 : d.inq1 = c.inq1

theorem Core.SameWork.trans {c d e : Core} (h : c.SameWork d) (h' : d.SameWork e) : c.SameWork e :=
  ⟨h'.claim.trans h.claim, h'.release.trans h.release, h'.inq0.trans h.inq0, h'.inq1.trans h.inq1⟩

theorem Core.setOut_work (c : Core) (vn : Bool) (l : List Msg) : c.SameWork (c.setOut vn l) ∧ (c.setOut vn l).deque = c.deque := by
  cases vn <;> exact ⟨⟨rfl, rfl, rfl, rfl⟩, rfl⟩

theorem Core.sending_work (c : Core) (n : Nat) (m : Msg) (mid : Word) :
    c.SameWork (c.sending n m mid) ∧ (c.sending n m mid).deque = c.deque := by
  obtain ⟨⟨hclaim, hrelease, hinq0, hinq1⟩, hdeque⟩ := c.setOut_work (msgVn m.w0) (c.out (msgVn m.w0) ++ [{ m with mid := mid }])
  exact ⟨⟨hclaim, hrelease, hinq0, hinq1⟩, hdeque⟩

theorem Core.sending_other {vn : Bool} {m : Msg} (h : msgVn m.w0 ≠ vn) (c : Core) (n : Nat) (mid : Word) :
    (c.sending n m mid).out vn = c.out vn ∧ (c.sending n m mid).seq vn = c.seq vn := by
  obtain rfl : vn = !msgVn m.w0 := Bool.eq_not_of_ne h.symm
  cases hm : msgVn m.w0 <;> simp [Core.sending, Core.queued, Core.setOut, Core.out, Core.seq, hm]

theorem MayEnd.of_core {s : State} (h : MayEnd s) {c : Core} (hc : s.core.SameWork c) : MayEnd { s with core := c } := by
  obtain ⟨hldc, hclaim, hregion, heng⟩ := h
  refine ⟨hldc, ?_, hregion, heng⟩
  change (c.claim == some s.c && !c.release) = false
  rw [hc.claim, hc.release]
  exact hclaim

/-- Word 0 of a reply: VN1, and the source that a message identifier names. -/
theorem replyHeader_eq (mid : Word) : bitAt true 32 ||| (mid &&& 0x1FFFFFF) = ofN (2 ^ 32 + mid.toNat % 2 ^ 25) := by
  have hlow : mid.toNat % 2 ^ 25 < 2 ^ 32 := lt_trans (Nat.mod_lt _ (by decide)) (by decide)
  apply BitVec.eq_of_toNat_eq
  calc (bitAt true 32 ||| (mid &&& 0x1FFFFFF)).toNat = 2 ^ 32 ||| (mid.toNat &&& (2 ^ 25 - 1)) := by
        rw [BitVec.toNat_or, BitVec.toNat_and]; rfl
    _ = 2 ^ 32 + mid.toNat % 2 ^ 25 := by
        rw [Nat.and_two_pow_sub_one_eq_mod]
        exact (Nat.two_pow_add_eq_or_of_lt hlow 1).symm
    _ = (ofN (2 ^ 32 + mid.toNat % 2 ^ 25)).toNat := by
        rw [ofN, BitVec.toNat_ofNat]
        exact (Nat.mod_eq_of_lt (by omega)).symm

theorem replyHeader_vn (mid : Word) : msgVn (bitAt true 32 ||| (mid &&& 0x1FFFFFF)) = true := by
  simp [msgVn, bitAt]

theorem exec_haltM {s : State} (hh : s.ctx.hnd = false) (hwdm : s.ctx.wd.wdm = false) (hd : s.ctx.drained = true) :
    exec .haltM s = .next (s.sendOff s.reply fun s => s.finish false) := by
  change execHaltM s = _
  rw [execHaltM, State.mayHalt_ok hh (by simp [hwdm])]
  exact State.releasing_drained s .haltM _ hd

theorem haltM_replies {s : State} (hend : MayEnd s) (hstc : s.ctx.stc = 0) (hh : s.ctx.hnd = false) (hwdm : s.ctx.wd.wdm = false)
    (hvn : s.ctx.hvn = false) (hcan : s.canReceive s.reply.w0 = true) (hfree : 0 < s.core.freeSlots true) :
    ∃ u, Gives .haltM s u ∧ u.ctx = .reset ∧ SameMemory s u ∧
      u.core.out1 = s.core.out1 ++ [{ s.reply with mid := midOf s s.cur true s.core.seq1 }] := by
  have hreply : msgVn s.reply.w0 = true := replyHeader_vn _
  have hexec := (exec_haltM hh hwdm (Ctx.drained_of hend.1 hstc)).trans
    (congrArg _ (State.sendOff_sent (k := fun s => s.finish false) hcan (.inl hvn) hh (by rwa [hreply])))
  rw [State.inject_eq, hreply] at hexec
  obtain ⟨clusters, claim, release, offer, tacqs, hu⟩ :=
    State.finish_spec (s := { s with core := s.core.sending s.c s.reply (midOf s s.cur true (s.core.seq true)) })
      (hend.of_core (Core.sending_work ..).1)
  have hout := s.core.sending_out s.c s.reply (midOf s s.cur true (s.core.seq true))
  rw [hu] at hexec
  rw [hreply] at hout
  exact ⟨_, hexec, Ctx.ended_ordinary hh, fun _ => rfl, hout⟩

/-! ## MDONE (R201) -/

/-- The FORKs among what a handler holds. -/
def heldForkRecs (l : List Held) : List TaskRec := l.filterMap fun h => match h with | .fork t => some t | .send _ => none

/-- The sends among what a handler holds, on one network. -/
def heldSends (vn : Bool) (l : List Held) : List Msg :=
  l.filterMap fun h => match h with | .send m => if msgVn m.w0 = vn then some m else none | .fork _ => none

/-- Messages with the identifiers they carry when they go in this order. -/
def numbered (s : State) (vn : Bool) (seq : BitVec 16) (l : List Msg) : List Msg :=
  l.zipIdx.map fun e => { e.1 with mid := midOf s s.cur vn (seq + BitVec.ofNat 16 e.2) }

theorem numbered_cons (s : State) (vn : Bool) (seq : BitVec 16) (m : Msg) (l : List Msg) :
    numbered s vn seq (m :: l) = { m with mid := midOf s s.cur vn seq } :: numbered s vn (seq + 1) l := by
  rw [numbered, List.zipIdx_cons, List.map_cons, zero_add, List.zipIdx_succ, List.map_map]
  have hseq : ∀ i, seq + BitVec.ofNat 16 (i + 1) = seq + 1 + BitVec.ofNat 16 i := fun i => by
    rw [Nat.add_comm i 1, BitVec.ofNat_add, ← BitVec.add_assoc]
    rfl
  refine congrArg₂ List.cons (by simp) (List.map_congr_left fun e _ => ?_)
  exact congrArg (fun n => { e.1 with mid := midOf s s.cur vn n }) (hseq e.2)

theorem heldSends_send (vn : Bool) (m : Msg) (l : List Held) :
    heldSends vn (.send m :: l) = if msgVn m.w0 = vn then m :: heldSends vn l else heldSends vn l := by
  by_cases h : msgVn m.w0 = vn <;> simp [heldSends, h]

/-- The core `c` of a context after what the handler held has gone. -/
structure Core.Released (s : State) (l : List Held) (c : Core) : Prop where
  work : s.core.SameWork c
  deque : c.deque = s.core.deque ++ heldForkRecs l
  out : ∀ vn, c.out vn = s.core.out vn ++ numbered s vn (s.core.seq vn) (heldSends vn l)

/-- A core without the slot that context `n` of it has reserved for a message. -/
def Core.unreserved (c : Core) (m : Msg) (n : Nat) : Core := c.setResv (msgVn m.w0) ((c.resv (msgVn m.w0)).erase n)

theorem Core.unreserved_work (c : Core) (m : Msg) (n : Nat) : c.SameWork (c.unreserved m n) ∧
    (c.unreserved m n).deque = c.deque ∧ (c.unreserved m n).out = c.out ∧ (c.unreserved m n).seq = c.seq := by
  unfold Core.unreserved Core.setResv
  split <;> exact ⟨⟨rfl, rfl, rfl, rfl⟩, rfl, rfl, rfl⟩

/-- The identifier that the next message of the current context carries. -/
def State.nextMid (s : State) (m : Msg) : Word := midOf s s.cur (msgVn m.w0) (s.core.seq (msgVn m.w0))

/-- The core of a context after the first message that its handler holds has gone. -/
def State.sentHeld (s : State) (m : Msg) : Core := (s.core.unreserved m s.c).sending s.c m (s.nextMid m)

theorem State.releaseHeld_send (s : State) (m : Msg) (l : List Held) :
    s.releaseHeld (.send m :: l) = State.releaseHeld { s with core := s.sentHeld m } l := by
  rw [State.releaseHeld, State.inject_eq, State.sentHeld, State.nextMid, ← (s.core.unreserved_work m s.c).2.2.2]
  rfl

theorem State.sentHeld_out (s : State) (m : Msg) (vn : Bool) (l : List Held) :
    (s.sentHeld m).out vn ++ numbered s vn ((s.sentHeld m).seq vn) (heldSends vn l) =
      s.core.out vn ++ numbered s vn (s.core.seq vn) (heldSends vn (.send m :: l)) := by
  obtain ⟨-, -, hout, hseq⟩ := s.core.unreserved_work m s.c
  rw [heldSends_send]
  by_cases h : msgVn m.w0 = vn
  · subst h
    rw [if_pos rfl, numbered_cons, State.sentHeld, Core.sending_out, Core.sending_seq, hout, hseq, List.append_assoc]
    rfl
  · rw [if_neg h, State.sentHeld, (Core.sending_other h ..).1, (Core.sending_other h ..).2, hout, hseq]

theorem State.releaseHeld_spec : ∀ (l : List Held) (s : State), s.core.deque.length + (heldForkRecs l).length ≤ 64 →
    ∃ c, s.releaseHeld l = { s with core := c } ∧ c.Released s l
  | [], s, _ => ⟨s.core, rfl, ⟨rfl, rfl, rfl, rfl⟩, (List.append_nil _).symm, fun _ => (List.append_nil _).symm⟩
  | .fork t :: l, s, hroom => by
    have hforks : heldForkRecs (.fork t :: l) = t :: heldForkRecs l := rfl
    rw [hforks, List.length_cons] at hroom
    obtain ⟨c, hc, hwork, hdeque, hout⟩ :=
      State.releaseHeld_spec l { s with core := { s.core.endThief with deque := s.core.deque ++ [t] } }
        (by rw [List.length_append, List.length_singleton]; omega)
    refine ⟨c, ?_, ⟨hwork.claim, hwork.release, hwork.inq0, hwork.inq1⟩, ?_, hout⟩
    · rw [State.releaseHeld, State.pushTask_room (by omega), hc]
    · rw [hdeque, hforks, List.append_assoc]
      rfl
  | .send m :: l, s, hroom => by
    obtain ⟨hwork, hdeque⟩ := (s.core.unreserved m s.c).sending_work s.c m (s.nextMid m)
    obtain ⟨hwork', hdeque', -, -⟩ := s.core.unreserved_work m s.c
    have hsame : (s.sentHeld m).deque = s.core.deque := hdeque.trans hdeque'
    obtain ⟨c, hc, hrel⟩ := State.releaseHeld_spec l { s with core := s.sentHeld m } (by rw [hsame]; exact hroom)
    exact ⟨c, (s.releaseHeld_send m l).trans hc, (hwork'.trans hwork).trans hrel.work, hrel.deque.trans (congrArg (· ++ _) hsame),
      fun vn => (hrel.out vn).trans (s.sentHeld_out m vn l)⟩

/-! ## The end of a handler -/

/-- A handler that has released what it held, its message gone from its queue. -/
def State.served (s : State) (c : Core) : State :=
  { s with ctx := { s.ctx with heldq := [] }, core := { c with inq0 := dropMsgs s.c c.inq0, inq1 := dropMsgs s.c c.inq1 } }

theorem State.mdoneEnd_eq {s : State} {c : Core} (h : s.releaseHeld s.ctx.heldq = { s with core := c }) (hphase : s.ctx.phase = .active) :
    s.mdoneEnd = (s.served c).finish false := by
  rw [State.mdoneEnd, h]
  exact if_neg (by rw [hphase]; decide)

theorem dropMsgs_dropMsgs (n : Nat) (l : List InEntry) : dropMsgs n (dropMsgs n l) = dropMsgs n l := by
  simp [dropMsgs, List.filter_filter]

theorem exec_mdone {s : State} (hh : s.ctx.hnd = true) :
    exec .mdone s = .next (if s.ctx.ldc = 0 then s.mdoneEnd else s.stall .mdone) := by
  change checked s (require s.ctx.hnd _) _ = _
  rw [hh]
  rfl

theorem exec_mdone_outside {s : State} (hh : s.ctx.hnd = false) : Traps .mdone s ⟨1, 2, low64 .mdone⟩ := by
  change checked s (require s.ctx.hnd _) _ = _
  rw [hh]
  rfl

theorem mdone_ends {s : State} (hend : MayEnd s) (hh : s.ctx.hnd = true) (hphase : s.ctx.phase = .active)
    (hroom : s.core.deque.length + (heldForkRecs s.ctx.heldq).length ≤ 64) :
    ∃ u, Gives .mdone s u ∧ u.ctx = s.ctx.ended ∧ SameMemory s u ∧ u.core.inq0 = dropMsgs s.c s.core.inq0 ∧
      u.core.inq1 = dropMsgs s.c s.core.inq1 ∧ u.core.deque = s.core.deque ++ heldForkRecs s.ctx.heldq ∧
      ∀ vn, u.core.out vn = s.core.out vn ++ numbered s vn (s.core.seq vn) (heldSends vn s.ctx.heldq) := by
  obtain ⟨c, hc, hwork, hdeque, hout⟩ := s.releaseHeld_spec s.ctx.heldq hroom
  have hserved : MayEnd (s.served c) := by
    obtain ⟨hldc, hclaim, hregion, heng⟩ := hend.of_core hwork
    exact ⟨hldc, hclaim, hregion, heng⟩
  obtain ⟨clusters, claim, release, offer, tacqs, hu⟩ := State.finish_spec hserved
  have hexec := exec_mdone hh
  rw [if_pos hend.1, State.mdoneEnd_eq hc hphase, hu] at hexec
  refine ⟨_, hexec, rfl, fun _ => rfl, ?_, ?_, hdeque, hout⟩
  · rw [← hwork.inq0]
    exact dropMsgs_dropMsgs ..
  · rw [← hwork.inq1]
    exact dropMsgs_dropMsgs ..

/-- Settles O28: the reply is sent as R200 has it and the context concluded; a handler's held operations go one by one. -/
theorem messageEnds : Obligations.MessageEnds := by
  intro s
  refine ⟨?_, exec_mdone_outside, fun hh hldc => ?_, ?_⟩
  · intro hend hstc hh hwdm hvn slot mid w0 hcan hfree
    have hw0 : s.reply.w0 = w0 := replyHeader_eq mid
    obtain ⟨u, hgives, hctx, hmem, hout⟩ := haltM_replies hend hstc hh hwdm hvn (by rw [hw0]; exact hcan) hfree
    refine ⟨u, hgives, hctx, hmem, hout.trans ?_⟩
    rw [← hw0]
    rfl
  · exact (exec_mdone hh).trans (by rw [if_neg hldc])
  · intro hend hh hphase ends forks sends sent hroom
    obtain ⟨u, hgives, hctx, hmem, hinq0, hinq1, hdeque, hout⟩ := mdone_ends hend hh hphase hroom
    exact ⟨u, ⟨hgives, hctx, hmem, hinq0, hinq1⟩, hdeque, hout false, hout true⟩

end Sys2Proof.Machine
end

section
/-! AMO and ARRIVE (08 R188, R213, R218). -/

namespace Sys2Proof.Machine

open Sys2Proof

/-! ## What an AMO computes (R213) -/

/-- An operand read as a signed number of `w` bits. -/
def signedOf (w v : Nat) : Int := if v < 2 ^ (w - 1) then v else (v : Int) - 2 ^ w

theorem ite_lt_of {p : Prop} [Decidable p] {x y m : Nat} (hx : x < m) (hy : y < m) : (if p then x else y) < m := by
  split
  · exact hx
  · exact hy

theorem amoNew_lt {n old o : Nat} (ho : old < 2 ^ (8 * n)) (hv : o < 2 ^ (8 * n)) (c : Nat) : ∀ op, amoNew op n old o c < 2 ^ (8 * n)
  | .swap => hv
  | .add => Nat.mod_lt _ (Nat.two_pow_pos _)
  | .and => Nat.and_lt_two_pow _ hv
  | .or => Nat.or_lt_two_pow ho hv
  | .xor => Nat.xor_lt_two_pow ho hv
  | .min | .max | .minu | .maxu | .cas => ite_lt_of hv ho

/-- The halves of the model's sign test. -/
theorem half_two_pow {n : Nat} (h : n = 4 ∨ n = 8) : 2 ^ (8 * n) / 2 = 2 ^ (8 * n - 1) := by rcases h with rfl | rfl <;> rfl

theorem amoNew_min {n : Nat} (h : n = 4 ∨ n = 8) (old o c : Nat) :
    signedOf (8 * n) (amoNew .min n old o c) = min (signedOf (8 * n) old) (signedOf (8 * n) o) := by
  have hnew : amoNew .min n old o c = if signedOf (8 * n) o < signedOf (8 * n) old then o else old := by
    simp only [amoNew, signedOf, half_two_pow h]
    norm_cast
  rw [hnew]
  split <;> omega

theorem amoNew_max {n : Nat} (h : n = 4 ∨ n = 8) (old o c : Nat) :
    signedOf (8 * n) (amoNew .max n old o c) = max (signedOf (8 * n) old) (signedOf (8 * n) o) := by
  have hnew : amoNew .max n old o c = if signedOf (8 * n) old < signedOf (8 * n) o then o else old := by
    simp only [amoNew, signedOf, half_two_pow h]
    norm_cast
  rw [hnew]
  split <;> omega

theorem amoValues : Claim.AmoValues := by
  intro n old o c hn hold ho signed new bits
  refine ⟨amoNew_lt hold ho c, rfl, rfl, fun j => Nat.testBit_and .., fun j => Nat.testBit_or .., fun j => Nat.testBit_xor ..,
    amoNew_min hn old o c, amoNew_max hn old o c, ?_, ?_, rfl⟩
  · change (if o < old then o else old) = _
    split <;> omega
  · change (if old < o then o else old) = _
    split <;> omega

/-! ## Issue -/

section
variable {s : State} {op : AmoOp} {ord : MemOrd} {near dbl : Bool} {d a b c : Reg} {imm : BitVec 12} {key : Nat}

theorem ordRel_iff : ordRel ord = true ↔ ord = .rel ∨ ord = .ar := by cases ord <;> decide

theorem ordAcq_eq : ordAcq ord = decide (ord = .acq ∨ ord = .ar) := by cases ord <;> decide

/-- The access that an AMO is. -/
def amoAccess (s : State) (op : AmoOp) (ord : MemOrd) (near dbl : Bool) (d b c : Reg) (key : Nat) : PendOp :=
  let n := if dbl then 8 else 4
  if near then .nearAmo op n key (lowBytes n (s.x b)) (lowBytes n (s.x c))
  else .amo op n key (lowBytes n (s.x b)) (lowBytes n (s.x c)) d (ordAcq ord)

theorem State.issueAt_powered (h : s.powered [key] = true) (va : Word) (o : PendOp) :
    s.issueAt va key o = State.retire 8 (s.issuing o [s.homeAt va key]) := by
  rw [State.issueAt, State.wakeFor_powered _ _ h]
  rfl

theorem exec_amo_aliased (h : s.storeCheck (s.x a + ofI imm.toInt) (if dbl then 8 else 4) .rw = .ok key) (hnear : near = true)
    (halias : aliasOf s.k (s.x a + ofI imm.toInt) ≠ none) :
    Traps (.amo op ord near dbl d a b c imm) s ⟨5, 7, s.x a + ofI imm.toInt⟩ := by
  have hcheck : s.amoCheck (s.x a + ofI imm.toInt) (if dbl then 8 else 4) near = .error ⟨5, 7, s.x a + ofI imm.toInt⟩ := by
    simp [State.amoCheck, andThen, h, hnear, Option.isSome_iff_ne_none.mpr halias, require, sfault]
  change (match s.amoCheck (s.x a + ofI imm.toInt) (if dbl then 8 else 4) near with | .error t => _ | .ok key => _) = _
  rw [hcheck]

theorem exec_amo (h : s.storeCheck (s.x a + ofI imm.toInt) (if dbl then 8 else 4) .rw = .ok key)
    (halias : near = false ∨ aliasOf s.k (s.x a + ofI imm.toInt) = none) : exec (.amo op ord near dbl d a b c imm) s =
      if ordRel ord then s.releasing (.amo op ord near dbl d a b c imm) fun u =>
        .next (u.issueAt (s.x a + ofI imm.toInt) key (amoAccess s op ord near dbl d b c key))
      else .next (s.issueAt (s.x a + ofI imm.toInt) key (amoAccess s op ord near dbl d b c key)) := by
  have hcheck : s.amoCheck (s.x a + ofI imm.toInt) (if dbl then 8 else 4) near = .ok key := by
    rcases halias with halias | halias <;> simp [State.amoCheck, andThen, h, halias, require]
  change (match s.amoCheck (s.x a + ofI imm.toInt) (if dbl then 8 else 4) near with | .error t => _ | .ok key => _) = _
  rw [hcheck]
  rfl

/-- Outside the aliased range, or on the CORE path, an AMO whose checks pass goes out, after the accesses that a release waits for. -/
theorem amo_done (h : s.storeCheck (s.x a + ofI imm.toInt) (if dbl then 8 else 4) .rw = .ok key)
    (halias : near = false ∨ aliasOf s.k (s.x a + ofI imm.toInt) = none) (hpow : s.powered [key] = true)
    (hfree : ordRel ord = true → s.ctx.drained = true) : Done (.amo op ord near dbl d a b c imm) s
      (s.issuing (amoAccess s op ord near dbl d b c key) [s.homeAt (s.x a + ofI imm.toInt) key]) 8 := by
  refine done_of_retire (.issuing ..) ?_
  rw [exec_amo h halias]
  split
  next hrel => rw [State.releasing_drained _ _ _ (hfree hrel), State.issueAt_powered hpow]
  next => rw [State.issueAt_powered hpow]

theorem amo_waits (h : s.storeCheck (s.x a + ofI imm.toInt) (if dbl then 8 else 4) .rw = .ok key)
    (halias : near = false ∨ aliasOf s.k (s.x a + ofI imm.toInt) = none) (hrel : ordRel ord = true) (hd : s.ctx.drained = false) :
    Waits (.amo op ord near dbl d a b c imm) s (.release (.amo op ord near dbl d a b c imm)) := by
  rw [Waits, exec_amo h halias, if_pos hrel, State.releasing_waits _ _ _ hd]

theorem exec_arrive (h : s.storeCheck (s.x a + ofI imm.toInt) 8 .rw = .ok key) : exec (.arrive d a imm) s =
    s.releasing (.arrive d a imm) fun u => .next (u.issueAt (s.x a + ofI imm.toInt) key (.amo .add 8 key 1 0 d false)) := by
  change (match s.storeCheck (s.x a + ofI imm.toInt) 8 .rw with | .error t => _ | .ok key => _) = _
  rw [h]
  rfl

theorem arrive_done (h : s.storeCheck (s.x a + ofI imm.toInt) 8 .rw = .ok key) (hpow : s.powered [key] = true)
    (hd : s.ctx.drained = true) : Done (.arrive d a imm) s
      (s.issuing (.amo .add 8 key 1 0 d false) [s.homeAt (s.x a + ofI imm.toInt) key]) 8 := by
  refine done_of_retire (.issuing ..) ?_
  rw [exec_arrive h, State.releasing_drained _ _ _ hd, State.issueAt_powered hpow]

end

/-! ## An AMO is performed -/

theorem find_filter {α : Type} {p : Nat → Bool} : ∀ {l : List (Nat × α)} {w : Nat},
    (find (l.filter fun e => p e.1) w).isSome = true → p w = true
  | [], _, h => by cases h
  | (k, v) :: l, w, h => by
    rw [List.filter_cons] at h
    split at h
    · rw [find] at h
      split at h
      next hk hw => rwa [hw]
      next => exact find_filter h
    · exact find_filter h

theorem State.acquire_eq (s : State) : State.acquire s.k s =
    { s with core := { s.core with l1 := s.core.l1.filter fun e => s.owns s.k e.1 } } := State.modCore_current ..

/-- An acquire leaves in the L1 the words that the core owns. -/
theorem State.acquire_owned {s : State} {w : Nat} (h : (find (State.acquire s.k s).core.l1 w).isSome = true) : s.owns s.k w = true := by
  rw [State.acquire_eq] at h
  exact find_filter h

section
variable {s : State} {id : Nat} {op : AmoOp} {m key : Nat} {u v : Word} {d : Reg} {ac sn : Bool}
  {hs : List (Sys2Proof.Path × Nat)} {rest : List Pend}

/-- The AMO's read and write. -/
def State.amoPerformed (s : State) (op : AmoOp) (m key : Nat) (u v : Word) : State :=
  State.performStore s.k true (s.note ((List.range m).map (key + ·)))
    (cellsOf key m (amoNew op m (leNat (Mem.bytes s.mem key m)) u.toNat v.toNat))

theorem State.amoPerformed_spec (s : State) (op : AmoOp) (m key : Nat) (u v : Word) :
    (s.amoPerformed op m key u v).ctx = s.ctx ∧ (s.amoPerformed op m key u v).cur = s.cur ∧
      Stored s (s.amoPerformed op m key u v) (cellsOf key m (amoNew op m (leNat (Mem.bytes s.mem key m)) u.toNat v.toNat)) := by
  obtain ⟨l, hl⟩ := s.note_eq ((List.range m).map (key + ·))
  rw [State.amoPerformed, hl]
  exact ⟨State.performStore_ctx .., State.performStore_cur .., State.performStore_stored s.k true _ (s.withRead l)⟩

theorem State.loadDone_amo (hp : s.ctx.pend = ⟨id, .amo op m key u v d ac, hs, sn⟩ :: rest)
    (hread : s.readsAfter id ((List.range m).map (key + ·)) = false) (hpow : s.powered [key] = true) :
    s.loadDone 0 = (s.amoPerformed op m key u v).loadFin id ac (.x d m false) [⟨0, m, .val 0⟩] [leNat (Mem.bytes s.mem key m)] := by
  have hreach : ∀ sites, s.mayReach 0 sites = true := fun _ => rfl
  simp [State.loadDone, hp, PendOp.reads, State.mayRead, hreach, hread, hpow, State.amoPerformed]

theorem State.loadFin_acquires (hw : s.ctx.wait = .none) (r : Reg) (n : Nat) (x : Bool) (lanes : List LoadLane) (vals : List Nat) :
    s.loadFin id true (.x r n x) lanes vals =
      let t := State.setX { s with ctx := s.ctx.unpend id } r (extended n x (laneSum lanes vals))
      State.acquire t.k t := by
  have hwait : (State.setX { s with ctx := s.ctx.unpend id } r (extended n x (laneSum lanes vals))).ctx.wait = .none :=
    (State.setX_ctx_wait ..).trans hw
  refine State.settleHere_none ?_
  rw [if_pos rfl, State.acquire_eq]
  exact hwait

/-- The AMO's register has the word it read. -/
def State.amoLeft (s : State) (op : AmoOp) (m key : Nat) (u v : Word) (d : Reg) (rest : List Pend) : State :=
  State.setX { s.amoPerformed op m key u v with ctx := { s.ctx with pend := rest } } d (extended m false (leNat (Mem.bytes s.mem key m)))

theorem State.amoLeft_spec (s : State) (op : AmoOp) (m key : Nat) (u v : Word) (d : Reg) (rest : List Pend) :
    let t := s.amoLeft op m key u v d rest
    t.cur = s.cur ∧ t.ctx.pend = rest ∧ XHolds s t d (extended m false (leNat (Mem.bytes s.mem key m))) ∧
      Stored s t (cellsOf key m (amoNew op m (leNat (Mem.bytes s.mem key m)) u.toNat v.toNat)) := by
  obtain ⟨-, hcur, hstored⟩ := s.amoPerformed_spec op m key u v
  intro t
  refine ⟨(State.setX_cur ..).trans hcur, State.setX_ctx_pend .., fun q => State.setX_x .., fun hwf a => ?_⟩
  rw [← hstored hwf a]
  exact congrArg (Mem.get · a) (State.setX_mem ..)

variable (hp : s.ctx.pend = ⟨id, .amo op m key u v d ac, hs, sn⟩ :: rest) (hrest : ∀ p ∈ rest, id < p.id)
  (hread : s.readsAfter id ((List.range m).map (key + ·)) = false) (hpow : s.powered [key] = true) (hwait : s.ctx.wait = .none)
include hp hrest hread hpow hwait

theorem State.loadDone_amoLeft : s.loadDone 0 = if ac then State.acquire s.k (s.amoLeft op m key u v d rest) else s.amoLeft op m key u v d rest := by
  obtain ⟨hctx, -, -⟩ := s.amoPerformed_spec op m key u v
  have hsum : laneSum [⟨0, m, .val 0⟩] [leNat (Mem.bytes s.mem key m)] = leNat (Mem.bytes s.mem key m) := by simp [laneSum]
  have hgone : (s.amoPerformed op m key u v).ctx.unpend id = { s.ctx with pend := rest } := by
    rw [hctx]
    exact Ctx.unpend_first hp fun q hq => (hrest q hq).ne'
  have hw : (s.amoPerformed op m key u v).ctx.wait = .none := by rw [hctx, hwait]
  have hk : (s.amoLeft op m key u v d rest).k = s.k := congrArg (· / 8) (s.amoLeft_spec op m key u v d rest).1
  rw [State.loadDone_amo hp hread hpow]
  cases ac with
  | false =>
    rw [State.loadFin_x hw, hgone, hsum]
    rfl
  | true =>
    rw [State.loadFin_acquires hw, hgone, hsum, if_pos rfl, ← hk]
    rfl

theorem amoReturn : ∃ t, Gives (.loadReturn s.cur 0) s t ∧ t.ctx.pend = rest ∧
    (ac = true → ∀ w, (find t.core.l1 w).isSome = true → t.owns s.k w = true) ∧
    XHolds s t d (extended m false (leNat (Mem.bytes s.mem key m))) ∧
    Stored s t (cellsOf key m (amoNew op m (leNat (Mem.bytes s.mem key m)) u.toNat v.toNat)) := by
  have hdone := State.loadDone_amoLeft hp hrest hread hpow hwait
  obtain ⟨hcur, hpend, hx, hstored⟩ := s.amoLeft_spec op m key u v d rest
  generalize s.amoLeft op m key u v d rest = t at hdone hcur hpend hx hstored
  have hk : t.k = s.k := congrArg (· / 8) hcur
  have gives : (s.loadDone 0).cur = s.cur → Gives (.loadReturn s.cur 0) s (s.loadDone 0) := fun h => congrArg _ (State.as_self h)
  rw [hdone] at gives
  cases hac : ac with
  | false =>
    rw [hac] at gives
    exact ⟨t, gives hcur, hpend, nofun, hx, hstored⟩
  | true =>
    have howned := fun w => State.acquire_owned (s := t) (w := w)
    have hacq := t.acquire_eq
    rw [hk] at howned hacq
    rw [hac, if_pos rfl, hacq] at gives
    rw [hacq] at howned
    exact ⟨_, gives hcur, hpend, fun _ => howned, hx, hstored⟩

end

theorem amoRuns : Claim.AmoRuns := by
  intro s op ord near dbl d a b c imm key va n rel acq early i j o e hpow
  have hdrained : ¬early → s.ctx.drained = true := fun h => (Ctx.drained_iff _).mpr (by
    simpa only [early, not_or, not_not] using h)
  refine ⟨fun hcheck => ⟨exec_amo_aliased hcheck, fun halias hrel hbusy => ?_, fun hfree => ?_⟩,
    fun hcheck => ⟨fun hbusy => ?_, fun hfree => arrive_done hcheck hpow (hdrained hfree)⟩, ?_⟩
  · exact amo_waits hcheck halias (ordRel_iff.mpr hrel) (Ctx.not_drained_of hbusy)
  · have hd : ordRel ord = true → s.ctx.drained = true := fun h => hdrained (hfree (ordRel_iff.mp h))
    have hacq : ordAcq ord = acq := ordAcq_eq
    rw [← hacq]
    refine ⟨fun hnear => ?_, fun hnear halias => ?_⟩ <;> subst hnear
    · exact amo_done hcheck (.inl rfl) hpow hd
    · exact amo_done hcheck (.inr halias) hpow hd
  · exact (exec_arrive hcheck).trans (State.releasing_waits _ _ _ (Ctx.not_drained_of hbusy))
  · intro id m u v hs sn ac rest _ hp hrest hread hwait old
    exact amoReturn hp hrest hread hpow hwait

/-- Settles O30: an AMO is issued as one access, and its return is a store of the current core, then the write of its register. -/
theorem atomics : Obligations.Atomics := ⟨amoValues, amoRuns⟩

end Sys2Proof.Machine
end

section
/-! Barriers, fences and releases (08 R188, R215 to R219). -/

namespace Sys2Proof.Machine

open Sys2Proof

/-! ## The barrier word is read (R219) -/

/-- A context whose barrier is reached acquires; the arrival is over. -/
def State.pollDone (s : State) (arr : Bool) : State :=
  let s := State.acquire s.k s
  if arr then { s with ctx := { s.ctx with arrv := false } } else s

theorem State.pollDone_spec (s : State) (arr : Bool) :
    (s.pollDone arr).cur = s.cur ∧ (s.pollDone arr).mem = s.mem ∧
      (s.pollDone arr).ctx = { s.ctx with arrv := if arr then false else s.ctx.arrv } ∧
      ∀ w, (find (s.pollDone arr).core.l1 w).isSome = true → s.owns s.k w = true := by
  have howned := fun w => State.acquire_owned (s := s) (w := w)
  rw [State.acquire_eq] at howned
  rw [State.pollDone, State.acquire_eq]
  cases arr with
  | true => exact ⟨rfl, rfl, rfl, howned⟩
  | false => exact ⟨rfl, rfl, rfl, howned⟩

section
variable {s : State} {key home : Nat} {target : Word} {arr : Bool} (hpow : s.powered [key] = true) (hfree : s.coreBusy key home = false)
include hpow hfree

theorem State.poll_eq : s.poll key home target arr =
    if target.toInt ≤ (Mem.word s.mem key).toInt then State.retire 8 ((s.note (byteKeys key 8)).pollDone arr)
    else (s.note (byteKeys key 8)).stall (.await key home target arr) := by
  obtain ⟨l, hl⟩ := s.note_eq (byteKeys key 8)
  simp only [State.poll, hpow, hfree, hl, Bool.not_true, Bool.false_eq_true, if_false]
  rfl

/-- A context that has reached its barrier has acquired. -/
theorem State.poll_met (h : target.toInt ≤ (Mem.word s.mem key).toInt) :
    ∃ t, s.poll key home target arr = State.retire 8 t ∧ t.cur = s.cur ∧ t.mem = s.mem ∧
      t.ctx = { s.ctx with arrv := if arr then false else s.ctx.arrv } ∧
      ∀ w, (find t.core.l1 w).isSome = true → s.owns s.k w = true := by
  obtain ⟨l, hl⟩ := s.note_eq (byteKeys key 8)
  refine ⟨_, (State.poll_eq hpow hfree).trans (if_pos h), ?_⟩
  rw [hl]
  exact (s.withRead l).pollDone_spec arr

theorem State.poll_unmet (h : (Mem.word s.mem key).toInt < target.toInt) :
    s.poll key home target arr = (s.note (byteKeys key 8)).stall (.await key home target arr) :=
  (State.poll_eq hpow hfree).trans (if_neg (not_le.mpr h))

end

/-! ## AWAIT and ARRWAIT -/

section
variable {s : State} {a b : Reg} {imm : BitVec 12} {key : Nat}

theorem exec_await_handler (hh : s.ctx.hnd = true) : Traps (.await a imm b) s ⟨1, 2, low64 (.await a imm b)⟩ := by
  change execAwait a imm b s = _
  simp only [execAwait, State.notHandler_error hh, andThen]
  rfl

theorem exec_arrwait_handler (hh : s.ctx.hnd = true) : Traps (.arrwait a imm b) s ⟨1, 2, low64 (.arrwait a imm b)⟩ := by
  change execArrwait a imm b s = _
  simp only [execArrwait, State.notHandler_error hh, andThen]
  rfl

variable (hh : s.ctx.hnd = false) (hcheck : s.storeCheck (s.x a + ofI imm.toInt) 8 .rw = .ok key)
include hh hcheck

theorem exec_await : exec (.await a imm b) s = .next (s.poll key (s.homeAt (s.x a + ofI imm.toInt) key) (s.x b) false) := by
  change checked s (andThen (s.notHandler (.await a imm b)) fun _ => s.storeCheck (s.x a + ofI imm.toInt) 8 .rw) _ = _
  rw [State.notHandler_ok hh, andThen, hcheck]
  rfl

theorem exec_arrwait : exec (.arrwait a imm b) s =
    if s.ctx.arrv then .next (s.poll key (s.homeAt (s.x a + ofI imm.toInt) key) (s.x b) true)
    else s.releasing (.arrwait a imm b) fun u =>
      .next (((u.wakeFor [key]).issue (.arrival key) [u.homeAt (s.x a + ofI imm.toInt) key]).stall
        (.arrival key (u.homeAt (s.x a + ofI imm.toInt) key) (u.x b))) := by
  change (match andThen (s.notHandler (.arrwait a imm b)) fun _ => s.storeCheck (s.x a + ofI imm.toInt) 8 .rw with
    | .error t => _ | .ok key => _) = _
  rw [State.notHandler_ok hh, andThen, hcheck]
  rfl

theorem exec_arrwait_arrives (harr : s.ctx.arrv = false) (hpow : s.powered [key] = true) (hd : s.ctx.drained = true) :
    exec (.arrwait a imm b) s = .next ((s.issuing (.arrival key) [s.homeAt (s.x a + ofI imm.toInt) key]).stall
      (.arrival key (s.homeAt (s.x a + ofI imm.toInt) key) (s.x b))) := by
  rw [exec_arrwait hh hcheck, harr, if_neg (by decide), State.releasing_drained _ _ _ hd, State.wakeFor_powered _ _ hpow]
  rfl

end

/-- An instruction whose poll is met completes. -/
theorem done_of_poll {i : Instr} {s : State} {key home : Nat} {target : Word} {arr : Bool} (hpow : s.powered [key] = true)
    (hfree : s.coreBusy key home = false) (h : target.toInt ≤ (Mem.word s.mem key).toInt)
    (hexec : exec i s = .next (s.poll key home target arr)) :
    ∃ t, Done i s t 8 ∧ t.ctx = { s.ctx with arrv := if arr then false else s.ctx.arrv } ∧ SameMemory s t ∧
      ∀ w, (find t.core.l1 w).isSome = true → s.owns s.k w = true := by
  obtain ⟨t, hpoll, -, hmem, hctx, howned⟩ := State.poll_met (arr := arr) hpow hfree h
  rw [hpoll] at hexec
  exact ⟨t, done_of_retire (by rw [SameControl, hctx]; exact ⟨rfl, rfl, rfl⟩) hexec, hctx, fun _ => by rw [hmem], howned⟩

/-! ## Arrivals and polls as events -/

/-- The word at a key after a store of it. -/
theorem Stored.word {s t : State} {key : Nat} {v : Word} (h : Stored s t (cellsOf key 8 v.toNat)) (hwf : Memory.wf s.mem = true) :
    Mem.word t.mem key = v := by
  have hbytes : Mem.bytes t.mem key 8 = leBytes 8 v.toNat := by
    refine List.ext_getElem (by simp [Mem.bytes]) fun i hi _ => ?_
    have hi8 : i < 8 := by simpa [Mem.bytes] using hi
    simp only [Mem.bytes, List.getElem_map, List.getElem_range]
    rw [h hwf, cellsGet_cellsOf key _ hi8]
    rfl
  rw [Mem.word, hbytes, leNat_leBytes, Nat.mod_eq_of_lt v.isLt, BitVec.ofNat_toNat, BitVec.setWidth_eq]

/-- Nothing of a settled context comes before its oldest access. -/
theorem Settled.readsAfter {s : State} (h : Settled s) {id : Nat} (hp : ∀ p ∈ s.ctx.pend, ¬p.id < id) (keys : List Nat) :
    s.readsAfter id keys = false := by
  obtain ⟨htile, hcmds⟩ := h
  have hpend : ∀ f : Pend → Bool, (s.ctx.pend.any fun p => decide (p.id < id) && f p) = false := fun f =>
    List.any_eq_false.mpr fun p hmem => by simp [hp p hmem]
  have hcmd : s.cmdBefore s.cur id keys = false := by
    simp only [State.cmdBefore]
    rw [Bool.and_eq_false_iff]
    exact .inr (List.any_eq_false.mpr fun x hx => by simp [hcmds x hx])
  have hseen : s.seenBefore id keys = false := by
    simp only [State.seenBefore, Bool.and_assoc]
    exact hpend _
  have hread : s.readBefore id keys = false := by simp only [State.readBefore, hpend, hcmd, htile, List.any_nil, Bool.and_false, Bool.or_self]
  rw [State.readsAfter, hread, hseen, Bool.or_self]

section
variable {s : State} {key there : Nat} {target : Word} {id : Nat} {hs : List (Sys2Proof.Path × Nat)} {sn : Bool}

@[simp] theorem State.added_ctx (s : State) (key : Nat) (d : Word) : (s.added key d).ctx = s.ctx := by
  obtain ⟨mem, owners, checks, upset, read, l1, hadd⟩ := s.added_eq key d
  rw [hadd]

/-- The arrival of a context is performed, and its wait goes on. -/
def State.arrivalDone (s : State) (key : Nat) : State :=
  { s.added key 1 with ctx := { s.ctx with pend := [], arrv := true } }

theorem State.loadDone_arrival (hwait : s.ctx.wait = .arrival key there target) (hp : s.ctx.pend = [⟨id, .arrival key, hs, sn⟩])
    (hsettled : Settled s) (hpow : s.powered [key] = true) : s.loadDone 0 = (s.arrivalDone key).poll key there target true := by
  have hreach : ∀ sites, s.mayReach 0 sites = true := fun _ => rfl
  have hread : s.readsAfter id ((List.range 8).map (key + ·)) = false := hsettled.readsAfter (by simp [hp]) _
  have hadd : (s.homeAdd key 1#64).2 = s.added key 1#64 := rfl
  simp [State.loadDone, hp, PendOp.reads, State.mayRead, hreach, hread, hpow, hadd, hwait, Ctx.unpend, State.arrivalDone]

/-- What the arrival has done leaves nothing before the poll of its word. -/
theorem State.arrivalDone_spec (s : State) (key : Nat) :
    (s.arrivalDone key).cur = s.cur ∧ (s.arrivalDone key).ctx = { s.ctx with pend := [], arrv := true } ∧
      (s.arrivalDone key).powered = s.powered ∧ (Settled s → Settled (s.arrivalDone key)) ∧
      Stored s (s.arrivalDone key) (cellsOf key 8 (Mem.word s.mem key + 1).toNat) := by
  have hstored := s.added_stored key 1
  obtain ⟨mem, owners, checks, upset, read, l1, hadd⟩ := s.added_eq key 1
  rw [State.arrivalDone]
  rw [hadd] at hstored ⊢
  exact ⟨rfl, rfl, rfl, id, hstored⟩

theorem State.stall_same {s : State} {w : Wait} (h : s.ctx.wait = w) : s.stall w = s := by
  subst h
  rfl

/-- An arrival is performed, and its wait reads the word. -/
theorem arrivalReturns (hwait : s.ctx.wait = .arrival key there target) (hp : s.ctx.pend = [⟨id, .arrival key, hs, sn⟩])
    (hsettled : Settled s) (hpow : s.powered [key] = true) (hwf : Memory.wf s.mem = true) :
    ∃ t, Gives (.loadReturn s.cur 0) s t ∧ Stored s t (cellsOf key 8 (Mem.word s.mem key + 1).toNat) ∧
      (target.toInt ≤ (Mem.word s.mem key + 1).toInt → t.ctx = { s.ctx with
        pend := [], pc := nextPc s 8, instret := s.ctx.instret + 1, wait := .none, arrv := false }) ∧
      ((Mem.word s.mem key + 1).toInt < target.toInt →
        t.ctx = { s.ctx with pend := [], wait := .await key there target true, arrv := true }) := by
  have hdone := State.loadDone_arrival hwait hp hsettled hpow
  obtain ⟨hcur, hctx, hpowered, hkeeps, hstored⟩ := s.arrivalDone_spec key
  have hword := hstored.word hwf
  have hsettled' := hkeeps hsettled
  generalize s.arrivalDone key = u at hdone hcur hctx hpowered hkeeps hstored hword hsettled'
  have hpow' : u.powered [key] = true := by rw [hpowered, hpow]
  have hfree : u.coreBusy key there = false := by
    rw [State.coreBusy, hsettled'.readsAfter (by simp [hctx]), hctx]
    rfl
  have gives : (s.loadDone 0).cur = s.cur → Gives (.loadReturn s.cur 0) s (s.loadDone 0) := fun h => congrArg _ (State.as_self h)
  rw [hdone] at gives
  by_cases h : target.toInt ≤ (Mem.word u.mem key).toInt
  · obtain ⟨t, hpoll, htcur, hmem, htctx, -⟩ := State.poll_met (home := there) (arr := true) hpow' hfree h
    rw [hpoll, State.retire_eq] at gives
    refine ⟨_, gives (htcur.trans hcur), fun hwf a => (congrArg (Mem.get · a) hmem).trans (hstored hwf a), fun _ => ?_, fun hlt => ?_⟩
    · rw [htctx, hctx]
      rfl
    · rw [hword] at h
      omega
  · have hpoll := State.poll_unmet (home := there) (arr := true) hpow' hfree (not_le.mp h)
    obtain ⟨l, hl⟩ := u.note_eq (byteKeys key 8)
    rw [hpoll, hl] at gives
    refine ⟨_, gives hcur, hstored, fun hle => ?_, fun _ => ?_⟩
    · rw [hword] at h
      omega
    · change ({ u.ctx with wait := _ } : Ctx) = _
      rw [hctx]

theorem exec_awaitPoll {arr : Bool} (hwait : s.ctx.wait = .await key there target arr)
    (hcur : (s.poll key there target arr).cur = s.cur) : Gives (.awaitPoll s.cur) s (s.poll key there target arr) := by
  change execAwaitPoll s.cur s = _
  rw [execAwaitPoll, State.getCtx_cur, hwait]
  exact congrArg _ (State.as_self hcur)

end

theorem barriers : Claim.Barriers := by
  intro s a b imm key there target va home i j word looked hpow
  refine ⟨fun hh => ⟨exec_await_handler hh, exec_arrwait_handler hh⟩, fun hh hcheck hfree => ?_, fun hh hcheck harr => ⟨fun hbusy => ?_,
    fun hldc hstc => ?_⟩, fun id hs sn hwait hp hsettled hwf => arrivalReturns hwait hp hsettled hpow hwf, fun arr hwait hfree => ?_⟩
  · have hawait := exec_await (b := b) hh hcheck
    have harrwait : s.ctx.arrv = true → exec j s = .next (s.poll key home (s.x b) true) := fun h =>
      (exec_arrwait hh hcheck).trans (if_pos h)
    refine ⟨fun hmet => done_of_poll hpow hfree hmet hawait, fun hlt => hawait.trans (congrArg _ (State.poll_unmet hpow hfree hlt)),
      fun harr hmet => done_of_poll hpow hfree hmet (harrwait harr),
      fun harr hlt => (harrwait harr).trans (congrArg _ (State.poll_unmet hpow hfree hlt))⟩
  · rw [Waits, exec_arrwait hh hcheck, harr, if_neg (by decide)]
    exact State.releasing_waits _ _ _ (Ctx.not_drained_of hbusy)
  · exact exec_arrwait_arrives hh hcheck harr hpow (Ctx.drained_of hldc hstc)
  · refine ⟨fun hmet => ?_, fun hlt => ?_⟩
    · obtain ⟨t, hpoll, hcur, hmem, hctx, -⟩ := State.poll_met (home := there) (arr := arr) hpow hfree hmet
      have hgives := exec_awaitPoll hwait (by rw [hpoll, State.retire_eq]; exact hcur)
      rw [hpoll, State.retire_eq] at hgives
      refine ⟨_, hgives, fun a => congrArg (Mem.get · a) hmem, ?_⟩
      rw [hctx]
      rfl
    · have hpoll := State.poll_unmet (home := there) (arr := arr) hpow hfree hlt
      obtain ⟨l, hl⟩ := s.note_eq (byteKeys key 8)
      rw [hl, State.stall_same (s := s.withRead l) hwait] at hpoll
      have hgives := exec_awaitPoll hwait (by rw [hpoll]; rfl)
      rw [hpoll, ← hl] at hgives
      exact hgives

/-! ## FENCE, WAIT and XFENCE (R215 to R217) -/

theorem done_of_retireWhen {i : Instr} {s : State} {ok : Bool} (hexec : exec i s = s.retireWhen ok) (h : ok = true) : Done i s s 8 :=
  done_of_retire ⟨rfl, rfl, rfl⟩ (by rw [hexec, h]; rfl)

theorem waits_of_retireWhen {i : Instr} {s : State} {ok : Bool} (hexec : exec i s = s.retireWhen ok) (h : ¬ok = true) :
    Waits i s .counters := by rw [Waits, hexec, Bool.eq_false_iff.mpr h]; rfl

theorem pendEmpty_iff (l : List Pend) (p : Sys2Proof.Path) : (!l.any (·.on p)) = true ↔ ∀ e ∈ l, e.on p = false := by simp

/-- What XFENCE waits for on its first path. -/
def State.pathOver (s : State) (p : Sys2Proof.Path) : Prop :=
  match p with
  | .core => s.ctx.ldc = 0 ∧ s.ctx.stc = 0
  | .strm => s.ctx.pushes = 0
  | .tile => s.tlc = 0 ∧ ∀ e ∈ s.ctx.pend, e.on .tile = false
  | .copy => s.ctx.cpc = 0
  | .msg => s.payloadsLeft s.cur = false
  | .wdb => True
  | .gwin => ∀ e ∈ s.ctx.pend, e.on .gwin = false
  | .near => ∀ e ∈ s.ctx.pend, e.on .near = false

theorem State.pathDone_iff (s : State) : ∀ p, s.pathDone p = true ↔ s.pathOver p
  | .core => Ctx.drained_iff s.ctx
  | .strm => beq_iff_eq
  | .tile => by rw [State.pathDone, Bool.and_eq_true, beq_iff_eq, pendEmpty_iff, State.pathOver]
  | .copy => beq_iff_eq
  | .msg => by rw [State.pathDone, Bool.not_eq_true', State.pathOver]
  | .wdb => iff_of_true rfl trivial
  | .gwin => pendEmpty_iff ..
  | .near => pendEmpty_iff ..

theorem exec_xfence_done {s : State} {p q : Sys2Proof.Path} (h : s.pathOver p) :
    exec (.xfence p q) s = .next (State.retire 8 (s.pathBegin q)) :=
  congrArg _ (if_pos ((s.pathDone_iff p).mpr h))

theorem exec_xfence_waits {s : State} {p q : Sys2Proof.Path} (h : ¬s.pathOver p) : Waits (.xfence p q) s .counters :=
  congrArg _ (if_neg (mt (s.pathDone_iff p).mp h))

theorem xfence_done {s : State} {p q : Sys2Proof.Path} (h : s.pathOver p) (hc : SameControl s (s.pathBegin q)) :
    Done (.xfence p q) s (s.pathBegin q) 8 := done_of_retire hc (exec_xfence_done h)

theorem State.pathBegin_other {s : State} {q : Sys2Proof.Path} (hcore : q ≠ .core) (hstrm : q ≠ .strm) : s.pathBegin q = s := by
  unfold State.pathBegin
  split
  next => exact absurd rfl hcore
  next => exact absurd rfl hstrm
  next => rfl

theorem State.pathBegin_core (s : State) : s.pathBegin .core =
    { s with core := { s.core with l1 := s.core.l1.filter fun e => s.owns s.k e.1 } } := s.acquire_eq

theorem ordering : Claim.Ordering := by
  intro s ld st p q tl cp sl ll met low empty complete
  have hfence : ((!ld || s.ctx.ldc == 0) && (!st || s.ctx.stc == 0)) = true ↔ met := by
    cases ld <;> cases st <;> simp [met]
  have hlow : (decide (s.ctx.ldc ≤ ll.toNat) && decide (s.ctx.stc ≤ sl.toNat) && decide (s.ctx.cpc ≤ cp.toNat) &&
      decide (s.tlc ≤ tl.toNat)) = true ↔ low := by simp [low, and_assoc]
  have hcomplete : complete ↔ s.pathOver p := by cases p <;> exact Iff.rfl
  rw [hcomplete]
  refine ⟨fun h => done_of_retireWhen rfl (hfence.mpr h), fun h => waits_of_retireWhen rfl (mt hfence.mp h),
    fun h => done_of_retireWhen rfl (hlow.mpr h), fun h => waits_of_retireWhen rfl (mt hlow.mp h),
    exec_xfence_waits, fun h hcore hstrm => ?_, fun h => ?_, fun h => xfence_done h ⟨rfl, rfl, rfl⟩⟩
  · have hbegin : s.pathBegin q = s := State.pathBegin_other hcore hstrm
    have hdone := xfence_done (q := q) h (by rw [hbegin]; exact ⟨rfl, rfl, rfl⟩)
    rwa [hbegin] at hdone
  · have hdone := xfence_done (q := .core) h (by rw [State.pathBegin_core]; exact ⟨rfl, rfl, rfl⟩)
    rw [State.pathBegin_core] at hdone
    exact ⟨_, hdone, rfl, rfl⟩

/-! ## RELEASE_PERFORM (R188) -/

/-- What a release means is what its instruction does. -/
theorem releaseMeaning_eq {i : Instr} {f : State → Out} (h : releaseMeaning i = some f) : exec i = f := by
  cases i <;> cases h <;> rfl

section
variable {s : State} {i : Instr} (hwait : s.ctx.wait = .release i)
include hwait

theorem releasePerform_waits (hd : s.ctx.drained = false) : Gives (.releasePerform s.cur) s s := by
  change execReleasePerform s.cur s = _
  simp only [execReleasePerform, State.getCtx_cur, hwait, hd]
  cases releaseMeaning i <;> rfl

theorem releasePerform_gives {t : State} (hd : s.ctx.drained = true) (hmeans : (releaseMeaning i).isSome = true)
    (hexec : exec i s = .next t) (hcur : t.cur = s.cur) : Gives (.releasePerform s.cur) s t := by
  obtain ⟨f, hf⟩ := Option.isSome_iff_exists.mp hmeans
  have hout : f s = .next t := by rw [← releaseMeaning_eq hf, hexec]
  have hmeaning : execReleasePerform s.cur s = s.asOut s.cur f := by
    rw [execReleasePerform, State.getCtx_cur, hwait]
    simp only [hf, hd, if_true]
  change execReleasePerform s.cur s = _
  rw [hmeaning, State.asOut, State.select_self, hout, ← hcur]
  exact congrArg _ t.select_self

end

theorem releasePerforms : Claim.ReleasePerforms := by
  intro s i hwait
  refine ⟨fun hbusy => releasePerform_waits hwait (Ctx.not_drained_of hbusy),
    fun hldc hstc t hmeans hexec hcur => releasePerform_gives hwait (Ctx.drained_of hldc hstc) hmeans hexec hcur, ?_⟩
  intro d a imm wid key hi hldc hstc hcheck hpow t
  subst hi
  have hd := Ctx.drained_of hldc hstc
  refine releasePerform_gives hwait hd rfl ?_ rfl
  have hdone : Done (.stl d a imm wid) s t 8 := done_of_retire (.issuing ..) (by
    rw [exec_stl_ok hcheck, State.releasing_drained _ _ _ hd, State.issueStore_powered hpow])
  exact hdone

/-- Settles O53: a poll of the barrier word either completes with an acquire or waits; a fence asks its counters; a release is performed
by its instruction's own meaning. -/
theorem synchronization : Obligations.Synchronization := ⟨barriers, ordering, releasePerforms⟩

end Sys2Proof.Machine
end

section
/-! Messages on their way: accepted, arriving, and taken into service (08 R199, R203 to R206, 12 R306, R311). -/

namespace Sys2Proof.Machine

open Sys2Proof

/-! ## What a start leaves in memory -/

@[simp] theorem State.modCore_dev (s : State) (k : Nat) (f : Core → Core) : (s.modCore k f).dev = s.dev := by
  unfold State.modCore State.setCore
  split <;> rfl

@[simp] theorem State.setCtx_dev (s : State) (r : Nat) (c : Ctx) : (s.setCtx r c).dev = s.dev := by
  unfold State.setCtx
  split <;> rfl

@[simp] theorem State.homeStore_dev : ∀ (l : List Host.Cell) (s : State), (s.homeStore l).dev = s.dev
  | [], _ => rfl
  | (_, _) :: l, _ => State.homeStore_dev l _

theorem State.joinRegion_dev (s : State) (r : Nat) (t : BitVec 16) : (s.joinRegion r t).dev = s.dev := by
  unfold State.joinRegion
  dsimp only
  split
  · rfl
  · exact State.setCtx_dev ..

theorem State.seat_dev (s : State) (r : Nat) (a : Activation) : (s.seat r a).dev = s.dev := by
  unfold State.seat
  dsimp only
  split
  · exact State.setCtx_dev ..
  · exact (State.modCore_dev ..).trans (State.setCtx_dev ..)

/-- With no tracing of activations, a start writes nothing. -/
theorem State.activate_mem {s : State} (h : s.dev.trAct = false) (r : Nat) (a : Activation) : (s.activate r a).mem = s.mem := by
  have hdev : (State.acquire (r / 8) (((s.seat r a).joinRegion r a.rtag).modCore (r / 8) Core.endThief)).dev.trAct = false := by
    rw [State.acquire, State.modCore_dev, State.modCore_dev, State.joinRegion_dev, State.seat_dev, h]
  rw [State.activate_eq, State.recordActivation, hdev, if_neg (by decide), State.acquire_mem, State.modCore_mem,
    (State.joinRegion_units ..).1, State.seat_mem]

/-! ## Queues and jobs -/

@[simp] theorem Core.inq_setInq (c : Core) (vn : Bool) (l : List InEntry) : (c.setInq vn l).inq vn = l := by cases vn <;> rfl

theorem Core.setInq_limits (c : Core) (vn : Bool) (l : List InEntry) :
    (c.setInq vn l).hres = c.hres ∧ (c.setInq vn l).regReqs = c.regReqs := by cases vn <;> exact ⟨rfl, rfl⟩

@[simp] theorem Core.out_setOut (c : Core) (vn : Bool) (l : List Msg) : (c.setOut vn l).out vn = l := by cases vn <;> rfl

theorem State.job_asid {s : State} {n : Nat} {j : Job} (h : s.job n = some j) : j.asid = n := by
  simpa using List.find?_some h

theorem State.job_setJob (s : State) (j : Job) : (s.setJob j).job j.asid = some j := List.find?_cons_of_pos (by simp)

/-- A siding without a ring of entries lies in no memory. -/
theorem State.sideMsg_free {j : Job} (h : j.ring = none) (s : State) (m : Msg) :
    s.sideMsg j m = s.setJob { j with siding := j.siding ++ [m], entered := j.entered + 1 } := by
  rw [State.sideMsg, h]

@[simp] theorem State.modCore_net (s : State) (k : Nat) (f : Core → Core) : (s.modCore k f).net = s.net := by
  unfold State.modCore State.setCore
  split <;> rfl

/-! ## The network accepts a message (R203, 15 R356, R359) -/

section
variable {s : State} {k : Nat} {vn : Bool} {m : Msg} {l : List Msg} (hout : (s.getCore k).out vn = m :: l)
include hout

theorem messageAccepted_here (hdev : m.w0.extractLsb' 16 9 = s.dev.devnum) (hside : s.sidedWith m = none) :
    Gives (.messageAccepted k vn 0) s { s.setCore k ((s.getCore k).setOut vn l) with net := s.net ++ [m] } := by
  change execMessageAccepted k vn 0 s = _
  simp [execMessageAccepted, hout, hdev, hside, removeAt]

theorem messageAccepted_unlinked (hdev : m.w0.extractLsb' 16 9 ≠ s.dev.devnum) (hlink : s.linked = false) :
    Gives (.messageAccepted k vn 0) s s := by
  change execMessageAccepted k vn 0 s = _
  simp [execMessageAccepted, hout, hdev, hlink]

theorem messageAccepted_away (hdev : m.w0.extractLsb' 16 9 ≠ s.dev.devnum) (hlink : s.linked = true) :
    Gives (.messageAccepted k vn 0) s { s.setCore k ((s.getCore k).setOut vn l) with
      sent := s.sent ++ [{ m with payload := toWire (msgFmt m.w0) m.payload }] } := by
  change execMessageAccepted k vn 0 s = _
  simp [execMessageAccepted, hout, hdev, hlink, removeAt]

end

/-! ## A message arrives (R203, 12 R306) -/

section
variable {s : State} {k i : Nat} {m : Msg} {l : List Msg} {p : Part} (hnet : s.net = m :: l) (hdest : destCore m.w0 = some k)
  (hpart : s.partOf k = some (i, p))
include hnet hdest hpart

theorem messageArrival_queued (hrun : p.asid = m.asid ∧ p.idle = false)
    (hroom : ((s.getCore k).inq (msgVn m.w0)).length < Config.inQueueSize) :
    Gives (.messageArrival 0) s (State.enqueue { s with net := l } k m) := by
  change execMessageArrival 0 s = _
  simp [execMessageArrival, hnet, hdest, hpart, hrun, hroom, removeAt]

theorem messageArrival_full (hrun : p.asid = m.asid ∧ p.idle = false)
    (hfull : Config.inQueueSize ≤ ((s.getCore k).inq (msgVn m.w0)).length) : Gives (.messageArrival 0) s s := by
  change execMessageArrival 0 s = _
  simp [execMessageArrival, hnet, hdest, hpart, hrun, Nat.not_lt.mpr hfull]

theorem messageArrival_other {j : Job} (hrun : p.asid ≠ m.asid ∨ p.idle = true) (hjob : s.job m.asid = some j) :
    Gives (.messageArrival 0) s (if j.full then s else State.sideMsg { s with net := l } j m) := by
  have hother : (decide (p.asid = m.asid) && !p.idle) = false := by rcases hrun with h | h <;> simp [h]
  change execMessageArrival 0 s = _
  simp [execMessageArrival, hnet, hdest, hpart, hother, hjob, removeAt]

end

/-! ## A core takes a message into service (R199, R204, R206, 12 R311) -/

/-- The state in which a message starts its context: the message has left the waiting ones of its queue, and its receive slot is
written. -/
def State.slotted (s : State) (r : Nat) (m : Msg) : State :=
  (s.modCore (r / 8) fun c => c.setInq (msgVn m.w0) ((if m.call then unqueue else serve (r % 8)) (c.inq (msgVn m.w0)))).homeStore (slotCells r m)

theorem State.startMsg_eq (s : State) (r : Nat) (m : Msg) :
    s.startMsg r m = ((s.slotted r m).activate r m.activation).pmc (r / 8) 11 (some (r % 8)) := rfl

theorem State.slotted_stored (s : State) (r : Nat) (m : Msg) : Stored s (s.slotted r m) (slotCells r m) :=
  Stored.of_mem (State.homeStore_stored (slotCells r m) _) (State.modCore_mem ..)

theorem Started.pmc {s u : State} {r : Nat} {a : Activation} (h : Started s u r a) (k e : Nat) (c : Option Nat) :
    Started s (u.pmc k e c) r a := by
  have hmem : (u.pmc k e c).mem = u.mem := State.modCore_mem ..
  unfold Started at h ⊢
  rw [State.getCtx_pmc, hmem]
  exact h

/-- A message starts its context as its activation says, its slot written. -/
theorem State.startMsg_starts {s : State} (htr : s.dev.trAct = false) (r : Nat) (m : Msg) :
    Started s (s.startMsg r m) r m.activation ∧ Stored s (s.startMsg r m) (slotCells r m) := by
  have hunits := SameUnits.homeStore (slotCells r m)
    (s.modCore (r / 8) fun c => c.setInq (msgVn m.w0) ((if m.call then unqueue else serve (r % 8)) (c.inq (msgVn m.w0))))
  have hcore : (s.slotted r m).getCore (r / 8) = (s.getCore (r / 8)).setInq (msgVn m.w0)
      ((if m.call then unqueue else serve (r % 8)) ((s.getCore (r / 8)).inq (msgVn m.w0))) :=
    (hunits.getCore _).trans (State.getCore_modCore_same ..)
  have hdev : (s.slotted r m).dev.trAct = false := by rw [State.slotted, State.homeStore_dev, State.modCore_dev, htr]
  have hmem : (s.startMsg r m).mem = (s.slotted r m).mem := (State.modCore_mem ..).trans (State.activate_mem hdev ..)
  refine ⟨?_, fun hwf a => ?_⟩
  · rw [State.startMsg_eq]
    refine Started.pmc (started_activate r _ (fun q => (hunits.getCtx q).trans (State.getCtx_modCore ..)) ?_ ?_) ..
    · exact (congrArg Core.hres hcore).trans (Core.setInq_limits ..).1
    · exact (congrArg Core.regReqs hcore).trans (Core.setInq_limits ..).2
  · rw [hmem]
    exact s.slotted_stored r m hwf a

section
variable {s : State} {k r : Nat} {m : Msg} (hrun : s.running k = true)
include hrun

theorem messageService_reply (hready : s.vn1Ready k = some (r, m)) : Gives (.messageService k) s (s.startMsg r m) := by
  change execMessageService k s = _
  simp [execMessageService, hrun, hready]

theorem messageService_message (hnone : s.vn1Ready k = none) (hready : s.vn0Ready k = some (r, m)) (hcall : m.call = false) :
    Gives (.messageService k) s (s.startMsg r m) := by
  change execMessageService k s = _
  simp [execMessageService, hrun, hnone, hready, hcall]

theorem callActivation_call (hnone : s.vn1Ready k = none) (hready : s.vn0Ready k = some (r, m)) (hcall : m.call = true) :
    Gives (.callActivation k) s (s.startMsg r m) := by
  change execCallActivation k s = _
  simp [execCallActivation, hrun, hnone, hready, hcall]

end

/-- Settles O29: the head of a send slot list or of the network moves on, and a start is an activation after the slot is written. -/
theorem messageEvents : Obligations.MessageEvents := by
  intro s k i r vn m l p _ c q
  have left : ((s.setCore k (c.setOut vn l)).getCore k).out vn = l := by rw [State.getCore_setCore, if_pos rfl, Core.out_setOut]
  refine ⟨fun hout hdev hside => ⟨_, messageAccepted_here hout hdev hside, rfl, ?_, fun a => ?_⟩,
    fun hout => messageAccepted_unlinked hout, fun hout hdev hlink => ⟨_, messageAccepted_away hout hdev hlink, ?_, rfl⟩,
    fun hnet hdest hpart => ⟨fun hasid hidle hroom => ?_, fun hasid hidle hfull => ?_, fun j hrun hjob => ?_⟩, ?_⟩
  · exact left
  · exact congrArg (Mem.get · a) (State.setCore_mem ..)
  · exact left
  · refine ⟨_, messageArrival_queued hnet hdest hpart ⟨hasid, hidle⟩ hroom, ?_, fun a => ?_, ?_⟩
    · exact State.modCore_net ..
    · exact congrArg (Mem.get · a) (State.modCore_mem ..)
    · rw [State.enqueue, State.getCore_modCore_same, Core.inq_setInq]
      rfl
  · exact messageArrival_full hnet hdest hpart ⟨hasid, hidle⟩ hfull
  · have hgives := messageArrival_other hnet hdest hpart hrun hjob
    have hasid := State.job_asid hjob
    refine ⟨fun hroom hring => ?_, fun hfull => ?_⟩
    · have hfull : j.full = false := by simp [Job.full, Nat.not_le.mpr hroom]
      rw [hfull, if_neg (by decide), State.sideMsg_free hring] at hgives
      refine ⟨_, hgives, rfl, fun _ => rfl, ?_⟩
      rw [← hasid]
      exact State.job_setJob _ { j with siding := j.siding ++ [m], entered := j.entered + 1 }
    · have hfull' : j.full = true := by simp [Job.full, hfull]
      rw [hfull'] at hgives
      exact hgives
  · intro hrun htr starts
    have starts_of : ∀ ev, Gives ev s (s.startMsg r m) → starts ev := fun ev h => ⟨_, h, State.startMsg_starts htr r m⟩
    exact ⟨fun hready _ _ => starts_of _ (messageService_reply hrun hready), fun hnone hready _ =>
      ⟨fun hcall => starts_of _ (messageService_message hrun hnone hready hcall),
        fun hcall => starts_of _ (callActivation_call hrun hnone hready hcall)⟩⟩

end Sys2Proof.Machine
end
